-- ==== Sys2Proof/Word.lean ====
section
/-! DEFINITION. The word types of the N16 (R6, R106, R170, R247): bytes, 64-bit scalars, 32-bit lanes,
1,024-bit vector registers and 96-bit instruction words. -/

namespace Sys2Proof

/-- One byte of any memory (R6). -/
abbrev Byte := BitVec 8

/-- One scalar register (R170). -/
abbrev Word := BitVec 64

/-- One lane of a vector register, one mask register, one FP32 element (R247, R225). -/
abbrev Lane := BitVec 32

/-- One vector register: 32 lanes of 32 bits (R247). -/
abbrev Vec := BitVec 1024

/-- One instruction word: three 32-bit parcels, lowest address first (R6, R106). -/
abbrev IWord := BitVec 96

end Sys2Proof
end

