-- ==== Sys2Proof/Config.lean ====
section
/-! DEFINITION. What the spec leaves open as a value: opaque constants, of which no proof can see a value. -/

namespace Sys2Proof.Config

/-- The correctly rounded result of a transcendental function (function, type, rounding, input encoding) in the case,
if there is one, that the model's interval of 1,024 fraction bits does not decide (DESIGN CHOICE, assumption 10). -/
opaque transBits : Nat → Nat → Nat → Nat → Nat

/-- Its flags. -/
opaque transFlags : Nat → Nat → Nat → Nat → BitVec 5

/-- A byte that a read of host memory, or of a peer's memory, returns, by address and by the count of such values
already taken: what stands there is not the device's (DESIGN CHOICE, assumption 12). -/
opaque outsideByte : Nat → Nat → Byte

/-- The tag that xstat reads of a cancelled handle, by the count of free values already taken: R416 states none (DESIGN CHOICE,
assumption 80). -/
opaque cancelTag : Nat → BitVec 32

/-- A number of ticks that the spec leaves open, by the count of free values already taken (DESIGN CHOICE, assumption 8). -/
opaque freeDelay : Nat → Nat

/-- The device secret, which the SRAM physically unclonable function of the base die yields (R79, DESIGN CHOICE,
assumption 79). -/
opaque devSecret : List Byte

/-- The key of the flash's HMAC, which the boot ROM derives from the device secret (R79, DESIGN CHOICE, assumption 79). -/
opaque flashKey : List Byte → List Byte

/-- The private key that is derived on the curve from a secret: from the device secret, or from a compound device
identifier (R81, DESIGN CHOICE, assumption 79). -/
opaque keyOf : List Byte → Nat

/-- The number, below the curve's order, that a signature under a private key over some bytes takes (DESIGN CHOICE,
assumption 79). -/
opaque signNonce : Nat → List Byte → Nat

/-- The certificate of the device identity key, which Iswaric issues at manufacture (R81, DESIGN CHOICE, assumption 79). -/
opaque idCert : List Byte

/-- The hash of the owner key that is written at manufacture (R82, DESIGN CHOICE, assumption 4). -/
opaque ownerHash : BitVec 384

/-- The answer to an SPDM request whose contents the spec does not give, by request and count of such values (R66,
DESIGN CHOICE, assumption 79). -/
opaque spdmAnswer : List Byte → Nat → List Byte

/-- What a read of BAR0 at an offset that holds no register returns, by offset and count of such values (R69,
DESIGN CHOICE, assumption 12). -/
opaque bar0Hole : Nat → Nat → BitVec 64

/-- The serial number of the device (R82, DESIGN CHOICE, assumption 4). -/
opaque devSerial : BitVec 64

/-- The stepping of its silicon (R3, DESIGN CHOICE, assumption 4). -/
opaque devStep : BitVec 8

/-- The strap of the system board, which sets the low bits of the PMBus address (R516). -/
opaque pmStrap : BitVec 3

/-- The SHA-384 hash of the Iswaric root public key, in the boot ROM (R80, DESIGN CHOICE, assumption 79). -/
opaque rootHash : BitVec 384

/-- The voltage that a rail passes through during a ramp, by count of such values, above the lowest of its ramp (R202, R215,
DESIGN CHOICE, assumption 8). -/
opaque rampVolt : Nat → Nat

/-- What the management controller computes after a run-time harvest, by the count of free values already taken: further tiles
that it harvests, and the entries of every router's fault-region table, by tile and index (R97, R480, DESIGN CHOICE,
assumption 92). -/
opaque faultPlan : Nat → List Nat × (Nat → Nat → BitVec 64)

end Sys2Proof.Config
end

