-- ==== Sys2Proof/Syntax.lean ====
section
/-! DEFINITION. The instructions of the N16 and the events of its agents: `Instr` has one constructor for each row of
the opcode table. Rows 0 to 196 are instruction words (R116); rows 197 to 332 are events, whose operands are what the
agent that raises them supplies (a reading, a payload, the place it acts on). -/

namespace Sys2Proof

/-! ### Operand kinds (R108 to R112) -/

/-- The class S special registers (R110): the ones a scalar source position may name. -/
inductive Special where
  | p (n : BitVec 4) | m (n : BitVec 3) | x (n : BitVec 2)
  | idCx | idCy | idCz | idRx | idRy | idRz | idGang | idStrand | idRegion | idPart | idDev | idStep
  | tmNow | ttTick | knLo | knInv | knG | knMode
deriving DecidableEq, Repr

/-- A scalar source position: kind 0 or a class S special (R109). -/
inductive Src where
  | s (n : BitVec 6)
  | sp (r : Special)
deriving DecidableEq, Repr

/-- A vector operand: kind 1 (v0 to v255) or kind 3 (v[xJ+off]) (R108). -/
inductive VOp where
  | v (n : BitVec 8)
  | vx (j : BitVec 2) (off : BitVec 6)
deriving DecidableEq, Repr

/-- Type codes 0x0 to 0xB (R112). -/
inductive Ty where
  | i8 | i16 | i32 | i64 | n8 | n16 | n32 | n64 | f32 | bf16 | a8 | t8
deriving DecidableEq, Repr

/-- Rounding codes 0 to 4 (R112, R231). -/
inductive Rnd where
  | ne | tz | up | dn | od
deriving DecidableEq, Repr

/-- Operand B of the I column: a scalar source, or the 18-bit immediate (R182). -/
inductive SrcB where
  | reg (b : Src)
  | imm (v : BitVec 18)
deriving DecidableEq, Repr

/-- Operand B of cmp: a scalar source, or the 17-bit immediate (R193). -/
inductive CmpB where
  | reg (b : Src)
  | imm (v : BitVec 17)
deriving DecidableEq, Repr

/-- Condition codes 0 to 6 of cmp and vcmp (R193, R260); code 6 is tst, or un for .f32. -/
inductive Cond where
  | eq | ne | lt | le | gt | ge | tst
deriving DecidableEq, Repr

/-- The twelve scopes in the order of their codes (R11, R147). -/
inductive Scope where
  | strand | tile | quad | gang | column | layer | block | region | device | host | peer | system
deriving DecidableEq, Repr

/-- The three phase kinds in the order of their codes (R39, R147). -/
inductive PKind where
  | compute | exchange | elastic
deriving DecidableEq, Repr

/-- The six torus ports in port order (R60). -/
inductive Dir where
  | xm | xp | ym | yp | zm | zp
deriving DecidableEq, Repr

/-- The six dimension orders in the order of their codes (R403). -/
inductive Order where
  | xyz | xzy | yxz | yzx | zxy | zyx
deriving DecidableEq, Repr

/-- The lane mask a three-operand vector word may name (R248, R250). -/
abbrev Mask := Option (BitVec 3)

/-- The count of rep: the immediate, or a scalar register (R166). -/
inductive RepCount where
  | imm (c : BitVec 12)
  | reg (b : BitVec 6)
deriving DecidableEq, Repr

/-- The activation operand of mm, mmg and splev: a scratchpad descriptor in two scalars, or a stream register (R352). -/
inductive AOp where
  | desc (a b : BitVec 6)
  | strm (n : BitVec 3)
deriving DecidableEq, Repr

/-- Operand B of mand, mor and mxor: a mask register, or a scalar source (R261). -/
inductive MSrc where
  | m (n : BitVec 3)
  | s (b : Src)
deriving DecidableEq, Repr

/-- Shift amounts of vshl, vshr, vsar and vrot: from operand B, or from immediate bits 36:32 (R258, R265). -/
inductive VAmt where
  | v (b : VOp)
  | imm (n : BitVec 5)
deriving DecidableEq, Repr

/-- Amount of vrot: a scalar source, or immediate bits 36:32 (R265). -/
inductive SAmt where
  | s (b : Src)
  | imm (n : BitVec 5)
deriving DecidableEq, Repr

/-- Index of vext: a scalar source, or immediate bits 38:32 (R264). -/
inductive XIdx where
  | s (b : Src)
  | imm (n : BitVec 7)
deriving DecidableEq, Repr

/-- Operations of vredl and vscan (R267). -/
inductive RedOp where
  | add | min | max
deriving DecidableEq, Repr

/-- Operations of atom (R313, R319). -/
inductive AtomOp where
  | add | min | max | and | or | xor | swap | fadd
deriving DecidableEq, Repr

/-- Operations of upd, and the FP32 addition of updf (R302, R313, R321). -/
inductive UpdOp where
  | add | min | max | and | or | xor | fadd
deriving DecidableEq, Repr

/-- Operations of reduce and allred, in the order of their codes (R403). -/
inductive TreeOp where
  | add | min | max | and | or | xor
deriving DecidableEq, Repr

/-- Selectors of fbasis: a basis value B0 to B3, or the interval index (R273). -/
inductive BasisSel where
  | b0 | b1 | b2 | b3 | idx
deriving DecidableEq, Repr

/-- The copy control registers in the order of their numbers (R326). -/
inductive CpReg where
  | src | dst | len | str0 | str1 | str2 | str3 | str4 | str5 | geo | fmt
deriving DecidableEq, Repr

/-- Selectors of xstat (R416). -/
inductive XSel where
  | status | tag | overflow | handles | orders
deriving DecidableEq, Repr

/-! ### Operand groups shared by many words -/

/-- A typed I-column word with two sources. -/
structure Bin where
  t : Ty
  d : BitVec 6
  a : Src
  b : SrcB
deriving DecidableEq, Repr

/-- A typed I-column word with one source. -/
structure Un where
  t : Ty
  d : BitVec 6
  a : Src
deriving DecidableEq, Repr

/-- A vector word with operands D, A and B and a mask. -/
structure V3 where
  d : VOp
  a : VOp
  b : VOp
  msk : Mask
deriving DecidableEq, Repr

/-- A vector word with operands D and A and a mask. -/
structure V2 where
  d : VOp
  a : VOp
  msk : Mask
deriving DecidableEq, Repr

/-- A four-operand vector word. -/
structure V4 where
  d : VOp
  a : VOp
  b : VOp
  c : VOp
deriving DecidableEq, Repr

/-- Type, rounding and saturation of a float word (R250, R270). -/
structure Fm where
  t : Ty
  r : Rnd
  sat : Bool
deriving DecidableEq, Repr

/-- The rows field: rows - 1 and row0 (R358). -/
structure Rows where
  n1 : BitVec 6
  r0 : BitVec 6
deriving DecidableEq, Repr

/-- Operands of an array word: accumulator, descriptor scalars, token and rows (R358, R381). -/
structure ArrD where
  d : BitVec 3
  a : BitVec 6
  b : BitVec 6
  k : BitVec 3
  rows : Rows
deriving DecidableEq, Repr

/-- Operands of mm, mmg and splev: .z, accumulator, activation operand, token and rows (R358, R381). -/
structure MmOp where
  z : Bool
  d : BitVec 3
  src : AOp
  k : BitVec 3
  rows : Rows
deriving DecidableEq, Repr

/-- A tree word: type, D, A, token, slot and the predicate that receives nf (R403). -/
structure TreeW where
  t : Ty
  d : VOp
  a : VOp
  k : BitVec 3
  slot : BitVec 4
  e : BitVec 4
deriving DecidableEq, Repr

/-! ### What events carry -/

/-- A context on a tile: tile number (R4) and partition number (R32). -/
structure Loc where
  tile : Nat
  part : Nat
deriving DecidableEq, Repr

/-- One register write of a word or of an operation that completes (R173, R249, R314). -/
inductive Wr where
  | s (n : Nat) (v : Word)
  | p (n : Nat) (b : Bool)
  | m (n : Nat) (mask : Lane) (v : Lane)
  | x (n : Nat) (v : BitVec 16)
  | v (n : Nat) (mask : Lane) (v : Vec)
  | flags (f : BitVec 5)
  | key (v : Word)
  | fpst (en clr : BitVec 5)
deriving DecidableEq, Repr

/-- Where a home read puts its value: a scalar (by its number in `Wr`) of a type, lanes of a vector register, or
nowhere. -/
inductive LdDest where
  | s (d : Nat) (t : Ty)
  | v (n : Nat) (mask : Lane)
  | none
deriving DecidableEq, Repr

/-- What a request does at the home of its line (R294, R302, R318 to R320). `pub` is the number of the publication that
a line belongs to, 0 for a push (R300, R435). -/
inductive HomeOp where
  | read (size : Nat) (overlay : List (Nat × Byte)) (dest : LdDest)
  | write (bytes : List (Nat × Byte)) (pub : Nat)
  | merge (op : UpdOp) (t : Ty) (elems : List (Nat × Nat)) (pub : Nat)
  | ldrm (t : Ty) (dest : LdDest)
  | strm (t : Ty) (v : Nat)
  | atom (op : AtomOp) (t : Ty) (b : Nat) (dest : LdDest)
  | cas (t : Ty) (cmp new : Nat) (dest : LdDest)
deriving DecidableEq, Repr

/-- A request on its way to a home: issuing context, token, virtual address of the word (0 for a line of a buffer),
physical address, operation, program counter of the word. -/
structure HomeReq where
  loc : Loc
  tok : Option Nat
  va : Nat
  pa : Nat
  op : HomeOp
  pc : Nat
  /-- the dimension order of the reply (R398) -/
  rorder : Nat := 0
  /-- the device that asks, where it is a peer (R424, R428, R444); the order in its header, and whether it has come from its
  attach port to the home -/
  peer : Option Nat := none
  order : Nat := 0
  entered : Bool := false
  /-- the device itself, or the host through BAR2, asks: where in what the host reads the bytes stand (R290, R428) -/
  agent : Option Nat := none
deriving DecidableEq, Repr

/-- A home's reply (R318): the request, the writes it carries, ctl.lastseq (wr, slice, seq), whether the data was
poisoned (R311), and whether a peer answered with an error completion (R425). -/
structure HomeRep where
  q : HomeReq
  wr : List Wr
  lastseq : Option (Bool × Nat × Nat)
  poisoned : Bool
  err : Bool
deriving DecidableEq, Repr

/-- An ldx or stx request at its target tile (R317). -/
structure RemReq where
  loc : Loc
  tok : Nat
  target : Nat
  off : Nat
  store : Option Vec
  mask : Lane
  dest : Nat
  pc : Nat
  /-- the dimension order of the reply (R398) -/
  rorder : Nat := 0
deriving DecidableEq, Repr

/-- A stop record (R452). -/
structure StopRec where
  code : Nat
  kind : Nat
  prec : Bool
  bank : Nat
  part : Nat
  tile : Nat
  region : Nat
  tnow : Nat
  ttick : Nat
  pc : Nat
  detail : Nat
  word : Nat
  xfer : Nat
  seq : Nat
  cols : List (Option (Nat × Nat))
  /-- device tick on which the trap was raised; not a field of the record -/
  tick : Nat
deriving DecidableEq, Repr

/-- A tagged message (R396, R407, R408): its source, class and order, the order of its
acknowledgement, its destination and tag, the length and address of
its buffer, the bytes read so far with the numbers of its poisoned granules, the token and PC of its send, and the device
tick on which that word issued. It is at its source until it holds all its bytes. -/
structure Msg where
  srcDev : Nat
  srcTile : Nat
  srcPart : Nat
  cls : Nat
  order : Nat
  rorder : Nat
  dev : Nat
  part : Nat
  tile : Nat
  tag : Nat
  len : Nat
  addr : Nat
  bytes : List Byte
  pz : List Nat
  tok : Nat
  pc : Nat
  sent : Nat
  /-- header fields (R396): the flag nf of R246, and whether the packet has taken a detour -/
  nf : Bool := false
  detour : Bool := false
  /-- the Zheost port by which it leaves the device (R424) -/
  port : Nat := 0
  /-- an acknowledgement carries an error (R478) -/
  err : Bool := false
  /-- it is on its way to the attach port by which it leaves, or has come from the one by which it entered (R424) -/
  leaving : Bool := false
  entered : Bool := false
  /-- a class-7 packet's stop record (R394) -/
  stop : Option StopRec := none
deriving DecidableEq, Repr

/-- A timed packet (R404, R405): where it goes, its due tick, and the device ticks on which its header arrives and its last
flit lands; it reads its bytes (stage 0), its header arrives (1), and it lands (2). -/
structure TPkt where
  src : Nat
  dst : Nat
  part : Nat
  addr : Nat
  off : Nat
  len : Nat
  bytes : List Byte
  pz : List Nat
  due : Nat
  head : Nat
  land : Nat
  stage : Nat
  /-- device tick of its injection (R406) -/
  inj : Nat := 0
deriving DecidableEq, Repr

/-- The child device, by its place in ctl.ptree, of what reaches a device's root tile, and whether that has come from its attach
port to the tile (R424, R426). -/
structure PeerKid where
  child : Nat
  entered : Bool := false
deriving DecidableEq, Repr

/-- What a failed router's recovery is at (R480): the partitions that lost a packet in it; or, once the halts are delivered, the
management controller's next steps. -/
structure Losses where
  parts : List Nat := []
  recover : Bool := false
deriving DecidableEq, Repr

/-- What a tree operation is (R418). -/
inductive TreeKind where
  | reduce (op : TreeOp) (t : Ty)
  | allred (op : TreeOp) (t : Ty)
  | bcast (t : Ty)
  | xbar
deriving DecidableEq, Repr

/-- A forwarded word (R123): PC, bits, the leader's outcome when it is a transfer, and the reissue number, strides and
count of reissues of a word that the leader's sequencer captured or reissued (R169). -/
structure Fwd where
  pc : Nat
  bits : IWord
  outcome : Option Nat
  j : Nat
  strides : BitVec 32
  cnt : Nat
  /-- no word, but the outcome of a join that the leader resolved: whether it continued (R123, R125) -/
  joined : Option Bool := none
deriving DecidableEq, Repr

/-- What mmrot sends to a ring neighbour (R366): a row of A, with whether it is poisoned, a weight row, or the plane's
scales and state; or nothing, on the tick on which the first row is due. -/
inductive Shift where
  | aRow (row : Nat) (bytes : List Byte) (pz : Bool)
  | wRow (row : Nat) (codes : List Nat)
  | state (ty : Nat) (spl cmp : Bool) (scales : List Nat)
  | due
deriving DecidableEq, Repr

/-- State that has no poison (R311), and the datapaths and engines of R215. -/
inductive ErrPlace where
  | register | instrStore | tagTable | buffer | accumulator | latch | datapath | engine
deriving DecidableEq, Repr

/-- Where an error was found (R310 to R312). -/
inductive ErrAt where
  | spad (loc : Loc) (addr : Nat)
  | core (loc : Loc) (place : ErrPlace)
  | slice (pa : Nat)
  | dram (pa : Nat)
deriving DecidableEq, Repr

/-- A record placed by the dispenser for a recruit or a task (R153 to R155). -/
structure Start where
  region : Nat
  pc : Nat
  s1 : Nat
  s2 : Nat
  dreg : Nat
  cell : Nat
deriving DecidableEq, Repr

/-- A mapping request of the host (R307). -/
structure MapReq where
  part : Nat
  va : Nat
  pa : Nat
  chunks : Nat
  w : Bool
deriving DecidableEq, Repr

/-- One sample of a rail's telemetry (R216, R217, R516): current in A, voltage in mV and temperature in degrees. -/
structure RailSample where
  amps : Nat
  mv : Nat
  temp : Int := 0
deriving DecidableEq, Repr

/-- A signature over a firmware image, and the public point that it claims to verify under (R80). -/
structure FwSig where
  root : List Byte
  sig : List Byte
deriving DecidableEq, Repr

/-- PMBus's PAGE, at the 7-bit address that it names (R516). -/
structure PmPage where
  addr : Nat
  page : Nat
deriving DecidableEq, Repr

/-- A reading of a sensor: a temperature in 0.25 degree units, or a failed sensor; or the management controller masks a
sensor that has failed (R221, R222, R308). -/
inductive Reading where
  | temp (q : Int)
  | fail
  | masked
deriving DecidableEq, Repr

/-- A device register that a write may name: by its offset in BAR0 and the width of the access, or, where the spec gives
it no offset, by name (R69, R95, R103, R303). -/
inductive RegAt where
  | bar0 (off width : Nat)
  | pgate
  | ptroot (part : Nat)
  | flt (tile n : Nat)
deriving DecidableEq, Repr

/-- An IEEE 1588 message that reaches a port (R197): the master's sync with its origin timestamp; its answer to the delay
request, with its receive timestamp, after which the engine's servo reports lock and asks for a rate; or the delay request of
a device that this one is a master for. Timestamps are in ns. -/
inductive PtpMsg where
  | sync (t1 : Int)
  | delayResp (t4 : Int) (lock : Bool) (slewPpm : Int)
  | delayReq
deriving DecidableEq, Repr

/-- A request of SPDM 1.2 over the DOE mailbox (R66, R81): a measurement block, the certificate chain, its digest, or any
other request, by its bytes. -/
inductive SpdmReq where
  | measurements (index : Nat)
  | certificate
  | digests
  | other (bytes : List Byte)
deriving DecidableEq, Repr

/-- Elements of the transfer at the head of a copy queue that one packet carries (R325, R394): the queue, the first of them and
their number, the tiles of their sources and of their destinations, where none is an attach port (R89), and whether they have been
read and are to be written. -/
structure CopyRun where
  q : Nat
  elem : Nat
  n : Nat
  srcs : List (Option Nat)
  dsts : List (Option Nat)
  lands : Bool := false
deriving DecidableEq, Repr

/-- A copy slot of a place, or a run of its elements that reaches its source or its destination, and whether the host or the peer
completes an access in it with an error (R325, R339). -/
structure SlotMove where
  l : Loc
  err : Bool
  run : Option CopyRun := none
deriving DecidableEq, Repr

/-- A read in BAR0: its offset and its width in bytes (R69). -/
structure BarRead where
  off : Nat
  width : Nat
deriving DecidableEq, Repr

/-- Link IDE, 0, or a selective stream, 1 to 4, that enters or leaves the secure state, and the host addresses, first and
last, that it covers (R66, R68). -/
structure IdeChange where
  stream : Nat
  secure : Bool
  cover : List (Nat × Nat)
deriving DecidableEq, Repr

/-- The length of a configuration blob, and the owner's public key that comes with it (R82). -/
structure BlobPart where
  len : Nat
  owner : List Byte
deriving DecidableEq, Repr

/-- An image chunk that arrives, and whether with an uncorrectable link error (R63, R64). -/
structure ChunkIn where
  chunk : Nat
  err : Bool
deriving DecidableEq, Repr

/-- The hold of a rail's offset at a P-state (R214). -/
structure CanaryHold where
  rail : Nat
  p : Nat
deriving DecidableEq, Repr

/-- A partition to restore; on a spare device, with the replicas of the lost device's slot (R483, R485). -/
structure RestoreAt where
  part : Nat
  spare : Option (Nat × Nat)
deriving DecidableEq, Repr

/-- What the management controller may do with a halted strand's state when dbg is 1 (R450). -/
inductive DebugOp where
  | readS (n : Nat)
  | write (w : Wr)
deriving DecidableEq, Repr

/-- The instructions and events of the N16, one constructor for each row of the opcode table, in its order. -/
inductive Instr where
  -- K column (R142 to R169, R199, R204, R466)
  | br (det : Bool) (off : BitVec 18)
  | call (det : Bool) (d : BitVec 6) (off : BitVec 18)
  | ret (det : Bool) (a : BitVec 6)
  | jmpi (det : Bool) (a : BitVec 6) (off : BitVec 18)
  | loop (det : Bool) (d : BitVec 6) (off : BitVec 18)
  | nop
  | trap (code : BitVec 18)
  | sleep (mask : BitVec 10)
  | phase (sc : Scope) (kind : PKind) (sync step : Bool)
  | bar (sc : Scope) (tok : Option (BitVec 3))
  | rfork (q : Bool) (d a b : BitVec 6) (off : BitVec 18)
  | join (a : BitVec 6)
  | spawn (chain : Bool) (k : BitVec 3) (a b : BitVec 6)
  | trigger
  | stepdl (a b : Src) (extra : BitVec 18)
  | waitt (tok : Option (BitVec 3)) (a : Src)
  | follow (dir : Dir)
  | detach
  | rep (a : BitVec 6) (count : RepCount) (len1 : BitVec 4)
  | uiret
  | uien (mask : BitVec 4)
  | csrr (d : BitVec 6) (n : BitVec 12)
  | csrw (d : BitVec 6) (a : Src) (n : BitVec 12)
  | csrs (d : BitVec 6) (a : Src) (n : BitVec 12)
  | csrc (d : BitVec 6) (a : Src) (n : BitVec 12)
  | fence (sc : Scope)
  | tlbinv (sc : Scope) (d : BitVec 6) (range : Option (Src × Src)) (k : BitVec 3)
  | halt
  -- I column (R181)
  | add (sat : Bool) (o : Bin)
  | sub (sat : Bool) (o : Bin)
  | mul (sat : Bool) (o : Bin)
  | mulh (o : Bin)
  | mulhn (o : Bin)
  | div (o : Bin)
  | divn (o : Bin)
  | rem (o : Bin)
  | remn (o : Bin)
  | and (o : Bin)
  | or (o : Bin)
  | xor (o : Bin)
  | andn (o : Bin)
  | shl (o : Bin)
  | shr (o : Bin)
  | sar (o : Bin)
  | rol (o : Bin)
  | clz (o : Un)
  | ctz (o : Un)
  | popc (o : Un)
  | min (o : Bin)
  | max (o : Bin)
  | minn (o : Bin)
  | maxn (o : Bin)
  | abs (sat : Bool) (o : Un)
  | neg (sat : Bool) (o : Un)
  | sel (t : Ty) (d : BitVec 6) (a b : Src) (c : BitVec 4)
  | cmp (cc : Cond) (t : Ty) (d : BitVec 4) (a : Src) (b : CmpB)
  | ldi (hi : Bool) (t : Ty) (d : BitVec 6) (imm : BitVec 38)
  | mov (o : Un)
  | sxt (d : BitVec 6) (a : Src) (n1 : BitVec 6)
  | zxt (d : BitVec 6) (a : Src) (n1 : BitVec 6)
  | bfx (sgn : Bool) (d : BitVec 6) (a : Src) (pos len1 : BitVec 6)
  | bfi (d : BitVec 6) (a b c : Src)
  | lea (d : BitVec 6) (a b : Src) (sh : BitVec 3) (disp : BitVec 15)
  | madd (sat : Bool) (t : Ty) (d : BitVec 6) (a b c : Src)
  | pand (ia ib : Bool) (d a b : BitVec 4)
  | por (ia ib : Bool) (d a b : BitVec 4)
  | pxor (ia ib : Bool) (d a b : BitVec 4)
  | pnot (d a : BitVec 4)
  | setx (addm : Bool) (d : BitVec 2) (a : SrcB)
  -- L column (R313)
  | ld (t : Ty) (d : BitVec 6) (a : Src) (off : BitVec 18)
  | st (t : Ty) (a b : Src) (off : BitVec 18)
  | ldv (d : VOp) (a : Src) (msk : Mask) (off : BitVec 14)
  | stv (a : Src) (b : VOp) (msk : Mask) (off : BitVec 14)
  | ldg (t : Ty) (d : BitVec 6) (a : Src) (off : BitVec 18) (k : BitVec 3)
  | stg (t : Ty) (a b : Src) (off : BitVec 18)
  | ldgv (d : VOp) (a : Src) (msk : Mask) (off : BitVec 14) (k : BitVec 3)
  | stgv (a : Src) (b : VOp) (msk : Mask) (off : BitVec 14)
  | ldx (d : VOp) (a : Src) (msk : Mask) (off : BitVec 14) (k : BitVec 3)
  | stx (a : Src) (b : VOp) (msk : Mask) (off : BitVec 14) (k : BitVec 3)
  | ldrm (t : Ty) (d : BitVec 6) (a : Src) (off : BitVec 18) (k : BitVec 3)
  | strm (t : Ty) (a b : Src) (off : BitVec 18) (k : BitVec 3)
  | atom (op : AtomOp) (t : Ty) (d : BitVec 6) (a b : Src) (off : BitVec 14) (k : BitVec 3)
  | cas (t : Ty) (d : BitVec 6) (a b c : Src) (k : BitVec 3)
  | upd (op : UpdOp) (t : Ty) (a b : Src) (off : BitVec 15)
  | updf (a b : Src) (off : BitVec 18)
  | tlook (d : BitVec 6) (a : Src)
  | tset (a b : Src)
  | tclr (a : Src)
  | tinv (slot : Option Src)
  | wsq (d : BitVec 6)
  -- V column (R252)
  | vadd (f : Fm) (o : V3)
  | vsub (f : Fm) (o : V3)
  | vmul (f : Fm) (o : V3)
  | vfma (t : Ty) (r : Rnd) (o : V4)
  | vfms (t : Ty) (r : Rnd) (o : V4)
  | vfnma (t : Ty) (r : Rnd) (o : V4)
  | vmin (t : Ty) (o : V3)
  | vminp (t : Ty) (o : V3)
  | vmax (t : Ty) (o : V3)
  | vmaxp (t : Ty) (o : V3)
  | vabs (t : Ty) (o : V2)
  | vneg (t : Ty) (o : V2)
  | vcmp (cc : Cond) (t : Ty) (d : BitVec 3) (a b : VOp) (msk : Mask)
  | vsel (d a b : VOp) (c : BitVec 3)
  | vand (o : V3)
  | vor (o : V3)
  | vxor (o : V3)
  | vshl (t : Ty) (d a : VOp) (b : VAmt) (msk : Mask)
  | vshr (t : Ty) (d a : VOp) (b : VAmt) (msk : Mask)
  | vsar (t : Ty) (d a : VOp) (b : VAmt) (msk : Mask)
  | viadd (t : Ty) (sat : Bool) (o : V3)
  | visub (t : Ty) (sat : Bool) (o : V3)
  | vimul (t : Ty) (sat : Bool) (o : V3)
  | vimin (t : Ty) (o : V3)
  | vimax (t : Ty) (o : V3)
  | vcvt (f : Fm) (st : Ty) (o : V2)
  | vpack (byte : Bool) (o : V3)
  | vunpack (byte hi sgn : Bool) (o : V2)
  | vbcast (t : Ty) (d : VOp) (a : Src) (msk : Mask)
  | vext (t : Ty) (d : BitVec 6) (a : VOp) (i : XIdx)
  | vperm (o : V3)
  | vrot (d a : VOp) (n : SAmt) (msk : Mask)
  | vredl (t : Ty) (op : RedOp) (o : V2)
  | vscan (t : Ty) (op : RedOp) (o : V2)
  | vdot2 (r : Rnd) (o : V4)
  | vclamp (t : Ty) (o : V4)
  | vround (t : Ty) (r : Rnd) (o : V2)
  | vmov (o : V2)
  | mand (z : Bool) (d a : BitVec 3) (b : MSrc)
  | mor (z : Bool) (d a : BitVec 3) (b : MSrc)
  | mxor (z : Bool) (d a : BitVec 3) (b : MSrc)
  | mnot (d a : BitVec 3)
  | vlane (t : Ty) (d : VOp) (a : Src) (msk : Mask)
  | vsqz (o : V2)
  | vkeep (t : Ty) (d a : VOp)
  -- F column (R270)
  | frcp (f : Fm) (o : V2)
  | frsq (f : Fm) (o : V2)
  | fsqrt (f : Fm) (o : V2)
  | fdiv (f : Fm) (o : V3)
  | fexp2 (f : Fm) (o : V2)
  | flog2 (f : Fm) (o : V2)
  | fsin (f : Fm) (o : V2)
  | fcos (f : Fm) (o : V2)
  | ftanh (f : Fm) (o : V2)
  | fsig (f : Fm) (o : V2)
  | fsilu (f : Fm) (o : V2)
  | fgelu (f : Fm) (o : V2)
  | frng (t : Ty) (d a : VOp) (b : Src) (msk : Mask)
  | frngk (a b : Src)
  | fbasis (r : Rnd) (sat : Bool) (k : BasisSel) (o : V2)
  | fldexp (f : Fm) (o : V3)
  -- M column (R358, R381)
  | mwld (t : Ty) (back cmp : Bool) (sc a b : BitVec 6) (k : BitVec 3)
  | mfmt (t : Ty)
  | mm (o : MmOp)
  | mmg (o : MmOp)
  | mmrot (z : Bool) (o : ArrD)
  | macrd (t : Ty) (r : Rnd) (sat : Bool) (o : ArrD)
  | macwr (t : Ty) (o : ArrD)
  | macclr (d : BitVec 3) (rows : Rows)
  | mbank
  | mmstat (clr : Bool) (d : BitVec 6) (k : BitVec 3)
  | knot (a b : BitVec 6)
  | splld (t : Ty) (back wide : Bool) (sc a b : BitVec 6) (k : BitVec 3)
  | splev (o : MmOp)
  | splevG (o : MmOp)
  | splbd (z : Bool) (o : ArrD)
  | splgr (o : ArrD)
  | splgrd (a b : BitVec 6) (k : BitVec 3) (rows : Rows)
  | splgclr
  | grefine (k : BitVec 3)
  | splst (clr : Bool) (d a : BitVec 6) (k : BitVec 3)
  -- X column (R403)
  | send (cls : BitVec 2) (k : BitVec 3) (a b : Src)
  | recv (d : BitVec 6) (a b : Src)
  | tsend (c3 : Bool) (a b : Src) (lat : BitVec 18)
  | postrv (nt : Bool) (tok : Option (BitVec 3)) (d : BitVec 6) (a b : Src)
  | rvcan (a : Src)
  | probe (tag : Bool) (d : BitVec 6) (a : Src)
  | ovfpop (d : BitVec 6) (b : Src)
  | reduce (op : TreeOp) (w : TreeW)
  | allred (op : TreeOp) (w : TreeW)
  | bcast (w : TreeW)
  | treecfg (slot : BitVec 4) (a : Src)
  | xbar (tok : Option (BitVec 3)) (slot : BitVec 4)
  | clsord (c : BitVec 3) (ord : Order)
  | xstat (rel : Bool) (d : BitVec 6) (sel : XSel) (a : Src)
  -- C column (R340, R280)
  | cset (r : CpReg) (a : Src)
  | cget (d : BitVec 6) (r : CpReg)
  | claunch (nt : Bool) (d : BitVec 6) (k : BitVec 3) (q : BitVec 2)
  | cstat (d : BitVec 6) (a : Src)
  | ccancel (a : Src)
  | qfence (mask : BitVec 4)
  | scfg (v : BitVec 3) (a : Src)
  | sbind (v : BitVec 3)
  | sunbind (v : BitVec 3)
  | sdrain (k : BitVec 3) (v : BitVec 3)
  | sdrainOut (k : BitVec 3) (v : BitVec 3)
  | sstat (d : BitVec 6) (v : BitVec 3)
  -- Events
  | translationWalk (l : Loc) (va : Nat) (acc : Nat)
  | forwardedWordIssue (l : Loc) (w : Fwd)
  | repReissue (l : Loc) (rid : Nat)
  | boundaryRelease (region : Nat) (sc : Scope) (inst : Nat)
  | barRelease (region : Nat) (sc : Scope) (inst : Nat)
  | joinCellDecrement (l : Loc) (cell : Nat) (trig : Bool)
  | joinResult (l : Loc) (cell : Nat) (last : Bool)
  | sleepWake (l : Loc)
  | waittRelease (l : Loc) (tok : Option Nat)
  | recruitStart (tile : Nat) (st : Start)
  | homeRequestServe (q : HomeReq)
  | dramMissFill (pa : Nat)
  | homeReplyArrival (r : HomeRep)
  | remoteAccessServe (q : RemReq)
  | remoteAckArrival (q : RemReq) (wr : List Wr) (poisoned : Bool)
  | eccCorrected (e : ErrAt)
  | uncorrectableError (e : ErrAt)
  | scrub (slice : Nat)
  | dramSensorReading (n : Nat) (r : Reading)
  | copyTransferStart (l : Loc) (q : Nat)
  | copySlotMove (m : SlotMove)
  | localCopyMove (l : Loc) (q : Nat)
  | copyWriteReport (l : Loc) (q : Nat) (elem : Nat) (err : Bool)
  | streamFetch (l : Loc) (v : Nat)
  | streamVectorReady (l : Loc) (v : Nat)
  | streamWrite (l : Loc) (v : Nat)
  | streamWriteLand (l : Loc) (v : Nat)
  | arrayOpStart (l : Loc) (load : Bool)
  | arrayRowEntry (l : Loc) (op row : Nat)
  | arrayResultLand (l : Loc) (op row : Nat)
  | planeTakeEffect (l : Loc) (op : Nat)
  | gangBarrierRelease (gang part : Nat)
  | mmrotShiftLand (l : Loc) (src : Nat) (sh : Shift)
  | mmrotPlaneExchange (l : Loc) (op : Nat)
  | knotLand (l : Loc) (lo inv : Lane) (g mode : BitVec 8)
  | timedPacketArrival (p : TPkt)
  | messageArrival (m : Msg)
  | heldMessageReoffer (tile : Nat)
  | messageLand (l : Loc) (h : Nat)
  | sendAckArrival (l : Loc) (tok : Nat) (err : Bool) (pc : Nat)
  | treeContributionArrival (l : Loc) (slot k : Nat) (port : Dir) (kind : TreeKind) (v : Vec) (nf : Bool)
  | treeResultArrival (l : Loc) (slot k : Nat) (kind : TreeKind) (v : Vec) (nf : Bool)
  | xbarRelease (l : Loc) (slot k : Nat)
  | peerTreeCombine (l : Loc) (slot : Nat) (child : PeerKid) (kind : TreeKind) (v : Vec) (nf : Bool)
  | deadPartitionPacket (m : Msg)
  | detourBlocked (tile part : Nat)
  | routerFailure (tile : Nat) (lost : Losses)
  | zheostCrcFail (port : Nat) (exhausted : Bool) (lost : List Nat)
  | ptpMessage (dom port : Nat) (m : PtpMsg)
  | ppsIn
  | launchQueuePoll (q : Nat)
  | consumeEntry (q : Nat)
  | nopEntry (q : Nat) (cookie : Word)
  | launch (q : Nat) (rcb : Nat) (cookie : Word) (priv : Bool)
  | imageVerify (file : Nat)
  | lqNextWrite (q : Nat) (v : Word)
  | lqStopClear (q : Nat) (ovr crpt : Bool)
  | cqHeadWrite (q : Nat) (v : Word)
  | registerWrite (mc : Bool) (r : RegAt) (v : Word)
  | uivecWrite (l : Loc) (v : Word)
  | tsRead (r : BarRead)
  | hostBar2Write (off : Nat) (bytes : List Byte)
  | hostBar2Read (off : Nat) (len : Nat)
  | ideStateChange (c : IdeChange)
  | spdmMeasurements (req : SpdmReq)
  | ideKm (stream : Nat) (key : BitVec 256)
  | firmwareDownload (bank : Nat) (secver : Nat) (measure : BitVec 384) (sig : FwSig)
  | configBlobSubmit (addr : Nat) (b : BlobPart)
  | mappingRequest (r : MapReq)
  | sgEntryWrite (n : Nat) (part : Nat) (v : Word)
  | checkpointRegister (part : Nat) (dir : Nat)
  | recoveryGroupRegister (members : List (Nat × Nat))
  | startRecordPlace (region : Nat)
  | taskRecordPlace (region : Nat)
  | ballastDispatch (region : Nat)
  | preemptDelayExpiry (region : Nat)
  | imageChunkSend (region seed chunk : Nat)
  | imageChunkArrival (region tile : Nat) (c : ChunkIn)
  | loadCompleteReport (region tile : Nat)
  | childLaunch (l : Loc)
  | childDelivery (l : Loc)
  | paceEvaluation
  | deadlineMiss (region step : Nat)
  | pStateChange (p : Nat)
  | railRampDone
  | canaryWindowEnd (rail errors : Nat)
  | canaryHoldExpiry (h : CanaryHold)
  | limiterSample (amps : Nat)
  | overcurrentTighten
  | telemetrySample (watts : Nat) (rails : List RailSample)
  | ygraceExpiry
  | regionPowerEstimate (region watts : Nat)
  | heatWindowEnd
  | sensorConversion (cell : Nat) (r : Reading)
  | geyserHeartbeatMiss
  | geyserHeartbeatReturn
  | quadIdleExpiry (quad : Nat)
  | quadWake (quad : Nat)
  | wakeStage (quad : Nat)
  | haltDelivery (part : Nat)
  | allAsleep (part : Nat)
  | phaseTimer (l : Loc)
  | resume (part : Nat)
  | endRegion (region : Nat)
  | endPartition (part : Nat)
  | restore (r : RestoreAt)
  | recoveryNotify (part : Nat) (gen : Nat)
  | bankExchange (part incoming : Nat)
  | spillComplete (tile : Nat)
  | resumeRecordPlace (part : Nat)
  | reloadComplete (part : Nat)
  | uiDelivery (l : Loc)
  | regionRetire (region : Nat)
  | vinApplied (mv : Nat)
  | pwrenAssert
  | railBandTimeout (rail : Nat)
  | pwrenDeassert
  | vinLoss
  | perstN
  | mcRstN
  | coolReading (tin tout : Int) (flow dp : Nat)
  | pmPage (x : PmPage)
  | readVout
  | readIout
  | readTemperature1
  | statusWord
  | clearFaults
  | readPin
  | readVin
  | pmbusRefusedWrite (cmd : Nat)
  | pmbusUnsupported (cmd : Nat)
  | zheostPortRestore (port : Nat)
  | railsReenable
  | shootdownComplete (l : Loc) (d : Nat) (tok : Nat) (sc : Scope) (lo hi : Nat)
  | faultDomainRegister (fdom : Nat)
  | debugAccess (l : Loc) (op : DebugOp)
deriving DecidableEq, Repr

/-- An event on the agenda: the same rows 197 to 332 as the event constructors of `Instr`, one for one, in the form in
which the state holds what is to come. -/
inductive Ev where
  | translationWalk (l : Loc) (va : Nat) (acc : Nat)
  | forwardedWordIssue (l : Loc) (w : Fwd)
  | repReissue (l : Loc) (rid : Nat)
  | boundaryRelease (region : Nat) (sc : Scope) (inst : Nat)
  | barRelease (region : Nat) (sc : Scope) (inst : Nat)
  | joinCellDecrement (l : Loc) (cell : Nat) (trig : Bool)
  | joinResult (l : Loc) (cell : Nat) (last : Bool)
  | sleepWake (l : Loc)
  | waittRelease (l : Loc) (tok : Option Nat)
  | recruitStart (tile : Nat) (st : Start)
  | homeRequestServe (q : HomeReq)
  | dramMissFill (pa : Nat)
  | homeReplyArrival (r : HomeRep)
  | remoteAccessServe (q : RemReq)
  | remoteAckArrival (q : RemReq) (wr : List Wr) (poisoned : Bool)
  | eccCorrected (e : ErrAt)
  | uncorrectableError (e : ErrAt)
  | scrub (slice : Nat)
  | dramSensorReading (n : Nat) (r : Reading)
  | copyTransferStart (l : Loc) (q : Nat)
  | copySlotMove (m : SlotMove)
  | localCopyMove (l : Loc) (q : Nat)
  | copyWriteReport (l : Loc) (q : Nat) (elem : Nat) (err : Bool)
  | streamFetch (l : Loc) (v : Nat)
  | streamVectorReady (l : Loc) (v : Nat)
  | streamWrite (l : Loc) (v : Nat)
  | streamWriteLand (l : Loc) (v : Nat)
  | arrayOpStart (l : Loc) (load : Bool)
  | arrayRowEntry (l : Loc) (op row : Nat)
  | arrayResultLand (l : Loc) (op row : Nat)
  | planeTakeEffect (l : Loc) (op : Nat)
  | gangBarrierRelease (gang part : Nat)
  | mmrotShiftLand (l : Loc) (src : Nat) (sh : Shift)
  | mmrotPlaneExchange (l : Loc) (op : Nat)
  | knotLand (l : Loc) (lo inv : Lane) (g mode : BitVec 8)
  | timedPacketArrival (p : TPkt)
  | messageArrival (m : Msg)
  | heldMessageReoffer (tile : Nat)
  | messageLand (l : Loc) (h : Nat)
  | sendAckArrival (l : Loc) (tok : Nat) (err : Bool) (pc : Nat)
  | treeContributionArrival (l : Loc) (slot k : Nat) (port : Dir) (kind : TreeKind) (v : Vec) (nf : Bool)
  | treeResultArrival (l : Loc) (slot k : Nat) (kind : TreeKind) (v : Vec) (nf : Bool)
  | xbarRelease (l : Loc) (slot k : Nat)
  | peerTreeCombine (l : Loc) (slot : Nat) (child : PeerKid) (kind : TreeKind) (v : Vec) (nf : Bool)
  | deadPartitionPacket (m : Msg)
  | detourBlocked (tile part : Nat)
  | routerFailure (tile : Nat) (lost : Losses)
  | zheostCrcFail (port : Nat) (exhausted : Bool) (lost : List Nat)
  | ptpMessage (dom port : Nat) (m : PtpMsg)
  | ppsIn
  | launchQueuePoll (q : Nat)
  | consumeEntry (q : Nat)
  | nopEntry (q : Nat) (cookie : Word)
  | launch (q : Nat) (rcb : Nat) (cookie : Word) (priv : Bool)
  | imageVerify (file : Nat)
  | lqNextWrite (q : Nat) (v : Word)
  | lqStopClear (q : Nat) (ovr crpt : Bool)
  | cqHeadWrite (q : Nat) (v : Word)
  | registerWrite (mc : Bool) (r : RegAt) (v : Word)
  | uivecWrite (l : Loc) (v : Word)
  | tsRead (r : BarRead)
  | hostBar2Write (off : Nat) (bytes : List Byte)
  | hostBar2Read (off : Nat) (len : Nat)
  | ideStateChange (c : IdeChange)
  | spdmMeasurements (req : SpdmReq)
  | ideKm (stream : Nat) (key : BitVec 256)
  | firmwareDownload (bank : Nat) (secver : Nat) (measure : BitVec 384) (sig : FwSig)
  | configBlobSubmit (addr : Nat) (b : BlobPart)
  | mappingRequest (r : MapReq)
  | sgEntryWrite (n : Nat) (part : Nat) (v : Word)
  | checkpointRegister (part : Nat) (dir : Nat)
  | recoveryGroupRegister (members : List (Nat × Nat))
  | startRecordPlace (region : Nat)
  | taskRecordPlace (region : Nat)
  | ballastDispatch (region : Nat)
  | preemptDelayExpiry (region : Nat)
  | imageChunkSend (region seed chunk : Nat)
  | imageChunkArrival (region tile : Nat) (c : ChunkIn)
  | loadCompleteReport (region tile : Nat)
  | childLaunch (l : Loc)
  | childDelivery (l : Loc)
  | paceEvaluation
  | deadlineMiss (region step : Nat)
  | pStateChange (p : Nat)
  | railRampDone
  | canaryWindowEnd (rail errors : Nat)
  | canaryHoldExpiry (h : CanaryHold)
  | limiterSample (amps : Nat)
  | overcurrentTighten
  | telemetrySample (watts : Nat) (rails : List RailSample)
  | ygraceExpiry
  | regionPowerEstimate (region watts : Nat)
  | heatWindowEnd
  | sensorConversion (cell : Nat) (r : Reading)
  | geyserHeartbeatMiss
  | geyserHeartbeatReturn
  | quadIdleExpiry (quad : Nat)
  | quadWake (quad : Nat)
  | wakeStage (quad : Nat)
  | haltDelivery (part : Nat)
  | allAsleep (part : Nat)
  | phaseTimer (l : Loc)
  | resume (part : Nat)
  | endRegion (region : Nat)
  | endPartition (part : Nat)
  | restore (r : RestoreAt)
  | recoveryNotify (part : Nat) (gen : Nat)
  | bankExchange (part incoming : Nat)
  | spillComplete (tile : Nat)
  | resumeRecordPlace (part : Nat)
  | reloadComplete (part : Nat)
  | uiDelivery (l : Loc)
  | regionRetire (region : Nat)
  | vinApplied (mv : Nat)
  | pwrenAssert
  | railBandTimeout (rail : Nat)
  | pwrenDeassert
  | vinLoss
  | perstN
  | mcRstN
  | coolReading (tin tout : Int) (flow dp : Nat)
  | pmPage (x : PmPage)
  | readVout
  | readIout
  | readTemperature1
  | statusWord
  | clearFaults
  | readPin
  | readVin
  | pmbusRefusedWrite (cmd : Nat)
  | pmbusUnsupported (cmd : Nat)
  | zheostPortRestore (port : Nat)
  | railsReenable
  | shootdownComplete (l : Loc) (d : Nat) (tok : Nat) (sc : Scope) (lo hi : Nat)
  | faultDomainRegister (fdom : Nat)
  | debugAccess (l : Loc) (op : DebugOp)
deriving DecidableEq, Repr

/-- A whole instruction word (R106): guard, hints and the instruction. -/
structure Inst where
  gneg : Bool
  gpred : BitVec 4
  dly : BitVec 8
  wmask : BitVec 8
  stamp : BitVec 8
  eog : Bool
  instr : Instr
deriving DecidableEq, Repr

end Sys2Proof
end

