-- ==== Sys2Proof/WellFormed.lean ====
section
/-! DEFINITION. Which instruction words are legal (R117): the type sets, the immediates and the field values each
description admits. What a bit field cannot hold at all is refused by the decoder; what it can hold and the spec
declares illegal is refused here. Events carry what their agent supplies and are limited by it alone. -/

namespace Sys2Proof

namespace Ty

/-- Types .i8 to .n64: codes 0x0 to 0x7 ("any" of R181, "int" of R313). -/
def isInt : Ty → Bool
  | i8 | i16 | i32 | i64 | n8 | n16 | n32 | n64 => true
  | f32 | bf16 | a8 | t8 => false

/-- Types .i8 to .i64 (R181). -/
def isI : Ty → Bool
  | i8 | i16 | i32 | i64 => true
  | n8 | n16 | n32 | n64 | f32 | bf16 | a8 | t8 => false

/-- Types .n8 to .n64 (R181). -/
def isN : Ty → Bool
  | n8 | n16 | n32 | n64 => true
  | i8 | i16 | i32 | i64 | f32 | bf16 | a8 | t8 => false

/-- The "wide" types of R313. -/
def isWide : Ty → Bool
  | i32 | n32 | i64 | n64 => true
  | i8 | i16 | n8 | n16 | f32 | bf16 | a8 | t8 => false

/-- Set F of R252: .f32 and .bf16. -/
def isF : Ty → Bool
  | f32 | bf16 => true
  | i8 | i16 | i32 | i64 | n8 | n16 | n32 | n64 | a8 | t8 => false

/-- Set I of R252. -/
def isVI : Ty → Bool
  | i8 | i16 | i32 | n8 | n16 | n32 => true
  | i64 | n64 | f32 | bf16 | a8 | t8 => false

/-- Set W of R252, and the tree types of R403. -/
def isW : Ty → Bool
  | f32 | i32 | n32 => true
  | i8 | i16 | i64 | n8 | n16 | n64 | bf16 | a8 | t8 => false

/-- Set "all" of R252: every type but .i64 and .n64. -/
def isAll : Ty → Bool
  | i64 | n64 => false
  | i8 | i16 | i32 | n8 | n16 | n32 | f32 | bf16 | a8 | t8 => true

/-- .f32, .bf16, .a8, .t8 and .i8: the types of vkeep and macrd (R252, R358). -/
def isKeep : Ty → Bool
  | f32 | bf16 | a8 | t8 | i8 => true
  | i16 | i32 | i64 | n8 | n16 | n32 | n64 => false

/-- .t8 and .bf16: the weight types of mwld and splld (R358, R381). -/
def isWeight : Ty → Bool
  | t8 | bf16 => true
  | i8 | i16 | i32 | i64 | n8 | n16 | n32 | n64 | f32 | a8 => false

/-- .a8, .i8 and .bf16: the activation types of mfmt (R358). -/
def isAct : Ty → Bool
  | a8 | i8 | bf16 => true
  | i16 | i32 | i64 | n8 | n16 | n32 | n64 | f32 | t8 => false

/-- Whether a float format is the result (R112, R233). -/
def isFloat : Ty → Bool
  | f32 | bf16 | a8 | t8 => true
  | i8 | i16 | i32 | i64 | n8 | n16 | n32 | n64 => false

end Ty

/-- Row fields whose last row stands below `lim` (R358, R381). -/
def Rows.ok (r : Rows) (lim : Nat) : Bool := r.r0.toNat + (r.n1.toNat + 1) ≤ lim

/-- The activation operand of mm: with a stream register, B is reserved by construction (R358). -/
def MmOp.ok (o : MmOp) : Bool := o.rows.ok 64

/-- .od with a .t8 result is illegal (R112). -/
def odOk (t : Ty) (r : Rnd) : Bool := !(t == .t8 && r == .od)

/-- CSR numbers assigned by R472. -/
def csrAssigned (n : Nat) : Bool :=
  n ≤ 0x012 || n == 0x014 || (0x018 ≤ n && n ≤ 0x01B) || (0x020 ≤ n && n ≤ 0x027) || (0x040 ≤ n && n ≤ 0x08F) ||
  (0x090 ≤ n && n ≤ 0x0DF) || (0x100 ≤ n && n ≤ 0x2FF)

/-- tlbinv takes scopes 1 to 8 (R466). -/
def Scope.tlbOk : Scope → Bool
  | strand | host | peer | system => false
  | tile | quad | gang | column | layer | block | region | device => true

/-- Codes of classes that clsord accepts (R403). -/
def clsordOk (c : Nat) : Bool := !(c == 4 || c == 6 || c == 7)

/-- xstat.rel is admitted with selectors 0 and 1 only, and A is reserved for the others (R403). -/
def xstatOk (rel : Bool) (sel : XSel) (a : Src) : Bool :=
  match sel with
  | .status | .tag => true
  | .overflow | .handles | .orders => !rel && a == .s 0

/-- Types of reduce and allred (R403). -/
def treeOk (op : TreeOp) (t : Ty) : Bool :=
  t.isW && (match op with
    | .add | .min | .max => true
    | .and | .or | .xor => t != .f32)

/-- A well-formed instruction: every value that an encoding can hold and the spec calls illegal is refused (R117). -/
def Instr.wf : Instr → Bool
  | .br .. | .call .. | .ret .. | .jmpi .. | .loop .. | .nop | .trap .. | .sleep .. | .phase .. | .bar .. => true
  | .rfork .. | .join .. | .spawn .. | .trigger | .stepdl .. | .waitt .. | .follow .. | .detach => true
  | .rep _ (.imm _) _ => true
  | .rep _ (.reg _) _ => true
  | .uiret | .uien .. => true
  | .csrr _ n | .csrw _ _ n | .csrs _ _ n | .csrc _ _ n => csrAssigned n.toNat
  | .fence .. => true
  | .tlbinv sc _ _ _ => sc.tlbOk
  | .halt => true
  | .add _ o | .sub _ o | .mul _ o => o.t.isInt
  | .mulh o | .div o | .rem o | .min o | .max o => o.t.isI
  | .mulhn o | .divn o | .remn o | .minn o | .maxn o => o.t.isN
  | .and o | .or o | .xor o | .andn o | .shl o | .shr o | .sar o | .rol o => o.t.isInt
  | .clz o | .ctz o | .popc o | .mov o => o.t.isInt
  | .abs _ o => o.t.isI
  | .neg _ o => o.t.isInt
  | .sel t _ _ _ _ => t.isInt
  | .cmp _ t _ _ _ => t.isInt
  | .ldi hi t _ imm => t.isInt && (!hi || ((t == .i64 || t == .n64) && imm.extractLsb' 26 12 == 0))
  | .sxt .. | .zxt .. => true
  | .bfx _ _ _ pos len1 => pos.toNat + (len1.toNat + 1) ≤ 64
  | .bfi .. | .lea .. => true
  | .madd _ t _ _ _ _ => t.isInt
  | .pand .. | .por .. | .pxor .. | .pnot .. | .setx .. => true
  | .ld t _ _ _ | .st t _ _ _ | .ldg t _ _ _ _ | .stg t _ _ _ => t.isInt
  | .ldv .. | .stv .. | .ldgv .. | .stgv .. | .ldx .. | .stx .. => true
  | .ldrm t _ _ _ _ | .strm t _ _ _ _ => t.isWide
  | .atom op t _ _ _ _ _ => t.isWide && (op != .fadd || t == .n32)
  | .cas t _ _ _ _ _ => t.isWide
  | .upd op t _ _ _ => t.isWide && op != .fadd
  | .updf .. | .tlook .. | .tset .. | .tclr .. | .tinv .. | .wsq .. => true
  | .vadd f _ | .vsub f _ | .vmul f _ => f.t.isF
  | .vfma t _ _ | .vfms t _ _ | .vfnma t _ _ => t.isF
  | .vmin t _ | .vminp t _ | .vmax t _ | .vmaxp t _ => t.isF
  | .vabs t _ | .vneg t _ => t.isF
  | .vcmp _ t _ _ _ _ => t.isW
  | .vsel .. | .vand .. | .vor .. | .vxor .. => true
  | .vshl t _ _ _ _ | .vshr t _ _ _ _ | .vsar t _ _ _ _ => t.isVI
  | .viadd t _ _ | .visub t _ _ | .vimul t _ _ => t.isVI
  | .vimin t _ | .vimax t _ => t.isVI
  | .vcvt f sty _ => f.t.isAll && sty.isAll && odOk f.t f.r
  | .vpack .. | .vunpack .. => true
  | .vbcast t _ _ _ => t.isAll
  | .vext t _ _ _ => t.isAll
  | .vperm .. | .vrot .. => true
  | .vredl t _ _ | .vscan t _ _ => t.isW
  | .vdot2 .. => true
  | .vclamp t _ => t.isF || t.isVI
  | .vround t _ _ => t.isF
  | .vmov .. => true
  | .mand z _ a _ | .mor z _ a _ | .mxor z _ a _ => !z || a == 0
  | .mnot .. => true
  | .vlane t _ _ _ => t == .i32 || t == .n32
  | .vsqz .. => true
  | .vkeep t _ _ => t.isKeep
  | .frcp f _ | .frsq f _ | .fsqrt f _ | .fdiv f _ | .fexp2 f _ | .flog2 f _ | .fsin f _ | .fcos f _ | .ftanh f _
  | .fsig f _ | .fsilu f _ | .fgelu f _ | .fldexp f _ => f.t.isF
  | .frng t _ _ _ _ => t == .n32 || t.isF
  | .frngk .. => true
  | .fbasis r _ k _ => k != .idx || r == .ne
  | .mwld t _ _ sc _ _ _ => t.isWeight && (t == .t8 || sc == 0)
  | .mfmt t => t.isAct
  | .mm o | .mmg o => o.ok
  | .mmrot _ o => o.rows.ok 64
  | .macrd t r _ o => t.isKeep && odOk t r && o.rows.ok 64
  | .macwr t o => t.isF && o.rows.ok 64
  | .macclr _ r => r.ok 64
  | .mbank | .mmstat .. | .knot .. => true
  | .splld t _ _ sc _ _ _ => t.isWeight && (t == .t8 || sc == 0)
  | .splev o | .splevG o => o.ok
  | .splbd _ o | .splgr o => o.rows.ok 64
  | .splgrd _ _ _ r => r.ok 32
  | .splgclr | .grefine .. | .splst .. => true
  | .send .. | .recv .. => true
  | .tsend _ _ _ lat => lat != 0
  | .postrv .. | .rvcan .. | .probe .. | .ovfpop .. => true
  | .reduce op w | .allred op w => treeOk op w.t
  | .bcast w => w.t.isW
  | .treecfg .. | .xbar .. => true
  | .clsord c _ => clsordOk c.toNat
  | .xstat rel _ xs a => xstatOk rel xs a
  | .cset .. | .cget .. | .claunch .. | .cstat .. | .ccancel .. => true
  | .qfence mask => mask != 0
  | .scfg .. | .sbind .. | .sunbind .. | .sdrain .. | .sdrainOut .. | .sstat .. => true
  | .translationWalk .. | .forwardedWordIssue .. | .repReissue .. | .boundaryRelease .. | .barRelease .. => true
  | .joinCellDecrement .. | .joinResult .. | .sleepWake .. | .waittRelease .. | .recruitStart .. => true
  | .homeRequestServe .. | .dramMissFill .. | .homeReplyArrival .. | .remoteAccessServe .. => true
  | .remoteAckArrival .. | .eccCorrected .. | .uncorrectableError .. | .scrub .. | .dramSensorReading .. => true
  | .copyTransferStart .. | .copySlotMove .. | .localCopyMove .. | .copyWriteReport .. | .streamFetch .. => true
  | .streamVectorReady .. | .streamWrite .. | .streamWriteLand .. | .arrayOpStart .. | .arrayRowEntry .. => true
  | .arrayResultLand .. | .planeTakeEffect .. | .gangBarrierRelease .. | .mmrotShiftLand .. => true
  | .mmrotPlaneExchange .. | .knotLand .. | .timedPacketArrival .. | .messageArrival .. | .heldMessageReoffer .. => true
  | .messageLand .. | .sendAckArrival .. | .treeContributionArrival .. | .treeResultArrival .. | .xbarRelease .. => true
  | .peerTreeCombine .. | .deadPartitionPacket .. | .detourBlocked .. | .routerFailure .. | .zheostCrcFail .. => true
  | .ptpMessage .. | .ppsIn | .launchQueuePoll .. | .consumeEntry .. | .nopEntry .. | .launch .. => true
  | .imageVerify .. | .lqNextWrite .. | .lqStopClear .. | .cqHeadWrite .. | .registerWrite .. | .uivecWrite .. => true
  | .tsRead .. | .hostBar2Write .. | .hostBar2Read .. | .ideStateChange .. | .spdmMeasurements .. | .ideKm .. => true
  | .firmwareDownload .. | .configBlobSubmit .. | .mappingRequest .. | .sgEntryWrite .. => true
  | .checkpointRegister .. | .recoveryGroupRegister .. | .startRecordPlace .. | .taskRecordPlace .. => true
  | .ballastDispatch .. | .preemptDelayExpiry .. | .imageChunkSend .. | .imageChunkArrival .. => true
  | .loadCompleteReport .. | .childLaunch .. | .childDelivery .. | .paceEvaluation | .deadlineMiss .. => true
  | .pStateChange .. | .railRampDone | .canaryWindowEnd .. | .canaryHoldExpiry .. | .limiterSample .. => true
  | .overcurrentTighten | .telemetrySample .. | .ygraceExpiry | .regionPowerEstimate .. | .heatWindowEnd => true
  | .sensorConversion .. | .geyserHeartbeatMiss | .geyserHeartbeatReturn | .quadIdleExpiry .. => true
  | .quadWake .. | .wakeStage .. | .haltDelivery .. | .allAsleep .. | .phaseTimer .. | .resume .. => true
  | .endRegion .. | .endPartition .. | .restore .. | .recoveryNotify .. | .bankExchange .. | .spillComplete .. => true
  | .resumeRecordPlace .. | .reloadComplete .. | .uiDelivery .. | .regionRetire .. | .vinApplied .. => true
  | .pwrenAssert | .railBandTimeout .. | .pwrenDeassert | .vinLoss | .perstN | .mcRstN | .coolReading .. => true
  | .pmPage .. | .readVout | .readIout | .readTemperature1 | .statusWord | .clearFaults | .readPin | .readVin => true
  | .pmbusRefusedWrite .. | .pmbusUnsupported .. | .zheostPortRestore .. | .railsReenable => true
  | .shootdownComplete .. | .faultDomainRegister .. | .debugAccess .. => true

/-- A well-formed whole word. -/
def Inst.wf (w : Inst) : Bool := w.instr.wf

/-- Whether the row is an event of an agent, not an instruction word (opcode table rows 197 to 332). -/
def Instr.isEvent (i : Instr) : Bool :=
  197 ≤ i.ctorIdx

end Sys2Proof
end

