-- ==== Sys2Proof/Machine/Float.lean ====
section
/-! DEFINITION. Number formats and rounding (R225 to R244): the value of every encoding of FP32, BF16, AF8 and TS8, one
rounding of an exact value into each format, exact sums and products, conversions, minima and maxima, and the chunk sum
of the array. Encodings are natural numbers below 2 to the format's width; flags are nv dz of uf nx, bits 4 to 0. -/

namespace Sys2Proof.Machine

/-- Exception flags in the layout of ctl.fpst bits 4:0 (R237). -/
abbrev Flags := BitVec 5

def flNone : Flags := 0
def flNv : Flags := 16
def flDz : Flags := 8
def flOf : Flags := 4
def flUf : Flags := 2
def flNx : Flags := 1

/-- The value of an encoding: a NaN (signalling or not), an infinity, or (-1)^neg * m * 2^e exactly. -/
inductive FV where
  | nan (sig : Bool)
  | inf (neg : Bool)
  | fin (neg : Bool) (m : Nat) (e : Int)
deriving DecidableEq, Repr

/-- An exact result on its way to a rounding: as `FV`, where `st` says that the magnitude exceeds m * 2^e by less than
2^e (a quotient, a root or a transcendental value cut off below its rounding position). -/
inductive XV where
  | nan (sig : Bool)
  | inf (neg : Bool)
  | num (neg : Bool) (m : Nat) (e : Int) (st : Bool)
deriving DecidableEq, Repr

/-- An encoding and the flags that making it raised. -/
structure FRes where
  bits : Nat
  fl : Flags
deriving DecidableEq, Repr

/-- The parameters of a binary format: significand bits, bias, exponent bits, largest finite value m * 2^e. -/
structure BinFmt where
  p : Nat
  bias : Nat
  ebits : Nat
  bigM : Nat
  bigE : Int
deriving DecidableEq, Repr

/-- FP32 (R225). -/
def fmtF32 : BinFmt := ⟨24, 127, 8, 0xFFFFFF, 104⟩
/-- BF16 (R225). -/
def fmtBf16 : BinFmt := ⟨8, 127, 8, 0xFF, 120⟩
/-- AF8 (R227): the largest finite value is 448. -/
def fmtAf8 : BinFmt := ⟨4, 7, 4, 14, 5⟩

namespace BinFmt

/-- Width in bits. -/
def width (f : BinFmt) : Nat := f.p + f.ebits
/-- Exponent of the smallest normal value. -/
def emin (f : BinFmt) : Int := 1 - (f.bias : Int)
/-- Encoding of the sign bit. -/
def signBit (f : BinFmt) : Nat := 2 ^ (f.width - 1)
/-- Encoding of +infinity, for the formats that have one. -/
def infBits (f : BinFmt) : Nat := (2 ^ f.ebits - 1) * 2 ^ (f.p - 1)

/-- The magnitude n * 2^q as an encoding without sign; q is at least the subnormal quantum. -/
def encMag (f : BinFmt) (n : Nat) (q : Int) : Nat :=
  let top := 2 ^ (f.p - 1)
  if n < top then n
  else
    let (n, q) := if n = 2 ^ f.p then (top, q + 1) else (n, q)
    (q + (f.p : Int) - 1 + (f.bias : Int)).toNat * top + (n - top)

/-- Largest finite encoding without sign. -/
def bigBits (f : BinFmt) : Nat := f.encMag f.bigM f.bigE

end BinFmt

/-! ### Values of encodings -/

/-- FP32 and BF16 (R225, R226). -/
def decBin (f : BinFmt) (b : Nat) : FV :=
  let neg := b / f.signBit % 2 == 1
  let fr := b % 2 ^ (f.p - 1)
  let ex := b / 2 ^ (f.p - 1) % 2 ^ f.ebits
  if ex = 2 ^ f.ebits - 1 then (if fr = 0 then .inf neg else .nan (fr < 2 ^ (f.p - 2)))
  else if ex = 0 then .fin neg fr (f.emin - ((f.p : Int) - 1))
  else .fin neg (2 ^ (f.p - 1) + fr) ((ex : Int) - f.bias - ((f.p : Int) - 1))

/-- AF8 (R227). -/
def decAf8 (b : Nat) : FV :=
  let neg := b / 128 % 2 == 1
  let e := b / 8 % 16
  let m := b % 8
  if e = 15 ∧ m = 7 then .nan false
  else if e = 0 then .fin neg m (-9)
  else .fin neg (8 + m) ((e : Int) - 10)

/-- A term of TS8 in units of 2^-6 (R228). -/
def tsTerm (s e : Nat) : Int := if e = 7 then 0 else if s = 1 then -((2 ^ (6 - e) : Nat) : Int) else ((2 ^ (6 - e) : Nat) : Int)

/-- The value of a TS8 encoding in units of 2^-6 (R228). -/
def tsVal (b : Nat) : Int := tsTerm (b / 128 % 2) (b / 16 % 8) + tsTerm (b / 8 % 2) (b % 8)

/-- TS8; zero decodes as +0 (R228). -/
def decTs8 (b : Nat) : FV := let v := tsVal b; .fin (v < 0) v.natAbs (-6)

/-- The value of an encoding of a float type. -/
def decF (t : Ty) (b : Nat) : FV :=
  match t with
  | .bf16 => decBin fmtBf16 (b % 2 ^ 16)
  | .a8 => decAf8 (b % 256)
  | .t8 => decTs8 (b % 256)
  | .f32 | .i8 | .i16 | .i32 | .i64 | .n8 | .n16 | .n32 | .n64 => decBin fmtF32 (b % 2 ^ 32)

/-- A value as an exact result. -/
def FV.x : FV → XV
  | .nan s => .nan s
  | .inf n => .inf n
  | .fin n m e => .num n m e false

/-- Whether a value is NaN or infinite (R246). -/
def FV.nonFinite : FV → Bool
  | .nan _ | .inf _ => true
  | .fin _ _ _ => false

/-! ### Rounding (R231 to R234) -/

/-- Rounds the magnitude m * 2^e (and `st`) to a multiple of 2^q: the multiple, and whether it is inexact. -/
def roundMag (r : Rnd) (neg : Bool) (m : Nat) (e : Int) (st : Bool) (q : Int) : Nat × Bool :=
  if q ≤ e then
    let n := m * 2 ^ (e - q).toNat
    if st then
      match r with
      | .ne | .tz => (n, true)
      | .up => (if neg then n else n + 1, true)
      | .dn => (if neg then n + 1 else n, true)
      | .od => (if n % 2 = 0 then n + 1 else n, true)
    else (n, false)
  else
    let k := (q - e).toNat
    let n := m / 2 ^ k
    let rem := m % 2 ^ k
    let half := 2 ^ (k - 1)
    let inx := rem ≠ 0 || st
    let above := half < rem || (rem = half && st)
    let tie := rem = half && !st
    let up := match r with
      | .ne => above || (tie && n % 2 = 1)
      | .tz => false
      | .up => inx && !neg
      | .dn => inx && neg
      | .od => inx && n % 2 = 0
    (if up then n + 1 else n, inx)

/-- Whether m * 2^e exceeds M * 2^E. -/
def magGt (m : Nat) (e : Int) (m2 : Nat) (e2 : Int) : Bool :=
  let b := min e e2
  m2 * 2 ^ (e2 - b).toNat < m * 2 ^ (e - b).toNat

/-- Floor of the binary logarithm of a magnitude that is not zero. -/
def flog2Of (m : Nat) (e : Int) : Int := (Nat.log2 m : Int) + e

/-- Whether infinity stands for an overflow in a mode (R232). -/
def ovfInf (r : Rnd) (neg : Bool) : Bool :=
  match r with
  | .ne => true
  | .tz | .od => false
  | .up => !neg
  | .dn => neg

/-- One rounding into FP32 or BF16, or into AF8 when `sat8` (R231, R232, R234). -/
def roundBin (f : BinFmt) (sat8 : Bool) (r : Rnd) (sat : Bool) (x : XV) : FRes :=
  let sgn (neg : Bool) (b : Nat) : Nat := if neg then b + f.signBit else b
  match x with
  | .nan sig => ⟨if sat8 then 0x7F else f.infBits + 2 ^ (f.p - 2), if sig then flNv else 0⟩
  | .inf neg =>
    if sat8 then ⟨sgn neg f.bigBits, flOf⟩
    else ⟨sgn neg (if sat then f.bigBits else f.infBits), 0⟩
  | .num neg m e st =>
    if m = 0 && !st then ⟨sgn neg 0, 0⟩
    else
      let lg := if m = 0 then e else flog2Of m e
      let qn := lg - ((f.p : Int) - 1)
      let qs := f.emin - ((f.p : Int) - 1)
      let q := max qn qs
      let (n, inx) := roundMag r neg m e st q
      if magGt n q f.bigM f.bigE then
        if sat8 || sat || !ovfInf r neg then ⟨sgn neg f.bigBits, flOf ||| flNx⟩
        else ⟨sgn neg f.infBits, flOf ||| flNx⟩
      else
        let (n2, _) := roundMag r neg m e st qn
        let tiny := magGt 1 f.emin n2 qn
        ⟨sgn neg (f.encMag n q), (if inx then flNx else 0) ||| (if inx && tiny then flUf else 0)⟩

/-- The canonical TS8 encodings of the magnitudes 0 to 128 in units of 2^-6, by larger e2, then larger e1, with the
sign bit of an absent term 0 (R229). -/
def tsCanon (v : Int) : Option Nat :=
  let es := [7, 6, 5, 4, 3, 2, 1, 0]
  let cands := es.flatMap fun e2 => es.flatMap fun e1 =>
    [(0, 0), (0, 1), (1, 0), (1, 1)].filterMap fun s =>
      if (e1 = 7 && s.1 = 1) || (e2 = 7 && s.2 = 1) then none
      else if tsTerm s.1 e1 + tsTerm s.2 e2 = v then some (s.1 * 128 + e1 * 16 + s.2 * 8 + e2) else none
  cands.head?

/-- The magnitudes of TS8 that lie next below or at, and next above or at, a number of units. -/
def tsBelow : Nat → Nat
  | 0 => 0
  | n + 1 => if (tsCanon ((n + 1 : Nat) : Int)).isSome then n + 1 else tsBelow n

/-- The next TS8 magnitude at or above n, looking up `fuel` units. -/
def tsAbove : Nat → Nat → Nat
  | 0, n => n
  | fuel + 1, n => if (tsCanon (n : Int)).isSome then n else tsAbove fuel (n + 1)

/-- The canonical encoding of a signed magnitude. -/
def tsEnc (neg : Bool) (v : Nat) : Nat := (tsCanon (if neg then -(v : Int) else (v : Int))).getD 0x77

/-- One rounding into TS8 (R232, R233). R233 gives TS8 no mode for .od; a stream that stores TS8 from another float type with
rounding code 4, which R281 does not refuse, rounds as to nearest (DESIGN CHOICE, assumption 62). -/
def roundTs8 (r : Rnd) (x : XV) : FRes :=
  match x with
  | .nan _ => ⟨0x77, flNv⟩
  | .inf neg => ⟨if neg then 0x88 else 0x00, flOf⟩
  | .num neg m e st =>
    if m = 0 && !st then ⟨0x77, 0⟩
    else
      let big := magGt m e 2 0 || (st && !magGt 2 0 m e)
      if big then ⟨if neg then 0x88 else 0x00, flOf ||| flNx⟩
      else
        -- magnitude in units of 2^-6: whole part, and what is left over
        let (u, rest) : Nat × Bool :=
          if -6 ≤ e then (m * 2 ^ (e + 6).toNat, st)
          else (m / 2 ^ (-6 - e).toNat, st || m % 2 ^ (-6 - e).toNat ≠ 0)
        let lo := tsBelow u
        let hi := if lo = u && !rest then u else tsAbove 128 (u + 1)
        if lo = u && !rest then ⟨tsEnc neg u, 0⟩
        else
          -- twice the magnitude against lo + hi
          let (tw, trest) : Nat × Bool :=
            if -7 ≤ e then (m * 2 ^ (e + 7).toNat, st)
            else (m / 2 ^ (-7 - e).toNat, st || m % 2 ^ (-7 - e).toNat ≠ 0)
          let near :=
            if tw < lo + hi then lo
            else if lo + hi < tw || trest then hi
            else
              let cl := tsEnc false lo
              let ch := tsEnc false hi
              if ch % 8 < cl % 8 then lo
              else if cl % 8 < ch % 8 then hi
              else if ch / 16 % 8 < cl / 16 % 8 then lo else hi
          let v := match r with
            | .ne | .od => near
            | .tz => lo
            | .up => if neg then lo else hi
            | .dn => if neg then hi else lo
          let under := u = 0
          ⟨if v = 0 then 0x77 else tsEnc neg v, flNx ||| (if under then flUf else 0)⟩

/-- One rounding of an exact result into a float type (R231 to R234). -/
def roundF (t : Ty) (r : Rnd) (sat : Bool) (x : XV) : FRes :=
  match t with
  | .bf16 => roundBin fmtBf16 false r sat x
  | .a8 => roundBin fmtAf8 true r sat x
  | .t8 => roundTs8 r x
  | .f32 | .i8 | .i16 | .i32 | .i64 | .n8 | .n16 | .n32 | .n64 => roundBin fmtF32 false r sat x

/-- The canonical NaN of a float type (R226, R230). -/
def nanOf (t : Ty) : Nat := (roundF t .ne false (.nan false)).bits

/-! ### Exact sums and products -/

/-- Whether a value is a signalling NaN. -/
def FV.sig : FV → Bool
  | .nan s => s
  | .inf _ | .fin _ _ _ => false

/-- Whether a value is a NaN. -/
def FV.isNan : FV → Bool
  | .nan _ => true
  | .inf _ | .fin _ _ _ => false

/-- Negation of a value; a NaN stays as it is. -/
def FV.negate : FV → FV
  | .nan s => .nan s
  | .inf n => .inf (!n)
  | .fin n m e => .fin (!n) m e

/-- An exact result and the flags of an invalid operation. -/
structure XRes where
  x : XV
  fl : Flags
deriving DecidableEq, Repr

/-- The product of two values (R240): infinity times zero is invalid. -/
def mulX (a b : FV) : XRes :=
  match a, b with
  | .nan s, y => ⟨.nan false, if s || y.sig then flNv else 0⟩
  | _, .nan s => ⟨.nan false, if s then flNv else 0⟩
  | .inf n, .inf k => ⟨.inf (xor n k), 0⟩
  | .inf n, .fin k m _ => if m = 0 then ⟨.nan false, flNv⟩ else ⟨.inf (xor n k), 0⟩
  | .fin k m _, .inf n => if m = 0 then ⟨.nan false, flNv⟩ else ⟨.inf (xor n k), 0⟩
  | .fin n m e, .fin k m2 e2 => ⟨.num (xor n k) (m * m2) (e + e2) false, 0⟩

/-- The sum of two exact results; an exact zero from opposite signs is +0, and -0 in .dn (R231). -/
def addX (r : Rnd) (a b : XV) : XRes :=
  match a, b with
  | .nan s, .nan k => ⟨.nan false, if s || k then flNv else 0⟩
  | .nan s, _ => ⟨.nan false, if s then flNv else 0⟩
  | _, .nan s => ⟨.nan false, if s then flNv else 0⟩
  | .inf n, .inf k => if n = k then ⟨.inf n, 0⟩ else ⟨.nan false, flNv⟩
  | .inf n, .num _ _ _ _ => ⟨.inf n, 0⟩
  | .num _ _ _ _, .inf n => ⟨.inf n, 0⟩
  | .num n m e _, .num k m2 e2 _ =>
    if m = 0 ∧ m2 = 0 then ⟨.num (if n = k then n else r == .dn) 0 0 false, 0⟩
    else
      let b := min e e2
      let x : Int := (m * 2 ^ (e - b).toNat : Nat)
      let y : Int := (m2 * 2 ^ (e2 - b).toNat : Nat)
      let t := (if n then -x else x) + (if k then -y else y)
      if t = 0 then ⟨.num (r == .dn) 0 0 false, 0⟩ else ⟨.num (t < 0) t.natAbs b false, 0⟩

/-- a + b rounded once. -/
def fAdd (t : Ty) (r : Rnd) (sat : Bool) (a b : Nat) : FRes :=
  let x := addX r (decF t a).x (decF t b).x
  let y := roundF t r sat x.x
  ⟨y.bits, y.fl ||| x.fl⟩

/-- a - b rounded once. -/
def fSub (t : Ty) (r : Rnd) (sat : Bool) (a b : Nat) : FRes :=
  let x := addX r (decF t a).x (decF t b).negate.x
  let y := roundF t r sat x.x
  ⟨y.bits, y.fl ||| x.fl⟩

/-- a * b rounded once. -/
def fMul (t : Ty) (r : Rnd) (sat : Bool) (a b : Nat) : FRes :=
  let x := mulX (decF t a) (decF t b)
  let y := roundF t r sat x.x
  ⟨y.bits, y.fl ||| x.fl⟩

/-- a * b + c rounded once, with the product or the addend negated. -/
def fFma (t : Ty) (r : Rnd) (negP negC : Bool) (a b c : Nat) : FRes :=
  let va := decF t a
  let vc := decF t c
  let p := mulX (if negP then va.negate else va) (decF t b)
  let x := addX r p.x (if negC then vc.negate else vc).x
  let y := roundF t r false x.x
  ⟨y.bits, y.fl ||| x.fl ||| p.fl⟩

/-- Orders two values that are not NaN: less, equal (zeros are equal) or greater. -/
def FV.cmp (a b : FV) : Ordering :=
  match a, b with
  | .inf true, .inf true | .inf false, .inf false => .eq
  | .inf true, _ => .lt
  | _, .inf true => .gt
  | .inf false, _ => .gt
  | _, .inf false => .lt
  | .fin n m e, .fin k m2 e2 =>
    let b := min e e2
    let x : Int := (m * 2 ^ (e - b).toNat : Nat)
    let y : Int := (m2 * 2 ^ (e2 - b).toNat : Nat)
    compare (if n then -x else x) (if k then -y else y)
  | .nan _, _ | _, .nan _ => .eq

/-- Whether a value is a zero. -/
def FV.isZero : FV → Bool
  | .fin _ m _ => m == 0
  | .nan _ | .inf _ => false

/-- Whether a value is negative, a zero by its sign bit. -/
def FV.isNeg : FV → Bool
  | .fin n _ _ | .inf n => n
  | .nan _ => false

/-- vmin, vmax, vminp and vmaxp (R244). -/
def fMinMax (t : Ty) (isMax prop : Bool) (a b : Nat) : FRes :=
  let x := decF t a
  let y := decF t b
  let nan := nanOf t
  if x.sig || y.sig then ⟨nan, flNv⟩
  else if x.isNan && y.isNan then ⟨nan, 0⟩
  else if x.isNan then ⟨if prop then nan else b, 0⟩
  else if y.isNan then ⟨if prop then nan else a, 0⟩
  else
    let aFirst :=
      match x.cmp y with
      | .lt => !isMax
      | .gt => isMax
      | .eq => if x.isNeg then !isMax else isMax
    ⟨if aFirst then a else b, 0⟩

/-! ### Conversions (R235, R236, R262) -/

/-- Bounds of an integer type (R183). -/
def tyBits : Ty → Nat
  | .i8 | .n8 | .a8 | .t8 => 8
  | .i16 | .n16 | .bf16 => 16
  | .i32 | .n32 | .f32 => 32
  | .i64 | .n64 => 64

/-- Lowest value of an integer type. -/
def tyLo (t : Ty) : Int := if t.isI then -((2 ^ (tyBits t - 1) : Nat) : Int) else 0
/-- Highest value of an integer type. -/
def tyHi (t : Ty) : Int := if t.isI then ((2 ^ (tyBits t - 1) : Nat) : Int) - 1 else ((2 ^ tyBits t : Nat) : Int) - 1
/-- val of R183: the low bits of a pattern as a number of the type. -/
def tyVal (t : Ty) (b : Nat) : Int :=
  let w := tyBits t
  let v := b % 2 ^ w
  if t.isI && 2 ^ (w - 1) ≤ v then (v : Int) - ((2 ^ w : Nat) : Int) else (v : Int)
/-- A number as a pattern of the type's width. -/
def tyPat (t : Ty) (v : Int) : Nat := (v % ((2 ^ tyBits t : Nat) : Int)).toNat

/-- An integer as an exact result. -/
def intX (v : Int) : XV := .num (v < 0) v.natAbs 0 false

/-- The integer that a value rounds to in a mode, and whether it is inexact. -/
def toIntR (r : Rnd) (neg : Bool) (m : Nat) (e : Int) (st : Bool) : Int × Bool :=
  let (n, inx) := roundMag r neg m e st 0
  (if neg then -(n : Int) else (n : Int), inx)

/-- Float to integer (R236). -/
def floatToInt (t : Ty) (r : Rnd) (x : FV) : FRes :=
  match x with
  | .nan _ => ⟨0, flNv⟩
  | .inf neg => ⟨tyPat t (if neg then tyLo t else tyHi t), flNv⟩
  | .fin neg m e =>
    let (v, inx) := toIntR r neg m e false
    if v < tyLo t then ⟨tyPat t (tyLo t), flNv⟩
    else if tyHi t < v then ⟨tyPat t (tyHi t), flNv⟩
    else ⟨tyPat t v, if inx then flNx else 0⟩

/-- One element converted from type `st` to type `dt` (R235, R236, R262). -/
def convert (dt st : Ty) (r : Rnd) (sat : Bool) (b : Nat) : FRes :=
  if st.isFloat then
    if dt.isFloat then
      let v := decF st b
      let y := roundF dt r sat v.x
      ⟨y.bits, y.fl ||| (if v.sig then flNv else 0)⟩
    else floatToInt dt r (decF st b)
  else if dt.isFloat then roundF dt r sat (intX (tyVal st b))
  else ⟨tyPat dt (tyVal st b), 0⟩

/-! ### The array's arithmetic (R240 to R242) -/

/-- Multiplies a value by a power of two. -/
def FV.scale (k : Int) : FV → FV
  | .nan s => .nan s
  | .inf n => .inf n
  | .fin n m e => .fin n m (e + k)

/-- A product of the array: exact, NaN for infinity times zero (R240). -/
def arrProd (a w : FV) : FV :=
  match (mulX a w).x with
  | .nan s => .nan s
  | .inf n => .inf n
  | .num n m e _ => .fin n m e

/-- The FP32 value of a chunk of exact products (R241). -/
def chunkSum (ps : List FV) : Nat :=
  let nanB := nanOf .f32
  let posInf := ps.any (· == .inf false)
  let negInf := ps.any (· == .inf true)
  if ps.any FV.isNan || (posInf && negInf) then nanB
  else if posInf then 0x7F800000
  else if negInf then 0xFF800000
  else if ps.all FV.isZero then (if ps.all FV.isNeg then 0x80000000 else 0)
  else
    let lgs := ps.filterMap fun p => match p with
      | .fin _ m e => if m = 0 then none else some (flog2Of m e)
      | .nan _ | .inf _ => none
    let emax := lgs.foldl max (lgs.headD 0)
    let u := emax - 47
    let (t, sticky) := ps.foldl (fun (acc : Int × Bool) p => match p with
      | .fin n m e =>
        let q := if u ≤ e then m * 2 ^ (e - u).toNat else m / 2 ^ (u - e).toNat
        let lost := if u ≤ e then false else m % 2 ^ (u - e).toNat ≠ 0
        (if n then acc.1 - (q : Int) else acc.1 + (q : Int), acc.2 || lost)
      | .nan _ | .inf _ => acc) ((0 : Int), false)
    if t = 0 then 0 else (roundBin fmtF32 false .ne false (.num (t < 0) t.natAbs u sticky)).bits

/-- Splits a list into chunks of eight. -/
def chunks8 {α : Type} : Nat → List α → List (List α)
  | 0, _ => []
  | fuel + 1, l => if l.isEmpty then [] else l.take 8 :: chunks8 fuel (l.drop 8)

/-- An accumulator element takes the chunk values in row order (R242). -/
def accumulate (acc : Nat) (ps : List FV) : Nat :=
  (chunks8 ps.length ps).foldl (fun a c => (fAdd .f32 .ne false a (chunkSum c)).bits) acc

end Sys2Proof.Machine
end

