-- ==== Sys2Proof/Decode.lean ====
section
/-! DEFINITION. Decoding and encoding of the 96-bit word (R106 to R117). `readInstr` reads the operands of a column and
opcode pair; `fieldsOf` writes the fields of an instruction from the encoding tables. `decode` accepts a word exactly
when it reads an instruction that is well formed and whose fields are the word's own: so a reserved bit or field that
is not zero, an operand kind that the position does not accept and every illegal value are refused (R117). -/

namespace Sys2Proof

/-! ### Bit fields -/

/-- `x` above `y`, in a field of `k` bits. -/
def cat {n m k : Nat} (x : BitVec n) (y : BitVec m) : BitVec k := (x ++ y).setWidth k

/-- A one-bit field. -/
def bitF (b : Bool) : BitVec 1 := BitVec.ofBool b

/-- Reads a one-bit field. -/
def rdBit (x : BitVec 1) : Bool := x == 1

/-- The fields of a word other than its guard and hints (R106). -/
structure Fields where
  opc : BitVec 6
  col : BitVec 3
  var : BitVec 7
  d : BitVec 10
  a : BitVec 10
  b : BitVec 10
  imm : BitVec 18
deriving DecidableEq, Repr

namespace Fields

/-- Variant bits 86:83: the type code (R111). -/
def ty (f : Fields) : BitVec 4 := f.var.extractLsb' 3 4
/-- Variant bits 82:80: the rounding code, the condition or the token. -/
def lo3 (f : Fields) : BitVec 3 := f.var.extractLsb' 0 3
/-- Word bit 80. -/
def b80 (f : Fields) : Bool := rdBit (f.var.extractLsb' 0 1)
/-- Word bit 81. -/
def b81 (f : Fields) : Bool := rdBit (f.var.extractLsb' 1 1)
/-- Word bit 82. -/
def b82 (f : Fields) : Bool := rdBit (f.var.extractLsb' 2 1)
/-- Word bit 83. -/
def b83 (f : Fields) : Bool := rdBit (f.var.extractLsb' 3 1)
/-- Word bit 84. -/
def b84 (f : Fields) : Bool := rdBit (f.var.extractLsb' 4 1)
/-- Word bit 85. -/
def b85 (f : Fields) : Bool := rdBit (f.var.extractLsb' 5 1)
/-- Word bit 86. -/
def b86 (f : Fields) : Bool := rdBit (f.var.extractLsb' 6 1)
/-- Operand C, bits 41:32 (R107). -/
def c (f : Fields) : BitVec 10 := f.imm.extractLsb' 0 10
/-- The 38-bit immediate of the wide-immediate form, bits 69:32 (R107). -/
def imm38 (f : Fields) : BitVec 38 := cat f.a (cat f.b f.imm : BitVec 28)

end Fields

/-! ### Codes -/

/-- Type codes (R112). -/
def tyF : Ty → BitVec 4
  | .i8 => 0x0 | .i16 => 0x1 | .i32 => 0x2 | .i64 => 0x3 | .n8 => 0x4 | .n16 => 0x5 | .n32 => 0x6 | .n64 => 0x7
  | .f32 => 0x8 | .bf16 => 0x9 | .a8 => 0xA | .t8 => 0xB

/-- Reads a type code; 0xC to 0xF are illegal (R112). -/
def rdTy (x : BitVec 4) : Option Ty :=
  match x.toNat with
  | 0 => some .i8 | 1 => some .i16 | 2 => some .i32 | 3 => some .i64 | 4 => some .n8 | 5 => some .n16
  | 6 => some .n32 | 7 => some .n64 | 8 => some .f32 | 9 => some .bf16 | 10 => some .a8 | 11 => some .t8
  | _ => none

/-- Rounding codes (R112). -/
def rndF : Rnd → BitVec 3
  | .ne => 0 | .tz => 1 | .up => 2 | .dn => 3 | .od => 4

/-- Reads a rounding code; 5 to 7 are illegal (R112). -/
def rdRnd (x : BitVec 3) : Option Rnd :=
  match x.toNat with
  | 0 => some .ne | 1 => some .tz | 2 => some .up | 3 => some .dn | 4 => some .od | _ => none

/-- Condition codes (R193, R260). -/
def condF : Cond → BitVec 3
  | .eq => 0 | .ne => 1 | .lt => 2 | .le => 3 | .gt => 4 | .ge => 5 | .tst => 6

/-- Reads a condition code; 7 is illegal. -/
def rdCond (x : BitVec 3) : Option Cond :=
  match x.toNat with
  | 0 => some .eq | 1 => some .ne | 2 => some .lt | 3 => some .le | 4 => some .gt | 5 => some .ge | 6 => some .tst
  | _ => none

/-- Scope codes (R147). -/
def scopeF : Scope → BitVec 4
  | .strand => 0 | .tile => 1 | .quad => 2 | .gang => 3 | .column => 4 | .layer => 5 | .block => 6 | .region => 7
  | .device => 8 | .host => 9 | .peer => 10 | .system => 11

/-- Reads a scope code; 12 to 15 are illegal (R147). -/
def rdScope (x : BitVec 4) : Option Scope :=
  match x.toNat with
  | 0 => some .strand | 1 => some .tile | 2 => some .quad | 3 => some .gang | 4 => some .column | 5 => some .layer
  | 6 => some .block | 7 => some .region | 8 => some .device | 9 => some .host | 10 => some .peer
  | 11 => some .system | _ => none

/-- Phase kind codes (R147). -/
def pkF : PKind → BitVec 2
  | .compute => 0 | .exchange => 1 | .elastic => 2

/-- Reads a phase kind; 3 is illegal. -/
def rdPk (x : BitVec 2) : Option PKind :=
  match x.toNat with
  | 0 => some .compute | 1 => some .exchange | 2 => some .elastic | _ => none

/-- Directions in the port order of R60 (R164). -/
def dirF : Dir → BitVec 3
  | .xm => 0 | .xp => 1 | .ym => 2 | .yp => 3 | .zm => 4 | .zp => 5

/-- Reads a direction; 6 and 7 are illegal. -/
def rdDir (x : BitVec 3) : Option Dir :=
  match x.toNat with
  | 0 => some .xm | 1 => some .xp | 2 => some .ym | 3 => some .yp | 4 => some .zm | 5 => some .zp | _ => none

/-- Dimension orders (R403). -/
def orderF : Order → BitVec 3
  | .xyz => 0 | .xzy => 1 | .yxz => 2 | .yzx => 3 | .zxy => 4 | .zyx => 5

/-- Reads a dimension order; 6 and 7 are illegal. -/
def rdOrder (x : BitVec 3) : Option Order :=
  match x.toNat with
  | 0 => some .xyz | 1 => some .xzy | 2 => some .yxz | 3 => some .yzx | 4 => some .zxy | 5 => some .zyx | _ => none

/-- Operations of vredl and vscan (R267). -/
def redF : RedOp → BitVec 2
  | .add => 0 | .min => 1 | .max => 2

/-- Reads an operation of vredl or vscan; 3 is illegal. -/
def rdRed (x : BitVec 2) : Option RedOp :=
  match x.toNat with
  | 0 => some .add | 1 => some .min | 2 => some .max | _ => none

/-- Operations of atom (R313). -/
def atomF : AtomOp → BitVec 4
  | .add => 0 | .min => 1 | .max => 2 | .and => 3 | .or => 4 | .xor => 5 | .swap => 6 | .fadd => 7

/-- Reads an operation of atom. -/
def rdAtom (x : BitVec 4) : Option AtomOp :=
  match x.toNat with
  | 0 => some .add | 1 => some .min | 2 => some .max | 3 => some .and | 4 => some .or | 5 => some .xor
  | 6 => some .swap | 7 => some .fadd | _ => none

/-- Operations of upd (R313); the FP32 addition of updf has no code here and takes one that upd refuses. -/
def updF : UpdOp → BitVec 3
  | .add => 0 | .min => 1 | .max => 2 | .and => 3 | .or => 4 | .xor => 5 | .fadd => 7

/-- Reads an operation of upd. -/
def rdUpd (x : BitVec 3) : Option UpdOp :=
  match x.toNat with
  | 0 => some .add | 1 => some .min | 2 => some .max | 3 => some .and | 4 => some .or | 5 => some .xor | _ => none

/-- Operations of reduce and allred (R403). -/
def treeF : TreeOp → BitVec 3
  | .add => 0 | .min => 1 | .max => 2 | .and => 3 | .or => 4 | .xor => 5

/-- Reads an operation of reduce or allred; 6 and 7 are illegal. -/
def rdTree (x : BitVec 3) : Option TreeOp :=
  match x.toNat with
  | 0 => some .add | 1 => some .min | 2 => some .max | 3 => some .and | 4 => some .or | 5 => some .xor | _ => none

/-- Selectors of fbasis (R273). -/
def basisF : BasisSel → BitVec 3
  | .b0 => 0 | .b1 => 1 | .b2 => 2 | .b3 => 3 | .idx => 4

/-- Reads a selector of fbasis; 5 to 7 are illegal. -/
def rdBasis (x : BitVec 3) : Option BasisSel :=
  match x.toNat with
  | 0 => some .b0 | 1 => some .b1 | 2 => some .b2 | 3 => some .b3 | 4 => some .idx | _ => none

/-- Numbers of the copy control registers (R326). -/
def cpF : CpReg → BitVec 4
  | .src => 0 | .dst => 1 | .len => 2 | .str0 => 3 | .str1 => 4 | .str2 => 5 | .str3 => 6 | .str4 => 7 | .str5 => 8
  | .geo => 9 | .fmt => 10

/-- Reads the number of a copy control register; 11 to 15 are reserved. -/
def rdCp (x : BitVec 4) : Option CpReg :=
  match x.toNat with
  | 0 => some .src | 1 => some .dst | 2 => some .len | 3 => some .str0 | 4 => some .str1 | 5 => some .str2
  | 6 => some .str3 | 7 => some .str4 | 8 => some .str5 | 9 => some .geo | 10 => some .fmt | _ => none

/-- Selectors of xstat (R416). -/
def xselF : XSel → BitVec 3
  | .status => 0 | .tag => 1 | .overflow => 2 | .handles => 3 | .orders => 4

/-- Reads a selector of xstat; 5 to 7 are illegal. -/
def rdXsel (x : BitVec 3) : Option XSel :=
  match x.toNat with
  | 0 => some .status | 1 => some .tag | 2 => some .overflow | 3 => some .handles | 4 => some .orders | _ => none

/-! ### Operand fields (R108 to R110) -/

/-- A kind-0 operand. -/
def sF (n : BitVec 6) : BitVec 10 := cat (0 : BitVec 4) n
/-- The scalar index of a kind-0 operand. -/
def rdS (x : BitVec 10) : BitVec 6 := x.extractLsb' 0 6
/-- p0 to p15 (indices 0x00 to 0x0F of kind 2). -/
def pF (n : BitVec 4) : BitVec 10 := cat (0x20 : BitVec 6) n
/-- The number of a predicate operand. -/
def rdP (x : BitVec 10) : BitVec 4 := x.extractLsb' 0 4
/-- m0 to m7 (indices 0x10 to 0x17). -/
def mF (n : BitVec 3) : BitVec 10 := cat (0x42 : BitVec 7) n
/-- The number of a mask operand. -/
def rdM (x : BitVec 10) : BitVec 3 := x.extractLsb' 0 3
/-- x0 to x3 (indices 0x18 to 0x1B). -/
def xF (n : BitVec 2) : BitVec 10 := cat (0x86 : BitVec 8) n
/-- The number of an index register operand. -/
def rdX (x : BitVec 10) : BitVec 2 := x.extractLsb' 0 2
/-- a0 to a7 (indices 0x20 to 0x27). -/
def aF (n : BitVec 3) : BitVec 10 := cat (0x44 : BitVec 7) n
/-- k0 to k7 (indices 0x28 to 0x2F). -/
def kF (n : BitVec 3) : BitVec 10 := cat (0x45 : BitVec 7) n
/-- A stream register: kind 1, index 0 to 7 (R280). -/
def strmF (n : BitVec 3) : BitVec 10 := cat (0x20 : BitVec 7) n

/-- The index of a class S special register in R110. -/
def specialF : Special → BitVec 8
  | .p n => cat (0 : BitVec 4) n
  | .m n => cat (0x02 : BitVec 5) n
  | .x n => cat (0x06 : BitVec 6) n
  | .idCx => 0x30 | .idCy => 0x31 | .idCz => 0x32 | .idRx => 0x33 | .idRy => 0x34 | .idRz => 0x35
  | .idGang => 0x36 | .idStrand => 0x37 | .idRegion => 0x38 | .idPart => 0x39 | .idDev => 0x3A | .idStep => 0x3B
  | .tmNow => 0x3C | .ttTick => 0x3D | .knLo => 0x40 | .knInv => 0x41 | .knG => 0x42 | .knMode => 0x43

/-- Reads a special index as a class S register (R110). -/
def rdSpecial (x : BitVec 8) : Option Special :=
  let n := x.toNat
  if n < 0x10 then some (.p (x.extractLsb' 0 4))
  else if n < 0x18 then some (.m (x.extractLsb' 0 3))
  else if n < 0x1C then some (.x (x.extractLsb' 0 2))
  else match n with
    | 0x30 => some .idCx | 0x31 => some .idCy | 0x32 => some .idCz | 0x33 => some .idRx | 0x34 => some .idRy
    | 0x35 => some .idRz | 0x36 => some .idGang | 0x37 => some .idStrand | 0x38 => some .idRegion
    | 0x39 => some .idPart | 0x3A => some .idDev | 0x3B => some .idStep | 0x3C => some .tmNow
    | 0x3D => some .ttTick | 0x40 => some .knLo | 0x41 => some .knInv | 0x42 => some .knG | 0x43 => some .knMode
    | _ => none

/-- A scalar source position (R109). -/
def srcF : Src → BitVec 10
  | .s n => sF n
  | .sp r => cat (2 : BitVec 2) (specialF r)

/-- Reads a scalar source position: kind 0 with index below 64, or a class S special (R108, R109). -/
def rdSrc (x : BitVec 10) : Option Src :=
  match (x.extractLsb' 8 2).toNat with
  | 0 => some (.s (rdS x))
  | 2 => (rdSpecial (x.extractLsb' 0 8)).map .sp
  | _ => none

/-- A vector operand (R108). -/
def vF : VOp → BitVec 10
  | .v n => cat (1 : BitVec 2) n
  | .vx j off => cat (3 : BitVec 2) (cat j off : BitVec 8)

/-- Reads a vector operand: kind 1 or 3 (R108). -/
def rdV (x : BitVec 10) : Option VOp :=
  match (x.extractLsb' 8 2).toNat with
  | 1 => some (.v (x.extractLsb' 0 8))
  | 3 => some (.vx (x.extractLsb' 6 2) (x.extractLsb' 0 6))
  | _ => none

/-- Immediate bits 49:46: .m and the mask name (R250, R313). -/
def maskF : Mask → BitVec 4
  | none => 0
  | some n => cat (1 : BitVec 1) n

/-- Reads immediate bits 49:46. -/
def rdMask (x : BitVec 4) : Mask :=
  if x.extractLsb' 3 1 == 1 then some (x.extractLsb' 0 3) else none

/-- The mask of a three-operand word. -/
def Fields.msk (f : Fields) : Mask := rdMask (f.imm.extractLsb' 14 4)
/-- Immediate bit 45: .sat of a float word (R250). -/
def Fields.fsat (f : Fields) : Bool := rdBit (f.imm.extractLsb' 13 1)

/-! ### Shared forms -/

/-- Typed variant with three own bits. -/
def varT (t : Ty) (x : BitVec 3) : BitVec 7 := cat (tyF t) x
/-- Variant bits 82, 81 and 80. -/
def three (b82 b81 b80 : Bool) : BitVec 3 := cat (bitF b82) (cat (bitF b81) (bitF b80) : BitVec 2)
/-- A variant of which only bit 80 is named. -/
def var80 (b : Bool) : BitVec 7 := cat (0 : BitVec 6) (bitF b)
/-- A variant that holds a token alone. -/
def varK (k : BitVec 3) : BitVec 7 := cat (0 : BitVec 4) k
/-- Variant bit 83 and a token. -/
def var83K (b : Bool) (k : BitVec 3) : BitVec 7 := cat (0 : BitVec 3) (cat (bitF b) k : BitVec 4)
/-- An immediate of the mask and 14 low bits. -/
def immM (m : Mask) (x : BitVec 14) : BitVec 18 := cat (maskF m) x
/-- An immediate of the mask and .sat. -/
def immMS (m : Mask) (sat : Bool) (x : BitVec 13) : BitVec 18 := immM m (cat (bitF sat) x)
/-- Operand C with bits 49:42 zero. -/
def immC (c : BitVec 10) : BitVec 18 := cat (0 : BitVec 8) c
/-- The rows field with bit 12 (R358). -/
def rowsF (z : Bool) (r : Rows) : BitVec 18 :=
  cat (0 : BitVec 5) (cat (bitF z) (cat r.r0 r.n1 : BitVec 12) : BitVec 13)
/-- Reads rows and row0. -/
def Fields.rows (f : Fields) : Rows := ⟨f.imm.extractLsb' 0 6, f.imm.extractLsb' 6 6⟩
/-- Immediate bit 12: .z (R358). -/
def Fields.z (f : Fields) : Bool := rdBit (f.imm.extractLsb' 12 1)

/-- A transfer of R142. -/
def fXfer (opc : BitVec 6) (det : Bool) (d a : BitVec 10) (imm : BitVec 18) : Fields :=
  ⟨opc, 7, cat (bitF det) (0 : BitVec 6), d, a, 0, imm⟩

/-- A TS word with two sources (R181, R182). -/
def fBin (opc : BitVec 6) (sat : Bool) (o : Bin) : Fields :=
  match o.b with
  | .reg b => ⟨opc, 0, varT o.t (three sat false false), sF o.d, srcF o.a, srcF b, 0⟩
  | .imm v => ⟨opc, 0, varT o.t (three sat true false), sF o.d, srcF o.a, 0, v⟩

/-- Reads operand B of a TS word. -/
def Fields.srcB (f : Fields) : Option SrcB := if f.b81 then some (.imm f.imm) else (rdSrc f.b).map .reg

/-- Reads a TS word with two sources. -/
def rdBin (f : Fields) : Option Bin := do
  let t ← rdTy f.ty
  let a ← rdSrc f.a
  let b ← f.srcB
  some ⟨t, rdS f.d, a, b⟩

/-- A TS word with one source (R181). -/
def fUn (opc : BitVec 6) (sat : Bool) (o : Un) : Fields :=
  ⟨opc, 0, varT o.t (three sat false false), sF o.d, srcF o.a, 0, 0⟩

/-- Reads a TS word with one source. -/
def rdUn (f : Fields) : Option Un := do
  let t ← rdTy f.ty
  let a ← rdSrc f.a
  some ⟨t, rdS f.d, a⟩

/-- A three-operand vector word. -/
def fV3 (col : BitVec 3) (opc : BitVec 6) (var : BitVec 7) (x : BitVec 14) (o : V3) : Fields :=
  ⟨opc, col, var, vF o.d, vF o.a, vF o.b, immM o.msk x⟩

/-- Reads D, A, B and the mask. -/
def rdV3 (f : Fields) : Option V3 := do
  let d ← rdV f.d
  let a ← rdV f.a
  let b ← rdV f.b
  some ⟨d, a, b, f.msk⟩

/-- A vector word with D and A. -/
def fV2 (col : BitVec 3) (opc : BitVec 6) (var : BitVec 7) (x : BitVec 14) (o : V2) : Fields :=
  ⟨opc, col, var, vF o.d, vF o.a, 0, immM o.msk x⟩

/-- Reads D, A and the mask. -/
def rdV2 (f : Fields) : Option V2 := do
  let d ← rdV f.d
  let a ← rdV f.a
  some ⟨d, a, f.msk⟩

/-- A four-operand vector word. -/
def fV4 (opc : BitVec 6) (var : BitVec 7) (o : V4) : Fields :=
  ⟨opc, 2, var, vF o.d, vF o.a, vF o.b, immC (vF o.c)⟩

/-- Reads D, A, B and C. -/
def rdV4 (f : Fields) : Option V4 := do
  let d ← rdV f.d
  let a ← rdV f.a
  let b ← rdV f.b
  let c ← rdV f.c
  some ⟨d, a, b, c⟩

/-- Type and rounding in the variant (R111). -/
def varTR (t : Ty) (r : Rnd) : BitVec 7 := varT t (rndF r)

/-- Reads type, rounding and .sat. -/
def rdFm (f : Fields) : Option Fm := do
  let t ← rdTy f.ty
  let r ← rdRnd f.lo3
  some ⟨t, r, f.fsat⟩

/-- Low 14 immediate bits of a float word: .sat alone. -/
def satF (sat : Bool) : BitVec 14 := cat (bitF sat) (0 : BitVec 13)

/-- A float word with D, A and B. -/
def fF3 (col : BitVec 3) (opc : BitVec 6) (f : Fm) (o : V3) : Fields := fV3 col opc (varTR f.t f.r) (satF f.sat) o
/-- A float word with D and A. -/
def fF2 (col : BitVec 3) (opc : BitVec 6) (f : Fm) (o : V2) : Fields := fV2 col opc (varTR f.t f.r) (satF f.sat) o

/-- A vector shift word (R252, R258). -/
def fVsh (opc : BitVec 6) (t : Ty) (d a : VOp) (b : VAmt) (m : Mask) : Fields :=
  match b with
  | .v b => ⟨opc, 2, varT t (three false false false), vF d, vF a, vF b, immM m 0⟩
  | .imm n => ⟨opc, 2, varT t (three false true false), vF d, vF a, 0, immM m (cat (0 : BitVec 9) n)⟩

/-- Reads the amount of a vector shift. -/
def rdVsh (f : Fields) : Option (Ty × VOp × VOp × VAmt × Mask) := do
  let t ← rdTy f.ty
  let d ← rdV f.d
  let a ← rdV f.a
  let b ← if f.b81 then some (.imm (f.imm.extractLsb' 0 5)) else (rdV f.b).map .v
  some (t, d, a, b, f.msk)

/-- mand, mor and mxor (R261). -/
def fMask (opc : BitVec 6) (z : Bool) (d a : BitVec 3) (b : MSrc) : Fields :=
  let af := if z then 0 else mF a
  match b with
  | .m n => ⟨opc, 2, cat (0 : BitVec 4) (three false false z), mF d, af, mF n, 0⟩
  | .s x => ⟨opc, 2, cat (0 : BitVec 4) (three false true z), mF d, af, srcF x, 0⟩

/-- Reads mand, mor and mxor. -/
def rdMask3 (f : Fields) : Option (Bool × BitVec 3 × BitVec 3 × MSrc) := do
  let b ← if f.b81 then (rdSrc f.b).map .s else some (.m (rdM f.b))
  some (f.b80, rdM f.d, if f.b80 then 0 else rdM f.a, b)

/-- An array word (R358, R381). -/
def fArr (opc : BitVec 6) (z : Bool) (o : ArrD) : Fields :=
  ⟨opc, 4, varK o.k, aF o.d, sF o.a, sF o.b, rowsF z o.rows⟩

/-- Reads an array word. -/
def rdArr (f : Fields) : ArrD := ⟨rdM f.d, rdS f.a, rdS f.b, f.lo3, f.rows⟩

/-- mm, mmg and splev (R358, R381). -/
def fMm (opc : BitVec 6) (b83 : Bool) (o : MmOp) : Fields :=
  match o.src with
  | .desc a b => ⟨opc, 4, var83K b83 o.k, aF o.d, sF a, sF b, rowsF o.z o.rows⟩
  | .strm n => ⟨opc, 4, var83K b83 o.k, aF o.d, strmF n, 0, rowsF o.z o.rows⟩

/-- Reads mm, mmg and splev. -/
def rdMm (f : Fields) : MmOp :=
  let src := if (f.a.extractLsb' 8 2) == 1 then AOp.strm (rdM f.a) else AOp.desc (rdS f.a) (rdS f.b)
  ⟨f.z, rdM f.d, src, f.lo3, f.rows⟩

/-- A tree word; the operation stands in immediate bits 6:4 (R403). -/
def fTree (opc : BitVec 6) (op : BitVec 3) (w : TreeW) : Fields :=
  ⟨opc, 5, varT w.t w.k, vF w.d, vF w.a, 0, cat (0 : BitVec 7) (cat w.e (cat op w.slot : BitVec 7) : BitVec 11)⟩

/-- Reads a tree word. -/
def rdTreeW (f : Fields) : Option TreeW := do
  let t ← rdTy f.ty
  let d ← rdV f.d
  let a ← rdV f.a
  some ⟨t, d, a, f.lo3, f.imm.extractLsb' 0 4, f.imm.extractLsb' 7 4⟩

/-- The CSR number field (R466). -/
def csrF (n : BitVec 12) : BitVec 18 := cat (0 : BitVec 6) n

/-- An optional token in variant bit 83 and bits 82:80 (R403). -/
def tokOptF : Option (BitVec 3) → BitVec 4
  | none => 0
  | some k => cat (1 : BitVec 1) k

/-- Reads an optional token of variant bits 83:80. -/
def rdTokOpt (x : BitVec 4) : Option (BitVec 3) :=
  if x.extractLsb' 3 1 == 1 then some (x.extractLsb' 0 3) else none

/-- Low six bits alone in an immediate. -/
def imm6 (x : BitVec 6) : BitVec 18 := cat (0 : BitVec 12) x

/-! ### Reading a word, column by column -/

/-- K column (R141 to R169, R199, R204, R466). -/
def readK (f : Fields) : Option Instr :=
  match f.opc.toNat with
  | 0x01 => some (.br f.b86 f.imm)
  | 0x02 => some (.call f.b86 (rdS f.d) f.imm)
  | 0x03 => some (.ret f.b86 (rdS f.a))
  | 0x04 => some (.jmpi f.b86 (rdS f.a) f.imm)
  | 0x05 => some (.loop f.b86 (rdS f.d) f.imm)
  | 0x06 => some .nop
  | 0x07 => some (.trap f.imm)
  | 0x08 => some (.sleep (f.imm.extractLsb' 0 10))
  | 0x09 => do
    let sc ← rdScope f.ty
    let pk ← rdPk (f.var.extractLsb' 1 2)
    some (.phase sc pk f.b80 (rdBit (f.imm.extractLsb' 0 1)))
  | 0x0A => do
    let sc ← rdScope f.ty
    some (.bar sc (if f.b80 then some (rdM f.d) else none))
  | 0x0B => some (.rfork f.b80 (rdS f.d) (rdS f.a) (rdS f.b) f.imm)
  | 0x0C => some (.join (rdS f.a))
  | 0x0D => some (.spawn f.b80 (rdM f.d) (rdS f.a) (rdS f.b))
  | 0x0E => some .trigger
  | 0x0F => do
    let a ← rdSrc f.a
    let b ← rdSrc f.b
    some (.stepdl a b f.imm)
  | 0x10 => do
    let a ← rdSrc f.a
    some (.waitt (if f.b80 then some (rdM f.d) else none) a)
  | 0x11 => do
    let d ← rdDir (f.imm.extractLsb' 0 3)
    some (.follow d)
  | 0x12 => some .detach
  | 0x13 => some (.rep (rdS f.a)
      (if f.b80 then .reg (rdS f.b) else .imm (f.imm.extractLsb' 0 12)) (f.imm.extractLsb' 12 4))
  | 0x14 => some .uiret
  | 0x15 => some (.uien (f.imm.extractLsb' 0 4))
  | 0x16 => some (.csrr (rdS f.d) (f.imm.extractLsb' 0 12))
  | 0x17 => do
    let a ← rdSrc f.a
    some (.csrw (rdS f.d) a (f.imm.extractLsb' 0 12))
  | 0x18 => do
    let a ← rdSrc f.a
    some (.csrs (rdS f.d) a (f.imm.extractLsb' 0 12))
  | 0x19 => do
    let a ← rdSrc f.a
    some (.csrc (rdS f.d) a (f.imm.extractLsb' 0 12))
  | 0x1A => do
    let sc ← rdScope f.ty
    some (.fence sc)
  | 0x1B => do
    let sc ← rdScope f.ty
    let r ← if rdBit (f.imm.extractLsb' 0 1) then some none
      else do
        let a ← rdSrc f.a
        let b ← rdSrc f.b
        some (some (a, b))
    some (.tlbinv sc (rdS f.d) r f.lo3)
  | 0x1C => some .halt
  | _ => none

/-- I column (R181). -/
def readI (f : Fields) : Option Instr :=
  match f.opc.toNat with
  | 0x01 => (rdBin f).map (.add f.b82)
  | 0x02 => (rdBin f).map (.sub f.b82)
  | 0x03 => (rdBin f).map (.mul f.b82)
  | 0x04 => (rdBin f).map .mulh
  | 0x05 => (rdBin f).map .mulhn
  | 0x06 => (rdBin f).map .div
  | 0x07 => (rdBin f).map .divn
  | 0x08 => (rdBin f).map .rem
  | 0x09 => (rdBin f).map .remn
  | 0x0A => (rdBin f).map .and
  | 0x0B => (rdBin f).map .or
  | 0x0C => (rdBin f).map .xor
  | 0x0D => (rdBin f).map .andn
  | 0x0E => (rdBin f).map .shl
  | 0x0F => (rdBin f).map .shr
  | 0x10 => (rdBin f).map .sar
  | 0x11 => (rdBin f).map .rol
  | 0x12 => (rdUn f).map .clz
  | 0x13 => (rdUn f).map .ctz
  | 0x14 => (rdUn f).map .popc
  | 0x15 => (rdBin f).map .min
  | 0x16 => (rdBin f).map .max
  | 0x17 => (rdBin f).map .minn
  | 0x18 => (rdBin f).map .maxn
  | 0x19 => (rdUn f).map (.abs f.b82)
  | 0x1A => (rdUn f).map (.neg f.b82)
  | 0x1B => do
    let t ← rdTy f.ty
    let a ← rdSrc f.a
    let b ← rdSrc f.b
    some (.sel t (rdS f.d) a b (rdP f.c))
  | 0x1C => do
    let t ← rdTy f.ty
    let cc ← rdCond f.lo3
    let a ← rdSrc f.a
    let b ← if rdBit (f.imm.extractLsb' 17 1) then some (.imm (f.imm.extractLsb' 0 17)) else (rdSrc f.b).map .reg
    some (.cmp cc t (rdP f.d) a b)
  | 0x1D => do
    let t ← rdTy f.ty
    some (.ldi f.b80 t (rdS f.d) f.imm38)
  | 0x1E => (rdUn f).map .mov
  | 0x1F => do
    let a ← rdSrc f.a
    some (.sxt (rdS f.d) a (f.imm.extractLsb' 0 6))
  | 0x20 => do
    let a ← rdSrc f.a
    some (.zxt (rdS f.d) a (f.imm.extractLsb' 0 6))
  | 0x21 => do
    let a ← rdSrc f.a
    some (.bfx f.b80 (rdS f.d) a (f.imm.extractLsb' 0 6) (f.imm.extractLsb' 6 6))
  | 0x22 => do
    let a ← rdSrc f.a
    let b ← rdSrc f.b
    let c ← rdSrc f.c
    some (.bfi (rdS f.d) a b c)
  | 0x23 => do
    let a ← rdSrc f.a
    let b ← rdSrc f.b
    some (.lea (rdS f.d) a b (f.imm.extractLsb' 0 3) (f.imm.extractLsb' 3 15))
  | 0x24 => do
    let t ← rdTy f.ty
    let a ← rdSrc f.a
    let b ← rdSrc f.b
    let c ← rdSrc f.c
    some (.madd f.b82 t (rdS f.d) a b c)
  | 0x25 => some (.pand f.b81 f.b80 (rdP f.d) (rdP f.a) (rdP f.b))
  | 0x26 => some (.por f.b81 f.b80 (rdP f.d) (rdP f.a) (rdP f.b))
  | 0x27 => some (.pxor f.b81 f.b80 (rdP f.d) (rdP f.a) (rdP f.b))
  | 0x28 => some (.pnot (rdP f.d) (rdP f.a))
  | 0x29 => do
    let a ← if f.b81 then some (.imm f.imm) else (rdSrc f.a).map .reg
    some (.setx f.b80 (rdX f.d) a)
  | _ => none

/-- Reads D (scalar), A and a signed 18-bit offset. -/
def rdLd (f : Fields) : Option (Ty × Src) := do
  let t ← rdTy f.ty
  let a ← rdSrc f.a
  some (t, a)

/-- Reads the sources A and B of a store. -/
def rdSt (f : Fields) : Option (Ty × Src × Src) := do
  let t ← rdTy f.ty
  let a ← rdSrc f.a
  let b ← rdSrc f.b
  some (t, a, b)

/-- Reads D (vector) and A of a vector load. -/
def rdLdv (f : Fields) : Option (VOp × Src) := do
  let d ← rdV f.d
  let a ← rdSrc f.a
  some (d, a)

/-- Reads A and B (vector) of a vector store. -/
def rdStv (f : Fields) : Option (Src × VOp) := do
  let a ← rdSrc f.a
  let b ← rdV f.b
  some (a, b)

/-- L column (R313). -/
def readL (f : Fields) : Option Instr :=
  match f.opc.toNat with
  | 0x01 => (rdLd f).map fun x => .ld x.1 (rdS f.d) x.2 f.imm
  | 0x02 => (rdSt f).map fun x => .st x.1 x.2.1 x.2.2 f.imm
  | 0x03 => (rdLdv f).map fun x => .ldv x.1 x.2 f.msk (f.imm.extractLsb' 0 14)
  | 0x04 => (rdStv f).map fun x => .stv x.1 x.2 f.msk (f.imm.extractLsb' 0 14)
  | 0x05 => (rdLd f).map fun x => .ldg x.1 (rdS f.d) x.2 f.imm f.lo3
  | 0x06 => (rdSt f).map fun x => .stg x.1 x.2.1 x.2.2 f.imm
  | 0x07 => (rdLdv f).map fun x => .ldgv x.1 x.2 f.msk (f.imm.extractLsb' 0 14) f.lo3
  | 0x08 => (rdStv f).map fun x => .stgv x.1 x.2 f.msk (f.imm.extractLsb' 0 14)
  | 0x09 => (rdLdv f).map fun x => .ldx x.1 x.2 f.msk (f.imm.extractLsb' 0 14) f.lo3
  | 0x0A => (rdStv f).map fun x => .stx x.1 x.2 f.msk (f.imm.extractLsb' 0 14) f.lo3
  | 0x0B => (rdLd f).map fun x => .ldrm x.1 (rdS f.d) x.2 f.imm f.lo3
  | 0x0C => (rdSt f).map fun x => .strm x.1 x.2.1 x.2.2 f.imm f.lo3
  | 0x0D => do
    let x ← rdSt f
    let op ← rdAtom (f.imm.extractLsb' 14 4)
    some (.atom op x.1 (rdS f.d) x.2.1 x.2.2 (f.imm.extractLsb' 0 14) f.lo3)
  | 0x0E => do
    let x ← rdSt f
    let c ← rdSrc f.c
    some (.cas x.1 (rdS f.d) x.2.1 x.2.2 c f.lo3)
  | 0x0F => do
    let x ← rdSt f
    let op ← rdUpd (f.imm.extractLsb' 15 3)
    some (.upd op x.1 x.2.1 x.2.2 (f.imm.extractLsb' 0 15))
  | 0x10 => do
    let a ← rdSrc f.a
    let b ← rdSrc f.b
    some (.updf a b f.imm)
  | 0x11 => do
    let a ← rdSrc f.a
    some (.tlook (rdS f.d) a)
  | 0x12 => do
    let a ← rdSrc f.a
    let b ← rdSrc f.b
    some (.tset a b)
  | 0x13 => do
    let a ← rdSrc f.a
    some (.tclr a)
  | 0x14 => if f.b80 then some (.tinv none) else (rdSrc f.a).map fun a => .tinv (some a)
  | 0x15 => some (.wsq (rdS f.d))
  | _ => none

/-- V column (R252). -/
def readV (f : Fields) : Option Instr :=
  match f.opc.toNat with
  | 0x01 => do some (.vadd (← rdFm f) (← rdV3 f))
  | 0x02 => do some (.vsub (← rdFm f) (← rdV3 f))
  | 0x03 => do some (.vmul (← rdFm f) (← rdV3 f))
  | 0x04 => do some (.vfma (← rdTy f.ty) (← rdRnd f.lo3) (← rdV4 f))
  | 0x05 => do some (.vfms (← rdTy f.ty) (← rdRnd f.lo3) (← rdV4 f))
  | 0x06 => do some (.vfnma (← rdTy f.ty) (← rdRnd f.lo3) (← rdV4 f))
  | 0x07 => do some (.vmin (← rdTy f.ty) (← rdV3 f))
  | 0x08 => do some (.vminp (← rdTy f.ty) (← rdV3 f))
  | 0x09 => do some (.vmax (← rdTy f.ty) (← rdV3 f))
  | 0x0A => do some (.vmaxp (← rdTy f.ty) (← rdV3 f))
  | 0x0B => do some (.vabs (← rdTy f.ty) (← rdV2 f))
  | 0x0C => do some (.vneg (← rdTy f.ty) (← rdV2 f))
  | 0x0D => do some (.vcmp (← rdCond f.lo3) (← rdTy f.ty) (rdM f.d) (← rdV f.a) (← rdV f.b) f.msk)
  | 0x0E => do some (.vsel (← rdV f.d) (← rdV f.a) (← rdV f.b) (rdM f.c))
  | 0x0F => do some (.vand (← rdV3 f))
  | 0x10 => do some (.vor (← rdV3 f))
  | 0x11 => do some (.vxor (← rdV3 f))
  | 0x12 => (rdVsh f).map fun x => .vshl x.1 x.2.1 x.2.2.1 x.2.2.2.1 x.2.2.2.2
  | 0x13 => (rdVsh f).map fun x => .vshr x.1 x.2.1 x.2.2.1 x.2.2.2.1 x.2.2.2.2
  | 0x14 => (rdVsh f).map fun x => .vsar x.1 x.2.1 x.2.2.1 x.2.2.2.1 x.2.2.2.2
  | 0x15 => do some (.viadd (← rdTy f.ty) f.b82 (← rdV3 f))
  | 0x16 => do some (.visub (← rdTy f.ty) f.b82 (← rdV3 f))
  | 0x17 => do some (.vimul (← rdTy f.ty) f.b82 (← rdV3 f))
  | 0x18 => do some (.vimin (← rdTy f.ty) (← rdV3 f))
  | 0x19 => do some (.vimax (← rdTy f.ty) (← rdV3 f))
  | 0x1A => do some (.vcvt (← rdFm f) (← rdTy (f.imm.extractLsb' 0 4)) (← rdV2 f))
  | 0x1B => do some (.vpack f.b80 (← rdV3 f))
  | 0x1C => do some (.vunpack f.b80 f.b81 f.b82 (← rdV2 f))
  | 0x1D => do some (.vbcast (← rdTy f.ty) (← rdV f.d) (← rdSrc f.a) f.msk)
  | 0x1E => do
    let i ← if f.b81 then some (.imm (f.imm.extractLsb' 0 7)) else (rdSrc f.b).map .s
    some (.vext (← rdTy f.ty) (rdS f.d) (← rdV f.a) i)
  | 0x1F => do some (.vperm (← rdV3 f))
  | 0x20 => do
    let n ← if f.b80 then some (.imm (f.imm.extractLsb' 0 5)) else (rdSrc f.b).map .s
    some (.vrot (← rdV f.d) (← rdV f.a) n f.msk)
  | 0x21 => do some (.vredl (← rdTy f.ty) (← rdRed (f.imm.extractLsb' 0 2)) (← rdV2 f))
  | 0x22 => do some (.vscan (← rdTy f.ty) (← rdRed (f.imm.extractLsb' 0 2)) (← rdV2 f))
  | 0x23 => do some (.vdot2 (← rdRnd f.lo3) (← rdV4 f))
  | 0x24 => do some (.vclamp (← rdTy f.ty) (← rdV4 f))
  | 0x25 => do some (.vround (← rdTy f.ty) (← rdRnd f.lo3) (← rdV2 f))
  | 0x26 => do some (.vmov (← rdV2 f))
  | 0x27 => (rdMask3 f).map fun x => .mand x.1 x.2.1 x.2.2.1 x.2.2.2
  | 0x28 => (rdMask3 f).map fun x => .mor x.1 x.2.1 x.2.2.1 x.2.2.2
  | 0x29 => (rdMask3 f).map fun x => .mxor x.1 x.2.1 x.2.2.1 x.2.2.2
  | 0x2A => some (.mnot (rdM f.d) (rdM f.a))
  | 0x2B => do some (.vlane (← rdTy f.ty) (← rdV f.d) (← rdSrc f.a) f.msk)
  | 0x2C => do some (.vsqz (← rdV2 f))
  | 0x2D => do some (.vkeep (← rdTy f.ty) (← rdV f.d) (← rdV f.a))
  | _ => none

/-- F column (R270). -/
def readF (f : Fields) : Option Instr :=
  match f.opc.toNat with
  | 0x01 => do some (.frcp (← rdFm f) (← rdV2 f))
  | 0x02 => do some (.frsq (← rdFm f) (← rdV2 f))
  | 0x03 => do some (.fsqrt (← rdFm f) (← rdV2 f))
  | 0x04 => do some (.fdiv (← rdFm f) (← rdV3 f))
  | 0x05 => do some (.fexp2 (← rdFm f) (← rdV2 f))
  | 0x06 => do some (.flog2 (← rdFm f) (← rdV2 f))
  | 0x07 => do some (.fsin (← rdFm f) (← rdV2 f))
  | 0x08 => do some (.fcos (← rdFm f) (← rdV2 f))
  | 0x09 => do some (.ftanh (← rdFm f) (← rdV2 f))
  | 0x0A => do some (.fsig (← rdFm f) (← rdV2 f))
  | 0x0B => do some (.fsilu (← rdFm f) (← rdV2 f))
  | 0x0C => do some (.fgelu (← rdFm f) (← rdV2 f))
  | 0x0D => do some (.frng (← rdTy f.ty) (← rdV f.d) (← rdV f.a) (← rdSrc f.b) f.msk)
  | 0x0E => do some (.frngk (← rdSrc f.a) (← rdSrc f.b))
  | 0x0F => do some (.fbasis (← rdRnd f.lo3) f.fsat (← rdBasis (f.imm.extractLsb' 0 3)) (← rdV2 f))
  | 0x10 => do some (.fldexp (← rdFm f) (← rdV3 f))
  | _ => none

/-- M column (R358, R381). -/
def readM (f : Fields) : Option Instr :=
  match f.opc.toNat with
  | 0x01 => do some (.mwld (← rdTy f.ty) (rdBit (f.imm.extractLsb' 0 1)) (rdBit (f.imm.extractLsb' 1 1))
      (rdS f.d) (rdS f.a) (rdS f.b) f.lo3)
  | 0x02 => do some (.mfmt (← rdTy f.ty))
  | 0x03 => some (.mm (rdMm f))
  | 0x04 => some (.mmg (rdMm f))
  | 0x05 => some (.mmrot f.z (rdArr f))
  | 0x06 => do some (.macrd (← rdTy f.ty) (← rdRnd (f.imm.extractLsb' 13 3)) (rdBit (f.imm.extractLsb' 16 1)) (rdArr f))
  | 0x07 => do some (.macwr (← rdTy f.ty) (rdArr f))
  | 0x08 => some (.macclr (rdM f.d) f.rows)
  | 0x09 => some .mbank
  | 0x0A => some (.mmstat f.b83 (rdS f.d) f.lo3)
  | 0x0B => some (.knot (rdS f.a) (rdS f.b))
  | 0x0C => do some (.splld (← rdTy f.ty) (rdBit (f.imm.extractLsb' 0 1)) (rdBit (f.imm.extractLsb' 1 1))
      (rdS f.d) (rdS f.a) (rdS f.b) f.lo3)
  | 0x0D => some (if f.b83 then .splevG (rdMm f) else .splev (rdMm f))
  | 0x0E => some (.splbd f.z (rdArr f))
  | 0x0F => some (.splgr (rdArr f))
  | 0x10 => some (.splgrd (rdS f.a) (rdS f.b) f.lo3 f.rows)
  | 0x11 => some .splgclr
  | 0x12 => some (.grefine f.lo3)
  | 0x13 => some (.splst f.b83 (rdS f.d) (rdS f.a) f.lo3)
  | _ => none

/-- X column (R403). -/
def readX (f : Fields) : Option Instr :=
  match f.opc.toNat with
  | 0x01 => do some (.send (f.var.extractLsb' 3 2) f.lo3 (← rdSrc f.a) (← rdSrc f.b))
  | 0x02 => do some (.recv (rdS f.d) (← rdSrc f.a) (← rdSrc f.b))
  | 0x03 => do some (.tsend f.b80 (← rdSrc f.a) (← rdSrc f.b) f.imm)
  | 0x04 => do some (.postrv f.b84 (rdTokOpt (f.var.extractLsb' 0 4)) (rdS f.d) (← rdSrc f.a) (← rdSrc f.b))
  | 0x05 => do some (.rvcan (← rdSrc f.a))
  | 0x06 => do some (.probe f.b80 (rdS f.d) (← rdSrc f.a))
  | 0x07 => do some (.ovfpop (rdS f.d) (← rdSrc f.b))
  | 0x08 => do some (.reduce (← rdTree (f.imm.extractLsb' 4 3)) (← rdTreeW f))
  | 0x09 => do some (.allred (← rdTree (f.imm.extractLsb' 4 3)) (← rdTreeW f))
  | 0x0A => do some (.bcast (← rdTreeW f))
  | 0x0B => do some (.treecfg (f.imm.extractLsb' 0 4) (← rdSrc f.a))
  | 0x0C => some (.xbar (rdTokOpt (f.var.extractLsb' 0 4)) (f.imm.extractLsb' 0 4))
  | 0x0D => do some (.clsord (f.imm.extractLsb' 0 3) (← rdOrder (f.imm.extractLsb' 3 3)))
  | 0x0E => do some (.xstat f.b80 (rdS f.d) (← rdXsel (f.imm.extractLsb' 0 3)) (← rdSrc f.a))
  | _ => none

/-- C column (R280, R340). -/
def readC (f : Fields) : Option Instr :=
  match f.opc.toNat with
  | 0x01 => do some (.cset (← rdCp (f.imm.extractLsb' 0 4)) (← rdSrc f.a))
  | 0x02 => do some (.cget (rdS f.d) (← rdCp (f.imm.extractLsb' 0 4)))
  | 0x03 => some (.claunch f.b85 (rdS f.d) f.lo3 (f.var.extractLsb' 3 2))
  | 0x04 => do some (.cstat (rdS f.d) (← rdSrc f.a))
  | 0x05 => do some (.ccancel (← rdSrc f.a))
  | 0x06 => some (.qfence (f.imm.extractLsb' 0 4))
  | 0x07 => do some (.scfg (rdM f.d) (← rdSrc f.a))
  | 0x08 => some (.sbind (rdM f.d))
  | 0x09 => some (.sunbind (rdM f.d))
  | 0x0A => some (.sdrain (rdM f.d) (rdM f.a))
  | 0x0B => some (.sstat (rdS f.d) (rdM f.a))
  | 0x0C => some (.sdrainOut (rdM f.d) (rdM f.a))
  | _ => none

/-- Reads the operands of a column and opcode pair; unassigned pairs are refused (R116). -/
def readInstr (f : Fields) : Option Instr :=
  match f.col.toNat with
  | 0 => readI f
  | 1 => readL f
  | 2 => readV f
  | 3 => readF f
  | 4 => readM f
  | 5 => readX f
  | 6 => readC f
  | _ => readK f

/-! ### Writing a word -/

/-- The fields of an instruction, from the encoding tables; an event has none. -/
def fieldsOf : Instr → Option Fields
  | .br det off => some (fXfer 0x01 det 0 0 off)
  | .call det d off => some (fXfer 0x02 det (sF d) 0 off)
  | .ret det a => some (fXfer 0x03 det 0 (sF a) 0)
  | .jmpi det a off => some (fXfer 0x04 det 0 (sF a) off)
  | .loop det d off => some (fXfer 0x05 det (sF d) 0 off)
  | .nop => some ⟨0x06, 7, 0, 0, 0, 0, 0⟩
  | .trap code => some ⟨0x07, 7, 0, 0, 0, 0, code⟩
  | .sleep mask => some ⟨0x08, 7, 0, 0, 0, 0, cat (0 : BitVec 8) mask⟩
  | .phase sc pk sy stp => some ⟨0x09, 7, cat (scopeF sc) (cat (pkF pk) (bitF sy) : BitVec 3), 0, 0, 0,
      cat (0 : BitVec 17) (bitF stp)⟩
  | .bar sc none => some ⟨0x0A, 7, cat (scopeF sc) (0 : BitVec 3), 0, 0, 0, 0⟩
  | .bar sc (some k) => some ⟨0x0A, 7, cat (scopeF sc) (1 : BitVec 3), kF k, 0, 0, 0⟩
  | .rfork q d a b off => some ⟨0x0B, 7, var80 q, sF d, sF a, sF b, off⟩
  | .join a => some ⟨0x0C, 7, 0, 0, sF a, 0, 0⟩
  | .spawn ch k a b => some ⟨0x0D, 7, var80 ch, kF k, sF a, sF b, 0⟩
  | .trigger => some ⟨0x0E, 7, 0, 0, 0, 0, 0⟩
  | .stepdl a b x => some ⟨0x0F, 7, 0, 0, srcF a, srcF b, x⟩
  | .waitt none a => some ⟨0x10, 7, 0, 0, srcF a, 0, 0⟩
  | .waitt (some k) a => some ⟨0x10, 7, 1, kF k, srcF a, 0, 0⟩
  | .follow d => some ⟨0x11, 7, 0, 0, 0, 0, cat (0 : BitVec 15) (dirF d)⟩
  | .detach => some ⟨0x12, 7, 0, 0, 0, 0, 0⟩
  | .rep a (.imm c) l => some ⟨0x13, 7, 0, 0, sF a, 0, cat (0 : BitVec 2) (cat l c : BitVec 16)⟩
  | .rep a (.reg b) l => some ⟨0x13, 7, 1, 0, sF a, sF b, cat (0 : BitVec 2) (cat l (0 : BitVec 12) : BitVec 16)⟩
  | .uiret => some ⟨0x14, 7, 0, 0, 0, 0, 0⟩
  | .uien mask => some ⟨0x15, 7, 0, 0, 0, 0, cat (0 : BitVec 14) mask⟩
  | .csrr d n => some ⟨0x16, 7, 0, sF d, 0, 0, csrF n⟩
  | .csrw d a n => some ⟨0x17, 7, 0, sF d, srcF a, 0, csrF n⟩
  | .csrs d a n => some ⟨0x18, 7, 0, sF d, srcF a, 0, csrF n⟩
  | .csrc d a n => some ⟨0x19, 7, 0, sF d, srcF a, 0, csrF n⟩
  | .fence sc => some ⟨0x1A, 7, cat (scopeF sc) (0 : BitVec 3), 0, 0, 0, 0⟩
  | .tlbinv sc d none k => some ⟨0x1B, 7, cat (scopeF sc) k, sF d, 0, 0, 1⟩
  | .tlbinv sc d (some (a, b)) k => some ⟨0x1B, 7, cat (scopeF sc) k, sF d, srcF a, srcF b, 0⟩
  | .halt => some ⟨0x1C, 7, 0, 0, 0, 0, 0⟩
  | .add sat o => some (fBin 0x01 sat o)
  | .sub sat o => some (fBin 0x02 sat o)
  | .mul sat o => some (fBin 0x03 sat o)
  | .mulh o => some (fBin 0x04 false o)
  | .mulhn o => some (fBin 0x05 false o)
  | .div o => some (fBin 0x06 false o)
  | .divn o => some (fBin 0x07 false o)
  | .rem o => some (fBin 0x08 false o)
  | .remn o => some (fBin 0x09 false o)
  | .and o => some (fBin 0x0A false o)
  | .or o => some (fBin 0x0B false o)
  | .xor o => some (fBin 0x0C false o)
  | .andn o => some (fBin 0x0D false o)
  | .shl o => some (fBin 0x0E false o)
  | .shr o => some (fBin 0x0F false o)
  | .sar o => some (fBin 0x10 false o)
  | .rol o => some (fBin 0x11 false o)
  | .clz o => some (fUn 0x12 false o)
  | .ctz o => some (fUn 0x13 false o)
  | .popc o => some (fUn 0x14 false o)
  | .min o => some (fBin 0x15 false o)
  | .max o => some (fBin 0x16 false o)
  | .minn o => some (fBin 0x17 false o)
  | .maxn o => some (fBin 0x18 false o)
  | .abs sat o => some (fUn 0x19 sat o)
  | .neg sat o => some (fUn 0x1A sat o)
  | .sel t d a b c => some ⟨0x1B, 0, varT t 0, sF d, srcF a, srcF b, immC (pF c)⟩
  | .cmp cc t d a (.reg b) => some ⟨0x1C, 0, varT t (condF cc), pF d, srcF a, srcF b, 0⟩
  | .cmp cc t d a (.imm v) => some ⟨0x1C, 0, varT t (condF cc), pF d, srcF a, 0, cat (1 : BitVec 1) v⟩
  | .ldi hi t d v => some ⟨0x1D, 0, varT t (three false false hi), sF d, v.extractLsb' 28 10, v.extractLsb' 18 10,
      v.extractLsb' 0 18⟩
  | .mov o => some (fUn 0x1E false o)
  | .sxt d a n => some ⟨0x1F, 0, 0, sF d, srcF a, 0, imm6 n⟩
  | .zxt d a n => some ⟨0x20, 0, 0, sF d, srcF a, 0, imm6 n⟩
  | .bfx sg d a pos len => some ⟨0x21, 0, var80 sg, sF d, srcF a, 0, cat (0 : BitVec 6) (cat len pos : BitVec 12)⟩
  | .bfi d a b c => some ⟨0x22, 0, 0, sF d, srcF a, srcF b, immC (srcF c)⟩
  | .lea d a b sh disp => some ⟨0x23, 0, 0, sF d, srcF a, srcF b, cat disp sh⟩
  | .madd sat t d a b c => some ⟨0x24, 0, varT t (three sat false false), sF d, srcF a, srcF b, immC (srcF c)⟩
  | .pand ia ib d a b => some ⟨0x25, 0, cat (0 : BitVec 4) (three false ia ib), pF d, pF a, pF b, 0⟩
  | .por ia ib d a b => some ⟨0x26, 0, cat (0 : BitVec 4) (three false ia ib), pF d, pF a, pF b, 0⟩
  | .pxor ia ib d a b => some ⟨0x27, 0, cat (0 : BitVec 4) (three false ia ib), pF d, pF a, pF b, 0⟩
  | .pnot d a => some ⟨0x28, 0, 0, pF d, pF a, 0, 0⟩
  | .setx ad d (.reg a) => some ⟨0x29, 0, cat (0 : BitVec 4) (three false false ad), xF d, srcF a, 0, 0⟩
  | .setx ad d (.imm v) => some ⟨0x29, 0, cat (0 : BitVec 4) (three false true ad), xF d, 0, 0, v⟩
  | .ld t d a off => some ⟨0x01, 1, varT t 0, sF d, srcF a, 0, off⟩
  | .st t a b off => some ⟨0x02, 1, varT t 0, 0, srcF a, srcF b, off⟩
  | .ldv d a m off => some ⟨0x03, 1, 0, vF d, srcF a, 0, immM m off⟩
  | .stv a b m off => some ⟨0x04, 1, 0, 0, srcF a, vF b, immM m off⟩
  | .ldg t d a off k => some ⟨0x05, 1, varT t k, sF d, srcF a, 0, off⟩
  | .stg t a b off => some ⟨0x06, 1, varT t 0, 0, srcF a, srcF b, off⟩
  | .ldgv d a m off k => some ⟨0x07, 1, varK k, vF d, srcF a, 0, immM m off⟩
  | .stgv a b m off => some ⟨0x08, 1, 0, 0, srcF a, vF b, immM m off⟩
  | .ldx d a m off k => some ⟨0x09, 1, varK k, vF d, srcF a, 0, immM m off⟩
  | .stx a b m off k => some ⟨0x0A, 1, varK k, 0, srcF a, vF b, immM m off⟩
  | .ldrm t d a off k => some ⟨0x0B, 1, varT t k, sF d, srcF a, 0, off⟩
  | .strm t a b off k => some ⟨0x0C, 1, varT t k, 0, srcF a, srcF b, off⟩
  | .atom op t d a b off k => some ⟨0x0D, 1, varT t k, sF d, srcF a, srcF b, cat (atomF op) off⟩
  | .cas t d a b c k => some ⟨0x0E, 1, varT t k, sF d, srcF a, srcF b, immC (srcF c)⟩
  | .upd op t a b off => some ⟨0x0F, 1, varT t 0, 0, srcF a, srcF b, cat (updF op) off⟩
  | .updf a b off => some ⟨0x10, 1, 0, 0, srcF a, srcF b, off⟩
  | .tlook d a => some ⟨0x11, 1, 0, sF d, srcF a, 0, 0⟩
  | .tset a b => some ⟨0x12, 1, 0, 0, srcF a, srcF b, 0⟩
  | .tclr a => some ⟨0x13, 1, 0, 0, srcF a, 0, 0⟩
  | .tinv (some a) => some ⟨0x14, 1, 0, 0, srcF a, 0, 0⟩
  | .tinv none => some ⟨0x14, 1, 1, 0, 0, 0, 0⟩
  | .wsq d => some ⟨0x15, 1, 0, sF d, 0, 0, 0⟩
  | .vadd f o => some (fF3 2 0x01 f o)
  | .vsub f o => some (fF3 2 0x02 f o)
  | .vmul f o => some (fF3 2 0x03 f o)
  | .vfma t r o => some (fV4 0x04 (varTR t r) o)
  | .vfms t r o => some (fV4 0x05 (varTR t r) o)
  | .vfnma t r o => some (fV4 0x06 (varTR t r) o)
  | .vmin t o => some (fV3 2 0x07 (varT t 0) 0 o)
  | .vminp t o => some (fV3 2 0x08 (varT t 0) 0 o)
  | .vmax t o => some (fV3 2 0x09 (varT t 0) 0 o)
  | .vmaxp t o => some (fV3 2 0x0A (varT t 0) 0 o)
  | .vabs t o => some (fV2 2 0x0B (varT t 0) 0 o)
  | .vneg t o => some (fV2 2 0x0C (varT t 0) 0 o)
  | .vcmp cc t d a b m => some ⟨0x0D, 2, varT t (condF cc), mF d, vF a, vF b, immM m 0⟩
  | .vsel d a b c => some ⟨0x0E, 2, 0, vF d, vF a, vF b, immC (mF c)⟩
  | .vand o => some (fV3 2 0x0F 0 0 o)
  | .vor o => some (fV3 2 0x10 0 0 o)
  | .vxor o => some (fV3 2 0x11 0 0 o)
  | .vshl t d a b m => some (fVsh 0x12 t d a b m)
  | .vshr t d a b m => some (fVsh 0x13 t d a b m)
  | .vsar t d a b m => some (fVsh 0x14 t d a b m)
  | .viadd t sat o => some (fV3 2 0x15 (varT t (three sat false false)) 0 o)
  | .visub t sat o => some (fV3 2 0x16 (varT t (three sat false false)) 0 o)
  | .vimul t sat o => some (fV3 2 0x17 (varT t (three sat false false)) 0 o)
  | .vimin t o => some (fV3 2 0x18 (varT t 0) 0 o)
  | .vimax t o => some (fV3 2 0x19 (varT t 0) 0 o)
  | .vcvt f sty o => some (fV2 2 0x1A (varTR f.t f.r) (cat (bitF f.sat) (cat (0 : BitVec 9) (tyF sty) : BitVec 13)) o)
  | .vpack w o => some (fV3 2 0x1B (var80 w) 0 o)
  | .vunpack w hi sg o => some (fV2 2 0x1C (cat (0 : BitVec 4) (three sg hi w)) 0 o)
  | .vbcast t d a m => some ⟨0x1D, 2, varT t 0, vF d, srcF a, 0, immM m 0⟩
  | .vext t d a (.s b) => some ⟨0x1E, 2, varT t 0, sF d, vF a, srcF b, 0⟩
  | .vext t d a (.imm n) => some ⟨0x1E, 2, varT t (three false true false), sF d, vF a, 0, cat (0 : BitVec 11) n⟩
  | .vperm o => some (fV3 2 0x1F 0 0 o)
  | .vrot d a (.s b) m => some ⟨0x20, 2, 0, vF d, vF a, srcF b, immM m 0⟩
  | .vrot d a (.imm n) m => some ⟨0x20, 2, 1, vF d, vF a, 0, immM m (cat (0 : BitVec 9) n)⟩
  | .vredl t op o => some (fV2 2 0x21 (varT t 0) (cat (0 : BitVec 12) (redF op)) o)
  | .vscan t op o => some (fV2 2 0x22 (varT t 0) (cat (0 : BitVec 12) (redF op)) o)
  | .vdot2 r o => some (fV4 0x23 (varTR .bf16 r) o)
  | .vclamp t o => some (fV4 0x24 (varT t 0) o)
  | .vround t r o => some (fV2 2 0x25 (varTR t r) 0 o)
  | .vmov o => some (fV2 2 0x26 0 0 o)
  | .mand z d a b => some (fMask 0x27 z d a b)
  | .mor z d a b => some (fMask 0x28 z d a b)
  | .mxor z d a b => some (fMask 0x29 z d a b)
  | .mnot d a => some ⟨0x2A, 2, 0, mF d, mF a, 0, 0⟩
  | .vlane t d a m => some ⟨0x2B, 2, varT t 0, vF d, srcF a, 0, immM m 0⟩
  | .vsqz o => some (fV2 2 0x2C 0 0 o)
  | .vkeep t d a => some ⟨0x2D, 2, varT t 0, vF d, vF a, 0, 0⟩
  | .frcp f o => some (fF2 3 0x01 f o)
  | .frsq f o => some (fF2 3 0x02 f o)
  | .fsqrt f o => some (fF2 3 0x03 f o)
  | .fdiv f o => some (fF3 3 0x04 f o)
  | .fexp2 f o => some (fF2 3 0x05 f o)
  | .flog2 f o => some (fF2 3 0x06 f o)
  | .fsin f o => some (fF2 3 0x07 f o)
  | .fcos f o => some (fF2 3 0x08 f o)
  | .ftanh f o => some (fF2 3 0x09 f o)
  | .fsig f o => some (fF2 3 0x0A f o)
  | .fsilu f o => some (fF2 3 0x0B f o)
  | .fgelu f o => some (fF2 3 0x0C f o)
  | .frng t d a b m => some ⟨0x0D, 3, varT t 0, vF d, vF a, srcF b, immM m 0⟩
  | .frngk a b => some ⟨0x0E, 3, 0, 0, srcF a, srcF b, 0⟩
  | .fbasis r sat k o => some (fV2 3 0x0F (varTR .f32 r)
      (cat (bitF sat) (cat (0 : BitVec 10) (basisF k) : BitVec 13)) o)
  | .fldexp f o => some (fF3 3 0x10 f o)
  | .mwld t bk cm s a b k => some ⟨0x01, 4, varT t k, sF s, sF a, sF b,
      cat (0 : BitVec 16) (cat (bitF cm) (bitF bk) : BitVec 2)⟩
  | .mfmt t => some ⟨0x02, 4, varT t 0, 0, 0, 0, 0⟩
  | .mm o => some (fMm 0x03 false o)
  | .mmg o => some (fMm 0x04 false o)
  | .mmrot z o => some (fArr 0x05 z o)
  | .macrd t r sat o => some ⟨0x06, 4, varT t o.k, aF o.d, sF o.a, sF o.b,
      cat (0 : BitVec 1) (cat (bitF sat) (cat (rndF r) (cat (0 : BitVec 1) (cat o.rows.r0 o.rows.n1 : BitVec 12)
        : BitVec 13) : BitVec 16) : BitVec 17)⟩
  | .macwr t o => some ⟨0x07, 4, varT t o.k, aF o.d, sF o.a, sF o.b, rowsF false o.rows⟩
  | .macclr d r => some ⟨0x08, 4, 0, aF d, 0, 0, rowsF false r⟩
  | .mbank => some ⟨0x09, 4, 0, 0, 0, 0, 0⟩
  | .mmstat c d k => some ⟨0x0A, 4, var83K c k, sF d, 0, 0, 0⟩
  | .knot a b => some ⟨0x0B, 4, 0, 0, sF a, sF b, 0⟩
  | .splld t bk wd s a b k => some ⟨0x0C, 4, varT t k, sF s, sF a, sF b,
      cat (0 : BitVec 16) (cat (bitF wd) (bitF bk) : BitVec 2)⟩
  | .splev o => some (fMm 0x0D false o)
  | .splevG o => some (fMm 0x0D true o)
  | .splbd z o => some (fArr 0x0E z o)
  | .splgr o => some (fArr 0x0F false o)
  | .splgrd a b k r => some ⟨0x10, 4, varK k, 0, sF a, sF b, rowsF false r⟩
  | .splgclr => some ⟨0x11, 4, 0, 0, 0, 0, 0⟩
  | .grefine k => some ⟨0x12, 4, varK k, 0, 0, 0, 0⟩
  | .splst c d a k => some ⟨0x13, 4, var83K c k, sF d, sF a, 0, 0⟩
  | .send c k a b => some ⟨0x01, 5, cat (0 : BitVec 2) (cat c k : BitVec 5), 0, srcF a, srcF b, 0⟩
  | .recv d a b => some ⟨0x02, 5, 0, sF d, srcF a, srcF b, 0⟩
  | .tsend c a b l => some ⟨0x03, 5, var80 c, 0, srcF a, srcF b, l⟩
  | .postrv nt k d a b => some ⟨0x04, 5, cat (0 : BitVec 2) (cat (bitF nt) (tokOptF k) : BitVec 5), sF d, srcF a, srcF b, 0⟩
  | .rvcan a => some ⟨0x05, 5, 0, 0, srcF a, 0, 0⟩
  | .probe tg d a => some ⟨0x06, 5, var80 tg, sF d, srcF a, 0, 0⟩
  | .ovfpop d b => some ⟨0x07, 5, 0, sF d, 0, srcF b, 0⟩
  | .reduce op w => some (fTree 0x08 (treeF op) w)
  | .allred op w => some (fTree 0x09 (treeF op) w)
  | .bcast w => some (fTree 0x0A 0 w)
  | .treecfg slot a => some ⟨0x0B, 5, 0, 0, srcF a, 0, cat (0 : BitVec 14) slot⟩
  | .xbar k slot => some ⟨0x0C, 5, cat (0 : BitVec 3) (tokOptF k), 0, 0, 0, cat (0 : BitVec 14) slot⟩
  | .clsord c o => some ⟨0x0D, 5, 0, 0, 0, 0, cat (0 : BitVec 12) (cat (orderF o) c : BitVec 6)⟩
  | .xstat rel d xs a => some ⟨0x0E, 5, var80 rel, sF d, srcF a, 0, cat (0 : BitVec 15) (xselF xs)⟩
  | .cset r a => some ⟨0x01, 6, 0, 0, srcF a, 0, cat (0 : BitVec 14) (cpF r)⟩
  | .cget d r => some ⟨0x02, 6, 0, sF d, 0, 0, cat (0 : BitVec 14) (cpF r)⟩
  | .claunch nt d k q => some ⟨0x03, 6, cat (0 : BitVec 1) (cat (bitF nt) (cat q k : BitVec 5) : BitVec 6), sF d, 0, 0, 0⟩
  | .cstat d a => some ⟨0x04, 6, 0, sF d, srcF a, 0, 0⟩
  | .ccancel a => some ⟨0x05, 6, 0, 0, srcF a, 0, 0⟩
  | .qfence m => some ⟨0x06, 6, 0, 0, 0, 0, cat (0 : BitVec 14) m⟩
  | .scfg v a => some ⟨0x07, 6, 0, strmF v, srcF a, 0, 0⟩
  | .sbind v => some ⟨0x08, 6, 0, strmF v, 0, 0, 0⟩
  | .sunbind v => some ⟨0x09, 6, 0, strmF v, 0, 0, 0⟩
  | .sdrain k v => some ⟨0x0A, 6, 0, kF k, strmF v, 0, 0⟩
  | .sdrainOut k v => some ⟨0x0C, 6, 0, kF k, strmF v, 0, 0⟩
  | .sstat d v => some ⟨0x0B, 6, 0, sF d, strmF v, 0, 0⟩
  | _ => none

/-! ### Whole words -/

/-- The fields of a word (R106). -/
def unpackFields (w : IWord) : Fields :=
  ⟨w.extractLsb' 90 6, w.extractLsb' 87 3, w.extractLsb' 80 7, w.extractLsb' 70 10, w.extractLsb' 60 10,
   w.extractLsb' 50 10, w.extractLsb' 32 18⟩

/-- Guard and hints, bits 31:2, with the reserved bits 1:0 (R106). -/
def hintsF (x : Inst) : BitVec 32 :=
  cat (bitF x.gneg) (cat x.gpred (cat x.dly (cat x.wmask (cat x.stamp (cat (bitF x.eog) (0 : BitVec 2)
    : BitVec 3) : BitVec 11) : BitVec 19) : BitVec 27) : BitVec 31)

/-- Puts fields above hints (R106). -/
def packWord (f : Fields) (h : BitVec 32) : IWord :=
  cat f.opc (cat f.col (cat f.var (cat f.d (cat f.a (cat f.b (cat f.imm h : BitVec 50) : BitVec 60)
    : BitVec 70) : BitVec 80) : BitVec 87) : BitVec 90)

/-- The word of an instruction; an event has none. -/
def encode (x : Inst) : Option IWord := (fieldsOf x.instr).map fun f => packWord f (hintsF x)

/-- The instruction that the fields encode, where they encode one (R117). -/
def decodeFields (f : Fields) : Option Instr :=
  match readInstr f with
  | some i => if i.wf && fieldsOf i == some f then some i else none
  | none => none

/-- Decodes a word: none is an illegal encoding (R117). -/
def decode (w : IWord) : Option Inst :=
  if w.extractLsb' 0 2 == 0 then
    match decodeFields (unpackFields w) with
    | some i => some ⟨rdBit (w.extractLsb' 31 1), w.extractLsb' 27 4, w.extractLsb' 19 8, w.extractLsb' 11 8,
        w.extractLsb' 3 8, rdBit (w.extractLsb' 2 1), i⟩
    | none => none
  else none

/-- A word whose guard is ?!p0 and whose delay count is 0: the decoder discards it when it is legal (R114). -/
def Inst.isPadding (x : Inst) : Bool := x.gneg && x.gpred == 0 && x.dly == 0

/-! ### Bytes (R6) -/

/-- The word held in twelve bytes, lowest address first. -/
def wordOfBytes (bs : List Byte) : IWord :=
  BitVec.ofNat 96 (bs.foldr (fun b acc => b.toNat + 256 * acc) 0)

/-- The twelve bytes of a word, lowest address first. -/
def bytesOfWord (w : IWord) : List Byte :=
  (List.range 12).map fun i => w.extractLsb' (8 * i) 8

/-- What the decoder reads from a word numbered as the opcode table numbers it: bit 0 is the least significant bit of
the first parcel. Bits above `nbits` are zero. -/
def decodeTableWord (nbits w : Nat) : Option Instr :=
  (decode (wordOfBytes (bytesOfWord (BitVec.ofNat 96 (w % 2 ^ nbits))))).map (·.instr)

end Sys2Proof
end

