-- ==== Sys2Proof/Machine/State.lean ====
section
/-! DEFINITION. The state of one N16 as plain data: the strands and their context banks, the tiles, the memories, the
device and its agents, and the machine right after reset. Every tick held inside a context is a tick of the context's
own clock, which stands still while the context is frozen (R446, R448); every tick of the agenda is a device tick. -/

namespace Sys2Proof.Machine

/-- A sparse table: keys strictly rising, and no entry equal to what an unlisted key reads as. -/
abbrev Tbl (α : Type) := List (Nat × α)

/-- Bytes by address, in the same canonical form; an unlisted byte reads 0 (DESIGN CHOICE, unsafe, assumptions 1 and 2). -/
abbrev Mem := List Host.Cell

/-- Reasons to stop: none is raised by any meaning of this model, since every effect that the spec describes,
a trap included, is a next state. The type is kept for the interface. Raised by nobody: safe. -/
inductive Fault where
  /-- Never raised. Safe. -/
  | none
deriving DecidableEq, Repr

/-- Reasons to refuse. -/
inductive Refusal where
  /-- Raised by a refused arm of exec: no meaning has been written for the instruction. Safe. -/
  | notModelled (mnemonic : String)
deriving DecidableEq, Repr

/-! ### The strand -/

/-- A token register (R134): unbound, pending, or complete since a tick. -/
inductive Tok where
  | unbound
  | pending
  | done (x : Nat)
deriving DecidableEq, Repr

/-- What is known of the word before a word in dynamic program order (R133): it has not issued yet, there is none in
the phase, or it issued on a tick in a column with or without end of group. -/
inductive Prev where
  | pending
  | none
  | at (t col : Nat) (eog : Bool)
deriving DecidableEq, Repr

/-- A word in a column queue (R132). A reissue of rep has `j` above 0 and a fixed tick (R168); a forwarded word has the
tick on which it arrives, to which the follower's lag adds (R129), and its leader's outcome (R123). -/
structure QEnt where
  pc : Nat := 0
  bits : IWord := 0
  x : Inst
  col : Nat := 0
  seq : Nat := 0
  /-- its place in program order: its own number, and for a reissue that of the last captured word (R175) -/
  rank : Nat := 0
  avail : Nat := 0
  notBefore : Nat := 0
  fixed : Option Nat := none
  prev : Prev := .none
  j : Nat := 0
  strides : BitVec 32 := 0
  /-- the rep that reissues the word -/
  rid : Nat := 0
  fwd : Bool := false
  outcome : Option Nat := none
  /-- a forwarded word: reissues that its leader's rep makes of it, 0 when it is not captured -/
  cnt : Nat := 0
deriving DecidableEq, Repr

/-- What the decoder does (R118, R119): passes words, waits for a transfer, has met an illegal word, or is off. -/
inductive FStop where
  | run
  | wait
  | illegal (pc : Nat) (bits : IWord)
  | off
deriving DecidableEq, Repr

/-- What a strand waits in; it issues nothing meanwhile (R146, R149, R152, R157, R199, R365, R412, R422, R436, R471). -/
inductive Block where
  | none
  | sleep (mask : BitVec 10) (pc : Nat)
  | boundary
  | bar
  | fence (sc : Scope) (pushed : Bool)
  | waitt (target : Nat) (pc : Nat)
  | recv (h : Nat) (d : BitVec 6) (pc : Nat) (dev : Bool)
  | xbar (slot : Nat)
  | mmg
  /-- in join of a cell, or in halt: waits for its tokens (0), its publication (1), its decrement's result (2), its
  leader's outcome (3) -/
  | leave (cell : Option Nat) (stage : Nat) (pub : Nat) (pc : Nat)
deriving DecidableEq, Repr

/-- An arrival at a boundary or a barrier (R148, R150, R152). -/
structure Arr where
  sc : Scope
  kind : PKind
  step : Bool
  /-- device tick of the arrival -/
  at_ : Nat
  /-- the publication the release waits for, 0 until it begins -/
  pub : Nat
  /-- it is complete -/
  pubDone : Bool
  /-- device tick on which it was complete -/
  pubAt : Nat
  tok : Option Nat
  pc : Nat
  /-- its word (R450, R452) -/
  ent : Option QEnt := none
  /-- the release has been scheduled -/
  rel : Bool := false
  /-- the disagreement has been trapped (R150) -/
  bad : Bool := false
deriving DecidableEq, Repr

/-- The open capture and the reissues of rep (R166 to R168). -/
structure Rep where
  rid : Nat
  /-- its place in program order -/
  seq : Nat := 0
  strides : BitVec 32
  count : Nat
  /-- issue tick of rep, and words still to capture -/
  at_ : Nat
  left : Nat
  /-- captured words with their issue ticks, in program order -/
  caps : List (QEnt × Nat)
  /-- the reissue last begun, and the stall that later ones carry -/
  j : Nat
  slip : Nat
deriving DecidableEq, Repr

/-- One write-set entry: byte mask and bytes of a line (R299). -/
structure WsEnt where
  line : Nat
  bytes : List (Nat × Byte)
deriving DecidableEq, Repr

/-- One update line: operation, type, and values of the valid elements by element number (R302). -/
structure UpdEnt where
  line : Nat
  op : UpdOp
  t : Ty
  elems : List (Nat × Nat)
deriving DecidableEq, Repr

/-- A tag-table entry (R293). -/
structure TagEnt where
  v : Bool
  d : Bool
  blk : Nat
deriving DecidableEq, Repr

/-- States of a stream slot (R278). -/
inductive SSt where
  | unconf | ready | bound | done
deriving DecidableEq, Repr

/-- A stream slot: its record (R279), position, buffered or unlanded vectors and timing of R284. -/
structure Slot where
  st : SSt := .unconf
  base : Nat := 0
  cnt0 : Nat := 0
  str0 : Int := 0
  cnt1 : Nat := 0
  str1 : Int := 0
  cnt2 : Nat := 0
  str2 : Int := 0
  rnd : Nat := 0
  rfmt : Ty := .f32
  mfmt : Ty := .f32
  dir : Bool := false
  pos : Nat := 0
  /-- vectors whose fetch has started, or whose write has started -/
  moved : Nat := 0
  /-- input vectors fetched and ready, oldest first: contents, poisoned, flags their conversion raised, by lane -/
  buf : List (Vec × Bool × List (Nat × BitVec 5)) := []
  /-- input vectors in fetch, oldest first -/
  fly : List (Vec × Bool × List (Nat × BitVec 5)) := []
  /-- tick of the last fetch or write start -/
  lastF : Nat := 0
  /-- ticks of the last eight pops, newest first -/
  pops : List Nat := []
deriving DecidableEq, Repr

/-- A vector that a word has pushed to an output stream and that has not landed (R282 to R285). The stream is the one that
the word met at its issue, whatever becomes of the slot. -/
structure Push where
  slot : Nat
  /-- the slot as the push found it, the vector's number, and the ticks of its transfer -/
  cfg : Slot
  idx : Nat
  q : Nat
  /-- the token of the word, while its result has not arrived -/
  tok : Option Nat := none
  /-- the tick on which the vector was pushed, its contents, its lanes -/
  data : Option (Nat × Vec × Lane) := none
  /-- the tick on which its write starts -/
  w : Option Nat := none
  /-- the slot is still configured as the push found it -/
  cur : Bool := true
  /-- tokens that sdrain.out bound to its landing -/
  toks : List Nat := []
deriving DecidableEq, Repr

/-- The copy control registers (R326). -/
structure CpRegs where
  src : Word := 0
  dst : Word := 0
  len : Word := 0
  str0 : Word := 0
  str1 : Word := 0
  str2 : Word := 0
  str3 : Word := 0
  str4 : Word := 0
  str5 : Word := 0
  geo : Word := 0
  fmt : Word := 0
deriving DecidableEq, Repr

/-- Bytes that a copy writes, the last one first: the scratchpad's tile, or none for a physical address; address, byte,
poisoned. -/
abbrev Moved := List (Option Nat × Nat × Byte × Bool)

/-- Elements of a transfer that have been read and are on their way: the first of them, what they write, and the virtual addresses
there. -/
structure Flown where
  elem : Nat
  m : Moved
  vas : List Nat := []
deriving DecidableEq, Repr

/-- A queued transfer: its snapshot, id, token and progress (R324, R327, R333). -/
structure Xfer where
  cp : CpRegs
  id : Nat
  tok : Nat
  nt : Bool
  region : Nat
  /-- started -/
  act : Bool := false
  /-- next element to move, elements read, and elements written so far -/
  next : Nat := 0
  read : Nat := 0
  landed : Nat := 0
  /-- runs of elements on their way to be read or written, or whose report has still to arrive -/
  out : Nat := 0
  /-- what has been read and not yet written -/
  fly : List Flown := []
  /-- code and cause of a fault that is raised at `next`, once every earlier element is written (R339) -/
  pend : Option (Nat × Nat) := none
  /-- a run to the host or a peer is on its way: nothing is moved until it is answered (R339) -/
  solo : Bool := false
  /-- the first device tick on which it may start after a cancelled one (R342) -/
  gate : Nat := 0
  /-- complete or cancelled: the device tick from which the next transfer may start -/
  fin : Option Nat := none
  cancelled : Bool := false
  /-- element at which it faulted -/
  fault : Option Nat := none
  /-- its place in launch order -/
  seq : Nat := 0
  /-- the launching strand's dimension orders of classes 5 and 1 at claunch (R394, R398) -/
  order : Nat := 0
  rorder : Nat := 0
deriving DecidableEq, Repr

/-- Handle states of the receive table (R410). -/
inductive HSt where
  | free | posted | landing | complete | cancelled
deriving DecidableEq, Repr

/-- A receive-table entry (R410, R411, R416). -/
structure Handle where
  st : HSt := .free
  crit : Word := 0
  buf : Word := 0
  nt : Bool := false
  tok : Option Nat := none
  /-- a hidden handle of recv (R412), and that word's issue number -/
  hidden : Bool := false
  no : Nat := 0
  order : Nat := 0
  -- the message that it took: length, source device and tile, tag
  len : Nat := 0
  src : Nat := 0
  tag : Nat := 0
deriving DecidableEq, Repr

/-- Configuration of a tree slot (R417), and the number of operations that the member has issued on it (R418). -/
structure TreeCfg where
  kids : Nat := 0
  up : Nat := 7
  n : Nat := 0
deriving DecidableEq, Repr

/-- The k-th operation of a tree slot at one tile (R418 to R422, R426): what the member issued, what its children and its
child devices have sent, and a result that came before the member's own word. -/
structure TreeOpSt where
  k : Nat
  own : Bool := false
  kind : TreeKind := .xbar
  v : Vec := 0
  nf : Bool := false
  tok : Option Nat := none
  /-- destinations: a vector register, and a predicate by its number in `Wr` -/
  d : Nat := 0
  e : Nat := 0
  pc : Nat := 0
  /-- by port, and by child device: kind, payload, nf -/
  kidsIn : List (Nat × TreeKind × Vec × Bool) := []
  peersIn : List (Nat × TreeKind × Vec × Bool) := []
  res : Option (TreeKind × Vec × Bool) := none
  /-- it has been combined with the children; with the child devices -/
  sent : Bool := false
  dev : Option (Vec × Bool) := none
deriving DecidableEq, Repr

/-- A weight plane (R345, R374). In LIN mode `cols` holds the 64 weights of each column: 0 a weight that compression
drops, 1 a weight latched as +0, and n + 2 the pattern n. In SPL mode `cells` holds, by input and output, the cell's
coefficient slots, then its base weight, then its base kind. -/
structure Plane where
  /-- 0xF EMPTY; else the type code -/
  ty : Nat := 0xF
  spl : Bool := false
  /-- compressed, or wide in SPL mode (R375) -/
  cmp : Bool := false
  cols : List (List Nat) := []
  cells : List (List (List Nat)) := []
  scl : List Nat := []
deriving DecidableEq, Repr

/-- An array or spline operation (R346, R354, R383), from its issue to its last landing. -/
structure ArrOp where
  i : Instr
  id : Nat
  load : Bool := false
  /-- issue tick -/
  t : Nat := 0
  pc : Nat := 0
  /-- the word as it was queued -/
  ent : Option QEnt := none
  tok : Option Nat := none
  /-- later issues of the same captured word may follow (R373) -/
  more : Bool := false
  tokAt : Option Nat := none
  -- the operand (R351, R352)
  base : Nat := 0
  pitch : Nat := 0
  rot : Nat := 0
  strm : Option Nat := none
  aty : Ty := .a8
  /-- address of scales or of counters -/
  sc : Nat := 0
  d : Nat := 0
  rows : Nat := 0
  r0 : Nat := 0
  z : Bool := false
  /-- entry interval in half ticks -/
  rp2 : Nat := 2
  -- progress
  inLane : Bool := true
  /-- release of the gang's barrier (R364) -/
  rel : Option Nat := none
  start : Option Nat := none
  /-- tick on which its lane is free -/
  free : Option Nat := none
  /-- its plane has taken effect, or its planes have been exchanged -/
  taken : Bool := false
  plane : Plane := {}
  kn : List Nat := []
  rowsIn : Tbl (List Nat) := []
  landed : List Nat := []
  /-- the mmrot has trapped with EXCHANGE_LATE; it has trapped at a row of its own, and exchanges nothing (R367) -/
  bad : Bool := false
  noEx : Bool := false
  /-- what an mmrot has received: row i of A as i, weight row k as 64 + k, scales and plane state as 128 (R366) -/
  got : List Nat := []
  /-- device tick before which an operation that trapped at its start is not tried again (R382, R451) -/
  notBefore : Nat := 0
deriving DecidableEq, Repr

/-- The array slice of a context (R344 to R373, R382 to R393). -/
structure Arr64 where
  front : Plane := {}
  back : Plane := {}
  aty : Ty := .a8
  /-- operations queued, started or landing, in issue order -/
  ops : List ArrOp := []
  loadFree : Nat := 0
  compFree : Nat := 0
  /-- tick on which the last result row of each accumulator lands, and the last scatter -/
  accLast : Tbl Nat := []
  gradLast : Nat := 0
  nextId : Nat := 0
  /-- PC of the captured word that bound a token, while its capture and its reissues last (R373) -/
  tokPc : Tbl Nat := []
  nf : BitVec 8 := 0
  bsc : Bool := false
  bmd : Bool := false
  /-- gradient store by slot, then base weights from 16384 (R389) -/
  grad : Tbl Lane := []
  gnf : Bool := false
  /-- counter pairs: low count, then high count * 2^16 (R386) -/
  pairs : Tbl Nat := []
  /-- the mmg that a gang mismatch trapped (R365) -/
  again : Option QEnt := none
deriving DecidableEq, Repr

/-- The user-level interrupt state of a strand (R462, R463, R473). -/
structure UI where
  en : BitVec 4 := 0
  dl : Option Nat := none
  yld : Bool := false
  tmq : List Nat := []
  arq : List Nat := []
  lost : Bool := false
  v : Bool := false
  entry : Nat := 0
  /-- a handler is running -/
  inh : Bool := false
  /-- the interrupted program counter -/
  ret : Nat := 0
  /-- delivery has begun: the decoder is stopped, and the code and payload wait for the queues to drain -/
  going : Option (Nat × Nat) := none
  hs : Tbl Word := []
  hp : Tbl Bool := []
deriving DecidableEq, Repr

/-- The spawn batch of a strand (R158 to R161). -/
structure Batch where
  n : Nat := 0
  base : Nat := 0
  launched : Nat := 0
  arr : Nat := 0
  chain : Bool := false
  tok : Nat := 0
  active : Bool := false
  /-- window entries that are complete -/
  doneI : List Nat := []
  /-- children by index: region number -/
  kids : Tbl Nat := []
  /-- deliveries that no sleep has seen yet -/
  news : Nat := 0
  nunw : Nat := 0
  fcause : Nat := 0
  first : Nat := 0xFFFFFFFF
deriving DecidableEq, Repr

/-- Follow state of a strand (R122 to R131, R164). -/
structure Follow where
  armed : Option Dir := none
  /-- device tick on which the armed follow issued, and its word -/
  armAt : Option (Nat × QEnt) := none
  cur : Option Dir := none
  /-- hops to the highest of its leaders that passed its last boundary with it (R149) -/
  hops : Nat := 0
  /-- stall carried to later forwarded words (R129) -/
  lag : Nat := 0
  /-- a join that has issued: its word, its cell, and whether the strand continues, once that is known (R125) -/
  join : Option (QEnt × Option Nat × Option Bool) := none
  /-- outcomes of the leader's joins that the follower's own have not met, oldest first: whether it continued (R125,
  R128) -/
  joined : List Bool := []
deriving DecidableEq, Repr

/-- One context bank of a tile: the strand it runs and everything that belongs to its context (R33, R170). -/
structure Ctx where
  /-- partition that holds the bank -/
  part : Option Nat := none
  region : Nat := 0
  /-- a strand runs -/
  live : Bool := false
  /-- a strand has been placed and has not started -/
  starting : Bool := false
  /-- role: file in the image cache and role index -/
  role : Nat := 0
  words : Nat := 0
  /-- base of the role's code in the instruction store (R65) -/
  cbase : Nat := 0
  vlo : Nat := 0
  vhi : Nat := 255
  spad : Nat := 0
  kind : PKind := .elastic
  /-- phase start, on the context's own clock -/
  ph0 : Nat := 0
  /-- device tick less context tick, while not frozen -/
  off : Nat := 0
  /-- context tick at which the context is frozen -/
  frozen : Option Nat := none
  /-- the strand trapped precisely and issues nothing more (R446) -/
  stopped : Bool := false
  /-- stamps are not compared up to the next boundary (R450) -/
  loose : Bool := false
  -- registers (R170)
  s : Tbl Word := []
  p : Tbl Bool := []
  m : Tbl Lane := []
  x : Tbl (BitVec 16) := []
  v : Tbl Vec := []
  a : Tbl Lane := []
  k : Tbl Tok := []
  /-- results in flight: landing tick, issue number of the word, write (R173, R175) -/
  pend : List (Nat × Nat × Wr) := []
  /-- words taken up so far: the number of the one in progress; and the number of the word that bound each token -/
  issueNo : Nat := 0
  kNo : Tbl Nat := []
  -- fetch and issue
  pc : Nat := 0
  fpc : Nat := 0
  fetchAt : Nat := 0
  fdone : Nat := 0
  fstop : FStop := .off
  q : List QEnt := []
  base : Tbl Nat := []
  /-- by column: the tick after the one on which a word last left the column's queue (R132) -/
  freed : Tbl Nat := []
  seq : Nat := 0
  prev : Prev := .none
  /-- rep sequences, oldest first; only the last may be open -/
  reps : List Rep := []
  repSeq : Nat := 0
  fol : Follow := {}
  block : Block := .none
  /-- words of a lower sequence number still issue while the block stands (R148, R152, R436) -/
  blockSeq : Nat := 0
  arr : Option Arr := none
  bars : List Arr := []
  ui : UI := {}
  batch : Batch := {}
  trig : Bool := false
  /-- trigger: the publication still to complete before its count is subtracted (R163) -/
  trigPend : Option Nat := none
  /-- the number of a trigger that has not published yet -/
  trigSeq : Option Nat := none
  stops : List StopRec := []
  /-- words that met a poisoned stream vector, and issue again on resumption (R311, R451) -/
  again : List QEnt := []
  /-- split waits: token and target (R200) -/
  waits : List (Nat × Nat) := []
  -- control registers
  fpst : Word := 0
  tmfrac : Nat := 0
  /-- ticks of the phase timer that runs: the record's, with the role's margin (R457) -/
  timer : Nat := 0
  rngkey : Word := 0
  lastWr : Bool := false
  lastSlice : Nat := 0
  lastSeq : Nat := 0
  -- buffers
  ws : List WsEnt := []
  upd : List UpdEnt := []
  /-- lines not accepted yet, by publication number, 0 for pushes; and the last publication (R300, R435) -/
  pubs : Tbl Nat := []
  pubSeq : Nat := 0
  /-- home and remote accesses not performed yet (R436) -/
  accOut : Nat := 0
  /-- the walk of the stalled word: virtual address, and the trap code and detail once it has failed (R303, R305) -/
  walk : Option (Nat × Option (Nat × Nat)) := none
  tags : Tbl TagEnt := []
  strm : Tbl Slot := []
  /-- vectors pushed to output streams and not landed, oldest first -/
  pushes : List Push := []
  cp : CpRegs := {}
  cq : Tbl (List Xfer) := []
  /-- claunches so far, the order of R335 -/
  xferCtr : Nat := 0
  /-- the queue whose transfer took the last slot (R325) -/
  cpTurn : Nat := 3
  /-- qfences in force: mask, and the claunches before it (R343) -/
  qfence : List (Nat × Nat) := []
  arr64 : Arr64 := {}
  recvT : Tbl Handle := []
  ovf : List Msg := []
  trees : Tbl TreeCfg := []
  /-- operations of each slot, oldest first -/
  treeOps : Tbl (List TreeOpSt) := []
  orders : Tbl Nat := []
  postSeq : Nat := 0
  -- scratchpad: the context's share on the tile, by offset (R28, R291)
  sp : Mem := []
  /-- poisoned 8-byte granules, by number (R311) -/
  spPoison : List Nat := []
  /-- writes that land: first tick on which they are seen, source rank, bytes, granules they poison (R292, R311) -/
  spw : List (Nat × Nat × List (Nat × Byte) × List Nat) := []
deriving DecidableEq, Repr

/-- A TLB or walk-cache entry: partition, page base, page size, physical base, writes permitted (R304). -/
structure TlbEnt where
  part : Nat
  va : Nat
  size : Nat
  pa : Nat
  w : Bool
deriving DecidableEq, Repr

/-- One tile. -/
structure Core where
  fg : Ctx := {}
  bg : Ctx := {}
  /-- instruction store, by byte (R65) -/
  istore : Mem := []
  /-- resident roles: base and size in bytes, by file and role (R65) -/
  roles : Tbl (Nat × Nat) := []
  held : List Msg := []
  ecctSp : Nat := 0
  ecctCore : Nat := 0
  flt : Tbl Word := []
  /-- micro-TLB entries, oldest first (R304) -/
  tlb : List TlbEnt := []
  /-- launch counter (R334) -/
  launchCtr : Nat := 0
  /-- the tile holds a spilled context: partition and bank (R460) -/
  spill : Option Ctx := none
deriving DecidableEq, Repr

/-! ### The device -/

/-- A page-table root of a partition (R303). -/
structure PtRoot where
  en : Bool := false
  root : Nat := 0
deriving DecidableEq, Repr

/-- What is shared by the 16 tiles of a gang (R364, R376). -/
structure Gang where
  lo : Lane := 0
  inv : Lane := 0
  g : BitVec 8 := 0
  mode : BitVec 8 := 0
  /-- device tick of the last knot set's landing, and x of the tile that it came from (R384) -/
  knAt : Nat × Nat := (0, 0)
  tlb : List TlbEnt := []
  /-- mmg arrivals: partition, tile, bits 95:32 of the word, front-plane format, tick (R364, R365) -/
  arrs : List (Nat × Nat × Nat × Nat × Nat) := []
  /-- partition and device tick of the last mismatch: an arrival of that tick traps as well (R365) -/
  badAt : Option (Nat × Nat) := none
deriving DecidableEq, Repr

/-- The word in progress. Not a register: the model's own, so that a meaning knows its word (R119, R133). -/
structure Cur where
  ent : Option QEnt := none
  /-- the word stalled and has not issued -/
  stalled : Bool := false
  /-- the word trapped precisely and has not issued -/
  trapped : Bool := false
  /-- next program counter of a transfer (R123, R125) -/
  outcome : Option Nat := none
deriving DecidableEq, Repr

/-- A phase record of a TIMETABLE section (R59). -/
structure PhRec where
  ticks : Nat
  kind : Nat
  first : Nat
  last : Nat
deriving DecidableEq, Repr

/-- A placement entry (R57). -/
structure Place where
  role : Nat
  mode : Nat
  align : Nat
  box : Nat
deriving DecidableEq, Repr

/-- A role of a verified file (R52 to R60). -/
structure Role where
  role : Nat
  code : List IWord := []
  entry : Nat := 0
  kind : Nat := 2
  data : List (Nat × List Byte) := []
  bss : List (Nat × Nat) := []
  knots : Option (Nat × Nat × Nat × Nat) := none
  streams : List (List Byte) := []
  margin : Nat := 0
  recs : List PhRec := []
  /-- boot tree: extents and one byte per tile -/
  boot : Option (Nat × Nat × Nat × List Nat) := none
deriving DecidableEq, Repr

/-- A file in the verified image cache (R83): where it was read, its length, signature bytes and SHA-384, its parts, and
the launch that named it last. Files are numbered in insertion order. -/
structure Image where
  pa : Nat := 0
  len : Nat := 0
  sig : List Byte := []
  hash : BitVec 384 := 0
  keyid : Nat := 0
  secver : Nat := 0
  nroles : Nat := 0
  roles : List Role := []
  places : List Place := []
  used : Nat := 0
deriving DecidableEq, Repr

/-- Region states (R16). -/
inductive RSt where
  | queued | running | retired | faulted | refused | halted
deriving DecidableEq, Repr

/-- The effective values of a region (R14, R24, R25). -/
structure Eff where
  ox : Nat := 0
  oy : Nat := 0
  oz : Nat := 0
  ex : Nat := 1
  ey : Nat := 1
  ez : Nat := 1
  image : Nat := 0
  role : Nat := 0
  tiles : Nat := 1
  strt : Bool := false
  spad : Nat := 0
  vault : Nat := 0
  hbm : Nat := 0
  power : Nat := 0
  vbase : Nat := 0
  vcount : Nat := 32
  lvl : Bool := false
  balok : Bool := false
  prio : Nat := 0
  fdom : Nat := 0
  fdring : Nat := 0
  fdsz : Nat := 0
  dlmode : Nat := 0
  dlmiss : Bool := false
  dlguard : Nat := 0
  dlper : Nat := 0
deriving DecidableEq, Repr

/-- The pace entry of a region (R205 to R212). -/
structure PaceEnt where
  /-- declared deadline of the step in progress -/
  dl : Option Nat := none
  budget : Option Nat := none
  prevDl : Option Nat := none
  /-- deadline of the step when it declares none (R206) -/
  per : Option Nat := none
  /-- strand and device tick + 1 of the last declaration (R205) -/
  declBy : Nat := 0
  declAt : Nat := 0
  /-- device tick from which the elapsed count runs, and the count while the context does not run -/
  t0 : Nat := 0
  held : Option Nat := none
  need : Option Nat := none
  overrun : Bool := false
  risked : Bool := false
  missed : Bool := false
deriving DecidableEq, Repr

/-- A region (R13 to R38). -/
structure Region where
  part : Nat := 0
  /-- address of the RCB as it was named, and its physical address -/
  rcb : Nat := 0
  rcbPa : Nat := 0
  ovr : Nat := 0
  depth : Nat := 0
  parent : Nat := 0
  eff : Eff := {}
  st : RSt := .queued
  cause : Nat := 0
  risk : Bool := false
  misses : Nat := 0
  kids : Nat := 0
  step : Nat := 0
  /-- the step of the last stepdl that took effect (R213) -/
  paceStep : Nat := 0
  tstart : Nat := 0
  tend : Nat := 0
  acc : Nat := 0
  /-- spawning strand's tile, batch index, chained predecessor -/
  by_ : Option (Nat × Nat) := none
  pred : Option Nat := none
  cookie : Word := 0
  lqn : Option Nat := none
  started : Bool := false
  loading : Nat := 0
  loaded : List Nat := []
  /-- a chunk of its image came with a link error: it is HALTED with its context (R64) -/
  chunkErr : Bool := false
  /-- trigger cell handle, and whether the region has fired (R162) -/
  cell : Option Nat := none
  fired : Bool := false
  pace : Option PaceEnt := none
  overb : Bool := false
  /-- the last ten 1 ms estimates of its power, newest first (R217) -/
  watts : List Nat := []
  retiring : Nat := 0
  carveV : Nat := 0
  carveH : Nat := 0
  carveP : Nat := 0
  fileId : Nat := 0
deriving DecidableEq, Repr

/-- How a partition's context stands (R33, R446, R458, R461). -/
inductive PSt where
  | active | halting | halted | swapping | swapped
deriving DecidableEq, Repr

/-- A join cell or trigger cell (R156, R162, R423). -/
structure Cell where
  region : Nat
  count : Nat
  trig : Bool
deriving DecidableEq, Repr

/-- A partition (R32, R33). -/
structure Part where
  root : Nat := 0
  priv : Bool := false
  st : PSt := .active
  /-- device tick less context tick of the partition's contexts, while not frozen -/
  off : Nat := 0
  /-- halted while in the shadow banks or swapped out (R459) -/
  out : Bool := false
  haltAt : Nat := 0
  /-- the trap of the halt: tick, tile, kind, code (R447) -/
  cause : Option (Nat × Nat × Nat × Nat) := none
  /-- traps found while frozen, raised on the resumption tick (R447) -/
  held : List StopRec := []
  /-- events of the context's agenda while it is frozen, due in so many ticks -/
  frozen : List (Nat × Ev) := []
  save : List StopRec := []
  /-- records, made while no tile held the context, that its halt still has to report (R453) -/
  loose : List StopRec := []
  /-- what a swap in progress brings in, and the tick on which it began (R458) -/
  swapAt : Nat := 0
  incoming : Option Nat := none
  /-- generation that a recovery group is restored from (R484) -/
  gen : Option Nat := none
  vaultUsed : Nat := 0
  hbmUsed : Nat := 0
  /-- the join cells of a context that is swapped out (R423) -/
  cells : Tbl Cell := []
  ckpt : Option Nat := none
  /-- the RCB by which its recovery group names it, where a restore has launched another (R484, R485) -/
  name : Option Nat := none
deriving DecidableEq, Repr

/-- A dispenser record (R84 to R88, R461). -/
inductive RKind where
  | start | task (g : Start) | resume
deriving DecidableEq, Repr

/-- A record in the dispenser, in order of arrival. A start record that has been placed stays until its region starts, and a
resume record until its context goes on (R16, R84). -/
structure DRec where
  kind : RKind
  region : Nat
  part : Nat
  lvl : Nat
  seq : Nat
  placed : Bool := false
deriving DecidableEq, Repr

/-- A thermal cell's sensor register (R222); temperatures in 0.25 degree units. -/
structure TsReg where
  tmax : Int := 0
  temp : Int := 0
  fail : Bool := false
  trip : Bool := false
  cap : Bool := false
  hot : Bool := false
  valid : Bool := false
  /-- the clocks of the cell's cores, arrays and engines are stopped (R221) -/
  stop : Bool := false
  /-- the management controller has masked the sensor, which had failed (R221) -/
  masked : Bool := false
deriving DecidableEq, Repr

/-- A core rail (R214 to R217): ctl.railn, the offset of each P-state, the P-states whose offset a canary window holds, and
the last two samples. -/
structure Rail where
  iamp : Nat := 0
  vmv : Nat := 0
  ilim : Nat := 0
  uecnt : Nat := 0
  frz : Bool := false
  gthr : Nat := 0
  off : Tbl Nat := []
  held : List Nat := []
  hist : List Nat := []
deriving DecidableEq, Repr

/-- Geyser and its caps (R203 to R223). -/
structure Gov where
  pdem : Nat := 7
  pdef : Nat := 2
  fwok : Bool := false
  gate : Bool := false
  /-- P4 cap of a missed heartbeat (R223) -/
  fwCap : Bool := false
  /-- overcurrent cap, package cap and DRAM cap (R216) -/
  ocap : Option Nat := none
  pkg : Option Nat := none
  dcap : Bool := false
  /-- some limit is exceeded; the combined current of the last limiter sample -/
  overrun : Bool := false
  amps : Nat := 0
  /-- 1 ms samples, in a row, below 90 % of every limit -/
  calm : Nat := 0
  /-- 1 ms samples since the package cap last moved -/
  pkgMs : Nat := 0
  /-- the P-state that the last 16 evaluations asked for, newest first (R203) -/
  asked : List Nat := []
  /-- a ramp toward a P-state, and a change that waits for its end (R202, R203) -/
  ramp : Option Nat := none
  want : Option Nat := none
  /-- while the rails ramp: the lowest and the highest voltage, in mV, that each may pass through (R202, R215) -/
  band : Option (List (Nat × Nat)) := none
  /-- ballast strands that the gate's shutting told to yield: tile and partition (R219) -/
  yielding : List (Nat × Nat) := []
  -- ctl.heat and ctl.heatst (R217)
  ygrace : Nat := 50
  cband : Nat := 30
  gband : Nat := 5
  setpt : Nat := 0
  plim : Nat := 6000
  wmiss : Nat := 0
  wavg : Nat := 0
  pwr : Nat := 0
  /-- the last ten 1 ms samples, newest first; samples since the firmware started; the window's sum and count -/
  samples : List Nat := []
  fwSamples : Nat := 0
  winSum : Nat := 0
  winN : Nat := 0
  rails : List Rail := [{ ilim := 140 }, { ilim := 64 }, { ilim := 48 }, { ilim := 40 }]
deriving DecidableEq, Repr

/-- Error counters of ctl.eccd (R312). -/
structure EccD where
  dce : Nat := 0
  due : Nat := 0
  sce : Nat := 0
  sue : Nat := 0
deriving DecidableEq, Repr

/-- A key entry of the configuration blob (R82): keyid, secfloor and the public point's 96 bytes. -/
structure CfgKey where
  keyid : Nat
  secfloor : Nat
  point : List Byte
deriving DecidableEq, Repr

/-- The active configuration blob (R82), with its bytes for the measurement of R81. -/
structure Cfg where
  cfgver : Nat := 0
  sysdev : Nat := 1
  devno : Nat := 0
  fwfloor : Nat := 0
  ptpdom : Nat := 0
  dbg : Bool := false
  balen : Bool := false
  ideReq : Bool := false
  keys : List CfgKey := []
  bytes : List Byte := []
  owner : List Byte := []
deriving DecidableEq, Repr

/-- A queue pair (R69). -/
structure QPair where
  base : Nat := 0
  poll : Nat := 0x3F
  lsize : Nat := 0
  next : Nat := 1
  run : Bool := false
  crpt : Bool := false
  ovr : Bool := false
  en : Bool := false
  cbase : Nat := 0
  ien : Bool := false
  vec : Nat := 0
  clsize : Nat := 0
  tail : Nat := 0
  head : Nat := 0
  /-- partitions of the pair whose completion is owed (R74) -/
  owed : Nat := 0
  /-- an entry has been found ready and waits for room, or a poll is on its way -/
  ready : Bool := false
deriving DecidableEq, Repr

/-- An answer on PMBus (R516): a value, the invalid-data status, the unsupported status, or no answer. -/
inductive PmAns where
  | silent | value (v : Int) | invalid | unsupported
deriving DecidableEq, Repr

/-- What PMBus reads of a rail: the 1 ms samples (R516); the current of the last two, newest first. -/
structure PmRail where
  mv : Nat := 0
  temp : Int := 0
  amps : List Nat := []
deriving DecidableEq, Repr

/-- Power-up (R510): which rails are on, in order 0 VDDM, 1 VDDV, 2 VDDS, 3 VDDF, 4 VDDIO, 5 VDDQ, 6 VSTBY. -/
structure Power where
  vinMv : Nat := 48000
  pwren : Bool := true
  on : List Nat := [6, 5, 4, 3, 2, 1, 0]
  pgood : Bool := true
  thermtrip : Bool := false
  /-- recovery mode (R80) -/
  recovery : Bool := false
  booted : Bool := true
  /-- rail that failed to reach its band -/
  badRail : Option Nat := none
  /-- the step of power-up that has begun last: 5 once PGOOD is asserted -/
  stage : Nat := 5
  /-- device tick on which that step began, and the one on which each of its rails is in band, if that comes (R510) -/
  stepAt : Nat := 0
  bandAt : Option Nat := some 0
  /-- device tick from which every coolant reading has had the interlock's flow (R512) -/
  flowFrom : Option Nat := none
  -- PMBus (R516)
  page : Nat := 0
  faults : Tbl Nat := []
  alert : Bool := false
  /-- the last answer; the values of the last sample, by page, after power-up at the voltages of R201 and R509; and the sampled
  input voltage -/
  pmAns : PmAns := .silent
  pmRails : Tbl PmRail := [(0, { mv := 470 }), (1, { mv := 470 }), (2, { mv := 540 }), (3, { mv := 510 }), (4, { mv := 900 }),
    (5, { mv := 1050 }), (6, { mv := 3300 })]
  pmVin : Nat := 48000
  -- ctl.cool (R513)
  tin : Int := 0
  tout : Int := 0
  flow : Nat := 0
  dp : Nat := 0
  coolHot : Bool := false
  coolLow : Bool := false
  ilk : Bool := false
  coolV : Bool := false
deriving DecidableEq, Repr

/-- A firmware bank of the flash (R80): measurement, security version, and whether its signature verifies. -/
structure FwBank where
  measure : BitVec 384 := 0
  secver : Nat := 0
  good : Bool := true
deriving DecidableEq, Repr

/-- What the host link, the trust engine and the management controller hold (R66 to R82, R94, R290, R337, R425). -/
structure Dev where
  cfg : Cfg := {}
  /-- what the replay-protected flash holds: its write counter, the counters, and the hash of the owner key (R79, R82) -/
  flashCtr : Nat := 0
  cfgCtr : Nat := 0
  fwFloor : Nat := 0
  ownerHash : BitVec 384 := Config.ownerHash
  banks : Tbl FwBank := []
  /-- the firmware that runs: the management controller's and Geyser's (R80) -/
  mfw : FwBank := {}
  gfw : FwBank := {}
  qps : Tbl QPair := []
  pdelay : Nat := 100000
  /-- the IDE streams in the secure state, 0 link IDE and 1 to 4 selective; and the host addresses, first and last, that
  each selective stream covers (R66, R68) -/
  ide : List Nat := []
  ideCover : Tbl (List (Nat × Nat)) := []
  ideKeys : Tbl (BitVec 256) := []
  /-- files read into the image cache so far, launches so far, and the next free byte of the management controller's page
  tables (R83, R307) -/
  imgSeq : Nat := 0
  launches : Nat := 0
  ptFree : Nat := 0x1FFF0000000
  /-- MSI-X messages sent, newest first, and the last DOE answer -/
  msix : List Nat := []
  doe : List Byte := []
  /-- what the last host read through BAR2, and through BAR0, returned; nothing where it was not answered (R69, R80,
  R290) -/
  bar2 : List Byte := []
  bar0 : Option Word := none
  b2ma : Tbl Word := []
  sg : Tbl Word := []
  pwin : Tbl Word := []
  ptree : Tbl Word := []
  fdoms : List Nat := [0]
  /-- records written in each fault domain, and notices sent to the management controller, newest first (R453) -/
  domSeq : Tbl Nat := []
  notices : List Nat := []
  groups : List (List (Nat × Nat)) := []
  /-- shootdown counter and ctl.tlbseq (R470, R473) -/
  shoot : Nat := 0
  tlbseq : Nat := 0
  -- ctl.tmstat (R198)
  lock : Bool := false
  off : Int := 0
  -- the exchange in progress (R197): the port, the origin timestamp of the sync, its arrival, and the delay request's sending
  ptpPort : Nat := 0
  ptpT1 : Int := 0
  ptpT2 : Int := 0
  ptpT3 : Int := 0
  /-- 1588 messages sent, newest first: port and timestamp -/
  ptpSent : List (Nat × Int) := []
  /-- Zheost ports that are down (R424) -/
  portsDown : List Nat := []
  /-- packets sent to peers, newest first: destination device and bytes; and answers to what peers asked of this device's
  memory (R424, R444) -/
  sent : List (Nat × Msg) := []
  sentReps : List (Nat × HomeRep) := []
  /-- failed routers whose tiles the management controller has still to harvest (R480) -/
  failed : List Nat := []
  /-- harvested at manufacture (R3) -/
  harvested : Nat := 0
  power : Power := {}
deriving DecidableEq, Repr

/-- A quad (R100 to R102): ACTIVE 0, RETAIN 1 or OFF 2; turning its switches on, or off, with the stages that are on; and the
time, in units of tm, from which it has been idle. -/
structure Quad where
  st : Nat := 2
  waking : Bool := false
  sinking : Bool := false
  stage : Nat := 0
  idleFrom : Option Nat := none
deriving DecidableEq, Repr

/-- One set of a slice: the line in each of 16 ways, and the 15 bits of its replacement tree (R296). -/
structure SliceSet where
  ways : Tbl Nat := []
  plru : BitVec 15 := 0
deriving DecidableEq, Repr

/-- A DRAM sensor register (R309): reading in 0.25 degree units, failed, refresh state, valid. -/
structure DtReg where
  temp : Int := 0
  fail : Bool := false
  st : Nat := 0
  valid : Bool := false
deriving DecidableEq, Repr

/-- A timed packet on the links (R402, R406): class 3 or 2, device tick of injection, source tile, its hops in order, its flits,
and the tick on which the last of them lands. -/
structure Flight where
  c3 : Bool
  inj : Nat
  src : Nat
  hops : List (Nat × Dir)
  n : Nat
  land : Nat
deriving DecidableEq, Repr

/-- The whole machine. -/
structure State where
  /-- device tick count (R9) -/
  tick : Nat := 0
  /-- events to come, by device tick -/
  agenda : List (Nat × Ev) := []
  /-- tile whose word executes -/
  me : Nat := 0
  cur : Cur := {}
  /-- count of the free values taken so far: the model's own; 0 at reset is a DESIGN CHOICE on which no
  statement rests (assumptions 8, 12, 13) -/
  fresh : Nat := 0
  cores : Tbl Core := []
  gangs : Tbl Gang := []
  /-- vault and HBM bytes by physical address (R289) -/
  mem : Mem := []
  /-- poisoned lines (R311) -/
  poison : List Nat := []
  /-- bytes of host and peer memory as this device last wrote them (assumption 12) -/
  outside : Tbl Byte := []
  /-- host pages of 4 KiB whose translations the device holds, newest first (R66) -/
  atc : List Nat := []
  seqs : Tbl Nat := []
  /-- timed packets that links carry, or carried while one of those was on its way (R402, R406) -/
  flights : List Flight := []
  /-- slice tags by slice * 1024 + set (R296) -/
  slices : Tbl SliceSet := []
  /-- requests that wait for a missing line, in order of arrival (R296, R308) -/
  missQ : List HomeReq := []
  /-- DRAM sensor registers (R308, R309) -/
  dts : Tbl DtReg := []
  /-- harvest and bond maps (R94) -/
  hv : Tbl Word := []
  bg : Tbl Word := []
  ptroots : Tbl PtRoot := []
  wcache : List TlbEnt := []
  parts : Tbl Part := []
  regions : Tbl Region := []
  images : Tbl Image := []
  nextRegion : Nat := 1
  recs : List DRec := []
  recSeq : Nat := 0
  cells : Tbl Cell := []
  quads : Tbl Quad := []
  /-- quads whose wake waits for its turn, in order of request (R102) -/
  wakeQ : List Nat := []
  /-- ctl.pgate (R103) -/
  pgWaves : Nat := 16
  pgIdle : Nat := 50
  pgEn : Bool := true
  /-- thermal cells flagged HOT (R86, R221) -/
  hotCells : List Nat := []
  /-- thermal sensors ctl.ts (R222), and by cell the events that wait while its clocks are stopped, due in so many ticks
  (R221) -/
  ts : Tbl TsReg := []
  stopEvs : Tbl (List (Nat × Ev)) := []
  gov : Gov := {}
  dv : Dev := {}
  eccd : EccD := {}
  /-- tm.now, in units of 1/504,000,000 ns (R196) -/
  tm : Nat := 0
  slew : Int := 0
  pnow : Nat := 7
deriving DecidableEq, Repr

/-- The machine right after reset: power-up is complete and no partition is live (DESIGN CHOICE, unsafe,
assumptions 1 to 6; the registers of R69, R95, R103, R170, R213 and R217 hold the values that the spec gives). -/
def State.reset : State := { agenda := [(600, .paceEvaluation)] }

end Sys2Proof.Machine
end

