-- ==== Sys2Proof/Machine/Tbl.lean ====
section
/-! DEFINITION. Sparse tables and byte memories in canonical form: keys strictly rising, and no entry equal to what an
unlisted key reads as. -/

namespace Sys2Proof.Machine

/-- Reads a key. -/
def Tbl.get {α : Type} (dflt : α) : Tbl α → Nat → α
  | [], _ => dflt
  | (k, v) :: t, n => if n < k then dflt else if n = k then v else Tbl.get dflt t n

/-- Writes a key; writing the default removes the entry. -/
def Tbl.set {α : Type} [DecidableEq α] (dflt : α) (t : Tbl α) (n : Nat) (x : α) : Tbl α :=
  match t with
  | [] => if x = dflt then [] else [(n, x)]
  | (k, v) :: r =>
    if n < k then (if x = dflt then (k, v) :: r else (n, x) :: (k, v) :: r)
    else if n = k then (if x = dflt then r else (n, x) :: r)
    else (k, v) :: Tbl.set dflt r n x

/-- Whether a key is listed. -/
def Tbl.has {α : Type} : Tbl α → Nat → Bool
  | [], _ => false
  | (k, _) :: t, n => if n < k then false else if n = k then true else Tbl.has t n

/-- Reads a listed key. -/
def Tbl.find {α : Type} : Tbl α → Nat → Option α
  | [], _ => none
  | (k, v) :: t, n => if n < k then none else if n = k then some v else Tbl.find t n

/-- Lists a key, whatever the value. -/
def Tbl.put {α : Type} (t : Tbl α) (n : Nat) (x : α) : Tbl α :=
  match t with
  | [] => [(n, x)]
  | (k, v) :: r => if n < k then (n, x) :: (k, v) :: r else if n = k then (n, x) :: r else (k, v) :: Tbl.put r n x

/-- Unlists a key. -/
def Tbl.del {α : Type} (t : Tbl α) (n : Nat) : Tbl α := t.filter fun e => e.1 != n

/-- Keys strictly rise from `lo` on, and no entry equals the default. -/
def Tbl.wfFrom {α : Type} [DecidableEq α] (dflt : α) : Nat → Tbl α → Bool
  | _, [] => true
  | lo, (k, v) :: t => decide (lo ≤ k) && decide (v ≠ dflt) && Tbl.wfFrom dflt (k + 1) t

/-- The canonical form. -/
def Tbl.wf {α : Type} [DecidableEq α] (dflt : α) (t : Tbl α) : Bool := Tbl.wfFrom dflt 0 t

/-- Inserts an element before the first that it goes before. -/
def insBy {α : Type} (le : α → α → Bool) (x : α) : List α → List α
  | [] => [x]
  | y :: r => if le x y then x :: y :: r else y :: insBy le x r
/-- Sorts a list, elements of equal rank in their order. -/
def sortBy {α : Type} (le : α → α → Bool) : List α → List α
  | [] => []
  | x :: r => insBy le x (sortBy le r)

/-! ### Byte memories -/

/-- The byte at an address; an unlisted byte reads 0 (assumption 1). -/
def Mem.byte (m : Mem) (a : Nat) : Byte := Tbl.get (0 : Byte) m a

/-- Writes one byte. -/
def Mem.setByte (m : Mem) (a : Nat) (b : Byte) : Mem := Tbl.set (0 : Byte) m a b

/-- The canonical form of a memory. -/
def Memory.wf (m : Mem) : Bool := Tbl.wf (0 : Byte) m

/-- The `n` bytes from an address, lowest first. -/
def Mem.bytes (m : Mem) (a n : Nat) : List Byte := (List.range n).map fun i => m.byte (a + i)

/-- Writes bytes given with their addresses, in list order. -/
def Mem.setMany (m : Mem) (bs : List (Nat × Byte)) : Mem := bs.foldl (fun acc x => acc.setByte x.1 x.2) m

/-- A little-endian number (R6). -/
def leNat (bs : List Byte) : Nat := bs.foldr (fun b acc => b.toNat + 256 * acc) 0

/-- The `n` low bytes of a number, lowest first (R6). -/
def leBytes (n v : Nat) : List Byte := (List.range n).map fun i => BitVec.ofNat 8 (v / 256 ^ i)

/-- Bytes with the addresses they go to. -/
def addrBytes (a : Nat) (bs : List Byte) : List (Nat × Byte) :=
  (List.range bs.length).zip bs |>.map fun x => (a + x.1, x.2)

/-- A little-endian number read from memory. -/
def Mem.nat (m : Mem) (a n : Nat) : Nat := leNat (m.bytes a n)

/-- Stores `n` bytes of a number. -/
def Mem.setNat (m : Mem) (a n v : Nat) : Mem := m.setMany (addrBytes a (leBytes n v))

end Sys2Proof.Machine
end

