-- ==== Sys2Proof/Machine/Ops.lean ====
section
/-! DEFINITION. The named operations over the state: cores and context banks, the agenda, results that land, tokens,
the issue-tick arithmetic of R133, and taking a trap with the halt it raises (R10, R446 to R453). -/

namespace Sys2Proof.Machine

/-- What a step or a meaning answers. -/
abbrev Out := Host.Outcome State Fault Refusal

/-! ### Cores and banks -/

/-- A tile. -/
def State.core (s : State) (t : Nat) : Core := Tbl.get {} s.cores t
/-- Replaces a tile. -/
def State.setCore (s : State) (t : Nat) (c : Core) : State := { s with cores := Tbl.put s.cores t c }
/-- The foreground context of the tile whose word executes. -/
def State.c (s : State) : Ctx := (s.core s.me).fg
/-- Replaces that context. -/
def State.setC (s : State) (c : Ctx) : State := s.setCore s.me { s.core s.me with fg := c }
/-- Changes that context. -/
def State.updC (s : State) (f : Ctx → Ctx) : State := s.setC (f s.c)
/-- Whether a place names the tile's foreground bank. -/
def State.inFg (s : State) (l : Loc) : Bool := (s.core l.tile).fg.part == some l.part
/-- The context spilled from a tile, where it is that of a partition (R460). -/
def State.spilled (s : State) (l : Loc) : Option Ctx :=
  match (s.core l.tile).spill with
  | some c => if c.part == some l.part then some c else none
  | none => none
/-- The context of a partition on a tile: in a bank (R33) or spilled (R460); an empty one where there is none. -/
def State.ctx (s : State) (l : Loc) : Ctx :=
  if s.inFg l then (s.core l.tile).fg
  else if (s.core l.tile).bg.part == some l.part then (s.core l.tile).bg
  else (s.spilled l).getD {}
/-- Replaces the context of a partition on a tile. -/
def State.setCtx (s : State) (l : Loc) (c : Ctx) : State :=
  if s.inFg l then s.setCore l.tile { s.core l.tile with fg := c }
  else if (s.core l.tile).bg.part == some l.part then s.setCore l.tile { s.core l.tile with bg := c }
  else if (s.spilled l).isSome then
    s.setCore l.tile { s.core l.tile with spill := if c.part.isSome then some c else none }
  else s
/-- Changes that bank. -/
def State.updCtx (s : State) (l : Loc) (f : Ctx → Ctx) : State := s.setCtx l (f (s.ctx l))
/-- Whether either bank of the tile holds the partition. -/
def State.holds (s : State) (l : Loc) : Bool :=
  (s.core l.tile).fg.part == some l.part || (s.core l.tile).bg.part == some l.part
/-- The place of the word that executes. -/
def State.here (s : State) : Loc := ⟨s.me, s.c.part.getD 0⟩
/-- A region; an unknown number reads as a region with default values. -/
def State.region (s : State) (r : Nat) : Region := Tbl.get {} s.regions r
/-- Changes a region. -/
def State.updRegion (s : State) (r : Nat) (f : Region → Region) : State :=
  { s with regions := Tbl.put s.regions r (f (s.region r)) }
/-- A partition. -/
def State.part (s : State) (p : Nat) : Part := Tbl.get {} s.parts p
/-- Changes a partition. -/
def State.updPart (s : State) (p : Nat) (f : Part → Part) : State := { s with parts := Tbl.put s.parts p (f (s.part p)) }
/-- What a gang shares. -/
def State.gang (s : State) (g : Nat) : Gang := Tbl.get {} s.gangs g
/-- Changes what a gang shares. -/
def State.updGang (s : State) (g : Nat) (f : Gang → Gang) : State := { s with gangs := Tbl.put s.gangs g (f (s.gang g)) }
/-- Tiles of which some bank is in use, in order. -/
def State.tiles (s : State) : List Nat := s.cores.map (·.1)

/-! ### Tile geometry (R4, R5) -/

/-- x of a tile. -/
def tileX (t : Nat) : Nat := t % 16
/-- y of a tile. -/
def tileY (t : Nat) : Nat := t / 16 % 16
/-- z of a tile. -/
def tileZ (t : Nat) : Nat := t / 256 % 16
/-- Number of the tile at (x, y, z). -/
def tileOf (x y z : Nat) : Nat := z * 256 + y * 16 + x
/-- Gang of a tile. -/
def gangOf (t : Nat) : Nat := tileZ t * 16 + tileY t
/-- Column of a tile. -/
def columnOf (t : Nat) : Nat := tileY t * 16 + tileX t
/-- Quad of a tile. -/
def quadOf (t : Nat) : Nat := tileZ t * 64 + tileY t / 2 * 8 + tileX t / 2
/-- Block of a tile. -/
def blockOf (t : Nat) : Nat := tileZ t / 4 * 16 + tileY t / 4 * 4 + tileX t / 4
/-- The torus neighbour in a direction (R4). -/
def neighbour (t : Nat) : Dir → Nat
  | .xm => tileOf ((tileX t + 15) % 16) (tileY t) (tileZ t)
  | .xp => tileOf ((tileX t + 1) % 16) (tileY t) (tileZ t)
  | .ym => tileOf (tileX t) ((tileY t + 15) % 16) (tileZ t)
  | .yp => tileOf (tileX t) ((tileY t + 1) % 16) (tileZ t)
  | .zm => tileOf (tileX t) (tileY t) ((tileZ t + 15) % 16)
  | .zp => tileOf (tileX t) (tileY t) ((tileZ t + 1) % 16)

/-- Whether a tile lies in a box (R19). -/
def Eff.inBox (e : Eff) (t : Nat) : Bool :=
  e.ox ≤ tileX t && tileX t < e.ox + e.ex && e.oy ≤ tileY t && tileY t < e.oy + e.ey &&
  e.oz ≤ tileZ t && tileZ t < e.oz + e.ez
/-- Tiles of a box in strand order (R20). -/
def Eff.tilesOf (e : Eff) : List Nat :=
  (List.range (e.ex * e.ey * e.ez)).map fun n =>
    tileOf (e.ox + n % e.ex) (e.oy + n / e.ex % e.ey) (e.oz + n / (e.ex * e.ey))
/-- Strand number of a tile (R20). -/
def Eff.strandOf (e : Eff) (t : Nat) : Nat :=
  (tileZ t - e.oz) * (e.ex * e.ey) + (tileY t - e.oy) * e.ex + (tileX t - e.ox)

/-- The instance of a scope that a tile of a region lies in (R11); whole-device scopes have instance 0. -/
def scopeInst (sc : Scope) (region t : Nat) : Nat :=
  match sc with
  | .strand | .tile => t
  | .quad => quadOf t
  | .gang => gangOf t
  | .column => columnOf t
  | .layer => tileZ t
  | .block => blockOf t
  | .region => region
  | .device | .host | .peer | .system => 0

/-! ### Time -/

/-- A context's own clock: it stands still while the context is frozen (R139, R448). -/
def Ctx.now (c : Ctx) (tick : Nat) : Nat := c.frozen.getD (tick - c.off)
/-- tt.tick (R139). -/
def Ctx.tt (c : Ctx) (tick : Nat) : Nat := (c.now tick - c.ph0) % 2 ^ 32
/-- The issue tick on the clock of the executing context. -/
def State.T (s : State) : Nat := s.c.now s.tick
/-- Units of tm in one ns. -/
def tmUnit : Nat := 504000000
/-- tm.now in whole ns (R196). -/
def State.tmNow (s : State) : Nat := s.tm / tmUnit % 2 ^ 64
/-- The fraction of tm.now in units of 2^-16 ns (R196, R198). -/
def State.tmFrac (s : State) : Nat := s.tm % tmUnit * 65536 / tmUnit
/-- Length of a tick at a P-state, in units of 1/504 ns (R201). -/
def tickUnits (p : Nat) : Nat :=
  match p with
  | 0 => 252 | 1 => 280 | 2 => 315 | 3 => 360 | 4 => 420 | 5 => 504 | 6 => 630 | _ => 840
/-- One tick of tm.now under the rate slew in ppm (R197). -/
def State.tmStep (s : State) : Nat :=
  let sl : Int := min 500 (max (-500) s.slew)
  (((tickUnits s.pnow : Nat) : Int) * (1000000 + sl)).toNat
/-- Ticks that a number of ns lasts at the P-state in force, rounded up, at least 1. -/
def State.ticksOf (s : State) (ns : Nat) : Nat := max 1 ((ns * 504 + tickUnits s.pnow - 1) / tickUnits s.pnow)

/-! ### The agenda -/

/-- Order of the events of one tick: what lands at the end of a tick is seen by everything of the next tick, and so
runs there first (R284, R292, R376); then a halt freezes the context, or its banks exchange, before anything else of that
tick (R446, R458); what had to land on the tick is examined last (R367). -/
def evRank : Ev → Nat
  | .knotLand .. | .streamWriteLand .. => 0
  | .haltDelivery _ | .bankExchange .. => 1
  | .mmrotShiftLand _ _ .due | .mmrotPlaneExchange .. => 3
  | _ => 2

/-- Inserts an event after every event due earlier, and after those of its tick whose rank is no higher. -/
def insEv (due : Nat) (ev : Ev) : List (Nat × Ev) → List (Nat × Ev)
  | [] => [(due, ev)]
  | e :: r =>
    if due < e.1 || (due == e.1 && evRank ev < evRank e.2) then (due, ev) :: e :: r else e :: insEv due ev r
/-- Schedules an event for a device tick, this one at the earliest. -/
def State.sched (s : State) (due : Nat) (ev : Ev) : State := { s with agenda := insEv (max due s.tick) ev s.agenda }
/-- Schedules an event some ticks from now. -/
def State.schedIn (s : State) (n : Nat) (ev : Ev) : State := s.sched (s.tick + n) ev
/-- Schedules an event for a tick of a context's clock. -/
def State.schedAt (s : State) (l : Loc) (t : Nat) (ev : Ev) : State :=
  s.sched (s.tick + (t - (s.ctx l).now s.tick)) ev
/-- The next free delay: a time that the spec leaves open (assumption 8). -/
def State.delay (s : State) : Nat := Config.freeDelay s.fresh
/-- Takes that free delay: the next one is another. -/
def State.tookDelay (s : State) : State := { s with fresh := s.fresh + 1 }
/-- Schedules an event after a fixed time and a free delay. -/
def State.schedFree (s : State) (n : Nat) (ev : Ev) : State := (s.schedIn (n + s.delay) ev).tookDelay
/-- Removes the events that meet a condition. -/
def State.unsched (s : State) (f : Ev → Bool) : State := { s with agenda := s.agenda.filter fun e => !f e.2 }

/-! ### Results in flight (R173, R175, R249) -/

/-- Lane bits of a mask as a vector of ones: lane i occupies bits 32i to 32i + 31 (R247). -/
def laneMask (m : Lane) : Vec :=
  (List.range 32).foldl (fun acc i => if m.getLsbD i then acc ||| (0xFFFFFFFF#1024 <<< (32 * i)) else acc) 0

/-- The lanes that a mask names from one vector, the others from another (R248). -/
def mergeLanes (m : Lane) (new old : Vec) : Vec := (new &&& laneMask m) ||| (old &&& ~~~ laneMask m)

/-- The vector register. -/
def Ctx.vreg (c : Ctx) (n : Nat) : Vec := Tbl.get 0 c.v n
/-- The lane-mask register; all ones at reset (R170). -/
def Ctx.mreg (c : Ctx) (n : Nat) : Lane := Tbl.get 0xFFFFFFFF c.m n
/-- A token (R134). -/
def Ctx.tok (c : Ctx) (n : Nat) : Tok := Tbl.get .unbound c.k n

/-- One register write. s0 and p0 discard it (R109); numbers from 64 (scalars) and 16 (predicates) name the shadow set
of a handler (R464). -/
def Ctx.put (c : Ctx) (w : Wr) : Ctx :=
  match w with
  | .s n x =>
    if n % 64 = 0 then c
    else if n < 64 then { c with s := Tbl.set 0 c.s n x }
    else { c with ui := { c.ui with hs := Tbl.set 0 c.ui.hs (n - 64) x } }
  | .p n b =>
    if n % 16 = 0 then c
    else if n < 16 then { c with p := Tbl.set false c.p n b }
    else { c with ui := { c.ui with hp := Tbl.set false c.ui.hp (n - 16) b } }
  | .m n mask x => { c with m := Tbl.set 0xFFFFFFFF c.m n ((x &&& mask) ||| (c.mreg n &&& ~~~ mask)) }
  | .x n x => { c with x := Tbl.set 0 c.x n x }
  | .v n mask x => { c with v := Tbl.set 0 c.v n (mergeLanes mask x (c.vreg n)) }
  | .flags f => { c with fpst := c.fpst ||| f.setWidth 64 }
  | .key k => { c with rngkey := k }
  | .fpst en clr => { c with fpst := (en.setWidth 64 <<< 16) ||| ((c.fpst &&& 0x1F) &&& ~~~(clr.setWidth 64)) }

/-- Adds a result of the word with an issue number: after those that land earlier, and after those of the same tick
whose word issued no later (R175). -/
def insPend (t no : Nat) (w : Wr) : List (Nat × Nat × Wr) → List (Nat × Nat × Wr)
  | [] => [(t, no, w)]
  | e :: r => if t < e.1 || (t == e.1 && no < e.2.1) then (t, no, w) :: e :: r else e :: insPend t no w r

/-- Puts a result of the word in progress in flight: words that issue on tick t or later see it. -/
def Ctx.pendW (c : Ctx) (t : Nat) (w : Wr) : Ctx := { c with pend := insPend t c.issueNo w c.pend }

/-- Puts a result of the word that bound a token in flight. -/
def Ctx.pendK (c : Ctx) (k : Option Nat) (t : Nat) (w : Wr) : Ctx :=
  { c with pend := insPend t ((k.map fun k => Tbl.get 0 c.kNo k).getD c.issueNo) w c.pend }

/-- Lands the results of a list that are seen on tick n, earliest first. -/
def landList (n : Nat) : List (Nat × Nat × Wr) → Ctx → Ctx
  | [], c => { c with pend := [] }
  | e :: r, c => if e.1 ≤ n then landList n r (c.put e.2.2) else { c with pend := e :: r }

/-- Lands every result that is seen on tick n. -/
def Ctx.landRegs (c : Ctx) (n : Nat) : Ctx := landList n c.pend c

/-! ### Scratchpad writes (R292, R311) -/

/-- Adds a landing write after those of an earlier tick, or of the same tick and no higher rank. -/
def insSpw (e : Nat × Nat × List (Nat × Byte) × List Nat) :
    List (Nat × Nat × List (Nat × Byte) × List Nat) → List (Nat × Nat × List (Nat × Byte) × List Nat)
  | [] => [e]
  | x :: r => if e.1 < x.1 || (e.1 == x.1 && e.2.1 < x.2.1) then e :: x :: r else x :: insSpw e r

/-- Granules that a write covers whole. -/
def wholeGranules (bs : List (Nat × Byte)) : List Nat :=
  let gs := (bs.map fun b => b.1 / 8).eraseDups
  gs.filter fun g => (List.range 8).all fun i => bs.any fun b => b.1 == 8 * g + i

/-- Lands one write: bytes, poison (R311) and the dirty bits of valid frames (R293). -/
def Ctx.spLand (c : Ctx) (bs : List (Nat × Byte)) (pz : List Nat) : Ctx :=
  let frames := (bs.map fun b => b.1 / 4096).eraseDups
  let tags := frames.foldl (fun t f =>
    match Tbl.find t f with
    | some e => if e.v then Tbl.put t f { e with d := true } else t
    | none => t) c.tags
  let keep := if c.spPoison.isEmpty then [] else
    let wg := wholeGranules bs
    c.spPoison.filter fun g => !wg.contains g
  { c with sp := Mem.setMany c.sp bs, tags := tags, spPoison := (keep ++ pz).eraseDups }

/-- Lands the writes of a list that are seen on tick n. -/
def landSpList (n : Nat) : List (Nat × Nat × List (Nat × Byte) × List Nat) → Ctx → Ctx
  | [], c => { c with spw := [] }
  | e :: r, c => if e.1 ≤ n then landSpList n r (c.spLand e.2.2.1 e.2.2.2) else { c with spw := e :: r }

/-- Lands everything that is seen on tick n: registers, then the scratchpad. -/
def Ctx.land (c : Ctx) (n : Nat) : Ctx :=
  let c := c.landRegs n
  landSpList n c.spw c

/-- Puts a scratchpad write in flight: it changes the bytes at the end of tick t (R292). -/
def Ctx.spWrite (c : Ctx) (t rank : Nat) (bs : List (Nat × Byte)) (pz : List Nat := []) : Ctx :=
  { c with spw := insSpw (t + 1, rank, bs, pz) c.spw }

/-- The tick to which the engines and scratchpads of a context have come: that of its clock, and on from there while a swap
that has stopped the clock lets them finish (R356, R442, R458). -/
def State.engNow (s : State) (l : Loc) : Nat :=
  let p := s.part l.part
  (s.ctx l).now s.tick + (if p.st == .swapping then s.tick - p.swapAt else 0)

/-- Lands what is due in the bank that holds a partition on a tile. -/
def State.landAt (s : State) (l : Loc) : State :=
  let n := s.engNow l
  s.updCtx l fun c =>
    let c := c.landRegs (c.now s.tick)
    landSpList n c.spw c

/-- Puts a scratchpad write of an engine in flight: it changes the bytes at the end of this tick, or `back` ticks before. -/
def State.engWrite (s : State) (l : Loc) (back rank : Nat) (bs : List (Nat × Byte)) (pz : List Nat := []) : State :=
  let n := s.engNow l - back
  s.updCtx l fun c => c.spWrite n rank bs pz

/-! ### Tokens (R134) -/

/-- Whether a token is bound on tick n: one that completes on X stays bound through X. -/
def Tok.bound (t : Tok) (n : Nat) : Bool :=
  match t with
  | .unbound => false
  | .pending => true
  | .done x => n ≤ x

/-- Whether a wait on the token ends by tick n: it is unbound, or completed before n. -/
def Tok.ready (t : Tok) (n : Nat) : Bool := !t.bound n

/-- Whether the token's event holds on tick n: unbound, or completed on or before n (R146). -/
def Tok.holds (t : Tok) (n : Nat) : Bool :=
  match t with
  | .unbound => true
  | .pending => false
  | .done x => x ≤ n

/-- Sets a token. -/
def Ctx.setTok (c : Ctx) (n : Nat) (t : Tok) : Ctx := { c with k := Tbl.set .unbound c.k n t }
/-- Binds a token to an operation of the word in progress; a captured word that had bound it has no more say over it
(R373). -/
def Ctx.bind (c : Ctx) (n : Nat) : Ctx :=
  { c.setTok n .pending with
    kNo := Tbl.set 0 c.kNo n c.issueNo, arr64 := { c.arr64 with tokPc := Tbl.del c.arr64.tokPc n } }
/-- Completes a token on tick x. -/
def Ctx.complete (c : Ctx) (n x : Nat) : Ctx := c.setTok n (.done x)
/-- Whether every token that a wait mask names is complete on tick n. -/
def Ctx.tokensReady (c : Ctx) (mask : BitVec 8) (n : Nat) : Bool :=
  (List.range 8).all fun i => !mask.getLsbD i || (c.tok i).ready n
/-- Whether no token is pending or completes after tick n. -/
def Ctx.noneBound (c : Ctx) (n : Nat) : Bool := (List.range 8).all fun i => (c.tok i).ready n

/-! ### Issue ticks (R133) -/

/-- T(w) on the context's clock: `base` is the issue tick of the previous word of the column in the phase. -/
def dueTick (ph0 dly col : Nat) (base : Option Nat) (prev : Prev) : Nat :=
  if 1 ≤ dly then base.getD ph0 + dly
  else
    let t := match prev with
      | .none | .pending => ph0
      | .at tp cp eog => if cp ≠ col ∧ eog = false then tp else tp + 1
    match base with
    | some b => if t ≤ b then b + 1 else t
    | none => t

/-- The tick that a reissue has of its own, and a forwarded word by its arrival and the follower's lag (R129, R168). -/
def QEnt.own (e : QEnt) (lag : Nat) : Option Nat := e.fixed.map fun t => if e.fwd then t + lag else t

/-- T(w) of a queued word; a reissue and a forwarded word have a tick of their own. -/
def QEnt.due (e : QEnt) (c : Ctx) : Nat :=
  match e.own c.fol.lag with
  | some t => t
  | none => dueTick c.ph0 e.x.dly.toNat e.col (Tbl.find c.base e.col) e.prev

/-- A word of the role's code in the instruction store (R65, R119). -/
def Core.wordAt (k : Core) (c : Ctx) (pc : Nat) : IWord := BitVec.ofNat 96 (Mem.nat k.istore (c.cbase + 12 * pc) 12)

/-- The column code of a word (R106). -/
def colOf (bits : IWord) : Nat := (bits.extractLsb' 87 3).toNat

/-- Words after which the decoder passes nothing until they resolve (R118, R135, R153, R157, R467, R471). -/
def stopsDecoder : Instr → Bool
  | .br .. | .call .. | .ret .. | .jmpi .. | .loop .. | .join .. | .rfork .. | .halt | .uiret => true
  | _ => false

/-- Whether the strand's words are held to the timetable (R136, R138, R450). -/
def Ctx.timed (c : Ctx) : Bool := c.kind != .elastic && !c.loose

/-- The words that the decoder will pass next, up to a transfer, a phase, an illegal word or the end of the code: none of
them is available on tick n (R119, R135). -/
def Ctx.ahead (k : Core) (c : Ctx) (n : Nat) : Nat → Nat → Nat → Prev → List QEnt
  | 0, _, _, _ => []
  | fuel + 1, pc, seq, prev =>
    if c.words ≤ pc then []
    else
      let bits := k.wordAt c pc
      match decode bits with
      | none => []
      | some x =>
        if x.isPadding then c.ahead k n fuel (pc + 1) seq prev
        else
          let e : QEnt :=
            { pc := pc, bits := bits, x := x, col := colOf bits, seq := seq, rank := seq, avail := n + 1, prev := prev }
          let stop := stopsDecoder x.instr || (match x.instr with
            | .phase .. => true
            | _ => false)
          if stop then [e] else e :: c.ahead k n fuel (pc + 1) (seq + 1) .pending

/-- The words that the decoder has not passed and that a timed phase holds to their ticks all the same (R136). -/
def Ctx.unpassed (k : Core) (c : Ctx) (n : Nat) : List QEnt :=
  if c.timed && c.block == .none && c.fstop == .run && c.ui.going.isNone then
    c.ahead k n (c.words - c.pc) c.pc c.seq c.prev
  else []

/-- P of R168: the last captured word's tick less the first's, in program order, and the delay of the first, 1 at least. A
last word that issued before the first counts off that delay, down to nothing. -/
def Rep.period (r : Rep) : Nat :=
  match r.caps.head?, r.caps.getLast? with
  | some f, some l => l.2 + max 1 f.1.x.dly.toNat - f.2
  | _, _ => 1

/-- Columns that a capture or its reissues use. -/
def Rep.cols (r : Rep) : List Nat := (r.caps.map fun e => e.1.col).eraseDups

/-- The tick of a column's last reissue (R168). -/
def Rep.lastT (r : Rep) (col : Nat) : Nat :=
  r.caps.foldl (fun m e => if e.1.col == col then max m (e.2 + r.count * r.period + r.slip) else m) 0

/-- Walks the words that have not issued in program order, each taken to issue on its computed tick and the trapping word,
the first at its PC, on its trap tick, and lists the ticks (R133, R136, R452, R489). -/
def duesFrom (ph0 lag : Nat) (trap : Option (Nat × Nat)) (base : Tbl Nat) (prev : Option (Nat × Nat × Bool)) :
    List QEnt → List (QEnt × Nat)
  | [] => []
  | e :: r =>
    let pv := match prev with
      | some p => Prev.at p.1 p.2.1 p.2.2
      | none => e.prev
    let due := match e.own lag with
      | some t => t
      | none => dueTick ph0 e.x.dly.toNat e.col (Tbl.find base e.col) pv
    let hit := trap.filter fun x => x.1 == e.pc
    let t := (hit.map (·.2)).getD due
    (e, t) :: duesFrom ph0 lag (if hit.isSome then none else trap) (Tbl.put base e.col t)
      (if 0 < e.j && !e.fwd then prev else some (t, e.col, e.x.eog)) r

/-- The issue tick that each column's next word reckons with: behind a closed capture, that of its last reissue (R168). -/
def Ctx.bases (c : Ctx) : Tbl Nat :=
  (c.reps.filter fun r => r.left == 0).foldl (fun b r => r.cols.foldl (fun b col =>
    Tbl.put b col (max ((Tbl.find b col).getD 0) (r.lastT col))) b) c.base

/-- The next unissued word of each column, in its queue or, in a timed phase, still to be passed to it: its PC and the phase
tick on which it was due (R136, R452, R489). `trap`: the PC of a word that trapped precisely, and its tick. -/
def Ctx.columns (k : Core) (c : Ctx) (tick : Nat) (trap : Option (Nat × Nat)) : List (Option (Nat × Nat)) :=
  let ds := duesFrom c.ph0 c.fol.lag trap c.bases none (c.q ++ c.unpassed k (c.now tick))
  (List.range 8).map fun col => (ds.find? fun e => e.1.col == col).map fun e => (e.1.pc, (e.2 - c.ph0) % 2 ^ 32)

/-- Whether the strand's own sequencer reissues the word. -/
def QEnt.re (e : QEnt) : Bool := 0 < e.j && !e.fwd
/-- Program order of the queued words: the reissues of rep stand behind the last captured word, by their number
(R168, R175). -/
def QEnt.before (e x : QEnt) : Bool :=
  e.rank < x.rank || (e.rank == x.rank && (e.j < x.j || (e.j == x.j && e.seq < x.seq)))

/-- Puts a word back at its place in that order. -/
def insEnt (e : QEnt) : List QEnt → List QEnt
  | [] => [e]
  | x :: r => if e.before x then e :: x :: r else x :: insEnt e r

/-! ### Traps and halts (R33, R446 to R453) -/

/-- Ranks traps: earlier tick, lower tile, lower kind code (R447). -/
def trapBefore (a b : Nat × Nat × Nat × Nat) : Bool :=
  a.1 < b.1 || (a.1 == b.1 && (a.2.1 < b.2.1 || (a.2.1 == b.2.1 && a.2.2.1 < b.2.2.1)))

/-- Raises the partition's halt line: HALT_DELIVERY comes on D + 24, and a later trap does not change it (R446). -/
def State.raiseHalt (s : State) (p : Nat) (cause : Nat × Nat × Nat × Nat) : State :=
  let pt := s.part p
  let s := s.updPart p fun q => { q with
    cause := match q.cause with
      | some c => if trapBefore cause c then some cause else some c
      | none => some cause }
  match pt.st, pt.haltAt with
  | .active, _ | .swapping, 0 | .swapped, 0 =>
    (s.updPart p fun q => { q with st := if q.st == .active then .halting else q.st, haltAt := s.tick + 24 }).sched
      (s.tick + 24) (.haltDelivery p)
  | .swapping, _ + 1 | .swapped, _ + 1 | .halting, _ | .halted, _ => s

/-- Records a trap of a context and raises its halt line; while the context is frozen the trap is held (R447), but one of the
drain of a swap halts it (R459). -/
def State.raiseTrap (s : State) (l : Loc) (r : StopRec) : State :=
  if (s.ctx l).frozen.isSome && (s.part l.part).st != .swapping then s.updPart l.part fun q => { q with held := q.held ++ [r] }
  else
    let s := s.updCtx l fun c => { c with stops := c.stops ++ [r] }
    s.raiseHalt l.part (s.tick, l.tile, r.kind, r.code)

/-- A stop record of a context (R452). -/
def State.mkStop (s : State) (l : Loc) (kind code : Nat) (prec : Bool) (pc word detail xfer : Nat) : StopRec :=
  let c := s.ctx l
  { code := code, kind := kind, prec := prec, bank := if s.inFg l then 0 else 1, part := l.part, tile := l.tile,
    region := c.region, tnow := s.tmNow, ttick := c.tt s.tick, pc := pc % 2 ^ 14, detail := detail, word := word,
    xfer := xfer, seq := 0, tick := s.tick
    cols := if kind == 0 then
        c.columns (s.core l.tile) s.tick (if prec && code != 0x0D then some (pc, c.now s.tick) else none)
      else [] }

/-- The program counter of the word that executes. -/
def State.pcNow (s : State) : Nat := (s.cur.ent.map (·.pc)).getD 0
/-- Its 96 bits. -/
def State.bitsNow (s : State) : Nat := (s.cur.ent.map (·.bits.toNat)).getD 0

/-- The word that executes goes back to its queue, as if it had not been taken. -/
def State.unissue (s : State) : State :=
  match s.cur.ent with
  | some e => s.updC fun c => { c with q := insEnt e c.q }
  | none => s

/-- TAKING A PRECISE TRAP: the word has no effect and stands in its queue again, the strand issues nothing more, its
stop record is made and the halt line rises (R10, R446, R452). -/
def State.trapWord (s : State) (code : Nat) (detail : Nat := 0) : State :=
  let s := s.unissue
  let r := s.mkStop s.here 0 code true s.pcNow s.bitsNow detail 0
  let s := s.updC fun c => { c with stopped := true }
  let s := s.raiseTrap s.here r
  { s with cur := { s.cur with trapped := true } }

/-- The trap word of R145: as a precise trap, but the word counts as issued and execution resumes at pc + 1. -/
def State.softTrap (s : State) (code : Nat) : State :=
  let r := s.mkStop s.here 0 0x0D true s.pcNow s.bitsNow code 0
  let s := s.updC fun c => { c with stopped := true }
  s.raiseTrap s.here r

/-- An imprecise trap found by an engine, a router or a sensor: the strand's words are as they are (R451, R454). -/
def State.trapEngine (s : State) (l : Loc) (kind code pc detail xfer : Nat) : State :=
  s.raiseTrap l (s.mkStop l kind code false pc 0 detail xfer)

/-- The word stalls: it stands in its queue again and tries on a later tick (R138). In a timed phase a stall is a
timetable deviation (R136). -/
def State.stallUntil (s : State) (n : Nat) : State :=
  if s.c.kind != .elastic && !s.c.loose then s.trapWord 0x05
  else
    let s := match s.cur.ent with
      | some e => s.updC fun c => { c with q := insEnt { e with notBefore := n } c.q }
      | none => s
    { s with cur := { s.cur with stalled := true } }

/-- The word stalls for a tick. -/
def State.stall (s : State) : State := s.stallUntil (s.T + 1)

/-! ### Trap codes (R451) -/

def cIllegalEncoding : Nat := 0x01
def cIllegalOperand : Nat := 0x02
def cPrivilege : Nat := 0x03
def cRegBounds : Nat := 0x04
def cTimetable : Nat := 0x05
def cExchangeLate : Nat := 0x06
def cFollowDiverge : Nat := 0x07
def cWriteset : Nat := 0x08
def cTranslation : Nat := 0x09
def cProtection : Nat := 0x0A
def cAlignment : Nat := 0x0B
def cScratchBounds : Nat := 0x0C
def cCopyFault : Nat := 0x0E
def cGatherFault : Nat := 0x0F
def cRecvOverflow : Nat := 0x10
def cAllAsleep : Nat := 0x11
def cPhaseTimer : Nat := 0x12
def cUncorrectable : Nat := 0x13
def cPoison : Nat := 0x14
def cHandlerMatrix : Nat := 0x15
def cArrayFormat : Nat := 0x16
def cGangMismatch : Nat := 0x17
def cFpTrap : Nat := 0x18
def cTokenBusy : Nat := 0x19
def cThermalTrip : Nat := 0x1A

/-! ### Answers of a meaning -/

/-- The next state. -/
def ok (s : State) : Out := .next s
/-- A precise trap of the word. -/
def trapO (s : State) (code : Nat) (detail : Nat := 0) : Out := .next (s.trapWord code detail)
/-- The meaning goes on when a condition holds, and the word traps otherwise. -/
def guardT (s : State) (b : Bool) (code : Nat) (k : Out) : Out := if b then k else trapO s code
/-- A word admitted in elastic phases only (R39, R140). -/
def elastic (s : State) (k : Out) : Out := guardT s (s.c.kind == .elastic) cIllegalOperand k
/-- A word that a running handler bars (R465). -/
def noHandler (s : State) (k : Out) : Out := guardT s (!s.c.ui.inh) cIllegalOperand k
/-- The open capture of rep (R167). -/
def Ctx.openRep (c : Ctx) : Option Rep := c.reps.find? fun r => 0 < r.left
/-- No later issue of the captured word at a PC follows: its token completes with the operation of the last issue, on the
present tick n at the earliest (R373). -/
def Ctx.lastIssue (c : Ctx) (n k pc : Nat) : Ctx :=
  if Tbl.find c.arr64.tokPc k == some pc && c.tok k == .pending then
    match (c.arr64.ops.filter fun o => o.tok == some k && o.pc == pc).getLast? with
    | some o =>
      match o.tokAt with
      | some x => c.complete k (max x n)
      | none => { c with arr64 := { c.arr64 with
          ops := c.arr64.ops.map fun x => if x.id == o.id then { x with more := false } else x } }
    | none => c.complete k n
  else c
/-- The open capture stays open, and its reissues are abandoned (R167). -/
def Ctx.abandon (c : Ctx) (n : Nat) : Ctx :=
  let c1 : Ctx := { c with reps := c.reps.map fun (r : Rep) => if 0 < r.left then { r with count := 0 } else r }
  match c.openRep with
  | some r => r.caps.foldl (fun (c : Ctx) e => (List.range 8).foldl (fun (c : Ctx) k => c.lastIssue n k e.1.pc) c) c1
  | none => c1
/-- A word that an open capture of rep bars (R167). -/
def noCapture (s : State) (k : Out) : Out :=
  if s.c.openRep.isNone then k else trapO (s.updC fun c => c.abandon s.T) cIllegalOperand
/-- A word that binds a token: TOKEN_BUSY when it is bound (R134). -/
def freeTok (s : State) (k : Nat) (kont : Out) : Out := guardT s (!(s.c.tok k).bound s.T) cTokenBusy kont

/-- Results that words issued on tick T + L or later read (R173). -/
def State.result (s : State) (lat : Nat) (w : Wr) : State := s.updC fun c => c.pendW (s.T + lat) w

end Sys2Proof.Machine
end

