-- ==== Sys2Proof/Machine/Operands.lean ====
section
/-! DEFINITION. Every operand form: scalar sources with the class S special registers (R35, R109, R110), predicates and
masks, the shadow set of a handler (R464), and vector operands with the window check and the stream slots that v0 to v7
may be bound to (R178 to R180, R247, R283). -/

namespace Sys2Proof.Machine

/-! ### Scalars, predicates, masks -/

/-- A scalar as a word reads it: s0 reads 0, and a handler's s1 to s63 are its shadow set (R109, R464). -/
def Ctx.sreg (c : Ctx) (n : Nat) : Word :=
  if n = 0 then 0 else if c.ui.inh then Tbl.get 0 c.ui.hs n else Tbl.get 0 c.s n

/-- A predicate as a word reads it: p0 reads 1 (R109, R464). -/
def Ctx.preg (c : Ctx) (n : Nat) : Bool :=
  if n = 0 then true else if c.ui.inh then Tbl.get false c.ui.hp n else Tbl.get false c.p n

/-- An index register (R170). -/
def Ctx.xreg (c : Ctx) (n : Nat) : BitVec 16 := Tbl.get 0 c.x n

/-- The number of a scalar destination in `Wr`: a handler writes its shadow set (R464). -/
def Ctx.sdst (c : Ctx) (n : Nat) : Nat := if c.ui.inh then n + 64 else n
/-- The number of a predicate destination in `Wr`. -/
def Ctx.pdst (c : Ctx) (n : Nat) : Nat := if c.ui.inh then n + 16 else n

/-- id.step of the strand's region (R35, R37). -/
def State.idStep (s : State) : Nat := (s.region s.c.region).step

/-- A class S special register, read on the issue tick (R35, R110, R139, R196). -/
def State.special (s : State) (r : Special) : Word :=
  let c := s.c
  let t := s.me
  let e := (s.region c.region).eff
  match r with
  | .p n => if c.preg n.toNat then 1 else 0
  | .m n => (c.mreg n.toNat).setWidth 64
  | .x n => (c.xreg n.toNat).signExtend 64
  | .idCx => BitVec.ofNat 64 (tileX t)
  | .idCy => BitVec.ofNat 64 (tileY t)
  | .idCz => BitVec.ofNat 64 (tileZ t)
  | .idRx => BitVec.ofNat 64 ((tileX t - e.ox) % 16)
  | .idRy => BitVec.ofNat 64 ((tileY t - e.oy) % 16)
  | .idRz => BitVec.ofNat 64 ((tileZ t - e.oz) % 16)
  | .idGang => BitVec.ofNat 64 (gangOf t)
  | .idStrand => BitVec.ofNat 64 (e.strandOf t % 4096)
  | .idRegion => BitVec.ofNat 64 (c.region % 2 ^ 32)
  | .idPart => BitVec.ofNat 64 (c.part.getD 0 % 64)
  | .idDev => BitVec.ofNat 64 (s.dv.cfg.devno % 4096)
  | .idStep => BitVec.ofNat 64 (s.idStep % 2 ^ 32)
  | .tmNow => BitVec.ofNat 64 s.tmNow
  | .ttTick => BitVec.ofNat 64 (c.tt s.tick)
  | .knLo => ((s.gang (gangOf t)).lo).setWidth 64
  | .knInv => ((s.gang (gangOf t)).inv).setWidth 64
  | .knG => ((s.gang (gangOf t)).g).setWidth 64
  | .knMode => ((s.gang (gangOf t)).mode).setWidth 64

/-- A scalar source (R109). -/
def State.src (s : State) : Src → Word
  | .s n => s.c.sreg n.toNat
  | .sp r => s.special r

/-- A kind-0 scalar. -/
def State.sreg (s : State) (n : BitVec 6) : Word := s.c.sreg n.toNat

/-- Reading tm.now latches its fraction into ctl.tmfrac (R198). -/
def State.seen (s : State) (a : Src) : State :=
  match a with
  | .sp .tmNow => s.updC fun c => { c with tmfrac := s.tmFrac }
  | .sp _ | .s _ => s

/-- The lanes that a mask operand enables (R248). -/
def State.lanes (s : State) : Mask → Lane
  | none => 0xFFFFFFFF
  | some n => s.c.mreg n.toNat

/-- A scalar result of latency L (R173); s0 discards it. -/
def State.putS (s : State) (lat : Nat) (d : BitVec 6) (v : Word) : State :=
  s.result lat (.s (s.c.sdst d.toNat) v)

/-- A predicate result. -/
def State.putP (s : State) (lat : Nat) (d : BitVec 4) (b : Bool) : State :=
  s.result lat (.p (s.c.pdst d.toNat) b)

/-! ### Vector operands (R178 to R180) -/

/-- The rep stride of an operand position: 0 D, 1 A, 2 B, 3 C (R166). -/
def strideOf (st : BitVec 32) (pos : Nat) : Int := (st.extractLsb' (8 * pos) 8).toInt

/-- The index that a vector operand resolves to at issue; no index wraps (R178). -/
def State.vidx (s : State) (o : VOp) (pos : Nat) : Int :=
  let base : Int := match o with
    | .v n => (n.toNat : Int)
    | .vx j off => (s.c.xreg j.toNat).toInt + off.toInt
  match s.cur.ent with
  | some e => base + (e.j : Int) * strideOf e.strides pos
  | none => base

/-- Whether an index lies in the region's window (R176). -/
def Ctx.inWindow (c : Ctx) (i : Int) : Bool := (c.vlo : Int) ≤ i && i ≤ (c.vhi : Int)

/-- The detail word of REG_BOUNDS (R180). -/
def State.boundsDetail (s : State) (i : Int) (pos : Nat) : Nat :=
  ((s.cur.ent.map (·.j)).getD 0) % 4096 * 2 ^ 32 + (i % 2 ^ 24).toNat * 256 + pos

/-- Checks vector operands in order, D first; the first outside the window traps with REG_BOUNDS (R179). -/
def vcheck (s : State) (ops : List (VOp × Nat)) (k : Out) : Out :=
  match ops with
  | [] => k
  | o :: r =>
    let i := s.vidx o.1 o.2
    if s.c.inWindow i then vcheck s r k else trapO s cRegBounds (s.boundsDetail i o.2)

/-- The register that an operand inside the window names. -/
def State.vnum (s : State) (o : VOp) (pos : Nat) : Nat := (s.vidx o pos).toNat

/-! ### Streams (R278, R283, R284) -/

/-- A stream slot. -/
def Ctx.slot (c : Ctx) (n : Nat) : Slot := Tbl.get {} c.strm n
/-- Changes a stream slot. -/
def Ctx.updSlot (c : Ctx) (n : Nat) (f : Slot → Slot) : Ctx := { c with strm := Tbl.set {} c.strm n (f (c.slot n)) }
/-- Whether the register is bound to a stream: its own contents are hidden. -/
def Ctx.bound (c : Ctx) (n : Nat) : Bool := n < 8 && (c.slot n).st == .bound
/-- Vectors of a stream (R279). -/
def Slot.total (x : Slot) : Nat := x.cnt1 * x.cnt2
/-- Size of a type in bytes (R183, R247). -/
def tySize : Ty → Nat
  | .i8 | .n8 | .a8 | .t8 => 1
  | .i16 | .n16 | .bf16 => 2
  | .i32 | .n32 | .f32 => 4
  | .i64 | .n64 => 8
/-- Ticks that each transfer of a stream costs (R284). -/
def Ctx.streamQ (c : Ctx) (n : Nat) : Nat :=
  let x := c.slot n
  let q := if x.str0 = (tySize x.mfmt : Int) then 1 else x.cnt0
  let nb := ((List.range 8).filter fun i => c.bound i).length
  if 4 < nb then 2 * q else q

/-- What a source position may do: go on, trap, or wait. -/
inductive Pop where
  | go | bad | wait
deriving DecidableEq, Repr

/-- Whether a source register can be read: an input stream pops its next ready vector (R283, R284). -/
def Ctx.canRead (c : Ctx) (n : Nat) : Pop :=
  if c.bound n then
    let x := c.slot n
    if x.dir || x.total ≤ x.pos then .bad else if x.buf.isEmpty then .wait else .go
  else .go

/-- Vectors of a slot's stream that are pushed and not landed. -/
def Ctx.unlanded (c : Ctx) (n : Nat) : Nat := (c.pushes.filter fun p => p.slot == n && p.cur).length

/-- Whether a destination register can be written: an output stream takes at most eight vectors not yet landed. -/
def Ctx.canWrite (c : Ctx) (n : Nat) : Pop :=
  if c.bound n then
    let x := c.slot n
    if !x.dir || x.total ≤ x.pos then .bad else if 8 ≤ c.unlanded n then .wait else .go
  else .go

/-- What a source position reads. -/
def Ctx.readV (c : Ctx) (n : Nat) : Vec :=
  if c.bound n then ((c.slot n).buf.head?.map (·.1)).getD 0 else c.vreg n

/-- Pops a bound source once (R283) and starts the fetch that the pop makes room for (R284). -/
def State.popOne (s : State) (n : Nat) : State :=
  let c := s.c
  if c.bound n then
    let x := c.slot n
    -- the fetch of vector pos + 8 was waiting for this pop when it is the next one to fetch
    let waits := x.moved == x.pos + 8 && x.moved < x.total
    let f := max (x.lastF + c.streamQ n) (s.T + 1)
    let s := s.updC fun c => c.updSlot n fun x =>
      { x with buf := x.buf.tail, pos := x.pos + 1, pops := (s.T :: x.pops).take 8 }
    if waits then s.schedAt s.here f (.streamFetch s.here n) else s
  else s

/-- Pops every bound source of a word, once each. -/
def State.popAll (s : State) (srcs : List Nat) : State := srcs.eraseDups.foldl State.popOne s

/-- Whether the vector that a position would pop is poisoned (R311). -/
def Ctx.popPoison (c : Ctx) (n : Nat) : Bool := c.bound n && ((c.slot n).buf.head?.map (·.2.1)).getD false

/-- Flags that the conversion of the popped vectors raises, by lane (R279). -/
def Ctx.popFlags (c : Ctx) (srcs : List Nat) : List (Nat × BitVec 5) :=
  srcs.eraseDups.flatMap fun n => if c.bound n then ((c.slot n).buf.head?.map (·.2.2)).getD [] else []

/-- A word that meets a poisoned stream vector: an imprecise trap, by which it pops nothing; on resumption it issues again
(R283, R311, R451). -/
def State.poisoned (s : State) : State :=
  let r := s.mkStop s.here 0 cPoison false s.pcNow s.bitsNow 0 0
  (s.updC fun c => { c with again := c.again ++ s.cur.ent.toList }).raiseTrap s.here r

/-- Checks the streams that a word touches: misuse traps, an unready stream stalls (a deviation in a timed phase), and
a poisoned vector traps imprecisely (R283, R284, R311). The word goes on with what its sources read;
it pops them when it takes effect. -/
def withV (s : State) (srcs : List Nat) (dst : Option Nat) (k : List Vec → Out) : Out :=
  let c := s.c
  let st := srcs.map c.canRead ++ (match dst with | some d => [c.canWrite d] | none => [])
  if st.contains .bad then trapO s cIllegalOperand
  else if st.contains .wait then .next s.stall
  else if srcs.any c.popPoison then .next s.poisoned
  else k (srcs.map c.readV)

end Sys2Proof.Machine
end

