-- ==== Sys2Proof/Machine/Flags.lean ====
section
/-! DEFINITION. Vector elements (R247), the flags of a word and FP_TRAP (R237 to R239), and what a vector word writes: a
register, or the output stream its destination is bound to (R248, R249, R283 to R285). -/

namespace Sys2Proof.Machine

/-! ### Elements -/

/-- Element j of width w. -/
def elem (w j : Nat) (v : Vec) : Nat := v.toNat / 2 ^ (w * j) % 2 ^ w
/-- Elements of a vector, from 0 up. -/
def elems (w : Nat) (v : Vec) : List Nat := (List.range (1024 / w)).map fun j => elem w j v
/-- A vector of elements of width w, from 0 up. -/
def vecOf (w : Nat) (es : List Nat) : Vec := BitVec.ofNat 1024 (es.foldr (fun e acc => e % 2 ^ w + 2 ^ w * acc) 0)
/-- The lane that holds element j of width w. -/
def laneOf (w j : Nat) : Nat := w * j / 32
/-- Flags of a list of element results, by lane. -/
def laneFlags (w : Nat) (rs : List FRes) : List (Nat × Flags) :=
  ((List.range rs.length).zip rs).filterMap fun x => if x.2.fl = 0 then none else some (laneOf w x.1, x.2.fl)
/-- Flags of the enabled lanes. -/
def maskFlags (m : Lane) (fs : List (Nat × Flags)) : List (Nat × Flags) := fs.filter fun x => m.getLsbD x.1

/-! ### Flags of a word -/

/-- The flags a word raises. -/
def orFlags (fs : List (Nat × Flags)) : Flags := fs.foldl (fun a x => a ||| x.2) 0
/-- The enable bits of ctl.fpst (R237). -/
def Ctx.fpEnable (c : Ctx) : Flags := c.fpst.extractLsb' 16 5
/-- The detail word of FP_TRAP: the flags, and the lowest lane that raises an enabled one (R239). -/
def fpDetail (en : Flags) (fs : List (Nat × Flags)) : Nat :=
  let lanes := (fs.filter fun x => x.2 &&& en != 0).map (·.1)
  (orFlags fs).toNat + 256 * lanes.foldl min (lanes.headD 0)
/-- FP_TRAP when a raised flag is enabled (R239); else the word goes on. -/
def fpCheck (s : State) (fs : List (Nat × Flags)) (k : Out) : Out :=
  if orFlags fs &&& s.c.fpEnable != 0 then trapO s cFpTrap (fpDetail s.c.fpEnable fs) else k
/-- Flags land with the word's result (R238). -/
def State.putFlags (s : State) (lat : Nat) (fs : List (Nat × Flags)) : State :=
  if orFlags fs = 0 then s else s.result lat (.flags (orFlags fs))

/-! ### Stream conversion (R279, R285) -/

/-- The rounding of a record's code. -/
def slotRnd (x : Slot) : Rnd := (rdRnd (BitVec.ofNat 3 x.rnd)).getD .ne

/-- One element of a stream converted between its memory and register types, by the rules of vcvt (R262). -/
def streamConv (dt st : Ty) (x : Slot) (b : Nat) : FRes :=
  convert dt st (slotRnd x) false b

/-- Elements that an output vector writes: number within the vector and memory pattern; elements of disabled lanes and
those from cnt0 up are not written (R279, R283). -/
def Slot.outElems (x : Slot) (m : Lane) (v : Vec) : List (Nat × FRes) :=
  let w := tyBits x.rfmt
  (List.range x.cnt0).filterMap fun j =>
    if m.getLsbD (laneOf w j) then some (j, streamConv x.mfmt x.rfmt x (elem w j v)) else none

/-- Flags of a push, by lane. -/
def Ctx.pushFlags (c : Ctx) (n : Nat) (m : Lane) (v : Vec) : List (Nat × Flags) :=
  if c.bound n then
    let x := c.slot n
    (x.outElems m v).filterMap fun e => if e.2.fl = 0 then none else some (laneOf (tyBits x.rfmt) e.1, e.2.fl)
  else []

/-- Starts the writes of a slot's pushes, in their order: w(j) is the later of the tick after the push and
w(j - 1) + q, and a push whose result has not arrived holds the later ones of its stream (R284). Answers the pushes, and
the start and cost of each write that starts. `last`: w of the push before, and whether that one is held. -/
def startPushes (n : Nat) : Nat → Bool → List Push → List Push × List (Nat × Nat)
  | _, _, [] => ([], [])
  | last, held, p :: r =>
    if p.slot != n then
      let x := startPushes n last held r
      (p :: x.1, x.2)
    else
      let held := held && p.idx != 0
      match p.w, p.data with
      | some w, _ =>
        let x := startPushes n w held r
        (p :: x.1, x.2)
      | none, some d =>
        if held then
          let x := startPushes n last held r
          (p :: x.1, x.2)
        else
          let w := max (d.1 + 1) (if p.idx = 0 then 0 else max p.cfg.lastF last + p.q)
          let x := startPushes n w held r
          ({ p with w := some w } :: x.1, (w, p.q) :: x.2)
      | none, none =>
        let x := startPushes n last true r
        (p :: x.1, x.2)

/-- Starts what can start of a slot's pushes: a write lands at the end of tick w + q + 2 (R284). -/
def State.pump (s : State) (l : Loc) (n : Nat) : State :=
  let x := startPushes n 0 false (s.ctx l).pushes
  let s := s.updCtx l fun c =>
    let c := { c with pushes := x.1 }
    match ((x.1.filter fun p => p.slot == n && p.cur).filterMap (·.w)).getLast? with
    | some w => c.updSlot n fun y => { y with lastF := w }
    | none => c
  x.2.foldl (fun s e =>
    (s.schedAt l e.1 (.streamWrite l n)).schedAt l (e.1 + e.2 + 3) (.streamWriteLand l n)) s

/-- Pushes a vector to the slot's stream on the present tick, or, under a word's token, when its result arrives: its place
in the stream is taken at the issue (R283). -/
def State.pushV (s : State) (l : Loc) (n : Nat) (tok : Option Nat) (data : Option (Nat × Vec × Lane)) : State :=
  let s := s.updCtx l fun c =>
    let x := c.slot n
    { c.updSlot n fun x => { x with pos := x.pos + 1 } with
      pushes := c.pushes ++ [{ slot := n, cfg := x, idx := x.pos, q := c.streamQ n, tok := tok, data := data }] }
  s.pump l n

/-- A token-bound word whose destination is bound to an output stream takes its place in the stream (R283). -/
def State.claimV (s : State) (n : Nat) (tok : Option Nat) : State :=
  if s.c.bound n then s.pushV s.here n tok none else s

/-- Writes a vector result: a register takes the enabled lanes on tick T + L; an output stream takes the vector on the
issue tick (R249, R283, R284). -/
def State.putV (s : State) (lat n : Nat) (m : Lane) (v : Vec) : State :=
  if s.c.bound n then s.pushV s.here n none (some (s.T, v, m)) else s.result lat (.v n m v)

/-- A vector word takes effect: FP_TRAP is decided on all its flags, then its sources pop and its result and flags go
on their way. `sn`: its scalar sources. `pm`: the lanes that its mask enables, where they are not those it writes; only
they raise what the conversions of its streams raise (R238, R248). -/
def vecDone (s : State) (srcs : List Nat) (lat n : Nat) (m : Lane) (v : Vec) (fs : List (Nat × Flags))
    (sn : List Src := []) (pm : Option Lane := none) : Out :=
  let all := maskFlags (pm.getD m) (s.c.popFlags srcs) ++ fs ++ maskFlags (pm.getD m) (s.c.pushFlags n m v)
  fpCheck s all (ok ((((sn.foldl State.seen s).popAll srcs).putV lat n m v).putFlags lat all))

/-- A word with a scalar, predicate or mask result that reads vectors; `pm`: the lanes that its mask enables. -/
def regDone (s : State) (srcs : List Nat) (lat : Nat) (w : Wr) (fs : List (Nat × Flags)) (sn : List Src := [])
    (pm : Lane := 0xFFFFFFFF) : Out :=
  let all := maskFlags pm (s.c.popFlags srcs) ++ fs
  fpCheck s all (ok ((((sn.foldl State.seen s).popAll srcs).result lat w).putFlags lat all))

end Sys2Proof.Machine
end

