-- ==== Sys2Proof/Machine/Net.lean ====
section
/-! DEFINITION. The torus: dimension-ordered routes with the detours of the fault-region tables, hop and flit times, and
the timed plane (R89, R95 to R97, R394 to R406, R421). -/

namespace Sys2Proof.Machine

/-! ### Ports, orders and hops -/

/-- The six ports in order (R60). -/
def ports : List Dir := [.xm, .xp, .ym, .yp, .zm, .zp]
/-- Number of a port. -/
def portNo : Dir → Nat
  | .xm => 0 | .xp => 1 | .ym => 2 | .yp => 3 | .zm => 4 | .zp => 5
/-- The port of a number. -/
def portOf (n : Nat) : Dir := ports.getD n .xm
/-- The opposite port. -/
def opposite (d : Dir) : Dir := portOf (portNo d ^^^ 1)
/-- Ticks of a hop (R396). -/
def hopTime : Dir → Nat
  | .zm | .zp => 1
  | .xm | .xp | .ym | .yp => 2
/-- Flits that a link carries per tick (R396). -/
def linkRate : Dir → Nat
  | .zm | .zp => 4
  | .xm | .xp | .ym | .yp => 1
/-- Axes of an order code: 0 x, 1 y, 2 z (R403). -/
def axesOf (code : Nat) : List Nat :=
  match code with
  | 0 => [0, 1, 2] | 1 => [0, 2, 1] | 2 => [1, 0, 2] | 3 => [1, 2, 0] | 4 => [2, 0, 1] | _ => [2, 1, 0]
/-- Coordinate of a tile on an axis. -/
def coord (t axis : Nat) : Nat :=
  match axis with
  | 0 => tileX t
  | 1 => tileY t
  | _ => tileZ t
/-- Direction and hops from one tile to another along an axis: the shorter way round, and a half turn goes toward +
(R395). -/
def axisHops (a b axis : Nat) : Dir × Nat :=
  let d := (coord b axis + 16 - coord a axis) % 16
  if d ≤ 8 then (portOf (2 * axis + 1), d) else (portOf (2 * axis), 16 - d)

/-! ### What is out of service (R92, R93) -/

/-- Whether a tile is harvested (R93, R94). -/
def State.harvested (s : State) (t : Nat) : Bool := (Tbl.get 0 s.hv (t / 64)).getLsbD (t % 64)
/-- The bond group of the link that a z hop crosses: z is its lower layer (R92). -/
def bondOf (t : Nat) (d : Dir) : Nat :=
  let z := if d == .zm then tileZ (neighbour t d) else tileZ t
  z * 64 + tileY t / 2 * 8 + tileX t / 2
/-- Whether no packet can take a hop: it leaves or enters a harvested tile's router, or crosses a bond group that is out of
service (R92, R93). -/
def State.hopOut (s : State) (t : Nat) (d : Dir) : Bool :=
  s.harvested t || s.harvested (neighbour t d) ||
    (hopTime d == 1 && (let b := bondOf t d; (Tbl.get 0 s.bg (b / 64)).getLsbD (b % 64)))

/-! ### Fault-region tables (R95, R96) -/

/-- Whether an entry blocks the hop from a tile in a direction. -/
def fltBlocks (e : Word) (t : Nat) (d : Dir) : Bool :=
  let f (lo w : Nat) : Nat := (e.extractLsb' lo w).toNat
  let inX (u : Nat) : Bool := f 0 4 ≤ tileX u && tileX u < f 0 4 + f 32 5
  let inY (u : Nat) : Bool := f 4 4 ≤ tileY u && tileY u < f 4 4 + f 37 5
  let u := neighbour t d
  e.getLsbD 63 &&
    (if !e.getLsbD 62 then inX u && inY u && f 8 4 ≤ tileZ u && tileZ u < f 8 4 + f 42 5
     else match d with
       | .zp => inX t && inY t && tileZ t == f 8 4
       | .zm => inX t && inY t && tileZ u == f 8 4
       | .xm | .xp | .ym | .yp => false)
/-- Whether the management controller may write an entry into a tile's table: esc 6 and 7 are never written, a box never
wraps, one of kind 1 has ez 1 (R95), and esc does not lie on the axis of a hop that the entry detours (R97). -/
def fltLegal (t : Nat) (e : Word) : Bool :=
  let f (lo w : Nat) : Nat := (e.extractLsb' lo w).toNat
  f 59 3 < 6 && (!e.getLsbD 63 || 1 ≤ f 55 4 && f 0 4 + f 32 5 ≤ 16 && f 4 4 + f 37 5 ≤ 16 &&
    (if e.getLsbD 62 then f 42 5 == 1 else f 8 4 + f 42 5 ≤ 16) &&
    ports.all fun d => !fltBlocks e t d || portNo d / 2 != f 59 3 / 2)
/-- The first entry of a router that blocks a hop. -/
def State.blocker (s : State) (t : Nat) (d : Dir) : Option Word :=
  (((List.range 8).map fun i => Tbl.get 0 (s.core t).flt i)).find? fun e => fltBlocks e t d

/-- A route in the making: where it stands, its hops so far (last first), a router that found a hop of a detour blocked,
and whether the packet has been on a detour. -/
structure Route where
  at_ : Nat
  hops : List (Nat × Dir) := []
  bad : Option Nat := none
  det : Bool := false
  /-- it has met a second detour; and the hops that it had made when it met the first (R97, R400) -/
  twice : Bool := false
  before : Nat := 0
deriving DecidableEq, Repr

/-- One hop. -/
def Route.hop (r : Route) (d : Dir) : Route := { r with at_ := neighbour r.at_ d, hops := (r.at_, d) :: r.hops }
/-- A detour begins. -/
def Route.onDetour (r : Route) : Route :=
  { r with det := true, twice := r.twice || r.det, before := if r.det then r.before else r.hops.length }
/-- Hops of a detour, on which every hop is still checked (R96, R97). -/
def State.detour (s : State) (d : Dir) : Nat → Route → Route
  | 0, r => r
  | n + 1, r =>
    if r.bad.isSome then r
    else if (s.blocker r.at_ d).isSome || s.hopOut r.at_ d then { r with bad := some r.at_ }
    else s.detour d n (r.hop d)
/-- The hops of one axis, with a detour where a hop is blocked (R96). A hop that is out of service and that no entry
blocks cannot be taken either: its router counts as failed, as one that finds a hop of a detour blocked (DEDUCED, assumption
64). -/
def State.axisRun (s : State) (d : Dir) : Nat → Route → Route
  | 0, r => r
  | n + 1, r =>
    if r.bad.isSome then r
    else match s.blocker r.at_ d with
      | none => if s.hopOut r.at_ d then { r with bad := some r.at_ } else s.axisRun d n (r.hop d)
      | some e =>
        let esc := portOf (e.extractLsb' 59 3).toNat
        let dist := (e.extractLsb' 55 4).toNat
        s.detour (opposite esc) dist (s.detour d (n + 1) (s.detour esc dist r.onDetour))
/-- The route between two tiles in an order (R395, R96). -/
def State.route (s : State) (order a b : Nat) : Route :=
  (axesOf order).foldl (fun r axis => s.axisRun (axisHops r.at_ b axis).1 (axisHops r.at_ b axis).2 r) { at_ := a }

/-! ### What tables the management controller writes (R97, R400) -/

/-- The channels of the detour plane that a route takes, in order: tile, port and virtual channel, which is 1 from the hop that
crosses an axis's dateline on, until the next axis (R399). -/
def Route.detourChannels (r : Route) : List Nat :=
  let wraps (h : Nat × Dir) : Bool :=
    let a := portNo h.2 / 2
    (coord h.1 a == 15 && coord (neighbour h.1 h.2) a == 0) || (coord h.1 a == 0 && coord (neighbour h.1 h.2) a == 15)
  let step (x : List Nat × Nat × Nat) (h : Nat × Dir) : List Nat × Nat × Nat :=
    let a := portNo h.2 / 2
    let vc := if wraps h then 1 else if x.2.1 == a then x.2.2 else 0
    (x.1 ++ [(h.1 * 8 + portNo h.2) * 2 + vc], a, vc)
  let all := (r.hops.reverse.foldl step ([], 3, 0)).1
  if r.det then all.drop r.before else []

/-- Whether a graph, by its edges, has no cycle: edges that nothing leads to are taken off until none is left. -/
def acyclic : Nat → List (Nat × Nat) → Bool
  | 0, es => es.isEmpty
  | n + 1, es =>
    let es' := es.filter fun e => es.any fun f => f.2 == e.1
    es.isEmpty || (es'.length != es.length && acyclic n es')

/-- Whether the fault-region tables as they stand are such as the management controller writes: every entry is legal; between
usable tiles, in every order, no route meets a second detour, and none has a hop that it cannot take; and the channels of the
detour plane depend on one another without a cycle (R97, R400). -/
def State.tablesOk (s : State) : Bool :=
  let ts := (List.range 4096).filter fun t => !s.harvested t
  let routes := ts.flatMap fun a => ts.flatMap fun b => (List.range 6).map fun o => s.route o a b
  let edges := (routes.flatMap fun r => r.detourChannels.zip (r.detourChannels.drop 1)).eraseDups
  (ts.all fun t => (List.range 8).all fun i => fltLegal t (Tbl.get 0 (s.core t).flt i)) &&
    (routes.all fun r => r.bad.isNone && !r.twice) && acyclic edges.length edges

/-- The harvest map with tiles added to it. -/
def harvestMore (hv : Tbl Word) (ts : List Nat) : Tbl Word :=
  ts.foldl (fun h t => if t < 4096 then Tbl.set 0 h (t / 64) (Tbl.get 0 h (t / 64) ||| (1 <<< (t % 64))) else h) hv
/-- Every router's table rewritten (R95). -/
def State.putTables (s : State) (f : Nat → Nat → Word) : State :=
  (List.range 4096).foldl (fun s t =>
    let k := s.core t
    s.setCore t { k with flt := (List.range 8).foldl (fun b i => Tbl.set 0 b i (f t i &&& 0xFF807FFF00000FFF)) [] }) s

/-! ### Times (R396, R397, R421) -/

/-- Sum of the hop times. -/
def Route.time (r : Route) : Nat := r.hops.foldl (fun n h => n + hopTime h.2) 0
/-- Flits per tick of a route: 1 when it holds a lateral hop, else 4. -/
def Route.rate (r : Route) : Nat := if r.hops.any fun h => linkRate h.2 == 1 then 1 else 4
/-- Flits of a packet with a payload (R396). -/
def flits (n : Nat) : Nat := 1 + (n + 31) / 32
/-- Ticks from issue to the tick at whose end the last flit lands, with no contention (R397). -/
def Route.latency (r : Route) (n : Nat) : Nat := 1 + r.time + (flits n + r.rate - 1) / r.rate
/-- Cost of a tree edge for a payload (R421), with the detour of a blocked hop (R96); or the router that it fails in. -/
def State.edgeCost (s : State) (t : Nat) (d : Dir) (n : Nat) : Except Nat Nat :=
  let r := s.axisRun d 1 { at_ := t }
  match r.bad with
  | some x => .error x
  | none => .ok (r.time + (flits n + r.rate - 1) / r.rate)

/-! ### Zheost (R424) -/

/-- Zheost ports (R424). -/
def zheostPorts : Nat := 16
/-- The port that packets take whose choice is a number: that port, or the next one upward that is up; none while every port
is down (R424). -/
def State.zheostPort (s : State) (n : Nat) : Option Nat :=
  ((List.range zheostPorts).map fun i => (n + i) % zheostPorts).find? fun p => !s.dv.portsDown.contains p

/-! ### Packets of every class (R89, R394 to R398) -/

/-- The layer-0 tile whose network interface carries a tile's attach port (R89). -/
def attachOf (t : Nat) : Nat := tileOf (tileX t / 2 * 2 + 1) (tileY t / 2 * 2 + 1) 0
/-- The router by which an attach port is reached, and the hop from there to it: its own tile's, or, where that tile is
harvested, the first of its four neighbours in x and y that is not, one hop away (R89, R93; which of the four is a DESIGN
CHOICE, assumption 81). -/
def State.doorOf (s : State) (t : Nat) : Nat × Option Dir :=
  let a := attachOf t
  if !s.harvested a then (a, none)
  else match [Dir.xm, .xp, .ym, .yp].find? fun d => !s.harvested (neighbour a d) with
    | some d => (neighbour a d, some (opposite d))
    | none => (a, none)

/-- The dimension order of a class; classes 4, 6 and 7 are not set by clsord (R394, R398). -/
def Ctx.orderOf (c : Ctx) (cls : Nat) : Nat := Tbl.get 0 c.orders cls

/-- One packet: its dimension order, its ends, where none is the base die behind the other end's attach port, and its
payload in bytes. -/
structure Leg where
  order : Nat
  src : Option Nat
  dst : Option Nat
  bytes : Nat := 0

/-- A packet of a class that a strand's context sends. -/
def Ctx.leg (c : Ctx) (cls : Nat) (src dst : Option Nat) (bytes : Nat := 0) : Leg :=
  { order := c.orderOf cls, src := src, dst := dst, bytes := bytes }

/-- The route of a packet (R89, R395, R396). -/
def State.legRoute (s : State) (g : Leg) : Route :=
  match g.src, g.dst with
  | some a, some b => s.route g.order a b
  | some a, none =>
    let (t, d) := s.doorOf a
    match d with
    | some d => (s.route g.order a t).hop d
    | none => s.route g.order a t
  | none, some b =>
    let (t, d) := s.doorOf b
    let r := s.route g.order t b
    match d with
    | some d => { r with hops := r.hops ++ [(neighbour t d, opposite d)] }
    | none => r
  | none, none => { at_ := 0 }

/-- Ticks that packets take one after another with no contention (R397), or the router that one of them fails in. -/
def State.legTime (s : State) (legs : List Leg) : Except Nat Nat :=
  legs.foldl (fun x g =>
    match x with
    | .error t => .error t
    | .ok n =>
      let r := s.legRoute g
      match r.bad with
      | some t => .error t
      | none => .ok (n + r.latency g.bytes)) (.ok 0)

/-- Packets of a partition: the event comes once the last has arrived, after the time of their routes and a free delay for
what they meet on their way; where a hop of a detour is blocked, the router fails (R96, R97). -/
def State.packet (s : State) (p : Nat) (legs : List Leg) (ev : Ev) : State :=
  match s.legTime legs with
  | .error t => s.schedIn 1 (.detourBlocked t p)
  | .ok n => s.schedFree n ev

/-! ### The timed plane (R402, R406) -/

/-- Key of a link and a tick. -/
def linkKey (n : Nat) (h : Nat × Dir) : Nat := n * 32768 + h.1 * 8 + portNo h.2
/-- The first tick, from one on, on which a link still has room for a flit. -/
def linkFree (ls : Tbl Nat) (h : Nat × Dir) : Nat → Nat → Nat
  | 0, n => n
  | fuel + 1, n => if Tbl.get 0 ls (linkKey n h) < linkRate h.2 then n else linkFree ls h fuel (n + 1)
/-- One flit takes its links one after another: the tick on which it has arrived, and the links as they then stand. -/
def flitRun (ls : Tbl Nat) : Nat → List (Nat × Dir) → Nat × Tbl Nat
  | n, [] => (n, ls)
  | n, h :: r =>
    let u := linkFree ls h 4096 n
    let k := linkKey u h
    flitRun (Tbl.put ls k (Tbl.get 0 ls k + 1)) (u + hopTime h.2) r
/-- Whether a timed packet goes before another: class 2 before class 3, then the one injected earlier, then the lower source
tile (R402, R406). R402 ranks the classes and R406 the packets: here R406 ranks those of one class (DEDUCED, assumption 36). -/
def Flight.before (a b : Flight) : Bool :=
  if a.c3 != b.c3 then b.c3 else a.inj < b.inj || (a.inj == b.inj && a.src ≤ b.src)
/-- The timed packets as their flits take the links, one after another: with the ticks on which each one's header arrives and its
last flit lands. -/
def flightTimes (fs : List Flight) : List (Flight × Nat × Nat) :=
  ((sortBy Flight.before fs).foldl (fun (acc : Tbl Nat × List (Flight × Nat × Nat)) f =>
    let run := (List.range f.n).foldl (fun (x : Tbl Nat × List Nat) i =>
      let y := flitRun x.1 (f.inj + 1 + i / 4) f.hops
      (y.2, x.2 ++ [y.1])) (acc.1, [])
    let (h, l) := (run.2.headD (f.inj + 1), run.2.getLastD (f.inj + 1))
    (run.1, acc.2 ++ [({ f with land := l }, h, l)])) ([], [])).2

/-- A timed packet is injected on the next tick: those on their way give way to it, or it to them, and each event of theirs
stands at its tick; with the packet's own times (R402, R406). -/
def State.timedRun (s : State) (c3 : Bool) (r : Route) (n : Nat) : State × Nat × Nat :=
  let me : Flight := { c3 := c3, inj := s.tick + 1, src := s.me, hops := r.hops.reverse, n := flits n, land := s.tick + 2 }
  let xs := flightTimes (s.flights ++ [me])
  -- a flight stays listed until all those that met it have landed
  let first := (xs.filter fun x => s.tick ≤ x.2.2).foldl (fun m x => min m x.1.inj) (s.tick + 1)
  let times (p : TPkt) : TPkt := match xs.find? fun x => x.1.inj == p.inj && x.1.src == p.src with
    | some x => { p with head := x.2.1, land := x.2.2 }
    | none => p
  let mine (e : Ev) : Bool := match e with
    | .timedPacketArrival _ => true
    | _ => false
  let moved := (s.agenda.filter fun e => mine e.2).map fun e => match e.2 with
    | .timedPacketArrival p =>
      (if p.stage = 0 then e.1 else if p.stage = 1 then (times p).head else (times p).land, Ev.timedPacketArrival (times p))
    | e' => (e.1, e')
  let listed : List Flight := (xs.filter fun (x : Flight × Nat × Nat) => first ≤ x.2.2).map fun (x : Flight × Nat × Nat) => x.1
  let s := { s with flights := listed }
  let s := moved.foldl (fun (s : State) e => s.sched e.1 e.2) (s.unsched mine)
  let own := xs.find? fun x => x.1.inj == me.inj && x.1.src == me.src
  (s, (own.map fun x => x.2.1).getD (s.tick + 2), (own.map fun x => x.2.2).getD (s.tick + 2))

end Sys2Proof.Machine
end

