-- ==== Sys2Proof/Machine/Home.lean ====
section
/-! DEFINITION. Shared memory: the physical space (R289), home slices, their tags and stamps (R90 to R93, R294 to R297),
DRAM sensors (R308), address translation (R303 to R305), and the two buffers of a strand (R299 to R302, R435). -/

namespace Sys2Proof.Machine

/-! ### The physical space -/

/-- The ranges of the physical space (R289). -/
inductive Space where
  | vault | hbm | peer | host | hole
deriving DecidableEq, Repr

/-- The range that an address lies in. -/
def spaceOf (pa : Nat) : Space :=
  if pa < 2 ^ 37 then .vault
  else if 2 ^ 40 ≤ pa ∧ pa < 2 ^ 41 then .hbm
  else if 2 ^ 46 ≤ pa ∧ pa < 2 ^ 47 then .peer
  else if 2 ^ 47 ≤ pa ∧ pa < 2 ^ 48 then .host
  else .hole

/-- Whether an address has a home slice on this device. -/
def isHome (pa : Nat) : Bool := spaceOf pa == .vault || spaceOf pa == .hbm

/-- Tile of a slice (R90). -/
def sliceTile (n : Nat) : Nat := tileOf (2 * (n % 8) + (n / 8 % 16 + n / 128) % 2) (n / 8 % 16) (n / 128)

/-- The slice tile in use: the next one upward in the column that is not harvested (R93). -/
def State.liveSlice (s : State) : Nat → Nat → Nat
  | 0, t => t
  | fuel + 1, t => if s.harvested t then s.liveSlice fuel (tileOf (tileX t) (tileY t) ((tileZ t + 2) % 16)) else t

/-- Tile of the home slice of a vault or HBM address (R91, R93, R295). -/
def State.homeTile (s : State) (pa : Nat) : Nat :=
  let t :=
    if spaceOf pa == .vault then
      let v := pa / 2 ^ 29
      let line := pa % 2 ^ 29 / 128
      let h := (line % 8) ^^^ (line / 8 % 8) ^^^ (line / 64 % 8)
      tileOf (v % 16) (v / 16) (2 * h + (v % 16 + v / 16) % 2)
    else
      let line := (pa - 2 ^ 40) / 128
      sliceTile ((line % 2048) ^^^ (line / 2048 % 2048) ^^^ (line / 2 ^ 22 % 2048))
  s.liveSlice 8 t
/-- Home slice of an address, by its number (R90). -/
def State.homeSlice (s : State) (pa : Nat) : Nat := s.homeTile pa / 2
/-- Where an access to an address goes: the tile of its home slice, or by the attach port to the host or a peer (R89). -/
def State.endOf (s : State) (pa : Nat) : Option Nat := if isHome pa then some (s.homeTile pa) else none

/-- DRAM sensor of an address: HBM stack 0 to 15, or 16 plus the vault group (R295, R308). -/
def dtIndex (pa : Nat) : Nat :=
  if spaceOf pa == .vault then
    let v := pa / 2 ^ 29
    16 + v % 16 / 4 + 4 * (v / 16 / 4)
  else
    let h := pa - 2 ^ 40
    (h / 4096 % 16) ^^^ (h / 65536 % 16)

/-- The verified image cache: 256 MiB of HBM that no partition and no host access reaches (R83, R289). Where it lies is a
DESIGN CHOICE (assumption 38). -/
def inImageCache (pa : Nat) : Bool := 0x1FFE0000000 ≤ pa && pa < 0x1FFF0000000

/-- Whether the stack or vault group of an address is BLOCKED (R308). -/
def State.dramBlocked (s : State) (pa : Nat) : Bool := (Tbl.get {} s.dts (dtIndex pa)).st == 3

/-! ### Slice tags (R296) -/

/-- Points the replacement tree away from a way. -/
def plruTouch (w : Nat) : Nat → Nat → BitVec 15 → BitVec 15
  | 0, _, b => b
  | lvl + 1, node, b =>
    let bit := w / 2 ^ lvl % 2
    let one : BitVec 15 := 1 <<< node
    plruTouch w lvl (2 * node + 1 + bit) (if bit = 0 then b ||| one else b &&& ~~~ one)

/-- The way that the replacement tree points to. -/
def plruVictim (b : BitVec 15) : Nat → Nat → Nat
  | 0, _ => 0
  | lvl + 1, node =>
    let bit := if b.getLsbD node then 1 else 0
    bit * 2 ^ lvl + plruVictim b lvl (2 * node + 1 + bit)

/-- Key of the set of a line. -/
def State.setKey (s : State) (pa : Nat) : Nat := s.homeSlice pa * 1024 + pa / 128 % 1024

/-- Whether the home slice holds the line. -/
def State.sliceHit (s : State) (pa : Nat) : Bool :=
  (Tbl.get {} s.slices (s.setKey pa)).ways.any fun e => e.2 == pa / 128

/-- The line is in its slice after an access: touched, or installed in a free way or the tree's victim. -/
def State.sliceTouch (s : State) (pa : Nat) : State :=
  let k := s.setKey pa
  let set := Tbl.get {} s.slices k
  let line := pa / 128
  let w := match set.ways.find? fun e => e.2 == line with
    | some e => e.1
    | none => match (List.range 16).find? fun w => !Tbl.has set.ways w with
      | some w => w
      | none => plruVictim set.plru 4 0
  { s with slices := Tbl.put s.slices k { ways := Tbl.put set.ways w line, plru := plruTouch w 4 0 set.plru } }

/-- Whether a request waits in a slice for a line (R296). -/
def State.lineWaits (s : State) (pa : Nat) : Bool := s.missQ.any fun r => r.pa / 128 == pa / 128

/-- Whether an access must wait: earlier ones wait in the slice for its line (R294), or it misses to a BLOCKED stack or
group (R308). -/
def State.mustWait (s : State) (pa : Nat) : Bool :=
  isHome pa && (s.lineWaits pa || (!s.sliceHit pa && s.dramBlocked pa))

/-! ### Reading and writing at a home -/

/-- Whether a byte range of one line is poisoned (R311). -/
def State.linePoison (s : State) (pa : Nat) : Bool := s.poison.contains (pa / 128)

/-- The next stamp of the home slice of an address (R297). -/
def State.stamp (s : State) (pa : Nat) : State × Nat × Nat :=
  let sl := s.homeSlice pa
  let v := (Tbl.get 0 s.seqs sl + 1) % 2 ^ 32
  ({ s with seqs := Tbl.set 0 s.seqs sl v }, sl, v)

/-- Writes bytes of one line: a whole line clears its poison, and poisoned data sets it (R311). -/
def State.lineWrite (s : State) (bs : List (Nat × Byte)) (pz : Bool) : State :=
  match bs with
  | [] => s
  | b :: _ =>
    let line := b.1 / 128
    let whole := (List.range 128).all fun i => bs.any fun x => x.1 == 128 * line + i
    let keep := if whole then s.poison.filter (· != line) else s.poison
    { s with mem := Mem.setMany s.mem bs, poison := if pz && !keep.contains line then line :: keep else keep }

/-- A stamped write of bytes of one line by an engine, the host or a publication. -/
def State.homeWrite (s : State) (bs : List (Nat × Byte)) (pz : Bool) : State :=
  match bs with
  | [] => s
  | b :: _ => ((s.stamp b.1).1.lineWrite bs pz).sliceTouch b.1

/-- A write of the device's own, to bytes of one line: where requests wait for the line, or it misses to a BLOCKED stack or group,
it waits behind them (R294, R308, R428). -/
def State.devWrite (s : State) (bs : List (Nat × Byte)) : State :=
  match bs with
  | [] => s
  | b :: _ =>
    if s.mustWait b.1 then
      { s with missQ := s.missQ ++ [{ loc := ⟨0, 64⟩, tok := none, va := 0, pa := b.1, op := .write bs 0, pc := 0, agent := some 0 }] }
    else s.homeWrite bs false
/-- Bytes as the device itself reads them: after its own writes that wait. -/
def State.devBytes (s : State) (a n : Nat) : List Byte :=
  let wait (x : Nat × Byte) (q : HomeReq) : Nat × Byte := match q.op with
    | .write bs _ => if q.agent.isSome then (x.1, ((bs.find? fun b => b.1 == x.1).map (·.2)).getD x.2) else x
    | _ => x
  (addrBytes a (s.mem.bytes a n)).map fun x => (s.missQ.foldl wait x).2

/-- The device's translation cache after an access to host memory: it holds the page, and 256 pages at most (R66). Every
host address that the device is given is physical (R69, R289), so the cache decides no address. -/
def atcUse (t : List Nat) (pa : Nat) : List Nat :=
  let n := (pa - 2 ^ 47) / 4096
  if pa < 2 ^ 47 || t.contains n then t else (n :: t).take 256

/-- Bytes of host or peer memory, which are not the device's: free values (assumption 12). -/
def State.outsideRead (s : State) (pa n : Nat) : State × List Byte :=
  ({ s with fresh := s.fresh + 1, atc := atcUse s.atc pa }, (List.range n).map fun i => Config.outsideByte (pa + i) s.fresh)

/-- A posted write to host or peer memory. -/
def State.outsideWrite (s : State) (bs : List (Nat × Byte)) : State :=
  { s with
    outside := bs.foldl (fun t b => Tbl.put t b.1 b.2) s.outside
    atc := bs.foldl (fun t b => atcUse t b.1) s.atc }

/-- Bytes at a physical address, wherever they lie, and whether their line is poisoned. -/
def State.physRead (s : State) (pa n : Nat) : State × List Byte × Bool :=
  if isHome pa then (s.sliceTouch pa, s.mem.bytes pa n, s.linePoison pa)
  else ((s.outsideRead pa n).1, (s.outsideRead pa n).2, false)

/-- A write of bytes of one line, wherever it lies. -/
def State.physWrite (s : State) (bs : List (Nat × Byte)) (pz : Bool) : State :=
  match bs with
  | [] => s
  | b :: _ => if isHome b.1 then s.homeWrite bs pz else s.outsideWrite bs

/-! ### Translation (R303 to R305) -/

/-- Access kinds of the detail word (R305). -/
def accRead : Nat := 0
def accBuf : Nat := 1
def accHomeRead : Nat := 2
def accHomeWrite : Nat := 3
def accUpd : Nat := 4

/-- Lowest address bit that a level of the walk indexes. -/
def lvlShift : Nat → Nat
  | 0 => 48 | 1 => 39 | 2 => 30 | 3 => 21 | _ => 16
/-- Entries of a table of a level. -/
def lvlEntries : Nat → Nat
  | 0 => 256 | 4 => 32 | _ => 512
/-- The level at which an entry of a size stands. -/
def sizeLvl (size : Nat) : Nat :=
  if size = 2 ^ 48 then 0 else if size = 2 ^ 39 then 1 else if size = 2 ^ 30 then 2 else if size = 2 ^ 21 then 3 else 4

/-- The detail word of TRANSLATION and PROTECTION (R305). -/
def xlDetail (cause lvl acc va : Nat) : Nat := cause * 2 ^ 62 + lvl * 2 ^ 59 + acc * 2 ^ 56 + va % 2 ^ 56

/-- Outcome of a walk. -/
inductive Walked where
  | ok (e : TlbEnt)
  | bad (cause lvl : Nat)
deriving DecidableEq, Repr

/-- Whether an entry read at a level is malformed (R303). -/
def malformed (lvl e : Nat) : Bool :=
  let leaf := e / 2 % 2 = 1
  let addr := e % 2 ^ 48 / 256 * 256
  e / 8 % 32 != 0 || e / 2 ^ 48 != 0 ||
  (if leaf then lvl < 2 || addr % 2 ^ lvlShift lvl != 0 || spaceOf addr == .hole
   else lvl == 4 || addr % (if lvl == 3 then 256 else 4096) != 0)

/-- A table's entry as a walk reads it; what lies outside vault and HBM memory is not the device's (assumption 12). -/
def State.entryAt (s : State) (a : Nat) : Nat :=
  if isHome a then s.mem.nat a 8 else leNat ((List.range 8).map fun i => Config.outsideByte (a + i) s.fresh)

/-- Walks from a table of a level down; lists the non-leaf entries that it found. -/
def State.walkFrom (s : State) (p va : Nat) : Nat → Nat → Nat → Walked × List TlbEnt
  | 0, lvl, _ => (.bad 1 lvl, [])
  | fuel + 1, lvl, table =>
    let size := 2 ^ lvlShift lvl
    let e := s.entryAt (table + 8 * (va / size % lvlEntries lvl))
    let addr := e % 2 ^ 48 / 256 * 256
    let ent : TlbEnt := { part := p, va := va / size * size, size := size, pa := addr, w := e / 4 % 2 = 1 }
    if e % 2 = 0 then (.bad 0 lvl, [])
    else if malformed lvl e then (.bad 1 lvl, [])
    else if e / 2 % 2 = 1 then (.ok ent, [])
    else
      let (r, es) := s.walkFrom p va fuel (lvl + 1) addr
      (r, ent :: es)

/-- Whether a cached entry covers an address of a partition. -/
def TlbEnt.covers (e : TlbEnt) (p va : Nat) : Bool := e.part == p && e.va ≤ va && va < e.va + e.size

/-- Keeps at most `n` entries, the youngest ones (assumption 7). -/
def keepLast (n : Nat) (es : List TlbEnt) : List TlbEnt := es.drop (es.length - n)

/-- The set of the gang's TLB that an entry stands in: 128 sets of 8 ways (R304, assumption 7). -/
def TlbEnt.set (e : TlbEnt) : Nat := e.va / 65536 % 128
/-- The gang's TLB with an entry more; a full set drops its oldest one. -/
def gangTlbPut (es : List TlbEnt) (e : TlbEnt) : List TlbEnt :=
  match es.filter fun x => x.set == e.set with
  | [] => es ++ [e]
  | old :: rest => (if rest.length < 7 then es else es.erase old) ++ [e]

/-- Where a walk begins: the deepest cached non-leaf entry, or the root (R303, R304). -/
def State.walkTop (s : State) (p va : Nat) : Nat × Nat :=
  let best := (s.wcache.filter (·.covers p va)).foldl (fun (b : Option TlbEnt) e =>
    match b with
    | some x => if e.size < x.size then some e else b
    | none => some e) none
  match best with
  | some e => (sizeLvl e.size + 1, e.pa)
  | none => (0, (Tbl.get {} s.ptroots p).root * 2048)

/-- Addresses of the entries that a walk reads, each at its home slice (R304). -/
def State.walkReads (s : State) (p va : Nat) : List Nat :=
  let top := s.walkTop p va
  let tables := top.2 :: (s.walkFrom p va 5 top.1 top.2).2.map (·.pa)
  ((List.range tables.length).zip tables).map fun x =>
    x.2 + 8 * (va / 2 ^ lvlShift (top.1 + x.1) % lvlEntries (top.1 + x.1))

/-- A walk (R303, R304): the entries are read through their home slices, which hold vault and HBM lines alone (R296), and a valid
result is cached. -/
def State.walk (s : State) (l : Loc) (va : Nat) : State × Walked :=
  if !(Tbl.get {} s.ptroots l.part).en then (s, .bad 0 0)
  else
    let top := s.walkTop l.part va
    let (r, es) := s.walkFrom l.part va 5 top.1 top.2
    let as := s.walkReads l.part va
    let s := (as.filter isHome).foldl State.sliceTouch (if as.all isHome then s else { s with fresh := s.fresh + 1 })
    match r with
    | .bad c v => (s, .bad c v)
    | .ok e =>
      let s := { s with wcache := keepLast 4096 (s.wcache ++ es) }
      let s := s.updGang (gangOf l.tile) fun g => { g with tlb := gangTlbPut g.tlb e }
      let k := s.core l.tile
      (s.setCore l.tile { k with tlb := keepLast 64 (k.tlb ++ [e]) }, .ok e)

/-- The translation in hand: the tile's micro-TLB, then the gang's TLB (R304); none while the partition has no tables (R303). -/
def State.tlbFind (s : State) (l : Loc) (va : Nat) : Option TlbEnt :=
  if !(Tbl.get {} s.ptroots l.part).en then none
  else match (s.core l.tile).tlb.find? (·.covers l.part va) with
  | some e => some e
  | none => (s.gang (gangOf l.tile)).tlb.find? (·.covers l.part va)

/-- Whether a tile lies in a strand's instance of a scope. -/
def State.sameInst (s : State) (sc : Scope) (l : Loc) (t : Nat) : Bool :=
  match sc with
  | .region => (s.region (s.ctx l).region).eff.inBox t
  | sc => scopeInst sc 0 l.tile == scopeInst sc 0 t

/-- Whether a tile's gang has a tile in that instance, whose gang TLB the scope then takes in (R470). -/
def State.gangInst (s : State) (sc : Scope) (l : Loc) (t : Nat) : Bool :=
  (List.range 16).any fun x => s.sameInst sc l (gangOf t * 16 + x)

/-- Whether a shootdown is in progress that takes in a tile and an address: no translation of it is made until the shootdown
completes, which then waits for the accesses of the older ones alone (R306). -/
def State.shooting (s : State) (l : Loc) (va : Nat) : Bool :=
  s.agenda.any fun e => match e.2 with
    | .shootdownComplete m _ _ sc lo hi => m.part == l.part && lo ≤ va && va < hi && s.gangInst sc m l.tile
    | _ => false

/-- Whether a translation must wait: it needs a walk, and an entry of it waits at its home (R294, R304, R308), or its range is being
shot down (R306). -/
def State.xlWaits (s : State) (l : Loc) (va : Nat) : Bool :=
  va < 2 ^ 56 && (s.tlbFind l va).isNone && (Tbl.get {} s.ptroots l.part).en &&
    (s.shooting l va || (s.walkReads l.part va).any s.mustWait)

/-- The access check of a translation: a trap code and detail, or the physical address (R305). -/
def TlbEnt.check (e : TlbEnt) (va acc : Nat) : Except (Nat × Nat) Nat :=
  let pa := e.pa + va % e.size
  let lvl := sizeLvl e.size
  if (acc == accBuf || acc == accHomeWrite || acc == accUpd) && !e.w then .error (cProtection, xlDetail 2 lvl acc va)
  else if spaceOf pa == .host && 2 ≤ acc then .error (cProtection, xlDetail 3 lvl acc va)
  else .ok pa

/-- The peer window of an address of the peer range (R289, R425). -/
def winOf (pa : Nat) : Nat := (pa - 2 ^ 46) / 2 ^ 38

/-- The check of R305 with the peer windows: a window that is not valid fails as a malformed leaf (R425). -/
def State.checkEnt (s : State) (e : TlbEnt) (va acc : Nat) : Except (Nat × Nat) Nat :=
  let pa := e.pa + va % e.size
  if spaceOf pa == .peer && !(Tbl.get 0 s.dv.pwin (winOf pa)).getLsbD 63 then
    .error (cTranslation, xlDetail 1 (sizeLvl e.size) acc va)
  else e.check va acc

/-- What a walk's outcome means for an access. -/
def State.checkWalk (s : State) (w : Walked) (va acc : Nat) : Except (Nat × Nat) Nat :=
  match w with
  | .ok e => s.checkEnt e va acc
  | .bad cause lvl => .error (cTranslation, xlDetail cause lvl acc va)

/-- The translation that an engine makes: the walk takes no time of its own. -/
def State.xlate (s : State) (l : Loc) (va acc : Nat) : State × Except (Nat × Nat) Nat :=
  if 2 ^ 56 ≤ va then (s, .error (cProtection, xlDetail 3 0 acc va))
  else match s.tlbFind l va with
    | some e => (s, s.checkEnt e va acc)
    | none => ((s.walk l va).1, s.checkWalk (s.walk l va).2 va acc)

/-- The translation of a word: it issues only once it is in hand, and stalls while a walk is made (R305). -/
def translate (s : State) (va acc : Nat) (k : Nat → Out) : Out :=
  let l := s.here
  if 2 ^ 56 ≤ va then trapO s cProtection (xlDetail 3 0 acc va)
  else match s.tlbFind l va with
    | some e => match s.checkEnt e va acc with
      | .ok pa => k pa
      | .error x => trapO s x.1 x.2
    | none =>
      if !(Tbl.get {} s.ptroots l.part).en then trapO s cTranslation (xlDetail 0 0 acc va)
      else match s.c.walk with
        | some (a, some x) =>
          if a == va then trapO (s.updC fun c => { c with walk := none }) x.1 x.2
          else .next (startWalk s l)
        | some (a, none) => if a == va then .next s.stall else .next (startWalk s l)
        | none => .next (startWalk s l)
where
  /-- Starts a walk, whose time is not fixed, and stalls the word: the request goes to the walkers behind the tile's attach port,
  each entry is read at its home slice, and the answer comes back (R89, R304). -/
  startWalk (s : State) (l : Loc) : State :=
    let read (a : Nat) : List Leg :=
      if isHome a then [{ order := 0, src := none, dst := some (s.homeTile a) }, { order := 0, src := some (s.homeTile a), dst := none, bytes := 8 }]
      else []
    ((s.updC fun c => { c with walk := some (va, none) }).packet l.part
      (s.c.leg 0 (some l.tile) none :: (s.walkReads l.part va).flatMap read ++ [s.c.leg 1 none (some l.tile) 8])
      (.translationWalk l va acc)).stall

/-! ### The write-set and update buffers (R299 to R302) -/

/-- Merges bytes of one line into the write-set; none when a new entry finds all 512 in use (R299). -/
def Ctx.wsStore (c : Ctx) (line : Nat) (bs : List (Nat × Byte)) : Option Ctx :=
  if c.ws.any fun e => e.line == line then
    some { c with ws := c.ws.map fun e =>
      if e.line == line then { e with bytes := bs.foldl (fun t b => Tbl.put t b.1 b.2) e.bytes } else e }
  else if 512 ≤ c.ws.length then none
  else some { c with ws := c.ws ++ [{ line := line, bytes := bs.foldl (fun t b => Tbl.put t b.1 b.2) [] }] }

/-- The strand's own write-set bytes of a line (R301). -/
def Ctx.wsBytes (c : Ctx) (line : Nat) : List (Nat × Byte) :=
  match c.ws.find? fun e => e.line == line with
  | some e => e.bytes
  | none => []

/-- One combination of an update, in the buffer and at the merge (R302, R319). -/
def combine (op : UpdOp) (t : Ty) (a b : Nat) : Nat :=
  let w := tyBits t
  match op with
  | .add => (a + b) % 2 ^ w
  | .min => tyPat t (min (tyVal t a) (tyVal t b))
  | .max => tyPat t (max (tyVal t a) (tyVal t b))
  | .and => a &&& b
  | .or => a ||| b
  | .xor => a ^^^ b
  | .fadd => (fAdd .f32 .ne false a b).bits

/-! ### Sending to a home (R294, R428) -/

/-- Payload of a request in bytes. -/
def homeBytes : HomeOp → Nat
  | .read .. | .ldrm .. => 0
  | .write bs _ => bs.length
  | .merge .. => 128
  | .strm t _ | .atom _ t _ _ => tySize t
  | .cas t _ _ _ => 2 * tySize t

/-- Sends a request to its home in class 0, on its route (R394, R395), and not before an earlier request of the strand to
the same line (R428). -/
def State.sendHome (s : State) (q : HomeReq) : State :=
  let c := s.ctx q.loc
  let q := { q with rorder := c.orderOf 1 }
  let last := s.agenda.foldl (fun m e => match e.2 with
    | .homeRequestServe r => if r.peer.isNone && r.loc == q.loc && r.pa / 128 == q.pa / 128 then max m e.1 else m
    | _ => m) 0
  match s.legTime [c.leg 0 (some q.loc.tile) (s.endOf q.pa) (homeBytes q.op)] with
  | .error t => s.schedIn 1 (.detourBlocked t q.loc.part)
  | .ok n => (s.sched (max (s.tick + n + s.delay) last) (.homeRequestServe q)).tookDelay

/-- The number of the pushes that follow the context's last publication (R435). -/
def Ctx.pushNo (c : Ctx) : Nat := c.pubSeq + 1
/-- Counts a line of a publication as sent. -/
def Ctx.pubSent (c : Ctx) (pub : Nat) : Ctx := { c with pubs := Tbl.set 0 c.pubs pub (Tbl.get 0 c.pubs pub + 1) }
/-- Counts a line of a publication as accepted. -/
def Ctx.pubAccepted (c : Ctx) (pub : Nat) : Ctx := { c with pubs := Tbl.set 0 c.pubs pub (Tbl.get 0 c.pubs pub - 1) }
/-- Whether a publication is complete, and with it every push before it (R163, R300). -/
def Ctx.pubIs (c : Ctx) (pub : Nat) : Bool := c.pubs.all fun e => pub < e.1

/-- Sends the update line of an address, if the strand holds one, to be merged; `pub`: the publication or the push that does it. -/
def State.pushUpd (s : State) (l : Loc) (line pub : Nat) : State :=
  match (s.ctx l).upd.find? fun u => u.line == line with
  | some u =>
    let s := s.updCtx l fun c => { c with upd := c.upd.filter fun u => u.line != line }.pubSent pub
    s.sendHome { loc := l, tok := none, va := 0, pa := 128 * line, op := .merge u.op u.t u.elems pub, pc := 0 }
  | none => s

/-- Sends the write-set entry of a line, if the strand holds one, to be written. -/
def State.pushWs (s : State) (l : Loc) (line pub : Nat) : State :=
  match (s.ctx l).ws.find? fun u => u.line == line with
  | some u =>
    let s := s.updCtx l fun c => { c with ws := c.ws.filter fun u => u.line != line }.pubSent pub
    s.sendHome { loc := l, tok := none, va := 0, pa := 128 * line,
                 op := .write (u.bytes.map fun b => (128 * line + b.1, b.2)) pub, pc := 0 }
  | none => s

/-- Pushes one line: its update line merges first (R435). -/
def State.pushLine (s : State) (l : Loc) (line : Nat) : State := (s.pushUpd l line (s.ctx l).pushNo).pushWs l line (s.ctx l).pushNo

/-- Pushes the lines that lie in some spaces (R436). -/
def State.pushLines (s : State) (l : Loc) (sel : Space → Bool) : State :=
  let lines := (((s.ctx l).upd.map (·.line)) ++ ((s.ctx l).ws.map (·.line))).eraseDups
  (lines.filter fun n => sel (spaceOf (128 * n))).foldl (fun s n => s.pushLine l n) s

/-- Publication: every update line merges, then every write-set line is written (R300). Its number is the context's
`pubSeq`. -/
def State.publish (s : State) (l : Loc) : State :=
  let s := s.updCtx l fun c => { c with pubSeq := c.pubSeq + 2 }
  let id := (s.ctx l).pubSeq
  let s := ((s.ctx l).upd.map (·.line)).foldl (fun s n => s.pushUpd l n id) s
  ((s.ctx l).ws.map (·.line)).foldl (fun s n => s.pushWs l n id) s

/-- Counts an access that has still to be performed (R436). -/
def State.accSent (s : State) : State := s.updC fun c => { c with accOut := c.accOut + 1 }

end Sys2Proof.Machine
end

