-- ==== Sys2Proof/Machine/MemCol.lean ====
section
/-! DEFINITION. The L column: scratchpad, shared memory, updates and tags (R288 to R293, R299 to R302, R313 to R323). -/

namespace Sys2Proof.Machine

/-! ### Shared shapes -/

/-- s[A] plus a signed offset, modulo 2^64. -/
def State.addr (s : State) (a : Src) (off : Int) : Nat := (s.src a + BitVec.ofInt 64 off).toNat

/-- Bytes of the context's scratchpad share (R28, R315). -/
def Ctx.share (c : Ctx) : Nat := c.spad * 65536

/-- Whether bytes of the scratchpad are poisoned (R311). -/
def Ctx.spBad (c : Ctx) (a n : Nat) : Bool := c.spPoison.any fun g => a / 8 ≤ g && g ≤ (a + n - 1) / 8

/-- A value of a type as a scalar (R183). -/
def valWord (t : Ty) (n : Nat) : Word := BitVec.ofInt 64 (tyVal t n)

/-- Bytes of the enabled lanes of a vector at an address. -/
def laneBytes (m : Lane) (a : Nat) (v : Vec) : List (Nat × Byte) :=
  (List.range 32).flatMap fun i => if m.getLsbD i then addrBytes (a + 4 * i) (leBytes 4 (elem 32 i v)) else []

/-- A vector from 128 bytes. -/
def vecBytes (bs : List Byte) : Vec := BitVec.ofNat 1024 (leNat bs)

/-- Alignment and bounds of a local access (R314, R315). -/
def localCheck (s : State) (a z al : Nat) (k : Out) : Out :=
  guardT s (a % al == 0) cAlignment <| guardT s (a + z ≤ s.c.share) cScratchBounds k

/-! ### Scratchpad words (R315) -/

/-- ld (R315): reads the bytes as they stand at the end of tick T - 1 (R292). -/
def execLd (t : Ty) (d : BitVec 6) (a : Src) (off : BitVec 18) (s : State) : Out :=
  let ad := s.addr a off.toInt
  let w := tySize t
  localCheck s ad w w <| guardT s (!s.c.spBad ad w) cPoison <|
    ok ((s.seen a).putS 3 d (valWord t (s.c.sp.nat ad w)))

/-- st (R315): changes the bytes at the end of tick T (R292). -/
def execSt (t : Ty) (a b : Src) (off : BitVec 18) (s : State) : Out :=
  let ad := s.addr a off.toInt
  let w := tySize t
  localCheck s ad w w <|
    ok (((s.seen a).seen b).updC fun c => c.spWrite s.T 6 (addrBytes ad (leBytes w (s.src b).toNat)))

/-- ldv (R315). -/
def execLdv (d : VOp) (a : Src) (msk : Mask) (off : BitVec 14) (s : State) : Out :=
  vcheck s [(d, 0)] <|
    let ad := s.addr a (16 * off.toInt)
    let m := s.lanes msk
    let n := s.vnum d 0
    localCheck s ad 128 16 <|
      guardT s (!(List.range 32).any fun i => m.getLsbD i && s.c.spBad (ad + 4 * i) 4) cPoison <|
        withV s [] (some n) fun _ => vecDone s [] 4 n m (vecBytes (s.c.sp.bytes ad 128)) [] [a]

/-- stv (R315). -/
def execStv (a : Src) (b : VOp) (msk : Mask) (off : BitVec 14) (s : State) : Out :=
  vcheck s [(b, 2)] <|
    let ad := s.addr a (16 * off.toInt)
    let m := s.lanes msk
    let n := s.vnum b 2
    localCheck s ad 128 16 <|
      withV s [n] none fun vs =>
        let fs := maskFlags m (s.c.popFlags [n])
        fpCheck s fs <|
          ok ((((s.seen a).popAll [n]).putFlags 1 fs).updC fun c => c.spWrite s.T 6 (laneBytes m ad (vs.getD 0 0)))

/-! ### Global words (R316) -/

/-- Sends a home request of the executing word under a token (R134, R436). -/
def State.request (s : State) (k : BitVec 3) (va pa : Nat) (op : HomeOp) : State :=
  ((s.updC fun c => c.bind k.toNat).accSent).sendHome
    { loc := s.here, tok := some k.toNat, va := va, pa := pa, op := op, pc := s.pcNow }

/-- ldg (R301, R316). -/
def execLdg (t : Ty) (d : BitVec 6) (a : Src) (off : BitVec 18) (k : BitVec 3) (s : State) : Out :=
  let va := s.addr a off.toInt
  let w := tySize t
  elastic s <| freeTok s k.toNat <| guardT s (va % w == 0) cAlignment <|
    translate s va accRead fun pa =>
      let own := (s.c.wsBytes (pa / 128)).map fun b => (pa / 128 * 128 + b.1, b.2)
      let s' := (s.seen a).pushUpd s.here (pa / 128) s.c.pushNo
      ok (s'.request k va pa (.read w own (.s (s.c.sdst d.toNat) t)))

/-- Merges a store of one line into the write-set, after the line's update line has merged (R299, R301). -/
def globalStore (s : State) (pa : Nat) (bs : List (Nat × Byte)) (k : State → Out) : Out :=
  let line := pa / 128
  match s.c.wsStore line (bs.map fun b => (b.1 % 128, b.2)) with
  | none => trapO s cWriteset
  | some c => k ((s.setC c).pushUpd s.here line s.c.pushNo)

/-- stg (R316). -/
def execStg (t : Ty) (a b : Src) (off : BitVec 18) (s : State) : Out :=
  let va := s.addr a off.toInt
  let w := tySize t
  elastic s <| guardT s (va % w == 0) cAlignment <|
    translate s va accBuf fun pa =>
      globalStore s pa (addrBytes pa (leBytes w (s.src b).toNat)) fun s => ok ((s.seen a).seen b)

/-- ldgv (R316): a global vector is one whole line. -/
def execLdgv (d : VOp) (a : Src) (msk : Mask) (off : BitVec 14) (k : BitVec 3) (s : State) : Out :=
  elastic s <| vcheck s [(d, 0)] <|
    let va := s.addr a (128 * off.toInt)
    let n := s.vnum d 0
    freeTok s k.toNat <| guardT s (va % 128 == 0) cAlignment <|
      translate s va accRead fun pa =>
        withV s [] (some n) fun _ =>
          let own := (s.c.wsBytes (pa / 128)).map fun b => (pa + b.1, b.2)
          let s' := ((s.seen a).pushUpd s.here (pa / 128) s.c.pushNo).claimV n (some k.toNat)
          ok (s'.request k va pa (.read 128 own (.v n (s.lanes msk))))

/-- stgv (R316). -/
def execStgv (a : Src) (b : VOp) (msk : Mask) (off : BitVec 14) (s : State) : Out :=
  elastic s <| vcheck s [(b, 2)] <|
    let va := s.addr a (128 * off.toInt)
    let m := s.lanes msk
    let n := s.vnum b 2
    guardT s (va % 128 == 0) cAlignment <|
      translate s va accBuf fun pa =>
        withV s [n] none fun vs =>
          let fs := maskFlags m (s.c.popFlags [n])
          fpCheck s fs <|
            let fin (s : State) : Out := ok (((s.seen a).popAll [n]).putFlags 1 fs)
            -- one that stores nothing names its line all the same
            if m = 0 then fin (s.pushUpd s.here (pa / 128) s.c.pushNo) else globalStore s pa (laneBytes m pa (vs.getD 0 0)) fin

/-! ### Remote scratchpads (R317) -/

/-- The checks of a remote address, and its tile and offset. -/
def remoteCheck (s : State) (r : Nat) (k : Nat → Nat → Out) : Out :=
  let off := r % 2 ^ 21
  let tile := r / 2 ^ 24 % 4096
  let e := (s.region s.c.region).eff
  guardT s (r / 2 ^ 21 % 8 == 0 && r / 2 ^ 36 == 0 && !s.harvested tile) cIllegalOperand <|
    guardT s (off % 16 == 0) cAlignment <| guardT s (e.inBox tile) cProtection <|
      guardT s (off + 128 ≤ s.c.share) cScratchBounds (k tile off)

/-- Sends a request to another tile's scratchpad in class 0 (R317, R394). -/
def State.askRemote (s : State) (q : RemReq) : State :=
  s.packet q.loc.part
    [s.c.leg 0 (some q.loc.tile) (some q.target) (if q.store.isSome then 128 else 0)] (.remoteAccessServe q)

/-- ldx (R317). -/
def execLdx (d : VOp) (a : Src) (msk : Mask) (off : BitVec 14) (k : BitVec 3) (s : State) : Out :=
  elastic s <| vcheck s [(d, 0)] <|
    let n := s.vnum d 0
    freeTok s k.toNat <| remoteCheck s (s.addr a (16 * off.toInt)) fun tile o =>
      withV s [] (some n) fun _ =>
        let s' := (((s.seen a).claimV n (some k.toNat)).updC fun c => c.bind k.toNat).accSent
        ok (s'.askRemote
          { loc := s.here, tok := k.toNat, target := tile, off := o, store := none, mask := s.lanes msk, dest := n,
            pc := s.pcNow, rorder := s.c.orderOf 1 })

/-- stx (R317). -/
def execStx (a : Src) (b : VOp) (msk : Mask) (off : BitVec 14) (k : BitVec 3) (s : State) : Out :=
  elastic s <| vcheck s [(b, 2)] <|
    let n := s.vnum b 2
    freeTok s k.toNat <| remoteCheck s (s.addr a (16 * off.toInt)) fun tile o =>
      withV s [n] none fun vs =>
        let fs := maskFlags (s.lanes msk) (s.c.popFlags [n])
        fpCheck s fs <|
          let s' := ((((s.seen a).popAll [n]).putFlags 1 fs).updC fun c => c.bind k.toNat).accSent
          ok (s'.askRemote
            { loc := s.here, tok := k.toNat, target := tile, off := o, store := some (vs.getD 0 0), mask := s.lanes msk,
              dest := 0, pc := s.pcNow, rorder := s.c.orderOf 1 })

/-! ### Words that act at the home (R318 to R320) -/

/-- A home-direct word: checks, push of the line, request (R314, R318, R435). -/
def homeWord (s : State) (srcs : List Src) (t : Ty) (va acc : Nat) (k : BitVec 3) (op : HomeOp) : Out :=
  elastic s <| freeTok s k.toNat <| guardT s (va % tySize t == 0) cAlignment <|
    translate s va acc fun pa => ok (((srcs.foldl State.seen s).pushLine s.here (pa / 128)).request k va pa op)

/-- ldrm (R318). -/
def execLdrm (t : Ty) (d : BitVec 6) (a : Src) (off : BitVec 18) (k : BitVec 3) (s : State) : Out :=
  homeWord s [a] t (s.addr a off.toInt) accHomeRead k (.ldrm t (.s (s.c.sdst d.toNat) t))

/-- strm (R318). -/
def execStrm (t : Ty) (a b : Src) (off : BitVec 18) (k : BitVec 3) (s : State) : Out :=
  homeWord s [a, b] t (s.addr a off.toInt) accHomeWrite k (.strm t ((s.src b).toNat % 2 ^ tyBits t))

/-- atom (R319). -/
def execAtom (op : AtomOp) (t : Ty) (d : BitVec 6) (a b : Src) (off : BitVec 14) (k : BitVec 3) (s : State) : Out :=
  homeWord s [a, b] t (s.addr a off.toInt) accHomeWrite k
    (.atom op t ((s.src b).toNat % 2 ^ tyBits t) (.s (s.c.sdst d.toNat) t))

/-- cas (R320). -/
def execCas (t : Ty) (d : BitVec 6) (a b c : Src) (k : BitVec 3) (s : State) : Out :=
  let w := tyBits t
  homeWord s [a, b, c] t (s.addr a 0) accHomeWrite k
    (.cas t ((s.src b).toNat % 2 ^ w) ((s.src c).toNat % 2 ^ w) (.s (s.c.sdst d.toNat) t))

/-! ### Updates (R302, R321) -/

/-- Applies an update to the buffer: a matching line combines; another line of the address, or the earliest of 64,
merges first (R302). -/
def State.update (s : State) (op : UpdOp) (t : Ty) (pa v : Nat) : State :=
  let line := pa / 128
  let i := pa % 128 / tySize t
  match s.c.upd.find? fun u => u.line == line with
  | some u =>
    if u.op == op && u.t == t then
      let x := match Tbl.find u.elems i with
        | some old => combine op t old v
        | none => v
      s.updC fun c => { c with upd := c.upd.map fun u =>
        if u.line == line then { u with elems := Tbl.put u.elems i x } else u }
    else
      (s.pushUpd s.here line s.c.pushNo).updC fun c => { c with upd := c.upd ++ [⟨line, op, t, [(i, v)]⟩] }
  | none =>
    let s := if 64 ≤ s.c.upd.length then s.pushUpd s.here ((s.c.upd.head?.map (·.line)).getD 0) s.c.pushNo else s
    s.updC fun c => { c with upd := c.upd ++ [⟨line, op, t, [(i, v)]⟩] }

/-- An update word. -/
def updWord (s : State) (srcs : List Src) (op : UpdOp) (t : Ty) (va v : Nat) : Out :=
  elastic s <| guardT s (va % tySize t == 0) cAlignment <|
    translate s va accUpd fun pa => ok ((srcs.foldl State.seen s).update op t pa v)

/-- upd (R321). -/
def execUpd (op : UpdOp) (t : Ty) (a b : Src) (off : BitVec 15) (s : State) : Out :=
  updWord s [a, b] op t (s.addr a off.toInt) ((s.src b).toNat % 2 ^ tyBits t)

/-- updf: an FP32 update (R321). -/
def execUpdf (a b : Src) (off : BitVec 18) (s : State) : Out :=
  updWord s [a, b] .fadd .f32 (s.addr a off.toInt) ((s.src b).toNat % 2 ^ 32)

/-! ### Tags (R293, R322) -/

/-- The valid entry with a block, and its slot. -/
def Ctx.tagFind (c : Ctx) (blk : Nat) : Option (Nat × TagEnt) := c.tags.find? fun e => e.2.v && e.2.blk == blk

/-- tlook (R322). -/
def execTlook (d : BitVec 6) (a : Src) (s : State) : Out :=
  let v := match s.c.tagFind ((s.src a).toNat / 4096 % 2 ^ 44) with
    | some (slot, e) => slot + (if e.d then 65536 else 0)
    | none => 0xFFFF
  ok ((s.seen a).putS 2 d (BitVec.ofNat 64 v))

/-- tset (R322). -/
def execTset (a b : Src) (s : State) : Out :=
  let slot := (s.src a).toNat
  let v := (s.src b).toNat
  let blk := v / 4096 % 2 ^ 44
  let dup := s.c.tags.any fun e => e.2.v && e.2.blk == blk && e.1 != slot
  guardT s (slot < 512 && v % 4096 == 0 && v / 2 ^ 56 == 0 && !dup) cIllegalOperand <|
    guardT s (4096 * slot + 4096 ≤ s.c.share) cScratchBounds <|
      ok (((s.seen a).seen b).updC fun c => { c with tags := Tbl.put c.tags slot ⟨true, false, blk⟩ })

/-- tclr (R322). -/
def execTclr (a : Src) (s : State) : Out :=
  let slot := (s.src a).toNat
  guardT s (slot < 512) cIllegalOperand <|
    ok ((s.seen a).updC fun c => match Tbl.find c.tags slot with
      | some e => { c with tags := Tbl.put c.tags slot { e with d := false } }
      | none => c)

/-- tinv and tinv.all (R322). -/
def execTinv (slot : Option Src) (s : State) : Out :=
  match slot with
  | none => ok (s.updC fun c => { c with tags := [] })
  | some a =>
    let n := (s.src a).toNat
    guardT s (n < 512) cIllegalOperand <|
      ok ((s.seen a).updC fun c => { c with tags := Tbl.del c.tags n })

/-- wsq (R323). -/
def execWsq (d : BitVec 6) (s : State) : Out :=
  ok (s.putS 1 d (BitVec.ofNat 64 (s.c.ws.length + 65536 * s.c.upd.length)))

end Sys2Proof.Machine
end

