-- ==== Sys2Proof/Machine/Issue.lean ====
section
/-! DEFINITION. Fetching, decoding and issuing (R118 to R120, R132 to R138, R148, R167, R168): which word of a strand
issues next, what stands before its meaning, and what stands after it. -/

namespace Sys2Proof.Machine

/-! ### Fetch and decode -/

/-- Words of a column that wait in its queue (R132). -/
def Ctx.depth (c : Ctx) (col : Nat) : Nat := (c.q.filter fun e => e.col == col && !e.re).length

/-- Passes one word to its queue on tick n, in program order: an illegal word stops the decoder (R118, R120), a
padding word is discarded (R114), a full queue holds the word back (R119). None: nothing can pass. -/
def passOne (k : Core) (n : Nat) (c : Ctx) : Option Ctx :=
  if c.pc < c.fpc && c.fstop == .run && c.ui.going.isNone then
    if c.words ≤ c.pc then some { c with fstop := .illegal c.pc 0 }
    else
      let bits := k.wordAt c c.pc
      match decode bits with
      | none => some { c with fstop := .illegal c.pc bits }
      | some x =>
        if x.isPadding then some { c with pc := c.pc + 1 }
        else if 16 ≤ c.depth (colOf bits) + (if Tbl.get 0 c.freed (colOf bits) == n + 1 then 1 else 0) then none
        else
          let e : QEnt :=
            { pc := c.pc, bits := bits, x := x, col := colOf bits, seq := c.seq, rank := c.seq, avail := n + 1,
              prev := c.prev }
          some { c with
            q := insEnt e c.q, pc := c.pc + 1, seq := c.seq + 1, prev := .pending
            fstop := if stopsDecoder x.instr then .wait else .run }
  else none

/-- Passes up to `fuel` words. -/
def passMany (k : Core) (n : Nat) : Nat → Ctx → Ctx
  | 0, c => c
  | fuel + 1, c =>
    match passOne k n c with
    | some c' => passMany k n fuel c'
    | none => c

/-- Fetches one aligned group of four words into the 32-word buffer (R119). -/
def Ctx.fetchGroup (c : Ctx) (n : Nat) : Ctx :=
  if c.fetchAt ≤ n && c.fstop != .off && (c.fpc / 4 + 1) * 4 - c.pc ≤ 32 then
    { c with fpc := (c.fpc / 4 + 1) * 4, fetchAt := n + 1 }
  else c

/-- Whether the strand runs on this tick: it is live, not frozen and has not trapped precisely. -/
def Ctx.running (c : Ctx) : Bool := c.live && c.frozen.isNone && !c.stopped

/-- What the fetch path does on tick n, once per tick: one group is fetched and up to four words are passed. A strand
that has trapped precisely issues nothing, but its fetch path runs on until the halt (R446). -/
def Ctx.decodeTick (k : Core) (n : Nat) (c : Ctx) : Ctx :=
  if c.live && c.frozen.isNone && c.fdone ≤ n then { passMany k n 4 (c.fetchGroup n) with fdone := n + 1 } else c

/-- The fetch path of every tile on the present tick. -/
def State.decodeAll (s : State) : State :=
  { s with cores := s.cores.map fun e => (e.1, { e.2 with fg := e.2.fg.decodeTick e.2 (e.2.fg.now s.tick) }) }

/-- A transfer resolves on tick T: not taken, the words after it may issue from T + 1; taken, its target from T + 4
(R135). -/
def Ctx.resolve (c : Ctx) (pc tgt n : Nat) : Ctx :=
  if tgt = pc + 1 then { c with fstop := .run, fdone := n }
  else { c with fstop := .run, pc := tgt, fpc := tgt, fetchAt := n + 3, fdone := n + 3 }

/-- The strand fetches for itself from a word index that its own stream did not reach (R126, R165, R463). -/
def Ctx.refetch (c : Ctx) (pc n : Nat) : Ctx :=
  { c with fstop := .run, pc := pc, fpc := pc, fetchAt := n + 3, fdone := n + 3 }

/-- A follower leaves its leader at the word with a number: the forwarded words behind it are dropped, its own next word
stands behind it in program order, and it fetches for itself from a word index (R126, R165). -/
def Ctx.leaveLeader (c : Ctx) (seq pc n : Nat) : Ctx :=
  { c.refetch pc n with
    fol := { c.fol with cur := none, hops := 0, joined := [] }, q := c.q.filter fun x => !x.fwd || x.seq < seq
    seq := seq + 1 }

/-! ### Choosing a word -/

/-- What the issue logic finds on a tick. -/
inductive Sel where
  | issue (e : QEnt)
  /-- a word of a timed phase that is not available, whose tokens are not complete or whose stamp differs (R136) -/
  | deviate (e : QEnt)
  | none
deriving DecidableEq, Repr

/-- The guard of a word (R114). -/
def Ctx.guard (c : Ctx) (x : Inst) : Bool := xor (c.preg x.gpred.toNat) x.gneg

/-- Whether a word issues only after every earlier word of the strand (R148, R157, R471): phase does, halt does when it
takes effect, and join does when it names a cell. -/
def Ctx.gates (c : Ctx) (n : Nat) (e : QEnt) : Bool :=
  match e.x.instr with
  | .phase .. => true
  | .halt => (c.landRegs n).guard e.x
  | .join a => (c.landRegs n).guard e.x && ((c.landRegs n).sreg a.toNat).toNat % 65536 != 0xFFFF
  | _ => false

/-- Columns that rep captures from (R167). -/
def capCol (col : Nat) : Bool := col == 2 || col == 4 || col == 6

/-- Whether the word is of the strand's own stream and issues for the first time. -/
def QEnt.isOwn (e : QEnt) : Bool := !e.re && !e.fwd

/-- The open capture that takes a word which issues: one of the next words of the V, M and C columns in program order;
a handler's words are not captured (R167, R169). -/
def Ctx.captures (c : Ctx) (e : QEnt) : Option Rep :=
  if e.isOwn && capCol e.col && !c.ui.inh then
    match c.openRep with
    | some r =>
      let nearer (x : QEnt) : Bool := x.isOwn && capCol x.col && r.seq < x.seq && x.seq < e.seq
      if r.seq < e.seq && (c.q.filter nearer).length < r.left then some r else none
    | none => none
  else none

/-- What becomes of one word on tick n. -/
inductive Ready where
  | yes | no | bad
deriving DecidableEq, Repr

/-- Whether a word whose T is t issues on tick n, apart from its place in the queues: R132 to R136 and R138. -/
def QEnt.readyAt (e : QEnt) (c : Ctx) (n t : Nat) : Ready :=
  let tok := c.tokensReady e.x.wmask n
  if c.timed then
    if n < t then .no
    else if t < n || n < e.avail || !tok || (e.j == 0 && BitVec.ofNat 8 (t - c.ph0) != e.x.stamp) then .bad
    else .yes
  else if t ≤ n && e.avail ≤ n && e.notBefore ≤ n && tok && (match Tbl.find c.base e.col with
      | some b => b < n
      | none => true) then .yes
  else .no

/-- Whether a rep sequence keeps a word out of a column: up to that column's last reissue every word that it does not
capture itself (R168). The sequence is paused while a handler runs, and holds none of its words (R169). -/
def Ctx.repHolds (c : Ctx) (col : Nat) (isCap : Bool) : Bool :=
  !c.ui.inh && c.reps.any fun r =>
    r.cols.contains col && (if 0 < r.left then !isCap
      else r.j < r.count || c.q.any fun x => x.re && x.rid == r.rid && x.col == col)

/-- Whether an earlier reissue of the same sequence, due before, has not issued: its stall delays this one (R168). -/
def Ctx.repBehind (c : Ctx) (e : QEnt) : Bool :=
  e.re && c.q.any fun x => x.re && x.rid == e.rid && (x.fixed.getD 0) < (e.fixed.getD 0)

/-- Whether reissues of a closed capture are still to come; the sequencer is paused while a handler runs, whose words come
before them (R168, R169). -/
def Ctx.reissues (c : Ctx) : Bool := !c.ui.inh && c.reps.any fun r => r.left == 0

/-- What the walk over the queued words knows: the columns whose head has not issued, whether every earlier word has
issued, whether a forwarded word has not, how many words the open capture still takes, how many an unissued rep will take,
the word that deviates, T of the word before and of the last word of each column as far as they are known, and the
columns in which T is not known yet. -/
structure Walk where
  cols : List Nat := []
  first : Bool := true
  fwd : Bool := false
  caps : Nat := 0
  hold : Nat := 0
  dev : Option QEnt := none
  pv : Option Prev := none
  base : Tbl Nat := []
  unk : List Nat := []

/-- T(w) of a word that the walk meets, as far as it is known: of a word whose T hangs on one that has not issued it is
known in a timed phase only, where each word issues on its T (R133, R136, R138). -/
def Walk.due (w : Walk) (c : Ctx) (e : QEnt) (held : Bool) (floor : Nat) : Option Nat :=
  match e.own c.fol.lag with
  | some t => some t
  | none =>
    if held || w.unk.contains e.col then none
    else
      let pv := if e.x.dly == 0 && e.prev == .pending then (if c.timed then w.pv else none) else some e.prev
      pv.map fun p => max floor (dueTick c.ph0 e.x.dly.toNat e.col (Tbl.find w.base e.col) p)

/-- Whether a fence that has not issued keeps the later words of every column back, as it does once it has (R436): one of the STRAND
scope, one in a timed phase (R469) and one whose guard will be false wait for nothing. `first`: every earlier word has issued. -/
def Ctx.fenceAhead (c : Ctx) (n : Nat) (first : Bool) (e : QEnt) : Bool :=
  match e.x.instr with
  | .fence sc => !c.timed && sc != .strand && ((!first && e.x.gpred != 0) || (c.landRegs n).guard e.x)
  | _ => false

/-- Walks the words in program order to the one that issues next; words that the decoder has not passed yet stand at the
end, and are never available. -/
def pickFrom (c : Ctx) (n : Nat) (w : Walk) : List QEnt → Sel
  | [] => match w.dev with
    | some e => .deviate e
    | none => .none
  | e :: r =>
    let rep := c.openRep
    let isCap := e.isOwn && capCol e.col && !c.ui.inh && 0 < w.caps && ((rep.map (·.seq)).getD 0) < e.seq
    let held := e.isOwn && ((capCol e.col && 0 < w.hold) || c.repHolds e.col isCap)
    let t := w.due c e held (if isCap then (rep.map (·.at_)).getD 0 else 0)
    let rr : Ready :=
      if w.cols.contains e.col || held || (e.fwd && w.fwd) || c.repBehind e then .no
      else match t with
        | none => .no
        | some t =>
          if t ≤ n && c.gates n e && (!w.first || c.reissues) then .no else e.readyAt c n t
    match rr with
    | .yes => .issue e
    | .no | .bad =>
      let w1 : Walk := { w with
        cols := e.col :: w.cols, first := false, fwd := w.fwd || e.fwd
        dev := if rr == .bad && w.dev.isNone then some e else w.dev
        caps := w.caps - (if isCap then 1 else 0)
        hold := w.hold - (if e.isOwn && capCol e.col then 1 else 0)
        pv := if e.isOwn then t.map fun t => .at t e.col e.x.eog else w.pv
        base := match t with
          | some t => Tbl.put w.base e.col t
          | none => w.base
        unk := if t.isNone then e.col :: w.unk else w.unk }
      match e.x.instr with
      | .phase .. => match w1.dev with
        | some e => .deviate e
        | none => .none
      | .fence _ => if c.fenceAhead (max n (t.getD n)) w.first e then .none else pickFrom c n w1 r
      | .rep _ _ len1 => pickFrom c n { w1 with hold := w1.hold + (if e.fwd then 0 else len1.toNat + 1) } r
      | _ => pickFrom c n w1 r

/-- The queued words that may issue: while the strand is blocked, the words before the one that blocks it, and none in
a sleep (R146, R148). -/
def Ctx.issuable (c : Ctx) : List QEnt :=
  match c.block with
  | .none => c.q
  | .sleep .. => []
  | _ => c.q.filter fun e => e.seq < c.blockSeq || e.re

/-- The word that issues next on tick n, in program order (R132, R175, R179). -/
def Ctx.pick (k : Core) (c : Ctx) (n : Nat) : Sel :=
  if c.running then
    pickFrom c n { caps := (c.openRep.map (·.left)).getD 0, base := c.base } (c.issuable ++ c.unpassed k n)
  else .none

/-- The illegal word or the end of the code that the decoder met, on the first tick on which every earlier word has
issued, whatever the strand waits in; an open capture does not hold it (R118, R120). -/
def Ctx.illegalNow (c : Ctx) : Option (Nat × IWord) :=
  if c.running && c.q.isEmpty && !c.reissues then
    match c.fstop with
    | .illegal pc bits => some (pc, bits)
    | .run | .wait | .off => none
  else none

/-! ### Before and after a meaning -/

/-- Takes a word out of its queue and lands what its reads see (R132, R173, R292). -/
def State.begin (s : State) (tile : Nat) (e : QEnt) : State :=
  let s := { s with me := tile, cur := { ent := some e } }
  s.updC fun c => { c.land (c.now s.tick) with
    issueNo := c.issueNo + 1, q := c.q.filter fun x => !(x.seq == e.seq && x.j == e.j && x.rid == e.rid) }

/-- The issue of a word seen by the next one in program order, and by its column (R133). -/
def Ctx.noteIssue (c : Ctx) (e : QEnt) (n : Nat) : Ctx :=
  let pv := Prev.at n e.col e.x.eog
  let c := { c with base := Tbl.put c.base e.col n }
  let c := if e.re then c else { c with freed := Tbl.put c.freed e.col (n + 1) }
  if e.re then c
  else if c.seq == e.seq + 1 then { c with prev := pv }
  else { c with q := c.q.map fun x => if x.seq == e.seq + 1 && !x.re then { x with prev := pv } else x }

/-- A word of fixed tick that issued late delays the ones after it: the later reissues of its rep, or, by the follower's
lag, every forwarded word (R129, R168). -/
def Ctx.noteSlip (c : Ctx) (e : QEnt) (n : Nat) : Ctx :=
  match e.own c.fol.lag with
  | some t =>
    if e.fwd then { c with fol := { c.fol with lag := c.fol.lag + (n - t) } }
    else
      let d := n - t
      { c with
        q := c.q.map fun x => if x.re && x.rid == e.rid && t < x.fixed.getD 0 then { x with fixed := x.fixed.map (· + d) }
          else x
        reps := c.reps.map fun r => if r.rid == e.rid then { r with slip := r.slip + d } else r }
  | none => c

/-- The earliest issue tick among the captured words. -/
def Rep.firstT (r : Rep) : Nat := r.caps.foldl (fun m e => min m e.2) ((r.caps.head?.map (·.2)).getD 0)

/-- Replaces a rep sequence. -/
def Ctx.setRep (c : Ctx) (r : Rep) : Ctx := { c with reps := c.reps.map fun x => if x.rid == r.rid then r else x }
/-- The captured words at some PCs have issued for the last time: none of them holds a token any more (R373). -/
def Ctx.freeTokPc (c : Ctx) (pcs : List Nat) : Ctx :=
  { c with arr64 := { c.arr64 with tokPc := c.arr64.tokPc.filter fun e => !pcs.contains e.2 } }
/-- Drops a rep sequence. -/
def Ctx.dropRep (c : Ctx) (rid : Nat) : Ctx :=
  let pcs := (c.reps.filter fun x => x.rid == rid).flatMap fun r => r.caps.map fun e => e.1.pc
  { c with reps := c.reps.filter fun x => x.rid != rid }.freeTokPc pcs

/-- Captures a word of an open rep and, after the last one, puts the first reissue on the agenda (R167, R168). -/
def State.noteCapture (s : State) (e : QEnt) (n : Nat) : State :=
  if e.re then
    match s.c.reps.find? fun r => r.rid == e.rid with
    | some r =>
      -- the last reissue has issued: the sequence is over
      if r.count ≤ r.j && !(s.c.q.any fun x => x.re && x.rid == e.rid) then s.updC (·.dropRep e.rid) else s
    | none => s
  else
    match s.c.captures e with
    | some r =>
      let r := { r with left := r.left - 1, caps := r.caps ++ [(e, n)] }
      if r.left == 0 then
        let r := { r with caps := sortBy (fun a b => a.1.seq ≤ b.1.seq) r.caps }
        if r.count == 0 then s.updC (·.dropRep r.rid)
        else (s.updC (·.setRep r)).schedAt s.here (r.firstT + r.period) (.repReissue s.here r.rid)
      else s.updC (·.setRep r)
    | none => s

/-- Tiles that follow this one in its region (R122, R123). -/
def State.followers (s : State) (t : Nat) (p : Nat) : List Nat :=
  [Dir.xm, .xp, .ym, .yp, .zm, .zp].filterMap fun d =>
    let n := neighbour t d
    let c := (s.core n).fg
    match c.fol.cur with
    | some f =>
      if c.part == some p && c.live && neighbour n f == t && c.region == (s.ctx ⟨t, p⟩).region then some n else none
    | none => none

/-- Reissues that a rep makes of a word that issues: of a captured one, of a reissue, or, as its leader's rep does, of a
forwarded one; 0 when the word is not captured (R167, R169). -/
def Ctx.repCount (c : Ctx) (e : QEnt) : Nat :=
  if e.fwd then e.cnt
  else if e.re then ((c.reps.find? fun r => r.rid == e.rid).map (·.count)).getD 0
  else ((c.captures e).map (·.count)).getD 0

/-- Forwards an issued word to every follower, which it reaches 3 ticks later (R123); a handler's words, the uiret that ends
it among them, are not forwarded (R130). -/
def State.forward (s : State) (e : QEnt) (cnt : Nat) : State :=
  let p := s.c.part.getD 0
  if s.c.ui.inh || (e.x.instr == .uiret && s.cur.outcome.isNone) then s
  else (s.followers s.me p).foldl (fun acc t =>
    acc.schedIn 3 (.forwardedWordIssue ⟨t, p⟩ ⟨e.pc, e.bits, s.cur.outcome, e.j, e.strides, cnt, none⟩)) s

/-- The handler of a user-level event can begin: delivery has stopped the decoder and the queues are empty (R463). -/
def State.noteDrain (s : State) : State :=
  if s.c.ui.going.isSome && s.c.q.isEmpty then s.schedIn 1 (.uiDelivery s.here) else s

/-- A transfer's outcome (R125, R126, R135): the strand's own decoder goes on at it; a follower compares it with its
leader's, and detaches or traps where they differ. `det`: the word carries the detach modifier. -/
def State.goTo (s : State) (e : QEnt) (det : Bool) (tgt : Nat) : State :=
  let s := { s with cur := { s.cur with outcome := some tgt } }
  if e.fwd then
    if e.outcome == some tgt then s
    else if det then s.updC fun c => c.leaveLeader e.seq tgt s.T
    else s.trapWord cFollowDiverge
  else s.updC fun c => c.resolve e.pc tgt s.T

/-- What follows every word that issued, in the queues; a word that stalled or trapped has not issued. A follower goes on, when it is
interrupted, behind the forwarded word that it issued last; the spec leaves open where it goes on when its leader's words
issued out of program order across columns (DESIGN CHOICE, assumption 55). -/
def State.noteWord (s : State) (e : QEnt) : State :=
  if s.cur.stalled || s.cur.trapped then { s with cur := {} }
  else
    let n := s.T
    let cnt := s.c.repCount e
    let s := s.updC fun c =>
      let c := (c.noteIssue e n).noteSlip e n
      let c := if e.fwd && e.j == e.cnt then c.freeTokPc [e.pc] else c
      if e.fwd && c.fol.cur.isSome && !e.re then { c with pc := s.cur.outcome.getD (e.pc + 1) } else c
    let s := s.noteCapture e n
    let s := s.forward e cnt
    { s.noteDrain with cur := {} }

/-- The token that an M-column word binds. -/
def mTokOf : Instr → Option Nat
  | .mwld _ _ _ _ _ _ k | .splld _ _ _ _ _ _ k | .mmstat _ _ k | .grefine k | .splst _ _ _ k | .splgrd _ _ k _ =>
    some k.toNat
  | .mm o | .mmg o | .splev o | .splevG o => some o.k.toNat
  | .mmrot _ o | .macrd _ _ _ o | .macwr _ o | .splbd _ o | .splgr o => some o.k.toNat
  | _ => none

/-- A transfer, and whether a follower detaches at it; halt detaches one whose leader's halt took effect (R128). -/
def transferDet : Instr → Option Bool
  | .br det _ | .call det .. | .ret det _ | .jmpi det .. | .loop det .. => some det
  | .halt => some true
  | _ => none
/-- Words whose outcome a follower takes from its leader. -/
def splits : Instr → Bool
  | .join _ | .rfork .. | .uiret => true
  | _ => false

/-- Whether a follower's forwarding buffer of 64 words is full, with the words that are on their way to it, which stalls
its leader (R129). -/
def State.forwardFull (s : State) (t : Nat) : Bool :=
  match (s.core t).fg.part with
  | some p => (s.followers t p).any fun f =>
      64 ≤ ((s.core f).fg.q.filter (·.fwd)).length + (s.agenda.filter fun e => match e.2 with
        | .forwardedWordIssue l w => l == ⟨f, p⟩ && w.joined.isNone
        | _ => false).length
  | none => false

/-- The first tile, in tile order, whose strand has something to issue on the present tick. -/
def State.pickTile (s : State) : Tbl Core → Option (Nat × Sel)
  | [] => none
  | e :: r =>
    match e.2.fg.pick e.2 (e.2.fg.now s.tick) with
    | .none => s.pickTile r
    | x => if s.forwardFull e.1 then s.pickTile r else some (e.1, x)

/-- The first tile, in tile order, whose strand stands at an illegal word. -/
def pickIllegal : Tbl Core → Option (Nat × Nat × IWord)
  | [] => none
  | e :: r =>
    match e.2.fg.illegalNow with
    | some x => some (e.1, x.1, x.2)
    | none => pickIllegal r

/-- ILLEGAL_ENCODING at a word that never entered a queue: its PC and bits go into the stop record (R117, R118). -/
def State.illegalTrap (s : State) (tile pc : Nat) (bits : IWord) : State :=
  let s := { s with me := tile, cur := {} }
  let l := s.here
  let r := s.mkStop l 0 cIllegalEncoding true pc bits.toNat 0 0
  (s.updC fun c => { c with stopped := true }).raiseTrap l r

/-- TIMETABLE_DEVIATION at a word of a timed phase that cannot issue on its tick, whether it stands in its queue or has
not been passed to it (R136). -/
def State.deviate (s : State) (tile : Nat) (e : QEnt) : State :=
  let s := { s with me := tile, cur := {} }
  let r := s.mkStop s.here 0 cTimetable true e.pc e.bits.toNat 0 0
  (s.updC fun c => { c with stopped := true }).raiseTrap s.here r

end Sys2Proof.Machine
end

