-- ==== Sys2Proof/Machine/Sync.lean ====
section
/-! DEFINITION. Strands of a region, the RCB's written words (R14, R16), the pace entry's step (R206), boundaries and
barriers (R148 to R152), fences (R436), the way out of join and halt (R157, R471), triggers (R162), and the delivery of
user-level events (R462, R463). -/

namespace Sys2Proof.Machine

/-! ### Strands of a region -/

/-- Places of the region's running strands, by strand number (R20). -/
def State.strands (s : State) (r : Nat) : List Loc :=
  let p := (s.region r).part
  s.tiles.filterMap fun t =>
    let l : Loc := ⟨t, p⟩
    let c := s.ctx l
    if s.holds l && c.live && c.region == r then some l else none

/-- Places on which a strand of the region runs or has been placed. -/
def State.busySlots (s : State) (r : Nat) : List Loc :=
  let p := (s.region r).part
  s.tiles.filterMap fun t =>
    let l : Loc := ⟨t, p⟩
    let c := s.ctx l
    if s.holds l && (c.live || c.starting) && c.region == r then some l else none

/-- Strand number of a place in its region (R20). -/
def State.strandNo (s : State) (r : Nat) (l : Loc) : Nat := (s.region r).eff.strandOf l.tile

/-- Whether a region still lives (R17). -/
def Region.alive (r : Region) : Bool :=
  match r.st with
  | .queued | .running | .halted => true
  | .retired | .faulted | .refused => false

/-- The event in which the dispenser considers a record. -/
def DRec.ev (r : DRec) : Ev :=
  match r.kind with
  | .start => if r.lvl == 0 then .ballastDispatch r.region else .startRecordPlace r.region
  | .task _ => .taskRecordPlace r.region
  | .resume => .resumeRecordPlace r.part
/-- Whether an event is one of those. -/
def evDispatch : Ev → Bool
  | .ballastDispatch _ | .startRecordPlace _ | .taskRecordPlace _ | .resumeRecordPlace _ => true
  | _ => false

/-- The records that have not been placed yet. -/
def State.toPlace (s : State) : List DRec := s.recs.filter fun d => !d.placed

/-- On the next tick the dispenser considers every record, in the order of R85 (R84, R85). -/
def State.kick (s : State) : State :=
  let rs := sortBy (fun a b => b.lvl < a.lvl || (a.lvl == b.lvl && a.seq ≤ b.seq)) s.toPlace
  rs.foldl (fun s r => s.schedIn 1 r.ev)
    { s with agenda := s.agenda.filter fun e => !(e.1 == s.tick + 1 && evDispatch e.2) }

/-! ### The RCB's written words (R14, R16) -/

/-- Code of a region state (R16). -/
def RSt.code : RSt → Nat
  | .queued => 1 | .running => 2 | .retired => 3 | .faulted => 4 | .refused => 5 | .halted => 6

/-- Word 0x80. -/
def Region.w80 (r : Region) : Nat :=
  r.st.code + 16 * (r.cause % 256) + (if r.risk then 2 ^ 16 else 0) + 2 ^ 24 * r.eff.prio
/-- Word 0x88. -/
def Region.w88 (r : Region) (n : Nat) : Nat := n % 2 ^ 32 + 2 ^ 32 * (r.part % 64) + 2 ^ 48 * min r.misses 0xFFFF
/-- Word 0x90. -/
def Region.w90 (r : Region) : Nat := r.step % 2 ^ 32 + 2 ^ 32 * (r.kids % 2 ^ 32)

/-- Writes one 8-byte word of the RCB at its home. -/
def State.rcbWord (s : State) (n off v : Nat) : State :=
  s.devWrite (addrBytes ((s.region n).rcbPa + off) (leBytes 8 v))
/-- Writes word 0x80 in one write (R16). -/
def State.rcb80 (s : State) (n : Nat) : State := s.rcbWord n 0x80 (s.region n).w80
/-- Writes word 0x88. -/
def State.rcb88 (s : State) (n : Nat) : State := s.rcbWord n 0x88 ((s.region n).w88 n)
/-- Writes word 0x90. -/
def State.rcb90 (s : State) (n : Nat) : State := s.rcbWord n 0x90 (s.region n).w90
/-- Sets a region's state and cause and writes them. -/
def State.setRSt (s : State) (n : Nat) (st : RSt) (cause : Nat) : State :=
  (s.updRegion n fun r => { r with st := st, cause := cause }).rcb80 n

/-! ### The step and its deadline (R206, R212, R213) -/

/-- Elapsed ticks of the step in progress (R206). -/
def PaceEnt.elapsed (p : PaceEnt) (tick : Nat) : Nat := p.held.getD (tick - p.t0)

/-- A step starts: its elapsed count restarts, and a PERIODIC step takes the previous deadline plus dlper (R31, R206). -/
def State.stepStart (s : State) (r : Nat) (first : Bool) : State :=
  s.updRegion r fun g => { g with
    risk := false
    pace := g.pace.map fun p =>
      let per := if g.eff.dlmode == 2 then
          (if first then some (g.tstart + g.eff.dlper) else (p.dl.orElse fun _ => p.prevDl).map (· + g.eff.dlper))
        else none
      { p with
        dl := per, per := per, prevDl := p.dl.orElse (fun _ => p.prevDl), declBy := 0, declAt := 0, t0 := s.tick, held := none
        overrun := false, risked := false, missed := false } }

/-- Whether the deadline of the step in progress has passed and the miss has not been counted (R212). -/
def State.missDue (s : State) (r : Nat) : Bool :=
  match (s.region r).pace with
  | some p => (match p.dl with
    | some d => d < s.tmNow && !p.missed
    | none => false)
  | none => false

/-- A step ends at a superstep boundary with .step (R37, R151): a miss is counted at the latest now (R212). -/
def State.stepEnd (s : State) (r : Nat) : State :=
  let s := if s.missDue r then
      (s.updRegion r fun g => { g with pace := g.pace.map fun p => { p with missed := true } }).sched s.tick
        (.deadlineMiss r (s.region r).step)
    else s
  let risk := (s.region r).risk
  let s := (s.updRegion r fun g => { g with step := (g.step + 1) % 2 ^ 32 }).rcb90 r
  let s := s.stepStart r false
  if risk then s.rcb80 r else s

/-! ### User-level events (R462, R463) -/

/-- Whether the context awaits the release of a boundary, a bar, an xbar, an mmg or a join. -/
def Ctx.awaits (c : Ctx) : Bool :=
  match c.block with
  | .boundary | .bar | .xbar .. | .mmg | .leave .. => true
  | .none | .sleep .. | .fence .. | .waitt .. | .recv .. => false

/-- The pending event of highest priority that is enabled: code and payload (R462). -/
def UI.next (u : UI) : Option (Nat × Nat) :=
  match u.dl with
  | some st => if u.en.getLsbD 0 then some (0, st) else rest u
  | none => rest u
where
  rest (u : UI) : Option (Nat × Nat) :=
    if u.yld && u.en.getLsbD 1 then some (1, 0)
    else match u.tmq with
      | h :: _ => if u.en.getLsbD 2 then some (2, h) else arr u
      | [] => arr u
  arr (u : UI) : Option (Nat × Nat) :=
    match u.arq with
    | x :: _ => if u.en.getLsbD 3 then some (3, x) else none
    | [] => none

/-- Takes an event out of its store. -/
def UI.take (u : UI) (code : Nat) : UI :=
  match code with
  | 0 => { u with dl := none }
  | 1 => { u with yld := false }
  | 2 => { u with tmq := u.tmq.tail }
  | _ => { u with arq := u.arq.tail }

/-- A blocked word ends, and the strand goes on later at it, or behind a sleep that completes: what stands behind it leaves
the queues (R146, R463). -/
def Ctx.cutAt (c : Ctx) (pc n : Nat) : Ctx :=
  { c with block := .none, q := c.q.filter fun e => e.seq < c.blockSeq || e.re, pc := pc, fpc := pc, fstop := .run,
           prev := .at n 7 true }

/-- The strand turns to its handler: the decoder passes nothing more, a follower detaches, and a strand blocked in sleep,
recv or waitt goes on (R463). -/
def Ctx.toHandler (c : Ctx) (ev : Nat × Nat) (n : Nat) : Ctx :=
  let c := if c.fol.cur.isSome then { c.leaveLeader 0 c.pc n with seq := c.seq, prev := .at n 7 true } else c
  let c := match c.block with
    | .sleep m pc => c.cutAt (if m.getLsbD 9 then pc + 1 else pc) n
    | .recv _ _ pc _ | .waitt _ pc => c.cutAt pc n
    | .none | .boundary | .bar | .fence .. | .xbar .. | .mmg | .leave .. => c
  { c with ui := { c.ui with going := some ev } }

/-- Begins the delivery of a pending event where R463 allows it; a delivery that has begun goes on once no word that was queued
keeps the strand blocked. -/
def State.uiPoll (s : State) (l : Loc) : State :=
  let c := s.ctx l
  match c.ui.going with
  | some _ =>
    if c.running && c.q.isEmpty && c.block == .none && !s.agenda.any (fun e => e.2 == .uiDelivery l) then
      s.schedIn 1 (.uiDelivery l)
    else s
  | none =>
    if c.running && !c.ui.inh && c.ui.v && c.kind == .elastic && !c.awaits then
      match c.ui.next with
      | some ev =>
        let c := c.toHandler ev (c.now s.tick)
        let s := s.setCtx l c
        if c.q.isEmpty then s.schedIn 1 (.uiDelivery l) else s
      | none => s
    else s

/-- Raises an event: one that finds its store full is dropped (R462). -/
def State.uiRaise (s : State) (l : Loc) (code payload : Nat) : State :=
  let s := s.updCtx l fun c =>
    let u := c.ui
    let u := match code with
      | 0 => if u.dl.isSome then { u with lost := true } else { u with dl := some payload }
      | 1 => if u.yld then { u with lost := true } else { u with yld := true }
      | 2 => if 8 ≤ u.tmq.length then { u with lost := true } else { u with tmq := u.tmq ++ [payload] }
      | _ => if 8 ≤ u.arq.length then { u with lost := true } else { u with arq := u.arq ++ [payload] }
    { c with ui := u }
  s.uiPoll l

/-! ### Tokens that complete (R134, R146) -/

/-- Completes a token of a context on a tick of its clock: a sleep that names it ends then, and a strand on its way out
looks at its tokens again on the tick after. -/
def State.tokDone (s : State) (l : Loc) (k x : Nat) : State :=
  let s := s.updCtx l fun c => c.complete k x
  match (s.ctx l).block with
  | .sleep m _ => if m.getLsbD k then s.schedAt l x (.sleepWake l) else s
  | .leave _ 0 _ _ => s.schedAt l (x + 1) (.sleepWake l)
  | _ => if (s.ctx l).live then s else s.schedAt l (x + 1) (.regionRetire (s.ctx l).region)

/-! ### Boundaries and barriers (R148 to R152) -/

/-- Latency of a release (R149). -/
def scopeLat : Scope → Nat
  | .strand | .tile => 1
  | .quad => 2
  | .gang | .column => 4
  | .layer | .block => 8
  | .region | .device | .host | .peer | .system => 16

/-- The arrival of a strand at a boundary, or at a bar: of several split bars that are outstanding the oldest unreleased
one counts, so that a later one of a narrower scope waits for it (DESIGN CHOICE, assumption 56: R152 leaves open which
of them is the strand's arrival). -/
def Ctx.arrival (c : Ctx) (isBar : Bool) : Option Arr := if isBar then c.bars.head? else c.arr

/-- Changes that arrival. -/
def Ctx.updArr (c : Ctx) (isBar : Bool) (f : Arr → Arr) : Ctx :=
  if isBar then match c.bars with
    | a :: r => { c with bars := f a :: r }
    | [] => c
  else { c with arr := c.arr.map f }

/-- Running strands of a region in an instance of a scope: the participants (R148). -/
def State.members (s : State) (r : Nat) (sc : Scope) (inst : Nat) : List Loc :=
  (s.strands r).filter fun l => scopeInst sc r l.tile == inst

/-- The participant sets that the region's arrivals name. -/
def State.namedSets (s : State) (isBar : Bool) (r : Nat) : List (Scope × Nat) :=
  ((s.strands r).filterMap fun l =>
    ((s.ctx l).arrival isBar).map fun a => (a.sc, scopeInst a.sc r l.tile)).eraseDups

/-- Whether every member has arrived (R150). -/
def State.setComplete (s : State) (isBar : Bool) (ms : List Loc) : Bool :=
  !ms.isEmpty && ms.all fun l => ((s.ctx l).arrival isBar).isSome

/-- Whether an arrival names what another names (R150). -/
def Arr.agrees (a b : Arr) : Bool := a.sc == b.sc && a.kind == b.kind && a.step == b.step

/-- Members whose word differs from that of the member with the lowest strand number. -/
def State.dissent (s : State) (isBar : Bool) (ms : List Loc) : List Loc :=
  match ms.head?.bind fun l => (s.ctx l).arrival isBar with
  | some a => ms.filter fun l => match (s.ctx l).arrival isBar with
    | some b => !a.agrees b
    | none => false
  | none => []

/-- A complete set that agrees publishes what its members hold: until then a member that has not arrived reads nothing of
what another one publishes at the boundary (R300, R433). -/
def State.beginPub (s : State) (l : Loc) : State :=
  match (s.ctx l).arr with
  | some a =>
    if a.pub != 0 || a.pubDone then s
    else
      let s := s.publish l
      s.updCtx l fun c => { c with arr := some { a with pub := c.pubSeq, pubDone := c.pubs.isEmpty } }
  | none => s

/-- Whether a strand that has armed a follow closes its phase at another PC than its leader (R164). -/
def State.followPcBad (s : State) (l : Loc) : Bool :=
  let c := s.ctx l
  match c.fol.armed, c.arr with
  | some d, some a => match (s.ctx ⟨neighbour l.tile d, l.part⟩).arr with
    | some b => a.pc != b.pc
    | none => false
  | _, _ => false

/-- Such a strand's phase word traps with FOLLOW_DIVERGE: its arrival is taken back, and the word stands in its queue again, to
issue at once on resumption (R164, R450, R451). -/
def State.phaseBack (s : State) (l : Loc) : State :=
  match (s.ctx l).arr with
  | some a =>
    let s := s.updCtx l fun c => { c with
      arr := none, block := .none
      q := match a.ent with
        | some e => insEnt (if e.fwd then e else { e with fixed := some (c.now s.tick) }) c.q
        | none => c.q }
    let r := s.mkStop l 0 cFollowDiverge true a.pc ((a.ent.map fun e => e.bits.toNat).getD 0) 0 0
    (s.updCtx l fun c => { c with stopped := true }).raiseTrap l r
  | none => s

/-- Examines every complete set of a region that has not been released: a dissenting member traps, a member that is to follow
and closes its phase elsewhere than its leader takes its arrival back, and a set that agrees, none of whose members is in a
set that does not, is released on the tick of R149. -/
def State.examine (s : State) (isBar : Bool) (r : Nat) : State :=
  let sets := (s.namedSets isBar r).map fun x => (x, s.members r x.1 x.2)
  let sets := sets.filter fun x => s.setComplete isBar x.2
  let bad := sets.filter fun x => !(s.dissent isBar x.2).isEmpty
  let held := bad.flatMap (·.2)
  let s := (bad.flatMap fun x => s.dissent isBar x.2).eraseDups.foldl (fun s l =>
    match (s.ctx l).arrival isBar with
    | some a =>
      if a.bad then s
      else
        let s := s.updCtx l (·.updArr isBar fun a => { a with bad := true })
        s.raiseTrap l (s.mkStop l 0 cIllegalOperand false a.pc ((a.ent.map fun e => e.bits.toNat).getD 0) 0 0)
    | none => s) s
  let good := sets.filter fun x => (s.dissent isBar x.2).isEmpty && x.2.all fun l => !held.contains l
  let back := if isBar then [] else ((good.flatMap (·.2)).eraseDups).filter s.followPcBad
  let s := back.foldl State.phaseBack s
  let good := good.filter fun x => x.2.all fun l => !back.contains l
  good.foldl (fun s x =>
    let s := if isBar then s else x.2.foldl State.beginPub s
    let as := x.2.filterMap fun l => (s.ctx l).arrival isBar
    if as.all (·.pubDone) && as.any fun a => !a.rel then
      let last := as.foldl (fun m a => max m a.at_) 0
      let pub := as.foldl (fun m a => max m a.pubAt) 0
      let s := x.2.foldl (fun s l => s.updCtx l (·.updArr isBar fun a => { a with rel := true })) s
      let due := max (last + scopeLat x.1.1) (pub + 1)
      s.sched due (if isBar then .barRelease r x.1.1 x.1.2 else .boundaryRelease r x.1.1 x.1.2)
    else s) s

/-- Hops from a tile, `n` hops below where the count began, up its chain of leaders to the highest of them that passes the
same boundary. R149 delays a follower by 3 ticks for each hop, and R123 has its stamps agree; where its root is not in the
set both hold only for the hops that begin inside the set, since the strand that stands highest in it arrived late already
(DESIGN CHOICE, assumption 87). -/
def State.followHops (s : State) (ms : List Loc) (p : Nat) : Nat → Nat → Nat → Nat
  | 0, _, _ => 0
  | fuel + 1, n, t => match (s.ctx ⟨t, p⟩).fol.cur with
    | some d =>
      let u := neighbour t d
      max (if ms.contains ⟨u, p⟩ then n + 1 else 0) (s.followHops ms p fuel (n + 1) u)
    | none => 0

/-- Whether a boundary is a superstep boundary of the region: its instance covers the whole box (R37). -/
def State.isSuperstep (s : State) (r : Nat) (sc : Scope) (t : Nat) : Bool :=
  match sc with
  | .region | .device | .host | .peer | .system => true
  | .strand | .tile | .quad | .gang | .column | .layer | .block =>
    (s.region r).eff.tilesOf.all fun u => scopeInst sc r u == scopeInst sc r t

/-- The timetable record whose first word stands at a PC (R59, R457). -/
def State.phaseRec (s : State) (r pc : Nat) : Option (Nat × PhRec) :=
  let g := s.region r
  let im := Tbl.get {} s.images g.fileId
  (im.roles.find? fun x => x.role == g.eff.role).bind fun ro =>
    (ro.recs.find? fun p => p.first == pc).map fun p => (ro.margin, p)

/-- Starts the phase timer of a strand of a privileged partition (R457). -/
def State.startTimer (s : State) (l : Loc) (pc : Nat) : State :=
  let s := s.unsched fun e => e == .phaseTimer l
  if (s.part l.part).priv then
    match s.phaseRec (s.ctx l).region pc with
    | some (margin, p) =>
      if p.ticks = 0 then s
      else (s.updCtx l fun c => { c with timer := p.ticks + margin }).schedAt l ((s.ctx l).ph0 + p.ticks + margin + 1) (.phaseTimer l)
    | none => s
  else s

/-- A strand passes a boundary: its next phase begins, a follower's 3 ticks later for each hop to the highest of its leaders that
passes with it (R123, R139, R149). -/
def State.passBoundary (s : State) (l : Loc) (a : Arr) : State :=
  let hops := (s.ctx l).fol.hops
  let s := s.updCtx l fun c =>
    let n := c.now s.tick
    let reset (p : Prev) : Prev := match p with
      | .pending => .pending
      | .none | .at .. => .none
    { c with
      kind := a.kind, ph0 := n + 3 * hops, base := [], loose := false, arr := none, block := .none
      q := c.q.map fun e => { e with prev := reset e.prev }, prev := reset c.prev
      fol := { c.fol with lag := 0 } }
  (s.startTimer l (a.pc + 1)).uiPoll l

/-- Whether the neighbour that a strand is to follow runs a strand of its region (R122). -/
def State.leads (s : State) (l : Loc) (d : Dir) : Bool :=
  let n : Loc := ⟨neighbour l.tile d, l.part⟩
  s.holds n && (s.ctx n).live && (s.ctx n).region == (s.ctx l).region

/-- Takes the armed follows of the members into force (R164). R122 and R164 name no fate for a follow of a neighbour inside
the box whose strand has ended, or is none of the region's: it does not take effect, and the strand goes on with the stream
that it has, since R128 has no follower wait for one that has ended (DESIGN CHOICE, assumption 88). -/
def State.takeFollows (s : State) (ms : List Loc) : State :=
  let s := ms.foldl (fun s l => s.updCtx l fun c =>
    match c.fol.armed with
    | some d =>
      if s.leads l d then { c with
        -- what the strand decoded for itself is not issued; the leader's stream takes its place
        fol := { c.fol with armed := none, cur := some d, joined := [] }, q := c.q.filter (·.re), fstop := .off
        pc := ((c.arr.map (·.pc)).getD c.pc) + 1 }
      else { c with fol := { c.fol with armed := none } }
    | none => c) s
  ms.foldl (fun s l => s.updCtx l fun c =>
    { c with fol := { c.fol with hops := s.followHops ms l.part 16 0 l.tile } }) s

/-! ### Leaving: join and halt (R157, R471) -/

/-- The strand ends: its slot becomes idle. No word reads the registers that it leaves, and the next strand starts with its own
(R154, R157, R471); their values stand, as R504 has them after a retirement. What its buffers still hold is published at
retirement (R475). -/
def Ctx.idle (c : Ctx) : Ctx :=
  { s := c.s, p := c.p, m := c.m, x := c.x, v := c.v, a := c.a, fpst := c.fpst, pend := c.pend, part := c.part, region := c.region, role := c.role, words := c.words, cbase := c.cbase, vlo := c.vlo, vhi := c.vhi,
    spad := c.spad, off := c.off, frozen := c.frozen, sp := c.sp, spPoison := c.spPoison, spw := c.spw, ws := c.ws,
    upd := c.upd, pubs := c.pubs, pubSeq := c.pubSeq, accOut := c.accOut, k := c.k, cq := c.cq, strm := c.strm, pushes := c.pushes,
    arr64 := c.arr64, recvT := c.recvT, ovf := c.ovf, trees := c.trees, treeOps := c.treeOps,
    orders := c.orders, postSeq := c.postSeq, stops := c.stops, waits := c.waits, issueNo := c.issueNo,
    kNo := c.kNo, batch := c.batch, xferCtr := c.xferCtr, cpTurn := c.cpTurn, qfence := c.qfence }

/-- A tile's quad may be idle from now on: a strand has ended there, or an access has reached it (R101). -/
def State.quadRest (s : State) (t : Nat) : State :=
  let q := quadOf t
  let x := Tbl.get {} s.quads q
  if x.st == 0 then
    let s := { s with quads := Tbl.put s.quads q { x with idleFrom := some s.tm } }
    if !s.pgEn || s.agenda.any fun e => e.2 == .quadIdleExpiry q then s
    else s.schedIn (s.ticksOf (1000 * max 1 s.pgIdle)) (.quadIdleExpiry q)
  else s

/-- GANG_MISMATCH at the barrier: every core that has arrived traps, imprecisely, and issues its mmg again on resumption
(R365). -/
def State.gangMismatch (s : State) (g p : Nat) : State :=
  let as := (s.gang g).arrs.filter fun a => a.1 == p
  let s := s.updGang g fun x => { x with arrs := x.arrs.filter fun a => a.1 != p, badAt := some (p, s.tick) }
  as.foldl (fun s a =>
    let l : Loc := ⟨a.2.1, p⟩
    match ((s.ctx l).arr64.ops.filter fun o => match o.i with
      | .mmg _ | .splevG _ => o.inLane && o.start.isNone
      | _ => false).getLast? with
    | some o =>
      let s := s.updCtx l fun c =>
        let c := match o.tok with
          | some k => c.setTok k .unbound
          | none => c
        { c with arr64 := { c.arr64 with ops := c.arr64.ops.filter fun x => x.id != o.id, again := o.ent } }
      s.raiseTrap l { s.mkStop l 0 cGangMismatch false o.pc 0 0 0 with
        word := (o.ent.map fun e => e.bits.toNat).getD 0 }
    | none => s) s

/-- A strand that ends leaves a gang whose other cores wait at its barrier (R365). -/
def State.gangLeft (s : State) (l : Loc) : State :=
  if (s.gang (gangOf l.tile)).arrs.any fun a => a.1 == l.part && (s.ctx ⟨a.2.1, l.part⟩).region == (s.ctx l).region then
    s.gangMismatch (gangOf l.tile) l.part
  else s

/-- A strand that ends leaves every participant set, and its slot may take a record (R155, R157, R474). -/
def State.endStrand (s : State) (l : Loc) : State :=
  let r := (s.ctx l).region
  let s := ((s.gangLeft l).updCtx l Ctx.idle).unsched fun e => e == .phaseTimer l
  let s := (s.examine false r).examine true r
  ((s.sched s.tick (.regionRetire r)).quadRest l.tile).kick

/-- The tile whose router holds a join cell (R423). -/
def joinTile (h : Nat) : Nat := tileOf (h % 16) (h / 16 % 16) (h / 256 % 16)
/-- Sends a decrement to a cell in class 6 (R423). -/
def State.toCell (s : State) (l : Loc) (h : Nat) (trig : Bool) : State :=
  s.packet l.part [(s.ctx l).leg 6 (some l.tile) (some (joinTile h))] (.joinCellDecrement l h trig)

/-- The way out goes on: once no token is bound the buffers are published, and once that is accepted the strand
ends, or a join's decrement is sent. -/
def State.leaveStep (s : State) (l : Loc) : State :=
  let c := s.ctx l
  match c.block with
  | .leave cell 0 _ pc =>
    if c.noneBound (c.now s.tick) then
      let s := s.publish l
      let id := (s.ctx l).pubSeq
      let s := s.updCtx l fun c => { c with block := .leave cell 1 id pc }
      if (s.ctx l).pubs.isEmpty then out s l cell id pc else s
    else (List.range 8).foldl (fun s i => match (s.ctx l).tok i with
      | .done x => if (s.ctx l).now s.tick ≤ x then s.schedAt l (x + 1) (.sleepWake l) else s
      | .unbound | .pending => s) s
  | .leave cell 1 id pc => if c.pubs.isEmpty then out s l cell id pc else s
  | _ => s
where
  out (s : State) (l : Loc) (cell : Option Nat) (id pc : Nat) : State :=
    match cell with
    | none => s.endStrand l
    | some h => (s.updCtx l fun c => { c with block := .leave cell 2 id pc }).toCell l h false

/-! ### Triggers (R162, R163) -/

/-- The trigger cell of a strand's region loses one by the strand's trigger or park. -/
def State.triggerCount (s : State) (l : Loc) : State :=
  match (s.region (s.ctx l).region).cell with
  | some h => s.toCell l h true
  | none => s

/-! ### Fences (R436) -/

/-- Spaces whose lines a fence pushes. -/
def fenceSel (sc : Scope) (x : Space) : Bool :=
  match sc with
  | .device => x == .vault || x == .hbm
  | .host => x == .vault || x == .hbm || x == .host
  | .peer => x == .vault || x == .hbm || x == .peer
  | .system => true
  | .strand | .tile | .quad | .gang | .column | .layer | .block | .region => false

/-- Whether a word accesses a home or another scratchpad: what a fence waits for (R436). -/
def isAccess : Instr → Bool
  | .ldg .. | .ldgv .. | .ldx .. | .stx .. | .ldrm .. | .strm .. | .atom .. | .cas .. => true
  | _ => false
/-- Whether a word writes the strand's buffers, whose lines a wide fence pushes and a trigger publishes (R163, R436). -/
def isBuffered : Instr → Bool
  | .stg .. | .stgv .. | .upd .. | .updf .. => true
  | _ => false
/-- Whether an earlier word of a kind than the one with a number has still to issue. -/
def Ctx.behind (c : Ctx) (n : Nat) (f : Instr → Bool) : Bool := c.q.any fun e => e.seq < n && f e.x.instr

/-- A fence goes on: once every earlier access is performed, and every earlier store has reached the buffers where it pushes them, it
pushes its lines, and once they are accepted the strand issues again (R436). -/
def State.fenceStep (s : State) (l : Loc) : State :=
  let c := s.ctx l
  match c.block with
  | .fence sc pushed =>
    let wide := fenceSel sc .vault
    let early := c.behind c.blockSeq fun i => isAccess i || (wide && isBuffered i)
    if c.accOut == 0 && !early then
      let s := if pushed then s else s.pushLines l (fenceSel sc)
      if !wide || (s.ctx l).pubs.isEmpty then (s.updCtx l fun c => { c with block := .none }).uiPoll l
      else s.updCtx l fun c => { c with block := .fence sc true }
    else s
  | _ => s

/-! ### Publications that progress (R149, R163, R300) -/

/-- A line of a context has been accepted, or an access has been performed: whatever waited for it goes on, in a frozen
context on its resumption. -/
def State.progress (s : State) (l : Loc) : State :=
  let c := s.ctx l
  if c.frozen.isSome then s else
  let s := match c.arr with
    | some a =>
      if !a.pubDone && a.pub != 0 && c.pubs.isEmpty then
        (s.updCtx l (·.updArr false fun a => { a with pubDone := true, pubAt := s.tick })).examine false c.region
      else s
    | none => s
  let s := match c.trigPend with
    | some id => if c.pubIs id then (s.updCtx l fun c => { c with trigPend := none }).triggerCount l else s
    | none => s
  let s := (s.leaveStep l).fenceStep l
  if c.live then s else s.sched s.tick (.regionRetire c.region)

/-- A trigger publishes, once every store before it has reached the buffers (R163, R441). -/
def State.trigStep (s : State) (l : Loc) : State :=
  match (s.ctx l).trigSeq with
  | some n =>
    if (s.ctx l).behind n isBuffered then s
    else ((s.publish l).updCtx l fun c => { c with trigSeq := none, trigPend := some c.pubSeq }).progress l
  | none => s

/-- What waits for earlier words of its strand goes on when one has issued. -/
def State.wordGone (s : State) (l : Loc) : State :=
  let s := s.trigStep l
  match (s.ctx l).block with
  | .fence .. => s.fenceStep l
  | _ => s

/-- What follows every word that issued. -/
def State.finish (s : State) (e : QEnt) : State := (s.noteWord e).wordGone s.here

/-- A home accepts a line of a publication or a push. -/
def State.accepted (s : State) (l : Loc) (pub : Nat) : State := (s.updCtx l (·.pubAccepted pub)).progress l
/-- A home, a host, a peer or a tile performs an access (R427). -/
def State.performed (s : State) (l : Loc) : State :=
  (s.updCtx l fun c => { c with accOut := c.accOut - 1 }).progress l

end Sys2Proof.Machine
end

