-- ==== Sys2Proof/Machine/StreamCol.lean ====
section
/-! DEFINITION. Streams: the words that configure, bind and drain them, and their transfers (R278 to R287). -/

namespace Sys2Proof.Machine

/-! ### The record (R279) -/

/-- The fields of a record, word by word. -/
def slotOf (b : Nat → Nat) : Slot :=
  { st := .ready
    base := b 0 % 2 ^ 32
    cnt0 := b 8 / 2 ^ 32 % 65536, str0 := (BitVec.ofNat 32 (b 8)).toInt
    cnt1 := b 16 / 2 ^ 32 % 65536, str1 := (BitVec.ofNat 32 (b 16)).toInt
    cnt2 := b 24 / 2 ^ 32 % 65536, str2 := (BitVec.ofNat 32 (b 24)).toInt
    rnd := b 32 / 4096 % 16
    rfmt := (rdTy (BitVec.ofNat 4 (b 32 / 256))).getD .f32
    mfmt := (rdTy (BitVec.ofNat 4 (b 32 / 16))).getD .f32
    dir := b 32 % 2 == 1 }

/-- Whether a type code is one that a stream accepts. -/
def slotTy (code : Nat) : Bool :=
  match rdTy (BitVec.ofNat 4 code) with
  | some t => t != .i64 && t != .n64
  | none => false

/-- Whether the fields of a record are legal (R281): the rounding code is tested against rfmt, as the rule names it, so that
code 4 is admitted with mfmt .t8 and another float rfmt (assumption 62). -/
def slotLegal (b : Nat → Nat) : Bool :=
  let x := slotOf b
  let resv := b 0 / 2 ^ 32 == 0 && b 8 / 2 ^ 48 == 0 && b 16 / 2 ^ 48 == 0 && b 24 / 2 ^ 48 == 0 &&
    b 32 / 65536 == 0 && b 32 / 2 % 8 == 0 && b 40 == 0 && b 48 == 0 && b 56 == 0
  resv && slotTy (b 32 / 256 % 16) && slotTy (b 32 / 16 % 16) &&
    1 ≤ x.cnt0 && x.cnt0 ≤ 1024 / tyBits x.rfmt && 1 ≤ x.cnt1 && 1 ≤ x.cnt2 &&
    x.rfmt.isFloat == x.mfmt.isFloat && x.rnd ≤ 4 && !(x.rnd == 4 && x.rfmt == .t8)

/-- Address of element j of vector v. -/
def Slot.elemAddr (x : Slot) (v j : Nat) : Int :=
  (x.base : Int) + (j : Int) * x.str0 + ((v % max 1 x.cnt1 : Nat) : Int) * x.str1 + ((v / max 1 x.cnt1 : Nat) : Int) * x.str2

/-- Whether every element address is a multiple of the memory type's size. -/
def Slot.aligned (x : Slot) : Bool :=
  let z : Int := tySize x.mfmt
  (x.base : Int) % z == 0 && (x.cnt0 ≤ 1 || x.str0 % z == 0) && (x.cnt1 ≤ 1 || x.str1 % z == 0) &&
    (x.cnt2 ≤ 1 || x.str2 % z == 0)

/-- Whether the elements at every corner of the counts lie in the share. -/
def Slot.inShare (x : Slot) (share : Nat) : Bool :=
  [0, x.cnt1 - 1, (x.cnt2 - 1) * x.cnt1, x.cnt1 * x.cnt2 - 1].all fun v =>
    [0, x.cnt0 - 1].all fun j =>
      let a := x.elemAddr v j
      0 ≤ a && a + (tySize x.mfmt : Int) ≤ (share : Int)

/-! ### The words (R280 to R282, R285, R286) -/

/-- The slot that a stream word names: its register lies in the window (R280), and a reissue that leaves v0 to v7 names
no slot. -/
def slotWord (s : State) (v : BitVec 3) (pos : Nat) (k : Nat → Out) : Out :=
  let o : VOp := .v (v.setWidth 8)
  vcheck s [(o, pos)] <| guardT s (s.vnum o pos < 8) cIllegalOperand (k (s.vnum o pos))

/-- Configures a slot: what was pushed to the stream before lands all the same (R281, R282). -/
def Ctx.setSlot (c : Ctx) (n : Nat) (x : Slot) : Ctx :=
  { c.updSlot n fun _ => x with pushes := c.pushes.map fun p => if p.slot == n then { p with cur := false } else p }

/-- scfg (R281). -/
def execScfg (v : BitVec 3) (a : Src) (s : State) : Out :=
  slotWord s v 0 fun n =>
    let ad := (s.src a).toNat
    guardT s (ad % 64 == 0) cAlignment <| guardT s (ad + 64 ≤ s.c.share) cScratchBounds <|
      let b (i : Nat) : Nat := s.c.sp.nat (ad + i) 8
      guardT s (!s.c.bound n && slotLegal b) cIllegalOperand <|
        let x := slotOf b
        guardT s x.aligned cAlignment <| guardT s (x.inShare s.c.share) cScratchBounds <|
          ok ((s.seen a).updC fun c => c.setSlot n x)

/-- Binds a slot on a tick: the first fetch of an input stream starts on the next one (R282, R284). -/
def State.bindSlot (s : State) (l : Loc) (n t : Nat) : State :=
  let s := s.updCtx l fun c => c.updSlot n fun x => { x with st := .bound, moved := x.pos, buf := [], fly := [] }
  let x := (s.ctx l).slot n
  if !x.dir && x.pos < x.total then s.schedAt l (t + 1) (.streamFetch l n) else s

/-- sbind (R282). -/
def execSbind (v : BitVec 3) (s : State) : Out :=
  slotWord s v 0 fun n =>
    guardT s ((s.c.slot n).st == .ready) cIllegalOperand <| ok (s.bindSlot s.here n s.T)

/-- Drops the fetches of an input stream: those in flight and the next one. -/
def State.dropFetches (s : State) (l : Loc) (n : Nat) : State :=
  s.unsched fun e => e == .streamFetch l n || e == .streamVectorReady l n

/-- sunbind (R282). -/
def execSunbind (v : BitVec 3) (s : State) : Out :=
  slotWord s v 0 fun n =>
    let x := s.c.slot n
    if x.st == .bound then
      if x.dir then ok (s.updC fun c => c.updSlot n fun x => { x with st := .ready })
      else ok ((s.dropFetches s.here n).updC fun c => c.updSlot n fun x =>
        { x with st := .ready, buf := [], fly := [], moved := x.pos })
    else ok s

/-- Binds the token of a drain, where the slot's state admits it (R285). -/
def drainWord (s : State) (k v : BitVec 3) (out : Bool) (go : State → Nat → Out) : Out :=
  slotWord s v 1 fun n =>
    freeTok s k.toNat <|
      guardT s ((s.c.slot n).st != .unconf && (s.c.slot n).dir == out) cIllegalOperand <|
        let t := s.updC fun c => c.bind k.toNat
        if (s.c.slot n).st == .done then ok (t.tokDone s.here k.toNat s.T) else go t n

/-- sdrain: the token completes on the tick after the fetches in flight end (R285). A fetch ends on the tick from which its
vector would be ready, so that the token completes on the one after it, and on the issue tick where no fetch is in flight
(DESIGN CHOICE, assumption 61: the rule does not say when a fetch ends). -/
def execSdrain (k v : BitVec 3) (s : State) : Out :=
  let l := s.here
  let t := s.T
  drainWord s k v false fun s n =>
    let last := s.agenda.foldl (fun m e => if e.2 == .streamVectorReady l n then max m (t + (e.1 - s.tick) + 1) else m) t
    let s := (s.dropFetches l n).updC fun c => c.updSlot n fun x => { x with st := .done, buf := [], fly := [] }
    ok (s.tokDone l k.toNat last)

/-- Binds a token to the landing of the slot's newest push. -/
def drainPush (n k : Nat) : List Push → List Push
  | [] => []
  | p :: r =>
    if p.slot == n && p.cur && !r.any (fun x => x.slot == n && x.cur) then { p with toks := p.toks ++ [k] } :: r
    else p :: drainPush n k r

/-- sdrain.out: the token completes, and the slot is DONE, on the tick after the last pushed vector lands (R285). -/
def execSdrainOut (k v : BitVec 3) (s : State) : Out :=
  let (l, t) := (s.here, s.T)
  let c := s.c
  drainWord s k v true fun s n =>
    if c.unlanded n = 0 then
      ok ((s.updC fun c => c.updSlot n fun x => { x with st := .done }).tokDone l k.toNat t)
    else ok (s.updC fun c => { c with pushes := drainPush n k.toNat c.pushes })

/-- State code of sstat (R286). -/
def SSt.code : SSt → Nat
  | .unconf => 0 | .ready => 1 | .bound => 2 | .done => 3

/-- sstat (R286). -/
def execSstat (d : BitVec 6) (v : BitVec 3) (s : State) : Out :=
  slotWord s v 1 fun n =>
    let x := s.c.slot n
    let buf := if x.dir then s.c.unlanded n else x.buf.length
    ok (s.putS 1 d (BitVec.ofNat 64 (x.st.code + (if x.dir then 8 else 0) + 16 * min buf 8 + 2 ^ 32 * x.pos)))

/-! ### Transfers (R284) -/

/-- One element of an input vector: register pattern and flags. -/
def Ctx.fetchElem (c : Ctx) (x : Slot) (v j : Nat) : FRes :=
  streamConv x.rfmt x.mfmt x (c.sp.nat (x.elemAddr v j).toNat (tySize x.mfmt))

/-- The pattern of +0: TS8 has one of its own (R228). -/
def zeroPat (t : Ty) : Nat := if t == .t8 then 0x77 else 0

/-- An input vector: elements from cnt0 up read +0 (R279); poisoned when one of its bytes is (R311). -/
def Ctx.fetchVec (c : Ctx) (x : Slot) (v : Nat) : Vec × Bool × List (Nat × BitVec 5) :=
  let w := tyBits x.rfmt
  let es := (List.range x.cnt0).map fun j => c.fetchElem x v j
  let bad := (List.range x.cnt0).any fun j => c.spBad (x.elemAddr v j).toNat (tySize x.mfmt)
  (vecOf w (es.map (·.bits) ++ List.replicate (1024 / w - x.cnt0) (zeroPat x.rfmt)), bad, laneFlags w es)

/-- A fetch starts: it reads its elements as they stand at the end of the tick before; the vector is ready q + 4 ticks
later, and the next fetch follows where the buffer has room (R284). -/
def execStreamFetch (l : Loc) (v : Nat) (s : State) : Out :=
  let s := s.landAt l
  let c := s.ctx l
  let x := c.slot v
  if x.st == .bound && !x.dir && x.moved < x.total then
    let q := c.streamQ v
    let n := c.now s.tick
    let e := c.fetchVec x x.moved
    let s := s.updCtx l fun c => c.updSlot v fun x => { x with fly := x.fly ++ [e], moved := x.moved + 1, lastF := n }
    let s := s.schedAt l (n + q + 4) (.streamVectorReady l v)
    let next := x.moved + 1
    if next < x.total && next < x.pos + 8 then ok (s.schedAt l (n + q) (.streamFetch l v)) else ok s
  else ok s

/-- A fetched vector can be popped (R284). -/
def execStreamVectorReady (l : Loc) (v : Nat) (s : State) : Out :=
  ok (s.updCtx l fun c => c.updSlot v fun x => { x with buf := x.buf ++ x.fly.take 1, fly := x.fly.tail })

/-- A pushed vector starts its write (R284). -/
def execStreamWrite (l : Loc) (v : Nat) (s : State) : Out :=
  ok (s.updCtx l fun c => c.updSlot v fun x => { x with moved := x.moved + 1 })

/-- The tick at whose end a push lands, once its write has started (R284). -/
def Push.landsAt (p : Push) : Option Nat := p.w.map fun w => w + p.q + 2
/-- Takes the push of a slot that lands first, of those whose writes have started: those of a slot that was configured anew may
land before older ones (R284). -/
def takePush (n : Nat) (ps : List Push) : Option Push × List Push :=
  let on (p : Push) : Bool := p.slot == n && p.w.isSome
  match ((ps.filter on).filterMap Push.landsAt).min? with
  | some t =>
    let hit (p : Push) : Bool := on p && p.landsAt == some t
    (ps.find? hit, ps.eraseP hit)
  | none => (none, ps)

/-- The bytes that a pushed vector writes (R279, R283). -/
def Push.bytes (p : Push) : List (Nat × Byte) :=
  match p.data with
  | some d => (p.cfg.outElems d.2.2 d.2.1).flatMap fun e =>
      addrBytes (p.cfg.elemAddr p.idx e.1).toNat (leBytes (tySize p.cfg.mfmt) e.2.bits)
  | none => []

/-- A pushed vector has landed at the end of the tick before: the tokens of the drains that waited for it complete, and the
slot is DONE (R284, R285). -/
def execStreamWriteLand (l : Loc) (v : Nat) (s : State) : Out :=
  match takePush v (s.ctx l).pushes with
  | (none, _) => ok s
  | (some p, r) =>
    let n := (s.ctx l).now s.tick
    let s := (s.updCtx l fun c => { c with pushes := r }).engWrite l 1 5 p.bytes
    let s := if p.cur && !p.toks.isEmpty then s.updCtx l fun c => c.updSlot v fun x => { x with st := .done } else s
    ok ((p.toks.foldl (fun s k => s.tokDone l k n) s).quadRest l.tile)

end Sys2Proof.Machine
end

