-- ==== Sys2Proof/Machine/Place.lean ====
section
/-! DEFINITION. Placing strands: banks, quads, idle slots, withholding, recruits and starts (R21 to R23, R86, R99 to
R102, R153 to R156). -/

namespace Sys2Proof.Machine

/-- The level at which a region's records stand: 16 to 1 for priorities 15 to 0, and 0 for the ballast level (R84). -/
def State.recLevel (s : State) (r : Nat) : Nat :=
  let e := (s.region r).eff
  if e.lvl then 0 else e.prio + 1

/-- Gives a partition a context bank of a tile, where one is free (R33). What an earlier partition left in the bank is gone: R101
has it zeroed where the quad was OFF, and the spec does not say what stands there where another partition kept the quad from OFF
(DESIGN CHOICE, assumption 89). -/
def State.claimBank (s : State) (t p : Nat) : State :=
  if s.holds ⟨t, p⟩ then s
  else
    let k := s.core t
    let c : Ctx := { part := some p, off := (s.part p).off }
    -- a message that waits for the context is offered again (R409)
    let s := if k.held.isEmpty then s else s.sched s.tick (.heldMessageReoffer t)
    if k.fg.part.isNone then s.setCore t { k with fg := c }
    else if k.bg.part.isNone then s.setCore t { k with bg := c }
    else s

/-- Frees a partition's bank of a tile. -/
def State.freeBank (s : State) (l : Loc) : State :=
  if s.holds l then s.setCtx l {} else s

/-- Whether a tile's quad is ACTIVE (R100). -/
def State.quadAwake (s : State) (t : Nat) : Bool := (Tbl.get {} s.quads (quadOf t)).st == 0

/-- Asks for the wake of a tile's quad (R102). -/
def State.wakeQuad (s : State) (t : Nat) : State :=
  let q := quadOf t
  let x := Tbl.get {} s.quads q
  if x.st == 0 || x.waking || s.wakeQ.contains q || s.agenda.any (fun e => e.2 == .quadWake q) then s
  else s.sched s.tick (.quadWake q)

/-- Tiles of a quad. -/
def quadTiles (q : Nat) : List Nat :=
  (List.range 4).map fun i => tileOf (q % 8 * 2 + i % 2) (q / 8 % 8 * 2 + i / 2) (q / 64 % 16)

/-- A quad is ACTIVE; where it was OFF, what its banks hold for no partition is zero (R101, R102). -/
def State.quadUp (s : State) (q : Nat) : State :=
  let bank (c : Ctx) : Ctx := if c.part.isNone then {} else c
  let zero (e : Nat × Core) : Nat × Core :=
    if quadOf e.1 == q then (e.1, { e.2 with fg := bank e.2.fg, bg := bank e.2.bg }) else e
  let s := if (Tbl.get {} s.quads q).st == 2 then { s with cores := s.cores.map zero } else s
  (State.quadRest { s with quads := Tbl.put s.quads q { st := 0, stage := 8 } } ((quadTiles q).headD 0)).kick

/-- Quads of a layer in a wake. -/
def State.wakingIn (s : State) (layer : Nat) : Nat := (s.quads.filter fun e => e.2.waking && e.1 / 64 == layer).length

/-- The wakes that a layer's quads have asked for begin in order of request, as far as ctl.pgate.waves allows; one whose switches
are all still on is ACTIVE at once (R102, R103). -/
def State.startWakes (s : State) (layer : Nat) : State := go s.wakeQ.length s
where
  go : Nat → State → State
    | 0, s => s
    | n + 1, s => match s.wakeQ.find? fun q => q / 64 == layer with
      | none => s
      | some q =>
        let x := Tbl.get {} s.quads q
        let t := { s with wakeQ := s.wakeQ.filter (· != q) }
        if x.stage == 8 then go n (t.quadUp q)
        else if s.wakingIn layer < max 1 s.pgWaves then
          go n (State.schedIn { t with quads := Tbl.put s.quads q { x with waking := true } } (s.ticksOf 250) (.wakeStage q))
        else s

/-- A quad begins to turn its switches off, stage by stage, in a time that the spec leaves open (R101, R102). -/
def State.quadSink (s : State) (q st : Nat) : State :=
  let x := Tbl.get {} s.quads q
  let s := s.unsched fun e => e == .wakeStage q
  if x.stage == 0 then { s with quads := Tbl.put s.quads q { st := st } }
  else State.schedFree { s with quads := Tbl.put s.quads q { st := st, sinking := true, stage := x.stage } } 1 (.wakeStage q)

/-- A quad enters OFF; a wake of it that was in progress or waited is no more (R101, R102). -/
def State.quadOff (s : State) (q : Nat) : State :=
  let x := Tbl.get {} s.quads q
  let s := State.quadSink { s with wakeQ := s.wakeQ.filter (· != q) } q 2
  if x.waking then s.startWakes (q / 64) else s

/-- The role image of a region (R20). -/
def State.roleOf (s : State) (r : Nat) : Option Role :=
  let g := s.region r
  (Tbl.find s.images g.fileId).bind fun im => im.roles.find? fun x => x.role == g.eff.role

/-- The key of a role's resident code: file address and role index (R65). -/
def Region.codeKey (g : Region) : Nat := g.fileId * 256 + g.eff.role

/-- The slots that a role's STREAMS section configures (R278). -/
def Role.slots (ro : Role) : List (Nat × Slot) :=
  (((List.range ro.streams.length).zip ro.streams).filter fun x => x.2.any (· != 0)).map fun x =>
    (x.1, slotOf fun o => leNat ((x.2.drop o).take 8))

/-- A strand starts on a slot: every register is at its reset value, the slots of the role's STREAMS section are bound as on
the tick before tick 0, and its first word is fetched on this tick (R154, R170, R171, R278, R293). Tick 0 of its phase
comes `first` ticks later: for a recruit it is the first tick on which a word can issue (R154). -/
def State.startStrand (s : State) (l : Loc) (r pc : Nat) (kind : PKind) (first : Nat) : State :=
  let g := s.region r
  let words := match s.roleOf r with
    | some x => x.code.length
    | none => (s.ctx l).words
  let base := (Tbl.get (0, 0) (s.core l.tile).roles g.codeKey).1
  let s := s.updCtx l fun c =>
    let n := c.now s.tick
    { c.idle with
      region := r, live := true, starting := false, role := g.codeKey, words := words, cbase := base
      vlo := g.eff.vbase * 8, vhi := (g.eff.vbase + g.eff.vcount) * 8 - 1, spad := g.eff.spad, kind := kind, ph0 := n + first
      s := [], p := [], m := [], x := [], v := [], a := [], fpst := 0, pend := []
      k := [], kNo := [], batch := {}, strm := []
      pushes := c.pushes.map fun p => { p with cur := false }
      pc := pc, fpc := pc, fetchAt := n, fdone := n, fstop := .run, prev := .none, stops := c.stops }
  let s := (((s.roleOf r).map Role.slots).getD []).foldl (fun s x =>
    (s.updCtx l fun c => c.setSlot x.1 x.2).bindSlot l x.1 ((s.ctx l).ph0 - 1)) s
  -- the first strand to start sets the region RUNNING (R16)
  if g.started then s
  else
    let s := s.updRegion r fun g => { g with started := true, tstart := s.tmNow }
    (s.setRSt r .running 0).rcbWord r 0x98 s.tmNow

/-- Whether a tile lies in a cell flagged HOT, or OVERBUDGET for the region (R86, R99). -/
def State.hotFor (s : State) (r t : Nat) : Bool :=
  s.hotCells.contains (tileZ t * 16 + tileY t / 4 * 4 + tileX t / 4) || overrun s 16 r
where
  overrun (s : State) : Nat → Nat → Bool
    | 0, _ => false
    | fuel + 1, r =>
      let g := s.region r
      (g.overb && g.eff.power != 0) || (g.parent != 0 && overrun s fuel g.parent)

/-- Whether a region descends from another. -/
def State.descends (s : State) : Nat → Nat → Nat → Bool
  | 0, _, _ => false
  | fuel + 1, r, a => r == a || ((s.region r).parent != 0 && s.descends fuel (s.region r).parent a)

/-- Whether a tile is held by a live descendant of a region, or by another live region of the partition that was
accepted earlier, so that R23 keeps the region from placing a strand there. -/
def State.heldFrom (s : State) (r t : Nat) : Bool :=
  let g := s.region r
  s.regions.any fun x =>
    x.1 != r && x.2.alive && x.2.part == g.part && x.2.eff.inBox t &&
      (if s.descends 16 x.1 r then x.2.started || 0 < x.2.loading
       else !s.descends 16 r x.1 && x.2.acc < g.acc)

/-- Idle slots on which the region may place a strand now (R22, R23, R153). -/
def State.idleSlots (s : State) (r : Nat) : List Nat :=
  let g := s.region r
  let busy := (s.busySlots r).map (·.tile)
  g.eff.tilesOf.filter fun t => !busy.contains t && !s.hotFor r t && !s.heldFrom r t && !s.harvested t

/-- Hops between two tiles of the box in the default recruitment tree (R62, R154). -/
def treeDist (e : Eff) (a b : Nat) : Nat :=
  let diff (x y : Nat) : Nat := (x - y) + (y - x)
  let (ax, ay, az) := (tileX a - e.ox, tileY a - e.oy, tileZ a - e.oz)
  let (bx, by', bz) := (tileX b - e.ox, tileY b - e.oy, tileZ b - e.oz)
  if ax = bx ∧ ay = by' then diff az bz
  else if ax = bx then az + bz + diff ay by'
  else az + bz + ay + by' + diff ax bx

/-- Whether the resumption of a swapped-out context that is under way needs a join cell (R423, R461). -/
def State.cellKept (s : State) (h : Nat) : Bool :=
  s.recs.any fun d => d.kind == RKind.resume && d.placed && Tbl.has (s.part d.part).cells h

/-- A free join cell of a layer (R156, R423); the router of a harvested tile holds none (R93). -/
def State.freeCell (s : State) (layer : Nat) : Option Nat :=
  ((List.range 256).map fun n => layer * 256 + n).find? fun h =>
    !Tbl.has s.cells h && !s.cellKept h && !s.harvested (joinTile h)

/-- A strand is placed on a slot and starts later, by a class-6 packet from the strand that recruits it or, for a task
record, from the dispenser (R154, R155, R394). -/
def State.recruit (s : State) (src : Option Nat) (t : Nat) (st : Start) : State :=
  let p := (s.region st.region).part
  let s := s.claimBank t p
  let s := s.updCtx ⟨t, p⟩ fun c => { c with starting := true, region := st.region }
  let s := match (s.region st.region).cell with
    | some h => { s with cells := match Tbl.find s.cells h with
        | some c => Tbl.put s.cells h { c with count := c.count + 1 }
        | none => s.cells }
    | none => s
  s.packet p [{ order := 0, src := src, dst := some t }] (.recruitStart t st)

end Sys2Proof.Machine
end

