-- ==== Sys2Proof/Machine/Rail.lean ====
section
/-! DEFINITION. Rails, caps, P-state changes and the ballast gate (R201 to R203, R209, R214 to R219, R221, R223). -/

namespace Sys2Proof.Machine

/-! ### Rails (R214, R215) -/

/-- A core rail: 0 VDDM, 1 VDDV, 2 VDDS, 3 VDDF. -/
def Gov.rail (g : Gov) (n : Nat) : Rail := g.rails.getD n {}
/-- Changes a core rail. -/
def State.updRail (s : State) (n : Nat) (f : Rail → Rail) : State :=
  { s with gov := { s.gov with rails := (List.range 4).map fun i => if i = n then f (s.gov.rail i) else s.gov.rail i } }
/-- The offset of a rail at the applied P-state (R214). -/
def State.railOff (s : State) (n : Nat) : Nat :=
  let r := s.gov.rail n
  if r.frz then 0 else Tbl.get 0 r.off s.pnow

/-- Table voltage of a rail at a P-state, in mV (R201). -/
def railMv (n p : Nat) : Nat :=
  match n with
  | 0 | 1 => 750 - 40 * p
  | 2 => 750 - 30 * p
  | _ => 720 - 30 * p

/-- A rail's voltage at a P-state, less its offset there (R202, R214). -/
def State.railAt (s : State) (n p : Nat) : Nat :=
  railMv n p - 5 * (if (s.gov.rail n).frz then 0 else Tbl.get 0 (s.gov.rail n).off p)

/-- How far below the table voltage of the applied P-state a rail is, in mV: during a ramp, by the voltage in force, which is
free between the ends of the ramp (R215). -/
def State.railBelow (s : State) (n : Nat) : State × Nat :=
  match s.gov.band.bind fun b => b[n]? with
  | some b => ({ s with fresh := s.fresh + 1 }, railMv n s.pnow - (b.1 + Config.rampVolt s.fresh % (b.2 - b.1 + 1)))
  | none => (s, 5 * s.railOff n)

/-- An uncorrectable error attributed to a rail: under an offset the rail returns to its table voltage, is frozen, and
counts the error (R215). -/
def State.railError (s : State) (n : Nat) : State :=
  let x := s.railBelow n
  if x.2 = 0 then x.1
  else x.1.updRail n fun r => { r with frz := true, off := [], uecnt := min 255 (r.uecnt + 1) }

/-! ### Sensor registers, and a cell's clocks (R221, R222, R446) -/

/-- The place whose core, engines, tokens, receive table or tree slots an event belongs to. Routers, network interfaces,
slices, attach ports and base-die agents run on while a context is frozen (R446). -/
def evLoc : Ev → Option Loc
  | .forwardedWordIssue l _ | .repReissue l _ | .joinCellDecrement l _ _ | .joinResult l _ _ | .sleepWake l
  | .waittRelease l _ | .remoteAckArrival ⟨l, _, _, _, _, _, _, _, _⟩ _ _ | .remoteAccessServe ⟨l, _, _, _, _, _, _, _, _⟩
  | .copyTransferStart l _ | .copySlotMove ⟨l, _, _⟩ | .localCopyMove l _ | .copyWriteReport l _ _ _ | .streamFetch l _
  | .streamVectorReady l _ | .streamWrite l _ | .streamWriteLand l _ | .arrayOpStart l _ | .arrayRowEntry l _ _
  | .arrayResultLand l _ _ | .planeTakeEffect l _ | .mmrotShiftLand l _ _ | .mmrotPlaneExchange l _ | .messageLand l _
  | .sendAckArrival l _ _ _ | .treeContributionArrival l _ _ _ _ _ _ | .treeResultArrival l _ _ _ _ _ | .xbarRelease l _ _
  | .knotLand l _ _ _ _ | .peerTreeCombine l _ _ _ _ _ | .childLaunch l | .childDelivery l | .phaseTimer l | .uiDelivery l
  | .shootdownComplete l _ _ _ _ _ => some l
  | .homeReplyArrival r => if r.q.peer.isSome || r.q.agent.isSome then none else some r.q.loc
  | _ => none

/-- A thermal sensor register. -/
def State.tsReg (s : State) (n : Nat) : TsReg := Tbl.get {} s.ts n
/-- Whether the clocks of a tile's core, array and engines are stopped (R221). -/
def State.clockStopped (s : State) (t : Nat) : Bool := (s.tsReg (tileZ t * 16 + tileY t / 4 * 4 + tileX t / 4)).stop
/-- The clocks of a tripped cell go on once trip is cleared and the reading is below 100 degrees; a masked sensor gives no
reading (R221). -/
def TsReg.settle (t : TsReg) : TsReg :=
  if !t.trip && (t.masked || (t.temp < 400 && !t.fail)) then { t with stop := false } else t

/-- A context as its cell's clocks stand: it stops with them, and goes on with them unless its partition stands still
(R221). -/
def State.clockCtx (s : State) (stop : Bool) (c : Ctx) : Ctx :=
  if stop then { c with frozen := some (c.now s.tick) }
  else match c.frozen, (s.part (c.part.getD 64)).st with
  | some n, .active | some n, .halting => { c with frozen := none, off := s.tick - n }
  | _, _ => c

/-- A cell's sensor register with a new value: where the clocks of its cores, arrays and engines stop, or go on, so do the
contexts on its tiles (R221). -/
def State.setTs (s : State) (k : Nat) (t : TsReg) : State :=
  let old := s.tsReg k
  let s := { s with ts := Tbl.put s.ts k t }
  if old.stop == t.stop then s
  else
    let mine (n : Nat) : Bool := tileZ n * 16 + tileY n / 4 * 4 + tileX n / 4 == k
    let step (e : Nat × Core) : Nat × Core :=
      if mine e.1 then (e.1, { e.2 with fg := s.clockCtx t.stop e.2.fg, bg := s.clockCtx t.stop e.2.bg }) else e
    let s := { s with cores := s.cores.map step }
    -- events of those places wait with them, due in so many ticks
    if t.stop then
      let hit (e : Nat × Ev) : Bool := (evLoc e.2).any fun l => mine l.tile
      { s with
        agenda := s.agenda.filter fun e => !hit e
        stopEvs := Tbl.put s.stopEvs k ((s.agenda.filter hit).map fun e => (e.1 - s.tick, e.2)) }
    else
      (Tbl.get [] s.stopEvs k).foldl (fun s e => match evLoc e.2 with
        | some l => match (s.part l.part).st with
          | .active | .halting => s.schedIn e.1 e.2
          | .halted | .swapping | .swapped => s.updPart l.part fun q => { q with frozen := q.frozen ++ [e] }
        | none => s) { s with stopEvs := Tbl.del s.stopEvs k }

/-- An event of a place whose clocks are stopped waits with it (R221). -/
def State.holdEv (s : State) (l : Loc) (e : Ev) : State :=
  let k := tileZ l.tile * 16 + tileY l.tile / 4 * 4 + tileX l.tile / 4
  { s with stopEvs := Tbl.put s.stopEvs k (Tbl.get [] s.stopEvs k ++ [(0, e)]) }

/-- Clears trip (R222). -/
def State.clearTrip (s : State) (k : Nat) : State :=
  if (s.tsReg k).trip then s.setTs k { s.tsReg k with trip := false }.settle else s

/-! ### Caps (R209, R216, R221, R223) -/

/-- The thermal cap of P3, in force while some cell sets it (R221). -/
def State.tcap (s : State) : Bool := s.ts.any fun e => e.2.cap
/-- The caps in force. -/
def State.caps (s : State) : List Nat :=
  s.gov.ocap.toList ++ s.gov.pkg.toList ++ (if s.gov.dcap then [4] else []) ++ (if s.tcap then [3] else []) ++
    (if s.gov.fwCap then [4] else [])
/-- The slowest cap in force; 0 when there is none. -/
def State.capNow (s : State) : Nat := s.caps.foldl max 0

/-- A tightening of a cap: when first set, one state slower than the P-state applied; never slower than P7 (R216). -/
def tighten (cap : Option Nat) (pnow : Nat) : Option Nat :=
  match cap with
  | some c => some (min 7 (c + 1))
  | none => some (min 7 (pnow + 1))
/-- A release step: one state faster, and no cap once it would pass P0 (R216). -/
def release (cap : Option Nat) : Option Nat :=
  match cap with
  | some c => if c = 0 then none else some (c - 1)
  | none => none

/-! ### P-state changes (R202, R203) -/

/-- A ramp of the rails, of at most 25 µs: a free time within it (R202). -/
def State.rampTicks (s : State) : Nat := min s.delay (s.ticksOf 25000 - 1)

/-- The rails begin to ramp toward the voltages of a P-state, or a ramp in progress turns toward them (R202, R203). -/
def State.rampTo (s : State) (p : Nat) : State :=
  let at_ (n : Nat) : Nat × Nat := ((s.gov.band.bind fun b => b[n]?).getD (s.railAt n s.pnow, s.railAt n s.pnow))
  { s with gov := { s.gov with
    band := some ((List.range 4).map fun n => (min (at_ n).1 (s.railAt n p), max (at_ n).2 (s.railAt n p))) } }

/-- Begins a change to a P-state: to a faster one the rails ramp first, to a slower one the frequency steps first; a
change requested during a ramp waits for its end (R202, R203). -/
def State.requestP (s : State) (p : Nat) : State :=
  if p = s.pnow && s.gov.ramp.isNone then s
  else if s.gov.ramp.isSome then { s with gov := { s.gov with want := some p } }
  else
    let s := { s with gov := { s.gov with ramp := some p } }
    if p < s.pnow then ((s.rampTo p).schedIn (1 + s.rampTicks) (.pStateChange p)).tookDelay else s.schedIn 1 (.pStateChange p)

/-- ALERT_N is asserted while a cap of R216 is in force, and stays so until CLEAR_FAULTS (R516). -/
def State.capAlert (s : State) : State :=
  if s.gov.ocap.isSome || s.gov.pkg.isSome || s.gov.dcap then
    { s with dv := { s.dv with power := { s.dv.power with alert := true } } }
  else s

/-- Applies the caps: one slower than the applied P-state takes effect on the next broadcast tick, even during a ramp,
and a ramp toward a faster state turns (R203). -/
def State.applyCaps (s : State) : State :=
  let s := s.capAlert
  let c := s.capNow
  let change (e : Ev) : Bool := match e with
    | .pStateChange _ | .railRampDone => true
    | _ => false
  let turn (s : State) : State := { s.unsched change with gov := { s.gov with ramp := some c, want := none } }
  if s.pnow < c then (turn s).schedIn 1 (.pStateChange c)
  else if s.gov.ramp.getD s.pnow < c then
    -- a ramp toward a faster state turns toward the voltages of the capped state
    let s := (turn s).rampTo c
    (s.schedIn (1 + s.rampTicks) (if c < s.pnow then .pStateChange c else .railRampDone)).tookDelay
  else s

/-! ### The ballast gate (R218, R219) -/

/-- setpt and plim as taken (R217). -/
def Gov.plimNow (g : Gov) : Nat := min g.plim 6000
def Gov.setptNow (g : Gov) : Nat := min g.setpt g.plimNow

/-- Whether the gate's conditions hold (R218). -/
def State.gateOpen (s : State) : Bool :=
  let g := s.gov
  g.fwok && s.dv.cfg.balen && 0 < g.setptNow && 5 ≤ g.fwSamples &&
    (g.samples.take 5).all fun p => p * 1000 < g.setptNow * (1000 - g.gband)

/-- Running strands of ballast regions. -/
def State.ballastStrands (s : State) : List Loc :=
  s.regions.flatMap fun r => if r.2.eff.lvl && r.2.alive then s.strands r.1 else []

/-- The gate as its conditions stand: when it shuts, every running ballast strand receives the yield event, and what
still runs ygrace µs later is pre-empted (R218, R219). A gate that opens again before that takes the yield back: ballast runs
on (DEDUCED from R218, assumption 70). -/
def State.setGate (s : State) : State :=
  let g := s.gateOpen
  if g == s.gov.gate then s
  else
    let s := { s.unsched (· == .ygraceExpiry) with gov := { s.gov with gate := g, yielding := [] } }
    if g then s.kick
    else
      let ls := s.ballastStrands
      let s := ls.foldl (fun s l => s.uiRaise l 1 0) s
      let s := { s with gov := { s.gov with yielding := ls.map fun l => (l.tile, l.part) } }
      if ls.isEmpty then s else s.schedIn (s.ticksOf (1000 * max 1 s.gov.ygrace)) .ygraceExpiry

/-- Without its firmware, P4 is the cap, every offset is 0 and the gate shuts (R223). -/
def State.geyserOff (s : State) : State :=
  let hold (e : Ev) : Bool := match e with
    | .canaryHoldExpiry .. => true
    | _ => false
  let s := { s.unsched hold with gov := { s.gov with
    fwok := false, fwCap := true, fwSamples := 0, rails := s.gov.rails.map fun (r : Rail) => { r with off := [], held := [] } } }
  s.applyCaps.setGate

end Sys2Proof.Machine
end

