-- ==== Sys2Proof/Machine/HomeEv.lean ====
section
/-! DEFINITION. What happens at the homes and on the way: walks, requests, misses, replies, remote scratchpads, errors
and DRAM sensors (R294 to R318, R427 to R440). -/

namespace Sys2Proof.Machine

/-! ### Packets that wait behind others (R409, R428) -/

/-- Whether a partition is live: some region of it has not ended, or a restore owes it one. -/
def State.partLive (s : State) (p : Nat) : Bool := s.regions.any fun g => g.2.part == p && g.2.alive

/-- Whether a message of a class waits at a tile for a context that stands in neither bank: it holds the buffers of its class
there (R409). -/
def State.classHeld (s : State) (t cls : Nat) : Bool :=
  (s.core t).held.any fun m => m.cls == cls && !s.holds ⟨t, m.part⟩

/-- The tile that a request or a reply goes to, and its class (R394). -/
def State.arrives (s : State) : Ev → Option (Nat × Nat)
  | .homeRequestServe q => if isHome q.pa then some (s.homeTile q.pa, 0) else none
  | .remoteAccessServe q => some (q.target, 0)
  | .homeReplyArrival r => if r.q.peer.isSome || r.q.agent.isSome then none else some (r.q.loc.tile, 1)
  | .remoteAckArrival q _ _ => some (q.loc.tile, 1)
  | .sendAckArrival l _ _ _ => some (l.tile, 1)
  | _ => none

/-- A packet waits a tick, and with it, behind it and in their order, those like it that would arrive by then. -/
def State.putBack (s : State) (mine : Ev → Bool) (e : Ev) : State :=
  let hit (x : Nat × Ev) : Bool := x.1 ≤ s.tick + 1 && mine x.2
  (e :: (s.agenda.filter hit).map (·.2)).foldl (fun s e => s.schedIn 1 e) { s with agenda := s.agenda.filter fun x => !hit x }

/-- A packet that reaches a tile waits behind the messages that hold the buffers of its class there (R409). -/
def State.behindHeld (s : State) (t cls : Nat) (e : Ev) (k : Out) : Out :=
  if s.classHeld t cls then ok (s.putBack (fun x => s.arrives x == some (t, cls)) e) else k

/-! ### Walks (R303 to R305) -/

/-- A walk ends: its translation is cached, or the stalled word finds the fault when it tries again (R305). It goes on
while an entry waits at its home (R304, R308). -/
def execTranslationWalk (l : Loc) (va acc : Nat) (s : State) : Out :=
  if s.xlWaits l va then ok (s.schedIn 1 (.translationWalk l va acc))
  else
  let r := s.checkWalk (s.walk l va).2 va acc
  let s := (s.walk l va).1
  ok (s.updCtx l fun c =>
    match c.walk with
    | some (a, none) => if a == va then { c with walk := match r with
        | .ok _ => none
        | .error x => some (va, some x) } else c
    | _ => c)

/-! ### Requests at a home (R294, R428) -/

/-- Sends a reply in class 1, in the order that the request's header names: to the tile that asked, or by the attach port to the
host or to another device (R89, R290, R318, R394, R398, R424). -/
def State.sendReply (s : State) (r : HomeRep) : State :=
  let n := match r.q.op with
    | .read size _ _ => size
    | .ldrm t _ | .atom _ t _ _ | .cas t _ _ _ => tySize t
    | .write .. | .merge .. | .strm .. => 0
  match r.q.agent, r.q.peer with
  -- what the device writes for itself is not answered
  | some _, _ => if n = 0 then s else s.packet r.q.loc.part [{ order := 0, src := s.endOf r.q.pa, dst := none, bytes := n }]
    (.homeReplyArrival r)
  | none, some _ => s.packet r.q.loc.part [{ order := r.q.rorder, src := s.endOf r.q.pa, dst := none, bytes := n }]
    (.homeReplyArrival r)
  | none, none => s.packet r.q.loc.part [{ order := r.q.rorder, src := s.endOf r.q.pa, dst := some r.q.loc.tile, bytes := n }]
    (.homeReplyArrival r)

/-- A reply on its way (R318). -/
def State.reply (s : State) (q : HomeReq) (wr : List Wr) (ls : Option (Bool × Nat × Nat)) (pz : Bool) : State :=
  s.sendReply { q := q, wr := wr, lastseq := ls, poisoned := pz, err := false }

/-- The write that a read's value makes. -/
def destWrite (d : LdDest) (bs : List Byte) : List Wr :=
  match d with
  | .s n t => [.s n (valWord t (leNat bs))]
  | .v n m => [.v n m (vecBytes bs)]
  | .none => []

/-- Lays the strand's own write-set bytes over the bytes read (R301). -/
def overlay (pa : Nat) (own : List (Nat × Byte)) (bs : List Byte) : List Byte :=
  ((List.range bs.length).zip bs).map fun x =>
    match own.find? fun b => b.1 == pa + x.1 with
    | some b => b.2
    | none => x.2

/-- Whether a read consumes a byte that came from the home (R311). -/
def usesHome (pa size : Nat) (own : List (Nat × Byte)) (d : LdDest) : Bool :=
  (List.range size).any fun i =>
    (match d with
     | .v _ m => m.getLsbD (i / 4 % 32)
     | .s .. | .none => true) && !own.any fun b => b.1 == pa + i

/-- The value that an atom writes (R319). -/
def atomNew (op : AtomOp) (t : Ty) (old b : Nat) : Nat :=
  match op with
  | .add => combine .add t old b
  | .min => combine .min t old b
  | .max => combine .max t old b
  | .and => combine .and t old b
  | .or => combine .or t old b
  | .xor => combine .xor t old b
  | .swap => b
  | .fadd => combine .fadd t old b

/-- Bytes that a merge writes, each valid element combined into the stored value (R302). -/
def mergeBytes (pa : Nat) (op : UpdOp) (t : Ty) (elems : List (Nat × Nat)) (stored : Nat → Nat) : List (Nat × Byte) :=
  let z := tySize t
  elems.flatMap fun e => addrBytes (pa + z * e.1) (leBytes z (combine op t (stored e.1) e.2))

/-- A home has performed a request: where this device's strand made it, the strand's count follows (R427). -/
def State.didServe (s : State) (q : HomeReq) : State := if q.peer.isSome || q.agent.isSome then s else s.performed q.loc
/-- A home has accepted a line (R427). -/
def State.didAccept (s : State) (q : HomeReq) (pub : Nat) : State :=
  if q.peer.isSome || q.agent.isSome then s else s.accepted q.loc pub

/-- A request is performed at its home slice (R294, R427, R428). -/
def State.serve (s : State) (q : HomeReq) : State :=
  let s := s.sliceTouch q.pa
  let pz := s.linePoison q.pa
  let rmw (t : Ty) (d : LdDest) (f : Nat → Option Nat) : State :=
    let z := tySize t
    let old := s.mem.nat q.pa z
    if pz then (s.reply q [] none true).didServe q
    else match f old with
      | some v =>
        let (s', sl, n) := s.stamp q.pa
        let s' := s'.lineWrite (addrBytes q.pa (leBytes z v)) false
        (s'.reply q (destWrite d (leBytes z old)) (some (true, sl, n)) false).didServe q
      | none => (s.reply q (destWrite d (leBytes z old)) (some (false, s.homeSlice q.pa, 0)) false).didServe q
  match q.op with
  | .read size own d =>
    if pz && q.agent.isNone && usesHome q.pa size own d then (s.reply q [] none true).didServe q
    else (s.reply q (destWrite d (overlay q.pa own (s.mem.bytes q.pa size))) none false).didServe q
  | .write bs pub => (s.homeWrite bs false).didAccept q pub
  | .merge op t es pub =>
    -- an update merge leaves a poisoned granule poisoned (R311)
    let bs := mergeBytes q.pa op t es fun i => s.mem.nat (q.pa + tySize t * i) (tySize t)
    (((s.stamp q.pa).1).lineWrite bs pz).didAccept q pub
  | .ldrm t d =>
    if pz then (s.reply q [] none true).didServe q
    else (s.reply q (destWrite d (s.mem.bytes q.pa (tySize t))) none false).didServe q
  | .strm t v =>
    let (s', sl, n) := s.stamp q.pa
    let s' := s'.lineWrite (addrBytes q.pa (leBytes (tySize t) v)) false
    (s'.reply q [] (some (true, sl, n)) false).didServe q
  | .atom op t b d => rmw t d fun old => some (atomNew op t old b)
  | .cas t cmp new d => rmw t d fun old => if old = cmp then some new else none

/-- Access kind of a request, as a detail word gives it (R305). -/
def homeAcc : HomeOp → Nat
  | .read .. => accRead
  | .write .. => accBuf
  | .merge .. => accUpd
  | .ldrm .. => accHomeRead
  | .strm .. | .atom .. | .cas .. => accHomeWrite

/-- The device that a peer window reaches, and the address there (R425). -/
def State.peerDev (s : State) (pa : Nat) : Nat := (Tbl.get 0 s.dv.pwin (winOf pa)).toNat / 2 ^ 32 % 4096
/-- The address that a peer window reaches at the peer (R425). -/
def State.peerPa (s : State) (pa : Nat) : Nat :=
  (Tbl.get 0 s.dv.pwin (winOf pa)).toNat % 8 * 2 ^ 38 + (pa - 2 ^ 46) % 2 ^ 38

/-- A request to host or peer memory: what it reads there is not the device's (R294, R298, assumption 12). -/
def State.serveOutside (s : State) (q : HomeReq) : State :=
  let stamp (s : State) : State × Nat := ((s.outsideRead q.pa 4).1, leNat (s.outsideRead q.pa 4).2)
  let rmw (t : Ty) (d : LdDest) (f : Nat → Option Nat) : State :=
    let z := tySize t
    let (s, bs) := s.outsideRead q.pa z
    match f (leNat bs) with
    | some v =>
      let (s, n) := stamp (s.outsideWrite (addrBytes q.pa (leBytes z v)))
      (s.reply q (destWrite d bs) (some (true, 0x7FF, n)) false).didServe q
    | none => (s.reply q (destWrite d bs) (some (false, 0x7FF, 0)) false).didServe q
  match q.op with
  | .read size own d =>
    let (s, bs) := s.outsideRead q.pa size
    (s.reply q (destWrite d (overlay q.pa own bs)) none false).didServe q
  | .write bs pub => (s.outsideWrite bs).didAccept q pub
  | .merge op t es pub =>
    let (s, bs) := s.outsideRead q.pa 128
    let z := tySize t
    (s.outsideWrite (mergeBytes q.pa op t es fun i => leNat ((bs.drop (z * i)).take z))).didAccept q pub
  | .ldrm t d =>
    let (s, bs) := s.outsideRead q.pa (tySize t)
    (s.reply q (destWrite d bs) none false).didServe q
  | .strm t v =>
    let (s, n) := stamp (s.outsideWrite (addrBytes q.pa (leBytes (tySize t) v)))
    (s.reply q [] (some (true, 0x7FF, n)) false).didServe q
  | .atom op t b d => rmw t d fun old => some (atomNew op t old b)
  | .cas t cmp new d => rmw t d fun old => if old = cmp then some new else none

/-- A slice fetches a missing line: from its vault over the column's own bus, or from an HBM controller behind its attach port, with
a request and the line on their routes (R89, R91, R296); one that fails in a router is asked for again (DEDUCED, assumption
93). -/
def State.fetchLine (s : State) (pa : Nat) : State :=
  if spaceOf pa == .vault then s.schedFree 0 (.dramMissFill pa)
  else
    let t := s.homeTile pa
    match s.legTime [{ order := 0, src := some t, dst := none }, { order := 0, src := none, dst := some t, bytes := 128 }] with
    | .ok n => s.schedFree n (.dramMissFill pa)
    | .error x => (s.schedIn 1 (.detourBlocked x 64)).schedFree 1 (.dramMissFill pa)

/-- A request of another device goes from its attach port to the home, in its header's order (R424). -/
def State.enterReq (s : State) (q : HomeReq) : State :=
  s.packet 64 [{ order := q.order, src := none, dst := s.endOf q.pa, bytes := homeBytes q.op }]
    (.homeRequestServe { q with entered := true })

/-- A request reaches its home: it is performed, or it waits for the line, after the requests to it that wait already;
a miss to a BLOCKED stack or group waits there (R294, R296, R308). One to a peer leaves by port (dev + line) mod 16, or waits
while every port is down (R424); one that a peer makes of what this device does not hold is answered with an error (R425). -/
def execHomeRequestServe (q : HomeReq) (s : State) : Out :=
  if q.peer.isSome && !q.entered && isHome q.pa then ok (s.enterReq q)
  else if isHome q.pa then
    s.behindHeld (s.homeTile q.pa) 0 (.homeRequestServe q) <|
      if s.sliceHit q.pa && !s.lineWaits q.pa then ok (s.serve q)
      else
        let first := !s.lineWaits q.pa
        let s := { s with missQ := s.missQ ++ [q] }
        if first && !s.dramBlocked q.pa then ok (s.fetchLine q.pa) else ok s
  else if q.peer.isSome then ok (s.sendReply { q := q, wr := [], lastseq := none, poisoned := false, err := true })
  else if spaceOf q.pa == .peer then
    if (s.zheostPort (s.peerDev q.pa + q.pa / 128)).isNone then
      ok (s.putBack (fun e => match e with
        | .homeRequestServe r => r.loc == q.loc && r.pa / 128 == q.pa / 128
        | _ => false) (.homeRequestServe q))
    else if isHome (s.peerPa q.pa) then ok (s.serveOutside q)
    -- the peer has nothing there, and answers with an error completion
    else ok (s.sendReply { q := q, wr := [], lastseq := none, poisoned := false, err := true })
  else ok (s.serveOutside q)

/-- A missing line is fetched whole into its slice, and what waits for it is performed in the order of arrival (R296). -/
def execDramMissFill (pa : Nat) (s : State) : Out :=
  if s.dramBlocked pa then ok s
  else
    let qs := s.missQ.filter fun r => r.pa / 128 == pa / 128
    let s := { s.sliceTouch pa with missQ := s.missQ.filter fun r => r.pa / 128 != pa / 128 }
    ok (qs.foldl State.serve s)

/-! ### Replies (R311, R314, R318) -/

/-- The value of the word that bound a token lands at the end of tick n: a register takes it, and the output stream in
which the word took its place at its issue is pushed (R175, R283, R314). What the push's conversion raises is set then,
and takes no FP_TRAP (DESIGN CHOICE, assumption 60: the word has issued, and R239 traps at issue only). -/
def State.landWr (s : State) (l : Loc) (tok : Option Nat) (n : Nat) (w : Wr) : State :=
  match w with
  | .v r m v =>
    let mine (p : Push) : Bool := p.slot == r && p.tok == tok && p.data.isNone
    match (s.ctx l).pushes.find? mine with
    | some p =>
      let fs := (p.cfg.outElems m v).foldl (fun a e => a ||| e.2.fl) 0
      let s := s.updCtx l fun c =>
        { (if fs = 0 then c else c.pendK tok (n + 1) (.flags fs)) with
          pushes := c.pushes.map fun x =>
            if mine x && x.idx == p.idx then { x with tok := none, data := some (n, v, m) } else x }
      s.pump l r
    | none => s.updCtx l fun c => c.pendK tok (n + 1) w
  | w => s.updCtx l fun c => c.pendK tok (n + 1) w

/-- An access that trapped imprecisely is made again one tick after the resumption (R311, R451). -/
def State.again (s : State) (l : Loc) (ev : Ev) : State :=
  (s.updCtx l fun c => { c with accOut := c.accOut + 1 }).updPart l.part fun p => { p with frozen := p.frozen ++ [(1, ev)] }

/-- A reply to a token-bound word lands, and its token completes on the next tick (R314, R318); poisoned data traps
imprecisely, leaves the destination unwritten, and the access is made again on resumption (R311, R451). -/
def State.tokenReply (s : State) (l : Loc) (tok : Option Nat) (wr : List Wr) (pz : Bool) (pc : Nat) (redo : Ev) : State :=
  if pz then (s.trapEngine l 0 cPoison pc 0 0).again l redo
  else
    let n := (s.ctx l).now s.tick
    let s := wr.foldl (fun s w => s.landWr l tok n w) s
    match tok with
    | some k => s.tokDone l k (n + 1)
    | none => s

/-- Bytes laid over a list from a place on. -/
def layAt (bs : List Byte) (o : Nat) (new : List Byte) : List Byte :=
  bs.take o ++ List.replicate (o - bs.length) 0 ++ new ++ bs.drop (o + new.length)

/-- A home's reply reaches the issuing tile (R298, R318); a peer's error completion halts the context (R425). One for the host or
for another device reaches the attach port: what BAR2 reads has come, or the reply leaves, once a port is up (R290, R424). -/
def execHomeReplyArrival (r : HomeRep) (s : State) : Out :=
  let l := r.q.loc
  match r.q.agent, r.q.peer with
  | some o, _ =>
    let new := r.wr.flatMap fun w => match w, r.q.op with
      | .v _ _ v, .read n _ _ => leBytes n v.toNat
      | _, _ => []
    ok { s with dv := { s.dv with bar2 := layAt s.dv.bar2 o new } }
  | none, some d =>
    if (s.zheostPort 0).isNone then ok (s.schedIn 1 (.homeReplyArrival r))
    else ok { s with dv := { s.dv with sentReps := (d, r) :: s.dv.sentReps } }
  | none, none =>
  s.behindHeld l.tile 1 (.homeReplyArrival r) <|
  if r.err then
    ok ((s.trapEngine l 0 cProtection r.q.pc (xlDetail 3 0 (homeAcc r.q.op) r.q.va) 0).again l (.homeRequestServe r.q))
  else
    let s := match r.lastseq with
      | some (wr, sl, n) =>
        s.updCtx l fun c => { c with lastWr := wr, lastSlice := sl, lastSeq := if wr then n else c.lastSeq }
      | none => s
    ok (s.tokenReply l r.q.tok r.wr r.poisoned r.q.pc (.homeRequestServe r.q))

/-! ### Remote scratchpads (R317) -/

/-- A remote access is served at the target's engine port; a gated quad wakes first (R102, R317). -/
def execRemoteAccessServe (q : RemReq) (s : State) : Out :=
  s.behindHeld q.target 0 (.remoteAccessServe q) <|
  if !s.quadAwake q.target then ok ((s.wakeQuad q.target).schedIn (s.ticksOf 250) (.remoteAccessServe q))
  else
    let tl : Loc := ⟨q.target, q.loc.part⟩
    let s := (s.quadRest q.target).landAt tl
    let c := s.ctx tl
    let ack (n : Nat) : List Leg := [{ order := q.rorder, src := some q.target, dst := some q.loc.tile, bytes := n }]
    match q.store with
    | some v =>
      let s := s.engWrite tl 0 3 (laneBytes q.mask q.off v)
      ok ((s.performed q.loc).packet q.loc.part (ack 0) (.remoteAckArrival q [] false))
    | none =>
      let bad := (List.range 32).any fun i => q.mask.getLsbD i && c.spBad (q.off + 4 * i) 4
      ok ((s.performed q.loc).packet q.loc.part (ack 128)
        (.remoteAckArrival q [.v q.dest q.mask (vecBytes (c.sp.bytes q.off 128))] bad))

/-- The target's reply or acknowledgement reaches the issuing tile (R317). -/
def execRemoteAckArrival (q : RemReq) (wr : List Wr) (poisoned : Bool) (s : State) : Out :=
  s.behindHeld q.loc.tile 1 (.remoteAckArrival q wr poisoned) <| ok (s.tokenReply q.loc (some q.tok) wr poisoned q.pc (.remoteAccessServe q))

/-! ### Errors (R310 to R312) -/

/-- A saturating count of a width. -/
def satInc (w n : Nat) : Nat := min (n + 1) (2 ^ w - 1)

/-- A corrected error is written back corrected, which changes no value, and counted (R310, R312). -/
def execEccCorrected (e : ErrAt) (s : State) : Out :=
  match e with
  | .spad l _ => let k := s.core l.tile; ok (s.setCore l.tile { k with ecctSp := satInc 32 k.ecctSp })
  | .core l .tagTable => let k := s.core l.tile; ok (s.setCore l.tile { k with ecctSp := satInc 32 k.ecctSp })
  | .core l _ => let k := s.core l.tile; ok (s.setCore l.tile { k with ecctCore := satInc 32 k.ecctCore })
  | .slice _ => ok { s with eccd := { s.eccd with sce := satInc 24 s.eccd.sce } }
  | .dram _ => ok { s with eccd := { s.eccd with dce := satInc 24 s.eccd.dce } }

/-- The rail that an error is attributed to (R215). The table names neither the tag table nor the buffers; here they go with the
scratchpad and the instruction store (DEDUCED, assumption 91). -/
def errRail : ErrPlace → Nat
  | .accumulator | .latch => 0
  | .datapath => 1
  | .register | .instrStore | .tagTable | .buffer => 2
  | .engine => 3

/-- An uncorrectable error poisons data, or halts the context (R215, R311). -/
def execUncorrectableError (e : ErrAt) (s : State) : Out :=
  let poisonLine (s : State) (pa : Nat) : State :=
    if s.poison.contains (pa / 128) then s else { s with poison := (pa / 128) :: s.poison }
  match e with
  | .spad l a =>
    ok ((s.updCtx l fun c => if c.spPoison.contains (a / 8) then c else { c with spPoison := (a / 8) :: c.spPoison }).railError 2)
  | .core l x => ok ((s.trapEngine l 0 cUncorrectable (s.ctx l).pc 0 0).railError (errRail x))
  | .slice pa => ok ((poisonLine { s with eccd := { s.eccd with sue := satInc 8 s.eccd.sue } } pa).railError 2)
  | .dram pa => ok (poisonLine { s with eccd := { s.eccd with due := satInc 8 s.eccd.due } } pa)

/-- A slice scrubs its lines: it corrects what it finds, by ECC_CORRECTED, and changes no value (R310). -/
def execScrub (_slice : Nat) (s : State) : Out := ok s

/-! ### DRAM sensors (R216, R308, R309) -/

/-- The state that a reading leads to, in 0.25 degree units: 0 1x, 1 2x, 2 4x, 3 BLOCKED (R308). -/
def refreshNext (st : Nat) (q : Int) : Nat :=
  let up := if 420 < q then 3 else if 380 ≤ q then 2 else if 340 ≤ q then 1 else 0
  let down := if st = 3 then (if q < 412 then 2 else 3) else st
  let down := if down = 2 then (if q < 372 then 1 else 2) else down
  let down := if down = 1 then (if q < 332 then 0 else 1) else down
  max up down

/-- A reading of a stack or vault group: the refresh state follows it, the DRAM cap with it, and misses that waited for
a BLOCKED one go on (R216, R308). -/
def execDramSensorReading (n : Nat) (r : Reading) (s : State) : Out :=
  let d := Tbl.get {} s.dts n
  let q : Int := match r with
    | .temp q => q
    | .fail | .masked => 400
  let st := refreshNext d.st q
  let temp : Int := match r with
    | .temp q => q
    | .fail | .masked => d.temp
  let failed : Bool := match r with
    | .temp _ => false
    | .fail | .masked => true
  let s := { s with dts := Tbl.put s.dts n { temp := temp, fail := failed, st := st, valid := true } }
  -- a failed sensor counts as 100 degrees
  let hot := s.dts.any fun e => e.2.st == 3 || (e.2.valid && (if e.2.fail then (400 : Int) else e.2.temp) > 420)
  let cool := s.dts.all fun e => (if e.2.fail then (400 : Int) else e.2.temp) ≤ 412
  let s := { s with gov := { s.gov with dcap := if hot then true else if cool then false else s.gov.dcap } }
  let s := if d.st == 3 && st != 3 then
      ((s.missQ.filter fun r => dtIndex r.pa == n).map fun r => r.pa / 128).eraseDups.foldl
        (fun s line => s.fetchLine (128 * line)) s
    else s
  ok s.applyCaps

end Sys2Proof.Machine
end

