-- ==== Sys2Proof/Machine/KCol.lean ====
section
/-! DEFINITION. The K column: transfers, waiting, phases, recruiting, batches, following and repetition (R140 to R169,
R199, R204), with the events they lead to. -/

namespace Sys2Proof.Machine

/-! ### Transfers (R142, R143) -/

/-- A transfer to a target: it is checked, a follower compares it with its leader's, and the word's own write follows. -/
def transfer (s : State) (det : Bool) (tgt : Int) (w : State → State) : Out :=
  noCapture s <|
    guardT s (tgt == (s.pcNow : Int) + 1 || (0 ≤ tgt && tgt < (s.c.words : Int))) cIllegalOperand <|
      match s.cur.ent with
      | some e =>
        let s' := s.goTo e det tgt.toNat
        if s'.cur.trapped then .next s' else .next (w s')
      | none => .next (w s)

/-- br (R143). -/
def execBr (det : Bool) (off : BitVec 18) (s : State) : Out :=
  transfer s det ((s.pcNow : Int) + off.toInt) id
/-- call: the return index is pc + 1 (R143). -/
def execCall (det : Bool) (d : BitVec 6) (off : BitVec 18) (s : State) : Out :=
  let pc := s.pcNow
  transfer s det ((pc : Int) + off.toInt) fun s => s.putS 1 d (BitVec.ofNat 64 (pc + 1))
/-- ret (R143). -/
def execRet (det : Bool) (a : BitVec 6) (s : State) : Out := transfer s det ((s.sreg a).toNat : Int) id
/-- jmpi: the sum wraps modulo 2^64 (R143). -/
def execJmpi (det : Bool) (a : BitVec 6) (off : BitVec 18) (s : State) : Out :=
  transfer s det ((s.sreg a + off.signExtend 64).toNat : Int) id
/-- loop (R143). -/
def execLoop (det : Bool) (d : BitVec 6) (off : BitVec 18) (s : State) : Out :=
  let n := s.sreg d - 1
  let pc : Int := (s.pcNow : Int)
  transfer s det (if n = 0 then pc + 1 else pc + off.toInt) fun s => s.putS 1 d n

/-- nop (R144). -/
def execNop (s : State) : Out := ok s
/-- trap (R145). -/
def execTrap (code : BitVec 18) (s : State) : Out := ok (s.softTrap code.toNat)

/-! ### Waiting (R146, R199, R200) -/

/-- The sequence number of the word that executes. -/
def State.seqNow (s : State) : Nat := (s.cur.ent.map (·.seq)).getD 0

/-- The strand waits in a block; while a user-level event is being delivered a sleep, recv or waitt ends at once and
issues again on return (R463). -/
def State.blockIn (s : State) (b : Block) : State :=
  let s := s.updC fun c => { c with block := b, blockSeq := s.seqNow }
  if s.c.ui.going.isSome then
    s.updC fun c => match c.block with
      | .sleep m pc => c.cutAt (if m.getLsbD 9 then pc + 1 else pc) s.T
      | .recv _ _ pc _ | .waitt _ pc => c.cutAt pc s.T
      | .none | .boundary | .bar | .fence .. | .xbar .. | .mmg | .leave .. => c
  else s

/-- Whether a named event of a sleep holds on a tick (R146). The spec does not say when the event of a delivered child
already holds: here it does while the strand's batch in progress, or its last one, has a delivery that no sleep has seen
(DESIGN CHOICE, assumption 57). -/
def Ctx.sleepHolds (c : Ctx) (m : BitVec 10) (n : Nat) : Bool :=
  ((List.range 8).any fun i => m.getLsbD i && (c.tok i).holds n) || (m.getLsbD 8 && 0 < c.batch.news)

/-- The end of a sleep: a delivery that it names is seen once. -/
def Ctx.sleepSeen (c : Ctx) (m : BitVec 10) : Ctx :=
  if m.getLsbD 8 then { c with batch := { c.batch with news := c.batch.news - 1 } } else c

/-- sleep (R146). -/
def execSleep (mask : BitVec 10) (s : State) : Out :=
  elastic s <| noHandler s <|
    if s.c.sleepHolds mask s.T then ok (s.updC (·.sleepSeen mask))
    else
      -- tokens that are known to complete later wake it then
      let s := (List.range 8).foldl (fun s i => match s.c.tok i with
        | .done x => if mask.getLsbD i then s.schedAt s.here x (.sleepWake s.here) else s
        | .unbound | .pending => s) s
      ok ((s.blockIn (.sleep mask s.pcNow)).sched s.tick (.sleepWake s.here))

/-- The tick of a release that may fall up to two ticks after C: a free delay (R200). -/
def State.waitEnd (s : State) (l : Loc) (tok : Option Nat) : State :=
  (s.schedIn (min 2 s.delay) (.waittRelease l tok)).tookDelay

/-- On a tick of a context that is not frozen: its waits whose targets tm.now has reached are released (R200). -/
def State.pollWaits (s : State) (l : Loc) : State :=
  let c := s.ctx l
  if c.frozen.isSome then s
  else
    let hit := c.waits.filter fun w => w.2 ≤ s.tmNow
    let s := if hit.isEmpty then s else s.updCtx l fun c => { c with waits := c.waits.filter fun w => s.tmNow < w.2 }
    let s := hit.foldl (fun s w => s.waitEnd l (some w.1)) s
    match c.block with
    | .waitt target _ =>
      if target ≤ s.tmNow && !s.agenda.any fun e => e.2 == .waittRelease l none then s.waitEnd l none else s
    | _ => s

/-- waitt (R199, R200); one whose target has passed releases on its issue tick (R502). -/
def execWaitt (tok : Option (BitVec 3)) (a : Src) (s : State) : Out :=
  let target := (s.src a).toNat
  elastic s <| guardT s (target ≤ s.tmNow + 2 ^ 36) cIllegalOperand <|
    match tok with
    | none => noHandler s <|
      let s' := (s.seen a).blockIn (.waitt target s.pcNow)
      if target ≤ s.tmNow then ok (s'.sched s.tick (.waittRelease s.here none)) else ok s'
    | some k => freeTok s k.toNat <|
      let s' := (s.seen a).updC fun c => c.bind k.toNat
      if target ≤ s.tmNow then ok (s'.sched s.tick (.waittRelease s.here (some k.toNat)))
      else ok (s'.updC fun c => { c with waits := c.waits ++ [(k.toNat, target)] })

/-! ### Phases and bars (R147 to R152) -/

/-- phase: the strand's arrival, and its publication (R148, R300). -/
def execPhase (sc : Scope) (kind : PKind) (sync step : Bool) (s : State) : Out :=
  noHandler s <| noCapture s <|
    let r := s.c.region
    let l := s.here
    guardT s (!step || s.isSuperstep r sc s.me) cIllegalOperand <|
      if sync && !s.c.noneBound s.T then ok s.stall
      else
        guardT s (match s.c.fol.armed with
          | some d => scopeInst sc r (neighbour s.me d) == scopeInst sc r s.me
          | none => true) cIllegalOperand <|
          let lead : Option Arr := s.c.fol.armed.bind fun d => (s.ctx ⟨neighbour s.me d, l.part⟩).arr
          guardT s (match lead with
            | some b => b.pc == s.pcNow
            | none => true) cFollowDiverge <|
            let s := (s.blockIn .boundary).updC fun c => { c with ui := { c.ui with going := none } }
            let a : Arr :=
              { sc := sc, kind := kind, step := step, at_ := s.tick, pub := 0, pubDone := false, pubAt := 0, tok := none,
                pc := s.pcNow, ent := s.cur.ent }
            ok ((s.updC fun c => { c with arr := some a }).examine false r)

/-- bar (R152). -/
def execBar (sc : Scope) (tok : Option (BitVec 3)) (s : State) : Out :=
  elastic s <| noHandler s <| noCapture s <|
    let a : Arr :=
      { sc := sc, kind := .elastic, step := false, at_ := s.tick, pub := 0, pubDone := true, pubAt := 0,
        tok := tok.map (·.toNat), pc := s.pcNow, ent := s.cur.ent }
    let r := s.c.region
    let arrive (s : State) : Out := ok ((s.updC fun c => { c with bars := c.bars ++ [a] }).examine true r)
    match tok with
    | some k => freeTok s k.toNat <| arrive (s.updC fun c => c.bind k.toNat)
    | none => arrive (s.blockIn .bar)

/-! ### What a join comes to (R125, R128, R157) -/

/-- A join takes effect: the strand goes on behind it, or it parks. The cell of the last arrival is freed (R423): as its count
reached zero, or now where the strand follows and its join could still diverge (R125). -/
def State.joinEnd (s : State) (l : Loc) (pc : Nat) (cell : Option Nat) (cont : Bool) : State :=
  if cont then
    let follows := (s.ctx l).fol.cur.isSome
    let s := match cell.filter fun _ => follows with
      | some h => match Tbl.find s.cells h with
        | some x => if x.trig then s else State.kick { s with cells := Tbl.del s.cells h }
        | none => s
      | none => s
    (s.updCtx l fun c =>
      let c := { c with block := .none, fol := { c.fol with join := none } }
      if follows then c else c.resolve pc (pc + 1) (c.now s.tick)).uiPoll l
  else (if (s.ctx l).trig then s else s.triggerCount l).endStrand l

/-- A follower's join whose outcome differs from its leader's has no effect: its arrival is taken back, the word stands in
its queue again, and it traps with FOLLOW_DIVERGE (R125). -/
def State.joinDiverge (s : State) (l : Loc) (e : QEnt) (cell : Option Nat) : State :=
  let r := (s.ctx l).region
  let s := match cell with
    | some h =>
      let x : Cell := (Tbl.find s.cells h).getD ⟨r, 0, false⟩
      { s with cells := Tbl.put s.cells h { x with count := x.count + 1 } }
    | none => s
  let s := s.updCtx l fun c => { c with q := insEnt e c.q, block := .none, fol := { c.fol with join := none } }
  (s.updCtx l fun c => { c with stopped := true }).raiseTrap l
    (s.mkStop l 0 cFollowDiverge true e.pc e.bits.toNat 0 0)

/-- Forwards what a join has come to: its followers have it 3 ticks later (R123). A handler's join is not forwarded (R130). -/
def State.tellJoin (s : State) (l : Loc) (cont : Bool) : State :=
  if (s.ctx l).ui.inh then s
  else (s.followers l.tile l.part).foldl (fun acc t =>
    acc.schedIn 3 (.forwardedWordIssue ⟨t, l.part⟩ ⟨0, 0, none, 0, 0, 0, some cont⟩)) s

/-- A join whose own outcome and whose leader's outcome are both known is settled, and its outcome is forwarded; where the two
differ the leader's stays, for the word's next issue (R125, R127, R451). -/
def State.joinSettle (s : State) (l : Loc) : State :=
  match (s.ctx l).fol.join, (s.ctx l).fol.joined with
  | some (e, cell, some cont), b :: r =>
    if cont == b then
      ((s.updCtx l fun c => { c with fol := { c.fol with joined := r } }).tellJoin l cont).joinEnd l e.pc cell cont
    else s.joinDiverge l e cell
  | _, _ => s

/-- A join that does nothing, by a false guard or the handle 0xFFFF, continues: a follower waits for its leader's outcome
where that is not known yet, and compares the two (R125, R157). -/
def State.joinNop (s : State) (e : QEnt) : State :=
  let l := s.here
  if e.fwd then
    match s.c.fol.joined with
    | false :: _ => s.trapWord cFollowDiverge
    | true :: r =>
      let s := s.updC fun c => { c with fol := { c.fol with joined := r } }
      State.tellJoin { s with cur := { s.cur with outcome := some (e.pc + 1) } } l true
    | [] => s.updC fun c => { c with
        block := .leave none 3 0 e.pc, blockSeq := e.seq, fol := { c.fol with join := some (e, none, some true) } }
  else (s.goTo e false (e.pc + 1)).tellJoin l true

/-- A word whose guard is false: it changes nothing, but a transfer falls through (R114, R143). -/
def State.falseGuard (s : State) (e : QEnt) : State :=
  match transferDet e.x.instr, e.x.instr with
  | some det, _ => s.goTo e det (e.pc + 1)
  | none, .join _ => s.joinNop e
  | none, _ =>
    if splits e.x.instr then
      if e.fwd then { s with cur := { s.cur with outcome := some (e.pc + 1) } } else s.goTo e false (e.pc + 1)
    else
      -- the last reissue of a captured word that binds a token (R373)
      match mTokOf e.x.instr with
      | some k => if 0 < e.j && e.j == s.c.repCount e then s.updC fun c => c.lastIssue s.T k e.pc else s
      | none => s

/-! ### Recruiting (R153 to R156) -/

/-- rfork (R153). -/
def execRfork (q : Bool) (d a b : BitVec 6) (off : BitVec 18) (s : State) : Out :=
  elastic s <| noHandler s <| noCapture s <|
    let sa := (s.sreg a).toNat
    let sb := (s.sreg b).toNat
    guardT s (d != 1 && d != 2 && sb != 0) cIllegalOperand <|
      let m := (sa + sb - 1) / sb
      let pc := s.pcNow
      let tgt : Int := (pc : Int) + off.toInt
      -- a target outside the code is no fault of rfork: the strands that start there take R120's trap
      let at_ := (tgt % 2 ^ 64).toNat
      let go (s : State) (t : Nat) : State := match s.cur.ent with
        | some e => if e.fwd then { s with cur := { s.cur with outcome := some t } } else s.goTo e false t
        | none => s
      if m = 0 then ok ((go s (pc + 1)).putS 1 d 0xFFFF)
      else
        guardT s (!(q && 4096 < m)) cIllegalOperand <|
            let r := s.c.region
            let g := s.region r
            let nearer (x y : Nat) : Bool :=
              let (dx, dy) := (treeDist g.eff s.me x, treeDist g.eff s.me y)
              dx < dy || (dx == dy && g.eff.strandOf x ≤ g.eff.strandOf y)
            let slots := sortBy nearer (s.idleSlots r)
            let avail := min slots.length (g.eff.tiles - (s.busySlots r).length)
            let k := min m (1 + avail)
            match s.freeCell (tileZ s.me) with
            | none => ok s.stall
            | some h =>
              if q && 65536 < s.recs.length + (m - k) then ok s.stall
              else
                let lo (j : Nat) : Nat := if q then j * sb else j * m / k * sb
                let hi (j : Nat) : Nat := if q then min ((j + 1) * sb) sa else min ((j + 1) * m / k * sb) sa
                let st (j : Nat) : Start :=
                  { region := r, pc := at_, s1 := lo j, s2 := hi j, dreg := d.toNat, cell := h }
                let s := { s with cells := Tbl.put s.cells h ⟨r, if q then m else k, false⟩ }
                let s := ((List.range (k - 1)).zip slots).foldl (fun s x => s.recruit (some s.me) x.2 (st (x.1 + 1))) s
                let s := if q then
                    (List.range (m - k)).foldl (fun s i =>
                      { s with recs := s.recs ++ [⟨.task (st (k + i)), r, g.part, s.recLevel r, s.recSeq, false⟩],
                               recSeq := s.recSeq + 1 }) s
                  else s
                let s := if q then s.kick else s
                ok ((((go s at_).putS 1 1 (BitVec.ofNat 64 (lo 0))).putS 1 2 (BitVec.ofNat 64 (hi 0))).putS 1 d
                  (BitVec.ofNat 64 h))

/-- join (R157). A region's trigger cell is a join cell that is allocated to it (R162): a join may name it. -/
def execJoin (a : BitVec 6) (s : State) : Out :=
  elastic s <| noHandler s <| noCapture s <|
    let h := (s.sreg a).toNat % 65536
    if h = 0xFFFF then ok (match s.cur.ent with
      | some e => s.joinNop e
      | none => s)
    else
      guardT s (match Tbl.find s.cells h with
        | some c => c.region == s.c.region
        | none => false) cIllegalOperand <|
        let t := s.updC fun c => { c with fol := { c.fol with join := s.cur.ent.map fun e => (e, some h, none) } }
        ok ((t.blockIn (.leave (some h) 0 0 s.pcNow)).leaveStep s.here)

/-! ### Batches and triggers (R158 to R163) -/

/-- spawn (R158). -/
def execSpawn (chain : Bool) (k : BitVec 3) (a b : BitVec 6) (s : State) : Out :=
  elastic s <| noHandler s <| noCapture s <|
    let n := (s.sreg b).toNat
    guardT s ((s.sreg a).toNat % 256 == 0) cAlignment <| guardT s (n < 2 ^ 32) cIllegalOperand <|
      freeTok s k.toNat <|
        if n = 0 then ok (s.updC fun c => c.complete k.toNat s.T)
        else if s.c.batch.active then ok s.stall
        else
          let bt : Batch :=
            { n := n, arr := (s.sreg a).toNat, chain := chain, tok := k.toNat, active := true }
          -- the launches go to the dispenser in class 6
          ok ((s.updC fun c => { c.bind k.toNat with batch := bt }).packet s.here.part
            [s.c.leg 6 (some s.me) none] (.childLaunch s.here))

/-- trigger: the strand issues on at once, and what the trigger publishes takes in every earlier store (R162, R163). -/
def execTrigger (s : State) : Out :=
  noHandler s <|
    if s.c.trig then ok s
    else
      let l := s.here
      ok ((s.updC fun c => { c with trig := true, trigSeq := some ((s.cur.ent.map (·.seq)).getD 0) }).trigStep l)

/-! ### stepdl (R204, R205) -/

/-- The phase records of the strand's role (R59). -/
def State.roleRecs (s : State) : List PhRec :=
  let g := s.region s.c.region
  match Tbl.find s.images g.fileId with
  | some im => ((im.roles.find? fun x => x.role == g.eff.role).map (·.recs)).getD []
  | none => []

/-- Declares a step's deadline and budget: on one tick the lowest strand number stands (R31, R205, R206). -/
def State.declare (s : State) (r dl budget : Nat) : State :=
  let n := s.strandNo r s.here
  s.updRegion r fun g => { g with pace := g.pace.map fun p =>
    if p.declAt == s.tick + 1 && p.declBy < n then p
    else { p with dl := if dl = 0 then p.per else some dl, budget := some budget, declBy := n, declAt := s.tick + 1 } }

/-- stepdl (R205). -/
def execStepdl (a b : Src) (extra : BitVec 18) (s : State) : Out :=
  let sb := (s.src b).toNat
  let first := sb % 65536
  let n := sb / 65536 % 65536
  let rf := sb / 2 ^ 32
  let recs := s.roleRecs
  let used := (recs.drop first).take n
  let budget := if n = 0 then extra.toNat else rf * used.foldl (fun acc p => acc + p.ticks) 0 + extra.toNat
  guardT s (n == 0 || (rf != 0 && first + n ≤ recs.length && !used.any fun p => p.kind == 2 && p.ticks == 0))
    cIllegalOperand <|
    guardT s (budget < 2 ^ 48) cIllegalOperand <|
      let r := s.c.region
      let dl := (s.src a).toNat
      let t := ((s.seen a).seen b).updRegion r fun g => { g with paceStep := s.idStep }
      if (s.region r).eff.dlmode = 0 then ok t else ok (t.declare r dl budget)

/-! ### Following (R122 to R131, R164, R165) -/

/-- The leaders' directions that a strand has in force or armed (R164). -/
def Follow.next (f : Follow) : List Dir := (f.cur.toList ++ f.armed.toList).eraseDups

/-- The most hops up the chains of follows in force or armed; the fuel runs out in a cycle (R122, R164). -/
def State.chainHops (s : State) (p : Nat) : Nat → Nat → Nat
  | 0, _ => 0
  | fuel + 1, t => (s.ctx ⟨t, p⟩).fol.next.foldl (fun m d => max m (1 + s.chainHops p fuel (neighbour t d))) 0

/-- Whether a tile's chains of follows pass through another tile. -/
def State.chainHas (s : State) (p goal : Nat) : Nat → Nat → Bool
  | 0, _ => false
  | fuel + 1, t => (s.ctx ⟨t, p⟩).fol.next.any fun d => neighbour t d == goal || s.chainHas p goal fuel (neighbour t d)

/-- Neighbours of the same region that follow a tile, in force or armed (R122). -/
def State.followedBy (s : State) (p r t : Nat) : Nat :=
  ([Dir.xm, .xp, .ym, .yp, .zm, .zp].filter fun d =>
    let n := neighbour t d
    let c := s.ctx ⟨n, p⟩
    c.live && c.region == r && c.fol.next.any fun f => neighbour n f == t).length

/-- A follow armed on this tick that closes a cycle with another one of this tick traps with it: it is taken back. -/
def State.takeBack (s : State) (l : Loc) (e : QEnt) : State :=
  let s := s.updCtx l fun c => { c with
    fol := { c.fol with armed := none, armAt := none }, q := insEnt e c.q }
  let r := s.mkStop l 0 cIllegalOperand true e.pc e.bits.toNat 0 0
  (s.updCtx l fun c => { c with stopped := true }).raiseTrap l r

/-- follow (R122, R164). A sixth follower of a tile traps as the other follows that R122 bars (DESIGN CHOICE,
assumption 59: the rule names no fate for it). -/
def execFollow (dir : Dir) (s : State) : Out :=
  noHandler s <|
    let p := s.here.part
    let r := s.c.region
    let n := neighbour s.me dir
    guardT s ((s.region r).eff.inBox n && !s.harvested n) cIllegalOperand <|
      let t := s.updC fun c => { c with fol := { c.fol with armed := some dir, armAt := s.cur.ent.map fun e => (s.tick, e) } }
      let cyc := t.chainHas p s.me 17 s.me
      let deep := (t.strands r).any fun l => 15 < t.chainHops p 17 l.tile
      if cyc || deep || 5 < t.followedBy p r n then
        -- the other follows of this tick on the cycle trap too
        let others := if cyc then (s.strands r).filter fun l =>
            l.tile != s.me && t.chainHas p l.tile 17 l.tile &&
              (match (s.ctx l).fol.armAt with
               | some x => x.1 == s.tick
               | none => false)
          else []
        let s := others.foldl (fun s l => match (s.ctx l).fol.armAt with
          | some x => s.takeBack l x.2
          | none => s) s
        trapO s cIllegalOperand
      else ok t

/-- detach (R165). -/
def execDetach (s : State) : Out :=
  noHandler s <|
    let n := s.seqNow
    let pc := s.pcNow
    ok (s.updC fun c =>
      let c := { c with fol := { c.fol with armed := none, armAt := none } }
      if c.fol.cur.isSome then c.leaveLeader n (pc + 1) s.T else c)

/-- rep (R166, R167): a follower runs no sequencer of its own (R169). -/
def execRep (a : BitVec 6) (count : RepCount) (len1 : BitVec 4) (s : State) : Out :=
  noHandler s <| noCapture s <|
    let n := match count with
      | .imm c => c.toNat
      | .reg b => (s.sreg b).toNat
    guardT s (n ≤ 4095) cIllegalOperand <|
      if (s.cur.ent.map (·.fwd)).getD false then ok s
      else
        let st := (s.sreg a).setWidth 32
        ok (s.updC fun c => { c with
          repSeq := c.repSeq + 1
          reps := c.reps ++ [{ rid := c.repSeq + 1, seq := s.seqNow, strides := st, count := n, at_ := s.T, left := len1.toNat + 1,
                               caps := [], j := 0, slip := 0 }] })

/-! ### Events of this chapter -/

/-- A follower receives a word of its leader's stream, or what a join of it has come to (R123, R129). -/
def execForwardedWordIssue (l : Loc) (w : Fwd) (s : State) : Out :=
  let c := s.ctx l
  if c.fol.cur.isSome && c.live then
    match w.joined, decode w.bits with
    | some b, _ =>
      ok ((s.updCtx l fun c => { c with fol := { c.fol with joined := c.fol.joined ++ [b] } }).joinSettle l)
    | none, some x =>
      let n := c.now s.tick
      let e : QEnt :=
        { pc := w.pc, bits := w.bits, x := x, col := colOf w.bits, seq := c.seq, rank := c.seq, avail := n, prev := .none,
          fixed := some n, fwd := true, outcome := w.outcome, j := w.j, strides := w.strides, cnt := w.cnt }
      ok (s.updCtx l fun c => { c with q := insEnt e c.q, seq := c.seq + 1, prev := .pending })
    | none, none => ok s
  else ok s

/-- The sequencer puts the next reissue of its captured words into the queues (R168); it pauses while a handler runs
(R169). -/
def execRepReissue (l : Loc) (rid : Nat) (s : State) : Out :=
  let c := s.ctx l
  match c.reps.find? fun r => r.rid == rid with
  | some r =>
    if c.ui.inh then
      ok ((s.updCtx l fun c => c.setRep { r with slip := r.slip + 1 }).schedIn 1 (.repReissue l rid))
    else
      let j := r.j + 1
      let es := r.caps.map fun x =>
        { x.1 with fixed := some (x.2 + j * r.period + r.slip), j := j, rid := rid, strides := r.strides,
                   avail := 0, notBefore := 0, rank := ((r.caps.getLast?.map fun y => y.1.seq).getD 0) }
      let s := s.updCtx l fun c => { c.setRep { r with j := j } with q := es.foldl (fun q e => insEnt e q) c.q }
      if j < r.count then ok (s.schedAt l (r.firstT + (j + 1) * r.period + r.slip) (.repReissue l rid)) else ok s
  | none => ok s

/-- Whether a set may be released now: it is complete, agrees, and no member is in a complete set that does not. -/
def State.mayRelease (s : State) (isBar : Bool) (r : Nat) (sc : Scope) (inst : Nat) : Bool :=
  let ms := s.members r sc inst
  let others := ((s.namedSets isBar r).map fun x => s.members r x.1 x.2).filter (s.setComplete isBar)
  s.setComplete isBar ms && (s.dissent isBar ms).isEmpty && (isBar || !ms.any s.followPcBad) &&
    (ms.all fun l => match (s.ctx l).arrival isBar with
      | some a => a.sc == sc && a.pubDone
      | none => false) &&
    !(others.any fun o => !(s.dissent isBar o).isEmpty && o.any fun l => ms.contains l)

/-- A set that may not be released on its tick is examined again. -/
def State.unrelease (s : State) (isBar : Bool) (r : Nat) (sc : Scope) (inst : Nat) : State :=
  ((s.members r sc inst).foldl (fun s l => s.updCtx l (·.updArr isBar fun a => { a with rel := false })) s).examine isBar r

/-- A complete set that agrees is released: its members pass the boundary on one tick (R149 to R151, R164). -/
def execBoundaryRelease (region : Nat) (sc : Scope) (inst : Nat) (s : State) : Out :=
  if s.mayRelease false region sc inst then
    let ms := s.members region sc inst
    let step := ms.any fun l => ((s.ctx l).arr.map (·.step)).getD false
    let s := s.takeFollows ms
    let s := ms.foldl (fun s l => match (s.ctx l).arr with
      | some a => s.passBoundary l a
      | none => s) s
    ok (if step then s.stepEnd region else s)
  else ok (s.unrelease false region sc inst)

/-- A barrier releases its participants; the token of the split form completes (R152). -/
def execBarRelease (region : Nat) (sc : Scope) (inst : Nat) (s : State) : Out :=
  if s.mayRelease true region sc inst then
    let ms := s.members region sc inst
    ok ((ms.foldl (fun s l =>
      match (s.ctx l).bars with
      | a :: r =>
        let s := s.updCtx l fun c => { c with bars := r }
        match a.tok with
        | some k => s.tokDone l k ((s.ctx l).now s.tick)
        | none => (s.updCtx l fun c => { c with block := .none }).uiPoll l
      | [] => s) s).examine true region)
  else ok (s.unrelease true region sc inst)

/-- The chained successors of a region that has fired or ended may start (R162). -/
def State.fire (s : State) (r : Nat) : State := (s.updRegion r fun g => { g with fired := true }).kick

/-- Arrivals of one tick count in order of strand number (R157): the lowest of them that is due now. -/
def State.firstArrival (s : State) (l : Loc) (cell : Nat) : Loc :=
  let r := (s.ctx l).region
  s.agenda.foldl (fun (b : Loc) e => match e.2 with
    | .joinCellDecrement x h false =>
      if e.1 ≤ s.tick && h == cell && s.strandNo r x < s.strandNo r b then x else b
    | _ => b) l

/-- A decrement arrives at its cell (R157, R162, R423): the region of a trigger cell that reaches zero fires, and a cell of
rfork is then free. What the count of a trigger cell does at zero, where a join names it as well, R157 leaves open: it stays
there (DESIGN CHOICE, assumption 58). -/
def execJoinCellDecrement (l : Loc) (cell : Nat) (trig : Bool) (s : State) : Out :=
  match Tbl.find s.cells cell with
  | none => ok s
  | some c =>
    let n := c.count - 1
    -- the arrival that counts now; this one takes its place on the agenda
    let m := if trig then l else s.firstArrival l cell
    let s' :=
      if n == 0 && !c.trig && (s.ctx m).fol.cur.isNone then State.kick { s with cells := Tbl.del s.cells cell }
      else { s with cells := Tbl.put s.cells cell { c with count := n } }
    let s' := if n == 0 && c.trig && !(s.region c.region).fired then s'.fire c.region else s'
    if trig then ok s'
    else
      let s' := if m == l then s' else { s' with agenda := s'.agenda.map fun e =>
        if e.2 == (.joinCellDecrement m cell false) && e.1 ≤ s.tick then (e.1, (.joinCellDecrement l cell false)) else e }
      ok (s'.packet m.part [(s.ctx m).leg 6 (some (joinTile cell)) (some m.tile)] (.joinResult m cell (n == 0)))

/-- The result of a join's decrement: the strand parks, or the last one continues and the cell is freed (R157). -/
def execJoinResult (l : Loc) (cell : Nat) (last : Bool) (s : State) : Out :=
  let c := s.ctx l
  match c.block with
  | .leave (some h) 2 _ pc =>
    if h != cell then ok s
    else
      let s := s.updCtx l fun c => { c with
        block := .leave (some h) 3 0 pc
        fol := { c.fol with
          join := c.fol.join.map fun x => (x.1, some h, some last)
          -- a strand that follows nobody compares with itself
          joined := if c.fol.cur.isSome then c.fol.joined else [last] } }
      ok (s.joinSettle l)
  | _ => ok s

/-- A strand that sleeps, or that waits for its tokens on the way out, looks again (R146, R157, R471). -/
def execSleepWake (l : Loc) (s : State) : Out :=
  let c := s.ctx l
  match c.block with
  | .sleep m _ =>
    if c.sleepHolds m (c.now s.tick) then
      ok ((s.updCtx l fun c => { c.sleepSeen m with block := .none }).uiPoll l)
    else ok s
  | _ => ok (s.leaveStep l)

/-- waitt's release (R200). -/
def execWaittRelease (l : Loc) (tok : Option Nat) (s : State) : Out :=
  match tok with
  | some k => ok (s.tokDone l k ((s.ctx l).now s.tick))
  | none => match (s.ctx l).block with
    | .waitt .. => ok ((s.updCtx l fun c => { c with block := .none }).uiPoll l)
    | _ => ok s

/-- The timer of a privileged strand's phase runs out (R457). It restarts from the tick on which the context freezes, and
so trips again once the phase has lasted for its ticks again from there (R451; DEDUCED, assumption 77). -/
def execPhaseTimer (l : Loc) (s : State) : Out :=
  let c := s.ctx l
  if c.live then
    let s := s.trapEngine l 8 cPhaseTimer c.pc 0 0
    ok (s.schedIn ((s.part l.part).haltAt - s.tick + c.timer + 1) (.phaseTimer l))
  else ok s

/-- The handler begins: it reads the event's code and payload, and its first word is available 4 ticks later (R463,
R464). -/
def execUiDelivery (l : Loc) (s : State) : Out :=
  let c := s.ctx l
  match c.ui.going with
  | some ev =>
    if c.running && c.q.isEmpty && !c.awaits && c.kind == .elastic && c.block == .none then
      ok (s.updCtx l fun c =>
        let c := { c with ui := { c.ui.take ev.1 with going := none, inh := true, ret := c.pc } }
        let c := (c.put (.s 65 (BitVec.ofNat 64 ev.1))).put (.s 66 (BitVec.ofNat 64 ev.2))
        c.refetch c.ui.entry (c.now s.tick))
    else ok s
  | none => ok s

end Sys2Proof.Machine
end

