-- ==== Sys2Proof/Machine/CopyCol.lean ====
section
/-! DEFINITION. The copy engine: its words (R326, R332 to R334, R340 to R343) and its transfers (R324, R325, R327 to R331,
R335 to R339). -/

namespace Sys2Proof.Machine

/-! ### The control registers (R326) -/

/-- Reads a copy control register. -/
def CpRegs.get (c : CpRegs) : CpReg → Word
  | .src => c.src | .dst => c.dst | .len => c.len | .str0 => c.str0 | .str1 => c.str1 | .str2 => c.str2
  | .str3 => c.str3 | .str4 => c.str4 | .str5 => c.str5 | .geo => c.geo | .fmt => c.fmt

/-- Writes one. -/
def CpRegs.put (c : CpRegs) (r : CpReg) (v : Word) : CpRegs :=
  match r with
  | .src => { c with src := v }
  | .dst => { c with dst := v }
  | .len => { c with len := v }
  | .str0 => { c with str0 := v }
  | .str1 => { c with str1 := v }
  | .str2 => { c with str2 := v }
  | .str3 => { c with str3 := v }
  | .str4 => { c with str4 := v }
  | .str5 => { c with str5 := v }
  | .geo => { c with geo := v }
  | .fmt => { c with fmt := v }

/-- A field of a register. -/
def bits (v : Word) (lo w : Nat) : Nat := v.toNat / 2 ^ lo % 2 ^ w

/-- Affine mode (R331). -/
def CpRegs.affine (c : CpRegs) : Bool := c.geo.getLsbD 63
/-- The block-cyclic mapping (R330). -/
def CpRegs.dist (c : CpRegs) : Bool := !c.affine && c.geo.getLsbD 42
/-- The dimension mapped onto the mesh. -/
def CpRegs.dim (c : CpRegs) : Nat := bits c.geo 40 2
/-- Extents of the rectangle. -/
def CpRegs.ny (c : CpRegs) : Nat := bits c.geo 36 4 + 1
def CpRegs.nx (c : CpRegs) : Nat := bits c.geo 32 4 + 1
/-- Origin of the rectangle. -/
def CpRegs.gz (c : CpRegs) : Nat := bits c.geo 28 4
def CpRegs.gy (c : CpRegs) : Nat := bits c.geo 24 4
def CpRegs.gx (c : CpRegs) : Nat := bits c.geo 20 4
/-- Block length. -/
def CpRegs.blk (c : CpRegs) : Nat := bits c.geo 0 16
/-- Spaces: 0 local, 1 remote scratchpad, 2 virtual, 3 sinter. -/
def CpRegs.srcsp (c : CpRegs) : Nat := bits c.fmt 0 2
def CpRegs.dstsp (c : CpRegs) : Nat := bits c.fmt 2 2
/-- Element types. -/
def CpRegs.sfmt (c : CpRegs) : Option Ty := rdTy (c.fmt.extractLsb' 4 4)
def CpRegs.dfmt (c : CpRegs) : Option Ty := rdTy (c.fmt.extractLsb' 8 4)
/-- Sizes of the elements in bytes. -/
def CpRegs.ssz (c : CpRegs) : Nat := (c.sfmt.map tySize).getD 1
def CpRegs.dsz (c : CpRegs) : Nat := (c.dfmt.map tySize).getD 1
/-- Rounding code. -/
def CpRegs.rnd (c : CpRegs) : Option Rnd := rdRnd (c.fmt.extractLsb' 12 3)
/-- Stride-gather pattern. -/
def CpRegs.pat (c : CpRegs) : Nat := bits c.fmt 15 5

/-- Dimensions of the mode. -/
def CpRegs.ndim (c : CpRegs) : Nat := if c.affine then 6 else 4
/-- Count of a dimension (R327). -/
def CpRegs.cnt (c : CpRegs) (k : Nat) : Nat :=
  if k < 4 then bits c.len (16 * k) 16
  else if c.affine then bits c.geo (16 * (k - 4)) 16 else 1
/-- The stride register of a dimension. -/
def CpRegs.str (c : CpRegs) (k : Nat) : Word :=
  match k with
  | 0 => c.str0 | 1 => c.str1 | 2 => c.str2 | 3 => c.str3 | 4 => c.str4 | _ => c.str5
/-- Source and destination strides; a dimension outside the mode has none. -/
def CpRegs.sstr (c : CpRegs) (k : Nat) : Int := if k < c.ndim then ((c.str k).extractLsb' 0 32).toInt else 0
def CpRegs.dstr (c : CpRegs) (k : Nat) : Int := if k < c.ndim then ((c.str k).extractLsb' 32 32).toInt else 0
/-- Elements of a transfer. -/
def CpRegs.total (c : CpRegs) : Nat := (List.range 6).foldl (fun n k => n * c.cnt k) 1
/-- Index of an element in a dimension: i0 runs fastest (R327). -/
def CpRegs.idx (c : CpRegs) (e k : Nat) : Nat := e / (List.range k).foldl (fun n j => n * c.cnt j) 1 % max 1 (c.cnt k)
/-- Whether both sides are local (R335). -/
def CpRegs.isLocal (c : CpRegs) : Bool := c.srcsp == 0 && c.dstsp == 0
/-- Whether a local transfer is contiguous (R335). -/
def CpRegs.contig (c : CpRegs) : Bool :=
  c.sfmt == c.dfmt && c.sstr 0 == (c.ssz : Int) && c.dstr 0 == (c.ssz : Int)
/-- Most elements of one slot (R325). -/
def CpRegs.perSlot (c : CpRegs) : Nat := 128 / max c.ssz c.dsz

/-! ### Addresses (R327, R330, R336) -/

/-- The local index of a distributed dimension and its tile in the rectangle (R330). -/
def CpRegs.place (c : CpRegs) (i : Nat) : Nat × Nat :=
  let b := i / max 1 c.blk
  (b / (c.nx * c.ny) * c.blk + i % max 1 c.blk, b % (c.nx * c.ny))

/-- The greatest local index of a distributed dimension. -/
def CpRegs.lastLocal (c : CpRegs) : Nat :=
  let n := c.cnt c.dim
  let row := (n - 1) / max 1 c.blk / (c.nx * c.ny)
  -- a later block of the last row may be short; the first block of that row is the longest
  row * c.blk + min (c.blk - 1) (n - 1 - row * (c.nx * c.ny) * c.blk)

/-- Linear offset of an element: `f` gives each dimension's index. -/
def linear (base : Int) (str : Nat → Int) (f : Nat → Nat) : Int :=
  (List.range 6).foldl (fun a k => a + (f k : Int) * str k) base

/-- One side of an element. -/
inductive CSide where
  | spad (tile : Nat) (off : Int)
  | virt (va : Nat)
deriving DecidableEq, Repr

/-- Where a side of an element lies; its base, strides and space are given. -/
def copySide (c : CpRegs) (e : Eff) (me sp : Nat) (base : Word) (str : Nat → Int) (el : Nat) : CSide :=
  if sp = 0 then .spad me (linear (base.toNat : Int) str (c.idx el))
  else if sp = 1 then
    let off : Int := (bits base 0 21 : Nat)
    if c.dist then
      let p := c.place (c.idx el c.dim)
      .spad (tileOf (e.ox + c.gx + p.2 % c.nx) (e.oy + c.gy + p.2 / c.nx) (e.oz + c.gz))
        (linear off str fun k => if k = c.dim then p.1 else c.idx el k)
    else .spad (bits base 24 12) (linear off str (c.idx el))
  else .virt ((linear (base.toNat : Int) str (c.idx el)) % (2 ^ 64 : Int)).toNat

/-! ### The words (R332 to R334, R340 to R343) -/

/-- cset (R340). -/
def execCset (r : CpReg) (a : Src) (s : State) : Out :=
  ok ((s.seen a).updC fun c => { c with cp := c.cp.put r (s.src a) })
/-- cget (R340). -/
def execCget (d : BitVec 6) (r : CpReg) (s : State) : Out := ok (s.putS 1 d (s.c.cp.get r))

/-- Whether a type may be an element type. -/
def cpTy (t : Option Ty) : Bool :=
  match t with
  | some t => t != .i64 && t != .n64
  | none => false

/-- Whether the reserved bits are zero. -/
def CpRegs.resvOk (c : CpRegs) : Bool :=
  bits c.fmt 20 44 == 0 && bits c.geo 43 20 == 0 && (if c.affine then bits c.geo 32 4 == 0 else bits c.geo 16 4 == 0)

/-- Whether a space-1 base is well formed (R317, R330, R332). -/
def State.baseOk (s : State) (c : CpRegs) (b : Word) : Bool :=
  bits b 36 28 == 0 && bits b 21 3 == 0 && (if c.dist then bits b 24 12 == 0 else !s.harvested (bits b 24 12))

/-- The ILLEGAL_OPERAND checks of R332. -/
def State.cpLegal (s : State) (c : CpRegs) : Bool :=
  let e := (s.region s.c.region).eff
  let float (t : Option Ty) : Bool := (t.map Ty.isFloat).getD false
  let ones := (if c.srcsp = 1 then 1 else 0) + (if c.dstsp = 1 then 1 else 0)
  c.resvOk && c.total != 0 && c.total ≤ 2 ^ 32 && c.dstsp != 3 && cpTy c.sfmt && cpTy c.dfmt &&
    float c.sfmt == float c.dfmt && c.rnd.isSome && !(c.rnd == some .od && c.dfmt == some .t8) &&
    (!c.dist || (ones == 1 && c.blk != 0 && c.gx + c.nx ≤ e.ex && c.gy + c.ny ≤ e.ey && c.gz < e.ez)) &&
    (c.srcsp != 1 || s.baseOk c c.src) && (c.dstsp != 1 || s.baseOk c c.dst) &&
    !(c.srcsp == 3 && (c.affine || c.sstr 0 != 0 || c.sstr 1 != 0)) &&
    (s.c.kind == .elastic || c.isLocal)

/-- Whether a scratchpad side is aligned to its element size. -/
def sideAligned (c : CpRegs) (sp : Nat) (base : Word) (str : Nat → Int) (z : Nat) : Bool :=
  2 ≤ sp || (base.toNat % z == 0 && (List.range c.ndim).all fun k => str k % (z : Int) == 0)

/-- Whether a space-1 side names a tile of the box. -/
def State.sideInBox (s : State) (c : CpRegs) (sp : Nat) (base : Word) : Bool :=
  sp != 1 || c.dist || (s.region s.c.region).eff.inBox (bits base 24 12)

/-- Whether the elements of a scratchpad side at the corners of the counts lie in the share; a distributed dimension
runs over its local indices. -/
def sideInShare (c : CpRegs) (share sp : Nat) (base : Word) (str : Nat → Int) (z : Nat) : Bool :=
  if 2 ≤ sp then true
  else
    let off : Int := if sp = 1 then ((bits base 0 21 : Nat) : Int) else (base.toNat : Int)
    let top (k : Nat) : Int := if sp = 1 && c.dist && k = c.dim then (c.lastLocal : Int) else (c.cnt k : Int) - 1
    let lo := (List.range 6).foldl (fun a k => a + min 0 (top k * str k)) off
    let hi := (List.range 6).foldl (fun a k => a + max 0 (top k * str k)) off
    0 ≤ lo && hi + (z : Int) ≤ (share : Int)

/-- The checks of R332, in their order. -/
def cpCheck (s : State) (k : Nat) (kont : Out) : Out :=
  let c := s.c.cp
  freeTok s k <| guardT s (!c.affine || (s.part s.here.part).priv) cPrivilege <|
    guardT s (s.cpLegal c) cIllegalOperand <|
      guardT s (sideAligned c c.srcsp c.src c.sstr c.ssz && sideAligned c c.dstsp c.dst c.dstr c.dsz) cAlignment <|
        guardT s (s.sideInBox c c.srcsp c.src && s.sideInBox c c.dstsp c.dst) cProtection <|
          guardT s (sideInShare c s.c.share c.srcsp c.src c.sstr c.ssz &&
            sideInShare c s.c.share c.dstsp c.dst c.dstr c.dsz) cScratchBounds kont

/-- A copy queue. -/
def Ctx.queue (c : Ctx) (q : Nat) : List Xfer := Tbl.get [] c.cq q
/-- Replaces a queue. -/
def Ctx.setQueue (c : Ctx) (q : Nat) (xs : List Xfer) : Ctx := { c with cq := Tbl.set [] c.cq q xs }
/-- Changes the transfer at the head of a queue. -/
def Ctx.updHead (c : Ctx) (q : Nat) (f : Xfer → Xfer) : Ctx :=
  match c.queue q with
  | x :: r => c.setQueue q (f x :: r)
  | [] => c
/-- Whether a transfer stands in its queue (R333). -/
def Xfer.stands (x : Xfer) : Bool := x.fin.isNone && x.fault.isNone

/-- claunch (R332 to R334). -/
def execClaunch (nt : Bool) (d : BitVec 6) (k : BitVec 3) (q : BitVec 2) (s : State) : Out :=
  cpCheck s k.toNat <|
    if 8 ≤ ((s.c.queue q.toNat).filter Xfer.stands).length then ok s.stall
    else
      let core := s.core s.me
      let ctr := core.launchCtr
      let id := s.me * 65536 + ctr
      let l := s.here
      let x : Xfer :=
        { cp := s.c.cp, id := id, tok := k.toNat, nt := nt, region := s.c.region, seq := s.c.xferCtr,
          order := s.c.orderOf 5, rorder := s.c.orderOf 1 }
      let s := s.setCore s.me { core with launchCtr := (ctr + 1) % 65536 }
      let s := s.updC fun c =>
        { (c.bind k.toNat).setQueue q.toNat (c.queue q.toNat ++ [x]) with xferCtr := c.xferCtr + 1 }
      ok ((s.schedIn 1 (.copyTransferStart l q.toNat)).putS 1 d (BitVec.ofNat 64 id))

/-- The checks of an id, and the transfer that stands in a queue under it (R341). -/
def Ctx.findXfer (c : Ctx) (id : Nat) : Option (Nat × Xfer) :=
  (List.range 4).findSome? fun q => ((c.queue q).find? fun x => x.id == id && x.stands).map fun x => (q, x)

/-- cstat (R341). -/
def execCstat (d : BitVec 6) (a : Src) (s : State) : Out :=
  let id := (s.src a).toNat
  guardT s (id / 65536 == s.me) cIllegalOperand <|
    let v := match s.c.findXfer id with
      | some x => x.2.landed * 2 ^ 32 + (if x.2.cancelled then 3 else if x.2.act then 2 else 1)
      | none => 0
    ok ((s.seen a).putS 2 d (BitVec.ofNat 64 v))

/-- A transfer is over: its token completes on the next tick (R329), when an arrival event is raised and the next transfer
of the queue may start; after a cancelled one it starts a tick later (R342). A swap that drains stops the context's clock
but not its transfers (R344), so the tick from which the next one may start is one of the device. -/
def State.copyDone (s : State) (l : Loc) (q : Nat) : State :=
  match (s.ctx l).queue q with
  | x :: _ =>
    let d := if x.cancelled then 2 else 1
    let s := s.updCtx l fun c => c.updHead q fun x => { x with fin := some (s.tick + d) }
    (s.tokDone l x.tok ((s.ctx l).now s.tick + 1)).schedIn d (.copyTransferStart l q)
  | [] => s

/-- ccancel (R342): a queued transfer is removed from its queue, and those behind it start only after its token completes; an
active one stops after the elements that it has read. -/
def execCcancel (a : Src) (s : State) : Out :=
  let id := (s.src a).toNat
  guardT s (id / 65536 == s.me) cIllegalOperand <|
    let (l, n) := (s.here, s.T)
    match s.c.findXfer id with
    | none => ok (s.seen a)
    | some (q, x) =>
      if x.act then
        let s := (s.seen a).updC fun c => c.updHead q fun x => { x with cancelled := true, next := x.read, pend := none }
        if x.cancelled then ok s else if x.out = 0 then ok (s.copyDone l q) else ok s
      else
        let s := (s.seen a).updC fun c =>
          c.setQueue q (((c.queue q).filter fun y => y.seq != x.seq).map fun y =>
            if x.seq < y.seq then { y with gate := s.tick + 2 } else y)
        ok ((s.tokDone l x.tok (n + 1)).schedIn 2 (.copyTransferStart l q))

/-- qfence: one that names one queue has no effect (R343). -/
def execQfence (mask : BitVec 4) (s : State) : Out :=
  let n := ((List.range 4).filter fun i => mask.getLsbD i).length
  if n ≤ 1 then ok s else ok (s.updC fun c => { c with qfence := c.qfence ++ [(mask.toNat, c.xferCtr)] })

/-! ### Starting (R324, R335, R343) -/

/-- Whether a transfer holds nothing back on a device tick: it was complete or cancelled on an earlier one. -/
def Xfer.gone (x : Xfer) (now : Nat) : Bool := x.fin.any fun t => t ≤ now

/-- Whether a transfer that a fence waits for is neither complete nor cancelled. -/
def Ctx.fenceHolds (c : Ctx) (now : Nat) (f : Nat × Nat) : Bool :=
  (List.range 4).any fun i => f.1.testBit i && (c.queue i).any fun y => !y.gone now && y.seq < f.2
/-- Drops the fences that hold nothing back any more. -/
def Ctx.fencesLeft (c : Ctx) (now : Nat) : Ctx := { c with qfence := c.qfence.filter (c.fenceHolds now) }

/-- Whether a fence keeps a transfer of a queue from starting. -/
def Ctx.fenced (c : Ctx) (now q : Nat) (x : Xfer) : Bool :=
  c.qfence.any fun f => f.1.testBit q && f.2 ≤ x.seq && c.fenceHolds now f

/-- Whether an earlier local transfer of the tile is not complete (R335). -/
def Ctx.localBefore (c : Ctx) (now : Nat) (x : Xfer) : Bool :=
  (List.range 4).any fun i => (c.queue i).any fun y => y.cp.isLocal && !y.gone now && y.seq < x.seq

/-- Whether a transfer at the head of its queue may start (R324, R335, R342, R343). -/
def Ctx.mayStart (c : Ctx) (now q : Nat) (x : Xfer) : Bool :=
  !x.act && x.fin.isNone && x.gate ≤ now && !c.fenced now q x && !(x.cp.isLocal && c.localBefore now x)

/-- The next tick that a tile owns, this one at the earliest (R325). -/
def nextSlot (tile from_ : Nat) : Nat := from_ + (tileX tile + 16 - from_ % 16) % 16

/-- Puts the tile's next slot on the agenda. -/
def State.slotAt (s : State) (l : Loc) (from_ : Nat) : State :=
  let slot (e : Nat × Ev) : Bool := match e.2 with
    | .copySlotMove m => m.l == l && m.run.isNone
    | _ => false
  if s.agenda.any slot then s else s.sched (nextSlot l.tile from_) (.copySlotMove { l := l, err := false })

/-- A transfer leaves its queue on the tick after it completed, raising its event, and every transfer at the head of a
queue that may start does (R324, R329, R335, R343). -/
def execCopyTransferStart (l : Loc) (q : Nat) (s : State) : Out :=
  let s := match (s.ctx l).queue q with
    | x :: r =>
      if x.gone s.tick then
        let s := s.updCtx l fun c => c.setQueue q r
        if x.nt && !x.cancelled then
          let tl : Loc := ⟨bits x.cp.dst 24 12, l.part⟩
          let there := x.cp.dstsp == 1 && !x.cp.dist && (s.ctx tl).live && (s.ctx tl).region == x.region
          s.uiRaise (if there then tl else l) 3 x.id
        else s
      else s
    | [] => s
  let s := s.updCtx l fun c => c.fencesLeft s.tick
  ok ((List.range 4).foldl (fun s q =>
    let c := s.ctx l
    match c.queue q with
    | x :: _ =>
      if !c.mayStart s.tick q x then s
      else
        let s := s.updCtx l fun c => c.updHead q fun x => { x with act := true }
        if x.cp.isLocal then s.schedIn 0 (.localCopyMove l q) else s.slotAt l s.tick
    | [] => s) s)

/-! ### Moving elements (R327 to R329, R336 to R339) -/

/-- Where the packets of elements go: a tile, or none for the attach port (R89); a side in the tile's own space 0 has no packet. -/
abbrev Ends := List (Option Nat)

/-- Why an element does not go on now: a fault's code and cause, or none where it waits. -/
abbrev Held := Option (Nat × Nat)

/-- Whether the leaf that maps an address points into a reserved range (R303, R339). -/
def State.leafHole (s : State) (l : Loc) (va : Nat) : Bool :=
  let rec go (fuel lvl table : Nat) : Bool :=
    match fuel with
    | 0 => false
    | fuel + 1 =>
      let e := s.entryAt (table + 8 * (va / 2 ^ lvlShift lvl % lvlEntries lvl))
      let addr := e % 2 ^ 48 / 256 * 256
      if e % 2 = 0 then false
      else if e / 2 % 2 = 1 then
        2 ≤ lvl && e / 8 % 32 == 0 && e / 2 ^ 48 == 0 && addr % 2 ^ lvlShift lvl == 0 && spaceOf addr == .hole
      else if malformed lvl e then false
      else go fuel (lvl + 1) addr
  go 5 0 ((Tbl.get {} s.ptroots l.part).root * 2048)

/-- Translates the bytes of a virtual side. A translation that fails is a COPY_FAULT with its cause (R339), and so is a peer window
that reaches a reserved range; a sinter source outside HBM is a GATHER_PATTERN_FAULT (R338). -/
def State.copyXlate (s : State) (l : Loc) (sinter : Bool) (va z acc : Nat) : State × Except Held (List Nat) :=
  (List.range z).foldl (fun (x : State × Except Held (List Nat)) i =>
    match x.2 with
    | .error c => (x.1, .error c)
    | .ok pas =>
      let v := (va + i) % 2 ^ 64
      if x.1.xlWaits l v then (x.1, .error none)
      else match x.1.xlate l v acc with
      | (s, .ok pa) =>
        if sinter && spaceOf pa != .hbm then (s, .error (some (cGatherFault, 3)))
        else if spaceOf pa == .peer && !isHome (s.peerPa pa) then (s, .error (some (cCopyFault, 2)))
        else (s, .ok (pas ++ [pa]))
      | (s, .error e) =>
        (s, .error (some (cCopyFault, if e.1 == cProtection then 1 else if s.leafHole l v then 2 else 0)))) (s, .ok [])

/-- What a transfer has read, and not yet written, of a place, if anything. -/
def Moved.at (m : Moved) (tile : Option Nat) (a : Nat) : Option (Byte × Bool) :=
  (m.find? fun x => x.1 == tile && x.2.1 == a).map (·.2.2)

/-- A byte of a scratchpad as a transfer sees it: what the transfer itself has put there, or what stands at the end of the tick
before; and whether it is poisoned (R328). -/
def movedByte (m : Moved) (c : Ctx) (tile a : Nat) : Byte × Bool :=
  (m.at (some tile) a).getD (c.sp.byte a, c.spPoison.contains (a / 8))

/-- A tile whose scratchpad a copy is addressed to: one in RETAIN is woken first (R102). -/
def State.copyTile (s : State) (l : Loc) (t : Nat) : State × Except Held Unit :=
  if !s.quadAwake t then (s.wakeQuad t, .error none) else (if t = l.tile then s else s.quadRest t, .ok ())

/-- Where one side of an element lies, once it can be reached (R89). -/
def State.copyEnds (s : State) (l : Loc) (sinter : Bool) (sp z acc : Nat) : CSide → State × Except Held Ends
  | .spad t _ => match s.copyTile l t with
    | (s, .error h) => (s, .error h)
    | (s, .ok _) => (s, .ok (if sp = 0 then [] else [some t]))
  | .virt va => match s.copyXlate l sinter va z acc with
    | (s, .error h) => (s, .error h)
    | (s, .ok pas) => (s, .ok (pas.map s.endOf).eraseDups)

/-- Reads the source of an element. A line for which earlier requests wait is waited for (R294), and the error completion of a host
or peer access that `err` tells of is cause 3 (R339). -/
def State.copyRead (s : State) (l : Loc) (err sinter : Bool) (m : Moved) (z : Nat) :
    CSide → State × Except Held (List Byte × Bool)
  | .spad t off =>
    match s.copyTile l t with
    | (s, .error h) => (s, .error h)
    | (s, .ok _) =>
      let tl : Loc := ⟨t, l.part⟩
      let s := s.landAt tl
      let bs := (List.range z).map fun i => movedByte m (s.ctx tl) t (off.toNat + i)
      (s, .ok (bs.map (·.1), bs.any (·.2)))
  | .virt va =>
    match s.copyXlate l sinter va z accRead with
    | (s, .error h) => (s, .error h)
    | (s, .ok pas) =>
      if err && pas.any fun pa => !isHome pa then (s, .error (some (cCopyFault, 3)))
      else if pas.any s.mustWait then (s, .error none)
      else
        let r := pas.foldl (fun (x : State × List Byte × Bool) pa =>
          match m.at none pa with
          | some b => (x.1, x.2.1 ++ [b.1], x.2.2 || b.2)
          | none =>
            let y := x.1.physRead pa 1
            (y.1, x.2.1 ++ y.2.1, x.2.2 || y.2.2)) (s, [], false)
        (r.1, .ok r.2)

/-- Groups bytes by line, in order. -/
def byLine (bs : List (Nat × Byte)) : List (List (Nat × Byte)) :=
  ((bs.map fun b => b.1 / 128).eraseDups).map fun n => bs.filter fun b => b.1 / 128 == n

/-- What the destination of an element is to take. -/
def State.copyPut (s : State) (l : Loc) (m : Moved) (bs : List Byte) (pz : Bool) : CSide → State × Except Held Moved
  | .spad t off => (s, .ok ((((List.range bs.length).zip bs).map fun b => (some t, off.toNat + b.1, b.2, pz)) ++ m))
  | .virt va =>
    match s.copyXlate l false va bs.length accBuf with
    | (s, .error h) => (s, .error h)
    | (s, .ok pas) => (s, .ok (((pas.zip bs).map fun b => (none, b.1, b.2, pz)) ++ m))

/-- The sinter source of an element, or the cause of its fault (R336, R338). -/
def State.gather (s : State) (l : Loc) (c : CpRegs) (e : Nat) : Except Nat Nat :=
  let g := Tbl.get 0 s.dv.sg c.pat
  let esz := 2 ^ bits g 55 2
  let (i0, i1) := (c.idx e 0, c.idx e 1)
  if !g.getLsbD 63 then .error 0
  else if bits g 57 6 != l.part then .error 1
  else if bits g 43 12 < i0 || bits g 31 12 < i1 || esz != c.ssz then .error 2
  else
    .ok (((c.src.toNat : Int) + (i0 : Int) * ((bits g 0 31 : Nat) : Int) + (i1 : Int) * (esz : Int) +
      (c.idx e 2 : Int) * c.sstr 2 + (c.idx e 3 : Int) * c.sstr 3) % (2 ^ 64 : Int)).toNat

/-- The value that the destination takes (R327). -/
def CpRegs.conv (c : CpRegs) (bs : List Byte) : List Byte :=
  match c.sfmt, c.dfmt with
  | some st, some dt =>
    if st == dt then bs else leBytes (tySize dt) (convert dt st (c.rnd.getD .ne) false (leNat bs)).bits
  | _, _ => bs

/-- Whether a transfer reads by the sinter path. -/
def CpRegs.sinter (c : CpRegs) : Bool := c.srcsp == 3
/-- The source of an element (R327, R336). -/
def State.srcSide (s : State) (l : Loc) (x : Xfer) (e : Nat) : Except Held CSide :=
  if x.cp.sinter then match s.gather l x.cp e with
    | .error cause => .error (some (cGatherFault, cause))
    | .ok va => .ok (.virt va)
  else .ok (copySide x.cp (s.region x.region).eff l.tile x.cp.srcsp x.cp.src x.cp.sstr e)
/-- Its destination. -/
def State.dstSide (s : State) (l : Loc) (x : Xfer) (e : Nat) : CSide :=
  copySide x.cp (s.region x.region).eff l.tile x.cp.dstsp x.cp.dst x.cp.dstr e

/-- One element is read and converted, over what the transfer has put in its way before (R328). -/
def State.copyElem (s : State) (l : Loc) (x : Xfer) (err : Bool) (m : Moved) (e : Nat) : State × Except Held Moved :=
  match s.srcSide l x e with
  | .error h => (s, .error h)
  | .ok src => match s.copyRead l err x.cp.sinter m x.cp.ssz src with
    | (s, .error h) => (s, .error h)
    | (s, .ok r) => s.copyPut l m (x.cp.conv r.1) r.2 (s.dstSide l x e)

/-- How far elements have come: how many, what they are to write, and why the next one does not go on, if it does not. -/
structure MoveEnd where
  s : State
  m : Moved
  n : Nat := 0
  held : Option Held := none

/-- Moves up to so many elements from one on (R328). -/
def State.moveElems (l : Loc) (x : Xfer) (err : Bool) (from_ : Nat) : Nat → MoveEnd → MoveEnd
  | 0, r => r
  | fuel + 1, r =>
    match r.s.copyElem l x err r.m (from_ + r.n) with
    | (s, .ok m) => moveElems l x err from_ fuel { s := s, m := m, n := r.n + 1 }
    | (s, .error h) => { r with s := s, held := some h }

/-- Writes of a transfer land: those to scratchpads by the order of R292, one write for each tile, and those to memory as one masked
write for each line (R328). -/
def State.landMoved (s : State) (l : Loc) (m : Moved) : State :=
  let phys := (m.filter fun x => x.1 == none).reverse
  let s := (byLine (phys.map fun x => (x.2.1, x.2.2.1))).foldl (fun s bs =>
    s.physWrite bs (bs.any fun b => ((m.at none b.1).map (·.2)).getD false)) s
  ((m.filterMap (·.1)).eraseDups).foldl (fun s t =>
    let ws := (m.filter fun x => x.1 == some t).reverse
    let pz := ((ws.filter fun x => x.2.2.2).map fun x => x.2.1 / 8).eraseDups
    s.engWrite ⟨t, l.part⟩ 0 2 (ws.map fun x => (x.2.1, x.2.2.1)) pz) s

/-- Changes the transfer at the head of a queue. -/
def State.updXfer (s : State) (l : Loc) (q : Nat) (f : Xfer → Xfer) : State := s.updCtx l fun c => c.updHead q f

/-- A faulting transfer stops at its element, and the context halts (R339). -/
def State.copyTrap (s : State) (l : Loc) (x : Xfer) (q code cause elem : Nat) : State :=
  let s := s.updXfer l q fun x => { x with fault := some elem, pend := none }
  let r := s.mkStop l 1 code false 0 0 (cause * 2 ^ 60 + elem % 2 ^ 32 * 2 ^ 28 + x.id) x.id
  s.raiseTrap l { r with region := x.region }

/-- A transfer of which nothing more is on its way: a cancelled one is over (R342), a fault of it is raised, every earlier element
having been written (R339), and one whose elements are all written is complete (R329). -/
def State.copySettle (s : State) (l : Loc) (q : Nat) : State :=
  match (s.ctx l).queue q with
  | x :: _ =>
    if x.out != 0 || !x.stands then s
    else if x.cancelled then s.copyDone l q
    else match x.pend with
      | some f => s.copyTrap l x q f.1 f.2 x.next
      | none => if x.landed == x.cp.total then s.copyDone l q else s
  | [] => s

/-- Whether a transfer moves elements. -/
def Xfer.moving (x : Xfer) : Bool :=
  x.act && x.stands && !x.cancelled && x.pend.isNone && x.next < x.cp.total && !(x.solo && x.out != 0)

/-- A run of a transfer is over; one that waited for it to be answered goes on. -/
def State.runOver (s : State) (l : Loc) (q : Nat) : State :=
  let s := (s.updXfer l q fun x => { x with out := x.out - 1 }).copySettle l q
  if ((s.ctx l).queue q).head?.any fun x => x.solo && x.moving then s.slotAt l (s.tick + 1) else s

/-- The transfer stops at an element; a cancelled one raises no fault (R339, R342). -/
def Xfer.stopAt (x : Xfer) (elem : Nat) (f : Nat × Nat) : Xfer :=
  if x.cancelled then x
  else { x with next := elem, read := min x.read elem, landed := min x.landed elem, pend := some f }

/-- Of several chains of packets that go at once, the one that takes longest, or that meets a blocked hop of a detour. -/
def State.farthest (s : State) (alts : List (List Leg)) : List Leg :=
  let time (a : List Leg) : Nat := match s.legTime a with
    | .error _ => 2 ^ 64
    | .ok n => n
  alts.foldl (fun b a => if time b < time a then a else b) (alts.headD [])

/-- Copy data between the tile and some ends (R394, R398). -/
def Xfer.dataLegs (x : Xfer) (l : Loc) (inward : Bool) (es : Ends) (bytes : Nat) : List (List Leg) :=
  es.map fun e =>
    if inward then [{ order := x.order, src := e, dst := some l.tile, bytes := bytes }]
    else [{ order := x.order, src := some l.tile, dst := e, bytes := bytes }]

/-- A run whose request has reached its source: its elements are read, in element order, and the data go to the engine and on to
the destination (R328, R397). What waits is read later; after a fault nothing more is read. -/
def State.readRun (s : State) (l : Loc) (r : CopyRun) (err : Bool) : State :=
  match (s.ctx l).queue r.q with
  | x :: _ =>
    if x.next ≤ r.elem then s.runOver l r.q
    else if x.read != r.elem then s.schedIn 1 (.copySlotMove ⟨l, false, some r⟩)
    else
      let old := x.fly.flatMap (·.m)
      let e := State.moveElems l x err r.elem r.n { s := s, m := old }
      let own := e.m.take (e.m.length - old.length)
      let vas := (List.range e.n).filterMap fun i => match s.dstSide l x (r.elem + i) with
        | .virt va => some va
        | .spad .. => none
      let s := e.s
      let s := if e.n = 0 then s else
        let s := s.updXfer l r.q fun x =>
          { x with read := x.read + e.n, out := x.out + 1, fly := { elem := r.elem, m := own, vas := vas } :: x.fly }
        s.packet l.part
          (s.farthest (x.dataLegs l true r.srcs (e.n * x.cp.ssz)) ++ s.farthest (x.dataLegs l false r.dsts (e.n * x.cp.dsz)))
          (.copySlotMove ⟨l, false, some { r with n := e.n, lands := true }⟩)
      match e.held with
      | none => s.runOver l r.q
      | some none => s.schedIn 1 (.copySlotMove ⟨l, false, some { r with elem := r.elem + e.n, n := r.n - e.n }⟩)
      | some (some f) => (s.updXfer l r.q (·.stopAt (r.elem + e.n) f)).runOver l r.q
  | [] => s

/-- Ends whose writes are reported back: other tiles, homes, and what lies beyond an attach port (R329). -/
def Xfer.reported (x : Xfer) (l : Loc) (es : Ends) : Ends := if x.cp.dstsp = 1 then es.filter (· != some l.tile) else es

/-- A run that has reached its destination is written there, after every earlier one of its transfer (R328), and reported back in
class 1 (R329). A quad in RETAIN is woken first (R102), and a line for which earlier requests wait is waited for (R294). -/
def State.landRun (s : State) (l : Loc) (r : CopyRun) (err : Bool) : State :=
  match (s.ctx l).queue r.q with
  | x :: _ =>
    let m := ((x.fly.find? fun f => f.elem == r.elem).map (·.m)).getD []
    let drop (x : Xfer) : Xfer := { x with fly := x.fly.filter fun f => f.elem != r.elem }
    let asleep := ((m.filterMap (·.1)).eraseDups).filter fun t => !s.quadAwake t
    let again : Ev := .copySlotMove ⟨l, false, some r⟩
    if x.next ≤ r.elem then (s.updXfer l r.q drop).runOver l r.q
    else if x.landed != r.elem then s.schedIn 1 again
    else if !asleep.isEmpty then (asleep.foldl State.wakeQuad s).schedIn 1 again
    else if m.any fun b => b.1 == none && s.mustWait b.2.1 then s.schedIn 1 again
    else if err && r.dsts.contains none then
      (s.updXfer l r.q fun x => (drop x).stopAt r.elem (cCopyFault, 3)).runOver l r.q
    else
      let s := (s.landMoved l m).updXfer l r.q fun x => { drop x with landed := x.landed + r.n }
      match x.reported l r.dsts with
      | [] => s.runOver l r.q
      | es =>
        s.packet l.part (s.farthest (es.map fun e => [({ order := x.rorder, src := e, dst := some l.tile } : Leg)]))
          (.copyWriteReport l r.q r.elem false)
  | [] => s

/-- What a slot takes of a transfer: runs of elements, one packet each, in order, and why the next element does not go on. -/
structure Taken where
  s : State
  n : Nat := 0
  runs : List CopyRun := []
  held : Option Held := none

/-- Takes up to so many elements from a transfer's next one on. Nothing is moved behind a write to the host or a peer until it is
answered, since one that is answered with an error stops the transfer at its element (R339). -/
def State.takeElems (l : Loc) (x : Xfer) (q : Nat) : Nat → Taken → Taken
  | 0, t => t
  | fuel + 1, t =>
    let e := x.next + t.n
    match t.s.srcSide l x e with
    | .error h => { t with held := some h }
    | .ok src => match t.s.copyEnds l x.cp.sinter x.cp.srcsp x.cp.ssz accRead src with
      | (s, .error h) => { t with s := s, held := some h }
      | (s, .ok a) => match s.copyEnds l false x.cp.dstsp x.cp.dsz accBuf (s.dstSide l x e) with
        | (s, .error h) => { t with s := s, held := some h }
        | (s, .ok b) =>
          let last := t.runs.getLast?
          let same := last.any fun r => r.srcs == a && r.dsts == b
          if !same && last.any (fun r => r.dsts.contains none) then { t with s := s }
          else
            let runs := match last with
              | some r => if same then t.runs.dropLast ++ [{ r with n := r.n + 1 }]
                  else t.runs ++ [{ q := q, elem := e, n := 1, srcs := a, dsts := b }]
              | none => [{ q := q, elem := e, n := 1, srcs := a, dsts := b }]
            takeElems l x q fuel { s := s, n := t.n + 1, runs := runs }

/-- A slot's share of the transfer at the head of a queue: its runs set out for their sources, with a request in class 0 where those
lie elsewhere (R325, R394). -/
def State.slotRuns (s : State) (l : Loc) (q most : Nat) : State :=
  match (s.ctx l).queue q with
  | x :: _ =>
    let t := State.takeElems l x q (min most (x.cp.total - x.next)) { s := s }
    let c := s.ctx l
    let s := t.s.updXfer l q fun x => { x with
      next := x.next + t.n, out := x.out + t.runs.length, solo := t.runs.any fun r => r.dsts.contains none }
    let s := match t.held with
      | some (some f) => s.updXfer l q (·.stopAt (x.next + t.n) f)
      | some none | none => s
    let s := t.runs.foldl (fun s r =>
      if r.srcs.isEmpty then s.readRun l r false
      else s.packet l.part (s.farthest (r.srcs.map fun e => [c.leg 0 (some l.tile) e])) (.copySlotMove ⟨l, false, some r⟩)) s
    s.copySettle l q
  | [] => s

/-- A slot: the next queue in turn that has an active transfer moves up to 128 bytes (R325). A run of elements comes back to the
engine's care when it has reached its source, and when it has reached its destination; the host's or the peer's error completion
there stops the transfer at that element (R339): it comes with the event, since what lies outside the device answers as it will. -/
def execCopySlotMove (m : SlotMove) (s : State) : Out :=
  let l := m.l
  match m.run with
  | some r => ok (if r.lands then s.landRun l r m.err else s.readRun l r m.err)
  | none =>
    if s.tick % 16 != tileX l.tile then ok (s.slotAt l s.tick)
    else
      let able (s : State) (q : Nat) : Bool := ((s.ctx l).queue q).head?.any fun x => x.moving && !x.cp.isLocal
      let turn := (s.ctx l).cpTurn
      match ((List.range 4).map fun i => (turn + 1 + i) % 4).find? (able s) with
      | some q =>
        let per := (((s.ctx l).queue q).head?.map fun x => x.cp.perSlot).getD 1
        let s := (s.updCtx l fun c => { c with cpTurn := q }).slotRuns l q per
        if (List.range 4).any (able s) then ok (s.slotAt l (s.tick + 1)) else ok s
      | none => ok s

/-- A move of a local transfer: its elements are read and written at once (R328, R335). -/
def State.localMove (s : State) (l : Loc) (q most : Nat) : State :=
  match (s.ctx l).queue q with
  | x :: _ =>
    let e := State.moveElems l x false x.next (min most (x.cp.total - x.next)) { s := s, m := [] }
    let next := x.next + e.n
    ((e.s.landMoved l e.m).updXfer l q fun x => { x with next := next, read := next, landed := next }).copySettle l q
  | [] => s

/-- A local transfer makes one move on each tick (R335). -/
def execLocalCopyMove (l : Loc) (q : Nat) (s : State) : Out :=
  match (s.ctx l).queue q with
  | x :: _ =>
    if x.moving then
      let c := x.cp
      let most := if c.contig then min (128 / c.ssz) (c.cnt 0 - x.next % max 1 (c.cnt 0)) else 1
      let s := s.localMove l q most
      if ((s.ctx l).queue q).head?.any Xfer.moving then ok (s.schedIn 1 (.localCopyMove l q)) else ok s
    else ok s
  | [] => ok s

/-- The report of a run's writes comes back; after the last one the transfer is complete, and a cancelled one is over (R329, R342).
An error completion that comes only with the report is a COPY_FAULT at the element it names, from which the transfer goes on at its
resumption (R339); a cancelled transfer raises no fault (R342). -/
def execCopyWriteReport (l : Loc) (q : Nat) (elem : Nat) (err : Bool) (s : State) : Out :=
  let s := if err then s.updXfer l q fun x => x.stopAt (min elem x.next) (cCopyFault, 3) else s
  ok (s.runOver l q)

/-- On resumption a faulted transfer goes on from its element (R339). -/
def State.copyResume (s : State) (l : Loc) : State :=
  (List.range 4).foldl (fun s q =>
    match (s.ctx l).queue q with
    | x :: _ =>
      if x.fault.isSome then
        (s.updXfer l q fun x => { x with fault := none }).slotAt l s.tick
      else s
    | [] => s) s

end Sys2Proof.Machine
end

