-- ==== Sys2Proof/Machine/Trans.lean ====
section
/-! DEFINITION. The functions of the F column (R271 to R273): quotients, roots and scalings exactly, and the
transcendental functions by fixed-point arithmetic of 1,024 fraction bits with an error bound, rounded once when both
ends of the interval round alike. -/

namespace Sys2Proof.Machine

/-! ### Quotients and roots -/

/-- a / b for magnitudes that are not zero, cut off 80 bits below the quotient's top, with what is left over. -/
def divMag (neg : Bool) (m : Nat) (e : Int) (m2 : Nat) (e2 : Int) : XV :=
  let k := 80 + Nat.log2 m2
  let q := m * 2 ^ k / m2
  .num neg q (e - e2 - (k : Int)) (m * 2 ^ k % m2 ≠ 0)

/-- a / b (R271). -/
def fDiv (t : Ty) (r : Rnd) (sat : Bool) (a b : Nat) : FRes :=
  let fin (x : XV) (fl : Flags) : FRes := let y := roundF t r sat x; ⟨y.bits, y.fl ||| fl⟩
  match decF t a, decF t b with
  | .nan s, y => fin (.nan false) (if s || y.sig then flNv else 0)
  | _, .nan s => fin (.nan false) (if s then flNv else 0)
  | .inf _, .inf _ => fin (.nan false) flNv
  | .inf n, .fin k _ _ => fin (.inf (xor n k)) 0
  | .fin n _ _, .inf k => fin (.num (xor n k) 0 0 false) 0
  | .fin n m e, .fin k m2 e2 =>
    if m2 = 0 then (if m = 0 then fin (.nan false) flNv else fin (.inf (xor n k)) flDz)
    else if m = 0 then fin (.num (xor n k) 0 0 false) 0
    else fin (divMag (xor n k) m e m2 e2) 0

/-- The square root of a magnitude that is not zero. -/
def sqrtMag (m : Nat) (e : Int) : XV :=
  let (m, e) := if e % 2 = 0 then (m, e) else (2 * m, e - 1)
  let k : Nat := 80
  let w := m * 2 ^ (2 * k)
  let r := Nat.sqrt w
  .num false r (e / 2 - (k : Int)) (r * r ≠ w)

/-- One over the square root of a magnitude that is not zero. -/
def rsqrtMag (m : Nat) (e : Int) : XV :=
  let (m, e) := if e % 2 = 0 then (m, e) else (2 * m, e - 1)
  let k := 120 + Nat.log2 m
  let w := 2 ^ (2 * k) / m
  let r := Nat.sqrt w
  .num false r (-(e / 2) - (k : Int)) (r * r * m ≠ 2 ^ (2 * k))

/-- Square root (R271). -/
def fSqrt (t : Ty) (r : Rnd) (sat : Bool) (a : Nat) : FRes :=
  let fin (x : XV) (fl : Flags) : FRes := let y := roundF t r sat x; ⟨y.bits, y.fl ||| fl⟩
  match decF t a with
  | .nan s => fin (.nan false) (if s then flNv else 0)
  | .inf n => if n then fin (.nan false) flNv else fin (.inf false) 0
  | .fin n m e =>
    if m = 0 then fin (.num n 0 0 false) 0
    else if n then fin (.nan false) flNv else fin (sqrtMag m e) 0

/-- Reciprocal square root (R271). -/
def fRsq (t : Ty) (r : Rnd) (sat : Bool) (a : Nat) : FRes :=
  let fin (x : XV) (fl : Flags) : FRes := let y := roundF t r sat x; ⟨y.bits, y.fl ||| fl⟩
  match decF t a with
  | .nan s => fin (.nan false) (if s then flNv else 0)
  | .inf n => if n then fin (.nan false) flNv else fin (.num false 0 0 false) 0
  | .fin n m e =>
    if m = 0 then fin (.inf n) flDz
    else if n then fin (.nan false) flNv else fin (rsqrtMag m e) 0

/-- Reciprocal (R271). -/
def fRcp (t : Ty) (r : Rnd) (sat : Bool) (a : Nat) : FRes :=
  let fin (x : XV) (fl : Flags) : FRes := let y := roundF t r sat x; ⟨y.bits, y.fl ||| fl⟩
  match decF t a with
  | .nan s => fin (.nan false) (if s then flNv else 0)
  | .inf n => fin (.num n 0 0 false) 0
  | .fin n m e => if m = 0 then fin (.inf n) flDz else fin (divMag n 1 0 m e) 0

/-- a * 2^n, n being the signed element of B (R272). -/
def fLdexp (t : Ty) (r : Rnd) (sat : Bool) (a b : Nat) : FRes :=
  let n : Int := tyVal (if t == .bf16 then .i16 else .i32) b
  -- an exponent outside this range rounds as at its end
  let n := max (-2000) (min 2000 n)
  let v := decF t a
  let y := roundF t r sat (v.scale n).x
  ⟨y.bits, y.fl ||| (if v.sig then flNv else 0)⟩

/-! ### Fixed-point arithmetic: integers in units of 2^-1024 -/

/-- Fraction bits. -/
def fxK : Nat := 1024
/-- One. -/
def fxOne : Int := ((2 ^ fxK : Nat) : Int)
/-- Product. -/
def fxMul (a b : Int) : Int := a * b / fxOne
/-- Quotient. -/
def fxDiv (a b : Int) : Int := a * fxOne / b
/-- The value (-1)^neg * m * 2^e. -/
def fxOf (neg : Bool) (m : Nat) (e : Int) : Int :=
  let k := e + (fxK : Int)
  let v := if 0 ≤ k then m * 2 ^ k.toNat else m / 2 ^ (-k).toNat
  if neg then -(v : Int) else (v : Int)

/-- Sum of c * x^(2k+1) / (2k+1) with alternating signs or not: atan and atanh of 1/x. -/
def atanInv (alt : Bool) (x : Int) : Nat → Int → Int → Int
  | 0, _, _ => 0
  | fuel + 1, k, pw =>
    if pw = 0 then 0
    else (if alt && k % 2 ≠ 0 then -(pw / (2 * k + 1)) else pw / (2 * k + 1)) + atanInv alt x fuel (k + 1) (pw / (x * x))

/-- The natural logarithm of 2: 2 atanh(1/3). -/
def fxLn2 : Int := 2 * atanInv false 3 400 0 (fxOne / 3)
/-- pi: 16 atan(1/5) - 4 atan(1/239). -/
def fxPi : Int := 16 * atanInv true 5 300 0 (fxOne / 5) - 4 * atanInv true 239 100 0 (fxOne / 239)

/-- e^r for r from 0 to 1 by its Taylor series. -/
def expTaylor (r : Int) : Nat → Int → Int → Int
  | 0, _, _ => 0
  | fuel + 1, k, term => if term = 0 then 0 else term + expTaylor r fuel (k + 1) (fxMul term r / (k + 1))

/-- e^x as a mantissa in units of 2^-1024 and a power of two. -/
def fxExp (x : Int) : Int × Int :=
  let n := x / fxLn2
  (expTaylor (x - n * fxLn2) 300 0 fxOne, n)

/-- 2^x. -/
def fxExp2 (x : Int) : Int × Int :=
  let n := x / fxOne
  (expTaylor (fxMul (x - n * fxOne) fxLn2) 300 0 fxOne, n)

/-- atanh of z, of magnitude 1/3 at most. -/
def atanhSeries (z2 : Int) : Nat → Int → Int → Int
  | 0, _, _ => 0
  | fuel + 1, k, pw => if pw = 0 then 0 else pw / (2 * k + 1) + atanhSeries z2 fuel (k + 1) (fxMul pw z2)

/-- The natural logarithm of y, from 1 to 2. -/
def fxLn (y : Int) : Int :=
  let z := fxDiv (y - fxOne) (y + fxOne)
  2 * atanhSeries (fxMul z z) 400 0 z

/-- sin or cos of r, of magnitude below 2, by its Taylor series: `k` is the degree of the next term. -/
def sinTaylor (r2 : Int) : Nat → Int → Int → Int
  | 0, _, _ => 0
  | fuel + 1, k, term =>
    if term = 0 then 0 else term + sinTaylor r2 fuel (k + 2) (-(fxMul term r2 / ((k + 1) * (k + 2))))

/-- The sum of erf's series: (-1)^n z^(2n+1) / (n! (2n+1)); `pw` is (-1)^n z^(2n+1) / n!. -/
def erfSeries (z2 : Int) : Nat → Int → Int → Int
  | 0, _, _ => 0
  | fuel + 1, n, pw => if pw = 0 then 0 else pw / (2 * n + 1) + erfSeries z2 fuel (n + 1) (-(fxMul pw z2 / (n + 1)))

/-- The error bound of every fixed-point result here, in units. -/
def fxErr : Int := 2 ^ 200

/-! ### Transcendental functions (R271) -/

/-- The functions, in opcode order. -/
inductive TFn where
  | exp2 | log2 | sin | cos | tanh | sig | silu | gelu
  /-- the derivative of silu, of the spline cells (R379) -/
  | dsilu
deriving DecidableEq, Repr

/-- Number of a function for the open case. -/
def TFn.num : TFn → Nat
  | .exp2 => 0 | .log2 => 1 | .sin => 2 | .cos => 3 | .tanh => 4 | .sig => 5 | .silu => 6 | .gelu => 7 | .dsilu => 8

/-- Number of a rounding mode. -/
def rndNum : Rnd → Nat
  | .ne => 0 | .tz => 1 | .up => 2 | .dn => 3 | .od => 4

/-- Rounds the value v * 2^e known within the error bound, where it is not exact. -/
def roundIv (f : TFn) (t : Ty) (r : Rnd) (sat : Bool) (a : Nat) (v : Int) (err : Int) (e : Int) : FRes :=
  let neg := v < 0
  let m := v.natAbs
  let er := err.toNat
  if m ≤ er then ⟨Config.transBits f.num (tySize' t) (rndNum r) a, Config.transFlags f.num (tySize' t) (rndNum r) a⟩
  else
    let lo := roundF t r sat (.num neg (m - er) e true)
    let hi := roundF t r sat (.num neg (m + er) e true)
    if lo = hi then lo
    else ⟨Config.transBits f.num (tySize' t) (rndNum r) a, Config.transFlags f.num (tySize' t) (rndNum r) a⟩
where
  /-- Number of a float type. -/
  tySize' (t : Ty) : Nat := if t == .bf16 then 1 else 0

/-- A magnitude too small for any format, and one too large. -/
def tinyX (neg : Bool) : XV := .num neg 1 (-3000) true
/-- A magnitude just below m * 2^e. -/
def belowX (neg : Bool) (m : Nat) (e : Int) : XV := .num neg (m * 2 ^ 400 - 1) (e - 400) true

/-- sin (or cos) of a value that is not zero. -/
def sinCos (f : TFn) (cosine : Bool) (t : Ty) (r : Rnd) (sat : Bool) (a : Nat) (neg : Bool) (m : Nat) (e : Int) : FRes :=
  let x := fxOf neg m e
  let half := fxPi / 2
  let q := x / half
  -- pi carries an error of a few units, times q of at most 2^129: well below the bound
  let y := x - q * half
  let k := ((if cosine then q + 1 else q) % 4).toNat
  let y2 := fxMul y y
  let sn := sinTaylor y2 400 1 y
  let cs := sinTaylor y2 400 0 fxOne
  let v := match k with
    | 0 => sn
    | 1 => cs
    | 2 => -sn
    | _ => -cs
  roundIv f t r sat a v fxErr (-(fxK : Int))

/-- A transcendental function of a finite value that is not zero, at the input (-1)^neg * m * 2^e. -/
def transFin (f : TFn) (t : Ty) (r : Rnd) (sat : Bool) (a : Nat) (neg : Bool) (m : Nat) (e : Int) : FRes :=
  let out (x : XV) := roundF t r sat x
  let x := fxOf neg m e
  let ax := x.natAbs
  let xi := if neg then -(ax : Int) else (ax : Int)
  let big (n : Nat) : Bool := (n : Int) * fxOne < (ax : Int)
  let K : Int := -(fxK : Int)
  match f with
  | .exp2 =>
    if big 2000 then (if neg then out (tinyX false) else out (.num false 1 3000 false))
    else
      let (v, n) := fxExp2 xi
      if x % fxOne = 0 && 0 ≤ e + (fxK : Int) then out (.num false 1 (x / fxOne) false)
      else roundIv f t r sat a v fxErr (K + n)
  | .log2 =>
    if neg then ⟨nanOf t, flNv⟩
    else
      let lg := flog2Of m e
      if m = 2 ^ Nat.log2 m then out (intX lg)
      else
        let y := fxOf false m (-(Nat.log2 m : Int))
        let v := lg * fxOne + fxDiv (fxLn y) fxLn2
        roundIv f t r sat a v fxErr K
  | .sin => sinCos f false t r sat a neg m e
  | .cos => sinCos f true t r sat a neg m e
  | .tanh =>
    if big 200 then out (belowX neg 1 0)
    else
      let (v, n) := fxExp (2 * (ax : Int))
      -- (E - 1) / (E + 1) with E = v * 2^n
      let E := if 0 ≤ n then v * 2 ^ n.toNat else v / 2 ^ (-n).toNat
      let y := fxDiv (E - fxOne) (E + fxOne)
      roundIv f t r sat a (if neg then -y else y) fxErr K
  | .sig =>
    if big 500 then (if neg then out (tinyX false) else out (belowX false 1 0))
    else
      let (v, n) := fxExp (-(ax : Int))
      let E := if 0 ≤ n then v * 2 ^ n.toNat else v / 2 ^ (-n).toNat
      let y := if neg then fxDiv E (fxOne + E) else fxDiv fxOne (fxOne + E)
      roundIv f t r sat a y fxErr K
  | .silu =>
    if big 500 then (if neg then out (tinyX true) else out (belowX false m e))
    else
      let (v, n) := fxExp (-(ax : Int))
      let E := if 0 ≤ n then v * 2 ^ n.toNat else v / 2 ^ (-n).toNat
      let y := if neg then fxDiv E (fxOne + E) else fxDiv fxOne (fxOne + E)
      roundIv f t r sat a ((if neg then -1 else 1) * y * (m : Int)) (fxErr * (m : Int)) (K + e)
  | .dsilu =>
    if big 500 then (if neg then out (tinyX true) else out (.num false (2 ^ 400 + 1) (-400) true))
    else
      let (v, n) := fxExp (-(ax : Int))
      let E := if 0 ≤ n then v * 2 ^ n.toNat else v / 2 ^ (-n).toNat
      let y := if neg then fxDiv E (fxOne + E) else fxDiv fxOne (fxOne + E)
      roundIv f t r sat a (fxMul y (fxOne + fxMul xi (fxOne - y))) fxErr K
  | .gelu =>
    if big 16 then (if neg then out (tinyX true) else out (belowX false m e))
    else
      -- z = |x| / sqrt 2; erf z = 2 / sqrt pi * series; 1 + erf or 1 - erf, halved, times x
      let s2 : Int := ((Nat.sqrt (2 * 2 ^ (2 * fxK)) : Nat) : Int)
      let sp : Int := ((Nat.sqrt (fxPi.toNat * 2 ^ fxK) : Nat) : Int)
      let z := fxDiv (ax : Int) s2
      let er := fxDiv (2 * erfSeries (fxMul z z) 3000 0 z) sp
      let y := (if neg then fxOne - er else fxOne + er)
      roundIv f t r sat a ((if neg then -1 else 1) * y * (m : Int)) (2 ^ 260 * (m : Int)) (K + e - 1)

/-- A transcendental word on one element, with the special values of R271. -/
def fTrans (f : TFn) (t : Ty) (r : Rnd) (sat : Bool) (a : Nat) : FRes :=
  let fin (x : XV) (fl : Flags) : FRes := let y := roundF t r sat x; ⟨y.bits, y.fl ||| fl⟩
  let one (neg : Bool) : FRes := fin (.num neg 1 0 false) 0
  let zero (neg : Bool) : FRes := fin (.num neg 0 0 false) 0
  match decF t a with
  | .nan s => fin (.nan false) (if s then flNv else 0)
  | .inf n => match f with
    | .exp2 => if n then zero false else fin (.inf false) 0
    | .log2 => if n then fin (.nan false) flNv else fin (.inf false) 0
    | .sin | .cos => fin (.nan false) flNv
    | .tanh => one n
    | .sig | .dsilu => if n then zero false else one false
    | .silu | .gelu => if n then zero true else fin (.inf false) 0
  | .fin n m e =>
    if m = 0 then match f with
      | .exp2 | .cos => one false
      | .log2 => fin (.inf true) flDz
      | .sin | .tanh | .silu | .gelu => zero n
      | .sig | .dsilu => fin (.num false 1 (-1) false) 0
    else transFin f t r sat a n m e

/-! ### fbasis (R273) and frng's generator (R274) -/

/-- A signed dyadic number v * 2^e over 6, as an exact result. -/
def sixth (v : Int) (e : Int) : XV :=
  if v = 0 then .num false 0 0 false else divMag (v < 0) v.natAbs e 6 0

/-- A uniform cubic B-spline basis value, or the interval index, at x (R273). -/
def fBasis (r : Rnd) (sat : Bool) (k : BasisSel) (lo inv x : Nat) : FRes :=
  let fin (y : XV) (fl : Flags) : FRes := let z := roundF .f32 r sat y; ⟨z.bits, z.fl ||| fl⟩
  let vx := decF .f32 x
  let bad : FRes := if k == .idx then ⟨0x80000000, flNv⟩ else ⟨nanOf .f32, flNv⟩
  let d := addX .ne vx.x (decF .f32 lo).negate.x
  let dv : FV := match d.x with
    | .nan s => .nan s
    | .inf n => .inf n
    | .num n m e _ => .fin n m e
  match (mulX dv (decF .f32 inv)).x with
  | .nan _ | .inf _ => bad
  | .num n m e _ =>
    let e' : Int := min e 0
    let u : Int := let w : Int := (m * 2 ^ (e - e').toNat : Nat); if n then -w else w
    let one : Int := ((2 ^ (-e').toNat : Nat) : Int)
    let i := u / one
    let t := u - i * one
    let e3 := 3 * e'
    match k with
    | .idx =>
      if i < tyLo .i32 then ⟨0x80000000, flNv⟩
      else if tyHi .i32 < i then ⟨0x7FFFFFFF, flNv⟩
      else ⟨tyPat .i32 i, 0⟩
    | .b0 => fin (sixth ((one - t) ^ 3) e3) 0
    | .b1 => fin (sixth (3 * t ^ 3 - 6 * t ^ 2 * one + 4 * one ^ 3) e3) 0
    | .b2 => fin (sixth (-3 * t ^ 3 + 3 * t ^ 2 * one + 3 * t * one ^ 2 + one ^ 3) e3) 0
    | .b3 => fin (sixth (t ^ 3) e3) 0

/-- One round of Tephra (R274). -/
def tephraRound (st : BitVec 64 × BitVec 64) : BitVec 64 × BitVec 64 :=
  let x := st.1 + st.2
  let x := x ^^^ (x >>> 29)
  let x := x * 0x8F3A5C21D46B07E5
  let x := (x <<< 23) ||| (x >>> 41)
  (x, st.2 + 0xA7C15E392B6DF043)

/-- The generator: twelve rounds on the counter under the key (R274). -/
def tephra (key ctr : BitVec 64) : BitVec 64 :=
  let st := (List.range 12).foldl (fun st _ => tephraRound st) (ctr, key)
  st.1 ^^^ (st.1 >>> 32) ^^^ st.2

end Sys2Proof.Machine
end

