-- ==== Sys2Proof/Machine/Spline.lean ====
section
/-! DEFINITION. The arithmetic of the array slice: products of planes (R240 to R243, R348, R349, R362), and of spline
cells (R374 to R380, R388, R390, R392). -/

namespace Sys2Proof.Machine

/-! ### Planes in LIN mode -/

/-- The type that a plane's code names. -/
def planeTy (p : Plane) : Ty := if p.ty = 0xB then .t8 else .bf16
/-- Whether a column's scale code is valid (R230). -/
def sclOk (c : Nat) : Bool := c != 0 && c != 255

/-- The value of a weight pattern under a scale code; TS8 weights are scaled (R230, R348). -/
def weightVal (p : Plane) (col pat : Nat) : FV :=
  if p.ty = 0xB then (decF .t8 pat).scale ((p.scl.getD col 0 : Nat) - 127 : Int) else decF .bf16 pat

/-- The product of one row of a column: a dropped weight's product is +0 (R243), and a column of an invalid scale holds
+0 weights (R348). -/
def weightProd (p : Plane) (col : Nat) (x : FV) (w : Nat) : FV :=
  if w = 0 then .fin false 0 0
  else if w = 1 || (p.ty == 0xB && !sclOk (p.scl.getD col 0)) then arrProd x (.fin false 0 0)
  else arrProd x (weightVal p col (w - 2))

/-- An activation as a number: an .i8 one is its integer (R240). -/
def actVal (t : Ty) (b : Nat) : FV :=
  if t.isFloat then decF t b else let v := tyVal t b; .fin (v < 0) v.natAbs 0

/-- A row of the product added to 64 accumulator elements (R362). -/
def mmRow (p : Plane) (t : Ty) (xs acc : List Nat) : List Nat :=
  let xv := xs.map (actVal t)
  ((List.range 64).zip (p.cols.zip acc)).map fun e =>
    accumulate e.2.2 ((xv.zip e.2.1).map fun y => weightProd p e.1 y.1 y.2)

/-! ### Latching planes (R360, R349) -/

/-- Columns of a matrix given by rows. -/
def transpose (n : Nat) (rows : List (List Nat)) : List (List Nat) :=
  (List.range n).map fun c => rows.map fun r => r.getD c 0

/-- Elements of z bytes. -/
def elemsOf (z : Nat) : Nat → List Byte → List Nat
  | 0, _ => []
  | n + 1, bs => leNat (bs.take z) :: elemsOf z n (bs.drop z)

/-- Eight weights of a compressed group; none when its metadata is invalid (R349). -/
def groupOf (vals : List Nat) (md : Nat) : Option (List Nat) :=
  let ix := [md % 8, md / 8 % 8, md / 64 % 8, md / 512 % 8]
  if ix.getD 0 0 < ix.getD 1 0 && ix.getD 1 0 < ix.getD 2 0 && ix.getD 2 0 < ix.getD 3 0 && md / 2 ^ 13 == 0 then
    some ((List.range 8).map fun k => match ix.idxOf? k with
      | some j => vals.getD j 0 + 2
      | none => 0)
  else none

/-- The 64 weights of one column from a compressed row: groups g0 to g0 + 7; and whether some metadata was invalid. -/
def colOfGroups (z g0 : Nat) (bs : List Byte) : List Nat × Bool :=
  let vals := elemsOf z (64 / z) bs
  let gs := (List.range 8).map fun g =>
    groupOf ((vals.drop (4 * (g0 + g))).take 4) (leNat ((bs.drop (64 + 2 * (g0 + g))).take 2))
  (gs.flatMap fun x => x.getD (List.replicate 8 1), gs.any (·.isNone))

/-- The columns that the rows of a mwld latch, and whether some metadata was invalid. -/
def latchCols (t8 cmp : Bool) (rows : List (List Byte)) : List (List Nat) × Bool :=
  let z := if t8 then 1 else 2
  if cmp then
    let cs := rows.flatMap fun r => if t8 then [colOfGroups z 0 r, colOfGroups z 8 r] else [colOfGroups z 0 r]
    (cs.map (·.1), cs.any (·.2))
  else (transpose 64 (rows.map fun r => (elemsOf z 64 r).map (· + 2)), false)

/-- The cells that the rows of a splld latch (R385). -/
def latchCells (t8 wide : Bool) (rows : List (List Byte)) : List (List (List Nat)) :=
  let z := if t8 then 1 else 2
  let n := if wide then 16 else 32
  let cap := if wide then 32 else 16
  rows.map fun r =>
    let kinds := leNat ((r.drop (n * cap * z + n * z)).take 4)
    (List.range n).map fun c =>
      elemsOf z cap (r.drop (c * cap * z)) ++ [leNat ((r.drop (n * cap * z + c * z)).take z), kinds / 2 ^ c % 2]

/-! ### Spline cells -/

/-- Whether a plane holds wide cells: bit 4 is compression in a LIN plane (R372, R375). -/
def Plane.wide (p : Plane) : Bool := p.spl && p.cmp
/-- Slots, outputs and the largest G of a plane (R374). -/
def Plane.cap (p : Plane) : Nat := if p.wide then 32 else 16
def Plane.outs (p : Plane) : Nat := if p.wide then 16 else 32
def Plane.maxG (p : Plane) : Nat := if p.wide then 29 else 13

/-- A coefficient or base weight as a number (R374). -/
def coefVal (p : Plane) (n pat : Nat) : FV :=
  if p.ty == 0xB && !sclOk (p.scl.getD n 0) then .fin false 0 0 else weightVal p n pat

/-- Where an input lies against the grid (R377). -/
inductive GSide where
  | none | low | high | inn
deriving DecidableEq, Repr

/-- The local coordinate: a dyadic number v * 2^e, or not finite. -/
inductive TCoord where
  | num (v : Int) (e : Int)
  | bad
deriving DecidableEq, Repr

/-- What the slice computes once for an input (R377). -/
structure GIn where
  side : GSide
  i : Nat
  t : TCoord
  spl : Bool

/-- The interval and local coordinate of an input under a knot set (R377). -/
def gridOf (lo inv g mode x : Nat) : GIn :=
  let u := (fMul .f32 .ne false (fSub .f32 .ne false x lo).bits inv).bits
  let ext := mode == 1
  match decF .f32 u with
  | .nan _ => { side := .none, i := 0, t := .bad, spl := mode != 2 }
  | .inf n =>
    if n then { side := .low, i := 0, t := if ext then .bad else .num 0 0, spl := mode != 2 }
    else { side := .high, i := g - 1, t := if ext then .bad else .num 1 0, spl := mode != 2 }
  | .fin n m e =>
    let e' : Int := min e 0
    let w : Int := let w : Int := ((m * 2 ^ (e - e').toNat : Nat) : Int); if n then -w else w
    let one : Int := ((2 ^ (-e').toNat : Nat) : Int)
    if w < 0 then { side := .low, i := 0, t := if ext then .num w e' else .num 0 0, spl := mode != 2 }
    else if (g : Int) * one < w then
      { side := .high, i := g - 1, t := if ext then .num (w - ((g : Int) - 1) * one) e' else .num 1 0, spl := mode != 2 }
    else
      let i := min (w / one).toNat (g - 1)
      { side := .inn, i := i, t := .num (w - (i : Int) * one) e', spl := true }

/-- A polynomial value v * 2^e over a small divisor, rounded once to FP32. -/
def ratio (v : Int) (e : Int) (d : Nat) : Nat :=
  (roundF .f32 .ne false (if v = 0 then .num false 0 0 false else divMag (v < 0) v.natAbs e d 0)).bits

/-- The four basis values at the local coordinate (R273, R377). -/
def basisAt (t : TCoord) : List Nat :=
  match t with
  | .bad => List.replicate 4 (nanOf .f32)
  | .num v e =>
    let e' : Int := min e 0
    let t : Int := v * ((2 ^ (e - e').toNat : Nat) : Int)
    let one : Int := ((2 ^ (-e').toNat : Nat) : Int)
    [ratio ((one - t) ^ 3) (3 * e') 6, ratio (3 * t ^ 3 - 6 * t ^ 2 * one + 4 * one ^ 3) (3 * e') 6,
     ratio (-3 * t ^ 3 + 3 * t ^ 2 * one + 3 * t * one ^ 2 + one ^ 3) (3 * e') 6, ratio (t ^ 3) (3 * e') 6]

/-- The four values of the derivative basis (R377). -/
def dbasisAt (t : TCoord) : List Nat :=
  match t with
  | .bad => List.replicate 4 (nanOf .f32)
  | .num v e =>
    let e' : Int := min e 0
    let t : Int := v * ((2 ^ (e - e').toNat : Nat) : Int)
    let one : Int := ((2 ^ (-e').toNat : Nat) : Int)
    [ratio (-(one - t) ^ 2) (2 * e') 2, ratio (3 * t ^ 2 - 4 * t * one) (2 * e') 2,
     ratio (-3 * t ^ 2 + 2 * t * one + one ^ 2) (2 * e') 2, ratio (t ^ 2) (2 * e') 2]

/-- The base value of an input, and its derivative, by base kind (R379). -/
def baseVal (kind x : Nat) : Nat := if kind = 0 then x else (fTrans .silu .f32 .ne false x).bits
def baseDer (kind x : Nat) : Nat := if kind = 0 then 0x3F800000 else (fTrans .dsilu .f32 .ne false x).bits

/-- +0. -/
def fzero : FV := .fin false 0 0

/-- The value of one cell (R380). -/
def cellVal (p : Plane) (n x : Nat) (gi : GIn) (bs : List Nat) (cell : List Nat) : Nat :=
  let sp := if gi.spl then ((List.range 4).map fun k =>
      arrProd (coefVal p n (cell.getD (gi.i + k) 0)) (decF .f32 (bs.getD k 0))) else List.replicate 4 fzero
  let w := coefVal p n (cell.getD p.cap 0)
  chunkSum (sp ++ [arrProd w (decF .f32 (baseVal (cell.getD (p.cap + 1) 0) x))] ++ List.replicate 3 fzero)

/-- An activation as FP32, exactly. -/
def actF32 (t : Ty) (b : Nat) : Nat := (convert .f32 t .ne false b).bits

/-- A knot set: kn.lo, kn.inv, kn.g, kn.mode. -/
def gridK (kn : List Nat) (x : Nat) : GIn := gridOf (kn.getD 0 0) (kn.getD 1 0) (kn.getD 2 0) (kn.getD 3 0) x

/-- One row of splev added to the accumulator elements of the plane's outputs (R380, R386). -/
def splRow (p : Plane) (t : Ty) (kn xs acc : List Nat) : List Nat :=
  let ins := xs.map fun b => let x := actF32 t b; let gi := gridK kn x; (x, gi, basisAt gi.t)
  ((List.range acc.length).zip acc).map fun e =>
    if e.1 < p.outs then
      accumulate e.2 ((ins.zip p.cells).map fun y =>
        decF .f32 (cellVal p e.1 y.1.1 y.1.2.1 y.1.2.2 (y.2.getD e.1 [])))
    else e.2

/-- Low and high counts that a row adds to the counter pairs (R378, R386). -/
def addPairs (t : Ty) (kn xs : List Nat) (pairs : Tbl Nat) : Tbl Nat :=
  ((List.range xs.length).zip xs).foldl (fun tb e =>
    let v := Tbl.get 0 tb e.1
    match (gridK kn (actF32 t e.2)).side with
    | .low => Tbl.set 0 tb e.1 (min (v % 65536 + 1) 65535 + v / 65536 * 65536)
    | .high => Tbl.set 0 tb e.1 (v % 65536 + min (v / 65536 + 1) 65535 * 65536)
    | .inn | .none => tb) pairs

/-- The slope of one cell (R388). -/
def cellSlope (p : Plane) (n x inv : Nat) (gi : GIn) (ds : List Nat) (cell : List Nat) : Nat :=
  -- under CLAMP the spline is constant outside the grid (R378)
  let s := if gi.spl then
      chunkSum (((List.range 4).map fun k =>
        arrProd (coefVal p n (cell.getD (gi.i + k) 0)) (decF .f32 (ds.getD k 0))) ++ List.replicate 4 fzero)
    else 0
  let w := coefVal p n (cell.getD p.cap 0)
  let a := mulX (decF .f32 inv) (decF .f32 s)
  let b := mulX w (decF .f32 (baseDer (cell.getD (p.cap + 1) 0) x))
  (roundF .f32 .ne false (addX .ne a.x b.x).x).bits

/-- Whether the derivative's spline part takes part: under CLAMP and ZERO not outside the grid (R378, R388). -/
def GIn.slope (gi : GIn) (mode : Nat) : GIn :=
  { gi with spl := gi.spl && (mode == 1 || gi.side == .inn || gi.side == .none) }

/-- One row of splbd: the 32 elements that columns 32 to 63 of the accumulator row take, from those that they hold (R388). -/
def bdRow (p : Plane) (t : Ty) (kn xs delta acc : List Nat) : List Nat :=
  let dv := (delta.take p.outs).map (decF .f32)
  ((List.range 32).zip (xs.zip p.cells)).map fun e =>
    let x := actF32 t e.2.1
    let gi := (gridK kn x).slope (kn.getD 3 0)
    let ds := dbasisAt gi.t
    let gs := ((List.range p.outs).zip e.2.2).map fun c => decF .f32 (cellSlope p c.1 x (kn.getD 1 0) gi ds c.2)
    accumulate (acc.getD e.1 0) ((dv.zip gs).map fun y => arrProd y.1 y.2)

/-- Index of a slot gradient, and of a base weight's, in the gradient store. -/
def gradSlot (p : Plane) (j n k : Nat) : Nat := (j * p.outs + n) * p.cap + k
def gradBase (j n : Nat) : Nat := 16384 + j * 32 + n

/-- Adds a product to an element of the gradient store; and whether the result is not finite. -/
def gradAdd (g : Tbl Lane × Bool) (ix : Nat) (a b : Nat) : Tbl Lane × Bool :=
  let v := (fFma .f32 .ne false false a b (Tbl.get (0 : Lane) g.1 ix).toNat).bits
  (Tbl.set 0 g.1 ix (BitVec.ofNat 32 v), g.2 || (decF .f32 v).nonFinite)

/-- One row of splgr (R390). -/
def grRow (p : Plane) (t : Ty) (kn xs delta : List Nat) (g : Tbl Lane × Bool) : Tbl Lane × Bool :=
  ((List.range 32).zip (xs.zip p.cells)).foldl (fun g e =>
    let x := actF32 t e.2.1
    let gi := gridK kn x
    let bs := basisAt gi.t
    ((List.range p.outs).zip e.2.2).foldl (fun g c =>
      let dl := delta.getD c.1 0
      let g := if gi.spl then
          (List.range 4).foldl (fun g k => gradAdd g (gradSlot p e.1 c.1 (gi.i + k)) dl (bs.getD k 0)) g
        else g
      gradAdd g (gradBase e.1 c.1) dl (baseVal (c.2.getD (p.cap + 1) 0) x)) g) g

/-- The sum of three numbers with small weights, over a power of two, rounded once to FP32. -/
def midpoint (vs : List (Nat × FV)) (sh : Int) : Nat :=
  let xs := vs.map fun v => (mulX (.fin false v.1 0) v.2).x
  let x := xs.tail.foldl (fun acc v => (addX .ne acc v).x) (xs.headD (.num false 0 0 false))
  let y : XV := match x with
    | .num n m e st => .num n m (e - sh) st
    | .nan s => .nan s
    | .inf n => .inf n
  (roundF .f32 .ne false y).bits

/-- A refined coefficient in the store format: e / s rounded once (R392). -/
def storeCoef (p : Plane) (n e : Nat) : Nat :=
  if p.ty = 0xB then
    if sclOk (p.scl.getD n 0) then
      (roundF .t8 .ne false ((decF .f32 e).scale (127 - (p.scl.getD n 0 : Nat) : Int)).x).bits
    else 0x77
  else (roundF .bf16 .ne false (decF .f32 e).x).bits

/-- One cell refined by midpoint insertion (R392). -/
def refineCell (p : Plane) (g n : Nat) (cell : List Nat) : List Nat :=
  let c (m : Nat) : FV := coefVal p n (cell.getD m 0)
  let z := if p.ty = 0xB then 0x77 else 0
  ((List.range p.cap).map fun k =>
    if 2 * g + 3 ≤ k then z
    else if k % 2 = 0 then storeCoef p n (midpoint [(1, c (k / 2)), (1, c (k / 2 + 1))] 1)
    else let m := k / 2 + 1; storeCoef p n (midpoint [(1, c (m - 1)), (6, c m), (1, c (m + 1))] 3)) ++ cell.drop p.cap

/-- The refined plane. -/
def refine (p : Plane) (g : Nat) : Plane :=
  { p with cells := p.cells.map fun row => ((List.range row.length).zip row).map fun c => refineCell p g c.1 c.2 }

end Sys2Proof.Machine
end

