-- ==== Sys2Proof/Machine/Slice.lean ====
section
/-! DEFINITION. The array slice: its two lanes, the rows that enter and land, planes that take effect, the gang's barrier
and the rotation of mmrot (R345, R346, R350 to R356, R360 to R373, R382 to R393). Ticks are those of the context's own
clock. -/

namespace Sys2Proof.Machine

/-! ### Operations -/

/-- Changes the array slice of a context. -/
def State.updArr (s : State) (l : Loc) (f : Arr64 → Arr64) : State := s.updCtx l fun c => { c with arr64 := f c.arr64 }
/-- An operation by its id. -/
def Arr64.op (a : Arr64) (id : Nat) : Option ArrOp := a.ops.find? fun o => o.id == id
/-- Changes an operation. -/
def Arr64.updOp (a : Arr64) (id : Nat) (f : ArrOp → ArrOp) : Arr64 :=
  { a with ops := a.ops.map fun o => if o.id == id then f o else o }
/-- The operation that a lane performs or will perform next (R346). -/
def Arr64.head (a : Arr64) (load : Bool) : Option ArrOp := a.ops.find? fun o => o.inLane && o.load == load
/-- Operations that a lane holds. -/
def Arr64.held (a : Arr64) (load : Bool) : Nat := (a.ops.filter fun o => o.inLane && o.load == load).length

/-- Whether an operation is one of the gang. -/
def isGang : Instr → Bool
  | .mmg _ | .splevG _ => true
  | _ => false
/-- Whether it is mmrot. -/
def isRot : Instr → Bool
  | .mmrot .. => true
  | _ => false

/-- Duration of an operation with rows (R354, R383). -/
def ArrOp.dur (o : ArrOp) : Nat :=
  match o.i with
  | .mwld t .. => if t == .t8 then 33 else 64
  | .splld .. => 32 * (o.rp2 / 2) + 1
  | _ => (o.rows * o.rp2 + 1) / 2
/-- Ticks from a row's entry to the tick at whose end its result lands. -/
def ArrOp.lat (o : ArrOp) : Nat :=
  match o.i with
  | .mm _ | .mmg _ | .mmrot .. => 69
  | .splev _ | .splevG _ => 74
  | .splbd .. | .splgr _ => 78
  | .splgrd .. => 18
  | _ => 2
/-- Ticks from the end of its duration to its token's completion. -/
def ArrOp.tail (o : ArrOp) : Nat :=
  match o.i with
  | .mwld .. | .splld .. => 0
  | .splgrd .. => 2
  | _ => o.lat
/-- Ticks from the start to a row's entry. -/
def ArrOp.off (o : ArrOp) (row : Nat) : Nat := row * o.rp2 / 2
/-- Byte address of a row of the operand (R351); the base already holds a reissue's advance. -/
def ArrOp.rowAddr (o : ArrOp) (r : Nat) : Nat := o.base + r * o.pitch * 16 + r % 2 ^ o.rot * 64

/-- Formats of the two planes: type, SPL, flag. -/
def Plane.fmt (p : Plane) : Nat × Bool × Bool := (p.ty, p.spl, p.cmp)
/-- Type code of a type in a plane. -/
def planeCode (t : Ty) : Nat := if t == .t8 then 0xB else 0x9

/-- Whether an operation acts at once. -/
def actsAtOnce : Instr → Bool
  | .macclr .. | .mbank | .mmstat .. | .splgclr | .splst .. | .grefine _ => true
  | _ => false

/-- Ticks from an operation's start to the tick on which its lane is free (R354, R383). -/
def ArrOp.span (o : ArrOp) : Nat :=
  match o.i with
  | .mmrot .. => max o.dur 67
  | .grefine _ => 64
  | .macclr .. | .mbank | .mmstat .. | .splgclr | .splst .. => 1
  | _ => o.dur

/-! ### The front plane that an operation will find (R359) -/

/-- How the lanes stand after the operations issued so far: the ticks on which they are free, the load lane's last token,
the last mmrot's lane-free tick, the last landings; and the operations that change planes, each with its tick: an exchange
by mbank comes after a plane that takes effect on its start tick. -/
structure Lanes where
  load : Nat
  comp : Nat
  done : Nat := 0
  rot : Nat := 0
  acc : Tbl Nat
  grad : Nat
  effs : List (Nat × Instr) := []

/-- The start tick of an operation behind those issued before it: its own where it has started, else that of R354, R364
and R383. A gang that has not been released counts as arriving with this tile. -/
def Lanes.startOf (a : Lanes) (o : ArrOp) : Nat :=
  let base := max (o.t + 1) (if o.load then a.load else a.comp)
  let lastOf (d : Nat) : Nat := Tbl.get 0 a.acc d + 1
  o.start.getD <| match o.i with
    | .mwld .. | .splld .. => max base (if o.load then a.rot else a.done)
    | .mmrot .. | .mbank => max base a.done
    | .mmg _ | .splevG _ => max base (o.rel.getD (o.t + 4) + 1)
    | .macrd .. | .macwr .. | .macclr .. | .splbd .. | .splgr _ => max base (lastOf o.d)
    | .mmstat .. => (List.range 8).foldl (fun m d => max m (lastOf d)) base
    | .splgrd .. | .splgclr | .splst .. => max base (a.grad + 1)
    | _ => base

/-- The lanes with one more operation. -/
def Lanes.add (a : Lanes) (o : ArrOp) : Lanes :=
  let st := a.startOf o
  let free := o.free.getD (st + o.span)
  let last := st + o.off (o.rows - 1) + o.lat
  let a := if o.load then { a with load := max a.load free, done := max a.done free } else { a with comp := max a.comp free }
  let eff (t : Nat) : Lanes := if o.taken then a else { a with effs := a.effs ++ [(t, o.i)] }
  match o.i with
  | .mwld .. | .splld .. => eff (2 * free)
  | .mbank => eff (2 * st + 1)
  | .mmrot .. =>
    { eff (2 * free) with rot := max a.rot free, acc := Tbl.put a.acc o.d (max (Tbl.get 0 a.acc o.d) last) }
  | .mm _ | .mmg _ | .splev _ | .splevG _ | .splbd .. | .macwr .. =>
    { a with acc := Tbl.put a.acc o.d (max (Tbl.get 0 a.acc o.d) last) }
  | .splgr _ => { a with grad := max a.grad last }
  | _ => a

/-- What an operation makes of the formats of the front and the back plane; mmrot counts as leaving the format unchanged
(R359, R367). -/
def planeEff (f : (Nat × Bool × Bool) × (Nat × Bool × Bool)) (i : Instr) : (Nat × Bool × Bool) × (Nat × Bool × Bool) :=
  match i with
  | .mwld t back cmp .. => if back then (f.1, (planeCode t, false, cmp)) else ((planeCode t, false, cmp), f.2)
  | .splld t back wide .. => if back then (f.1, (planeCode t, true, wide)) else ((planeCode t, true, wide), f.2)
  | .mbank => (f.2, f.1)
  | .mmrot .. => (f.1, f.1)
  | _ => f

/-- The formats that the strand's M words issued before the one with a number will leave in the front and the back plane:
they act in the order of their ticks, not in that of their issue (R354, R359). The front one is that at the start tick
of every later operation of the compute lane, which performs its operations in order. -/
def Arr64.willBe (a : Arr64) (id : Nat) : (Nat × Bool × Bool) × (Nat × Bool × Bool) :=
  let lanes := (a.ops.filter fun o => o.id < id).foldl Lanes.add
    { load := a.loadFree, comp := a.compFree, acc := a.accLast, grad := a.gradLast }
  (sortBy (fun x y => x.1 ≤ y.1) lanes.effs).foldl (fun f e => planeEff f e.2) (a.front.fmt, a.back.fmt)

/-! ### Start ticks (R354, R383) -/

/-- Whether the end of some load-lane operation issued before is not known: its last row has still to be read (R354). -/
def Arr64.loadsWait (a : Arr64) (o : ArrOp) : Bool := a.ops.any fun x => x.load && x.id < o.id && x.free.isNone
/-- The tick on which every earlier load-lane operation's token completes, once it is known: with its lane-free tick. -/
def Arr64.loadDone (a : Arr64) (o : ArrOp) : Nat :=
  a.ops.foldl (fun m x => if x.load && x.id < o.id then max m (x.free.getD 0) else m) 0

/-- The start tick of the operation that heads its lane, once it is known; one of the gang starts with the gang. -/
def Arr64.startAt (a : Arr64) (o : ArrOp) : Option Nat :=
  let base := max (o.t + 1) (if o.load then a.loadFree else a.compFree)
  let afterLoads : Option Nat := if a.loadsWait o then none else some (max base (a.loadDone o))
  let lastOf (d : Nat) : Nat := Tbl.get 0 a.accLast d + 1
  if o.start.isSome then none
  else
    match o.i with
    | .mwld .. | .splld .. =>
      if o.load then
        let rots := a.ops.filter fun x => isRot x.i && x.id < o.id
        if rots.any fun x => x.free.isNone then none
        else some (rots.foldl (fun m x => max m (x.free.getD 0)) base)
      else afterLoads
    | .mmrot .. | .mbank => afterLoads
    | .mmg _ | .splevG _ => none
    | .macrd .. | .macwr .. | .macclr .. | .splbd .. | .splgr _ => some (max base (lastOf o.d))
    | .mmstat .. => some (max base ((List.range 8).foldl (fun m d => max m (lastOf d)) 0))
    | .splgrd .. | .splgclr | .splst .. => some (max base (a.gradLast + 1))
    | _ => some base

/-- Places of the sixteen tiles of a gang, for a partition. -/
def gangLocs (g p : Nat) : List Loc := (List.range 16).map fun x => ⟨g * 16 + x, p⟩

/-- The gang's start, once the barrier is released and the operation heads every tile's compute lane (R364). -/
def State.gangStartAt (s : State) (g p : Nat) : Option Nat :=
  (gangLocs g p).foldl (fun m l =>
    match m, (s.ctx l).arr64.head false with
    | some m, some o => match o.rel, o.start with
      | some r, none => if isGang o.i then some (max m (max (r + 1) (s.ctx l).arr64.compFree)) else none
      | _, _ => none
    | _, _ => none) (some 0)

/-- Puts the start of each lane's next operation on the agenda; the gang's stands under its tile 0. -/
def State.arrKick (s : State) (l : Loc) : State :=
  let put (s : State) (l : Loc) (load : Bool) (t : Nat) : State :=
    let held := (((s.ctx l).arr64.head load).map (·.notBefore)).getD 0
    let due := max (s.tick + (t - (s.ctx l).now s.tick)) held
    if s.agenda.any fun e => e.1 ≤ due && e.2 == (.arrayOpStart l load) then s else s.sched due (.arrayOpStart l load)
  [true, false].foldl (fun s load =>
    match (s.ctx l).arr64.head load with
    | some o =>
      if isGang o.i then
        let g := gangOf l.tile
        match s.gangStartAt g l.part with
        | some t => put s ⟨g * 16, l.part⟩ false t
        | none => s
      else match (s.ctx l).arr64.startAt o with
        | some t => put s l load t
        | none => s
    | none => s) s

/-! ### Tokens, release and clearing away -/

/-- Whether an operation has not ended by tick n: it holds its lane, rows of it have still to land, or its token is bound (R354). -/
def ArrOp.unfinished (o : ArrOp) (n : Nat) : Bool := o.inLane || o.landed.length < o.rows || n < o.tokAt.getD 0
/-- Whether anything of an operation is still to come. -/
def Arr64.keeps (a : Arr64) (n : Nat) (o : ArrOp) : Bool :=
  o.unfinished n || n ≤ o.tokAt.getD 0 ||
    (o.more && !a.ops.any fun x => o.id < x.id && x.tok == o.tok && x.pc == o.pc)
/-- Clears away operations of which nothing is still to come. -/
def Arr64.prune (a : Arr64) (n : Nat) : Arr64 := { a with ops := a.ops.filter (a.keeps n) }

/-- An operation's ticks are known: its lane is free on `free`, and its token, unless a later issue of a captured word
follows, completes on `tokAt` (R354, R373). -/
def State.opEnds (s : State) (l : Loc) (o : ArrOp) (free tokAt : Nat) : State :=
  let s := s.updArr l fun a => a.updOp o.id fun x => { x with free := some free, tokAt := x.tok.map fun _ => tokAt }
  let s := match o.tok with
    | some k => if o.more then s else s.tokDone l k tokAt
    | none => s
  s.schedAt l free (.arrayOpStart l o.load)

/-- A trap that the slice finds; what trapped is tried again one tick after the resumption (R311, R451). An mmrot of which a row
trapped exchanges nothing (R367). -/
def State.sliceTrap (s : State) (l : Loc) (o : ArrOp) (code : Nat) (redo : Ev) : State :=
  let s := s.trapEngine l 2 code o.pc 0 0
  let again := (s.part l.part).haltAt + 1
  (s.updArr l fun a => a.updOp o.id fun x =>
    { x with notBefore := again, noEx := x.noEx || (isRot x.i && code == cPoison) }).sched again redo

/-! ### Accumulators (R353) -/

/-- The 64 elements of an accumulator row. -/
def Ctx.accRow (c : Ctx) (d r : Nat) : List Nat :=
  (List.range 64).map fun n => (Tbl.get (0 : Lane) c.a (d * 4096 + r * 64 + n)).toNat
/-- Writes elements of an accumulator row from a column on; a non-finite value sets the accumulator's flag (R362, R372,
R382). -/
def Ctx.setAccRow (c : Ctx) (d r : Nat) (vs : List Nat) (col : Nat := 0) : Ctx :=
  let a := ((List.range vs.length).zip vs).foldl (fun t e =>
    Tbl.set 0 t (d * 4096 + r * 64 + col + e.1) (BitVec.ofNat 32 e.2)) c.a
  let bad := vs.any fun v => (decF .f32 v).nonFinite
  { c with a := a, arr64 := if bad then { c.arr64 with nf := c.arr64.nf ||| (1 <<< d) } else c.arr64 }

/-! ### Planes (R345, R355, R360, R385) -/

/-- The plane that a load has latched, and its bad-scale and bad-metadata flags. -/
def ArrOp.latched (o : ArrOp) : Plane × Bool × Bool :=
  let bytesOf (r : Nat) : List Byte := (Tbl.get [] o.rowsIn r).map (BitVec.ofNat 8)
  let rows := (List.range o.rows).map bytesOf
  let scl := Tbl.get [] o.rowsIn o.rows
  match o.i with
  | .mwld t _ cmp .. =>
    let c := latchCols (t == .t8) cmp rows
    ({ ty := planeCode t, cmp := cmp, cols := c.1, scl := scl }, t == .t8 && scl.any fun x => !sclOk x, c.2)
  | .splld t _ wide .. =>
    let used := scl.take (if wide then 16 else 32)
    ({ ty := planeCode t, spl := true, cmp := wide, cells := latchCells (t == .t8) wide rows, scl := used },
      t == .t8 && used.any fun x => !sclOk x, false)
  | _ => (o.plane, false, false)

/-- A plane takes effect for operations that start from now on (R354, R355). -/
def Arr64.take (a : Arr64) (o : ArrOp) : Arr64 :=
  let a := a.updOp o.id fun x => { x with taken := true }
  let x := o.latched
  let put (back : Bool) : Arr64 :=
    let a := if back then { a with back := x.1 } else { a with front := x.1 }
    { a with bsc := a.bsc || x.2.1, bmd := a.bmd || x.2.2 }
  match o.i with
  | .mwld _ back .. => put back
  | .splld _ back .. => put back
  | .grefine _ => { a with front := o.plane }
  | _ => a

/-- Planes that take effect by tick n. -/
def Arr64.takeDue (a : Arr64) (n : Nat) : Arr64 :=
  (a.ops.filter fun o => !o.taken && (match o.i with
    | .mwld .. | .splld .. | .grefine _ => o.free.any fun f => f ≤ n
    | _ => false)).foldl Arr64.take a

/-- State byte of a plane (R372, R375). -/
def Plane.byte (p : Plane) : Nat := p.ty % 16 + (if p.cmp then 16 else 0) + (if p.spl then 32 else 0)

/-- The word that mmstat writes (R372). -/
def Arr64.status (a : Arr64) : Nat :=
  a.nf.toNat * 2 ^ 56 + (if a.bsc then 2 ^ 47 else 0) + (if a.bmd then 2 ^ 46 else 0) + a.held false % 16 * 2 ^ 36 +
    a.held true % 16 * 2 ^ 32 + a.back.byte * 256 + a.front.byte

/-! ### Rings of mmrot (R366) -/

/-- A tile of the slab at a distance around its ring in x or in y. -/
def ringTile (e : Eff) (t dx dy : Nat) : Nat :=
  tileOf (e.ox + (tileX t - e.ox + dx) % max 1 e.ex) (e.oy + (tileY t - e.oy + dy) % max 1 e.ey) (tileZ t)
/-- The ring neighbours: west and east in x, north (ry + 1) and south in y. -/
def Eff.west (e : Eff) (t : Nat) : Nat := ringTile e t (e.ex - 1) 0
def Eff.east (e : Eff) (t : Nat) : Nat := ringTile e t 1 0
def Eff.north (e : Eff) (t : Nat) : Nat := ringTile e t 0 1
def Eff.south (e : Eff) (t : Nat) : Nat := ringTile e t 0 (e.ey - 1)

/-- The mmrot that a tile is performing. -/
def Arr64.rot (a : Arr64) : Option ArrOp := a.ops.find? fun o => isRot o.i && o.start.isSome && !o.taken

/-! ### Starting an operation -/

/-- The knot set of a tile's gang: kn.lo, kn.inv, kn.g, kn.mode. -/
def State.knots (s : State) (t : Nat) : List Nat :=
  let g := s.gang (gangOf t)
  [g.lo.toNat, g.inv.toNat, g.g.toNat, g.mode.toNat]

/-- Whether a knot set's G suits a plane (R382). -/
def knotOk (kn : List Nat) (p : Plane) : Bool := 1 ≤ kn.getD 2 0 && kn.getD 2 0 ≤ p.maxG

/-- Whether the operation computes on a grid. -/
def isSpline : Instr → Bool
  | .splev _ | .splevG _ | .splbd .. | .splgr _ => true
  | _ => false

/-- An mmrot starts: its weights leave row by row, its first row is due from its neighbours, and its planes exchange at the
lane-free tick (R366, R367). -/
def State.rotStart (s : State) (l : Loc) (o : ArrOp) (n : Nat) : State :=
  let e := (s.region (s.ctx l).region).eff
  let p := (s.ctx l).arr64.front
  let nl : Loc := ⟨e.north l.tile, l.part⟩
  let s := (List.range 64).foldl (fun s k =>
    s.schedAt l (n + k + 2) (.mmrotShiftLand nl l.tile (.wRow k (p.cols.map fun c => c.getD k 0)))) s
  let s := s.schedAt l (n + 66) (.mmrotShiftLand nl l.tile (.state p.ty p.spl p.cmp p.scl))
  let s := s.schedAt l (n + 2) (.mmrotShiftLand l l.tile .due)
  s.schedAt l (n + o.span) (.mmrotPlaneExchange l o.id)

/-- The value and side effects of the operations that act at once on their start tick. -/
def State.opAct (s : State) (l : Loc) (o : ArrOp) (n : Nat) : State :=
  let done (s : State) : State := s.opEnds l o (n + 1) (n + 1)
  let a := (s.ctx l).arr64
  match o.i with
  | .macclr .. =>
    done (s.updCtx l fun c =>
      let c := { c with a := c.a.filter fun e =>
        !(e.1 / 4096 == o.d && o.r0 ≤ e.1 / 64 % 64 && e.1 / 64 % 64 < o.r0 + o.rows) }
      let z (a : Arr64) : Arr64 := if o.rows = 64 then { a with nf := a.nf &&& ~~~((1 : BitVec 8) <<< o.d) } else a
      { c with arr64 := (z c.arr64).updOp o.id (fun x => { x with rows := 0 }) })
  | .mbank =>
    done (s.updArr l fun a => { a.updOp o.id fun x => { x with taken := true } with front := a.back, back := a.front })
  | .mmstat clr .. =>
    let s := s.updCtx l fun c => c.pendK o.tok (n + 1) (.s o.d (BitVec.ofNat 64 a.status))
    done (if clr then s.updArr l fun a => { a with nf := 0, bsc := false, bmd := false } else s)
  | .splgclr => done (s.updArr l fun a => { a with grad := [], gnf := false })
  | .splst clr .. =>
    let w := (if a.gnf then 1 else 0) + (if a.front.wide then 2 else 0) + 256 * ((s.knots l.tile).getD 2 0)
    let bs := (List.range 32).flatMap fun j => addrBytes (o.sc + 4 * j) (leBytes 4 (Tbl.get 0 a.pairs j))
    let s := s.updCtx l fun c => (c.pendK o.tok (n + 1) (.s o.d (BitVec.ofNat 64 w))).spWrite n 1 bs
    done (if clr then s.updArr l fun a => { a with pairs := [], gnf := false } else s)
  | .grefine _ =>
    -- G was read when the word issued (R392)
    let s := s.updArr l fun a => a.updOp o.id fun x => { x with plane := refine a.front (o.kn.getD 2 0) }
    (s.opEnds l o (n + 64) (n + 64)).schedAt l (n + 64) (.planeTakeEffect l o.id)
  | _ => done s

/-- An operation starts on tick n: it keeps the front plane and the knot set as they stand (R355, R376). -/
def State.opStart (s : State) (l : Loc) (o : ArrOp) (n : Nat) : State :=
  let a := (s.ctx l).arr64
  let kn := s.knots l.tile
  if isSpline o.i && !knotOk kn a.front then s.sliceTrap l o cArrayFormat (.arrayOpStart l o.load)
  else
    let keep (x : ArrOp) : ArrOp :=
      { x with start := some n, plane := a.front, kn := if actsAtOnce x.i then x.kn else kn }
    let s := s.updArr l fun a => a.updOp o.id keep
    let o := keep o
    if actsAtOnce o.i then s.opAct l o n
    else
      let s := if isRot o.i then s.rotStart l o n else s
      s.schedAt l n (.arrayRowEntry l o.id 0)

/-- The gang starts: every tile's operation keeps its own plane; tile 0's interval, activation type and knot set apply to
all (R363, R364, R387). -/
def State.gangStart (s : State) (g p n : Nat) : State :=
  let ls := gangLocs g p
  match ls.head?.bind fun l => ((s.ctx l).arr64.head false).map fun o => (l, o) with
  | some (l0, o0) =>
    if isSpline o0.i && !knotOk (s.knots (g * 16)) (s.ctx l0).arr64.front then
      s.sliceTrap l0 o0 cArrayFormat (.arrayOpStart l0 false)
    else
      let s := ls.foldl (fun s l =>
        match (s.ctx l).arr64.head false with
        | some o => s.updArr l fun a => a.updOp o.id fun x =>
          { x with start := some n, plane := a.front, kn := s.knots (g * 16), rp2 := o0.rp2, aty := o0.aty }
        | none => s) s
      s.schedAt l0 n (.arrayRowEntry l0 o0.id 0)
  | none => s

/-- An operation whose lane-free tick has come leaves its lane, and planes that are due take effect (R354). -/
def State.laneTurn (s : State) (l : Loc) (load : Bool) : State :=
  let n := (s.ctx l).now s.tick
  (s.landAt l).updArr l fun a =>
    let a := a.takeDue n
    let out := a.ops.filter fun o => o.inLane && o.load == load && o.free.any fun f => f ≤ n
    let free := out.foldl (fun m o => max m (o.free.getD 0)) (if load then a.loadFree else a.compFree)
    let leave (o : ArrOp) : ArrOp := if out.any (fun x => x.id == o.id) then { o with inLane := false } else o
    let a := { a with ops := a.ops.map leave }
    let a := if load then { a with loadFree := free } else { a with compFree := free }
    a.prune n

/-- An array lane's next operation starts, once the one before it has released the lane (R354); what the other lane has ended by then
has left it too (R372). -/
def execArrayOpStart (l : Loc) (load : Bool) (s : State) : Out :=
  let n := (s.ctx l).now s.tick
  let s := (s.laneTurn l true).laneTurn l false
  let s := match (s.ctx l).arr64.head load with
    | some o =>
      if isGang o.i then
        match s.gangStartAt (gangOf l.tile) l.part with
        | some t => if t ≤ n && tileX l.tile == 0 && o.notBefore ≤ s.tick then s.gangStart (gangOf l.tile) l.part n else s
        | none => s
      else match (s.ctx l).arr64.startAt o with
        | some t => if t ≤ n && o.notBefore ≤ s.tick then s.opStart l o n else s
        | none => s
    | none => s
  ok (s.arrKick l)

/-! ### Rows that enter -/

/-- Bytes of a row of the operand. -/
def ArrOp.rowLen (o : ArrOp) : Nat :=
  match o.i with
  | .mwld t _ cmp .. => if t == .t8 && !cmp then 64 else 128
  | .splld t _ wide .. => if t == .t8 then (if wide then 544 else 560) else if wide then 1072 else 1104
  | .macrd t .. | .macwr t _ => 64 * tySize t
  | .splev _ | .splevG _ | .splbd .. | .splgr _ => 32 * tySize o.aty
  | .splgrd .. => 2176
  | _ => 64 * tySize o.aty

/-- Bytes of a row that are read: those that pad a row of splld are not (R385). -/
def ArrOp.rowUsed (o : ArrOp) : Nat :=
  match o.i with
  | .splld t _ wide .. => (if wide then 16 * 33 else 32 * 17) * tySize t + 4
  | _ => o.rowLen

/-- What a row reads: its elements, or why it cannot enter. -/
inductive RowIn where
  | row (s : State) (vals : List Nat) (bytes : List Byte)
  | wait
  | trap (s : State) (code : Nat)

/-- Reads a row of bytes from the scratchpad as it stands at the end of the tick before (R354). -/
def State.spRow (s : State) (l : Loc) (a len : Nat) (f : List Byte → List Nat) : RowIn :=
  let s := s.landAt l
  let c := s.ctx l
  if c.spBad a len then .trap s cPoison else let bs := c.sp.bytes a len; .row s (f bs) bs

/-- Pops the row's vector from the operation's stream (R352). -/
def State.strmRow (s : State) (l : Loc) (n count : Nat) : RowIn :=
  let s := { s with me := l.tile }
  let c := s.c
  match (if c.bound n && !(c.slot n).dir then c.canRead n else .bad) with
  | .bad => .trap s cIllegalOperand
  | .wait => if c.kind == .elastic || c.loose then .wait else .trap s cTimetable
  | .go =>
    -- a vector that traps stays in the stream: the access is made again (R451)
    if c.popPoison n then .trap s cPoison
    else .row (s.popOne n) ((elems (tyBits (c.slot n).rfmt) (c.readV n)).take count) []

/-- Reads row `row` of an operation. -/
def State.rowRead (s : State) (l : Loc) (o : ArrOp) (row : Nat) : RowIn :=
  let ad := o.rowAddr row
  let raw (a len : Nat) : RowIn := s.spRow l a len fun bs => bs.map BitVec.toNat
  let act (n : Nat) : RowIn := match o.strm with
    | some v => s.strmRow l v n
    | none => s.spRow l ad o.rowLen (elemsOf (tySize o.aty) n)
  match o.i with
  | .mwld .. => if row = o.rows then raw o.sc 64 else raw ad o.rowLen
  | .splld .. => if row = o.rows then raw o.sc 32 else raw ad o.rowUsed
  | .mm _ | .mmg _ | .mmrot .. => act 64
  | .splev _ | .splevG _ => act 32
  | .splbd .. | .splgr _ =>
    match act 32 with
    | .row s vs bs => .row s (vs ++ (s.ctx l).accRow o.d (o.r0 + row)) bs
    | x => x
  | .macrd t r sat _ =>
    let vs := ((s.ctx l).accRow o.d (o.r0 + row)).map fun v => if t == .f32 then v else (convert t .f32 r sat v).bits
    .row s vs (vs.flatMap fun v => leBytes (tySize t) v)
  | .macwr t _ => s.spRow l ad o.rowLen fun bs => (elemsOf (tySize t) 64 bs).map fun v => (convert .f32 t .ne false v).bits
  | .splgrd .. =>
    let a := (s.ctx l).arr64
    let p := o.plane
    let j := o.r0 + row
    let g (i : Nat) : Nat := (Tbl.get (0 : Lane) a.grad i).toNat
    let vs := ((List.range p.outs).flatMap fun n => (List.range p.cap).map fun k => g (gradSlot p j n k)) ++
      ((List.range p.outs).map fun n => g (gradBase j n)) ++ List.replicate (32 - p.outs) 0
    .row s vs (vs.flatMap fun v => leBytes 4 v)
  | _ => .row s [] []

/-- The effects that a row's entry has beside the landing of its result: counters of splev, the shift of mmrot. -/
def State.rowSide (s : State) (l : Loc) (o : ArrOp) (row n : Nat) (vals : List Nat) (bytes : List Byte) : State :=
  match o.i with
  | .splev _ | .splevG _ => s.updArr l fun a => { a with pairs := addPairs o.aty o.kn vals a.pairs }
  | .mmrot .. =>
    let e := (s.region (s.ctx l).region).eff
    s.schedAt l (n + 2) (.mmrotShiftLand ⟨e.west l.tile, l.part⟩ l.tile (.aRow row bytes false))
  | _ => s

/-- A row's result is put on its way in one tile's slice, `x` ticks behind tile 0; after the last row the operation's ticks
are known. -/
def State.rowGo (s : State) (l : Loc) (id row n x : Nat) (vals : List Nat) : State :=
  match (s.ctx l).arr64.op id with
  | some o =>
    let e := n + x
    let land := match o.i with
      | .macrd .. | .splgrd .. => e + o.lat
      | _ => e + o.lat + 1
    let s := s.updArr l fun a => a.updOp id fun o => { o with rowsIn := Tbl.put o.rowsIn row vals }
    let s := s.schedAt l land (.arrayResultLand l id row)
    if row + 1 < o.rows then s
    else
      let s := s.updArr l fun a =>
        let last := Tbl.put a.accLast o.d (max (Tbl.get 0 a.accLast o.d) (e + o.lat))
        match o.i with
        | .mm _ | .mmg _ | .mmrot .. | .splev _ | .splevG _ | .splbd .. | .macwr .. => { a with accLast := last }
        | .splgr _ => { a with gradLast := max a.gradLast (e + o.lat) }
        | _ => a
      let st := e - o.off row
      let d := o.dur
      s.opEnds l o (st + o.span) (st + d + o.tail)
  | none => s

/-- A row of an operation enters the slice; one whose data is not ready waits, and a fault of its data traps (R311, R352,
R354, R359). -/
def execArrayRowEntry (l : Loc) (op row : Nat) (s : State) : Out :=
  match (s.ctx l).arr64.op op with
  | none => ok s
  | some o =>
    let n := (s.ctx l).now s.tick
    match s.rowRead l o row with
    | .wait => ok (s.schedIn 1 (.arrayRowEntry l op row))
    | .trap s code => ok (s.sliceTrap l o code (.arrayRowEntry l op row))
    | .row s vals bytes =>
      match o.i with
      | .mwld .. | .splld .. =>
        let s := s.updArr l fun a => a.updOp op fun o =>
          { o with rowsIn := Tbl.put o.rowsIn row vals, landed := if row < o.rows then row :: o.landed else o.landed }
        let t8 := match o.i with
          | .mwld t .. | .splld t .. => t == .t8
          | _ => false
        if row + 1 < o.rows then ok (s.schedIn (o.off (row + 1) - o.off row) (.arrayRowEntry l op (row + 1)))
        else
          let st := n - o.off (min row (o.rows - 1))
          let st := if row = o.rows then n + 1 - o.dur else st
          if row < o.rows && t8 then ok (s.schedAt l (st + o.dur - 1) (.arrayRowEntry l op o.rows))
          else
            let f := st + o.dur
            ok ((s.schedAt l f (.planeTakeEffect l op)).opEnds l o f f)
      | _ =>
        let s := s.rowSide l o row n vals bytes
        let s := if isGang o.i then
            (gangLocs (gangOf l.tile) l.part).foldl (fun s m =>
              match ((s.ctx m).arr64.ops.find? fun y => isGang y.i && y.start == o.start) with
              | some y => s.rowGo m y.id row n (tileX m.tile) vals
              | none => s) s
          else s.rowGo l op row n 0 vals
        if row + 1 < o.rows then ok (s.schedIn (o.off (row + 1) - o.off row) (.arrayRowEntry l op (row + 1))) else ok s

/-! ### Results that land -/

/-- One row's result lands. -/
def State.rowLand (s : State) (l : Loc) (o : ArrOp) (row : Nat) : State :=
  let c := s.ctx l
  let r := o.r0 + row
  let vals := Tbl.get [] o.rowsIn row
  let acc := if o.z then List.replicate 64 0 else c.accRow o.d r
  let mark (s : State) : State := s.updArr l fun a => a.updOp o.id fun x => { x with landed := row :: x.landed }
  mark <| match o.i with
  | .mm _ | .mmg _ | .mmrot .. => s.updCtx l fun c => c.setAccRow o.d r (mmRow o.plane o.aty vals acc)
  | .splev _ | .splevG _ =>
    -- columns that the plane has no output for are left unchanged
    s.updCtx l fun c => c.setAccRow o.d r ((splRow o.plane o.aty o.kn vals acc).take o.plane.outs)
  | .splbd .. =>
    s.updCtx l fun c =>
      c.setAccRow o.d r (bdRow o.plane o.aty o.kn (vals.take 32) (vals.drop 32) (acc.drop 32)) 32
  | .splgr _ =>
    s.updArr l fun a =>
      let g := grRow o.plane o.aty o.kn (vals.take 32) (vals.drop 32) (a.grad, a.gnf)
      { a with grad := g.1, gnf := g.2 }
  | .macwr .. => s.updCtx l fun c => c.setAccRow o.d r vals
  | .macrd t .. =>
    s.engWrite l 0 1 (addrBytes (o.rowAddr row) (vals.flatMap fun v => leBytes (tySize t) v))
  | .splgrd .. =>
    s.engWrite l 0 1 (addrBytes (o.rowAddr row) (vals.flatMap fun v => leBytes 4 v))
  | _ => s

/-- Whether an operation's rows add to an accumulator. -/
def ArrOp.sums (o : ArrOp) : Bool :=
  match o.i with
  | .mm _ | .mmg _ | .mmrot .. | .splev _ | .splevG _ | .splbd .. => true
  | _ => false

/-- A result row lands; of two rows of the same accumulator row that of the earlier operation lands first, since sums are added in
issue order (R355). -/
def execArrayResultLand (l : Loc) (op row : Nat) (s : State) : Out :=
  let n := (s.ctx l).now s.tick
  match (s.ctx l).arr64.op op with
  | none => ok s
  | some o =>
    if o.landed.contains row then ok s
    else
      let early := (s.ctx l).arr64.ops.filter fun x =>
        o.sums && x.sums && x.id < o.id && x.d == o.d && x.r0 ≤ o.r0 + row && Tbl.has x.rowsIn (o.r0 + row - x.r0) &&
          !x.landed.contains (o.r0 + row - x.r0)
      let s := early.foldl (fun s x => s.rowLand l x (o.r0 + row - x.r0)) s
      ok ((s.rowLand l o row).updArr l fun a => a.prune n)

/-- Whether an operation is grefine, which a swap lets complete (R356). -/
def isRefine : Instr → Bool
  | .grefine _ => true
  | _ => false

/-- A loaded or refined plane takes effect (R354, R360); a swap in progress lets grefine complete (R356). -/
def execPlaneTakeEffect (l : Loc) (op : Nat) (s : State) : Out :=
  let n := (s.ctx l).now s.tick
  let refined (a : Arr64) : Arr64 := match a.op op with
    | some o => if isRefine o.i && !o.taken then a.take o else a
    | none => a
  ok (s.updArr l fun a => (refined a).takeDue n)

/-! ### The gang's barrier (R364, R365) -/

/-- Whether the arrivals of a gang agree, and every tile of the gang has a running strand of the region. -/
def State.gangAgrees (s : State) (g p : Nat) : Bool :=
  let as := (s.gang g).arrs.filter fun a => a.1 == p
  match as.head? with
  | some a =>
    let r := (s.ctx ⟨a.2.1, p⟩).region
    (as.all fun b => b.2.2.1 == a.2.2.1 && b.2.2.2.1 == a.2.2.2.1) &&
      (gangLocs g p).all fun l => s.holds l && (s.ctx l).live && (s.ctx l).region == r
  | none => true

/-- The gang's barrier: in a timed phase all sixteen arrivals fall on one tick, or it is a mismatch; with sixteen arrivals
it releases 4 ticks after the last (R364, R365). -/
def execGangBarrierRelease (gang part : Nat) (s : State) : Out :=
  let as := (s.gang gang).arrs.filter fun a => a.1 == part
  match as.head? with
  | none => ok s
  | some a =>
    let l0 : Loc := ⟨a.2.1, part⟩
    let n := (s.ctx l0).now s.tick
    if as.length < 16 then
      if (s.ctx l0).kind == .elastic then ok s else ok (s.gangMismatch gang part)
    else
      let last := as.foldl (fun m a => max m a.2.2.2.2) 0
      if n < last + 4 then ok s
      else
        let s := s.updGang gang fun x => { x with arrs := x.arrs.filter fun a => a.1 != part }
        let s := (gangLocs gang part).foldl (fun s l =>
          let go (o : ArrOp) : ArrOp :=
            if isGang o.i && o.inLane && o.start.isNone && o.rel.isNone then { o with rel := some n } else o
          let s := s.updCtx l fun c =>
            { c with
              arr64 := { c.arr64 with ops := c.arr64.ops.map go }
              block := if c.block == .mmg then .none else c.block }
          s.uiPoll l) s
        ok (s.arrKick ⟨gang * 16, part⟩)

/-! ### mmrot (R366, R367) -/

/-- What an mmrot that has come to tick n must have received by its end (R366, R367). -/
def ArrOp.owed (o : ArrOp) (n : Nat) : List Nat :=
  let m := n - o.start.getD 0
  ((List.range o.rows).filter fun i => o.off i + 2 ≤ m) ++ ((List.range 64).filter fun k => k + 2 ≤ m).map (64 + ·) ++
    (if 66 ≤ m then [128] else [])

/-- Puts row k of a weight plane in place: the code of each column. -/
def setWRow (cols : List (List Nat)) (k : Nat) (codes : List Nat) : List (List Nat) :=
  (List.range 64).map fun n => (List.range 64).map fun i => if i = k then codes.getD n 0 else (cols.getD n []).getD i 0

/-- The receiver of a rotation traps with EXCHANGE_LATE, once, with the detail word of R405: the tile that sent, or was to send, and
the present tick as the due tick and as that of the landing, since the trap comes on the landing tick (DEDUCED, assumption
94). -/
def State.rotLate (s : State) (l : Loc) (src : Nat) : State :=
  let t := (s.ctx l).tt s.tick % 65536
  let detail := src * 2 ^ 52 + 2 * 2 ^ 50 + t * 65536 + t
  match (s.ctx l).arr64.rot with
  | some o =>
    if o.bad then s
    else (s.updArr l fun a => a.updOp o.id fun x => { x with bad := true }).trapEngine l 2 cExchangeLate o.pc detail 0
  | none => if (s.ctx l).live then s.trapEngine l 2 cExchangeLate 0 detail 0 else s

/-- The tile that has not sent what an mmrot must have by tick n: the east one its row of A, the south one the weights and their
scales; none where nothing is missing. -/
def State.rotMissing (s : State) (l : Loc) (o : ArrOp) (n : Nat) : Option Nat :=
  let e := (s.region (s.ctx l).region).eff
  ((o.owed n).find? fun k => !o.got.contains k).map fun k => if k < 64 then e.east l.tile else e.south l.tile

/-- What a ring neighbour sent lands at the end of this tick; where the receiver has not started the mmrot that it belongs
to, its sender is early: nothing lands, and the receiver traps. A receiver in which something has not landed by its landing
tick traps then (R366, R367). -/
def execMmrotShiftLand (l : Loc) (src : Nat) (sh : Shift) (s : State) : Out :=
  let n := s.engNow l
  let key : Option Nat := match sh with
    | .aRow row _ _ => some row
    | .wRow k _ => some (64 + k)
    | .state .. => some 128
    | .due => none
  match (s.ctx l).arr64.rot, key with
  | none, none => ok s
  | none, some _ => ok (s.rotLate l src)
  | some o, none =>
    let s := match s.rotMissing l o n with
      | some t => s.rotLate l t
      | none => s
    if (o.owed (n + 4096)).all (o.owed n).contains then ok s else ok (s.schedIn 1 (.mmrotShiftLand l l.tile .due))
  | some o, some key =>
    if o.got.contains key then ok (s.rotLate l src)
    else
      let s := s.updArr l fun a => a.updOp o.id fun x => { x with got := key :: x.got }
      match sh with
      | .aRow row bs pz =>
        let a := o.rowAddr row
        ok (s.engWrite l 0 1 (addrBytes a bs)
          (if pz then (List.range bs.length).map (fun i => (a + i) / 8) |>.eraseDups else []))
      | .wRow k codes => ok (s.updArr l fun a => { a with back := { a.back with cols := setWRow a.back.cols k codes } })
      | .state ty spl cmp scl =>
        ok (s.updArr l fun a => { a with back := { a.back with ty := ty, spl := spl, cmp := cmp, scl := scl, cells := [] } })
      | .due => ok s

/-- At the lane-free tick the planes exchange; a plane of another format traps, and the old front is kept, as it is where the mmrot
has trapped or something has not landed by now (R366, R367). -/
def execMmrotPlaneExchange (l : Loc) (op : Nat) (s : State) : Out :=
  match (s.ctx l).arr64.op op with
  | none => ok s
  | some o =>
    let a := (s.ctx l).arr64
    let late := s.rotMissing l o (s.engNow l)
    let s := match late with
      | some t => s.rotLate l t
      | none => s
    if o.bad || o.noEx || late.isSome then ok (s.updArr l fun a => a.updOp op fun x => { x with taken := true })
    else if a.back.fmt != a.front.fmt then ok (s.sliceTrap l o cArrayFormat (.mmrotPlaneExchange l op))
    else
      ok (s.updArr l fun a =>
        { a.updOp op fun x => { x with taken := true } with front := a.back, back := a.front })

end Sys2Proof.Machine
end

