-- ==== Sys2Proof/Machine/Freeze.lean ====
section
/-! DEFINITION. What freezes with a context, and what comes to the dispenser's notice: which events are of a context's own
parts (R446, R448, R458), freezing them and letting them go on. -/

namespace Sys2Proof.Machine

/-- The region whose strands, loading or retirement an event belongs to. -/
def evRegion : Ev → Option Nat
  | .boundaryRelease r _ _ | .barRelease r _ _ | .imageChunkSend r _ _ | .imageChunkArrival r _ _ | .loadCompleteReport r _
  | .regionRetire r => some r
  | .recruitStart _ st => some st.region
  | _ => none

/-- The partition whose context an event belongs to (R446). -/
def State.evPart (s : State) (e : Ev) : Option Nat :=
  match evLoc e, evRegion e, e with
  | some l, _, _ => some l.part
  | none, some r, _ => some (s.region r).part
  | none, none, .gangBarrierRelease _ p => some p
  | none, none, _ => none

/-- Whether an event that is due in so many ticks goes on while a context that is swapped out drains: its copies,
stream-outs, accesses and publications (R442, R458); of the array, the rows that have entered, what an mmrot has sent, which
lands two ticks later, and grefine (R356). -/
def State.evDrains (s : State) (due : Nat) : Ev → Bool
  | .homeReplyArrival _ | .remoteAckArrival .. | .remoteAccessServe _ | .copyTransferStart .. | .copySlotMove ..
  | .localCopyMove .. | .copyWriteReport .. | .streamWrite .. | .streamWriteLand .. | .sendAckArrival ..
  | .shootdownComplete .. | .arrayResultLand .. => true
  | .mmrotShiftLand _ _ sh => due < 2 && sh != .due
  | .planeTakeEffect l op => ((s.ctx l).arr64.op op).any fun o => isRefine o.i
  | _ => false

/-- Whether an event that is due in so many ticks waits for its context to run again. -/
def State.evFrozen (s : State) (due : Nat) (e : Ev) : Bool :=
  match s.evPart e with
  | some p => (match (s.part p).st with
    | .active | .halting => false
    | .swapping => !s.evDrains due e
    | .halted | .swapped => true)
  | none => false

/-- An event that comes due while its context is frozen waits, due on the tick of the resumption. -/
def State.deferEv (s : State) (e : Ev) : State :=
  match s.evPart e with
  | some p => s.updPart p fun q => { q with frozen := q.frozen ++ [(0, e)] }
  | none => s

/-- Places of a partition, in tile order. -/
def State.placesOf (s : State) (p : Nat) : List Loc :=
  s.cores.filterMap fun e =>
    if e.2.fg.part == some p || e.2.bg.part == some p || (e.2.spill.map (·.part)) == some (some p) then some ⟨e.1, p⟩
    else none

/-- Takes a partition's events that freeze now off the agenda, each with the ticks that it still has to go. -/
def State.freezeEvents (s : State) (p : Nat) : State :=
  let hit (e : Nat × Ev) : Bool := s.evPart e.2 == some p && s.evFrozen (e.1 - s.tick) e.2
  let fs := (s.agenda.filter hit).map fun e => (e.1 - s.tick, e.2)
  State.updPart { s with agenda := s.agenda.filter fun e => !hit e } p fun q => { q with frozen := q.frozen ++ fs }

/-- Changes every live region of a partition. -/
def State.updRegions (s : State) (p : Nat) (f : Region → Region) : State :=
  { s with regions := s.regions.map fun (e : Nat × Region) => if e.2.part == p && e.2.alive then (e.1, f e.2) else e }

/-- A context's clock stands still on every tile, and its regions' step counts with it (R206, R446, R448). -/
def State.freezeClock (s : State) (p : Nat) : State :=
  let s := (s.placesOf p).foldl (fun s l => s.updCtx l fun c => { c with frozen := some (c.now s.tick) }) s
  s.updRegions p fun g => { g with pace := g.pace.map fun x => { x with held := some (x.elapsed s.tick) } }

/-- A context's clock goes on, and its events with it (R449); on a tile whose clocks are stopped it stands still (R221). -/
def State.thaw (s : State) (p : Nat) : State :=
  let ls := s.placesOf p
  let ns := ls.filterMap fun l => (s.ctx l).frozen
  let off := if ns.isEmpty then (s.part p).off else s.tick - ns.foldl max 0
  let s := (ls.filter fun l => !s.clockStopped l.tile).foldl (fun s l => s.updCtx l fun c => match c.frozen with
    | some n => { c with frozen := none, off := s.tick - n }
    | none => c) s
  let evs := (s.part p).frozen
  let s := s.updPart p fun q => { q with frozen := [], off := off }
  let s := evs.foldl (fun s e => s.schedIn e.1 e.2) s
  s.updRegions p fun g => { g with pace := g.pace.map fun x => match x.held with
    | some n => { x with t0 := s.tick - n, held := none }
    | none => x }

end Sys2Proof.Machine
end

