-- ==== Sys2Proof/Machine/XCol.lean ====
section
/-! DEFINITION. The X column: timed packets, tagged messages and the receive tables, with what arrives for them (R398,
R403 to R416, R478). -/

namespace Sys2Proof.Machine

/-! ### Buffer words and their checks (R404) -/

/-- Fields of a buffer word. -/
def bufAddr (w : Word) : Nat := (w.extractLsb' 0 21).toNat
def bufLen (w : Word) : Nat := (w.extractLsb' 32 13).toNat
/-- Whether its must-be-zero bits are zero and its length is 1 to 4,096. -/
def bufOk (w : Word) : Bool :=
  w.extractLsb' 45 19 == 0 && w.extractLsb' 21 11 == 0 && 1 ≤ bufLen w && bufLen w ≤ 4096

/-- The checks of R404 in their order: `ill` and `prot` are the word's own parts of the first and the third, `off` the
offset at the other end. -/
def bufCheck (s : State) (w : Word) (ill prot : Bool) (off : Nat) (k : Out) : Out :=
  guardT s (bufOk w && !ill) cIllegalOperand <|
    guardT s (bufAddr w % 16 == 0 && off % 16 == 0) cAlignment <|
      guardT s (!prot) cProtection <|
        guardT s (bufAddr w + bufLen w ≤ s.c.share && off + bufLen w ≤ s.c.share) cScratchBounds k

/-- Numbers, from 0, of the poisoned granules among bytes read from an address (R311). -/
def Ctx.poisonIn (c : Ctx) (a n : Nat) : List Nat :=
  (List.range ((n + 7) / 8)).filter fun g => c.spPoison.contains (a / 8 + g)
/-- Granules of a scratchpad that poisoned data of n bytes reaches. -/
def poisonAt (a n : Nat) (pz : List Nat) : List Nat := (pz.filter fun g => 8 * g < n).map (a / 8 + ·)

/-! ### tsend (R404 to R406) -/

/-- tsend: the packet reads its bytes at the start of the next tick (R404). -/
def execTsend (c3 : Bool) (a b : Src) (lat : BitVec 18) (s : State) : Out :=
  let r := (s.src a).toNat
  let w := s.src b
  let off := r % 2 ^ 21
  let tile := r / 2 ^ 24 % 4096
  guardT s (s.c.kind == .exchange) cIllegalOperand <|
    bufCheck s w (r / 2 ^ 21 % 8 != 0 || r / 2 ^ 36 != 0 || s.harvested tile)
      (!(s.region s.c.region).eff.inBox tile) off <|
      let cls := if c3 then 3 else 2
      let rt := s.route (s.c.orderOf cls) s.me tile
      let due := (s.c.tt s.tick + lat.toNat) % 2 ^ 32
      let l := s.here
      let s := (s.seen a).seen b
      match rt.bad with
      | some t => ok (s.schedIn 1 (.detourBlocked t l.part))
      | none =>
        let inj := s.tick + 1
        let (s, head, land) := s.timedRun c3 rt (bufLen w)
        ok (s.schedIn 1 (.timedPacketArrival
          { src := l.tile, dst := tile, part := l.part, addr := bufAddr w, off := off, len := bufLen w, bytes := [],
            pz := [], due := due, head := head, land := land, stage := 0, inj := inj }))

/-- EXCHANGE_LATE with its detail word (R405). -/
def State.lateTrap (s : State) (l : Loc) (src kind due land : Nat) : State :=
  s.trapEngine l 4 cExchangeLate (s.ctx l).pc
    (src % 4096 * 2 ^ 52 + kind * 2 ^ 50 + due % 65536 * 2 ^ 16 + land % 65536) 0

/-- A timed packet reads its bytes, its header arrives, and it lands, checked against the receiver's phase and tick
(R404, R405, R478). -/
def execTimedPacketArrival (p : TPkt) (s : State) : Out :=
  let l : Loc := ⟨p.dst, p.part⟩
  -- a packet for a partition that is no longer live is discarded (R478)
  if !s.partLive p.part then ok s
  else match p.stage with
  | 0 =>
    let sl : Loc := ⟨p.src, p.part⟩
    let s := s.landAt sl
    let c := s.ctx sl
    ok (s.sched p.head (.timedPacketArrival
      { p with bytes := c.sp.bytes p.addr p.len, pz := c.poisonIn p.addr p.len, stage := 1 }))
  | 1 =>
    let c := s.ctx l
    if c.live && c.kind == .exchange then ok (s.sched p.land (.timedPacketArrival { p with stage := 2 }))
    else ok (s.lateTrap l p.src 1 p.due (c.tt s.tick))
  | _ =>
    let c := s.ctx l
    let tt := c.tt s.tick
    if p.due < tt then ok (s.lateTrap l p.src 0 p.due tt)
    else ok (s.engWrite l 0 4 (addrBytes p.off p.bytes) (poisonAt p.off p.len p.pz))

/-! ### Messages on their way (R396, R408, R409) -/

/-- Whether two messages keep their order: one source strand, one destination tile, one class (R409). -/
def sameLane (a b : Msg) : Bool :=
  a.srcDev == b.srcDev && a.srcTile == b.srcTile && a.srcPart == b.srcPart && a.cls == b.cls && a.dev == b.dev &&
    a.tile == b.tile && a.part == b.part
/-- Whether a message still stands at its source. -/
def atSource (m : Msg) : Bool := m.bytes.length < m.len

/-- Whether a message on its way to a place takes it in its order after another: the tick no earlier than which it arrives
(R409). -/
def State.afterLane (s : State) (m : Msg) (mine : Msg → Bool) : Nat :=
  s.agenda.foldl (fun n e => match e.2 with
    | .messageArrival x => if sameLane x m && mine x then max n e.1 else n
    | _ => n) 0

/-- A packet of class 0 to 4 leaves for another device: it goes to the attach port of its tile, and through Zheost from there
(R89, R424). -/
def State.toPort (s : State) (order t : Nat) (m : Msg) : State :=
  let rt := s.legRoute { order := order, src := some t, dst := none, bytes := m.len }
  match rt.bad with
  | some x => s.schedIn 1 (.detourBlocked x m.srcPart)
  | none =>
    (s.sched (max (s.tick + rt.latency m.len - (m.len + 127) / 128 + s.delay) (s.afterLane m (·.leaving)))
      (.messageArrival { m with leaving := true, detour := rt.det })).tookDelay

/-- A packet leaves by port (source tile xor destination tile) mod 16, or waits, and those behind it, while every port is down;
the acknowledgement of a message comes back in class 1 (R394, R398, R424). -/
def State.leave (s : State) (m : Msg) : State :=
  match s.zheostPort (m.srcTile ^^^ m.tile) with
  | none => s.putBack (fun e => match e with
      | .messageArrival x => sameLane x m && x.leaving
      | _ => false) (.messageArrival m)
  | some port =>
    let to_ := if m.srcDev == s.dv.cfg.devno then m.dev else m.srcDev
    let s := { s with dv := { s.dv with sent := (to_, { m with port := port }) :: s.dv.sent } }
    if m.srcDev == s.dv.cfg.devno && m.cls < 4 then
      -- what the peer answers is not the device's
      let bad := ((s.outsideRead m.tile 1).2.headD 0).getLsbD 0
      State.packet (s.outsideRead m.tile 1).1 m.srcPart [{ order := m.rorder, src := none, dst := some m.srcTile }]
        (.sendAckArrival ⟨m.srcTile, m.srcPart⟩ m.tok bad m.pc)
    else s

/-- A message of another device goes from the attach port by which it has entered to its tile, in its header's order, after those
of its source and class (R409, R424). -/
def State.enter (s : State) (m : Msg) : State :=
  let rt := s.legRoute { order := m.order, src := none, dst := some m.tile, bytes := m.len }
  match rt.bad with
  | some x => s.schedIn 1 (.detourBlocked x m.part)
  | none =>
    (s.sched (max (s.tick + rt.latency m.len + s.delay) (s.afterLane m (·.entered)))
      (.messageArrival { m with entered := true, detour := rt.det })).tookDelay

/-- A message whose bytes have all been read goes on its way: to its tile, no earlier than those sent before it, or to its attach
port (R397, R409, R424). -/
def State.launchMsg (s : State) (m : Msg) : State :=
  if m.dev == s.dv.cfg.devno then
    let rt := s.route m.order m.srcTile m.tile
    match rt.bad with
    | some t => s.schedIn 1 (.detourBlocked t m.srcPart)
    | none =>
      let t := s.tick + rt.latency m.len - (m.len + 127) / 128 + s.delay
      (s.sched (max t (s.afterLane m fun x => x.sent < m.sent)) (.messageArrival { m with detour := rt.det })).tookDelay
  else s.toPort m.order m.srcTile m

/-- A message at its source reads its next 128-byte piece, after the messages before it (R408). -/
def State.readPiece (s : State) (m : Msg) : State :=
  let waits := s.agenda.any fun e => match e.2 with
    | .messageArrival x => sameLane x m && x.sent < m.sent && atSource x
    | _ => false
  if waits then s.schedIn 1 (.messageArrival m)
  else
    let l : Loc := ⟨m.srcTile, m.srcPart⟩
    let s := s.landAt l
    let c := s.ctx l
    let i := m.bytes.length
    let n := min 128 (m.len - i)
    let m := { m with
      bytes := m.bytes ++ c.sp.bytes (m.addr + i) n
      pz := m.pz ++ (c.poisonIn (m.addr + i) n).map (i / 8 + ·) }
    if atSource m then s.schedFree 1 (.messageArrival m) else s.launchMsg m

/-- The acknowledgement of a message goes back to its source (R396, R408). -/
def State.ackMsg (s : State) (m : Msg) (err : Bool) : State :=
  if m.srcDev == s.dv.cfg.devno then
    let rt := s.route m.rorder m.tile m.srcTile
    match rt.bad with
    | some t => s.schedIn 1 (.detourBlocked t m.srcPart)
    | none => s.schedFree (rt.latency 0) (.sendAckArrival ⟨m.srcTile, m.srcPart⟩ m.tok err m.pc)
  else s.toPort m.rorder m.tile { m with cls := 1, order := m.rorder, bytes := [], len := 0, err := err }

/-- A packet for a partition that is not live is discarded, and a send's acknowledgement carries an error (R478). -/
def execDeadPartitionPacket (m : Msg) (s : State) : Out := ok (s.ackMsg m true)

/-- The acknowledgement reaches the sender: its token completes on the next tick; an error halts it with PROTECTION, cause
3 (R408, R478). -/
def execSendAckArrival (l : Loc) (tok : Nat) (err : Bool) (pc : Nat) (s : State) : Out :=
  s.behindHeld l.tile 1 (.sendAckArrival l tok err pc) <|
  if err then ok (s.trapEngine l 4 cProtection pc (xlDetail 3 0 0 0) 0)
  else ok (s.tokDone l tok ((s.ctx l).now s.tick + 1))

/-! ### Stop records in memory (R452, R453) -/

/-- The eight words of columns, then of the record, in its 128 bytes. -/
def stopBytes (r : StopRec) (seq : Nat) : List Byte :=
  let w0 := r.code % 256 * 2 ^ 56 + r.kind % 16 * 2 ^ 52 + (if r.prec then 2 ^ 51 else 0) + r.bank % 2 * 2 ^ 50 +
    r.part % 64 * 2 ^ 44 + r.tile % 4096 * 2 ^ 32 + r.region % 2 ^ 32
  let col (c : Option (Nat × Nat)) : Nat := match c with
    | some x => x.2 % 2 ^ 32 * 2 ^ 32 + 2 ^ 14 + x.1 % 2 ^ 14
    | none => 0
  let ws := [w0, r.tnow, r.ttick % 2 ^ 32 * 2 ^ 32 + r.pc % 2 ^ 14, r.detail, r.word % 2 ^ 64, r.word / 2 ^ 64 % 2 ^ 32,
    r.xfer % 2 ^ 28, seq] ++ (List.range 8).map fun i => col (r.cols.getD i none)
  ws.flatMap (leBytes 8)

/-- The region whose RCB names a region's ring: itself or the ancestor that it inherits the group from (R25, R30). -/
def State.ringOwner (s : State) : Nat → Nat → Nat
  | 0, r => r
  | fuel + 1, r =>
    let g := s.region r
    if g.ovr / 2 ^ 10 % 2 = 1 || g.parent == 0 then r else s.ringOwner fuel g.parent

/-- The partition's own region, from one of its regions. -/
def State.rootOf (s : State) : Nat → Nat → Nat
  | 0, r => r
  | fuel + 1, r => if (s.region r).parent == 0 then r else s.rootOf fuel (s.region r).parent

/-- Writes one record into the ring of a domain at a physical address; none where the slot is not free (R453). -/
def State.ringPut (s : State) (fdom sz : Nat) (addr : Nat → Option Nat) (r : StopRec) : Option State :=
  let n := Tbl.get 0 s.dv.domSeq fdom + 1
  match addr (128 * ((n - 1) % (32 * 2 ^ sz))) with
  | some a =>
    if isHome a && leNat (s.devBytes (a + 0x38) 8) == 0 then
      let bs := stopBytes r n
      let body := (addrBytes a bs).filter fun b => !(a + 0x38 ≤ b.1 && b.1 < a + 0x40)
      let s := (s.devWrite body).devWrite (addrBytes (a + 0x38) (leBytes 8 n))
      some { s with dv := { s.dv with domSeq := Tbl.set 0 s.dv.domSeq fdom n, notices := fdom :: s.dv.notices } }
    else none
  | none => none

/-- Halts a context that is not halted, with a cause (R30, R480, R484). -/
def State.haltWith (s : State) (p : Nat) (cause : Nat × Nat × Nat) : State :=
  match (s.part p).st with
  | .active | .swapping | .swapped => s.raiseHalt p (s.tick, cause)
  | .halting | .halted => s

/-- Writes a record into the ring of its region's domain; where the ring is full, or its address does not translate, the
context halts, the record goes into domain 0's ring, and it stays in the save area (R30, R453). The spec does not name the
cause of such a halt: it is the record's code (DESIGN CHOICE, assumption 67). -/
def State.report (s : State) (r : StopRec) : State :=
  let g := s.region r.region
  let root := (s.region (s.rootOf 17 r.region)).eff
  let o := s.ringOwner 16 r.region
  let home (s : State) : Option State := s.ringPut 0 root.fdsz (fun off => some (root.fdring + off)) r
  let first := if g.eff.fdom == 0 then home s
    else s.ringPut g.eff.fdom g.eff.fdsz (fun off =>
      if (s.region o).parent == 0 then some (g.eff.fdring + off)
      else match (s.xlate ⟨r.tile, r.part⟩ (g.eff.fdring + off) accBuf).2 with
        | .ok a => some a
        | .error _ => none) r
  match first with
  | some s => s
  | none =>
    let s := { s with dv := { s.dv with notices := 0 :: s.dv.notices } }
    let s := (home s).getD s
    if Tbl.has s.parts r.part then
      (s.updPart r.part fun q => { q with save := if q.save.contains r then q.save else q.save ++ [r] }).haltWith r.part
        (r.tile, r.kind, r.code)
    else s

/-- A stop record leaves for its ring in class 7, after those before it, which stand there in their order (R394, R453); the
detector's comes from the base die. -/
def State.sendStop (s : State) (r : StopRec) : State :=
  let after := s.agenda.foldl (fun n e => match e.2 with
    | .messageArrival x => if x.stop.isSome then max n e.1 else n
    | _ => n) 0
  let m : Msg :=
    { srcDev := s.dv.cfg.devno, srcTile := r.tile, srcPart := r.part, cls := 7, order := 0, rorder := 0, dev := s.dv.cfg.devno,
      part := r.part, tile := r.tile, tag := 0, len := 128, addr := 0, bytes := [], pz := [], tok := 0, pc := 0, sent := s.tick
      stop := some r }
  match s.legTime (if r.kind == 7 then [] else [{ order := 0, src := some r.tile, dst := none, bytes := 128 }]) with
  | .error t => s.schedIn 1 (.detourBlocked t r.part)
  | .ok n => (s.sched (max (s.tick + n + s.delay) after) (.messageArrival m)).tookDelay

/-! ### The receive table and the overflow area (R410 to R413) -/

/-- A handle. -/
def Ctx.handle (c : Ctx) (h : Nat) : Handle := Tbl.get {} c.recvT h
/-- Changes a handle; a free one is not listed. -/
def Ctx.setHandle (c : Ctx) (h : Nat) (x : Handle) : Ctx := { c with recvT := Tbl.set {} c.recvT h x }
/-- The lowest free handle. -/
def Ctx.freeHandle (c : Ctx) : Option Nat := (List.range 64).find? fun h => (c.handle h).st == .free
/-- Whether a message meets criteria (R407, R410). -/
def meets (crit : Word) (m : Msg) : Bool :=
  (crit.getLsbD 31 || (crit.extractLsb' 32 32).toNat == m.tag) &&
    (crit.getLsbD 30 ||
      ((crit.extractLsb' 12 12).toNat == m.srcDev && (crit.extractLsb' 0 12).toNat == m.srcTile))
/-- Bytes that a message takes in the overflow area. -/
def ovfSize (m : Msg) : Nat := (m.len + 15) / 16 * 16
/-- Bytes in use there. -/
def Ctx.ovfBytes (c : Ctx) : Nat := c.ovf.foldl (fun n m => n + ovfSize m) 0
/-- The status word (R411). -/
def statusWord (f tr : Bool) (st src len : Nat) : Word :=
  BitVec.ofNat 64 ((if f then 2 ^ 63 else 0) + (if tr then 2 ^ 62 else 0) + st * 2 ^ 60 + src / 4096 % 4096 * 2 ^ 40 +
    src % 4096 * 2 ^ 28 + len % 8192)
/-- Source of a message as a handle keeps it. -/
def msgSrc (m : Msg) : Nat := m.srcDev % 4096 * 4096 + m.srcTile
/-- The status word of a handle. -/
def Handle.status (h : Handle) : Word :=
  match h.st with
  | .free => 0
  | .posted | .landing => statusWord false false 1 0 0
  | .complete => statusWord true (bufLen h.buf < h.len) 2 h.src h.len
  | .cancelled => statusWord false false 3 0 0

/-- A held message is offered again when the overflow area or the receive table changes (R413). -/
def State.changed (s : State) (l : Loc) : State :=
  if (s.core l.tile).held.isEmpty then s else s.sched s.tick (.heldMessageReoffer l.tile)

/-- A message's bytes go to a buffer: 128 a tick from a tick on (R411, R415). -/
def Ctx.fillBuf (c : Ctx) (buf : Word) (m : Msg) (t per : Nat) : Ctx :=
  let n := min m.len (bufLen buf)
  let a := bufAddr buf
  (List.range ((n + per - 1) / per)).foldl (fun (c : Ctx) i =>
    let k := min per (n - i * per)
    let bs := (m.bytes.drop (i * per)).take k
    let pz := (m.pz.filter fun g => i * per ≤ 8 * g && 8 * g < i * per + k).map (a / 8 + ·)
    c.spWrite (t + i) 4 (addrBytes (a + i * per) bs) pz) c

/-- A posted handle takes a message; it completes on the tick after the last byte has landed (R411). -/
def State.takeMsg (s : State) (l : Loc) (h : Nat) (m : Msg) (fromOvf : Bool) : State :=
  let hd := (s.ctx l).handle h
  let n := (s.ctx l).now s.tick
  let s := s.updCtx l fun c =>
    let c := c.setHandle h { hd with st := .landing, len := m.len, src := (msgSrc m), tag := m.tag }
    if fromOvf then c.fillBuf hd.buf m (n + 2) 128 else c.fillBuf hd.buf m n 4096
  let per := (min m.len (bufLen hd.buf) + 127) / 128
  s.schedIn (if fromOvf then 2 + per else 1) (.messageLand l h)

/-- Offers a message to a context: the first posted handle whose criteria it meets takes it, or the overflow area; none
where it finds no place (R410, R413). -/
def State.offer (s : State) (l : Loc) (m : Msg) : Option State :=
  let c := s.ctx l
  let hs := c.recvT.filter fun e => e.2.st == .posted && meets e.2.crit m
  let first := hs.foldl (fun (b : Option (Nat × Handle)) e => match b with
    | some x => if e.2.order < x.2.order then some e else b
    | none => some e) none
  match first with
  | some e => some ((s.takeMsg l e.1 m false).ackMsg m false)
  | none =>
    if c.ovf.length < 16 && c.ovfBytes + ovfSize m ≤ 32768 then
      some ((s.updCtx l fun c => { c with ovf := c.ovf ++ [m] }).ackMsg m false)
    else none

/-- Whether the context can take messages: it is in a bank and not halted (R409, R446). -/
def State.receives (s : State) (l : Loc) : Bool :=
  let p := s.part l.part
  s.holds l && p.st != .halted && !p.out

/-- Offers held messages one after another. A message waits behind one of its source and class, and behind any of its class
that waits for a context (R409, R413). -/
def State.offerHeld (s : State) (t : Nat) : List Msg → List Msg → State
  | [], kept => s.setCore t { s.core t with held := kept }
  | m :: r, kept =>
    let l : Loc := ⟨t, m.part⟩
    let behind := kept.any fun x => x.cls == m.cls && (sameLane x m || !s.holds ⟨t, x.part⟩)
    if !s.partLive m.part then State.offerHeld (s.ackMsg m true) t r kept
    else if behind || !s.receives l then s.offerHeld t r (kept ++ [m])
    else match s.offer l m with
      | some s => s.offerHeld t r kept
      | none => State.offerHeld (s.trapEngine l 4 cRecvOverflow 0 0 0) t r (kept ++ [m])

/-- A held message is offered again (R413). -/
def execHeldMessageReoffer (tile : Nat) (s : State) : Out := ok (s.offerHeld tile (s.core tile).held [])

/-- A class-7 packet brings a stop record; a message reads its buffer at its source; it leaves for another device, or comes from one; at its destination it is matched,
placed, held or discarded (R408 to R413, R424, R478). -/
def execMessageArrival (m : Msg) (s : State) : Out :=
  match m.stop with
  | some r => ok (s.report r)
  | none =>
  if m.leaving then ok (s.leave m)
  else if atSource m && m.srcDev == s.dv.cfg.devno then ok (s.readPiece m)
  else if m.srcDev != s.dv.cfg.devno && !m.entered then ok (s.enter m)
  else if !s.partLive m.part then execDeadPartitionPacket m s
  else
    let held := (s.core m.tile).held
    let l : Loc := ⟨m.tile, m.part⟩
    let behind := held.any fun x => x.cls == m.cls && (sameLane x m || !s.holds ⟨m.tile, x.part⟩)
    let hold (s : State) : State :=
      s.setCore m.tile { s.core m.tile with held := (s.core m.tile).held ++ [m] }
    if behind || !s.receives l then ok (hold s)
    else match s.offer l m with
      | some s => ok s
      | none => ok (hold (s.trapEngine l 4 cRecvOverflow 0 0 0))

/-- recv goes on: sD takes the status word, and its handle is freed (R412). -/
def State.recvEnd (s : State) (l : Loc) (h d : Nat) : State :=
  let s := s.updCtx l fun c =>
    { c with pend := insPend (c.now s.tick) (c.handle h).no (.s d (c.handle h).status) c.pend }.setHandle h {}
  s.changed l

/-- A matched payload has landed: the handle completes, its token completes, with .nt the tag-match event is raised; a
recv goes on a tick later (R411, R412). -/
def execMessageLand (l : Loc) (h : Nat) (s : State) : Out :=
  let c := s.ctx l
  let hd := c.handle h
  match hd.st with
  | .landing =>
    let n := c.now s.tick
    let s := s.updCtx l fun c => c.setHandle h { hd with st := .complete }
    let s := match hd.tok with
      | some k => s.tokDone l k n
      | none => s
    let s := if hd.nt && c.live then s.uiRaise l 2 h else s
    let s := if hd.hidden then s.schedIn 1 (.messageLand l h) else s
    ok (s.changed l)
  | .complete =>
    match c.block with
    | .recv h' d _ _ =>
      if hd.hidden && h' == h then
        ok (((s.recvEnd l h (c.sdst d.toNat)).updCtx l fun c => { c with block := .none }).uiPoll l)
      else ok s
    | _ => ok s
  | .free | .posted | .cancelled => ok s

/-! ### The words (R408, R410, R412, R414 to R416) -/

/-- send (R408). -/
def execSend (cls : BitVec 2) (k : BitVec 3) (a b : Src) (s : State) : Out :=
  let d := s.src a
  let w := s.src b
  let dev := (d.extractLsb' 12 12).toNat
  let tile := (d.extractLsb' 0 12).toNat
  let part := (d.extractLsb' 24 6).toNat
  let own := dev == s.dv.cfg.devno
  let p := s.here.part
  elastic s <| freeTok s k.toNat <|
    bufCheck s w (d.getLsbD 31 || d.getLsbD 30 || s.dv.cfg.sysdev ≤ dev || (own && s.harvested tile))
      ((own && part != p) || !(s.region (s.part p).root).eff.inBox tile) 0 <|
      let m : Msg :=
        { srcDev := s.dv.cfg.devno, srcTile := s.me, srcPart := p, cls := cls.toNat, order := s.c.orderOf cls.toNat,
          rorder := s.c.orderOf 1, dev := dev, part := part, tile := tile, tag := (d.extractLsb' 32 32).toNat,
          len := bufLen w, addr := bufAddr w, bytes := [], pz := [], tok := k.toNat, pc := s.pcNow, sent := s.tick }
      ok ((((s.seen a).seen b).updC fun c => c.bind k.toNat).schedIn 1 (.messageArrival m))

/-- Posts a handle: the overflow area is searched first, oldest message first (R410). -/
def State.post (s : State) (h : Nat) (hd : Handle) : State :=
  let l := s.here
  let s := s.updC fun c => { c.setHandle h { hd with st := .posted, order := c.postSeq } with postSeq := c.postSeq + 1 }
  let rec pick : List Msg → Option (Msg × List Msg)
    | [] => none
    | m :: r => if meets hd.crit m then some (m, r) else (pick r).map fun x => (x.1, m :: x.2)
  let s := match pick s.c.ovf with
    | some (m, r) => (s.updC fun c => { c with ovf := r }).takeMsg l h m true
    | none => s
  s.changed l

/-- recv (R412): a handle that a user-level event left posted is waited on again (R463). -/
def execRecv (d : BitVec 6) (a b : Src) (s : State) : Out :=
  let crit := s.src a
  let w := s.src b
  let dev := crit.getLsbD 30 || (crit.extractLsb' 12 12).toNat != s.dv.cfg.devno
  let pc := s.pcNow
  elastic s <| noHandler s <|
    match s.c.recvT.find? fun e => e.2.hidden with
    | some e =>
      let s := s.updC fun c => c.setHandle e.1 { e.2 with no := c.issueNo }
      if e.2.st == .complete then ok (s.recvEnd s.here e.1 (s.c.sdst d.toNat))
      else ok (s.blockIn (.recv e.1 d pc dev))
    | none =>
      bufCheck s w false false 0 <|
        match s.c.freeHandle with
        | none => trapO s cIllegalOperand
        | some h =>
          let s := ((s.seen a).seen b).post h { crit := crit, buf := w, hidden := true, no := s.c.issueNo }
          ok (s.blockIn (.recv h d pc dev))

/-- postrv (R410). -/
def execPostrv (nt : Bool) (tok : Option (BitVec 3)) (d : BitVec 6) (a b : Src) (s : State) : Out :=
  let w := s.src b
  let go : Out :=
    bufCheck s w false false 0 <|
      match s.c.freeHandle with
      | none => trapO s cIllegalOperand
      | some h =>
        let hd : Handle := { crit := s.src a, buf := w, nt := nt, tok := tok.map (·.toNat) }
        let s := match tok with
          | some k => s.updC fun c => c.bind k.toNat
          | none => s
        ok ((((s.seen a).seen b).post h hd).putS 1 d (BitVec.ofNat 64 h))
  elastic s <| match tok with
    | some k => freeTok s k.toNat go
    | none => go

/-- rvcan: a posted handle is cancelled, and its token completes on the next tick (R412). -/
def execRvcan (a : Src) (s : State) : Out :=
  let h := (s.src a).toNat
  elastic s <| guardT s (h < 64) cIllegalOperand <|
    let hd := s.c.handle h
    let (l, n) := (s.here, s.T)
    let s := s.seen a
    if hd.st == .posted then
      let s := s.updC fun c => c.setHandle h { hd with st := .cancelled }
      let s := match hd.tok with
        | some k => s.tokDone l k (n + 1)
        | none => s
      ok (s.changed l)
    else ok s

/-- probe (R414). -/
def execProbe (tag : Bool) (d : BitVec 6) (a : Src) (s : State) : Out :=
  elastic s <|
    let v : Word := match s.c.ovf.find? (meets (s.src a)) with
      | some m => if tag then BitVec.ofNat 64 m.tag else statusWord true false 0 (msgSrc m) m.len
      | none => if tag then 0xFFFFFFFFFFFFFFFF else 0
    ok ((s.seen a).putS 2 d v)

/-- ovfpop (R415). -/
def execOvfpop (d : BitVec 6) (b : Src) (s : State) : Out :=
  let w := s.src b
  elastic s <| bufCheck s w false false 0 <|
    let (l, n) := (s.here, s.T)
    match s.c.ovf with
    | [] => ok ((s.seen b).putS 2 d 0)
    | m :: r =>
      let s := (s.seen b).updC fun c => { c with ovf := r }.fillBuf w m (n + 2) 128
      ok ((s.putS 2 d (statusWord true (bufLen w < m.len) 2 (msgSrc m) m.len)).changed l)

/-- clsord: the fields of class and order are one (R398, R403). -/
def execClsord (c : BitVec 3) (ord : Order) (s : State) : Out :=
  let o := match ord with
    | .xyz => 0 | .xzy => 1 | .yxz => 2 | .yzx => 3 | .zxy => 4 | .zyx => 5
  ok (s.updC fun x => { x with orders := Tbl.set 0 x.orders c.toNat o })

/-- xstat (R412, R416). The tag of a cancelled handle, which no message has met, is not stated: a free value (assumption
34). -/
def execXstat (rel : Bool) (d : BitVec 6) (sel : XSel) (a : Src) (s : State) : Out :=
  let h := (s.src a).toNat
  let ofHandle (f : Handle → Word) (s : State) : Out :=
    guardT s (h < 64) cIllegalOperand <|
      let hd := s.c.handle h
      let l := s.here
      let s := (s.seen a).putS 1 d (f hd)
      if rel && (hd.st == .complete || hd.st == .cancelled) then ok ((s.updC fun c => c.setHandle h {}).changed l)
      else ok s
  match sel with
  | .status => ofHandle Handle.status s
  | .tag =>
    ofHandle (fun hd => match hd.st with
      | .complete => BitVec.ofNat 64 hd.tag
      | .cancelled => (Config.cancelTag s.fresh).setWidth 64
      | .free | .posted | .landing => 0)
      (if (s.c.handle h).st == .cancelled then { s with fresh := s.fresh + 1 } else s)
  | .overflow => ok (s.putS 1 d (BitVec.ofNat 64 (s.c.ovf.length + 65536 * s.c.ovfBytes)))
  | .handles => ok (s.putS 1 d (BitVec.ofNat 64 (s.c.recvT.filter fun e => e.2.st != .free).length))
  | .orders =>
    let o (c : Nat) : Nat := s.c.orderOf c
    ok (s.putS 1 d (BitVec.ofNat 64 (o 0 + 8 * o 1 + 64 * o 2 + 512 * o 3 + 4096 * o 5 + 32768 * o 5)))

end Sys2Proof.Machine
end

