-- ==== Sys2Proof/Machine/Halt.lean ====
section
/-! DEFINITION. A halt's delivery, stop records and fault-domain rings, and a context that goes on (R30, R446 to R453). -/

namespace Sys2Proof.Machine

/-! ### Traps that no tile's own part raises (R452) -/

/-- Records a trap of a partition that is not one strand's: by its detector, a sensor or a router. -/
def State.trapPart (s : State) (p : Nat) (r : StopRec) : State :=
  match (s.part p).st, (s.placesOf p).head? with
  | .halted, _ | .swapped, _ => s.updPart p fun q => { q with held := q.held ++ [r] }
  | _, some l => (s.updCtx l fun c => { c with stops := c.stops ++ [r] }).raiseHalt p (s.tick, r.tile, r.kind, r.code)
  | _, none => (s.updPart p fun q => { q with loose := q.loose ++ [r] }).raiseHalt p (s.tick, r.tile, r.kind, r.code)

/-- A record of such a trap, which names the partition's own region. -/
def State.partStop (s : State) (p kind code tile : Nat) : StopRec :=
  { code := code, kind := kind, prec := false, bank := 0, part := p, tile := tile, region := (s.part p).root, tnow := s.tmNow,
    ttick := 0, pc := 0, detail := 0, word := 0, xfer := 0, seq := 0, cols := [], tick := s.tick }

/-- Order of the records in a ring: by tick, tile and kind (R447, R453). -/
def stopBefore (a b : StopRec) : Bool :=
  a.tick < b.tick || (a.tick == b.tick && (a.tile < b.tile || (a.tile == b.tile && a.kind ≤ b.kind)))

/-- The records of a tile's parts that raised nothing: core, copy queues, array, streams, network interface (R452). -/
def State.quietStops (s : State) (l : Loc) : List StopRec :=
  let had := (s.ctx l).stops.map (·.kind)
  (had.foldl List.erase [0, 1, 1, 1, 1, 2, 3, 4]).map fun k => s.mkStop l k 0 false 0 0 0 0

/-! ### The halt (R33, R446 to R448, R452) -/

/-- Word 0x80 of every live region of a partition that meets a condition, with a new state. -/
def State.restateIf (s : State) (p : Nat) (f : Region → Bool) (to_ : RSt) (cause : Nat) : State :=
  s.regions.foldl (fun s g => if g.2.part == p && f g.2 then s.setRSt g.1 to_ cause else s) s
/-- Word 0x80 of every live region of a partition in a state, with a new state. -/
def State.restate (s : State) (p : Nat) (from_ to_ : RSt) (cause : Nat) : State :=
  s.restateIf p (·.st == from_) to_ cause

/-- Tick H: every part of the context freezes, its running regions become HALTED with the first trap's code, and the stop
records are written: into the save area, and, by way of the torus, into their rings (R33, R394, R446 to R448, R452, R453). -/
def execHaltDelivery (part : Nat) (s : State) : Out :=
  let pt := s.part part
  match pt.st with
  | .active | .halted => ok s
  | .halting | .swapping | .swapped =>
    if s.tick < pt.haltAt then ok s
    else
      let code := (pt.cause.map fun c => c.2.2.2).getD 0
      let s := if pt.st == .halting then s.freezeClock part else s
      let s := s.updPart part fun q => { q with st := .halted, out := pt.st == .swapped }
      let s := { s.freezeEvents part with recs := s.recs.filter fun d => !(d.part == part && d.kind == RKind.resume) }
      let s := s.restate part .running .halted code
      -- a region whose loading met a link error is HALTED too (R64)
      let s := s.restateIf part (fun g => g.st == .queued && g.chunkErr) .halted code
      let ls := s.placesOf part
      -- a core's record shows its columns as they froze
      let cols (l : Loc) (r : StopRec) : StopRec :=
        if r.kind == 0 then
          let c := s.ctx l
          let trap := if r.prec && r.code != 0x0D then some (r.pc, c.ph0 + r.ttick) else none
          { r with cols := c.columns (s.core l.tile) s.tick trap }
        else r
      let raised := (s.part part).loose ++ ls.flatMap fun l => (s.ctx l).stops.map (cols l)
      let quiet := ls.flatMap s.quietStops
      let s := s.updPart part fun q => { q with save := q.save ++ raised ++ quiet, loose := [] }
      ok ((sortBy stopBefore (raised.filter fun r => r.code != 0)).foldl State.sendStop s).kick

/-! ### A context that goes on (R449, R450) -/

/-- What a tile's part of a context takes up again: a strand that trapped precisely issues by R138 up to its next boundary,
a boundary that disagreed is examined again, and a word that met poison, or an mmg that its gang's barrier trapped, issues again,
by R138 like any word that trapped (R365, R451). -/
def Ctx.takeUp (c : Ctx) (n : Nat) : Ctx :=
  let c := if c.stopped then { c with stopped := false, loose := c.kind != .elastic } else c
  let c := if c.again.isEmpty then c else { c with
    q := c.again.foldl (fun q e => insEnt (if e.fixed.isSome then e else { e with fixed := some n }) q) c.q
    again := [], loose := c.kind != .elastic }
  let c := { c with
    stops := [], arr := c.arr.map fun (a : Arr) => { a with bad := false }
    bars := c.bars.map fun (a : Arr) => { a with bad := false } }
  match c.arr64.again with
  | some e =>
    { c with
      q := insEnt e c.q, block := if c.block == .mmg then .none else c.block, loose := c.kind != .elastic
      arr64 := { c.arr64 with again := none } }
  | none => c

/-- Every frozen part of a context restarts on this tick, and what was held while it was frozen is raised (R447, R449). -/
def State.goOn (s : State) (p : Nat) : State :=
  let held := (s.part p).held
  let s := (s.thaw p).updPart p fun q =>
    { q with st := .active, out := false, cause := none, haltAt := 0, held := [], save := [], incoming := none }
  let s := s.restateIf p (fun g => g.st == .halted && g.chunkErr) .queued 0
  let s := (s.restate p .halted .running 0).updRegions p fun g => { g with chunkErr := false }
  let ls := s.placesOf p
  let s := ls.foldl (fun s l =>
    let s := (s.updCtx l fun c => c.takeUp (c.now s.tick)).copyResume l
    let s := if (s.core l.tile).held.isEmpty then s else s.sched s.tick (.heldMessageReoffer l.tile)
    ((s.progress l).pollWaits l).uiPoll l) s
  let s := held.foldl (fun s r =>
    let r := { r with tick := s.tick, tnow := s.tmNow }
    if s.holds ⟨r.tile, p⟩ then s.raiseTrap ⟨r.tile, p⟩ r else s.trapPart p r) s
  let s := s.regions.foldl (fun s g =>
    if g.2.part == p && g.2.st == .running then (s.examine false g.1).examine true g.1 else s) s
  s.kick

end Sys2Proof.Machine
end

