-- ==== Sys2Proof/Machine/Crypto.lean ====
section
/-! DEFINITION. The cryptography that R55, R79 to R82 name: SHA-384, HMAC-SHA-384, and ECDSA over brainpoolP384r1, from
their public standards (FIPS 180-4, FIPS 198-1, FIPS 186-4 and RFC 5639; PRESUMED, assumption 9). -/

namespace Sys2Proof.Machine

/-! ### SHA-384 -/

/-- Constants 0 to 19: the first 64 bits of the fractional parts of the cube roots of the first eighty primes. -/
def shaK0 : List Word :=
  [0x428A2F98D728AE22, 0x7137449123EF65CD, 0xB5C0FBCFEC4D3B2F, 0xE9B5DBA58189DBBC, 0x3956C25BF348B538,
   0x59F111F1B605D019, 0x923F82A4AF194F9B, 0xAB1C5ED5DA6D8118, 0xD807AA98A3030242, 0x12835B0145706FBE,
   0x243185BE4EE4B28C, 0x550C7DC3D5FFB4E2, 0x72BE5D74F27B896F, 0x80DEB1FE3B1696B1, 0x9BDC06A725C71235,
   0xC19BF174CF692694, 0xE49B69C19EF14AD2, 0xEFBE4786384F25E3, 0x0FC19DC68B8CD5B5, 0x240CA1CC77AC9C65]
/-- Constants 20 to 39. -/
def shaK1 : List Word :=
  [0x2DE92C6F592B0275, 0x4A7484AA6EA6E483, 0x5CB0A9DCBD41FBD4, 0x76F988DA831153B5, 0x983E5152EE66DFAB,
   0xA831C66D2DB43210, 0xB00327C898FB213F, 0xBF597FC7BEEF0EE4, 0xC6E00BF33DA88FC2, 0xD5A79147930AA725,
   0x06CA6351E003826F, 0x142929670A0E6E70, 0x27B70A8546D22FFC, 0x2E1B21385C26C926, 0x4D2C6DFC5AC42AED,
   0x53380D139D95B3DF, 0x650A73548BAF63DE, 0x766A0ABB3C77B2A8, 0x81C2C92E47EDAEE6, 0x92722C851482353B]
/-- Constants 40 to 59. -/
def shaK2 : List Word :=
  [0xA2BFE8A14CF10364, 0xA81A664BBC423001, 0xC24B8B70D0F89791, 0xC76C51A30654BE30, 0xD192E819D6EF5218,
   0xD69906245565A910, 0xF40E35855771202A, 0x106AA07032BBD1B8, 0x19A4C116B8D2D0C8, 0x1E376C085141AB53,
   0x2748774CDF8EEB99, 0x34B0BCB5E19B48A8, 0x391C0CB3C5C95A63, 0x4ED8AA4AE3418ACB, 0x5B9CCA4F7763E373,
   0x682E6FF3D6B2B8A3, 0x748F82EE5DEFB2FC, 0x78A5636F43172F60, 0x84C87814A1F0AB72, 0x8CC702081A6439EC]
/-- Constants 60 to 79. -/
def shaK3 : List Word :=
  [0x90BEFFFA23631E28, 0xA4506CEBDE82BDE9, 0xBEF9A3F7B2C67915, 0xC67178F2E372532B, 0xCA273ECEEA26619C,
   0xD186B8C721C0C207, 0xEADA7DD6CDE0EB1E, 0xF57D4F7FEE6ED178, 0x06F067AA72176FBA, 0x0A637DC5A2C898A6,
   0x113F9804BEF90DAE, 0x1B710B35131C471B, 0x28DB77F523047D84, 0x32CAAB7B40C72493, 0x3C9EBE0A15C9BEBC,
   0x431D67C49C100D4C, 0x4CC5D4BECB3E42B6, 0x597F299CFC657E2A, 0x5FCB6FAB3AD6FAEC, 0x6C44198C4A475817]

/-- The first 64 bits of the fractional parts of the square roots of the ninth to the sixteenth prime. -/
def shaInit : List Word :=
  [0xCBBB9D5DC1059ED8, 0x629A292A367CD507, 0x9159015A3070DD17, 0x152FECD8F70E5939,
   0x67332667FFC00B31, 0x8EB44A8768581511, 0xDB0C2E0D64F98FA7, 0x47B5481DBEFA4FA4]

/-- One round, from the eight working words and the sixteen words of the schedule that come next. -/
def shaRound (k : Word) : List Word × List Word → List Word × List Word
  | ([a, b, c, d, e, f, g, h], w) =>
    let x (i : Nat) : Word := w.getD i 0
    let t1 := h + (e.rotateRight 14 ^^^ e.rotateRight 18 ^^^ e.rotateRight 41) + ((e &&& f) ^^^ (~~~e &&& g)) + k + x 0
    let t2 := (a.rotateRight 28 ^^^ a.rotateRight 34 ^^^ a.rotateRight 39) + ((a &&& b) ^^^ (a &&& c) ^^^ (b &&& c))
    let s0 := (x 1).rotateRight 1 ^^^ (x 1).rotateRight 8 ^^^ (x 1 >>> 7)
    let s1 := (x 14).rotateRight 19 ^^^ (x 14).rotateRight 61 ^^^ (x 14 >>> 6)
    ([t1 + t2, a, b, c, d + t1, e, f, g], w.drop 1 ++ [x 0 + s0 + x 9 + s1])
  | s => s

/-- A number from bytes, the most significant first. -/
def beNat (bs : List Byte) : Nat := bs.foldl (fun n b => n * 256 + b.toNat) 0

/-- The chaining value after a block of 128 bytes. -/
def shaBlock (h : List Word) (block : List Byte) : List Word :=
  let w := (List.range 16).map fun i => BitVec.ofNat 64 (beNat ((block.drop (8 * i)).take 8))
  let r := (shaK0 ++ shaK1 ++ shaK2 ++ shaK3).foldl (fun s k => shaRound k s) (h, w)
  (h.zip r.1).map fun x => x.1 + x.2

/-- The chaining value after so many blocks. -/
def shaBlocks : Nat → List Byte → List Word → List Word
  | 0, _, h => h
  | n + 1, bs, h => shaBlocks n (bs.drop 128) (shaBlock h (bs.take 128))

/-- The padded message: a 1 bit, zeros, and the length in bits in the last sixteen bytes. -/
def shaPad (bs : List Byte) : List Byte :=
  bs ++ 0x80 :: List.replicate ((239 - bs.length % 128) % 128) 0 ++
    (List.range 16).map fun i => BitVec.ofNat 8 (8 * bs.length / 2 ^ (8 * (15 - i)))

/-- SHA-384. -/
def sha384 (bs : List Byte) : BitVec 384 :=
  let h := shaBlocks ((bs.length + 17 + 127) / 128) (shaPad bs) shaInit
  BitVec.ofNat 384 ((h.take 6).foldl (fun n w => n * 2 ^ 64 + w.toNat) 0)

/-- A number in so many bytes, the most significant first. -/
def beBytes (n v : Nat) : List Byte := (List.range n).map fun i => BitVec.ofNat 8 (v / 2 ^ (8 * (n - 1 - i)))
/-- A hash in its 48 bytes. -/
def hashBytes (h : BitVec 384) : List Byte := beBytes 48 h.toNat

/-- HMAC-SHA-384 (R79, R80). -/
def hmac384 (key msg : List Byte) : BitVec 384 :=
  let k := if 128 < key.length then hashBytes (sha384 key) else key
  let k := k ++ List.replicate (128 - k.length) 0
  sha384 (k.map (· ^^^ 0x5C) ++ hashBytes (sha384 (k.map (· ^^^ 0x36) ++ msg)))

/-! ### The curve brainpoolP384r1 -/

/-- The field's prime. -/
def curveP : Nat := 0x8CB91E82A3386D280F5D6F7E50E641DF152F7109ED5456B412B1DA197FB71123ACD3A729901D1A71874700133107EC53
/-- The first coefficient of y^2 = x^3 + a x + b. -/
def curveA : Nat := 0x7BC382C63D8C150C3C72080ACE05AFA0C2BEA28E4FB22787139165EFBA91F90F8AA5814A503AD4EB04A8C7DD22CE2826
/-- The second coefficient. -/
def curveB : Nat := 0x04A8C7DD22CE28268B39B55416F0447C2FB77DE107DCD2A62E880EA53EEB62D57CB4390295DBC9943AB78696FA504C11
/-- The base point's x. -/
def curveGx : Nat := 0x1D1C64F068CF45FFA2A63A81B7C13F6B8847A3E77EF14FE3DB7FCAFE0CBD10E8E826E03436D646AAEF87B2E247D4AF1E
/-- Its y. -/
def curveGy : Nat := 0x8ABE1D7520F9C2A45CB1EB8E95CFD55262B70B29FEEC5864E19C054FF99129280E4646217791811142820341263C5315
/-- The base point's order. -/
def curveN : Nat := 0x8CB91E82A3386D280F5D6F7E50E641DF152F7109ED5456B31F166E6CAC0425A7CF3AB6AF6B7FC3103B883202E9046565

/-- A point as X / Z^2 and Y / Z^3 in the field; Z = 0 is the point at infinity. -/
structure CurvePt where
  x : Nat
  y : Nat
  z : Nat
deriving DecidableEq, Repr

/-- A difference in the field. -/
def fieldSub (a b : Nat) : Nat := (a + (curveP - b % curveP)) % curveP

/-- Twice a point. -/
def curveDouble (q : CurvePt) : CurvePt :=
  let yy := q.y * q.y % curveP
  let s := 4 * q.x * yy % curveP
  let zz := q.z * q.z % curveP
  let m := (3 * q.x * q.x + curveA * (zz * zz % curveP)) % curveP
  let x := fieldSub (m * m) (2 * s)
  ⟨x, fieldSub (m * fieldSub s x) (8 * yy * yy), 2 * q.y * q.z % curveP⟩

/-- The sum of two points. -/
def curveAdd (a b : CurvePt) : CurvePt :=
  if a.z = 0 then b
  else if b.z = 0 then a
  else
    let za := a.z * a.z % curveP
    let zb := b.z * b.z % curveP
    let u := a.x * zb % curveP
    let v := a.y * zb * b.z % curveP
    let h := fieldSub (b.x * za) u
    let r := fieldSub (b.y * za * a.z) v
    if h = 0 then if r = 0 then curveDouble a else ⟨1, 1, 0⟩
    else
      let hh := h * h % curveP
      let hhh := hh * h % curveP
      let uh := u * hh % curveP
      let x := fieldSub (r * r) (hhh + 2 * uh)
      ⟨x, fieldSub (r * fieldSub uh x) (v * hhh), h * a.z * b.z % curveP⟩

/-- k G + l Q, from the most significant of n bits down. -/
def curveMul (k l : Nat) (q : CurvePt) : Nat → CurvePt
  | 0 => ⟨1, 1, 0⟩
  | n + 1 =>
    -- the bits above are taken first: k / 2 and l / 2 in the recursion
    let r := curveDouble (curveMul (k / 2) (l / 2) q n)
    let r := if k % 2 = 1 then curveAdd r ⟨curveGx, curveGy, 1⟩ else r
    if l % 2 = 1 then curveAdd r q else r

/-- A power modulo m of an exponent of n bits. -/
def powMod (a e m : Nat) : Nat → Nat
  | 0 => 1
  | n + 1 =>
    let r := powMod a (e / 2) m n
    let r := r * r % m
    if e % 2 = 1 then r * a % m else r

/-- Whether a signature, r then s of 48 bytes each, verifies for a SHA-384 hash under a public point, x then y of 48 bytes each,
all big-endian (R55, R80, R82): ECDSA over brainpoolP384r1. -/
def hashSignedOk (point : List Byte) (hash : BitVec 384) (sig : List Byte) : Bool :=
  let qx := beNat (point.take 48)
  let qy := beNat (point.drop 48)
  let r := beNat (sig.take 48)
  let s := beNat (sig.drop 48)
  let w := powMod s (curveN - 2) curveN 384
  let t := curveMul (hash.toNat * w % curveN) (r * w % curveN) ⟨qx, qy, 1⟩ 384
  let zz := t.z * t.z % curveP
  point.length == 96 && sig.length == 96 && 0 < r && r < curveN && 0 < s && s < curveN && qx < curveP && qy < curveP &&
    qy * qy % curveP == (qx * qx * qx + curveA * qx + curveB) % curveP && t.z != 0 &&
    -- the sum's x modulo the order is r
    (t.x == r * zz % curveP || (r + curveN < curveP && t.x == (r + curveN) * zz % curveP))

/-- The same for bytes (R55, R82). -/
def signatureOk (point msg sig : List Byte) : Bool := hashSignedOk point (sha384 msg) sig

/-- The coordinates of a point. -/
def CurvePt.affine (q : CurvePt) : Nat × Nat :=
  let i := powMod q.z (curveP - 2) curveP 384
  (q.x * (i * i % curveP) % curveP, q.y * (i * i % curveP * i % curveP) % curveP)

/-- The public point of a private key, x then y. -/
def publicPoint (d : Nat) : List Byte :=
  let q := (curveMul (d % curveN) 0 ⟨1, 1, 0⟩ 384).affine
  beBytes 48 q.1 ++ beBytes 48 q.2

/-- A signature under a private key, r then s: ECDSA over brainpoolP384r1 with SHA-384 (R81). -/
def signWith (d : Nat) (msg : List Byte) : List Byte :=
  let k := Config.signNonce d msg % curveN
  let r := (curveMul k 0 ⟨1, 1, 0⟩ 384).affine.1 % curveN
  let s := powMod k (curveN - 2) curveN 384 * ((sha384 msg).toNat + r * d) % curveN
  beBytes 48 r ++ beBytes 48 s

end Sys2Proof.Machine
end

