-- ==== Sys2Proof/Machine/ImageFile.lean ====
section
/-! DEFINITION. The .sri file: its sections, the checks that refuse it, and the verified image cache (R52 to R62, R65,
R83). -/

namespace Sys2Proof.Machine

/-! ### Reading fields -/

/-- n little-endian bytes at an offset. -/
def fileNat (bs : List Byte) (off n : Nat) : Nat := leNat ((bs.drop off).take n)
/-- Bits hi to lo of a number. -/
def bf (v hi lo : Nat) : Nat := v / 2 ^ lo % 2 ^ (hi + 1 - lo)

/-- A section table entry (R53). -/
structure Sect where
  ty : Nat
  role : Nat
  off : Nat
  len : Nat
  kind : Nat
  entry : Nat
deriving DecidableEq, Repr

/-- An entry, and whether its reserved fields are zero. -/
def sectAt (bs : List Byte) (o : Nat) : Sect × Bool :=
  let a := fileNat bs o 8
  let d := fileNat bs (o + 24) 8
  ({ ty := bf a 15 0, role := bf a 23 16, off := fileNat bs (o + 8) 8, len := fileNat bs (o + 16) 8,
     kind := bf d 17 16, entry := bf d 13 0 }, a / 2 ^ 24 == 0 && d / 2 ^ 18 == 0 && bf d 15 14 == 0)

/-- Whether a section type belongs to the whole file. -/
def fileWide (ty : Nat) : Bool := ty == 8 || ty == 9 || ty == 15
/-- Whether a section type is known (R54). -/
def sectKnown (ty : Nat) : Bool := (1 ≤ ty && ty ≤ 9) || ty == 15

/-! ### The parts of a role (R54, R57 to R60) -/

/-- Chunks of a DATA section: addresses and bytes; none where it is malformed. R54 does not say what "padded to 16" counts:
here a chunk, its 8-byte header and its bytes together, is padded to a multiple of 16; and a section whose last chunk is cut
short is refused, which no rule states (DESIGN CHOICE, assumption 65). -/
def dataChunks : Nat → List Byte → Option (List (Nat × List Byte))
  | 0, _ => some []
  | fuel + 1, bs =>
    if bs.isEmpty then some []
    else
      let h := fileNat bs 0 8
      let n := h / 2 ^ 32
      let size := (8 + n + 15) / 16 * 16
      if bs.length < size then none
      else (dataChunks fuel (bs.drop size)).map fun r => (h % 2 ^ 32, (bs.drop 8).take n) :: r

/-- Ranges of a BSS section. -/
def bssRanges (bs : List Byte) : List (Nat × Nat) :=
  (List.range (bs.length / 8)).map fun i => (fileNat bs (8 * i) 4, fileNat bs (8 * i + 4) 4)

/-- Phase records (R59): the margin, the records, and whether the section is well formed. R59 names the kinds 0 to 2 and no fate
for 3: the file is refused with IMAGE (DESIGN CHOICE, assumption 83). -/
def timetable (bs : List Byte) : Nat × List PhRec × Bool :=
  let h := fileNat bs 0 8
  let n := bf h 47 32
  let rec' (i : Nat) : PhRec × Bool :=
    let a := fileNat bs (8 + 16 * i) 8
    let b := fileNat bs (16 + 16 * i) 8
    ({ ticks := a / 2 ^ 32, kind := bf a 17 16, first := bf a 13 0, last := bf b 13 0 },
      bf a 31 18 == 0 && bf a 15 14 == 0 && b / 2 ^ 14 == 0 && bf a 17 16 ≤ 2)
  let rs := (List.range n).map rec'
  (bf h 15 0, rs.map (·.1), 8 + 16 * n ≤ bs.length && bf h 31 16 == 0 && h / 2 ^ 48 == 0 && rs.all (·.2))

/-- A BOOTTREE section (R60): extents and one byte per tile; none where it is malformed. -/
def bootTree (bs : List Byte) : Option (Nat × Nat × Nat × List Nat) :=
  let h := fileNat bs 0 8
  let (ex, ey, ez) := (bf h 4 0, bf h 9 5, bf h 14 10)
  let n := ex * ey * ez
  let ts := ((bs.drop 8).take n).map BitVec.toNat
  if h / 2 ^ 15 == 0 && ts.length == n && ts.all (· < 128) then some (ex, ey, ez, ts) else none

/-- Placement entries (R57), and whether they are well formed. R57 gives align the values 0 to 4 and 5 to 7 no fate: the file is
refused with IMAGE (DESIGN CHOICE, assumption 83). -/
def placements (bs : List Byte) : List Place × Bool :=
  let h := fileNat bs 0 8
  let n := bf h 15 0
  let es := (List.range n).map fun i =>
    let a := fileNat bs (8 + 16 * i) 8
    let b := fileNat bs (16 + 16 * i) 8
    (({ role := bf a 7 0, mode := bf a 9 8, align := bf a 12 10, box := b } : Place),
      a / 2 ^ 13 == 0 && bf a 9 8 != 3 && bf a 12 10 ≤ 4 && bf b 63 47 == 0 && bf b 31 12 == 0)
  (es.map (·.1), h / 2 ^ 16 == 0 && 8 + 16 * n ≤ bs.length && es.all (·.2))

/-- KNOTS: kn.lo, kn.inv, kn.g and kn.mode, where the last two are values that knot accepts (R54, R56, R384). -/
def knotEntry (bs : List Byte) : Option (Nat × Nat × Nat × Nat) :=
  let (lo, inv, g, m) := (fileNat bs 0 4, fileNat bs 4 4, fileNat bs 8 1, fileNat bs 9 1)
  if 1 ≤ g && g ≤ 29 && m ≤ 2 && fileNat bs 10 6 == 0 then some (lo, inv, g, m) else none

/-- The words of a CODE section. -/
def codeWords (bs : List Byte) : List IWord :=
  (List.range (bs.length / 12)).map fun i => BitVec.ofNat 96 (fileNat bs (12 * i) 12)

/-- One role; none where one of its sections is malformed. R54 and R56 name no fate for a section whose length does not fit its
content (CODE in words of 12 bytes, BSS in ranges of 8, KNOTS of 16, STREAMS of 512, a timetable, a boot tree or a placement
table shorter than its count): the file is refused with IMAGE (DESIGN CHOICE, assumption 83). -/
def roleOf (bs : List Byte) (ss : List Sect) (n : Nat) : Option Role :=
  let mine := ss.filter fun x => x.role == n && !fileWide x.ty
  let body (x : Sect) : List Byte := (bs.drop x.off).take x.len
  let get (ty : Nat) : Option (List Byte) := (mine.find? fun x => x.ty == ty).map body
  let cnt (ty : Nat) : Nat := (mine.filter fun x => x.ty == ty).length
  match mine.find? fun x => x.ty == 1, get 6 with
  | some c, some tt =>
    let t := timetable tt
    let data := match get 2 with
      | some d => dataChunks (d.length + 1) d
      | none => some []
    let streams := match get 5 with
      | some d => (List.range 8).map fun i => (d.drop (64 * i)).take 64
      | none => []
    let sane : Bool :=
      cnt 1 == 1 && cnt 6 == 1 && [2, 3, 4, 5, 7].all (fun ty => cnt ty ≤ 1) && c.len % 12 == 0 && c.len ≤ 12 * 16384 &&
        c.entry * 12 < c.len && c.kind ≤ 2 && t.2.2 && (get 3).all (fun d => d.length % 8 == 0) &&
        (get 5).all (fun d => d.length == 512) && (get 4).all (fun d => d.length == 16 && (knotEntry d).isSome) &&
        (get 7).all (fun d => (bootTree d).isSome)
    match data with
    | some ds =>
      if sane then
        some { role := n, code := codeWords (body c), entry := c.entry, kind := c.kind, data := ds
               bss := ((get 3).map bssRanges).getD [], knots := (get 4).bind knotEntry, streams := streams
               margin := t.1, recs := t.2.1, boot := (get 7).bind bootTree }
      else none
    | none => none
  | _, _ => none

/-! ### The whole file (R52 to R56) -/

/-- Whether two sections overlap. -/
def sectOverlap (a b : Sect) : Bool := a.off < b.off + b.len && b.off < a.off + a.len
/-- Whether the sections of a list are pairwise disjoint. -/
def sectsApart : List Sect → Bool
  | [] => true
  | x :: r => r.all (fun y => !sectOverlap x y) && sectsApart r

/-- The parts of a well-formed file, its key and signature checked against the active configuration (R55, R56, R83). R53 and R56
name no fate for a per-role section whose role is not below nroles, or a file-wide section whose role is not 0xFF: the file is
refused with IMAGE (DESIGN CHOICE, assumption 83). -/
def parseImage (cfg : Cfg) (pa : Nat) (bs : List Byte) : Option Image :=
  let h0 := fileNat bs 0 8
  let len := fileNat bs 8 8
  let h2 := fileNat bs 16 8
  let stab := fileNat bs 24 8
  let h4 := fileNat bs 32 8
  let n := bf h0 63 48
  let es := (List.range n).map fun i => sectAt bs (stab + 32 * i)
  let ss := es.map (·.1)
  let nr := h4 % 256
  let sigs := ss.filter fun x => x.ty == 15
  let head : Bool :=
    bf h0 31 0 == 0x31495253 && bf h0 47 32 == 1 && 2 ≤ n && n ≤ 1024 && len == bs.length && len % 16 == 0 &&
      stab % 16 == 0 && stab + 32 * n ≤ len && h4 / 256 == 0 && 1 ≤ nr && fileNat bs 40 24 == 0 && es.all (·.2)
  let body : Bool :=
    (ss.all fun x => sectKnown x.ty && x.off % 16 == 0 && x.off + x.len ≤ len &&
      (if fileWide x.ty then x.role == 0xFF else x.role < nr)) && sectsApart ss &&
      (ss.filter fun x => x.ty == 8).length ≤ 1 && sigs.length == 1
  if head && body then
    match sigs.head?, cfg.keys.find? fun k => k.keyid == h2 / 2 ^ 32 with
    | some sg, some key =>
      let sig := (bs.drop sg.off).take 96
      let pl := match ss.find? fun x => x.ty == 8 with
        | some x => placements ((bs.drop x.off).take x.len)
        | none => ([], true)
      let roles := (List.range nr).map (roleOf bs ss)
      if sg.len == 96 && sg.off + 96 == len && key.secfloor ≤ h2 % 2 ^ 32 &&
          signatureOk key.point (bs.take sg.off) sig && pl.2 && roles.all (·.isSome) then
        some { pa := pa, len := len, sig := sig, hash := sha384 bs, keyid := h2 / 2 ^ 32, secver := h2 % 2 ^ 32
               nroles := nr, roles := roles.filterMap id, places := pl.1 }
      else none
    | _, _ => none
  else none

/-! ### The verified image cache (R83) -/

/-- Whether some live region uses a cached file. -/
def State.imageUsed (s : State) (id : Nat) : Bool := s.regions.any fun g => g.2.alive && g.2.fileId == id

/-- Makes room for a file of a length by evicting the least recently launched files that no live region uses; none where
that is not enough yet. -/
def State.imageRoom (s : State) (len : Nat) : Nat → Option State
  | 0 => none
  | fuel + 1 =>
    let held := s.images.foldl (fun n e => n + e.2.len) 0
    if held + len ≤ 2 ^ 28 then some s
    else
      let free := s.images.filter fun e => !s.imageUsed e.1
      match free.foldl (fun (b : Option (Nat × Image)) e => match b with
        | some x => if e.2.used < x.2.used then some e else b
        | none => some e) none with
      | some e => State.imageRoom { s with images := Tbl.del s.images e.1 } len fuel
      | none => none

/-- Outcome of an image check. -/
inductive Verified where
  | ok (s : State) (id : Nat)
  | bad
  | wait
deriving DecidableEq, Repr

/-- The image check of a launch: the cached copy serves when address, length and signature bytes are the same; else the
file is read once and verified (R83). `rd` reads bytes of the file at an offset. R83 does not say what "the same address" is
for an image that a child names by a virtual address: here the physical address of its first byte (DESIGN CHOICE,
assumption 85). -/
def State.verifyImage (s : State) (pa : Nat) (rd : Nat → Nat → Option (List Byte)) : Verified :=
  match rd 0 64 with
  | none => .bad
  | some h =>
    let len := fileNat h 8 8
    if len < 160 || 2 ^ 28 < len then .bad
    else
      let sig := rd (len - 96) 96
      match s.images.find? fun e => e.2.pa == pa && e.2.len == len && sig == some e.2.sig with
      | some e =>
        .ok { s with images := Tbl.put s.images e.1 { e.2 with used := s.dv.launches } } e.1
      | none =>
        match (rd 0 len).bind (parseImage s.dv.cfg pa) with
        | none => .bad
        | some im =>
          match s.imageRoom len (s.images.length + 1) with
          | none => .wait
          | some s =>
            let id := s.dv.imgSeq + 1
            .ok { s with images := Tbl.put s.images id { im with used := s.dv.launches }, dv := { s.dv with imgSeq := id } } id

/-- Reads bytes at a physical address of vault or HBM memory; none outside it. -/
def State.fileAt (s : State) (pa off n : Nat) : Option (List Byte) :=
  if isHome (pa + off) && spaceOf (pa + off) == spaceOf (pa + off + n - 1) && spaceOf pa == spaceOf (pa + off) then
    some (s.mem.bytes (pa + off) n) else none

/-- The check of a file by its physical address (R83). -/
def execImageVerify (file : Nat) (s : State) : Out :=
  match s.verifyImage file (s.fileAt file) with
  | .ok s _ => ok s
  | .bad => ok s
  -- no file can be evicted yet
  | .wait => ok (s.schedIn 1 (.imageVerify file))

/-! ### A role and a region (R56, R58, R61, R62, R104) -/

/-- Whether the DATA, BSS and STREAMS of a role lie in a share (R56). R56 does not say what becomes of a STREAMS record that
breaks R281 otherwise than by the share: one with a reserved field, count, type, rounding or alignment that scfg rejects is
refused with IMAGE here (DESIGN CHOICE, assumption 66). -/
def Role.fits (r : Role) (share : Nat) : Bool :=
  (r.data.all fun d => d.2.isEmpty || d.1 + d.2.length ≤ share) && (r.bss.all fun b => b.2 = 0 || b.1 + b.2 ≤ share) &&
    r.streams.all fun x =>
      if x.all (· == 0) then true
      else
        let b (i : Nat) : Nat := fileNat x i 8
        slotLegal b && (slotOf b).inShare share && (slotOf b).aligned

/-- Pages of the instruction store that a role takes, in bytes (R65). -/
def Role.codeBytes (r : Role) : Nat := (12 * r.code.length + 4095) / 4096 * 4096
/-- Whether a role holds an mmg (R104). -/
def Role.hasMmg (r : Role) : Bool := r.code.any fun w => match decode w with
  | some x => match x.instr with
    | .mmg _ => true
    | _ => false
  | none => false

/-- Whether a box meets a placement entry (R58). -/
def Place.met (p : Place) (e : Eff) : Bool :=
  let a := 2 ^ p.align
  let al := e.ox % a == 0 && e.oy % a == 0 && e.oz % a == 0
  let ext := bf p.box 36 32 == e.ex && bf p.box 41 37 == e.ey && bf p.box 46 42 == e.ez
  let org := bf p.box 3 0 == e.ox && bf p.box 7 4 == e.oy && bf p.box 11 8 == e.oz
  match p.mode with
  | 0 => al
  | 1 => al && ext
  | _ => org && ext

/-- Ports on which a tile forwards a role image: the explicit tree's, or the default tree's (R60, R62). -/
def Role.forwards (r : Role) (e : Eff) (t : Nat) : List Dir :=
  match r.boot with
  | some b =>
    let m := b.2.2.2.getD (e.strandOf t) 0
    [Dir.xm, .xp, .ym, .yp, .zm, .zp].zip (List.range 6) |>.filterMap fun x => if m / 2 ^ x.2 % 2 = 1 then some x.1 else none
  | none =>
    let (rx, ry, rz) := (tileX t - e.ox, tileY t - e.oy, tileZ t - e.oz)
    (if ry = 0 ∧ rz = 0 ∧ rx + 1 < e.ex then [Dir.xp] else []) ++ (if rz = 0 ∧ ry + 1 < e.ey then [Dir.yp] else []) ++
      (if rz + 1 < e.ez then [Dir.zp] else [])
/-- Seeds of the tree. -/
def Role.seeds (r : Role) (e : Eff) : List Nat :=
  match r.boot with
  | some b => e.tilesOf.filter fun t => b.2.2.2.getD (e.strandOf t) 0 / 64 % 2 = 1
  | none => [tileOf e.ox e.oy e.oz]

/-- Tiles that a tree reaches. -/
def Role.reach (r : Role) (e : Eff) : Nat → List Nat → List Nat
  | 0, ts => ts
  | fuel + 1, ts =>
    let more := (ts.flatMap fun t => (r.forwards e t).map fun d => neighbour t d).filter fun t => e.inBox t && !ts.contains t
    if more.isEmpty then ts else r.reach e fuel (ts ++ more.eraseDups)

/-- Whether an explicit tree suits a box (R61). -/
def Role.treeOk (r : Role) (e : Eff) : Bool :=
  match r.boot with
  | none => true
  | some b =>
    let ts := e.tilesOf
    let dests := ts.flatMap fun t => (r.forwards e t).map fun d => neighbour t d
    b.1 == e.ex && b.2.1 == e.ey && b.2.2.1 == e.ez &&
      (ts.all fun t => (r.forwards e t).all fun d => e.inBox (neighbour t d)) &&
      (ts.all fun t => (dests.filter (· == t)).length == (if (r.seeds e).contains t then 0 else 1)) &&
      (r.reach e 4096 (r.seeds e)).length == ts.length

end Sys2Proof.Machine
end

