-- ==== Sys2Proof/Machine/SysCol.lean ====
section
/-! DEFINITION. The system words of the K column: handlers, control registers, fences, shootdowns and halt (R463 to R473),
with the registers of R3, R7, R8, R69, R94, R95, R103, R161, R177, R198, R213, R217, R222, R237, R275, R298, R303, R309,
R312, R337 and R425. -/

namespace Sys2Proof.Machine

/-! ### Handlers (R467) -/

/-- uien: the mask governs delivery from the next tick (R467). -/
def execUien (mask : BitVec 4) (s : State) : Out :=
  ok ((s.updC fun c => { c with ui := { c.ui with en := mask } }).uiPoll s.here)

/-- uiret: the main stream goes on at the interrupted PC, and the next event may be delivered (R467). -/
def execUiret (s : State) : Out :=
  elastic s <| guardT s s.c.ui.inh cIllegalOperand <|
    ok ((s.updC fun c => { c.refetch c.ui.ret s.T with ui := { c.ui with inh := false } }).uiPoll s.here)

/-! ### The registers (R472) -/

/-- A field of a register. -/
def fld (v w at_ : Nat) : Nat := v % 2 ^ w * 2 ^ at_
/-- A one-bit field. -/
def bit (b : Bool) (at_ : Nat) : Nat := if b then 2 ^ at_ else 0
/-- A two's complement field. -/
def sfld (v : Int) (w at_ : Nat) : Nat := (v % ((2 ^ w : Nat) : Int)).toNat * 2 ^ at_

/-- ctl.devid (R3): what is per silicon and per module is free (assumption 4). -/
def State.ctlDevid (s : State) : Nat :=
  fld 0x15C4 16 48 + fld 0x0E16 16 32 + fld Config.devStep.toNat 8 24 + fld s.dv.harvested 8 16 + fld 0b10000 5 11

/-- ctl.uist (R473). -/
def UI.ctl (u : UI) : Nat :=
  fld u.en.toNat 4 20 +
  bit u.dl.isSome 16 + bit u.yld 17 + bit (!u.tmq.isEmpty) 18 + bit (!u.arq.isEmpty) 19 +
  bit u.lost 9 + bit u.inh 8 + fld u.tmq.length 4 4 + fld u.arq.length 4 0

/-- ctl.uivec (R473). -/
def UI.vec (u : UI) : Nat := bit u.v 63 + fld u.entry 14 0

/-- ctl.pace of a strand (R213). -/
def State.ctlPace (s : State) (c : Ctx) : Nat :=
  let g := s.region c.region
  let p := g.pace
  let overrun := match p with
    | some p => p.overrun
    | none => false
  let dl := match p with
    | some p => p.dl.isSome
    | none => false
  let need := match p with
    | some p => p.need.getD 15
    | none => 15
  fld g.paceStep 32 32 + fld s.pnow 4 28 + fld need 4 24 + bit overrun 1 + bit dl 0

/-- ctl.gov (R217). -/
def State.ctlGov (s : State) : Nat :=
  let g := s.gov
  fld s.pnow 4 20 + fld s.capNow 4 16 + fld g.pdem 4 12 + fld g.pdef 4 8 + bit g.fwok 4 + bit g.gate 3 +
    bit (g.ocap.isSome || g.pkg.isSome) 2 + bit s.tcap 1 + bit g.dcap 0
/-- ctl.heat (R217). -/
def Gov.ctlHeat (g : Gov) : Nat :=
  fld g.ygrace 8 48 + fld g.cband 8 40 + fld g.gband 8 32 + fld g.setpt 13 16 + fld g.plim 13 0
/-- ctl.heatst (R217). -/
def Gov.ctlHeatst (g : Gov) : Nat := fld g.wmiss 16 48 + fld g.wavg 13 32 + fld g.pwr 13 0
/-- ctl.railn (R217). -/
def State.ctlRail (s : State) (n : Nat) : Nat :=
  let r := s.gov.rail n
  fld r.iamp 16 48 + fld r.vmv 10 38 + fld r.ilim 8 24 + fld r.uecnt 8 16 + bit r.frz 8 + fld r.gthr 4 4 +
    fld (s.railOff n) 4 0
/-- ctl.eccd (R312). -/
def EccD.ctl (e : EccD) : Nat := fld e.dce 24 40 + fld e.due 8 32 + fld e.sce 24 8 + fld e.sue 8 0
/-- ctl.dtn (R309). -/
def DtReg.ctl (d : DtReg) : Nat := sfld d.temp 12 16 + bit d.fail 6 + fld d.st 2 4 + bit d.valid 0
/-- ctl.tsn (R222). -/
def TsReg.ctl (t : TsReg) : Nat :=
  sfld t.tmax 12 28 + sfld t.temp 12 16 + bit t.fail 6 + bit t.trip 5 + bit t.cap 4 + bit t.hot 3 + bit t.valid 0
/-- ctl.pgate (R103). -/
def State.ctlPgate (s : State) : Nat := fld s.pgWaves 8 16 + fld s.pgIdle 15 1 + bit s.pgEn 0
/-- ctl.ptroot of a partition (R303). -/
def State.ctlPtroot (s : State) (p : Nat) : Nat :=
  let r := Tbl.get {} s.ptroots p
  fld r.root 37 11 + bit r.en 0
/-- ctl.tmstat (R198). -/
def Dev.ctlTmstat (d : Dev) : Nat := bit d.lock 63 + sfld d.off 32 0

/-- The registers that the strand or its tile holds, and that the device holds, by number (R472). -/
def State.csr (s : State) (n : Nat) : Nat :=
  let c := s.c
  match n with
  | 0x000 => s.ctlDevid
  | 0x001 => fld c.spad 6 32 + fld c.vhi 8 16 + fld c.vlo 8 0
  | 0x002 => fld c.batch.base 32 32 + fld c.batch.n 32 0
  | 0x003 => s.ctlPace c
  | 0x004 => c.fpst.toNat
  | 0x005 => c.rngkey.toNat
  | 0x006 => bit c.lastWr 63 + fld c.lastSlice 11 32 + fld c.lastSeq 32 0
  | 0x007 => fld c.tmfrac 16 0
  | 0x008 => s.dv.ctlTmstat
  | 0x009 => c.ui.vec
  | 0x00A => c.ui.ctl
  | 0x00B => fld (s.core s.me).ecctSp 32 32 + fld (s.core s.me).ecctCore 32 0
  | 0x00C => s.ctlPgate
  | 0x00D => s.ctlPtroot s.here.part
  | 0x00E => s.ctlGov
  | 0x00F => s.gov.ctlHeat
  | 0x010 => s.gov.ctlHeatst
  | 0x011 => s.eccd.ctl
  | 0x012 => fld s.dv.tlbseq 32 0
  | 0x014 => fld c.batch.nunw 24 40 + fld c.batch.fcause 8 32 + fld c.batch.first 32 0
  | _ =>
    if n < 0x01C then s.ctlRail (n - 0x018)
    else if n < 0x028 then (Tbl.get 0 (s.core s.me).flt (n - 0x020)).toNat
    else if n < 0x080 then (Tbl.get 0 s.hv (n - 0x040)).toNat
    else if n < 0x090 then (Tbl.get 0 s.bg (n - 0x080)).toNat
    else if n < 0x0B0 then (Tbl.get 0 s.dv.sg (n - 0x090)).toNat
    else if n < 0x0C0 then (Tbl.get 0 s.dv.ptree (n - 0x0B0)).toNat
    else if n < 0x0E0 then (Tbl.get {} s.dts (n - 0x0C0)).ctl
    else if n < 0x200 then (s.tsReg (n - 0x100)).ctl
    else (Tbl.get 0 s.dv.pwin (n - 0x200)).toNat

/-- Whether the device holds the register (R472). -/
def csrDevice (n : Nat) : Bool :=
  n == 0x000 || n == 0x008 || (0x00C ≤ n && n ≤ 0x012) || (0x018 ≤ n && n ≤ 0x01B) || 0x040 ≤ n

/-- How a CSR word writes (R468). -/
inductive CsrOp where
  | w | s | c
deriving DecidableEq, Repr

/-- The value that a CSR word gives the RW fields of a register. -/
def CsrOp.rw (o : CsrOp) (old a : Word) : Word :=
  match o with
  | .w => a
  | .s => old ||| a
  | .c => old &&& ~~~ a
/-- The bits that a CSR word clears in WC fields. -/
def CsrOp.wc (o : CsrOp) (a : Word) : Word :=
  match o with
  | .w | .s => a
  | .c => 0

/-- The side effect of reading a register: ctl.tsn's tmax becomes the current reading (R222). -/
def State.csrSeen (s : State) (n : Nat) : State :=
  if 0x100 ≤ n && n < 0x200 then
    let k := n - 0x100
    let t := s.tsReg k
    if t.tmax = t.temp then s else { s with ts := Tbl.put s.ts k { t with tmax := t.temp } }
  else s

/-- Whether a value of ctl.uivec may be written: its entry lies in the role's code (R473). -/
def Ctx.uivecOk (c : Ctx) (v : Word) : Bool := v.toNat % 2 ^ 14 < c.words
/-- Writes ctl.uivec. -/
def Ctx.setUivec (c : Ctx) (v : Word) : Ctx :=
  { c with ui := { c.ui with v := v.getLsbD 63, entry := v.toNat % 2 ^ 14 } }

/-- Writes a register field by field; every other register's fields are read-only (R7, R8, R222, R237, R275, R473). -/
def State.csrPut (s : State) (n : Nat) (o : CsrOp) (old a : Word) : State :=
  let v := o.rw old a
  let w := o.wc a
  match n with
  | 0x004 => s.result 1 (.fpst (v.extractLsb' 16 5) (w.extractLsb' 0 5))
  | 0x005 => s.result 1 (.key v)
  | 0x009 => (s.updC fun c => c.setUivec v).uiPoll s.here
  | 0x00A => if w.getLsbD 9 then s.updC fun c => { c with ui := { c.ui with lost := false } } else s
  | _ =>
    if 0x100 ≤ n && n < 0x200 && w.getLsbD 5 then
      let k := n - 0x100
      s.clearTrip k
    else s

/-- csrr (R468). -/
def execCsrr (d : BitVec 6) (n : BitVec 12) (s : State) : Out :=
  let old := BitVec.ofNat 64 (s.csr n.toNat)
  ok ((if d = 0 then s else s.csrSeen n.toNat).putS 1 d old)

/-- The writing CSR words (R468, R473). -/
def csrWord (o : CsrOp) (d : BitVec 6) (a : Src) (n : Nat) (s : State) : Out :=
  guardT s (!csrDevice n || (s.part s.here.part).priv) cPrivilege <|
    let old := BitVec.ofNat 64 (s.csr n)
    let x := s.src a
    guardT s (n != 0x009 || s.c.uivecOk (o.rw old x)) cIllegalOperand <|
      let s := s.seen a
      let s := if d = 0 then s else s.csrSeen n
      ok ((s.csrPut n o old x).putS 1 d old)

/-- csrw (R468). -/
def execCsrw (d : BitVec 6) (a : Src) (n : BitVec 12) (s : State) : Out := csrWord .w d a n.toNat s
/-- csrs (R468). -/
def execCsrs (d : BitVec 6) (a : Src) (n : BitVec 12) (s : State) : Out := csrWord .s d a n.toNat s
/-- csrc (R468). -/
def execCsrc (d : BitVec 6) (a : Src) (n : BitVec 12) (s : State) : Out := csrWord .c d a n.toNat s

/-- A write of ctl.uivec by a strand: one whose entry lies beyond the role's code traps and writes nothing (R473). -/
def execUivecWrite (l : Loc) (v : Word) (s : State) : Out :=
  let c := s.ctx l
  if c.uivecOk v then ok ((s.updCtx l fun c => c.setUivec v).uiPoll l)
  else
    let r := s.mkStop l 0 cIllegalOperand true c.pc 0 0 0
    ok ((s.updCtx l fun c => { c with stopped := true }).raiseTrap l r)

/-! ### Fences and shootdowns (R436, R469, R470) -/

/-- fence: in a timed phase it waits for nothing (R469). -/
def execFence (sc : Scope) (s : State) : Out :=
  if s.c.kind != .elastic || sc == .strand then ok s
  else ok ((s.blockIn (.fence sc false)).fenceStep s.here)

/-- Whether an entry of the partition holds a translation of the range. -/
def TlbEnt.inRange (e : TlbEnt) (p lo hi : Nat) : Bool := e.part == p && e.va < hi && lo < e.va + e.size

/-- Drops every translation of a range in an instance of a scope; the walk cache too at DEVICE scope (R470). -/
def State.tlbDrop (s : State) (l : Loc) (sc : Scope) (lo hi : Nat) : State :=
  let out (es : List TlbEnt) : List TlbEnt := es.filter fun e => !e.inRange l.part lo hi
  let s := { s with cores := s.cores.map fun (k : Nat × Core) => if s.sameInst sc l k.1 then (k.1, { k.2 with tlb := out k.2.tlb }) else k }
  let s := { s with gangs := s.gangs.map fun (g : Nat × Gang) => if s.gangInst sc l (g.1 * 16) then (g.1, { g.2 with tlb := out g.2.tlb }) else g }
  match sc with
  | .device => { s with wcache := out s.wcache }
  | _ => s

/-- Whether a request on its way was translated in a range by an entry that the scope takes in: a word of the partition makes it,
on a tile of such a gang. What a strand's buffers send has reached them already (R306). -/
def State.inFlight (s : State) (l : Loc) (sc : Scope) (lo hi : Nat) (q : HomeReq) : Bool :=
  let buffered := match q.op with
    | .write .. | .merge .. => true
    | .read .. | .ldrm .. | .strm .. | .atom .. | .cas .. => false
  q.peer.isNone && q.agent.isNone && !buffered && q.loc.part == l.part && lo ≤ q.va && q.va < hi && s.gangInst sc l q.loc.tile
/-- Whether accesses that such translations served have still to be performed: requests at a home or on their way there, and what
copies have read and not yet written. -/
def State.shotAt (s : State) (l : Loc) (sc : Scope) (lo hi : Nat) : Bool :=
  let on (q : HomeReq) : Bool := s.inFlight l sc lo hi q
  s.missQ.any on || (s.agenda.any fun e => match e.2 with
    | .homeRequestServe q => on q
    | _ => false) ||
  s.cores.any fun k => s.gangInst sc l k.1 && (s.ctx ⟨k.1, l.part⟩).cq.any fun q =>
    q.2.any fun x => x.fly.any fun f => f.vas.any fun v => lo ≤ v && v < hi

/-- tlbinv: the translations go at once; the completion follows every access that they served (R306, R470). -/
def execTlbinv (sc : Scope) (d : BitVec 6) (range : Option (Src × Src)) (k : BitVec 3) (s : State) : Out :=
  elastic s <| freeTok s k.toNat <|
    let a := match range with
      | some x => (s.src x.1).toNat
      | none => 0
    let n := match range with
      | some x => (s.src x.2).toNat
      | none => 2 ^ 40
    guardT s (a % 2 ^ 16 == 0 && a < 2 ^ 56 && n != 0 && n ≤ 2 ^ 40) cIllegalOperand <|
      let l := s.here
      let dn := s.c.sdst d.toNat
      let s := match range with
        | some x => (s.seen x.1).seen x.2
        | none => s
      let hi := a + n * 65536
      let s := s.tlbDrop l sc a hi
      let s := s.updC fun c => c.bind k.toNat
      ok (s.schedFree 1 (.shootdownComplete l dn k.toNat sc a hi))

/-- A shootdown completes, once every access that the translations served is performed (R306, R470). -/
def execShootdownComplete (l : Loc) (d tok : Nat) (sc : Scope) (lo hi : Nat) (s : State) : Out :=
  if s.shotAt l sc lo hi then ok (s.schedIn 1 (.shootdownComplete l d tok sc lo hi))
  else
    let s := s.tlbDrop l sc lo hi
    let v := (s.dv.shoot + 1) % 2 ^ 32
    let s := { s with dv := { s.dv with shoot := v, tlbseq := v } }
    let n := (s.ctx l).now s.tick
    ok ((s.updCtx l fun c => c.pendK (some tok) (n + 1) (.s d (BitVec.ofNat 64 v))).tokDone l tok (n + 1))

/-! ### halt (R471) -/

/-- halt: the strand is on its way out, and its pending events are discarded (R471). -/
def execHalt (s : State) : Out :=
  noHandler s <|
    let t := s.updC fun c => { c with ui := { c.ui with dl := none, yld := false, tmq := [], arq := [], going := none } }
    ok ((t.blockIn (.leave none 0 0 s.pcNow)).leaveStep s.here)

/-! ### Registers written from outside (R7, R69, R70) -/

/-- A queue pair. -/
def State.qp (s : State) (q : Nat) : QPair := Tbl.get {} s.dv.qps q
/-- Changes a queue pair. -/
def State.updQp (s : State) (q : Nat) (f : QPair → QPair) : State :=
  { s with dv := { s.dv with qps := Tbl.put s.dv.qps q (f (s.qp q)) } }

/-- Whether IDE protects a pair's launch queue: link IDE, or a selective stream one of whose ranges holds the whole ring, is
in the secure state (R68). -/
def Dev.ideCovers (d : Dev) (x : QPair) : Bool :=
  d.ide.contains 0 || d.ideCover.any fun e =>
    e.1 != 0 && d.ide.contains e.1 && e.2.any fun r => r.1 ≤ x.base && x.base + 64 * (16 * 2 ^ min x.lsize 12) ≤ r.2 + 1

/-- Whether the management controller's firmware runs; in recovery mode the device answers nothing but a firmware download
(R80). -/
def State.answers (s : State) : Bool := s.dv.power.booted && !s.dv.power.recovery
/-- What the host asks for, where the device answers. -/
def answered (s : State) (o : Out) : Out := if s.answers then o else ok s

/-- Whether the dispenser polls a ring (R68, R75). -/
def State.polls (s : State) (q : Nat) : Bool :=
  let x := s.qp q
  x.en && !x.ovr && !x.crpt && (!s.dv.cfg.ideReq || s.dv.ideCovers x) && s.answers

/-- Starts or stops polling as the registers ask (R68, R69, R75). -/
def State.setPolling (s : State) (q : Nat) : State :=
  let on := s.polls q
  let x := s.qp q
  if on && !x.run then (s.updQp q fun x => { x with run := true, ready := false }).schedIn 1 (.launchQueuePoll q)
  else if !on && x.run then
    (s.updQp q fun x => { x with run := false, ready := false }).unsched fun e => e == .launchQueuePoll q
  else s

/-- A host write of one of a pair's registers (R69, R70). -/
def State.hostQp (s : State) (q off : Nat) (v : Word) : State :=
  let n := v.toNat
  let x := s.qp q
  let base := n / 4096 % 2 ^ 36 * 4096
  match off with
  | 0x00 => if x.en then s else s.updQp q fun x => { x with base := base }
  | 0x08 =>
    s.updQp q fun x => { x with poll := n / 65536 % 65536, lsize := if x.en then x.lsize else n % 16 }
  | 0x10 => if x.en then s else s.updQp q fun x => { x with next := n }
  | 0x18 =>
    (s.updQp q fun x => { x with
      crpt := x.crpt && !v.getLsbD 9, ovr := x.ovr && !v.getLsbD 8, en := v.getLsbD 0 }).setPolling q
  | 0x20 => if x.en then s else s.updQp q fun x => { x with cbase := base }
  | 0x28 =>
    s.updQp q fun x => { x with
      ien := v.getLsbD 16, vec := n / 256 % 256, clsize := if x.en then x.clsize else n % 16 }
  | 0x38 =>
    let h := min n x.tail
    if h < x.head then s else s.updQp q fun x => { x with head := h }
  | _ => s

end Sys2Proof.Machine
end

