-- ==== Sys2Proof/Machine/Queue.lean ====
section
/-! DEFINITION. Launch and completion queues in host memory: polling, consuming entries and posting completions (R67 to
R77). -/

namespace Sys2Proof.Machine

/-- Entries of a ring (R69). -/
def ringSize (l : Nat) : Nat := 16 * 2 ^ min l 12
/-- Address of host memory in the physical space (R289). -/
def hostAddr (a : Nat) : Nat := 2 ^ 47 + a
/-- The poll interval in ns (R69). -/
def QPair.pollNs (x : QPair) : Nat := 16 * max 1 x.poll

/-- Posts a completion: body, sequence word, MSI-X message, cq.tail (R76). -/
def State.completion (s : State) (q status cause region part : Nat) (cookie : Word) (tend : Nat) : State :=
  let x := s.qp q
  let n := (x.tail + 1) % 2 ^ 64
  let a := hostAddr (x.cbase + 32 * (x.tail % ringSize x.clsize))
  let body := leBytes 8 cookie.toNat ++ leBytes 8 (status + 2 ^ 8 * cause + 2 ^ 16 * part + 2 ^ 32 * region) ++ leBytes 8 tend
  let s := (s.outsideWrite (addrBytes (a + 8) body)).outsideWrite (addrBytes a (leBytes 8 n))
  let s := if x.ien then { s with dv := { s.dv with msix := min 63 x.vec :: s.dv.msix } } else s
  s.updQp q fun x => { x with tail := n }

/-- Posts the completion that an entry owes. -/
def State.postOwed (s : State) (q status cause region part : Nat) (cookie : Word) (tend : Nat) : State :=
  (s.completion q status cause region part cookie tend).updQp q fun x => { x with owed := x.owed - 1 }

/-- A poll reads the seq word of the slot of lq.next (R72). -/
def execLaunchQueuePoll (q : Nat) (s : State) : Out :=
  if !s.polls q then ok (s.updQp q fun x => { x with run := false, ready := false })
  else
    let x := s.qp q
    let e := x.next
    let n := ringSize x.lsize
    let (s, bs) := s.outsideRead (hostAddr (x.base + 64 * ((e + 2 ^ 64 - 1) % n))) 8
    let v := leNat bs
    let last := BitVec.ofNat 64 (e + 2 ^ 64 - 1)
    if v = e then ok ((s.updQp q fun x => { x with ready := true }).schedFree 0 (.consumeEntry q))
    else if v = 0 ∨ v + n = e then ok (s.schedIn (s.ticksOf x.pollNs) (.launchQueuePoll q))
    else if e < v ∧ (v - e) % n = 0 then
      ok ((s.updQp q fun x => { x with ovr := true, run := false }).completion q 6 0 0 0 last s.tmNow)
    else ok ((s.updQp q fun x => { x with crpt := true, run := false }).completion q 7 0 0 0 last s.tmNow)

/-- A ready entry is consumed once the completion ring and the dispenser have room, and acted on; the next slot is read
at once (R72 to R74). -/
def execConsumeEntry (q : Nat) (s : State) : Out :=
  let x := s.qp q
  if !x.ready || !s.polls q then ok s
  else if ringSize x.clsize < (x.tail - x.head) + x.owed + 2 || 65536 ≤ s.recs.length then
    ok (s.schedIn 1 (.consumeEntry q))
  else
    let (s, bs) := s.outsideRead (hostAddr (x.base + 64 * ((x.next + 2 ^ 64 - 1) % ringSize x.lsize) + 8)) 56
    let w (i : Nat) : Nat := leNat ((bs.drop (8 * i)).take 8)
    let cookie := BitVec.ofNat 64 (w 1)
    let s := s.updQp q fun x => { x with next := (x.next + 1) % 2 ^ 64, ready := false, owed := x.owed + 1 }
    let bad : Bool := 2 ^ 48 ≤ w 0 || w 0 % 256 != 0 || 1 < w 2 || [3, 4, 5, 6].any fun i => w i != 0
    let s :=
      if bad then s.postOwed q 5 0 0 0 cookie s.tmNow
      else if w 2 = 0 then s.sched s.tick (.nopEntry q cookie)
      else s.sched s.tick (.launch q (w 0) cookie false)
    ok (s.schedIn 1 (.launchQueuePoll q))

/-- A NOP entry posts DONE (R73). -/
def execNopEntry (q : Nat) (cookie : Word) (s : State) : Out := ok (s.postOwed q 4 0 0 0 cookie s.tmNow)

end Sys2Proof.Machine
end

