-- ==== Sys2Proof/Machine/Launch.lean ====
section
/-! DEFINITION. Launching a region: the words of its RCB, the checks in their order, its acceptance, and the launch of
partitions and of the children of a batch (R13 to R34, R73, R83, R84, R104, R159 to R161, R207). -/

namespace Sys2Proof.Machine

/-! ### The RCB (R14) -/

/-- The software words of an RCB, by number. -/
abbrev Rcb := List Nat
/-- A word. -/
def rcbW (w : Rcb) (i : Nat) : Nat := w.getD i 0

/-- Whether every reserved bit of the software words is zero. -/
def rcbReserved (w : Rcb) : Bool :=
  let z (i hi lo : Nat) : Bool := bf (rcbW w i) hi lo == 0
  z 0 47 44 && z 0 23 0 && z 1 63 56 && z 2 63 47 && z 2 31 12 && z 4 63 45 && z 4 31 26 && z 4 7 0 && z 5 63 46 &&
    z 5 31 17 && z 6 63 29 && z 6 15 12 && z 6 7 2 && z 7 63 56 && z 8 63 20 && z 8 15 12 && z 9 63 40 && z 9 15 3 &&
    [11, 12, 13, 14, 15].all fun i => rcbW w i == 0

/-- The field groups of an RCB. -/
def effOf (w : Rcb) : Eff :=
  let f (i hi lo : Nat) : Nat := bf (rcbW w i) hi lo
  { ox := f 2 3 0, oy := f 2 7 4, oz := f 2 11 8, ex := f 2 36 32, ey := f 2 41 37, ez := f 2 46 42
    image := f 3 55 0, role := f 3 63 56, tiles := f 4 44 32, strt := f 4 8 8 == 1, spad := f 4 25 20
    vault := f 5 45 32, hbm := f 5 16 0, power := f 6 28 16, vbase := f 4 13 9, vcount := f 4 19 14
    lvl := f 6 0 0 == 1, balok := f 6 1 1 == 1, prio := f 6 11 8, fdom := f 8 11 0, fdring := f 7 55 0, fdsz := f 8 19 16
    dlmode := f 9 1 0, dlmiss := f 9 2 2 == 1, dlguard := f 9 39 16, dlper := rcbW w 10 }

/-- Whether a field group is the RCB's own (R24). -/
def own (ovr i : Nat) : Bool := ovr / 2 ^ i % 2 == 1

/-- Whether every field of a group of its own lies in its range (R14, R18, R26). -/
def Eff.ranges (e : Eff) (ovr : Nat) : Bool :=
  let ext (n : Nat) : Bool := 1 ≤ n && n ≤ 16
  (!own ovr 0 || (ext e.ex && ext e.ey && ext e.ez)) && (!own ovr 2 || (1 ≤ e.tiles && e.tiles ≤ 4096)) &&
    (!own ovr 3 || e.spad ≤ 32) && (!own ovr 4 || e.vault ≤ 8192) && (!own ovr 5 || e.hbm ≤ 65536) &&
    (!own ovr 6 || e.power ≤ 6000) && (!own ovr 7 || (1 ≤ e.vcount && e.vbase + e.vcount ≤ 32)) &&
    (!own ovr 10 || (e.fdsz ≤ 8 && e.fdring % 4096 == 0)) &&
    (!own ovr 11 || (e.dlmode != 3 && !(e.dlmode == 2 && e.dlper == 0)))

/-- Effective values of a child: its own groups and the parent's effective values, with prio clamped and the ballast level
handed down (R24 to R26). -/
def Eff.inherit (p c : Eff) (ovr : Nat) : Eff :=
  let o (i : Nat) : Bool := own ovr i
  let pick {α : Type} (i : Nat) (a b : α) : α := if o i then a else b
  { ox := pick 0 c.ox p.ox, oy := pick 0 c.oy p.oy, oz := pick 0 c.oz p.oz
    ex := pick 0 c.ex p.ex, ey := pick 0 c.ey p.ey, ez := pick 0 c.ez p.ez
    image := pick 1 c.image p.image, role := pick 1 c.role p.role
    tiles := pick 2 c.tiles p.tiles, strt := pick 2 c.strt p.strt, spad := pick 3 c.spad p.spad
    vault := pick 4 c.vault p.vault, hbm := pick 5 c.hbm p.hbm, power := pick 6 c.power p.power
    vbase := pick 7 c.vbase p.vbase, vcount := pick 7 c.vcount p.vcount
    lvl := pick 8 c.lvl p.lvl || p.lvl, balok := pick 8 c.balok p.balok
    prio := min (pick 9 c.prio p.prio) p.prio
    fdom := pick 10 c.fdom p.fdom, fdring := pick 10 c.fdring p.fdring, fdsz := pick 10 c.fdsz p.fdsz
    dlmode := pick 11 c.dlmode p.dlmode, dlmiss := pick 11 c.dlmiss p.dlmiss, dlguard := pick 11 c.dlguard p.dlguard
    dlper := pick 11 c.dlper p.dlper }

/-! ### The checks (R18, R19, R21, R26, R58, R104) -/

/-- Whether the box stays on the torus without wrapping (R19). -/
def Eff.boxOk (e : Eff) : Bool := e.ox + e.ex ≤ 16 && e.oy + e.ey ≤ 16 && e.oz + e.ez ≤ 16
/-- Whether a box lies in another. -/
def Eff.within (c p : Eff) : Bool :=
  p.ox ≤ c.ox && c.ox + c.ex ≤ p.ox + p.ex && p.oy ≤ c.oy && c.oy + c.ey ≤ p.oy + p.ey && p.oz ≤ c.oz &&
    c.oz + c.ez ≤ p.oz + p.ez

/-- Boxes of the partitions that live. -/
def State.rootBoxes (s : State) : List Eff :=
  s.regions.filterMap fun g => if g.2.alive && g.2.parent == 0 then some g.2.eff else none

/-- The BOX checks that need no image: those of R19, and harvested tiles (R104). -/
def State.boxBad (s : State) (e : Eff) (parent : Option Nat) : Bool :=
  !e.boxOk ||
    (match parent with
     | some p => !e.within (s.region p).eff
     | none => e.tilesOf.any fun t => 2 ≤ (s.rootBoxes.filter (·.inBox t)).length) ||
    e.tilesOf.any s.harvested

/-- The BOX checks against a verified image (R58, R104). -/
def State.placeBad (s : State) (e : Eff) (im : Image) : Bool :=
  let ps := im.places.filter fun p => p.role == e.role
  (!ps.isEmpty && !ps.any fun p => p.met e) ||
    (e.ex == 16 && ((im.roles.find? fun r => r.role == e.role).map Role.hasMmg).getD false &&
      e.tilesOf.any fun t => (List.range 16).any fun x => s.harvested (gangOf t * 16 + x))

/-- The region whose pool a region draws on: its own where it overrode the group, else its parent's (R26). -/
def State.poolOwner (s : State) (group : Nat) : Nat → Nat → Nat
  | 0, r => r
  | fuel + 1, r =>
    let g := s.region r
    if own g.ovr group || g.parent == 0 then r else s.poolOwner group fuel g.parent
/-- What a region's pool still has: its effective amount less what live children have carved (R26). -/
def State.poolLeft (s : State) (group r : Nat) (amount : Eff → Nat) (carve : Region → Nat) : Nat :=
  let o := s.poolOwner group 16 r
  amount (s.region o).eff - s.regions.foldl (fun n x =>
    if x.2.parent != 0 && s.poolOwner group 16 x.2.parent == o then n + carve x.2 else n) 0

/-- The BUDGET checks (R21, R26, R32, R207). -/
def State.budgetBad (s : State) (e : Eff) (ovr : Nat) (parent : Option Nat) : Bool :=
  (!e.strt && e.tiles < e.ex * e.ey * e.ez) ||
    (e.dlmode != 0 && 1024 ≤ (s.regions.filter fun x => x.2.pace.isSome).length) ||
    match parent with
    | none => 64 ≤ s.parts.length
    | some p =>
      let q := (s.region p).eff
      (own ovr 2 && q.tiles < e.tiles) || (own ovr 3 && q.spad < e.spad) ||
        (own ovr 7 && (e.vbase < q.vbase || q.vbase + q.vcount < e.vbase + e.vcount)) ||
        (own ovr 4 && s.poolLeft 4 p (·.vault) (·.carveV) < e.vault) ||
        (own ovr 5 && s.poolLeft 5 p (·.hbm) (·.carveH) < e.hbm) ||
        (own ovr 6 && s.poolLeft 6 p (·.power) (·.carveP) < e.power)

/-- A region and its ancestors. -/
def State.lineage (s : State) : Nat → Nat → List Nat
  | 0, _ => []
  | fuel + 1, r => if r == 0 then [] else r :: s.lineage fuel (s.region r).parent

/-- Bytes of the instruction store (R65). -/
def istoreSize : Nat := 196608

/-- Whether the code of a role with that of the roles of some regions exceeds the store (R65). -/
def State.codeBad (s : State) (key size : Nat) (rs : List Nat) : Bool :=
  let ks := (rs.map fun r => ((s.region r).codeKey, ((s.roleOf r).map Role.codeBytes).getD 0)).filter fun k => k.1 != key
  istoreSize < ks.eraseDups.foldl (fun n k => n + k.2) size

/-! ### Acceptance (R14, R15, R32, R34) -/

/-- The next region number: not 0 and not in use. -/
def State.freshRegion (s : State) : Nat → Nat → Nat
  | 0, n => n
  | fuel + 1, n =>
    let m := n % 2 ^ 32
    if m == 0 || ((Tbl.find s.regions m).map Region.alive).getD false then s.freshRegion fuel (m + 1) else m

/-- What a launch comes to. -/
inductive Launched where
  | ok (s : State) (r : Nat)
  /-- refused: the cause, and whether the RCB takes it -/
  | refused (s : State) (cause : Nat) (written : Bool)
  /-- no file can be evicted from the image cache yet (R83) -/
  | wait
deriving DecidableEq, Repr

/-- Who launches: the queue pair and its cookie, the management controller, or a strand for a batch. -/
structure Launcher where
  q : Option Nat := none
  cookie : Word := 0
  priv : Bool := false
  parent : Option Nat := none
  /-- place of the spawning strand, index, chained predecessor -/
  by_ : Option (Nat × Nat) := none
  pred : Option Nat := none
deriving DecidableEq, Repr

/-- Enters a region that has passed every check (R15, R84). -/
def State.accept (s : State) (who : Launcher) (w : Rcb) (rcb pa ovr : Nat) (e : Eff) (fileId : Nat) : State × Nat :=
  let r := s.freshRegion (s.regions.length + 2) s.nextRegion
  let part := match who.parent with
    | some p => (s.region p).part
    | none => ((List.range 64).find? fun p => !Tbl.has s.parts p).getD 0
  let child := who.parent.isSome
  let carve (i v : Nat) : Nat := if child && own ovr i then v else 0
  let g : Region :=
    { part := part, rcb := rcb, rcbPa := pa, ovr := ovr, eff := e, fileId := fileId
      depth := match who.parent with
        | some p => (s.region p).depth + 1
        | none => 0
      parent := who.parent.getD 0, by_ := who.by_, pred := who.pred, cookie := who.cookie, lqn := who.q, acc := s.recSeq
      pace := if e.dlmode == 0 then none else some {}
      carveV := carve 4 e.vault, carveH := carve 5 e.hbm, carveP := carve 6 e.power }
  let s := { s with regions := Tbl.put s.regions r g, nextRegion := (r + 1) % 2 ^ 32 }
  let s := if child then s else { s with parts := Tbl.put s.parts part { root := r, priv := who.priv } }
  let d : DRec := { kind := .start, region := r, part := part, lvl := s.recLevel r, seq := s.recSeq }
  let s := { s with recs := s.recs ++ [d], recSeq := s.recSeq + 1 }
  let s := s.rcbWord r 0x00 (rcbW w 0 % 2 ^ 24 + 2 ^ 24 * (g.depth % 256) + 2 ^ 32 * (rcbW w 0 / 2 ^ 32))
  -- tstart, tend and the reserved words take their first values
  let s := (List.range 13).foldl (fun s i => s.rcbWord r (0x98 + 8 * i) 0) ((s.rcb88 r).rcb90 r)
  ((s.rcb80 r).kick, r)

/-- A file read through a partition's mapping, page by page (R13, R83). -/
def State.fileVa (s : State) (l : Loc) (va off n : Nat) : Option (List Byte) :=
  let a := va + off
  if n = 0 then some []
  else
    (List.range ((a + n - 1) / 65536 - a / 65536 + 1)).foldr (fun i acc =>
      let lo := max a ((a / 65536 + i) * 65536)
      let hi := min (a + n) ((a / 65536 + i + 1) * 65536)
      match acc, (s.xlate l lo accRead).2 with
      | some r, .ok pa => if isHome pa then some (s.mem.bytes pa (hi - lo) ++ r) else none
      | _, _ => none) (some [])

/-- Whether some line of an RCB is poisoned (R18). -/
def State.rcbPoison (s : State) (pa : Nat) : Bool := s.linePoison pa || s.linePoison (pa + 128)
/-- Whether an RCB's region lives (R17). -/
def State.rcbBusy (s : State) (pa : Nat) : Bool := s.regions.any fun g => g.2.alive && g.2.rcbPa == pa

/-- A refusal other than BUSY and READ writes word 0x80 (R16, R18). -/
def State.refuse (s : State) (pa cause : Nat) : Launched :=
  .refused (s.devWrite (addrBytes (pa + 0x80) (leBytes 8 (RSt.refused.code + 16 * cause)))) cause true

/-- The checks of a launch in their order (R17, R18), from the RCB at a physical address; `l` is the spawning strand's
place. R83 does not say what counts as a launch for "least recently launched": here one that a later check refuses does, and a
child that inherits its parent's image is none of the file's (DESIGN CHOICE, assumption 85). -/
def State.tryLaunch (s : State) (who : Launcher) (l : Loc) (rcb pa : Nat) : Launched :=
  if s.rcbBusy pa then .refused s 0x02 false
  else if !isHome pa || s.rcbPoison pa then .refused s 0x09 false
  else
    let w : Rcb := (List.range 16).map fun i => s.mem.nat (pa + 8 * i) 8
    let ovr := bf (rcbW w 0) 43 32
    let named := effOf w
    let par := bf (rcbW w 1) 55 0
    let format : Bool := bf (rcbW w 0) 63 48 == 1 && rcbReserved w && named.ranges ovr &&
      match who.parent with
      | none => ovr == 0xFFF && par == 0 && isHome named.fdring
      | some p => match (s.xlate l par accRead).2 with
        | .ok q => q == (s.region p).rcbPa
        | .error _ => false
    let e := match who.parent with
      | some p => (s.region p).eff.inherit named ovr
      | none => named
    if !format then s.refuse pa 0x01
    else if 15 < ((who.parent.map fun p => (s.region p).depth + 1).getD 0) then s.refuse pa 0x03
    else if s.boxBad e who.parent then s.refuse pa 0x04
    else
      let file := match who.parent with
        | none => if isHome e.image then s.verifyImage e.image (s.fileAt e.image) else .bad
        -- an inherited image is the parent's file
        | some p =>
          if !own ovr 1 then .ok s (s.region p).fileId
          else match (s.xlate l e.image accRead).2 with
          | .ok q => s.verifyImage q (s.fileVa l e.image)
          | .error _ => .bad
      let rest (s : State) (im : Option (Nat × Image)) : Launched :=
        if s.budgetBad e ovr who.parent then s.refuse pa 0x05
        else if (match who.parent with
          | some p => e.lvl && !(s.region p).eff.balok
          | none => false) then s.refuse pa 0x06
        else if !s.dv.fdoms.contains e.fdom then s.refuse pa 0x07
        else match im with
          | none => s.refuse pa 0x08
          | some x => match x.2.roles.find? fun r => r.role == e.role with
            | none => s.refuse pa 0x08
            | some ro =>
              if !ro.fits (e.spad * 65536) || !ro.treeOk e ||
                  s.codeBad (x.1 * 256 + e.role) ro.codeBytes (s.lineage 17 (who.parent.getD 0)) then s.refuse pa 0x08
              else
                let a := s.accept who w rcb pa ovr e x.1
                .ok a.1 a.2
      match file with
      | .wait => .wait
      | .bad => rest s none
      | .ok s id =>
        let im : Image := (Tbl.find s.images id).getD {}
        if s.placeBad e im then s.refuse pa 0x04 else rest s (some (id, im))

/-! ### Launches from a queue and by the management controller (R73, R455) -/

/-- A launch entry, or a launch by the management controller, which has no queue pair (R73, R83, R455). -/
def execLaunch (q : Nat) (rcb : Nat) (cookie : Word) (priv : Bool) (s : State) : Out :=
  -- the dispenser holds 65,536 records at most (R84)
  if 65536 ≤ s.recs.length then ok (s.schedIn 1 (.launch q rcb cookie priv))
  else
  let s' := { s with dv := { s.dv with launches := s.dv.launches + 1 } }
  match s'.tryLaunch { q := if priv then none else some q, cookie := cookie, priv := priv } ⟨0, 0⟩ rcb rcb with
  | .ok s _ => ok s
  | .refused s cause _ => ok (if priv then s else s.postOwed q 3 cause 0 0 cookie s.tmNow)
  | .wait => ok (s.schedIn 1 (.launch q rcb cookie priv))

/-! ### The children of a batch (R158 to R161) -/

/-- Counts the children of a region, and writes the count (R14, R160). -/
def State.kidsBy (s : State) (r : Nat) (f : Nat → Nat) : State := (s.updRegion r fun g => { g with kids := f g.kids }).rcb90 r

/-- Puts the next launch of a batch on the agenda, where its window admits one (R160). -/
def State.nextChild (s : State) (l : Loc) : State :=
  let b := (s.ctx l).batch
  if b.active && b.launched < b.n && b.launched < b.base + 256 && !s.agenda.any (fun e => e.2 == .childLaunch l) then
    s.schedFree 1 (.childLaunch l)
  else s

/-- Puts the next delivery of a batch on the agenda, where the entry at its base is complete (R160). -/
def State.nextDelivery (s : State) (l : Loc) : State :=
  let b := (s.ctx l).batch
  if b.active && b.doneI.contains b.base && !s.agenda.any (fun e => e.2 == .childDelivery l) then
    s.schedFree 1 (.childDelivery l)
  else s

/-- A batch launches its next child (R159, R160): it is counted in, and a refused one's entry is complete at once. -/
def execChildLaunch (l : Loc) (s : State) : Out :=
  let c := s.ctx l
  let b := c.batch
  if !b.active || b.n ≤ b.launched || b.base + 256 ≤ b.launched then ok s
  else if 65536 ≤ s.recs.length || s.xlWaits l (b.arr + 256 * b.launched) then ok (s.schedIn 1 (.childLaunch l))
  else
    let i := b.launched
    let va := b.arr + 256 * i
    let who : Launcher :=
      { parent := some c.region, by_ := some (l.tile, i), pred := if b.chain && i != 0 then Tbl.find b.kids (i - 1) else none }
    let tr := s.xlate l va accRead
    let s' := { tr.1 with dv := { tr.1.dv with launches := tr.1.dv.launches + 1 } }
    let res := match tr.2 with
      | .error _ => Launched.refused s' 0x09 false
      | .ok pa => s'.tryLaunch who l va pa
    let count (s : State) (f : Batch → Batch) : State :=
      let s := (s.updCtx l fun c => { c with batch := f { c.batch with launched := i + 1 } }).kidsBy c.region (· + 1)
      (s.nextDelivery l).nextChild l
    match res with
    | .ok s r => ok (count s fun b => { b with kids := Tbl.put b.kids i r })
    | .refused s cause written =>
      ok (count s fun b =>
        let b := { b with doneI := i :: b.doneI }
        if written then b
        else { b with
          nunw := min (b.nunw + 1) 0xFFFFFF
          fcause := if b.nunw = 0 then cause else b.fcause
          first := if b.nunw = 0 then i else b.first })
    | .wait => ok (s.schedIn 1 (.childLaunch l))

/-- The child at the window base is delivered: it is counted out and wakes a sleep, and the last one completes the token
(R160). -/
def execChildDelivery (l : Loc) (s : State) : Out :=
  let c := s.ctx l
  let b := c.batch
  if !b.active || !b.doneI.contains b.base then ok s
  else
    let last := b.base + 1 == b.n
    let s := s.updCtx l fun c => { c with batch := { c.batch with
      base := b.base + 1, doneI := b.doneI.filter (· != b.base), kids := Tbl.del b.kids b.base, news := b.news + 1
      active := !last } }
    let s := (s.kidsBy c.region (· - 1)).sched s.tick (.sleepWake l)
    let s := if last then s.tokDone l b.tok ((s.ctx l).now s.tick) else s
    ok ((s.nextDelivery l).nextChild l)

end Sys2Proof.Machine
end

