-- ==== Sys2Proof/Machine/Dispense.lean ====
section
/-! DEFINITION. The dispenser: which records can be placed, placing and loading, starting strands, pre-emption with its
spills and reloads (R21 to R23, R62 to R65, R84 to R88, R153 to R155, R162, R458 to R461). -/

namespace Sys2Proof.Machine

/-- No partition: what a pre-emption that brings nothing in names (R219). -/
def noPart : Nat := 64

/-! ### Tiles and banks (R22, R23, R33, R87) -/

/-- Tiles of the slots that start (R21). -/
def Eff.startTiles (e : Eff) : List Nat := if e.strt then [tileOf e.ox e.oy e.oz] else e.tilesOf

/-- Whether R23 lets a region start on a tile: no strand of its partition is there, and no other region holds it. -/
def State.tileFree (s : State) (r t : Nat) : Bool :=
  let l : Loc := ⟨t, (s.region r).part⟩
  !s.heldFrom r t && !(s.holds l && ((s.ctx l).live || (s.ctx l).starting))

/-- The other partition whose strand stands on a tile, in its foreground bank or placed in its shadow bank, and the level of
that strand. -/
def State.taken (s : State) (t p : Nat) : Option (Nat × Nat) :=
  let k := s.core t
  let at_ (c : Ctx) (b : Bool) : Option (Nat × Nat) := match c.part with
    | some x => if x != p && b then some (x, s.recLevel c.region) else none
    | none => none
  (at_ k.fg (k.fg.live || k.fg.starting)).orElse fun _ => at_ k.bg k.bg.starting
/-- That partition. -/
def State.takenBy (s : State) (t p : Nat) : Option Nat := (s.taken t p).map (·.1)

/-- Whether a bank of the tile is the partition's or free (R33). -/
def State.bankOk (s : State) (t p : Nat) : Bool :=
  s.holds ⟨t, p⟩ || (s.core t).fg.part.isNone || (s.core t).bg.part.isNone

/-- Brings a partition's bank to the foreground of a tile whose foreground strand, if any, is idle. -/
def State.takeFg (s : State) (l : Loc) : State :=
  let k := s.core l.tile
  if !s.inFg l && k.bg.part == some l.part && (s.takenBy l.tile l.part).isNone then
    s.setCore l.tile { k with fg := k.bg, bg := k.fg }
  else s

/-- Whether that is possible, or done. -/
def State.fgReady (s : State) (l : Loc) : Bool := s.inFg l || (s.holds l && (s.takenBy l.tile l.part).isNone)

/-- Tiles on which strands of a partition stand. -/
def State.strandTiles (s : State) (p : Nat) : List Nat :=
  ((s.placesOf p).filter fun l => (s.ctx l).live || (s.ctx l).starting).map (·.tile)

/-! ### Room for code (R65) -/

/-- The lowest base of a role's code in an instruction store: its own where it is resident, else the first free pages. R65 does
not say which base a role takes: here the lowest one at which its pages are free, and a start waits where the free pages do not
stand together (DESIGN CHOICE, assumption 84). -/
def Core.codeBase (k : Core) (key size : Nat) : Option Nat :=
  match Tbl.find k.roles key with
  | some x => some x.1
  | none => ((List.range 48).map (· * 4096)).find? fun b =>
      b + size ≤ istoreSize && k.roles.all fun e => e.2.1 + e.2.2 ≤ b || b + size ≤ e.2.1

/-- Whether the spill engine is at work on a partition's bank of a tile (R460). -/
def State.spilling (s : State) (l : Loc) : Bool :=
  (s.core l.tile).bg.part == some l.part && s.agenda.any fun e => e.2 == .spillComplete l.tile

/-- Whether the code of a partition's context has to stay on a tile where room is needed: it may go where the context has been
spilled, is being spilled, or is to be swapped out (`outs`) (R65, R460). -/
def State.codeStays (s : State) (outs : List Nat) (t p : Nat) : Bool :=
  !outs.contains p && (s.spilled ⟨t, p⟩).isNone && !s.spilling ⟨t, p⟩

/-- Whether some region, other than `r`, whose partition counts uses a role on a tile (R65). -/
def State.roleUsed (s : State) (counts : Nat → Bool) (t key r : Nat) : Bool :=
  s.regions.any fun g => g.1 != r && g.2.alive && g.2.codeKey == key && g.2.eff.inBox t && counts g.2.part

/-- A tile on which a role's code has its base; where that needs the room, the code of the contexts that are swapped out is
evicted; none where there is no room (R65, R460). R65 evicts for a shadow swap; here a start that is none, and a reload, take
that room as well, and are not withheld (DESIGN CHOICE, assumption 84). -/
def State.roomFor (s : State) (outs : List Nat) (t : Nat) (k : Core) (key size : Nat) : Option Core :=
  let k := if (k.codeBase key size).isSome then k
    else { k with roles := k.roles.filter fun e => s.roleUsed (s.codeStays outs t) t e.1 0 }
  (k.codeBase key size).map fun b => { k with roles := Tbl.put k.roles key (b, size) }

/-- A tile with a role's code at its base. -/
def Core.fill (k : Core) (key : Nat) (ro : Role) : Core :=
  { k with istore := Mem.setMany k.istore (addrBytes (Tbl.get (0, 0) k.roles key).1 (ro.code.flatMap bytesOfWord)) }

/-- Whether a region's code has room on every tile of its box (R65, R85). -/
def State.codeRoom (s : State) (outs : List Nat) (g : Region) (ro : Role) : Bool :=
  g.eff.tilesOf.all fun t => (s.roomFor outs t (s.core t) g.codeKey ro.codeBytes).isSome

/-- The roles that a partition's regions have on a tile, loaded or loading. -/
def State.tileRoles (s : State) (p t : Nat) : List (Nat × Role) :=
  (s.regions.filter fun g => g.2.part == p && g.2.alive && g.2.eff.inBox t && (g.2.started || g.2.loading != 0)).filterMap
    fun g => (s.roleOf g.1).map fun ro => (g.2.codeKey, ro)

/-- A tile with the code of all of them, reloaded from the verified image cache; none where there is no room (R461). -/
def State.reloadCore (s : State) (p : Nat) (outs : List Nat) (t : Nat) : Option Core :=
  (s.tileRoles p t).foldl (fun k x => k.bind fun k =>
    (s.roomFor outs t k x.1 x.2.codeBytes).map fun k => k.fill x.1 x.2) (some (s.core t))

/-! ### Whether a record can be placed (R85 to R88, R155, R162) -/

/-- Tiles that a record starts on: none for a task, which may take any idle slot. -/
def State.recTiles (s : State) (d : DRec) : List Nat :=
  match d.kind with
  | .start => (s.region d.region).eff.startTiles
  | .task _ => []
  | .resume => s.strandTiles d.part

/-- Whether a record is considered before another (R85). -/
def DRec.before (a b : DRec) : Bool := b.lvl < a.lvl || (a.lvl == b.lvl && a.seq < b.seq)

/-- Whether the dispenser considers a record: of a context that is halted or swapped out it places none but the resume record,
and nothing waits behind the others (R155; DEDUCED, assumption 40). -/
def State.considers (s : State) (d : DRec) : Bool :=
  !d.placed && (d.kind == RKind.resume || (s.part d.part).st == .active)

/-- Tiles on which an earlier record waits (R85). -/
def State.waitedTiles (s : State) (d : DRec) : List Nat :=
  (s.recs.filter fun x => x.before d && s.considers x).flatMap s.recTiles

/-- What stands before a record. -/
inductive Ready2 where
  | go
  | wait
  /-- strands of other partitions, all of lower effective priority, on its tiles; whether they are ballast tasks only -/
  | pre (ps : List Nat) (ballast : Bool)
deriving DecidableEq, Repr

/-- The strands of other partitions on a record's tiles (R87, R88). -/
def State.inTheWay (s : State) (p lvl : Nat) (ts : List Nat) : Ready2 :=
  let taken := ts.filterMap fun t => s.taken t p
  if taken.isEmpty then .go
  else if lvl == 0 || taken.any fun x => lvl ≤ x.2 then .wait
  else .pre (taken.map (·.1)).eraseDups (taken.all fun x => x.2 == 0)

/-- Whether ballast records are dispatched: balen is 1 and Geyser's gate is open (R88). -/
def State.ballastOpen (s : State) : Bool := s.dv.cfg.balen && s.gov.gate

/-- Whether the four core rails are on (R221). -/
def Power.coresOn (p : Power) : Bool := (List.range 4).all fun n => p.on.contains n

/-- Whether a chained child's predecessor lets it start (R162). -/
def State.predOk (s : State) (g : Region) : Bool :=
  match g.pred with
  | some p => (s.region p).fired || !(s.region p).alive
  | none => true
/-- Whether a region is the predecessor of a later child of its chained batch (R162). -/
def State.hasDependent (s : State) (g : Region) : Bool :=
  match g.by_ with
  | some x =>
    let b := (s.ctx ⟨x.1, g.part⟩).batch
    b.active && b.chain && x.2 + 1 < b.n
  | none => false

/-- What stands before a start record (R23, R65, R85 to R88, R162). -/
def State.startReady (s : State) (d : DRec) : Ready2 :=
  let g := s.region d.region
  let ts := g.eff.startTiles
  match s.roleOf d.region with
  | none => .wait
  | some ro =>
    if (s.part d.part).st == .active && s.dv.power.coresOn && s.predOk g &&
        (!s.hasDependent g || (s.freeCell g.eff.oz).isSome) && (ts.all fun t => !s.hotFor d.region t) &&
        (d.lvl != 0 || s.ballastOpen) && (ts.all fun t => s.tileFree d.region t) &&
        !(let w := s.waitedTiles d; ts.any fun t => w.contains t) then
      match s.inTheWay d.part d.lvl ts with
      | .go => if (ts.all fun t => s.bankOk t d.part) && s.codeRoom [] g ro then .go else .wait
      | .pre ps b => if s.codeRoom ps g ro then .pre ps b else .wait
      | .wait => .wait
    else .wait

/-- Whether a context's place needs no reload: its bank has been reloaded already, or has never been spilled. -/
def State.inBank (s : State) (l : Loc) : Bool := s.holds l && !s.spilling l

/-- Whether the join cells that a swapped-out context has saved are free, or held by partitions that make room for it (R423; what
a resumption whose cells are taken does the spec does not say: here it waits, DESIGN CHOICE, assumption 90). -/
def State.cellsFree (s : State) (p : Nat) (outs : List Nat) : Bool :=
  (s.part p).cells.all fun e => !s.cellKept e.1 && match Tbl.find s.cells e.1 with
    | some c => outs.contains (s.region c.region).part
    | none => true

/-- What stands before a resume record: each of its tiles needs a free bank (R461). -/
def State.resumeReady (s : State) (d : DRec) : Ready2 :=
  let ls := s.placesOf d.part
  if (ls.all fun l => s.inBank l ||
        ((s.spilled l).isSome && ((s.core l.tile).fg.part.isNone || (s.core l.tile).bg.part.isNone))) &&
      (d.lvl != 0 || (s.ballastOpen && (s.strandTiles d.part).all fun t => !s.hotFor d.region t)) &&
      !(let w := s.waitedTiles d; (s.strandTiles d.part).any fun t => w.contains t) then
    match s.inTheWay d.part d.lvl (s.strandTiles d.part) with
    | .go => if s.cellsFree d.part [] then .go else .wait
    | .pre ps b => if s.cellsFree d.part ps then .pre ps b else .wait
    | .wait => .wait
  else .wait

/-! ### Pre-emption (R87, R88, R458, R459) -/

/-- Whether a swap is in progress on a tile. -/
def State.swapOn (s : State) (t : Nat) : Bool :=
  s.agenda.any fun e => match e.2 with
    | .bankExchange p q => (s.placesOf p).any (fun l => l.tile == t) || (s.placesOf q).any fun l => l.tile == t
    | _ => false

/-- Whether a partition can be swapped out for another that wants some tiles: the shadow banks of those are free or the
other's, and none of its own tiles holds a spilled context or has a swap in progress (R87, R459, R460). -/
def State.canSwap (s : State) (p inc : Nat) (ts : List Nat) : Bool :=
  ((s.part p).st == .active || (s.part p).st == .halted) &&
    (s.placesOf p).all fun l =>
      let k := s.core l.tile
      k.spill.isNone && !s.swapOn l.tile && (!s.inFg l || !ts.contains l.tile || k.bg.part.isNone || k.bg.part == some inc)

/-- The yield event for the ballast strands of a partition (R88). -/
def State.yieldAll (s : State) (p : Nat) : State :=
  (s.placesOf p).foldl (fun s l =>
    if (s.ctx l).live && (s.region (s.ctx l).region).eff.lvl then s.uiRaise l 1 0 else s) s

/-- Tick P of a swap: the outgoing context's clock, words and events stop, its buffers publish, and the banks exchange 160
ticks later at the earliest (R442, R458); a halted context goes out as it is (R459). -/
def State.orderSwap (s : State) (p inc : Nat) : State :=
  let s :=
    if (s.part p).st == .active then
      let s := (s.placesOf p).foldl (fun s l => s.publish l) s
      let s := (s.freezeClock p).updPart p fun q => { q with st := .swapping }
      s.freezeEvents p
    else s
  (s.updPart p fun q => { q with swapAt := s.tick, incoming := some inc }).schedIn 160 (.bankExchange p inc)

/-- Swaps a context out for another; ballast strands of it are told to yield (R88). -/
def State.swapOut (s : State) (p inc : Nat) : State := (s.yieldAll p).orderSwap p inc

/-- Whether a context that is swapped out has drained: every write is performed, and has changed its bytes (R442, R458). A
vector that a stalled tree operation has still to deliver stays with the context, with those pushed behind it. -/
def State.drained (s : State) (p : Nat) : Bool :=
  (s.placesOf p).all fun l =>
    let c := s.ctx l
    c.pubs.isEmpty && c.accOut == 0 && (c.cq.all fun e => e.2.all fun x => x.fin.isSome) &&
      (c.pushes.all fun x => x.data.isNone || c.pushes.any fun y => y.slot == x.slot && y.data.isNone && y.idx < x.idx) &&
      c.spw.all fun e => e.1 ≤ s.engNow l

/-- A resume record for a partition, at the effective priority of its RCB (R461). R84 names start and task records alone; here
a resume record counts toward the 65,536 too, and is itself never withheld (DESIGN CHOICE, assumption 73). -/
def State.resumeRec (s : State) (p : Nat) : State :=
  let d : DRec := { kind := .resume, region := (s.part p).root, part := p, lvl := s.recLevel (s.part p).root, seq := s.recSeq }
  { s with recs := s.recs ++ [d], recSeq := s.recSeq + 1 }

/-- A reloaded context takes the foreground of its tiles and goes on with its join cells, once all of them are free of other
strands (R423, R458, R461). -/
def State.swapIn (s : State) (p : Nat) : State :=
  let ls := s.placesOf p
  let cs := (s.part p).cells
  let ready := (s.part p).st == .swapped && (ls.all fun l => s.inBank l && (!(s.ctx l).live || s.fgReady l)) &&
    cs.all fun e => !Tbl.has s.cells e.1
  if ready then
    let s := ls.foldl (fun s l => if (s.ctx l).live || (s.ctx l).starting then s.takeFg l else s) s
    let s := { s with
      cells := cs.foldl (fun (t : Tbl Cell) (e : Nat × Cell) => Tbl.put t e.1 e.2) s.cells
      recs := s.recs.filter fun x => !(x.kind == RKind.resume && x.part == p) }
    (s.updPart p fun q => { q with cells := [] }).goOn p
  else s

/-- Swaps out what stands in the way of a strand or a context that waits in the shadow banks of some tiles, where that is
possible now (R22, R87, R461). -/
def State.clearWay (s : State) (p lvl : Nat) (ts : List Nat) : State :=
  match s.inTheWay p lvl ts with
  | .pre ps _ => if ps.all fun q => s.canSwap q p ts then ps.foldl (fun s q => s.swapOut q p) s else s
  | .go | .wait => s

/-- The join cells of a context that leaves its tiles are saved with it (R423). -/
def State.saveCells (s : State) (p : Nat) : State :=
  let mine (e : Nat × Cell) : Bool := (s.region e.2.region).part == p
  let t : State := { s with cells := s.cells.filter fun e => !mine e }
  t.updPart p fun q => { q with cells := q.cells ++ s.cells.filter mine }

/-- The banks exchange on every tile on one tick, once the outgoing context has drained; what it has left freezes, its bank
is spilled, and the incoming context issues (R458 to R460). A reloaded context that is still kept out makes room for itself. -/
def execBankExchange (part incoming : Nat) (s : State) : Out :=
  if part == incoming then
    let s := s.swapIn part
    if (s.part part).st == .swapped then
      ok ((s.clearWay part (s.recLevel (s.part part).root) (s.strandTiles part)).schedIn 1 (.bankExchange part part))
    else ok s
  else if (s.part part).st == .swapping && !s.drained part then ok (s.schedIn 1 (.bankExchange part incoming))
  else
    let ls := s.placesOf part
    let s := ls.foldl State.landAt s
    let s := ls.foldl (fun s l =>
      if s.inFg l then
        let k := s.core l.tile
        s.setCore l.tile { k with fg := k.bg, bg := k.fg }
      else s) s
    let s := (s.updPart part fun q => { q with
      st := if q.st == .swapping then .swapped else q.st
      out := q.st != .swapping, incoming := none }).freezeEvents part
    let s := s.saveCells part
    let s := if (s.part part).st == .swapped then s.resumeRec part else s
    -- the spill goes to its area in class 7
    let s := ls.foldl (fun s l => s.packet part [(s.ctx l).leg 7 (some l.tile) none] (.spillComplete l.tile)) s
    ok (s.swapIn incoming).kick

/-- The spill of a tile ends: its shadow bank is free (R460). -/
def execSpillComplete (tile : Nat) (s : State) : Out :=
  let k := s.core tile
  match k.bg.part with
  | some p =>
    let pt := s.part p
    if (pt.st == .swapped || (pt.st == .halted && pt.out)) && k.spill.isNone then
      ok (s.setCore tile { k with bg := {}, spill := some k.bg }).kick
    else ok s
  | none => ok s

/-- Whether what stands in a record's way can be swapped out now (R87). -/
def State.canPreempt (s : State) (d : DRec) (ps : List Nat) : Bool :=
  let ts := s.recTiles d
  (ps.all fun p => s.canSwap p d.part ts) && ts.all fun t => s.bankOk t d.part

/-! ### Placing a start record (R63 to R65, R102, R162) -/

/-- Chunks of 128 bytes of a role's payload: code, the bytes of DATA, BSS ranges, knots and streams (R63). -/
def Role.chunks (r : Role) : Nat :=
  let data := r.data.foldl (fun n d => n + d.2.length) 0
  let n := 12 * r.code.length + data + 8 * r.bss.length + (if r.knots.isSome then 16 else 0) +
    (if r.streams.isEmpty then 0 else 512)
  (n + 127) / 128

/-- A record is placed: it stays in the dispenser until its region has started, or its context goes on (R16, R84). -/
def State.mark (s : State) (d : DRec) : State :=
  { s with recs := s.recs.map fun x => if x == d then { x with placed := true } else x }

/-- Places a start record: banks, code room and a trigger cell are taken, quads wake, and loading begins (R63, R102). -/
def State.placeStart (s : State) (d : DRec) : State :=
  let g := s.region d.region
  let s := s.mark d
  let s := match s.freeCell g.eff.oz with
    | some h =>
      State.updRegion { s with cells := Tbl.put s.cells h ⟨d.region, 0, true⟩ } d.region fun g => { g with cell := some h }
    | none => s
  let s := g.eff.tilesOf.foldl (fun s t =>
    let s := (s.claimBank t d.part).wakeQuad t
    match s.roleOf d.region with
    | some ro => s.setCore t ((s.roomFor [] t (s.core t) g.codeKey ro.codeBytes).getD (s.core t))
    | none => s) s
  let s := g.eff.startTiles.foldl (fun s t =>
    (s.updCtx ⟨t, d.part⟩ fun c => { c.idle with starting := true, region := d.region }).takeFg ⟨t, d.part⟩) s
  let s := s.updRegion d.region fun g => { g with loading := 1, loaded := [] }
  let seeds := ((s.roleOf d.region).map fun ro => ro.seeds g.eff).getD []
  seeds.foldl (fun s t => s.schedFree 1 (.imageChunkSend d.region t 0)) s

/-- Makes way for a waiting record, where that is possible now. A region whose code has room is loaded in the shadow banks,
a context to be resumed is reloaded there, and what stands before it is swapped out once that is done, so that it issues on the
tick of the exchange (R87, R458, R461); otherwise the code of what is swapped out makes the room first (R65). -/
def State.preempt (s : State) (d : DRec) (ps : List Nat) : State :=
  if s.canPreempt d ps then
    match d.kind with
    | .resume => (s.mark d).schedFree 1 (.reloadComplete d.part)
    | .start | .task _ =>
      let g := s.region d.region
      if ((s.roleOf d.region).map fun ro => s.codeRoom [] g ro).getD false then s.placeStart d
      else
        let s := g.eff.tilesOf.foldl (fun s t => s.claimBank t d.part) s
        ps.foldl (fun s p => s.swapOut p d.part) s
  else s

/-- A region's start record that has not been placed. -/
def State.startRec (s : State) (r : Nat) : Option DRec := s.toPlace.find? fun d => d.kind == .start && d.region == r

/-- A start record is placed, pre-empts ballast tasks at once, or begins to wait for the pre-emption delay (R85, R87,
R88). -/
def State.tryStart (s : State) (r : Nat) : State :=
  match s.startRec r with
  | some d => match s.startReady d with
    | .go => s.placeStart d
    | .wait => s
    | .pre ps true => s.preempt d ps
    | .pre _ false =>
      if s.agenda.any fun e => e.2 == .preemptDelayExpiry r then s
      else s.schedIn ((s.dv.pdelay * 504 + tickUnits s.pnow - 1) / tickUnits s.pnow) (.preemptDelayExpiry r)
  | none => s

/-- The dispenser tries a start record (R85). -/
def execStartRecordPlace (region : Nat) (s : State) : Out := ok (s.tryStart region)

/-- The dispenser tries a ballast record, while the gate is open (R88). -/
def execBallastDispatch (region : Nat) (s : State) : Out :=
  if s.ballastOpen then ok (s.tryStart region) else ok s

/-- The delay of a waiting record is over: it pre-empts, and while some shadow bank is occupied it tries again on every
dispatch tick (R87). -/
def execPreemptDelayExpiry (region : Nat) (s : State) : Out :=
  let d := s.toPlace.find? fun d => d.region == region && (d.kind == .start || d.kind == .resume)
  match d with
  | some d =>
    let rr := if d.kind == RKind.resume then s.resumeReady d else s.startReady d
    match rr with
    | .pre ps _ =>
      if s.canPreempt d ps then ok (s.preempt d ps) else ok (s.schedIn 1 (.preemptDelayExpiry region))
    | .go => ok s.kick
    | .wait => ok s
  | none => ok s

/-! ### Tasks and recruits (R154, R155) -/

/-- A task record is placed on an idle slot of its region, while its strands are fewer than its budget and its grain is
the region's next (R85, R155). -/
def execTaskRecordPlace (region : Nat) (s : State) : Out :=
  match s.recs.find? fun d => d.region == region && (match d.kind with
    | .task _ => true
    | .start | .resume => false) with
  | some d =>
    let g := s.region region
    let w := s.waitedTiles d
    -- a ballast task there is swapped out, another strand is not (R22)
    let may (t : Nat) : Bool := match s.taken t d.part with
      | some x => d.lvl != 0 && x.2 == 0
      | none => true
    let slots := (s.idleSlots region).filter fun t => !w.contains t && may t && s.bankOk t d.part
    if (s.part d.part).st == .active && (d.lvl != 0 || s.ballastOpen) && (s.busySlots region).length < g.eff.tiles then
      match slots.head?, d.kind with
      | some t, .task st => ok (State.recruit { s with recs := s.recs.filter fun x => x != d } none t st).kick
      | _, _ => ok s
    else ok s
  | none => ok s

/-- A recruit or a task's strand starts at its target, every register at its reset value but three, once its quad is awake
and the tile is free of another partition's strand; a ballast task there is swapped out (R22, R102, R154, R155). -/
def execRecruitStart (tile : Nat) (st : Start) (s : State) : Out :=
  let p := (s.region st.region).part
  let l : Loc := ⟨tile, p⟩
  if !(s.ctx l).starting then ok s
  else if s.quadAwake tile && s.fgReady l then
    let s := (s.takeFg l).startStrand l st.region st.pc .elastic 1
    ok (s.updCtx l fun c =>
      ((c.put (.s 1 (BitVec.ofNat 64 st.s1))).put (.s 2 (BitVec.ofNat 64 st.s2))).put
        (.s st.dreg (BitVec.ofNat 64 st.cell)))
  else
    let s := match s.taken tile p with
      | some x => if x.2 == 0 && s.recLevel st.region != 0 && s.canSwap x.1 p [tile] then s.swapOut x.1 p else s
      | none => s
    ok ((s.wakeQuad tile).schedIn 1 (.recruitStart tile st))

/-! ### Loading (R62 to R64) -/

/-- Whether the network carries no other traffic than the loading of one region (R63). -/
def State.loadsAlone (s : State) (region : Nat) : Bool :=
  s.agenda.all fun e => match e.2 with
    | .imageChunkArrival r _ _ | .loadCompleteReport r _ => r == region
    | .homeRequestServe _ | .homeReplyArrival _ | .remoteAccessServe _ | .remoteAckArrival .. | .timedPacketArrival _
    | .messageArrival _ | .sendAckArrival .. | .treeContributionArrival .. | .treeResultArrival .. | .xbarRelease ..
    | .joinCellDecrement .. | .joinResult .. | .copySlotMove .. | .copyWriteReport .. | .recruitStart ..
    | .translationWalk .. | .childLaunch _ => false
    | _ => true

/-- The class-6 packet of a chunk to a tile, which comes no sooner after the chunk before it than one takes to pass; a
forward has the time of its route with no contention and, beside other traffic, a free delay (R63, R394). -/
def State.chunkTo (s : State) (region : Nat) (src : Option Nat) (t chunk : Nat) : State :=
  let r := s.legRoute { order := 0, src := src, dst := some t, bytes := 128 }
  match r.bad with
  | some x => s.schedIn 1 (.detourBlocked x (s.region region).part)
  | none =>
    let pass := 4 / r.rate
    let last := s.agenda.foldl (fun m e => match e.2 with
      | .imageChunkArrival n u _ => if n == region && u == t then max m (e.1 + pass) else m
      | _ => m) 0
    let fixed := src.isSome && s.loadsAlone region
    let s' := s.sched (max (s.tick + r.time + pass + (if fixed then 0 else s.delay)) last) (.imageChunkArrival region t ⟨chunk, false⟩)
    if fixed then s' else s'.tookDelay

/-- Whether R23 lets a placed region have a tile of its box: no other region of its partition has a strand on it or holds it,
and a bank is the partition's. -/
def State.boxTileFree (s : State) (r t : Nat) : Bool :=
  let l : Loc := ⟨t, (s.region r).part⟩
  s.holds l && !s.heldFrom r t && !(((s.ctx l).live || (s.ctx l).starting) && (s.ctx l).region != r)

/-- The base die delivers a chunk to a seed, and goes on with the next; loading begins once R23 gives the region every tile
of its box and every quad of it is ACTIVE (R63, R102). -/
def execImageChunkSend (region seed chunk : Nat) (s : State) : Out :=
  let g := s.region region
  match s.roleOf region with
  | some ro =>
    if !g.alive || g.loading == 0 then ok s
    else if chunk == 0 && !g.eff.tilesOf.all (s.boxTileFree region) then
      ok ((g.eff.tilesOf.foldl (fun s t => s.claimBank t g.part) s).schedIn 1 (.imageChunkSend region seed chunk))
    else if !g.eff.tilesOf.all s.quadAwake then
      ok ((g.eff.tilesOf.foldl State.wakeQuad s).schedIn (s.ticksOf 250) (.imageChunkSend region seed chunk))
    else
      let s := s.chunkTo region none seed chunk
      if chunk + 1 < ro.chunks then ok (s.schedFree 1 (.imageChunkSend region seed (chunk + 1))) else ok s
  | none => ok s

/-- What a role image makes of a tile: its code, its DATA and zeroed BSS in the scratchpad share, and the gang's knots (R54,
R63, R64); a strand takes its streams as it starts (R278). -/
def State.applyImage (s : State) (r t : Nat) : State :=
  match s.roleOf r with
  | none => s
  | some ro =>
    let g := s.region r
    let s := s.setCore t (((s.roomFor [] t (s.core t) g.codeKey ro.codeBytes).getD (s.core t)).fill g.codeKey ro)
    let inBss (a : Nat) : Bool := ro.bss.any fun b => b.1 ≤ a && a < b.1 + b.2
    let s := s.updCtx ⟨t, g.part⟩ fun c =>
      let c := ro.data.foldl (fun (c : Ctx) d => c.spLand (addrBytes d.1 d.2) []) c
      { c with
        sp := c.sp.filter fun e => !inBss e.1
        spPoison := c.spPoison.filter fun n => !(inBss (8 * n) && inBss (8 * n + 7)) }
    match ro.knots with
    | some k => s.updGang (gangOf t) fun x =>
        { x with lo := BitVec.ofNat 32 k.1, inv := BitVec.ofNat 32 k.2.1, g := BitVec.ofNat 8 k.2.2.1,
                 mode := BitVec.ofNat 8 k.2.2.2 }
    | none => s

/-- A tile stores a chunk whole and forwards it on its ports; after the last one it reports (R63, R64). One that arrives
with an uncorrectable link error halts the context, and comes again once the context has resumed (R64, R451). -/
def execImageChunkArrival (region tile : Nat) (c : ChunkIn) (s : State) : Out :=
  let chunk := c.chunk
  let g := s.region region
  match s.roleOf region with
  | some ro =>
    if !g.alive || g.loading == 0 then ok s
    else if c.err then
      -- links run on VDDF (R214, R215)
      let s := (s.railError 3).updRegion region fun g => { g with chunkErr := true }
      let s := s.trapEngine ⟨tile, g.part⟩ 4 cUncorrectable 0 0 0
      ok (s.sched ((s.part g.part).haltAt + 1) (.imageChunkArrival region tile ⟨chunk, false⟩))
    else
      let s := (ro.forwards g.eff tile).foldl (fun s d => s.chunkTo region (some tile) (neighbour tile d) chunk) s
      if chunk + 1 == ro.chunks then
        ok ((s.applyImage region tile).packet g.part [{ order := 0, src := some tile, dst := none }]
          (.loadCompleteReport region tile))
      else ok s
  | none => ok s

/-- The region-start boundary: the strands start together, with the streams bound on the tick before (R38, R64, R278). -/
def State.regionStart (s : State) (r : Nat) : State :=
  let g := s.region r
  match s.roleOf r with
  | none => s
  | some ro =>
    let kind : PKind := match ro.kind with
      | 0 => .compute
      | 1 => .exchange
      | _ => .elastic
    let ts := g.eff.startTiles
    let s := State.updRegion { s with recs := s.recs.filter fun d => !(d.kind == RKind.start && d.region == r) } r fun g =>
      { g with loading := 0 }
    let s := match g.cell with
      | some h => { s with cells := Tbl.put s.cells h ⟨r, ts.length, true⟩ }
      | none => s
    let s := ts.foldl (fun s t =>
      let l : Loc := ⟨t, g.part⟩
      ((s.takeFg l).startStrand l r ro.entry kind 0).startTimer l ro.entry) s
    s.stepStart r true

/-- A tile has its image; after the last one, with every quad ACTIVE and the tiles in the region's hands, the region
starts; what it pre-empts is swapped out now (R64, R87, R102, R458). -/
def execLoadCompleteReport (region tile : Nat) (s : State) : Out :=
  let g := s.region region
  if !g.alive || g.loading == 0 then ok s
  else
    let s := s.updRegion region fun g => { g with loaded := if g.loaded.contains tile then g.loaded else tile :: g.loaded }
    let n := (s.region region).loaded.length
    if n < g.eff.ex * g.eff.ey * g.eff.ez then ok s
    else if (g.eff.tilesOf.all s.quadAwake) && g.eff.startTiles.all fun t => s.fgReady ⟨t, g.part⟩ then
      ok (s.regionStart region)
    else ok ((s.clearWay g.part (s.recLevel region) g.eff.startTiles).schedIn 1 (.loadCompleteReport region tile))

/-! ### Resumption of a swapped-out context (R461) -/

/-- A resume record is placed: the context's banks are reloaded, in a time that is not fixed (R461). -/
def execResumeRecordPlace (part : Nat) (s : State) : Out :=
  match s.toPlace.find? fun d => d.kind == RKind.resume && d.part == part with
  | some d => match s.resumeReady d with
    | .go =>
      let s := s.mark d
      let s := (s.placesOf part).foldl (fun s l => s.wakeQuad l.tile) s
      ok (s.schedFree 1 (.reloadComplete part))
    | .wait => ok s
    | .pre ps true => ok (s.preempt d ps)
    | .pre _ false =>
      if s.agenda.any fun e => e.2 == .preemptDelayExpiry d.region then ok s
      else ok (s.schedIn ((s.dv.pdelay * 504 + tickUnits s.pnow - 1) / tickUnits s.pnow) (.preemptDelayExpiry d.region))
  | none => ok s

/-- The reload ends: the context stands in a bank of each of its tiles again, the code of its regions reloaded from the image
cache, and the swap-in follows 160 ticks later, after what stands in its way (R65, R88, R461). -/
def execReloadComplete (part : Nat) (s : State) : Out :=
  let ls := s.placesOf part
  let ts := s.strandTiles part
  let lvl := s.recLevel (s.part part).root
  let others := match s.inTheWay part lvl ts with
    | .pre ps _ => if ps.all fun p => s.canSwap p part ts then ps else []
    | .go | .wait => []
  if !(ls.all fun l => (s.spilled l).isSome → s.bankOk l.tile part && (s.reloadCore part others l.tile).isSome) then
    ok (s.schedIn 1 (.reloadComplete part))
  else if !(ls.all fun l => s.quadAwake l.tile) then
    ok ((ls.foldl (fun s l => s.wakeQuad l.tile) s).schedIn (s.ticksOf 250) (.reloadComplete part))
  else
    let s := ls.foldl (fun s l => match s.spilled l with
      | some c =>
        let k := (s.reloadCore part others l.tile).getD (s.core l.tile)
        let c := { c with cbase := (Tbl.get (c.cbase, 0) k.roles (s.region c.region).codeKey).1 }
        if k.fg.part.isNone then s.setCore l.tile { k with fg := c, spill := none }
        else s.setCore l.tile { k with bg := c, spill := none }
      | none => s) s
    let s := s.clearWay part lvl ts
    ok (s.schedIn 160 (.bankExchange part part))

end Sys2Proof.Machine
end

