-- ==== Sys2Proof/Machine/Retire.lean ====
section
/-! DEFINITION. The end of a region: retirement, its report, ending with a fault, and what a partition that ends leaves
(R16, R31, R101, R160, R474 to R479). -/

namespace Sys2Proof.Machine

/-- Places of a region's box. -/
def State.boxPlaces (s : State) (r : Nat) : List Loc :=
  (s.region r).eff.tilesOf.map fun t => ⟨t, (s.region r).part⟩
/-- Those whose context is the region's. -/
def State.ownPlaces (s : State) (r : Nat) : List Loc :=
  (s.placesOf (s.region r).part).filter fun l => (s.ctx l).region == r

/-! ### When a region retires (R474) -/

/-- The conditions of R474. -/
def State.canRetire (s : State) (r : Nat) : Bool :=
  let g := s.region r
  let st := (s.part g.part).st
  g.st == .running && (st == .active || st == .halting) && (s.busySlots r).isEmpty && g.kids == 0 &&
    !(s.recs.any fun d => d.region == r && d.part == g.part) &&
    (s.ownPlaces r).all fun l =>
      let c := s.ctx l
      c.noneBound (c.now s.tick) && !c.batch.active

/-- Whether everything that the region's ended strands left has been published and performed (R475). -/
def State.allPerformed (s : State) (r : Nat) : Bool :=
  (s.ownPlaces r).all fun l => (s.ctx l).pubs.isEmpty && (s.ctx l).accOut == 0

/-! ### Steps 2 to 5 of R475 -/

/-- What a bank still holds once its partition has ended: its scratchpad, its registers and its planes stand, for nobody to read,
until the quad leaves OFF or another partition takes the bank (R101, R102, R502, R504). -/
def Ctx.rest (c : Ctx) : Ctx :=
  let c := c.land ((c.pend.map (·.1) ++ c.spw.map (·.1)).foldl max 0)
  { s := c.s, p := c.p, m := c.m, x := c.x, v := c.v, a := c.a, fpst := c.fpst, sp := c.sp, spPoison := c.spPoison
    arr64 := { c.arr64 with ops := [], tokPc := [], again := none } }

/-- What a partition that has ended leaves: its banks are free, its quads that no other box covers are OFF, and its
translations, page-table root and events are gone (R101, R478, R479). The spec does not say whether a tile's ctl.ecct counters
and its launch counter, which stand outside the banks, are among the registers that OFF loses: they are kept (DESIGN CHOICE,
assumption 86). -/
def State.partEnd (s : State) (p : Nat) : State :=
  let ls := s.placesOf p
  let box := (s.region (s.part p).root).eff.tilesOf
  let gone (g : Nat × Gang) : Nat × Gang :=
    (g.1, { g.2 with tlb := g.2.tlb.filter (fun e => e.part != p), arrs := g.2.arrs.filter (fun a => a.1 != p) })
  let s := { s with
    agenda := s.agenda.filter (fun e => s.evPart e.2 != some p)
    stopEvs := s.stopEvs.map (fun (k : Nat × List (Nat × Ev)) => (k.1, k.2.filter fun e => s.evPart e.2 != some p))
    recs := s.recs.filter (fun d => d.part != p)
    cells := s.cells.filter (fun e => (s.region e.2.region).part != p)
    ptroots := Tbl.del s.ptroots p, wcache := s.wcache.filter (fun e => e.part != p), gangs := s.gangs.map gone }
  let s := ls.foldl (fun s l =>
    let s := s.setCtx l (s.ctx l).rest
    let k := s.core l.tile
    let s := s.setCore l.tile { k with tlb := k.tlb.filter fun e => e.part != p }
    if k.held.isEmpty then s else s.sched s.tick (.heldMessageReoffer l.tile)) s
  let s := { s with parts := Tbl.del s.parts p }
  let off := ((box.map quadOf).eraseDups).filter fun q =>
    !(s.rootBoxes.any fun e => e.tilesOf.any fun t => quadOf t == q)
  let clear (q : Nat) (k : Nat × Core) : Nat × Core :=
    if quadOf k.1 == q && k.2.fg.part.isNone && k.2.bg.part.isNone then (k.1, { k.2 with istore := [], roles := [], tlb := [] })
    else k
  let s := off.foldl (fun s q => ({ s with cores := s.cores.map (clear q) } : State).quadOff q) s
  s.kick

/-- Steps 2 to 5: the region's resources are freed, its carve returns, tend and word 0x80 are written, and the end is
reported: to the queue pair, or to the parent's window (R475, R476). `post`: a partition's completion is posted. -/
def State.endAs (s : State) (r : Nat) (st : RSt) (cause : Nat) (post : Bool) : State :=
  let g := s.region r
  let key := g.codeKey
  let keep (d : DRec) : Bool := !(d.region == r && d.part == g.part && d.kind != .resume)
  let s := { s with cells := s.cells.filter (fun e => e.2.region != r), recs := s.recs.filter keep }
  let s := s.updPart g.part fun q => { q with cells := q.cells.filter fun e => e.2.region != r }
  let s := (s.ownPlaces r).foldl (fun s l =>
    (s.updCtx l fun c => { c with recvT := [], ovf := [], trees := [], treeOps := [] }).changed l) s
  let drop (k : Nat × Core) : Nat × Core :=
    if g.eff.inBox k.1 && !s.roleUsed (fun _ => true) k.1 key r then (k.1, { k.2 with roles := Tbl.del k.2.roles key }) else k
  let s := { s with cores := s.cores.map drop }
  let s := s.updRegion r fun g => { g with
    pace := none, carveV := 0, carveH := 0, carveP := 0, tend := s.tmNow, cell := none, overb := false, loading := 0 }
  let s := (s.rcbWord r 0xA0 s.tmNow).setRSt r st cause
  if g.parent == 0 then
    let s := match g.lqn with
      | some q => if post then
          s.postOwed q (if st == RSt.retired then 1 else 2) cause r g.part g.cookie s.tmNow else s
      | none => s
    s.partEnd g.part
  else
    let s := match g.by_ with
      | some x =>
        let l : Loc := ⟨x.1, g.part⟩
        if Tbl.find (s.ctx l).batch.kids x.2 == some r then
          (s.updCtx l fun c => { c with batch := { c.batch with doneI := x.2 :: c.batch.doneI } }).nextDelivery l
        else s
      | none => s
    (s.sched s.tick (.regionRetire g.parent)).kick

/-- A region retires: what its strands left is published and performed, then steps 2 to 5 (R474 to R476). -/
def execRegionRetire (region : Nat) (s : State) : Out :=
  if !s.canRetire region then ok s
  else
    let s :=
      if (s.region region).retiring == 0 then
        ((s.ownPlaces region).foldl (fun s l => s.publish l) s).updRegion region fun g => { g with retiring := 1 }
      else s
    if s.allPerformed region then ok (s.endAs region .retired 0 true) else ok s

/-! ### Ending with a fault (R31, R443, R477) -/

/-- What a region's strands and engines hold is discarded: buffers, transfers, events; what has been written to the
scratchpads stays written (R31, R443, R477). -/
def State.discard (s : State) (r : Nat) : State :=
  let ls := s.ownPlaces r
  let mine (e : Ev) : Bool := evRegion e == some r || match evLoc e with
    | some l => ls.contains l
    | none => false
  let s := { s with
    agenda := s.agenda.filter (fun e => !mine e.2)
    stopEvs := s.stopEvs.map fun (k : Nat × List (Nat × Ev)) => (k.1, k.2.filter fun e => !mine e.2) }
  let s := s.updPart (s.region r).part fun q => { q with frozen := q.frozen.filter fun e => !mine e.2 }
  ls.foldl (fun s l =>
    let s := s.gangLeft l
    (s.updCtx l fun c =>
      { part := c.part, region := r, off := c.off, frozen := c.frozen, spad := c.spad, stops := c.stops
        sp := c.sp, spPoison := c.spPoison, spw := c.spw }).quadRest l.tile) s

/-- A region and its live descendants, deepest first. -/
def State.family (s : State) (r : Nat) : List Nat :=
  let ds := s.regions.filter fun g => g.2.alive && g.2.part == (s.region r).part && s.descends 17 g.1 r
  (sortBy (fun (a b : Nat × Region) => b.2.depth ≤ a.2.depth) ds).map (·.1)

/-- A region and every descendant of it end as FAULTED with a cause (R31, R477). -/
def State.endFamily (s : State) (r cause : Nat) (post : Bool) : State :=
  (s.family r).foldl (fun s x => (s.discard x).endAs x .faulted cause post) s

/-- Ends a partition as FAULTED (R221, R477, R479). -/
def State.endPart (s : State) (p cause : Nat) (post : Bool) : State :=
  let s := s.endFamily (s.part p).root cause post
  if Tbl.has s.parts p then s.partEnd p else s

/-- The cause of a partition's halt. -/
def Part.code (p : Part) : Nat := (p.cause.map fun c => c.2.2.2).getD 0

end Sys2Proof.Machine
end

