-- ==== Sys2Proof/Machine/TreeCol.lean ====
section
/-! DEFINITION. Reduction trees: their words, what arrives along their edges, and the trees that join devices (R244 to
R246, R417 to R422, R425, R426). -/

namespace Sys2Proof.Machine

/-! ### Slots and their operations -/

/-- Configuration of a slot. -/
def Ctx.tree (c : Ctx) (slot : Nat) : TreeCfg := Tbl.get {} c.trees slot
/-- Operations of a slot, oldest first. -/
def Ctx.treeList (c : Ctx) (slot : Nat) : List TreeOpSt := Tbl.get [] c.treeOps slot
/-- The k-th operation. -/
def Ctx.treeOp (c : Ctx) (slot k : Nat) : Option TreeOpSt := (c.treeList slot).find? fun o => o.k == k
/-- Changes the k-th operation, which is listed in its place when it is new. -/
def Ctx.updTree (c : Ctx) (slot k : Nat) (f : TreeOpSt → TreeOpSt) : Ctx :=
  let xs := c.treeList slot
  let ys := if xs.any fun o => o.k == k then xs.map fun o => if o.k == k then f o else o
    else sortBy (fun a b => a.k ≤ b.k) (xs ++ [f { k := k }])
  { c with treeOps := Tbl.set [] c.treeOps slot ys }
/-- Removes it. -/
def Ctx.delTree (c : Ctx) (slot k : Nat) : Ctx :=
  { c with treeOps := Tbl.set [] c.treeOps slot ((c.treeList slot).filter fun o => o.k != k) }

/-- Ports of a child mask. -/
def kidPorts (kids : Nat) : List Dir := ports.filter fun d => kids / 2 ^ portNo d % 2 = 1

/-- Whether a kind is xbar. -/
def isXbar : TreeKind → Bool
  | .xbar => true
  | .reduce .. | .allred .. | .bcast _ => false
/-- Whether a kind is reduce. -/
def isReduce : TreeKind → Bool
  | .reduce .. => true
  | .xbar | .allred .. | .bcast _ => false
/-- Whether a kind is bcast. -/
def isBcast : TreeKind → Bool
  | .bcast _ => true
  | .xbar | .allred .. | .reduce .. => false
/-- Payload bytes of a kind (R421). -/
def kindBytes (k : TreeKind) : Nat := if isXbar k then 0 else 128

/-! ### Combining (R244 to R246, R419) -/

/-- One lane. -/
def treeLane (op : TreeOp) (t : Ty) (a b : Nat) : Nat :=
  match op with
  | .add => if t == .f32 then (fAdd .f32 .ne false a b).bits else combine .add t a b
  | .min => if t == .f32 then (fMinMax .f32 false true a b).bits else combine .min t a b
  | .max => if t == .f32 then (fMinMax .f32 true true a b).bits else combine .max t a b
  | .and => a &&& b
  | .or => a ||| b
  | .xor => a ^^^ b
/-- Two payloads: nf is the OR (R246). -/
def treeCombine (k : TreeKind) (a b : Vec × Bool) : Vec × Bool :=
  match k with
  | .reduce op t | .allred op t => (vecOf 32 (List.zipWith (treeLane op t) (elems 32 a.1) (elems 32 b.1)), a.2 || b.2)
  | .bcast _ | .xbar => (a.1, a.2 || b.2)
/-- nf of a contribution: an FP32 element that is a NaN or an infinity (R246). -/
def ownNf (t : Ty) (v : Vec) : Bool := t == .f32 && (elems 32 v).any fun x => x / 2 ^ 23 % 256 == 255

/-! ### Peer trees (R425, R426) -/

/-- Fields of ctl.ptree. -/
def ptF (w : Word) (lo n : Nat) : Nat := (w.extractLsb' lo n).toNat
/-- The peer tree of a slot, when it is valid and joins the others at this tile. -/
def State.peerTree (s : State) (slot t : Nat) : Option Word :=
  let w := Tbl.get 0 s.dv.ptree slot
  if w.getLsbD 63 && ptF w 1 12 == t then some w else none
/-- Child devices in order. -/
def peerKids (w : Word) : List Nat := (List.range (min 3 (ptF w 61 2))).map fun i => ptF w (37 - 12 * i) 12
/-- Sends a tree payload to another device: from the root tile to its attach port in x, y, z order, and by the port of source
tile xor destination tile. The root tile at the other end, which no register of this device names, is taken to have this one's
number, so that the choice is port 0 (R424; DESIGN CHOICE, assumption 75). -/
def State.treeSend (s : State) (l : Loc) (slot dev : Nat) (kind : TreeKind) (v : Vec) (nf : Bool) : State :=
  s.toPort 0 l.tile
    { srcDev := s.dv.cfg.devno, srcTile := l.tile, srcPart := l.part, cls := 4, order := 0, rorder := 0, dev := dev,
      part := l.part, tile := l.tile, tag := slot, len := kindBytes kind, addr := 0,
      bytes := leBytes (kindBytes kind) v.toNat, pz := [], tok := 0, pc := 0, sent := s.tick, nf := nf }

/-! ### Progress of an operation -/

/-- ILLEGAL_OPERAND found by a tree or a combining tile (R417, R418). -/
def State.treeTrap (s : State) (l : Loc) (pc : Nat) : State := s.trapEngine l 4 cIllegalOperand pc 0 0

/-- Paired operations that differ halt the context; the operation stands still with it and continues with the same
message when the context resumes (R418, R451, R454). -/
def State.treeDiffer (s : State) (l : Loc) (pc : Nat) (e : Ev) : State :=
  let s := s.treeTrap l pc
  s.sched (max (s.tick + 1) (s.part l.part).haltAt) e

/-- An operation ends on tick x of the context: its token completes. -/
def State.treeEnd (s : State) (l : Loc) (slot : Nat) (o : TreeOpSt) (x : Nat) : State :=
  let s := s.updCtx l (·.delTree slot o.k)
  match o.tok with
  | some k => s.tokDone l k x
  | none => s

/-- A result is written at the end of tick n: vD, and nf to pE (R419, R420). -/
def State.treeWrite (s : State) (l : Loc) (o : TreeOpSt) (n : Nat) (v : Vec) (nf : Bool) : State :=
  (s.landWr l o.tok n (.v o.d 0xFFFFFFFF v)).landWr l o.tok n (.p o.e nf)

/-- A packet takes a tree edge, some ticks from now, round what blocks it (R96, R394, R421). -/
def State.treeEdge (s : State) (l : Loc) (d : Dir) (c : Nat) (kind : TreeKind) (ev : Ev) : State :=
  match s.edgeCost l.tile d (kindBytes kind) with
  | .error x => s.schedIn 1 (.detourBlocked x l.part)
  | .ok n => s.schedFree (c + n) ev

/-- A result or a release leaves for the children. -/
def State.treeDown (s : State) (l : Loc) (slot : Nat) (o : TreeOpSt) (v : Vec) (nf : Bool) : State :=
  (kidPorts ((s.ctx l).tree slot).kids).foldl (fun s d =>
    let m : Loc := ⟨neighbour l.tile d, l.part⟩
    s.treeEdge l d 0 o.kind
      (if isXbar o.kind then .xbarRelease m slot o.k else .treeResultArrival m slot o.k o.kind v nf)) s

/-- The k-th result reaches a member that has issued its word (R418 to R422). -/
def State.treeApply (s : State) (l : Loc) (slot : Nat) (o : TreeOpSt) (kind : TreeKind) (v : Vec) (nf : Bool) : State :=
  if kind != o.kind then
    s.treeDiffer l o.pc (if isXbar o.kind then .xbarRelease l slot o.k else .treeResultArrival l slot o.k o.kind v nf)
  else
  let n := (s.ctx l).now s.tick
  let s := s.treeDown l slot o v nf
  let s := match s.peerTree slot l.tile with
    | some w => (peerKids w).foldl (fun (s : State) d => s.treeSend l slot d o.kind v nf) s
    | none => s
  if isXbar o.kind then
    let s := s.treeEnd l slot o n
    match (s.ctx l).block with
    | .xbar x => if x == slot && o.tok.isNone then (s.updCtx l fun c => { c with block := .none }).uiPoll l else s
    | _ => s
  else (s.treeWrite l o n v nf).treeEnd l slot o (n + 1)

/-- A root's value stands `c` ticks from now: it is the result (R419, R422). -/
def State.treeTop (s : State) (l : Loc) (slot : Nat) (o : TreeOpSt) (c : Nat) (r : Vec × Bool) : State :=
  let n := (s.ctx l).now s.tick + c
  if isReduce o.kind then (s.treeWrite l o n r.1 r.2).treeEnd l slot o (n + 1)
  else s.schedIn c (if isXbar o.kind then .xbarRelease l slot o.k
    else .treeResultArrival l slot o.k o.kind r.1 r.2)

/-- The root tile of a device adds its child devices' results in order and sends on to the parent device, or has the
result (R426). -/
def State.treePeers (s : State) (l : Loc) (slot k : Nat) : State :=
  match (s.ctx l).treeOp slot k, s.peerTree slot l.tile with
  | some o, some w =>
    match o.dev with
    | some r =>
      let n := (peerKids w).length
      if (List.range n).all fun i => o.peersIn.any fun x => x.1 == i then
        let ins := (List.range n).filterMap fun i => o.peersIn.find? fun x => x.1 == i
        match ins.find? fun x => x.2.1 != o.kind with
        | some x =>
          (s.updCtx l (·.updTree slot k fun o => { o with peersIn := o.peersIn.filter fun y => y.1 != x.1 })).treeDiffer
            l o.pc (.peerTreeCombine l slot ⟨x.1, true⟩ o.kind x.2.2.1 x.2.2.2)
        | none =>
        let r := ins.foldl (fun r x => treeCombine o.kind r x.2.2) r
        let s := s.updCtx l (·.updTree slot k fun o => { o with dev := none })
        -- the root tile combines once the last of its contributions has come (R421)
        let c := if isXbar o.kind || (n = 0 && ((s.ctx l).tree slot).kids = 0) then 0 else 2
        if ptF w 49 12 = 0xFFF then s.treeTop l slot o c r
        else
          let s := s.treeSend l slot (ptF w 49 12) o.kind r.1 r.2
          if isReduce o.kind then s.treeEnd l slot o ((s.ctx l).now s.tick + c) else s
      else s
    | none => s
  | _, _ => s

/-- Once the member has issued its word and every child has contributed, the tile combines in the fixed order and sends to
its parent; a root has its device's result (R419, R421, R422). -/
def State.treeStep (s : State) (l : Loc) (slot k : Nat) : State :=
  match (s.ctx l).treeOp slot k with
  | some o =>
    let cfg := (s.ctx l).tree slot
    let kids := kidPorts cfg.kids
    if isBcast o.kind then
      -- a child of a bcast contributes nothing: what has come is of another kind (R418)
      match o.own, o.kidsIn with
      | true, x :: r => (s.updCtx l (·.updTree slot k fun o => { o with kidsIn := r })).treeDiffer l o.pc
          (.treeContributionArrival l slot k (portOf x.1) x.2.1 x.2.2.1 x.2.2.2)
      | _, _ => s
    else if !o.own || o.sent || !(kids.all fun d => o.kidsIn.any fun x => x.1 == portNo d) then s
    else
      let ins := kids.filterMap fun d => o.kidsIn.find? fun x => x.1 == portNo d
      match ins.find? fun x => x.2.1 != o.kind with
      | some x =>
        (s.updCtx l (·.updTree slot k fun o => { o with kidsIn := o.kidsIn.filter fun y => y.1 != x.1 })).treeDiffer
          l o.pc (.treeContributionArrival l slot k (portOf x.1) o.kind x.2.2.1 x.2.2.2)
      | none =>
      let r := ins.foldl (fun r x => treeCombine o.kind r x.2.2) (o.v, o.nf)
      let c := if kids.isEmpty || isXbar o.kind then 0 else 2
      let s := s.updCtx l (·.updTree slot k fun o => { o with sent := true })
      if cfg.up = 6 then
        match s.peerTree slot l.tile with
        | some _ => (s.updCtx l (·.updTree slot k fun o => { o with dev := some r })).treePeers l slot k
        | none => s.treeTop l slot o c r
      else
        let d := portOf cfg.up
        let s := s.treeEdge l d c o.kind
          (.treeContributionArrival ⟨neighbour l.tile d, l.part⟩ slot k (opposite d) o.kind r.1 r.2)
        if isReduce o.kind then s.treeEnd l slot o ((s.ctx l).now s.tick + c) else s
  | none => s

/-! ### Arrivals -/

/-- A child's contribution; one from a port that is no child's, or at a tile that is no member, halts the context (R417,
R419). -/
def execTreeContributionArrival (l : Loc) (slot k : Nat) (port : Dir) (kind : TreeKind) (v : Vec) (nf : Bool) (s : State) :
    Out :=
  let cfg := (s.ctx l).tree slot
  if cfg.up = 7 || cfg.kids / 2 ^ portNo port % 2 = 0 then ok (s.treeTrap l (s.ctx l).pc)
  else if k < cfg.n && ((s.ctx l).treeOp slot k).isNone then
    -- the operation that it pairs with, a bcast, is over at this tile (R418)
    ok (s.treeDiffer l (s.ctx l).pc (.treeContributionArrival l slot k port kind v nf))
  else
    let s := s.updCtx l (·.updTree slot k fun o => { o with kidsIn := o.kidsIn ++ [(portNo port, kind, v, nf)] })
    ok (s.treeStep l slot k)

/-- A result comes down the tree; it waits for the member's word where that has not issued (R419, R420). -/
def execTreeResultArrival (l : Loc) (slot k : Nat) (kind : TreeKind) (v : Vec) (nf : Bool) (s : State) : Out :=
  match (s.ctx l).treeOp slot k with
  | some o =>
    if o.own then ok (s.treeApply l slot o kind v nf)
    else ok (s.updCtx l (·.updTree slot k fun o => { o with res := some (kind, v, nf) }))
  | none => ok (s.updCtx l (·.updTree slot k fun o => { o with res := some (kind, v, nf) }))

/-- The tree barrier's release reaches a member (R422). -/
def execXbarRelease (l : Loc) (slot k : Nat) (s : State) : Out :=
  match (s.ctx l).treeOp slot k with
  | some o => if o.own then ok (s.treeApply l slot o .xbar 0 false) else ok s
  | none => ok s

/-- A child device's result enters at an attach port and goes to the root tile in x, y, z order; there it belongs to the first
operation that still lacks it (R424, R426). -/
def execPeerTreeCombine (l : Loc) (slot : Nat) (kid : PeerKid) (kind : TreeKind) (v : Vec) (nf : Bool) (s : State) : Out :=
  if !kid.entered then
    ok (s.packet l.part [{ order := 0, src := none, dst := some l.tile, bytes := kindBytes kind }]
      (.peerTreeCombine l slot { kid with entered := true } kind v nf))
  else
  let child := kid.child
  let c := s.ctx l
  let xs := c.treeList slot
  let k := match xs.find? fun o => !isBcast o.kind && !o.peersIn.any fun x => x.1 == child with
    | some o => o.k
    | none => xs.foldl (fun m o => max m (o.k + 1)) (c.tree slot).n
  let s := s.updCtx l (·.updTree slot k fun o => { o with peersIn := o.peersIn ++ [(child, kind, v, nf)] })
  ok (s.treePeers l slot k)

/-! ### The words (R403, R417 to R422) -/

/-- treecfg (R417). -/
def execTreecfg (slot : BitVec 4) (a : Src) (s : State) : Out :=
  let v := (s.src a).toNat
  let up := v % 8
  let kids := v / 256 % 64
  let e := (s.region s.c.region).eff
  let bad (d : Dir) : Bool := !e.inBox (neighbour s.me d) || s.harvested (neighbour s.me d)
  let busy := (s.c.treeList slot.toNat).any (·.own)
  let w := Tbl.get 0 s.dv.ptree slot.toNat
  let reserved := v / 8 % 32 != 0 || v / 2 ^ 14 != 0
  let edges := (up < 6 && (kids / 2 ^ up % 2 = 1 || bad (portOf up))) || (kidPorts kids).any bad
  guardT s (!reserved && !edges && !(up = 7 && kids != 0) && !busy &&
      !(up = 6 && w.getLsbD 63 && ptF w 1 12 != s.me)) cIllegalOperand <|
    ok ((s.seen a).updC fun c =>
      { c with trees := Tbl.set {} c.trees slot.toNat { kids := kids, up := up, n := (c.tree slot.toNat).n } })

/-- Whether the tile is the root of a slot's whole tree (R417, R426). -/
def State.treeRoot (s : State) (slot : Nat) : Bool :=
  (s.c.tree slot).up == 6 && (match s.peerTree slot s.me with
    | some w => ptF w 49 12 == 0xFFF
    | none => true)

/-- A tree word on a slot: the member's next operation (R418). `blk`: the strand waits for its release. -/
def treeIssue (s : State) (slot : Nat) (o : TreeOpSt) (blk : Bool) : State :=
  let l := s.here
  let k := (s.c.tree slot).n
  let s := s.updC fun c =>
    let c := match o.tok with
      | some t => c.bind t
      | none => c
    let c := c.updTree slot k fun x =>
      { x with own := true, kind := o.kind, v := o.v, nf := o.nf, tok := o.tok, d := o.d, e := o.e, pc := o.pc }
    { c with trees := Tbl.set {} c.trees slot { c.tree slot with n := k + 1 } }
  let s := if blk then s.blockIn (.xbar slot) else s
  match o.kind with
  | .bcast _ =>
    let s := s.treeStep l slot k
    if s.treeRoot slot then
      s.sched s.tick (.treeResultArrival l slot k o.kind o.v o.nf)
    else match (s.c.treeOp slot k).bind (·.res) with
      | some r => s.sched s.tick (.treeResultArrival l slot k r.1 r.2.1 r.2.2)
      | none => s
  | _ => s.treeStep l slot k

/-- The checks of a tree word: its token is free, the tile is a member, and a fifth operation of the slot stalls (R418). -/
def treeCheck (s : State) (slot : BitVec 4) (tok : Option (BitVec 3)) (k : Out) : Out :=
  let go : Out :=
    guardT s ((s.c.tree slot.toNat).up != 7) cIllegalOperand <|
      if 4 ≤ ((s.c.treeList slot.toNat).filter (·.own)).length then ok s.stall else k
  match tok with
  | some t => freeTok s t.toNat go
  | none => go

/-- reduce, allred and bcast: vA is read on the issue tick, but by a bcast at the root alone; a reduce writes vD at the root
alone (R419, R420). -/
def treeWord (s : State) (w : TreeW) (kind : TreeKind) : Out :=
  elastic s <| vcheck s [(w.d, 0), (w.a, 1)] <|
    let d := s.vnum w.d 0
    let a := s.vnum w.a 1
    let root := s.treeRoot w.slot.toNat
    let as := if isBcast kind && !root then [] else [a]
    let writes := !isReduce kind || root
    treeCheck s w.slot (some w.k) <|
      withV s as (if writes then some d else none) fun vs =>
        let fs := s.c.popFlags as
        fpCheck s fs <|
          let v := vs.getD 0 0
          let o : TreeOpSt :=
            { k := 0, kind := kind, v := v, nf := ownNf w.t v, tok := some w.k.toNat, d := d, e := s.c.pdst w.e.toNat,
              pc := s.pcNow }
          let s := (s.popAll as).putFlags 1 fs
          ok (treeIssue (if writes then s.claimV d (some w.k.toNat) else s) w.slot.toNat o false)

/-- reduce (R419). -/
def execReduce (op : TreeOp) (w : TreeW) (s : State) : Out := treeWord s w (.reduce op w.t)
/-- allred (R419). -/
def execAllred (op : TreeOp) (w : TreeW) (s : State) : Out := treeWord s w (.allred op w.t)
/-- bcast (R420). -/
def execBcast (w : TreeW) (s : State) : Out := treeWord s w (.bcast w.t)
/-- xbar (R422): a handler runs only its split form (R465). -/
def execXbar (tok : Option (BitVec 3)) (slot : BitVec 4) (s : State) : Out :=
  let go : Out :=
    treeCheck s slot tok <|
      ok (treeIssue s slot.toNat { k := 0, tok := tok.map (·.toNat), pc := s.pcNow } tok.isNone)
  elastic s <| if tok.isNone then noHandler s go else go

end Sys2Proof.Machine
end

