-- ==== Sys2Proof/Machine/Recover.lean ====
section
/-! DEFINITION. What the management controller does with a halted context, checkpoints and recovery, failed routers and
ports, the all-asleep detector and debug access (R97, R424, R447 to R450, R456, R461, R477 to R486). -/

namespace Sys2Proof.Machine

/-! ### Actions on a halted context (R449, R450, R477) -/

/-- A halted context that stands in its tiles goes on; one that is swapped out takes a resume record first (R449, R459,
R461). -/
def State.resumePart (s : State) (p : Nat) : State :=
  let pt := s.part p
  if pt.st != .halted then s
  else if pt.out then ((s.updPart p fun q => { q with st := .swapped, out := false, haltAt := 0 }).resumeRec p).kick
  else s.goOn p

/-- Resume (R449, R477). -/
def execResume (part : Nat) (s : State) : Out := ok (s.resumePart part)

/-- End a region: it and its descendants end as FAULTED with the halt's cause, and the rest is resumed (R477). -/
def execEndRegion (region : Nat) (s : State) : Out :=
  let g := s.region region
  let pt := s.part g.part
  if pt.st != .halted || !g.alive then ok s
  else if g.parent == 0 then ok (s.endPart g.part pt.code true)
  else ok ((s.endFamily region pt.code true).resumePart g.part)

/-- End the partition (R477). -/
def execEndPartition (part : Nat) (s : State) : Out :=
  let pt := s.part part
  if pt.st != .halted then ok s else ok (s.endPart part pt.code true)

/-- Debug access: with dbg, the management controller reads, or changes, a register of a halted strand (R82, R450). -/
def execDebugAccess (l : Loc) (op : DebugOp) (s : State) : Out :=
  if s.dv.cfg.dbg && (s.part l.part).st == .halted then
    match op with
    | .readS _ => ok s
    | .write w => ok (s.updCtx l fun c => c.put w)
  else ok s

/-- The detector raises ALL_ASLEEP (R456). -/
def execAllAsleep (part : Nat) (s : State) : Out :=
  if (s.part part).st == .active then ok (s.trapPart part (s.partStop part 7 cAllAsleep 0xFFF)) else ok s

/-! ### Checkpoints (R481, R483, R485) -/

/-- A word of a directory. -/
def State.dirWord (s : State) (d off : Nat) : Nat := s.mem.nat (d + off) 8
/-- Whether no line of a range is poisoned and all of it is vault or HBM memory. -/
def State.readable (s : State) (a n : Nat) : Bool :=
  isHome a && spaceOf a == spaceOf (a + n - 1) && !s.poison.any fun p => a / 128 ≤ p && p ≤ (a + n - 1) / 128

/-- The 32 words of a slot as the directory holds them (R481). -/
def State.slotWords (s : State) (a : Nat) : List Nat := (List.range 32).map fun i => s.dirWord a (8 * i)
/-- A word of a slot, by its offset. -/
def ckptWord (w : List Nat) (off : Nat) : Nat := w.getD (off / 8) 0
/-- The slot that holds a generation; without one, that of the highest generation that is not 0 (R483). -/
def pickSlot (gen : Option Nat) (a b : List Nat) : Option (List Nat) :=
  let (x, y) := (ckptWord a 0, ckptWord b 0)
  match gen with
  | some n => if n = 0 then none else if x = n then some a else if y = n then some b else none
  | none => if x = 0 ∧ y = 0 then none else if y < x then some a else some b

/-- Ranges of a slot, with where each lies in its copy: address, length, offset (R481). -/
def slotRanges (w : List Nat) : List (Nat × Nat × Nat) :=
  ((List.range (min 12 (ckptWord w 8 % 16))).foldl (fun (acc : List (Nat × Nat × Nat) × Nat) j =>
    let a := ckptWord w (0x38 + 16 * j) % 2 ^ 48
    let n := ckptWord w (0x40 + 16 * j)
    (acc.1 ++ [(a, n, acc.2)], acc.2 + n)) ([], 0)).1
/-- Whether a slot's local copy can be read (R483). -/
def State.localGood (s : State) (w : List Nat) : Bool :=
  s.readable (ckptWord w 0x18 % 2 ^ 48) (max 1 ((slotRanges w).foldl (fun n r => n + r.2.1) 0))

/-- Bytes that a device holds at a physical address: this one's own, or another's, which are not this device's (assumption
12). -/
def State.deviceRead (s : State) (dev pa n : Nat) : State × List Byte :=
  if dev == s.dv.cfg.devno then (s, s.devBytes pa n)
  else ({ s with fresh := s.fresh + 1 }, (List.range n).map fun i => Config.outsideByte (2 ^ 60 + dev * 2 ^ 48 + pa + i) s.fresh)
/-- The device and the address of a replica, as word 0x20 or 0x28 of a slot gives them (R481). -/
def repDev (r : Nat) : Nat := r / 2 ^ 48 % 4096
def repPa (r : Nat) : Nat := r % 2 ^ 48
/-- A slot as a replica holds it (R483); none where this device holds it and it cannot be read. -/
def State.replica (s : State) (r : Nat) : State × Option (List Nat) :=
  let x := s.deviceRead (repDev r) (repPa r) 256
  let w := (List.range 32).map fun i => leNat ((x.2.drop (8 * i)).take 8)
  (x.1, if repDev r == s.dv.cfg.devno && !s.readable (repPa r) 256 then none else some w)

/-- The slot that a restore takes, and the replica that gives its ranges, where the local copy does not: a slot of the
directory with its local copy; where either cannot be read, the replica of the higher generation (R483, R485). Where the
directory cannot be read the controller finds the replicas by what software wrote there (DESIGN CHOICE, assumption 76). -/
def State.ckptFind (s : State) (d : Nat) (gen : Option Nat) : State × Option (List Nat × Option Nat) :=
  match pickSlot gen (s.slotWords d) (s.slotWords (d + 256)) with
  | none => (s, none)
  | some w =>
    if s.readable d 512 && s.localGood w then (s, some (w, none))
    else
      let (p0, p1) := (ckptWord w 0x20, ckptWord w 0x28)
      let r0 := s.replica p0
      let r1 := r0.1.replica p1
      let has (w : List Nat) : Bool := match gen with
        | some n => ckptWord w 0 == n
        | none => ckptWord w 0 != 0
      (r1.1, match r0.2.filter has, r1.2.filter has with
        | some a, some b => if ckptWord b 0 ≤ ckptWord a 0 then some (a, some p0) else some (b, some p1)
        | some a, none => some (a, some p0)
        | none, some b => some (b, some p1)
        | none, none => none)

/-- The ranges are copied back, line by line, from the local copy or from a replica, which holds them behind its copy of the
slot (R481, R485). -/
def State.copyBack (s : State) (w : List Nat) (rep : Option Nat) : State :=
  (slotRanges w).foldl (fun s r =>
    (List.range (r.2.1 / 128)).foldl (fun s i =>
      let a := r.1 + 128 * i
      if isHome a then match rep with
        | none => s.devWrite (addrBytes a (s.devBytes (ckptWord w 0x18 % 2 ^ 48 + r.2.2 + 128 * i) 128))
        | some p =>
          let x := s.deviceRead (repDev p) (repPa p + 256 + r.2.2 + 128 * i) 128
          x.1.devWrite (addrBytes a x.2)
      else s) s) s

/-- Packets of a partition of this device, which a reset discards (R479); a stop record is none. -/
def State.packetOf (s : State) (p : Nat) : Ev → Bool
  | .homeRequestServe q => q.peer.isNone && q.loc.part == p
  | .messageArrival m => m.stop.isNone &&
      ((m.srcDev == s.dv.cfg.devno && m.srcPart == p) || (m.dev == s.dv.cfg.devno && m.part == p))
  | .timedPacketArrival q => q.part == p
  | _ => false

/-- A partition is reset: its packets are discarded and its regions end as FAULTED with the halt's cause; no completion is
posted (R479, R486). -/
def State.resetPart (s : State) (p : Nat) : State :=
  let code := (s.part p).code
  let out (k : Nat × Core) : Nat × Core := (k.1, { k.2 with held := k.2.held.filter fun m => m.part != p })
  let s := { s with
    agenda := s.agenda.filter (fun e => !s.packetOf p e.2), missQ := s.missQ.filter (fun q => q.peer.isSome || q.loc.part != p)
    cores := s.cores.map out }
  s.endPart p code false

/-- The launch of a slot's alternate RCBs, in order: the first one accepted is the relaunch (R485). -/
def State.relaunchAlt (s : State) (who : Launcher) : List Nat → Launched
  | [] => .refused s 0x04 true
  | a :: r => match s.tryLaunch who ⟨0, 0⟩ a a with
    | .refused t _ _ => t.relaunchAlt who r
    | x => x
/-- The relaunch of a slot's RCB, or of its alternates where the harvest map refuses its box (R485). -/
def State.relaunch (s : State) (who : Launcher) (a : Nat) (alts : List Nat) : Launched :=
  match s.tryLaunch who ⟨0, 0⟩ a a with
  | .refused t cause w =>
    let box := effOf ((List.range 16).map fun i => s.mem.nat (a + 8 * i) 8)
    if cause == 0x04 && box.tilesOf.any s.harvested then t.relaunchAlt who alts else .refused t cause w
  | x => x

/-- The RCB by which a recovery group names a partition (R484). -/
def State.partName (s : State) (p : Nat) : Nat := (s.part p).name.getD (s.region (s.part p).root).rcbPa
/-- Members of a partition's recovery group: device and partition RCB (R484). -/
def State.groupOf (s : State) (p : Nat) : List (Nat × Nat) :=
  (s.dv.groups.find? fun g => g.contains (s.dv.cfg.devno, s.partName p)).getD []
/-- The partitions of a group that are on this device. -/
def State.localMembers (s : State) (g : List (Nat × Nat)) : List Nat :=
  (s.parts.map (·.1)).filter fun p => g.contains (s.dv.cfg.devno, s.partName p)

/-- Halts a partition with cause 0, unless it has already trapped (R480, R484). -/
def State.haltQuiet (s : State) (p : Nat) : State :=
  s.haltWith p (0xFFFF, 0xF, 0)

/-- The generations that are complete on a member: those of its two slots (R484). -/
def State.memberGens (s : State) (p : Nat) : List Nat :=
  match (s.part p).ckpt with
  | some d => ([ckptWord (s.slotWords d) 0, ckptWord (s.slotWords (d + 256)) 0]).filter (· != 0)
  | none => []

/-- The generation that a group is restored from: the highest that is complete on every member, 0 where there is none; what
other devices hold is not this device's (R484, assumption 12). -/
def State.groupGen (s : State) (p : Nat) (g : List (Nat × Nat)) : State × Nat :=
  let all := (s.memberGens p).filter fun n => (s.localMembers g).all fun x => (s.memberGens x).contains n
  let far := g.any fun m => m.1 != s.dv.cfg.devno
  let has (n : Nat) : Bool := !far || (Config.outsideByte (2 ^ 61 + n) s.fresh).getLsbD 0
  ({ s with fresh := s.fresh + 1 }, (all.filter has).foldl max 0)

/-- The notices that go to a group's other members: in class 7 to other devices, at once on this one (R484). -/
def State.notifyGroup (s : State) (p gen : Nat) (g : List (Nat × Nat)) : State :=
  let far := g.filter fun m => m.1 != s.dv.cfg.devno
  let msg (m : Nat × Nat) : Nat × Msg :=
    (m.1, { srcDev := s.dv.cfg.devno, srcTile := 0, srcPart := 0, cls := 7, order := 0, rorder := 0, dev := m.1, part := 0,
            tile := 0, tag := gen, len := 0, addr := m.2, bytes := [], pz := [], tok := 0, pc := 0, sent := s.tick })
  let s := { s with dv := { s.dv with sent := far.map msg ++ s.dv.sent } }
  ((s.localMembers g).filter (· != p)).foldl (fun s x => s.sched s.tick (.recoveryNotify x gen)) s

/-- A notice from another member's controller: the member halts with cause 0, and is then restored from the group's
generation (R484). -/
def execRecoveryNotify (part : Nat) (gen : Nat) (s : State) : Out :=
  if Tbl.has s.parts part then
    ok (((s.haltQuiet part).updPart part fun q => { q with gen := some gen }).schedFree 25 (.restore ⟨part, none⟩))
  else ok s

/-- A launch by the management controller for a restore, of the RCB that a slot names, or of its alternates (R481, R485). -/
def State.relaunchAs (s : State) (who : Launcher) (w : List Nat) : Launched :=
  let alt := ckptWord w 0x30
  State.relaunch { s with dv := { s.dv with launches := s.dv.launches + 1 } } who (ckptWord w 0x10 % 2 ^ 48)
    ((List.range (alt / 2 ^ 60)).map fun i => alt % 2 ^ 48 + 256 * i)

/-- A spare device takes over a partition of a device that is lost: the slot is read from replica 0, or from replica 1 where
that one cannot be reached, which is the outside's; no queue pair of this device launched it, and none is told (R483, R485;
DESIGN CHOICE, assumption 76). The replicas are named as a slot's words name them. -/
def State.restoreSpare (s : State) (at_ : RestoreAt) (p0 p1 : Nat) : State :=
  let x := s.outsideRead (2 ^ 46 + p0) 1
  let p := if (x.2.headD 0).getLsbD 0 then p0 else p1
  let r := x.1.replica p
  match r.2 with
  | none => r.1
  | some w =>
    if ckptWord w 0 = 0 then r.1
    else match (r.1.copyBack w (some p)).relaunchAs {} w with
      | .ok t _ => t
      | .wait => r.1.schedIn 1 (.restore at_)
      | .refused t _ _ => t

/-- Restore: the partition is halted, if it is not yet, and reset, its ranges are copied back, and the slot's RCB is launched on
behalf of the original launcher; where the group's generation is missing every member ends (R477, R479, R484 to R486). With
`spare` this device stands in for one that is lost, with the replicas of its slot (R483). -/
def execRestore (at_ : RestoreAt) (s : State) : Out :=
  let part := at_.part
  match at_.spare with
  | some p => ok (s.restoreSpare at_ p.1 p.2)
  | none =>
  if !Tbl.has s.parts part then ok s
  else if (s.part part).st != .halted then
    ok ((s.haltQuiet part).schedFree 25 (.restore ⟨part, none⟩))
  else
    let grp := s.groupOf part
    -- the first member of a group that is restored names the generation
    let s := if grp.isEmpty || (s.part part).gen.isSome then s
      else
        let x := s.groupGen part grp
        (x.1.updPart part fun q => { q with gen := some x.2 }).notifyGroup part x.2 grp
    let pt := s.part part
    let g := s.region pt.root
    let name := s.partName part
    let find : State × Option (List Nat × Option Nat) := match pt.ckpt with
      | some d => s.ckptFind d pt.gen
      | none => (s, none)
    let s := find.1
    match find.2 with
    | none =>
      let s := if grp.isEmpty || pt.gen == some 0 then s else s.notifyGroup part 0 grp
      ok (s.endPart part pt.code true)
    | some (w, rep) =>
      let who : Launcher := { q := g.lqn, cookie := g.cookie, priv := pt.priv }
      match ((s.resetPart part).copyBack w rep).relaunchAs who w with
      | .ok t r => ok (t.updPart (t.region r).part fun q => { q with ckpt := pt.ckpt, name := some name })
      | .wait => ok (s.schedIn 1 (.restore ⟨part, none⟩))
      | .refused t _ _ => match g.lqn with
        | some q => ok (t.postOwed q 2 cUncorrectable pt.root part g.cookie t.tmNow)
        | none => ok t

/-! ### Failed routers and ports (R93, R97, R424, R480) -/

/-- A hop blocked on a detour is a run-time router failure, and the packet is lost (R97). -/
def execDetourBlocked (tile part : Nat) (s : State) : Out := ok (s.sched s.tick (.routerFailure tile { parts := [part] }))

/-- A partition that a failure strikes is restored, if a checkpoint is registered for it, and else ended, once it has halted
(R105, R479, R480). -/
def State.strike (s : State) (p : Nat) : State :=
  if (s.part p).ckpt.isSome then s.sched s.tick (.restore ⟨p, none⟩)
  else if (s.part p).st == .halted then s.sched s.tick (.endPartition p)
  else (s.haltQuiet p).schedFree 25 (.endPartition p)

/-- The failed routers' tiles, and those that the plan of the management controller adds, are harvested, and every router's table
is rewritten (R97, R480). -/
def State.harvestFailed (s : State) : State × List Nat :=
  let plan := Config.faultPlan s.fresh
  let new := (s.dv.failed ++ plan.1).filter fun t => t < 4096 && !s.harvested t
  (State.putTables { s with fresh := s.fresh + 1, hv := harvestMore s.hv new } plan.2, new)

/-- A partition that the recovery of a router has halted: it is struck where its box holds a newly harvested tile or it halted
with UNCORRECTABLE, and goes on where it halted with cause 0 (R480). -/
def State.recoverPart (new : List Nat) (s : State) (p : Nat) : State :=
  let pt := s.part p
  if new.any (s.region pt.root).eff.inBox || pt.code == cUncorrectable then s.strike p
  else if pt.st == .halted && pt.code == 0 then s.resumePart p
  else s

/-- A router fails: every partition halts, those that lost a packet with UNCORRECTABLE; once the halts are delivered the
management controller harvests the tile, and those that its plan adds, and rewrites every table, with a plan whose tables are such
as R97 asks for (assumption 92); then the partitions that this strikes are restored or ended, and those halted with cause 0 are
resumed (R480). -/
def execRouterFailure (tile : Nat) (lost : Losses) (s : State) : Out :=
  if !lost.recover then
    let s := s.parts.foldl (fun s e =>
      if lost.parts.contains e.1 then s.trapPart e.1 (s.partStop e.1 5 cUncorrectable tile) else s.haltQuiet e.1) s
    if s.dv.failed.contains tile then ok s
    else ok (State.schedFree { s with dv := { s.dv with failed := tile :: s.dv.failed } } 25 (.routerFailure tile { recover := true }))
  else if !s.dv.failed.contains tile then ok s
  else if s.parts.any fun e => e.2.st != .halted then
    ok ((s.parts.foldl (fun s e => s.haltQuiet e.1) s).schedFree 25 (.routerFailure tile lost))
  else
    let x := s.harvestFailed
    if x.1.tablesOk then
      ok ((x.1.parts.map (·.1)).foldl (State.recoverPart x.2) { x.1 with dv := { x.1.dv with failed := [] } })
    else ok (State.schedFree { s with fresh := s.fresh + 1 } 1 (.routerFailure tile lost))

/-- A link frame fails its CRC: it is sent again, and once the retries are exhausted the port goes down and what lost a
packet with it halts (R424). -/
def execZheostCrcFail (port : Nat) (exhausted : Bool) (lost : List Nat) (s : State) : Out :=
  if !exhausted then ok s
  else
    let down := if s.dv.portsDown.contains port then s.dv.portsDown else port :: s.dv.portsDown
    let s := { s with dv := { s.dv with portsDown := down } }
    ok ((lost.filter fun p => Tbl.has s.parts p).eraseDups.foldl (fun s p =>
      s.trapPart p (s.partStop p 5 cUncorrectable 0)) s)

/-- A port that went down is restored (R424). -/
def execZheostPortRestore (port : Nat) (s : State) : Out :=
  ok { s with dv := { s.dv with portsDown := s.dv.portsDown.filter (· != port) } }

/-! ### The all-asleep detector (R456) -/

/-- Whether a set that an arrival names still waits for a participant. -/
def State.setOpen (s : State) (isBar : Bool) (l : Loc) : Bool :=
  let r := (s.ctx l).region
  match (s.ctx l).arrival isBar with
  | some a => !(s.members r a.sc (scopeInst a.sc r l.tile)).all fun x => ((s.ctx x).arrival isBar).isSome
  | none => false

/-- Whether a running strand is asleep. -/
def State.asleep (s : State) (l : Loc) : Bool :=
  let c := s.ctx l
  !c.ui.inh && match c.block with
    | .sleep m _ => !c.sleepHolds m (c.now s.tick)
    | .boundary => s.setOpen false l
    | .bar => s.setOpen true l
    | .mmg => ((s.gang (gangOf l.tile)).arrs.filter fun a => a.1 == l.part).length < 16
    | .xbar slot => !(Tbl.get 0 s.dv.ptree slot).getLsbD 63
    | .recv _ _ _ dev => !dev
    | .none | .fence .. | .waitt .. | .leave .. => false

/-- Whether a strand of an ancestor stands on a tile of a region's box (R23). -/
def State.kinOn (s : State) (r : Nat) : Bool :=
  (s.region r).eff.tilesOf.any fun t =>
    let c := s.ctx ⟨t, (s.region r).part⟩
    c.live && c.region != r && s.descends 17 r c.region

/-- Whether an event is a packet, an operation or a placement of a partition on its way; the loading of a region that waits
for a strand of an ancestor is not (R23). -/
def State.evBusy (s : State) (p : Nat) (e : Ev) : Bool :=
  s.packetOf p e || (s.evPart e == some p && match e with
    | .phaseTimer _ | .regionRetire _ | .sleepWake _ => false
    | .imageChunkSend r _ 0 => !s.kinOn r
    | _ => true)

/-- Whether a record waits on nothing but a strand of an ancestor (R23). -/
def State.waitsOnKin (s : State) (d : DRec) : Bool := d.kind == RKind.start && s.kinOn d.region

/-- The conditions of R456 for a partition on the present tick. -/
def State.allAsleepNow (s : State) (p : Nat) : Bool :=
  let pt := s.part p
  let ls := (s.placesOf p).filter fun l => (s.ctx l).live
  pt.st == .active && !pt.priv && !ls.isEmpty && ls.all s.asleep &&
    !(s.agenda.any fun e => s.evBusy p e.2) && !(s.missQ.any fun q => q.peer.isNone && q.loc.part == p) &&
    (s.placesOf p).all (fun l => !(s.core l.tile).held.any (fun m => m.part == p) &&
      !(s.ctx l).arr64.ops.any (fun o => o.start.isSome && o.unfinished ((s.ctx l).now s.tick)) && !(s.ctx l).starting) &&
    (s.recs.filter fun d => d.part == p).all s.waitsOnKin

end Sys2Proof.Machine
end

