-- ==== Sys2Proof/Machine/HostDev.lean ====
section
/-! DEFINITION. What the host asks of the device outside its queues: registers in BAR0, BAR2, IDE, attestation, firmware, the
configuration blob, mappings, stride-gather entries, checkpoints, recovery groups and fault domains (R66 to R70, R79 to R82,
R94, R290, R303, R307, R337, R481, R484). -/

namespace Sys2Proof.Machine

/-! ### Registers written from outside (R7, R69, R70) -/

/-- The harvest map of a column of tiles; a partition whose box contains a tile that it adds is reset (R97, R105). -/
def State.harvestMap (s : State) (n : Nat) (v : Word) : State :=
  let new := v &&& ~~~(Tbl.get 0 s.hv n)
  let ts := ((List.range 64).filter fun i => new.getLsbD i).map fun i => 64 * n + i
  s.parts.foldl (fun s e => if ts.any (s.region e.2.root).eff.inBox then s.strike e.1 else s)
    { s with hv := Tbl.set 0 s.hv n v }

/-- What the management controller writes in BAR0 (R94, R217, R222, R290, R337, R425). -/
def State.mcReg (s : State) (off : Nat) (v : Word) : State :=
  let n := v.toNat
  if off < 0x2000 then s
  else if off < 0x2200 then s.harvestMap ((off - 0x2000) / 8) v
  else if off < 0x2280 then { s with bg := Tbl.set 0 s.bg ((off - 0x2200) / 8) v }
  else if off < 0x3000 then s
  else if off < 0x3800 then
    -- trip is cleared by writing 1
    let k := (off - 0x3000) / 8
    if v.getLsbD 5 then s.clearTrip k else s
  else if off = 0x3800 then
    ({ s with gov := { s.gov with
      ygrace := n / 2 ^ 48 % 256, cband := n / 2 ^ 40 % 256, gband := n / 2 ^ 32 % 256
      setpt := n / 65536 % 8192, plim := n % 8192 } }).setGate
  else if off = 0x3808 then { s with gov := { s.gov with pdef := n / 256 % 16 } }
  else if 0x3820 ≤ off ∧ off < 0x3840 then
    s.updRail ((off - 0x3820) / 8) fun r => { r with
      ilim := n / 2 ^ 24 % 256, frz := v.getLsbD 8, gthr := n / 16 % 16 }
  else if 0x4000 ≤ off ∧ off < 0x4080 then
    { s with dv := { s.dv with b2ma := Tbl.set 0 s.dv.b2ma ((off - 0x4000) / 8) (v &&& 0x800000000000FFFF) } }
  else if 0x5000 ≤ off ∧ off < 0x5100 then { s with dv := { s.dv with sg := Tbl.set 0 s.dv.sg ((off - 0x5000) / 8) v } }
  else if 0x6000 ≤ off ∧ off < 0x6800 then
    { s with dv := { s.dv with pwin := Tbl.set 0 s.dv.pwin ((off - 0x6000) / 8) (v &&& 0x80000FFF00000007) } }
  else if 0x6800 ≤ off ∧ off < 0x6880 then
    { s with dv := { s.dv with ptree := Tbl.set 0 s.dv.ptree ((off - 0x6800) / 8) (v &&& 0xFFFFFFFFFFFFFFFE) } }
  else s

/-- A write of a register, field by field by access type: the host's writes reach the RW and WC fields of the queue
pairs and of the dispenser, and an access of a wrong width is discarded; the fields that the management controller holds
are read-only to anyone else (R7, R8, R69, R70, R95, R103, R303). -/
def execRegisterWrite (mc : Bool) (r : RegAt) (v : Word) (s : State) : Out :=
  let n := v.toNat
  match r with
  | .bar0 off width =>
    answered s <|
    if width != 8 || off % 8 != 0 then ok s
    else if mc then ok (s.mcReg off v)
    else if 0x1000 ≤ off && off < 0x1100 then ok (s.hostQp ((off - 0x1000) / 0x40) ((off - 0x1000) % 0x40) v)
    else if off = 0x0800 then ok { s with dv := { s.dv with pdelay := n % 2 ^ 32 } }
    else ok s
  | .pgate =>
    if mc then
      let s := { s with pgWaves := n / 65536 % 256, pgIdle := n / 2 % 32768, pgEn := v.getLsbD 0 }
      let s := (List.range 16).foldl State.startWakes s
      -- quads that have been idle so long by now
      ok (if s.pgEn then s.quads.foldl (fun s q => s.schedIn 1 (.quadIdleExpiry q.1)) s else s)
    else ok s
  | .ptroot p =>
    ok (if mc then { s with ptroots := Tbl.put s.ptroots p { en := v.getLsbD 0, root := n / 2048 % 2 ^ 37 } } else s)
  | .flt t i =>
    -- the controller writes no other entry, and none that spoils tables such as R97 asks for (R95, R97); reserved bits read as
    -- zero (R8)
    let e := v &&& 0xFF807FFF00000FFF
    if mc && fltLegal t e then
      let k := s.core t
      let u := s.setCore t { k with flt := Tbl.set 0 k.flt (i % 8) e }
      ok (if s.tablesOk && !u.tablesOk then s else u)
    else ok s

/-- A host write of lq.next (R69). -/
def execLqNextWrite (q : Nat) (v : Word) (s : State) : Out := answered s <| ok (s.hostQp q 0x10 v)
/-- Clearing a stop resumes polling where lq.en is 1 (R75). -/
def execLqStopClear (q : Nat) (ovr crpt : Bool) (s : State) : Out :=
  answered s <| ok ((s.updQp q fun x => { x with ovr := x.ovr && !ovr, crpt := x.crpt && !crpt }).setPolling q)
/-- A host write of cq.head (R70). -/
def execCqHeadWrite (q : Nat) (v : Word) (s : State) : Out := answered s <| ok (s.hostQp q 0x38 v)

/-! ### BAR2 (R290) -/

/-- The physical address that an access of n bytes at an offset of BAR2 reaches; none where its aperture is disabled or it
would reach outside vault and HBM memory. -/
def State.bar2Addr (s : State) (off n : Nat) : Option Nat :=
  let r := Tbl.get 0 s.dv.b2ma (off / 2 ^ 32)
  let pa := r.toNat % 65536 * 2 ^ 32 + off % 2 ^ 32
  if off < 2 ^ 36 && r.getLsbD 63 && off % 2 ^ 32 + n ≤ 2 ^ 32 && isHome pa && spaceOf (pa + n - 1) == spaceOf pa then some pa
  else none

/-- The pieces of n bytes from an address that lie in one line each: where a piece begins among them, and its length. -/
def linePieces (pa n : Nat) : List (Nat × Nat) :=
  ((List.range ((pa % 128 + n + 127) / 128)).map fun i =>
    let a := 128 * i - pa % 128
    (a, min n (128 * (i + 1) - pa % 128) - a)).filter fun x => x.2 != 0

/-- A request of the host goes from the PCIe port to the home of its line (R89, R290). -/
def State.hostReq (s : State) (pa o : Nat) (op : HomeOp) : State :=
  s.packet 64 [{ order := 0, src := none, dst := s.endOf pa, bytes := homeBytes op }]
    (.homeRequestServe { loc := ⟨0, 64⟩, tok := none, va := 0, pa := pa, op := op, pc := 0, agent := some o })

/-- A host write is performed at its home when it arrives there, line by line, after what waits for the line, and stamped (R290,
R294, R297). -/
def execHostBar2Write (off : Nat) (bytes : List Byte) (s : State) : Out :=
  answered s <|
  match s.bar2Addr off bytes.length with
  | some pa => ok ((linePieces pa bytes.length).foldl (fun s x =>
      s.hostReq (pa + x.1) 0 (.write (addrBytes (pa + x.1) ((bytes.drop x.1).take x.2)) 0)) s)
  | none => ok s

/-- A host read returns the home slice's value, or all ones; in recovery mode it is not answered (R80, R290). -/
def execHostBar2Read (off : Nat) (len : Nat) (s : State) : Out :=
  if !s.answers then ok { s with dv := { s.dv with bar2 := [] } }
  else match s.bar2Addr off len with
  | some pa =>
    let s := { s with dv := { s.dv with bar2 := [] } }
    ok ((linePieces pa len).foldl (fun s x => s.hostReq (pa + x.1) x.1 (.read x.2 [] (.v 0 0xFFFFFFFF))) s)
  | none => ok { s with dv := { s.dv with bar2 := List.replicate len 0xFF } }

/-! ### IDE (R66, R68) -/

/-- Starts or stops polling on every pair (R68). -/
def State.setPollingAll (s : State) : State := (List.range 4).foldl State.setPolling s

/-- Link IDE, 0, or a selective stream, 1 to 4, with the host addresses that it covers, enters or leaves the secure state: a
pair that loses its cover is polled no more at once (R66, R68). -/
def execIdeStateChange (c : IdeChange) (s : State) : Out :=
  if c.stream ≤ 4 then
    let rest := s.dv.ide.filter (· != c.stream)
    ok (State.setPollingAll { s with dv := { s.dv with
      ide := if c.secure then c.stream :: rest else rest, ideCover := Tbl.put s.dv.ideCover c.stream c.cover } })
  else ok s

/-- An IDE_KM message sets a key: of link IDE, 0, or of a selective stream, 1 to 4 (R66). -/
def execIdeKm (stream : Nat) (key : BitVec 256) (s : State) : Out :=
  if stream ≤ 4 && s.answers then ok { s with dv := { s.dv with ideKeys := Tbl.put s.dv.ideKeys stream key } }
  else ok s

/-! ### Firmware and measurements (R80, R81) -/

/-- Whether a firmware bank boots: its signature verifies and its version is not below the floor (R80). -/
def Dev.bankBoots (d : Dev) (n : Nat) : Bool :=
  let b := Tbl.get {} d.banks n
  b.good && d.fwFloor ≤ b.secver
/-- The bank in use: the first of a pair, else the alternate. Banks 0 and 1 hold the management firmware, 2 and 3 the
Geyser firmware. -/
def Dev.bankInUse (d : Dev) (first : Nat) : FwBank :=
  if d.bankBoots first then Tbl.get {} d.banks first else Tbl.get {} d.banks (first + 1)

/-- Whether the device boots: a bank of the management firmware and a bank of the Geyser firmware verify, and lie not below
the floor (R80). R80 speaks of a firmware image and its alternate bank: here each of the two firmwares has its own two banks
(DEDUCED, assumption 74). -/
def Dev.boots (d : Dev) : Bool := (d.bankBoots 0 || d.bankBoots 1) && (d.bankBoots 2 || d.bankBoots 3)

/-- The management controller boots: the firmware of the banks in use runs, else the device is in recovery mode (R80). -/
def State.boot (s : State) : State :=
  let d := s.dv
  let up := d.boots
  { s with dv := { d with
    mfw := if up then d.bankInUse 0 else d.mfw, gfw := if up then d.bankInUse 2 else d.gfw
    power := { d.power with booted := up, recovery := !up } } }

/-- The compound device identifier: HMAC-SHA-384, keyed by the device secret, over the measurement of the management firmware
(R80). -/
def Dev.cdi (d : Dev) : BitVec 384 := hmac384 Config.devSecret (hashBytes d.mfw.measure)
/-- The private key of the device identity, from the device secret alone (R81). -/
def identityKey : Nat := Config.keyOf Config.devSecret
/-- The private alias key, from the compound device identifier (R81). -/
def Dev.aliasKey (d : Dev) : Nat := Config.keyOf (hashBytes d.cdi)
/-- The chain of certificates: Iswaric's of the identity key; and the alias key's public point, signed by the identity key
(R81). -/
def Dev.certificates (d : Dev) : List Byte :=
  let a := publicPoint d.aliasKey
  Config.idCert ++ a ++ signWith identityKey a

/-- Whether a firmware image verifies: the key that comes with it is the root key, whose hash the boot ROM holds, and the
signature over the image is that key's (R80). -/
def fwVerifies (measure : BitVec 384) (x : FwSig) : Bool :=
  sha384 x.root == Config.rootHash && hashSignedOk x.root measure x.sig

/-- Geyser's banks (R80). -/
def geyserBank (n : Nat) : Bool := n == 2 || n == 3

/-- In recovery mode the DOE mailbox takes a firmware image, and the device boots once its banks verify (R80). Out of it the
management controller updates the Geyser firmware: a bank takes the image, and until the heartbeat returns the firmware does
not run (R223). -/
def execFirmwareDownload (bank : Nat) (secver : Nat) (measure : BitVec 384) (sig : FwSig) (s : State) : Out :=
  let d := { s.dv with banks := Tbl.put s.dv.banks bank { measure := measure, secver := secver, good := fwVerifies measure sig } }
  if !s.dv.power.recovery then ok (if geyserBank bank then State.geyserOff { s with dv := d } else s)
  else
    let s := if geyserBank bank then State.geyserOff { s with dv := d } else { s with dv := d }
    let s := s.boot
    -- power-up goes on where it waits for the boot (R510)
    ok (if d.boots && d.power.pwren && d.power.stage == 1 then s.schedIn 1 .pwrenAssert else s)

/-- A measurement block (R81); a hash stands with its most significant byte first. -/
def State.measurement (s : State) (index : Nat) : List Byte :=
  match index with
  | 1 => hashBytes s.dv.mfw.measure
  | 2 => hashBytes s.dv.gfw.measure
  | 3 => hashBytes (sha384 s.dv.cfg.bytes) ++ leBytes 8 s.dv.cfg.cfgver
  | 4 => leBytes 4 s.dv.fwFloor ++ s.dv.cfg.keys.flatMap fun k => leBytes 4 k.keyid ++ leBytes 4 k.secfloor
  | 5 => s.images.flatMap fun e => hashBytes e.2.hash
  | 6 => (List.range 4).flatMap fun q => [if (s.qp q).en then 1 else 0, if s.dv.ideCovers (s.qp q) then 1 else 0]
  | _ => []

/-- An SPDM request over the DOE mailbox: MEASUREMENTS is answered with a report that the alias key signs, and the chain of
certificates, or its hash, is given out (R66, R81); in recovery mode no request is answered (R80). -/
def execSpdmMeasurements (req : SpdmReq) (s : State) : Out :=
  answered s <|
    match req with
    | .measurements index =>
      let m := BitVec.ofNat 8 index :: s.measurement index
      ok { s with dv := { s.dv with doe := m ++ signWith s.dv.aliasKey m } }
    | .certificate => ok { s with dv := { s.dv with doe := s.dv.certificates } }
    | .digests => ok { s with dv := { s.dv with doe := hashBytes (sha384 s.dv.certificates) } }
    | .other bytes => ok { s with fresh := s.fresh + 1, dv := { s.dv with doe := Config.spdmAnswer bytes s.fresh } }

/-! ### The replay-protected flash and the configuration blob (R79, R82) -/

/-- A write of the replay-protected flash: its controller refuses one whose write counter or HMAC is wrong (R79). -/
def State.flashWrite (s : State) (ctr : Nat) (mac : BitVec 384) (data : List Byte) (f : Dev → Dev) : State :=
  if ctr == s.dv.flashCtr + 1 && mac == hmac384 (Config.flashKey Config.devSecret) data then
    { s with dv := { f s.dv with flashCtr := ctr } }
  else s

/-- The bytes of a blob before its signature, and the new owner key that it names. R82 does not say where a blob names one:
here its 96 bytes stand between the key entries and the signature (DESIGN CHOICE, assumption 69). -/
def blobOwner (bs : List Byte) : Option (List Byte) :=
  let n := 0x40 + 112 * bf (fileNat bs 32 8) 7 0
  if bs.length == n + 192 then some ((bs.drop n).take 96) else none

/-- The active configuration that a blob makes; none where its form, its binding or its floor is wrong. -/
def Dev.readBlob (d : Dev) (bs : List Byte) : Option Cfg :=
  let w (i : Nat) : Nat := fileNat bs (8 * i) 8
  let n := bf (w 4) 7 0
  let key (i : Nat) : CfgKey × Bool :=
    let o := 0x40 + 112 * i
    ({ keyid := fileNat bs o 4, secfloor := fileNat bs (o + 4) 4, point := (bs.drop (o + 8)).take 96 },
      fileNat bs (o + 104) 8 == 0)
  let ks := (List.range n).map key
  let sane : Bool :=
    bf (w 0) 31 0 == 0x3146434E && bf (w 0) 63 32 == 0 && w 3 / 2 ^ 28 == 0 && bf (w 3) 15 12 == 0 && bf (w 4) 31 8 == 0 &&
      w 5 / 65536 == 0 && bf (w 5) 7 3 == 0 && w 6 == 0 && w 7 == 0 && n ≤ 16 && (bs.length == 0x40 + 112 * n + 96 || (blobOwner bs).isSome) &&
      1 ≤ bf (w 3) 27 16 && bf (w 3) 27 16 ≤ 2304 && bf (w 3) 11 0 < bf (w 3) 27 16 && ks.all (·.2)
  if sane && w 2 == Config.devSerial.toNat && d.cfgCtr < w 1 && d.fwFloor ≤ bf (w 4) 63 32 then
    some { cfgver := w 1, sysdev := bf (w 3) 27 16, devno := bf (w 3) 11 0, fwfloor := bf (w 4) 63 32, ptpdom := bf (w 5) 15 8
           dbg := bf (w 5) 2 2 == 1, balen := bf (w 5) 1 1 == 1, ideReq := bf (w 5) 0 0 == 1, keys := ks.map (·.1), bytes := bs
           owner := d.cfg.owner }
  else none

/-- A blob is accepted where it reads well and the owner's signature over it verifies, under the key that comes with it and
whose hash the flash holds; the stored counter becomes its cfgver, and a new owner key that it names takes effect; a rejected
one changes nothing (R79, R82). -/
def execConfigBlobSubmit (addr : Nat) (b : BlobPart) (s : State) : Out :=
  answered s <|
    let bs := s.mem.bytes addr b.len
    match s.dv.readBlob bs with
    | some c =>
      if sha384 b.owner == s.dv.ownerHash && signatureOk b.owner (bs.take (b.len - 96)) (bs.drop (b.len - 96)) then
        let s := s.flashWrite (s.dv.flashCtr + 1) (hmac384 (Config.flashKey Config.devSecret) bs) bs fun d =>
          { d with
            cfg := { c with owner := (blobOwner bs).getD b.owner }, cfgCtr := c.cfgver, fwFloor := c.fwfloor
            ownerHash := match blobOwner bs with
              | some k => sha384 k
              | none => d.ownerHash }
        ok (State.setPollingAll s).setGate
      else ok s
    | none => ok s

/-! ### Mappings (R303, R307) -/

/-- Takes an aligned table from the management controller's memory, zeroed. -/
def State.newTable (s : State) (size : Nat) : State × Nat :=
  let a := (s.dv.ptFree + size - 1) / size * size
  let zero := (List.range (size / 128)).foldl (fun (s : State) i =>
    s.devWrite (addrBytes (a + 128 * i) (List.replicate 128 0))) s
  ({ zero with dv := { zero.dv with ptFree := a + size } }, a)

/-- Stores an entry of a table. -/
def State.putEntry (s : State) (a v : Nat) : State := s.devWrite (addrBytes a (leBytes 8 v))

/-- Maps 2 MiB by a leaf of the fourth level, from a table of a level down; missing tables are made (R303). -/
def State.mapLeaf (s : State) (va v : Nat) : Nat → Nat → Nat → State
  | 0, _, _ => s
  | fuel + 1, lvl, table =>
    let a := table + 8 * (va / 2 ^ lvlShift lvl % lvlEntries lvl)
    if lvl = 3 then s.putEntry a v
    else
      let e := leNat (s.devBytes a 8)
      if e % 4 = 1 then s.mapLeaf va v fuel (lvl + 1) (e % 2 ^ 48 / 256 * 256)
      else
        let x := s.newTable 4096
        State.mapLeaf (x.1.putEntry a (x.2 + 1)) va v fuel (lvl + 1) x.2

/-- The root table of a partition, made where there is none. -/
def State.rootTable (s : State) (p : Nat) : State × Nat :=
  let r := Tbl.get {} s.ptroots p
  if r.en then (s, r.root * 2048)
  else
    let x := s.newTable 2048
    ({ x.1 with ptroots := Tbl.put x.1.ptroots p { en := true, root := x.2 / 2048 } }, x.2)

/-- Chunks of 16 MiB from an address that lie in a range; none of the image cache counts (R289). -/
def chunksIn (pa n : Nat) (sp : Space) : Nat :=
  ((List.range n).filter fun i => spaceOf (pa + i * 2 ^ 24) == sp && !inImageCache (pa + i * 2 ^ 24)).length

/-- A mapping request: chunks of 16 MiB are charged to the partition's vault or hbm budget and mapped; one beyond the
budget, or that reaches a reserved range or the image cache, is refused (R289, R307). Chunks of the host and peer windows
are charged to no budget. -/
def execMappingRequest (r : MapReq) (s : State) : Out :=
  answered s <|
  let pt := s.part r.part
  let e := (s.region pt.root).eff
  let nv := chunksIn r.pa r.chunks .vault
  let nh := chunksIn r.pa r.chunks .hbm
  if Tbl.has s.parts r.part && r.va % 2 ^ 24 == 0 && r.pa % 2 ^ 24 == 0 && r.va + r.chunks * 2 ^ 24 ≤ 2 ^ 56 &&
      nv + nh + chunksIn r.pa r.chunks .host + chunksIn r.pa r.chunks .peer == r.chunks && pt.vaultUsed + nv ≤ e.vault && pt.hbmUsed + nh ≤ e.hbm then
    let s := s.updPart r.part fun q => { q with vaultUsed := q.vaultUsed + nv, hbmUsed := q.hbmUsed + nh }
    let x := s.rootTable r.part
    ok ((List.range (8 * r.chunks)).foldl (fun s i =>
      let va := r.va + i * 2 ^ 21
      s.mapLeaf va (r.pa + i * 2 ^ 21 + (if r.w then 7 else 3)) 4 0 x.2) x.1)
  else ok s

/-! ### Tables that the host asks for (R18, R337, R481, R484) -/

/-- A stride-gather entry is written and tagged with the requesting partition (R337). -/
def execSgEntryWrite (n : Nat) (part : Nat) (v : Word) (s : State) : Out :=
  answered s <|
  let w := (v &&& 0x81FFFFFFFFFFFFFF) ||| BitVec.ofNat 64 (part % 64 * 2 ^ 57)
  if n < 32 then ok { s with dv := { s.dv with sg := Tbl.set 0 s.dv.sg n w } } else ok s

/-- A checkpoint directory, at a 4 KiB-aligned address of vault or HBM memory, is registered for a partition (R481). -/
def execCheckpointRegister (part : Nat) (dir : Nat) (s : State) : Out :=
  if s.answers && Tbl.has s.parts part && dir % 4096 == 0 && isHome dir then ok (s.updPart part fun q => { q with ckpt := some dir }) else ok s

/-- A recovery group is registered (R484). -/
def execRecoveryGroupRegister (members : List (Nat × Nat)) (s : State) : Out :=
  answered s <| ok { s with dv := { s.dv with groups := s.dv.groups ++ [members] } }

/-- A fault domain is registered with the management controller (R14, R18). -/
def execFaultDomainRegister (fdom : Nat) (s : State) : Out :=
  if s.answers && fdom < 4096 && !s.dv.fdoms.contains fdom then ok { s with dv := { s.dv with fdoms := fdom :: s.dv.fdoms } } else ok s

end Sys2Proof.Machine
end

