-- ==== Sys2Proof/Machine/IntCol.lean ====
section
/-! DEFINITION. The I column: integer, address and predicate words (R181 to R195), with the latencies of R174. -/

namespace Sys2Proof.Machine

/-! ### The common steps (R183) -/

/-- A source as a number of the type. -/
def State.val (s : State) (t : Ty) (a : Src) : Int := tyVal t (s.src a).toNat

/-- Operand B: a source, or the 18-bit immediate extended by the type's signedness (R182, R183). -/
def State.valB (s : State) (t : Ty) (b : SrcB) : Int :=
  match b with
  | .reg r => s.val t r
  | .imm v => tyVal t (if t.isI then (v.signExtend 64).toNat else (v.setWidth 64).toNat)

/-- The result as written to the 64-bit destination: clamped with .sat, wrapped, and extended (R183). -/
def resWord (t : Ty) (sat : Bool) (res : Int) : Word :=
  let r := if sat then min (max res (tyLo t)) (tyHi t) else res
  BitVec.ofInt 64 (tyVal t (tyPat t r))

/-- Latches tm.now's fraction for an operand B that reads it. -/
def State.seenB (s : State) (b : SrcB) : State :=
  match b with
  | .reg r => s.seen r
  | .imm _ => s

/-- A word with two sources: `f` computes the exact result. -/
def intBin (s : State) (lat : Nat) (sat : Bool) (o : Bin) (f : Int → Int → Int) : Out :=
  ok (((s.seen o.a).seenB o.b).putS lat o.d (resWord o.t sat (f (s.val o.t o.a) (s.valB o.t o.b))))

/-- A word with one source. -/
def intUn (s : State) (lat : Nat) (sat : Bool) (o : Un) (f : Int → Int) : Out :=
  ok ((s.seen o.a).putS lat o.d (resWord o.t sat (f (s.val o.t o.a))))

/-- A word on W-bit patterns (R186). -/
def bitBin (s : State) (o : Bin) (f : Nat → Nat → Nat → Nat) : Out :=
  intBin s 1 false o fun a b => ((f (tyBits o.t) (tyPat o.t a) (tyPat o.t b) : Nat) : Int)

/-- A word on one W-bit pattern. -/
def bitUn (s : State) (o : Un) (f : Nat → Nat → Nat) : Out :=
  intUn s 1 false o fun a => ((f (tyBits o.t) (tyPat o.t a) : Nat) : Int)

/-! ### Arithmetic (R184, R185) -/

/-- Quotient of R185, toward zero; all ones when b is 0. -/
def divRes (t : Ty) (a b : Int) : Int := if b = 0 then ((2 ^ tyBits t : Nat) : Int) - 1 else a.tdiv b
/-- Remainder of R185. -/
def remRes (a b : Int) : Int := if b = 0 then a else a - a.tdiv b * b

/-- add (R184). -/
def execAdd (sat : Bool) (o : Bin) (s : State) : Out := intBin s 1 sat o fun a b => a + b
/-- sub (R184). -/
def execSub (sat : Bool) (o : Bin) (s : State) : Out := intBin s 1 sat o fun a b => a - b
/-- mul (R184). -/
def execMul (sat : Bool) (o : Bin) (s : State) : Out := intBin s 3 sat o fun a b => a * b
/-- mulh: the high W bits of the signed product (R185). -/
def execMulh (o : Bin) (s : State) : Out := intBin s 3 false o fun a b => a * b / ((2 ^ tyBits o.t : Nat) : Int)
/-- mulhn: the high W bits of the unsigned product (R185). -/
def execMulhn (o : Bin) (s : State) : Out := intBin s 3 false o fun a b => a * b / ((2 ^ tyBits o.t : Nat) : Int)
/-- div (R185). -/
def execDiv (o : Bin) (s : State) : Out := intBin s 12 false o (divRes o.t)
/-- divn (R185). -/
def execDivn (o : Bin) (s : State) : Out := intBin s 12 false o (divRes o.t)
/-- rem (R185). -/
def execRem (o : Bin) (s : State) : Out := intBin s 12 false o remRes
/-- remn (R185). -/
def execRemn (o : Bin) (s : State) : Out := intBin s 12 false o remRes

/-! ### Bit patterns, shifts, counts, minima (R186) -/

/-- and (R186). -/
def execAnd (o : Bin) (s : State) : Out := bitBin s o fun _ a b => a &&& b
/-- or (R186). -/
def execOr (o : Bin) (s : State) : Out := bitBin s o fun _ a b => a ||| b
/-- xor (R186). -/
def execXor (o : Bin) (s : State) : Out := bitBin s o fun _ a b => a ^^^ b
/-- andn: A and not B (R186). -/
def execAndn (o : Bin) (s : State) : Out := bitBin s o fun w a b => a &&& (2 ^ w - 1 - b)
/-- Shift left by the amount mod W. -/
def shlPat (w a b : Nat) : Nat := a * 2 ^ (b % w) % 2 ^ w
/-- Shift right with zeros. -/
def shrPat (w a b : Nat) : Nat := a / 2 ^ (b % w)
/-- Shift right with the sign bit. -/
def sarPat (w a b : Nat) : Nat :=
  let v : Int := if 2 ^ (w - 1) ≤ a then (a : Int) - ((2 ^ w : Nat) : Int) else (a : Int)
  ((v / ((2 ^ (b % w) : Nat) : Int)) % ((2 ^ w : Nat) : Int)).toNat
/-- Rotate left. -/
def rolPat (w a b : Nat) : Nat := (a * 2 ^ (b % w) % 2 ^ w) ||| (a / 2 ^ (w - b % w))
/-- Leading zeros within W. -/
def clzPat (w a : Nat) : Nat := if a = 0 then w else w - 1 - Nat.log2 a
/-- Trailing zeros. -/
def ctzFrom (a : Nat) : Nat → Nat → Nat
  | 0, n => n
  | fuel + 1, n => if a.testBit n then n else ctzFrom a fuel (n + 1)
/-- One bits. -/
def popPat (w a : Nat) : Nat := ((List.range w).filter fun i => a.testBit i).length

/-- shl (R186). -/
def execShl (o : Bin) (s : State) : Out := bitBin s o shlPat
/-- shr (R186). -/
def execShr (o : Bin) (s : State) : Out := bitBin s o shrPat
/-- sar (R186). -/
def execSar (o : Bin) (s : State) : Out := bitBin s o sarPat
/-- rol (R186). -/
def execRol (o : Bin) (s : State) : Out := bitBin s o rolPat
/-- clz (R186). -/
def execClz (o : Un) (s : State) : Out := bitUn s o clzPat
/-- ctz (R186). -/
def execCtz (o : Un) (s : State) : Out := bitUn s o fun w a => ctzFrom a w 0
/-- popc (R186). -/
def execPopc (o : Un) (s : State) : Out := bitUn s o popPat
/-- min, signed (R186). -/
def execMin (o : Bin) (s : State) : Out := intBin s 1 false o fun a b => if a ≤ b then a else b
/-- max, signed (R186). -/
def execMax (o : Bin) (s : State) : Out := intBin s 1 false o fun a b => if a ≥ b then a else b
/-- minn, unsigned (R186). -/
def execMinn (o : Bin) (s : State) : Out := intBin s 1 false o fun a b => if a ≤ b then a else b
/-- maxn, unsigned (R186). -/
def execMaxn (o : Bin) (s : State) : Out := intBin s 1 false o fun a b => if a ≥ b then a else b
/-- abs (R184). -/
def execAbs (sat : Bool) (o : Un) (s : State) : Out := intUn s 1 sat o fun a => if a < 0 then -a else a
/-- neg (R184). -/
def execNeg (sat : Bool) (o : Un) (s : State) : Out := intUn s 1 sat o fun a => -a

/-! ### Selection, comparison, moves (R187, R188, R193) -/

/-- sel (R187). -/
def execSel (t : Ty) (d : BitVec 6) (a b : Src) (c : BitVec 4) (s : State) : Out :=
  ok (((s.seen a).seen b).putS 1 d (resWord t false (if s.c.preg c.toNat then s.val t a else s.val t b)))

/-- Operand B of cmp: a source, or the 17-bit immediate (R193). -/
def State.valC (s : State) (t : Ty) (b : CmpB) : Int :=
  match b with
  | .reg r => s.val t r
  | .imm v => tyVal t (if t.isI then (v.signExtend 64).toNat else (v.setWidth 64).toNat)

/-- The condition of cmp on two numbers of a type (R193). -/
def cmpCond (cc : Cond) (t : Ty) (a b : Int) : Bool :=
  match cc with
  | .eq => a == b
  | .ne => a != b
  | .lt => a < b
  | .le => a ≤ b
  | .gt => b < a
  | .ge => b ≤ a
  | .tst => tyPat t a &&& tyPat t b != 0

/-- cmp (R193). -/
def execCmp (cc : Cond) (t : Ty) (d : BitVec 4) (a : Src) (b : CmpB) (s : State) : Out :=
  let s' := match b with
    | .reg r => (s.seen a).seen r
    | .imm _ => s.seen a
  ok (s'.putP 1 d (cmpCond cc t (s.val t a) (s.valC t b)))

/-- The value of ldi: the 38-bit immediate by the type, or with .hi above the low 38 bits of the destination (R188). -/
def ldiVal (hi : Bool) (t : Ty) (old : Word) (imm : BitVec 38) : Word :=
  if hi then (cat (imm.extractLsb' 0 26) (old.extractLsb' 0 38) : BitVec 64)
  else resWord t false (tyVal t (if t.isI then (imm.signExtend 64).toNat else (imm.setWidth 64).toNat))

/-- ldi (R188). -/
def execLdi (hi : Bool) (t : Ty) (d : BitVec 6) (imm : BitVec 38) (s : State) : Out :=
  ok (s.putS 1 d (ldiVal hi t (s.sreg d) imm))

/-- mov (R187). -/
def execMov (o : Un) (s : State) : Out := intUn s 1 false o fun a => a

/-! ### Bit fields and addresses (R189 to R192) -/

/-- The low n bits of a pattern, sign-extended. -/
def sextN (v n : Nat) : Int :=
  let x := v % 2 ^ n
  if 2 ^ (n - 1) ≤ x then (x : Int) - ((2 ^ n : Nat) : Int) else (x : Int)

/-- sxt (R189). -/
def execSxt (d : BitVec 6) (a : Src) (n1 : BitVec 6) (s : State) : Out :=
  ok ((s.seen a).putS 1 d (BitVec.ofInt 64 (sextN (s.src a).toNat (n1.toNat + 1))))
/-- zxt (R189). -/
def execZxt (d : BitVec 6) (a : Src) (n1 : BitVec 6) (s : State) : Out :=
  ok ((s.seen a).putS 1 d (BitVec.ofNat 64 ((s.src a).toNat % 2 ^ (n1.toNat + 1))))
/-- bfx (R190). -/
def execBfx (sgn : Bool) (d : BitVec 6) (a : Src) (pos len1 : BitVec 6) (s : State) : Out :=
  let v := (s.src a).toNat / 2 ^ pos.toNat
  let n := len1.toNat + 1
  ok ((s.seen a).putS 1 d (if sgn then BitVec.ofInt 64 (sextN v n) else BitVec.ofNat 64 (v % 2 ^ n)))
/-- B with A's low bits at run-time positions taken from C; bits above 63 are dropped (R191). -/
def bfiVal (a b c : Nat) : Word :=
  let pos := c % 64
  let len := c / 64 % 64 + 1
  let field := (2 ^ len - 1) * 2 ^ pos % 2 ^ 64
  BitVec.ofNat 64 ((b &&& (2 ^ 64 - 1 - field)) ||| (a * 2 ^ pos &&& field))
/-- bfi (R191). -/
def execBfi (d : BitVec 6) (a b c : Src) (s : State) : Out :=
  ok ((((s.seen a).seen b).seen c).putS 1 d (bfiVal (s.src a).toNat (s.src b).toNat (s.src c).toNat))
/-- lea (R192). -/
def execLea (d : BitVec 6) (a b : Src) (sh : BitVec 3) (disp : BitVec 15) (s : State) : Out :=
  ok (((s.seen a).seen b).putS 1 d (s.src a + (s.src b <<< sh.toNat) + disp.signExtend 64))
/-- madd: one wrap or clamp at the end (R184). -/
def execMadd (sat : Bool) (t : Ty) (d : BitVec 6) (a b c : Src) (s : State) : Out :=
  ok ((((s.seen a).seen b).seen c).putS 3 d (resWord t sat (s.val t a * s.val t b + s.val t c)))

/-! ### Predicates and index registers (R194, R195) -/

/-- pand (R194). -/
def execPand (ia ib : Bool) (d a b : BitVec 4) (s : State) : Out :=
  ok (s.putP 1 d ((xor (s.c.preg a.toNat) ia) && (xor (s.c.preg b.toNat) ib)))
/-- por (R194). -/
def execPor (ia ib : Bool) (d a b : BitVec 4) (s : State) : Out :=
  ok (s.putP 1 d ((xor (s.c.preg a.toNat) ia) || (xor (s.c.preg b.toNat) ib)))
/-- pxor (R194). -/
def execPxor (ia ib : Bool) (d a b : BitVec 4) (s : State) : Out :=
  ok (s.putP 1 d (xor (xor (s.c.preg a.toNat) ia) (xor (s.c.preg b.toNat) ib)))
/-- pnot (R194). -/
def execPnot (d a : BitVec 4) (s : State) : Out := ok (s.putP 1 d (!s.c.preg a.toNat))
/-- setx (R195). -/
def execSetx (addm : Bool) (d : BitVec 2) (a : SrcB) (s : State) : Out :=
  let v : Word := match a with
    | .imm v => v.signExtend 64
    | .reg r => s.src r
  let v := if addm then (s.c.xreg d.toNat).signExtend 64 + v else v
  ok ((s.seenB a).result 1 (.x d.toNat (v.setWidth 16)))

end Sys2Proof.Machine
end

