-- ==== Sys2Proof/Machine/MatCol.lean ====
section
/-! DEFINITION. The words of the array slice (R347, R350 to R352, R358 to R373). -/

namespace Sys2Proof.Machine

/-! ### Shared checks (R350 to R352, R359, R373) -/

/-- The checks that come first: no handler, the phase kind, then the token, which a reissue of the word that bound it finds
bound (R356, R359, R373). -/
def mFirst (s : State) (kindOk : Bool) (k : Option Nat) (kont : Out) : Out :=
  guardT s (!s.c.ui.inh) cHandlerMatrix <| guardT s kindOk cIllegalOperand <|
    match k with
    | some k =>
      let own := (s.cur.ent.map fun (e : QEnt) => 0 < e.j && Tbl.find s.c.arr64.tokPc k == some e.pc).getD false
      guardT s (own || !(s.c.tok k).bound s.T) cTokenBusy kont
    | none => kont

/-- The descriptor of two scalars, with a reissue's advance (R350, R351). -/
def State.descOf (s : State) (a b : BitVec 6) (o : ArrOp) : ArrOp :=
  let x := (s.sreg a).toNat
  let y := (s.sreg b).toNat
  let j := (s.cur.ent.map (·.j)).getD 0
  { o with base := x % 2 ^ 32 + j * (y % 2 ^ 24), pitch := x / 2 ^ 32 % 65536, rot := y / 2 ^ 24 % 16 }

/-- The checks of a descriptor operand (R351). -/
def descCheck (s : State) (a b : BitVec 6) (o : ArrOp) (k : ArrOp → Out) : Out :=
  let o := s.descOf a b o
  guardT s ((s.sreg a).toNat / 2 ^ 48 == 0 && (s.sreg b).toNat / 2 ^ 28 == 0 && o.rot ≤ 5) cIllegalOperand <|
    guardT s (o.base % 16 == 0) cAlignment <|
      guardT s ((List.range o.rows).all fun r => o.rowAddr r + o.rowLen ≤ s.c.share) cScratchBounds (k o)

/-- The checks of an operand that may be a stream (R352): it must be bound, with dir 0. -/
def aopCheck (s : State) (src : AOp) (o : ArrOp) (k : ArrOp → Out) : Out :=
  match src with
  | .desc a b => descCheck s a b { o with aty := s.c.arr64.aty } k
  | .strm n =>
    let v : VOp := .v (n.setWidth 8)
    vcheck s [(v, 1)] <|
      let i := s.vnum v 1
      guardT s (s.c.bound i && !(s.c.slot i).dir) cIllegalOperand (k { o with strm := some i, aty := (s.c.slot i).rfmt })

/-- The entry interval in half ticks of a LIN plane and an activation type, where they go together (R347). -/
def mmRp (f : Nat × Bool × Bool) (t : Ty) : Option Nat :=
  if f.2.1 then none
  else if f.1 = 0xB && (t == .a8 || t == .i8) then some (if f.2.2 then 1 else 2)
  else if f.1 = 0x9 && (t == .bf16 || t == .a8) then some (if f.2.2 then 4 else 8)
  else none

/-- Format of the front plane that a word which issues now will find (R359). -/
def State.front (s : State) : Nat × Bool × Bool := (s.c.arr64.willBe s.c.arr64.nextId).1

/-- ARRAY_FORMAT of mm, mmg and mmrot (R347, R359). -/
def mmFormat (s : State) (o : ArrOp) (k : ArrOp → Out) : Out :=
  match mmRp s.front o.aty with
  | some rp => k { o with rp2 := rp }
  | none => trapO s cArrayFormat

/-- The word stands in its lane, with its issue noted, and binds its token (R346, R359, R373). -/
def State.enqueued (s : State) (o : ArrOp) : State :=
  let reps := (s.cur.ent.map s.c.repCount).getD 0
  let o := { o with
    id := s.c.arr64.nextId
    t := s.T
    pc := s.pcNow
    ent := s.cur.ent
    more := o.tok.isSome && (s.cur.ent.map fun (e : QEnt) => decide (e.j < reps)).getD false }
  s.updC fun c =>
    let c := match o.tok with
      | some k => c.bind k
      | none => c
    let a := c.arr64
    let tp := match o.tok with
      | some k => if reps = 0 then a.tokPc else Tbl.put a.tokPc k o.pc
      | none => a.tokPc
    { c with arr64 := { a with ops := a.ops ++ [o], nextId := o.id + 1, tokPc := tp } }

/-- A lane holds eight words at most (R346). -/
def laneOpen (s : State) (load : Bool) (k : Out) : Out := if 8 ≤ s.c.arr64.held load then ok s.stall else k
/-- The word enters its lane. -/
def enqueue (s : State) (o : ArrOp) (k : State → Out) : Out := laneOpen s o.load (k (s.enqueued o))

/-- The word enters its lane and does no more. -/
def enqueueO (s : State) (o : ArrOp) : Out :=
  let l := s.here
  enqueue s o fun s => ok (s.arrKick l)

/-- The arrival at the gang's barrier (R364, R365): a mismatch is found as soon as it is known, and in a timed phase on the
tick after; sixteen arrivals release it 4 ticks later. -/
def State.gangArrive (s : State) : State :=
  let g := gangOf s.me
  let p := s.here.part
  let f := (s.c.arr64.willBe (s.c.arr64.nextId - 1)).1
  let fc := f.1 + (if f.2.1 then 32 else 0) + (if f.2.2 then 16 else 0)
  let s := if s.c.kind == .elastic then s.blockIn .mmg else s
  let s := s.updGang g fun x => { x with arrs := x.arrs ++ [(p, s.me, s.bitsNow / 2 ^ 32, fc, s.T)] }
  let s := if s.gangAgrees g p && (s.gang g).badAt != some (p, s.tick) then s else s.gangMismatch g p
  let n := ((s.gang g).arrs.filter fun a => a.1 == p).length
  let s := if s.c.kind == .elastic || n = 0 then s else s.schedIn 1 (.gangBarrierRelease g p)
  if n = 16 then s.schedIn 4 (.gangBarrierRelease g p) else s

/-- The activation type of the gang's row: that of tile 0's operand, which decodes it for every tile (R363). -/
def State.gangAty (s : State) (src : AOp) : Ty :=
  let c := s.ctx ⟨gangOf s.me * 16, s.here.part⟩
  match src with
  | .desc .. => c.arr64.aty
  | .strm n => (c.slot (s.vnum (.v (n.setWidth 8)) 1)).rfmt

/-- The operation of the gang: the box must cover it, every tile's vector operand lies in the window, and only tile 0's
operand is read (R179, R363, R365). -/
def gangCheck (s : State) (src : AOp) (o : ArrOp) (k : ArrOp → Out) : Out :=
  guardT s ((s.region s.c.region).eff.ex == 16) cGangMismatch <|
    if tileX s.me = 0 then aopCheck s src o k
    else match src with
      | .desc .. => k { o with aty := s.gangAty src }
      | .strm n => vcheck s [(.v (n.setWidth 8), 1)] (k { o with aty := s.gangAty src })

/-- rows. -/
def rowsN (r : Rows) : Nat := r.n1.toNat + 1

/-! ### The words (R358) -/

/-- mwld (R360). -/
def execMwld (t : Ty) (back cmp : Bool) (sc a b : BitVec 6) (k : BitVec 3) (s : State) : Out :=
  let o : ArrOp :=
    { i := .mwld t back cmp sc a b k, id := 0, load := back, tok := some k.toNat
      rows := if t == .t8 && cmp then 32 else 64, rp2 := if t == .t8 && !cmp then 1 else 2
      sc := (s.sreg sc).toNat }
  mFirst s true (some k.toNat) <|
    descCheck s a b o fun o =>
      guardT s (t != .t8 || o.sc % 16 == 0) cAlignment <|
        guardT s (t != .t8 || o.sc + 64 ≤ s.c.share) cScratchBounds <| enqueueO s o
/-- mfmt: for words that issue on the next tick or later (R361). -/
def execMfmt (t : Ty) (s : State) : Out :=
  mFirst s true none <| ok (s.updC fun c => { c with arr64 := { c.arr64 with aty := t } })
/-- mm (R362). -/
def execMm (w : MmOp) (s : State) : Out :=
  let o : ArrOp :=
    { i := .mm w, id := 0, tok := some w.k.toNat, d := w.d.toNat, rows := rowsN w.rows, r0 := w.rows.r0.toNat, z := w.z
      aty := s.c.arr64.aty }
  mFirst s true o.tok <| aopCheck s w.src o fun o => mmFormat s o fun o => enqueueO s o
/-- mmg (R363 to R365). -/
def execMmg (w : MmOp) (s : State) : Out :=
  let o : ArrOp :=
    { i := .mmg w, id := 0, tok := some w.k.toNat, d := w.d.toNat, rows := rowsN w.rows, r0 := w.rows.r0.toNat, z := w.z
      aty := s.c.arr64.aty }
  mFirst s true o.tok <| gangCheck s w.src o fun o => mmFormat s o fun o =>
    enqueue s o fun s => ok s.gangArrive
/-- mmrot (R366, R367). -/
def execMmrot (z : Bool) (w : ArrD) (s : State) : Out :=
  let o : ArrOp :=
    { i := .mmrot z w, id := 0, tok := some w.k.toNat, d := w.d.toNat, rows := rowsN w.rows, r0 := w.rows.r0.toNat, z := z
      aty := s.c.arr64.aty }
  mFirst s (s.c.kind == .compute) o.tok <| descCheck s w.a w.b o fun o => mmFormat s o fun o => enqueueO s o
/-- macrd (R368). -/
def execMacrd (t : Ty) (r : Rnd) (sat : Bool) (w : ArrD) (s : State) : Out :=
  let o : ArrOp :=
    { i := .macrd t r sat w, id := 0, tok := some w.k.toNat, d := w.d.toNat, rows := rowsN w.rows, r0 := w.rows.r0.toNat
      aty := s.c.arr64.aty }
  mFirst s true o.tok <| descCheck s w.a w.b o fun o => enqueueO s o
/-- macwr (R369). -/
def execMacwr (t : Ty) (w : ArrD) (s : State) : Out :=
  let o : ArrOp :=
    { i := .macwr t w, id := 0, tok := some w.k.toNat, d := w.d.toNat, rows := rowsN w.rows, r0 := w.rows.r0.toNat
      aty := s.c.arr64.aty }
  mFirst s true o.tok <| descCheck s w.a w.b o fun o => enqueueO s o
/-- macclr (R370). -/
def execMacclr (d : BitVec 3) (rows : Rows) (s : State) : Out :=
  mFirst s true none <|
    enqueueO s { i := .macclr d rows, id := 0, d := d.toNat, rows := rowsN rows, r0 := rows.r0.toNat }
/-- mbank (R371). -/
def execMbank (s : State) : Out := mFirst s true none <| enqueueO s { i := .mbank, id := 0 }
/-- mmstat (R372). -/
def execMmstat (clr : Bool) (d : BitVec 6) (k : BitVec 3) (s : State) : Out :=
  mFirst s true (some k.toNat) <|
    enqueueO s { i := .mmstat clr d k, id := 0, tok := some k.toNat, d := s.c.sdst d.toNat }

end Sys2Proof.Machine
end

