-- ==== Sys2Proof/Machine/Pace.lean ====
section
/-! DEFINITION. The governor: needs, demand and cap, deadline risk and misses, P-state changes, rails and canaries,
limiter and package caps, region power, the heat contract and the firmware's heartbeat (R201 to R220, R223). -/

namespace Sys2Proof.Machine

/-! ### Needs and risk (R208, R211) -/

/-- tm.now in units of 2^-16 ns, its fraction counted (R196). -/
def State.tm16 (s : State) : Nat := s.tmNow * 65536 + s.tmFrac
/-- Whether an amount of ticks fits into a time, in units of 2^-16 ns, at a P-state: remaining / f(P) ≤ avail (R208). -/
def fits (remaining avail : Int) (p : Nat) : Bool := remaining * (tickUnits p : Int) * 65536 ≤ avail * 504
/-- The need of an entry with so many ticks left and so much time, in units of 2^-16 ns, to the deadline less its guard
(R208). -/
def needFor (remaining avail : Int) : Nat :=
  if remaining ≤ 0 then 0 else ((List.range 8).reverse.find? (fits remaining avail)).getD 0

/-- Whether deadline risk is raised: the rest does not fit even at 2.0 GHz, or the budget is spent (R211). -/
def atRisk (remaining avail : Int) (overrun : Bool) : Bool := overrun || remaining * 65536 > 2 * avail

/-- The running strand of lowest number of a region, wherever its context stands (R211). -/
def State.firstStrand (s : State) (r : Nat) : Option Loc :=
  ((s.placesOf (s.region r).part).filter fun l => (s.ctx l).live && (s.ctx l).region == r).foldl (fun (best : Option Loc) l => match best with
    | some b => if s.strandNo r l < s.strandNo r b then some l else some b
    | none => some l) none

/-- Raises deadline risk: dlrisk in the RCB at once, and the event (R211). -/
def State.raiseRisk (s : State) (r : Nat) : State :=
  let s := s.updRegion r fun g => { g with risk := true }
  let s := s.rcb80 r
  match s.firstStrand r with
  | some l => s.uiRaise l 0 (s.region r).step
  | none => s

/-- One entry at an evaluation: its need, its overrun and its risk; an entry with no live deadline or no budget has none
(R206, R208, R211). -/
def State.paceEntry (s : State) (r : Nat) : State :=
  let g := s.region r
  match g.pace with
  | none => s
  | some p => match p.dl, p.budget with
    | some dl, some b =>
      let remaining : Int := (b : Int) - (p.elapsed s.tick : Int)
      let avail : Int := ((dl : Int) - (g.eff.dlguard : Int)) * 65536 - (s.tm16 : Int)
      let overrun : Bool := p.overrun || remaining ≤ 0
      let risk := !p.risked && atRisk remaining avail overrun
      let p := { p with need := some (needFor remaining avail), overrun := overrun, risked := p.risked || risk }
      let s := s.updRegion r fun g => { g with pace := some p }
      if risk then s.raiseRisk r else s
    | _, _ => if p.need.isSome then s.updRegion r fun g => { g with pace := some { p with need := none } } else s

/-! ### Demand (R203, R209) -/

/-- The need that an entry adds to the demand: one whose context is active and whose region is neither OVERBUDGET nor
ballast (R209). -/
def Region.adds (g : Region) : Option Nat :=
  if g.alive && !g.overb && !g.eff.lvl then g.pace.bind fun p => if p.held.isNone then p.need else none else none

/-- Whether a region asks for the default P-state: running, no ballast, no live deadline (R209). -/
def Region.asksDefault (g : Region) : Bool := g.st == .running && !g.eff.lvl && (g.pace.bind (·.dl)).isNone

/-- The demand (R209). -/
def State.demand (s : State) : Nat :=
  let needs := s.regions.filterMap fun e => e.2.adds
  let dflt := if s.regions.any fun e => e.2.asksDefault then [min 7 s.gov.pdef] else []
  (needs ++ dflt).foldl min 7

/-- The P-state that the device is at or on its way to. -/
def State.heading (s : State) : Nat := s.gov.want.getD (s.gov.ramp.getD s.pnow)

/-- An evaluation applies a faster state at once, and a slower one once 16 in a row have found it sufficient (R203). -/
def State.applyDemand (s : State) : State :=
  let d := s.demand
  let asked := (d :: s.gov.asked).take 16
  let s := { s with gov := { s.gov with pdem := d, asked := asked } }
  let now := max d s.capNow
  let calm := max (asked.foldl min 7) s.capNow
  if now < s.heading then s.requestP now
  else if asked.length == 16 && s.heading < calm then s.requestP calm
  else s

/-- Every 1 µs the pace engine evaluates every entry and applies the demand (R203, R208, R209, R211). -/
def execPaceEvaluation (s : State) : Out :=
  let s := s.regions.foldl (fun s e => s.paceEntry e.1) s
  ok (s.applyDemand.schedIn (s.ticksOf 1000) .paceEvaluation)

/-- A step's deadline has passed: misses is counted, and with dlmiss the region and its descendants end as FAULTED (R31,
R212). Which tile the record of kind 8 names the spec does not say: here the origin of the region's box (DESIGN CHOICE,
assumption 82). -/
def execDeadlineMiss (region step : Nat) (s : State) : Out :=
  if !(s.region region).alive then ok s
  else
    let miss (p : PaceEnt) : PaceEnt := if (s.region region).step == step then { p with missed := true } else p
    let s := s.updRegion region fun g => { g with misses := min 0xFFFF (g.misses + 1), pace := g.pace.map miss }
    let s := s.rcb88 region
    let g := s.region region
    if g.eff.dlmiss then
      let r := { s.partStop g.part 8 cPhaseTimer (tileOf g.eff.ox g.eff.oy g.eff.oz) with region := region }
      ok ((s.sendStop r).endFamily region cPhaseTimer true)
    else ok s

/-! ### P-state changes (R202, R203) -/

/-- Events that come after a time, not after a number of ticks. -/
def evTimed : Ev → Bool
  | .paceEvaluation | .preemptDelayExpiry _ | .canaryHoldExpiry .. | .overcurrentTighten | .ygraceExpiry
  | .quadIdleExpiry _ | .wakeStage _ | .launchQueuePoll _ | .railRampDone => true
  | _ => false

/-- What comes after a time comes after as much of it as is left, in ticks of the new length. -/
def State.retime (s : State) (old new : Nat) : State :=
  let due (d : Nat) : Nat := s.tick + ((d - s.tick) * old + new - 1) / new
  let moved := (s.agenda.filter fun e => evTimed e.2).map fun e => (due e.1, e.2)
  moved.foldl (fun (s : State) e => s.sched e.1 e.2) (s.unsched evTimed)

/-- The frequency steps on every tile on one tick; after a step to a slower state the rails ramp (R202). -/
def execPStateChange (p : Nat) (s : State) : Out :=
  let slower := s.pnow < p
  let s := State.retime { (if slower then s.rampTo p else s) with pnow := min 7 p } (tickUnits s.pnow) (tickUnits p)
  if slower then ok (s.schedIn (1 + s.rampTicks) .railRampDone).tookDelay else ok (s.sched s.tick .railRampDone)

/-- A ramp is over: a change that waited for it proceeds (R202, R203). -/
def execRailRampDone (s : State) : Out :=
  let w := s.gov.want
  let s := { s with gov := { s.gov with ramp := none, want := none, band := none } }
  match w with
  | some p => ok (s.requestP (max p s.capNow))
  | none => ok s

/-! ### Canaries (R214) -/

/-- The offset that a canary window leaves a rail with, and whether it is held then. -/
def canaryStep (r : Rail) (n p off errors : Nat) : Nat × Bool :=
  if errors ≤ r.gthr then (if off < 15 && 400 ≤ railMv n p - 5 * (off + 1) then off + 1 else off, false)
  else (off - 2, true)

/-- A canary window of a rail ends: the firmware moves the offset of the applied P-state (R214, R223). -/
def execCanaryWindowEnd (rail errors : Nat) (s : State) : Out :=
  let r := s.gov.rail rail
  if !s.gov.fwok || r.frz || r.held.contains s.pnow then ok s
  else
    let x := canaryStep r rail s.pnow (Tbl.get 0 r.off s.pnow) errors
    let s := s.updRail rail fun r => { r with
      off := Tbl.set 0 r.off s.pnow x.1, held := if x.2 then s.pnow :: r.held else r.held }
    ok (if x.2 then s.schedIn (s.ticksOf 1000000000) (.canaryHoldExpiry ⟨rail, s.pnow⟩) else s)

/-- The hold of a rail's offset at a P-state ends (R214). -/
def execCanaryHoldExpiry (h : CanaryHold) (s : State) : Out :=
  ok (s.updRail h.rail fun r => { r with held := r.held.filter (· != h.p) })

/-! ### The overcurrent and package caps (R216) -/

/-- Whether a rail's 2 ms average lies above a part of its ilim, in percent; one with fewer than two samples does not. -/
def Rail.above (r : Rail) (percent : Nat) : Bool :=
  r.hist.length == 2 && r.ilim * 64 * percent < r.hist.foldl (· + ·) 0 * 100
/-- Whether the combined current or a rail is over its limit. -/
def Gov.exceeds (g : Gov) : Bool := 12000 < g.amps || g.rails.any fun r => r.above 100
/-- Whether everything is below 90 % of every limit. -/
def Gov.calmNow (g : Gov) : Bool :=
  g.amps * 100 < 12000 * 90 && g.rails.all fun r => r.hist.foldl (· + ·) 0 * 100 < r.ilim * 64 * 90

/-- Tightens the overcurrent cap, now and again in 100 µs. -/
def State.tightenOc (s : State) : State :=
  let s := s.unsched fun e => e == .overcurrentTighten
  let s := { s with gov := { s.gov with overrun := true, ocap := tighten s.gov.ocap s.pnow } }
  (s.schedIn (s.ticksOf 100000) .overcurrentTighten).applyCaps
/-- A limit that begins to be exceeded sets or tightens the cap at once. -/
def State.checkOver (s : State) : State :=
  if !s.gov.exceeds then { s with gov := { s.gov with overrun := false } }
  else if s.gov.overrun then s
  else s.tightenOc

/-- The limiter senses the combined core current (R216). -/
def execLimiterSample (amps : Nat) (s : State) : Out :=
  let s := { s with gov := { s.gov with amps := amps } }
  ok (State.checkOver { s with gov := { s.gov with calm := if s.gov.calmNow then s.gov.calm else 0 } })

/-- Every 100 µs while a limit is exceeded the cap tightens (R216). -/
def execOvercurrentTighten (s : State) : Out :=
  ok (if s.gov.exceeds then s.tightenOc else { s with gov := { s.gov with overrun := false } })

/-- The overcurrent cap is released by one state per 1 ms once everything has been below 90 % for 1 ms. -/
def State.releaseOc (s : State) : State :=
  let n := if s.gov.calmNow then s.gov.calm + 1 else 0
  let cap := if 2 ≤ n then release s.gov.ocap else s.gov.ocap
  { s with gov := { s.gov with calm := n, ocap := cap } }

/-- The package cap: one state slower per 10 ms while the average of the last ten samples is above plim, one faster per
10 ms while it is below 95 % of it. -/
def State.packageCap (s : State) : State :=
  let g := s.gov
  let sum := g.samples.foldl (· + ·) 0
  let full := g.samples.length == 10
  let overrun := full && g.plimNow * 10 < sum
  let under := full && sum * 100 < g.plimNow * 10 * 95
  let ripe := 10 ≤ g.pkgMs + 1
  if overrun && (g.pkg.isNone || ripe) then { s with gov := { g with pkg := tighten g.pkg s.pnow, pkgMs := 0 } }
  else if under && g.pkg.isSome && ripe then { s with gov := { g with pkg := release g.pkg, pkgMs := 0 } }
  else { s with gov := { g with pkgMs := g.pkgMs + 1 } }

/-- The sustained limit of a rail, in A: ilim of a core rail, and the table's of VDDIO, VDDQ and VSTBY (R217, R509). -/
def State.railLimit (s : State) (n : Nat) : Nat :=
  if n < 4 then 32 * (s.gov.rail n).ilim else match n with
    | 4 => 120 | 5 => 180 | _ => 6
/-- Whether a rail's current, averaged over 2 ms, lies above a limit (R509). -/
def PmRail.over (r : PmRail) (limit : Nat) : Bool := r.amps.length == 2 && 2 * limit < r.amps.foldl (· + ·) 0

/-- Every 1 ms: the rails' telemetry and the package power (R216 to R218, R220, R516). -/
def execTelemetrySample (watts : Nat) (rails : List RailSample) (s : State) : Out :=
  let s := (List.range 4).foldl (fun s n => match rails[n]? with
    | some x => s.updRail n fun r => { r with iamp := x.amps, vmv := x.mv, hist := (x.amps :: r.hist).take 2 }
    | none => s) s
  -- what PMBus reads; and a rail over its limit shows an overcurrent fault
  let p := s.dv.power
  let read (t : Tbl PmRail) (n : Nat) : Tbl PmRail := match rails[n]? with
    | some x => Tbl.put t n { mv := x.mv, temp := x.temp, amps := (x.amps :: (Tbl.get {} t n).amps).take 2 }
    | none => t
  let pr : Tbl PmRail := (List.range 7).foldl read p.pmRails
  let shown : Tbl Nat := (List.range 7).foldl (fun t n => if (Tbl.get {} pr n).over (s.railLimit n) then Tbl.put t n 0x4010 else t) p.faults
  let s := { s with dv := { s.dv with power := { p with
    pmRails := pr, pmVin := p.vinMv, faults := shown, alert := p.alert || !shown.isEmpty } } }
  let g := s.gov
  let s := { s with gov := { g with
    pwr := watts, samples := (watts :: g.samples).take 10, fwSamples := if g.fwok then g.fwSamples + 1 else 0
    winSum := g.winSum + watts, winN := g.winN + 1 } }
  let s : State := s.checkOver.releaseOc.packageCap
  let s := if 1000 ≤ s.gov.winN then s.sched s.tick .heatWindowEnd else s
  ok s.applyCaps.setGate

/-! ### Region power and the heat contract (R217 to R220) -/

/-- The firmware's estimate of a region's power: OVERBUDGET is set above its share, and cleared below 95 % of it, by the
mean of ten (R86, R217, R223). -/
def execRegionPowerEstimate (region watts : Nat) (s : State) : Out :=
  let g := s.region region
  if !s.gov.fwok || !g.alive then ok s
  else
    let ws := (watts :: g.watts).take 10
    let sum := ws.foldl (· + ·) 0
    let share := g.eff.power
    let overrun := if ws.length < 10 || share == 0 then false
      else if share * 10 < sum then true
      else if sum * 100 < share * 10 * 95 then false
      else g.overb
    let s := s.updRegion region fun g => { g with watts := ws, overb := overrun }
    ok (if g.overb && !overrun then s.kick else s)

/-- A 1 s window ends: its average is stored, and a window outside the contract band is counted (R220). -/
def execHeatWindowEnd (s : State) : Out :=
  let g := s.gov
  if g.winN = 0 then ok s
  else
    let sp := g.setptNow
    let out : Bool := sp != 0 &&
      (g.winSum * 1000 < sp * g.winN * (1000 - g.cband) || sp * g.winN * (1000 + g.cband) < g.winSum * 1000)
    ok { s with gov := { g with
      wavg := min 8191 (g.winSum / g.winN), wmiss := if out then min 0xFFFF (g.wmiss + 1) else g.wmiss, winSum := 0, winN := 0 } }

/-- The grace is over: a ballast task that was told to yield and still runs is pre-empted by a shadow swap, as soon as its
shadow banks allow one (R219). -/
def execYgraceExpiry (s : State) : Out :=
  let still := s.gov.yielding.filter fun x =>
    let c := s.ctx ⟨x.1, x.2⟩
    c.live && (s.region c.region).eff.lvl && s.inFg ⟨x.1, x.2⟩ && (s.part x.2).st == .active
  let ps := (still.map (·.2)).eraseDups
  let s := ps.foldl (fun s p => if s.canSwap p noPart (still.map (·.1)) then s.orderSwap p noPart else s) s
  let left := still.filter fun x => (s.part x.2).st == .active
  let s := { s with gov := { s.gov with yielding := left } }
  ok (if left.isEmpty then s else s.schedIn 1 .ygraceExpiry)

/-! ### The firmware's heartbeat (R223) -/

/-- The firmware misses its heartbeat (R223). -/
def execGeyserHeartbeatMiss (s : State) : Out := ok s.geyserOff

/-- The heartbeat returns, of the firmware in the bank in use: the cap lifts, and offsets stay at 0 (R80, R223). The spec does
not say whether this is a start of the firmware, after which the gate waits for five samples (R218): here it is
(DESIGN CHOICE, assumption 71). -/
def execGeyserHeartbeatReturn (s : State) : Out :=
  ok (State.setGate { s with
    gov := { s.gov with fwok := true, fwCap := false, fwSamples := 0 }
    dv := { s.dv with gfw := if s.dv.bankBoots 2 || s.dv.bankBoots 3 then s.dv.bankInUse 2 else s.dv.gfw } })

end Sys2Proof.Machine
end

