-- ==== Sys2Proof/Machine/Thermal.lean ====
section
/-! DEFINITION. Thermal sensors and their points, and the quads' switches (R99 to R103, R221, R222). -/

namespace Sys2Proof.Machine

/-! ### Sensors (R221, R222) -/

/-- Tiles of a thermal cell (R99). -/
def cellTiles (n : Nat) : List Nat :=
  (List.range 16).map fun i => tileOf (n % 4 * 4 + i % 4) (n / 4 % 4 * 4 + i / 4) (n / 16 % 16)
/-- The central tile of a cell that a sensor's record names (R452). -/
def cellTile (n : Nat) : Nat := tileOf (n % 4 * 4 + 1) (n / 4 % 4 * 4 + 1) (n / 16 % 16)

/-- A sensor's register after a conversion: its points, with their hysteresis; a failed sensor counts as 108 degrees, and
its fields keep the last reading (R221, R222). The spec does not say what holds for a cell whose failed sensor is masked: here
its points are released (DESIGN CHOICE, assumption 72). -/
def TsReg.convert (t : TsReg) (r : Reading) : TsReg :=
  let points (t : TsReg) (q : Int) : TsReg := { t with
    valid := true
    hot := if 412 ≤ q then true else if q < 400 then false else t.hot
    cap := if 432 ≤ q then true else if q < 420 then false else t.cap
    trip := t.trip || 464 ≤ q, stop := t.stop || 464 ≤ q }
  TsReg.settle (match r with
    | .temp q => points { t with temp := q, tmax := if t.valid then max t.tmax q else q, fail := false, masked := false } q
    | .fail => if t.masked then t else points { t with fail := true } 432
    | .masked => if t.fail then { t with masked := true, hot := false, cap := false } else t)

/-- Partitions whose box meets a cell (R221). -/
def State.partsIn (s : State) (cell : Nat) : List Nat :=
  (s.parts.map (·.1)).filter fun p => (cellTiles cell).any (s.region (s.part p).root).eff.inBox

/-- THERMAL_TRIP for every partition that the cell touches (R221, R452). -/
def State.tripCell (s : State) (cell : Nat) : State :=
  (s.partsIn cell).foldl (fun s p => s.trapPart p (s.partStop p 6 cThermalTrip (cellTile cell))) s

/-- The rail-off point: every partition ends as FAULTED with THERMAL_TRIP, and the core rails, then VDDIO and VDDQ, are off
(R221, R511, R515). -/
def State.railsOff (s : State) : State :=
  let s := (s.parts.map (·.1)).foldl (fun s p => s.endPart p cThermalTrip true) s
  { s with dv := { s.dv with power := { s.dv.power with
    on := s.dv.power.on.filter (fun r => r == 6), pgood := false, thermtrip := true } } }

/-- A conversion of a cell's sensor (R99, R221, R222). -/
def execSensorConversion (cell : Nat) (r : Reading) (s : State) : Out :=
  let old := s.tsReg cell
  let t := old.convert r
  let s := s.setTs cell t
  let s := { s with hotCells := s.hotCells.filter (· != cell) ++ (if t.hot then [cell] else []) }
  let q : Int := match r with
    | .temp q => q
    | .fail | .masked => 432
  let s := if 464 ≤ q && !(old.trip && 464 ≤ old.temp) then s.tripCell cell else s
  let s := if 500 ≤ q then s.railsOff else s
  let s := if old.hot && !t.hot then s.kick else s
  ok (if old.cap == t.cap then s else s.applyCaps)

/-- The management controller re-enables the rails once every sensor reads below 90 degrees (R221, R515). -/
def execRailsReenable (s : State) : Out :=
  let cool := s.ts.all fun e => e.2.masked || (!e.2.fail && e.2.temp < 360)
  if s.dv.power.thermtrip && cool then
    ok (State.kick { s with
      pnow := 7
      gov := { s.gov with ramp := none, want := none, band := none }
      agenda := s.agenda.filter (fun e => e.2 != .railRampDone && !(match e.2 with
        | .pStateChange _ => true
        | _ => false))
      dv := { s.dv with power := { s.dv.power with
        on := s.dv.power.on.filter (fun r => r == 6) ++ [5, 4, 3, 2, 1, 0], pgood := true, thermtrip := false } } })
  else ok s

/-! ### Quads (R100 to R103) -/

/-- Whether a tile keeps its quad from resting: a strand in a bank, or an engine operation outstanding (R101). -/
def State.tileBusy (s : State) (t : Nat) : Bool :=
  let k := s.core t
  let busy (c : Ctx) : Bool := c.live || c.starting || c.cq.any (fun e => e.2.any fun x => x.fin.isNone) ||
    !c.arr64.ops.isEmpty || !c.pushes.isEmpty || c.strm.any (fun e => !e.2.fly.isEmpty)
  busy k.fg || busy k.bg

/-- At the end of a tick the idle time of every ACTIVE quad is as its tiles are: it begins when the last of them has nothing
left to do (R101). -/
def State.watchQuads (s : State) : State :=
  s.quads.foldl (fun s e =>
    let x := Tbl.get {} s.quads e.1
    if x.st != 0 then s
    else
      let busy := (quadTiles e.1).any s.tileBusy
      if busy && x.idleFrom.isSome then { s with quads := Tbl.put s.quads e.1 { x with idleFrom := none } }
      else if !busy && x.idleFrom.isNone then s.quadRest ((quadTiles e.1).headD 0)
      else s) s

/-- A quad that has been idle for ctl.pgate.idle µs enters RETAIN; one that has not is looked at again when it may have
been (R101). -/
def execQuadIdleExpiry (quad : Nat) (s : State) : Out :=
  let x := Tbl.get {} s.quads quad
  match x.idleFrom with
  | some t0 =>
    let idle := 1000 * max 1 s.pgIdle * tmUnit
    if x.st != 0 || !s.pgEn then ok s
    else if (quadTiles quad).any s.tileBusy then ok { s with quads := Tbl.put s.quads quad { x with idleFrom := none } }
    else if s.tm < t0 + idle then
      ok (s.schedIn (max 1 ((t0 + idle - s.tm + s.tmStep - 1) / s.tmStep)) (.quadIdleExpiry quad))
    else ok (s.quadSink quad 1)
  | none => ok s

/-- A wake is asked for: it begins in its turn, and where the layer has ctl.pgate.waves of them it waits; a switch-off in
progress stops at once, and the wake turns on the stages that it had turned off (R102, R103). -/
def execQuadWake (quad : Nat) (s : State) : Out :=
  let x := Tbl.get {} s.quads quad
  if x.st == 0 || x.waking || s.wakeQ.contains quad then ok s
  else
    let s := s.unsched fun e => e == .wakeStage quad
    ok (State.startWakes { s with quads := Tbl.put s.quads quad { x with sinking := false }, wakeQ := s.wakeQ ++ [quad] }
      (quad / 64))

/-- A stage of a wake ends, and after the eighth the quad is ACTIVE and the next wake of its layer begins; or a stage has been
turned off (R102). -/
def execWakeStage (quad : Nat) (s : State) : Out :=
  let x := Tbl.get {} s.quads quad
  if x.sinking then ok (State.quadSink { s with quads := Tbl.put s.quads quad { x with stage := x.stage - 1 } } quad x.st)
  else if !x.waking then ok s
  else if x.stage + 1 < 8 then
    ok (State.schedIn { s with quads := Tbl.put s.quads quad { x with stage := x.stage + 1 } } (s.ticksOf 250)
      (.wakeStage quad))
  else ok ((s.quadUp quad).startWakes (quad / 64))

end Sys2Proof.Machine
end

