-- ==== Sys2Proof/Machine/Module.lean ====
section
/-! DEFINITION. The module: power-up and power-down, resets, coolant, PMBus and the time engine (R78, R80, R196 to R198,
R509 to R516). -/

namespace Sys2Proof.Machine

/-- Changes what power-up and PMBus hold. -/
def State.updPower (s : State) (f : Power → Power) : State := { s with dv := { s.dv with power := f s.dv.power } }

/-! ### Power-up (R80, R510, R512) -/

/-- The coolant interlock: inlet at or below 50 degrees, and flow at or above 2.5 L/min, held for 1 s (R512). -/
def State.ilkMet (s : State) : Bool :=
  let p := s.dv.power
  p.coolV && p.tin ≤ 200 && p.flowFrom.any fun t => s.ticksOf 1000000000 ≤ s.tick - t

/-- The rails of a step of power-up, in order (R510). -/
def stepRails (n : Nat) : List Nat :=
  match n with
  | 1 => [6] | 2 => [5, 4] | 3 => [3, 2] | 4 => [1, 0] | _ => []

/-- A step of power-up begins: its rails turn on, and each is in band after a free time, within 10 ms; or one of them, as free a
choice, is not by then (R510, assumption 8). Once they are in band the next step is looked at, if PWREN is asserted. -/
def State.beginStep (s : State) (n : Nat) (on : List Nat) : State :=
  let s := s.updPower fun p => { p with stage := n, on := on, stepAt := s.tick }
  let limit := s.ticksOf 10000000
  let rails := stepRails n
  if s.delay < limit then
    let s' := s.updPower fun p => { p with bandAt := some (s.tick + 1 + s.delay) }
    State.tookDelay (if s.dv.power.pwren then s'.schedIn (1 + s.delay) .pwrenAssert else s')
  else
    State.tookDelay (State.schedIn (s.updPower fun p => { p with bandAt := none }) (limit + 1)
      (.railBandTimeout (rails.getD (s.delay % rails.length) 6)))

/-- The next step of power-up, where its condition holds and every rail of the step before is in band (R510). THERMTRIP_N is
released with the core rails on again (R511). -/
def State.powerStep (s : State) : State :=
  let p := s.dv.power
  if !(p.bandAt.any fun t => t ≤ s.tick) then s
  else match p.stage with
  | 1 => if p.pwren && p.booted then s.beginStep 2 [6, 5, 4] else s
  | 2 => if s.ilkMet then (s.updPower fun p => { p with ilk := true }).beginStep 3 [6, 5, 4, 3, 2] else s
  | 3 => State.beginStep { s.updPower (fun p => { p with thermtrip := false }) with pnow := 7 } 4 [6, 5, 4, 3, 2, 1, 0]
  | 4 => (s.updPower fun p => { p with stage := 5, pgood := true }).kick
  | _ => s

/-- VIN within 40 V to 60 V turns VSTBY on, and the management controller boots (R509, R510). -/
def execVinApplied (mv : Nat) (s : State) : Out :=
  let s := s.updPower fun p => { p with vinMv := mv }
  if 40000 ≤ mv && mv ≤ 60000 && s.dv.power.stage == 0 then ok (s.boot.beginStep 1 [6]) else ok s

/-- PWREN is asserted: the rails come on in order, each step once the one before is in band (R510). -/
def execPwrenAssert (s : State) : Out :=
  let s := s.updPower fun p => { p with pwren := true }
  match s.dv.power.bandAt with
  | some t => if s.tick < t then ok (s.sched t .pwrenAssert) else ok s.powerStep
  | none => ok s

/-- The step of power-up that turns a rail on (R510). -/
def railStep (n : Nat) : Nat := if n = 6 then 1 else if 4 ≤ n then 2 else if 2 ≤ n then 3 else 4

/-- A rail of the step in progress has not reached its band in 10 ms: the rails already on are switched off, VSTBY apart,
and the management controller records the rail and answers only in recovery mode (R510). -/
def execRailBandTimeout (rail : Nat) (s : State) : Out :=
  let p := s.dv.power
  if p.stage == railStep rail && rail < 7 && !(p.bandAt.any fun t => t ≤ s.tick) && s.ticksOf 10000000 ≤ s.tick - p.stepAt then
    let s := s.unsched fun e => e == .pwrenAssert
    ok (s.updPower fun p => { p with
      on := [6], badRail := some rail, recovery := true, booted := false, stage := 0, pgood := false
      faults := Tbl.put p.faults rail 0x8800, alert := true })
  else ok s

/-! ### Power-down and resets (R78, R511, R515) -/

/-- A module power cycle: every partition ends, every context is lost, no completion is posted, and every register is at
its reset value. What flash and the owner's blob hold, what is made per module, what lies outside the device and the
model's own fields stay (R78, R79, R511). -/
def State.powerCycle (s : State) (power : Power) : State :=
  { State.reset with
    tick := s.tick, tm := s.tm, fresh := s.fresh, outside := s.outside, hv := s.hv, bg := s.bg
    agenda := [(s.tick + 600, .paceEvaluation)]
    dv := { State.reset.dv with
      cfg := s.dv.cfg, flashCtr := s.dv.flashCtr, cfgCtr := s.dv.cfgCtr, fwFloor := s.dv.fwFloor
      ownerHash := s.dv.ownerHash, banks := s.dv.banks, mfw := s.dv.mfw, gfw := s.dv.gfw, harvested := s.dv.harvested
      groups := s.dv.groups, power := power } }

/-- PWREN is deasserted: the rails switch off in order, a module power cycle; VSTBY and THERMTRIP_N stay (R511). -/
def execPwrenDeassert (s : State) : Out :=
  let p := s.dv.power
  ok (s.powerCycle { vinMv := p.vinMv, pwren := false, on := if p.on.contains 6 then [6] else [], pgood := false
                     recovery := p.recovery, booted := p.booted, badRail := p.badRail
                     stage := min 1 p.stage, thermtrip := p.thermtrip, bandAt := some s.tick, pmRails := p.pmRails
                     pmVin := p.pmVin })

/-- VIN falls below 38 V: the rails switch off, a module power cycle; VSTBY goes with VIN (R509, R511). -/
def execVinLoss (s : State) : Out :=
  ok (s.powerCycle { vinMv := 0, pwren := s.dv.power.pwren, on := [], pgood := false, booted := false, stage := 0
                     thermtrip := s.dv.power.thermtrip, pmRails := [], pmVin := 0 })

/-- A PCIe fundamental reset: the queue registers return to their reset values, and every partition ends without a
completion; the rails are unaffected (R78, R511). -/
def execPerstN (s : State) : Out :=
  let s := (s.parts.map (·.1)).foldl (fun s p => s.endPart p (s.part p).code false) s
  let polls (e : Ev) : Bool := match e with
    | .launchQueuePoll _ | .consumeEntry _ | .nopEntry .. | .launch .. => true
    | _ => false
  let s := s.unsched polls
  ok { s with seqs := [], atc := [], dv := { s.dv with qps := [], ide := [], ideCover := [], ideKeys := [] } }

/-- The management controller restarts, and partitions keep running (R78, R80, R515). -/
def execMcRstN (s : State) : Out := ok (State.setPollingAll { s.boot with dv := { s.boot.dv with doe := [] } })

/-! ### Coolant (R512, R513) -/

/-- The management controller records a reading of the coolant, in 0.25 degree, 0.01 L/min and kPa units (R512, R513). -/
def execCoolReading (tin tout : Int) (flow dp : Nat) (s : State) : Out :=
  let hot : Bool := 200 < tin
  let low : Bool := flow < 250
  let s := s.updPower fun p => { p with
    tin := tin, tout := tout, flow := flow, dp := dp, coolHot := hot, coolLow := low, coolV := true
    flowFrom := if low then none else some (p.flowFrom.getD s.tick) }
  -- power-up waits for the interlock in its second step
  ok (if s.dv.power.stage == 2 then s.powerStep else s)

/-- ctl.cool (R513). -/
def Power.ctlCool (p : Power) : Nat :=
  sfld p.tin 12 52 + sfld p.tout 12 40 + fld p.flow 12 28 + fld p.dp 10 18 + bit p.coolHot 3 + bit p.coolLow 2 +
    bit p.ilk 1 + bit p.coolV 0

/-! ### Reads in BAR0 (R69, R94, R222) -/

/-- The number by which a strand reads a register that BAR0 holds at an offset. -/
def bar0Csr (off : Nat) : Option Nat :=
  if 0x2000 ≤ off ∧ off < 0x2200 then some (0x040 + (off - 0x2000) / 8)
  else if 0x2200 ≤ off ∧ off < 0x2280 then some (0x080 + (off - 0x2200) / 8)
  else if 0x3000 ≤ off ∧ off < 0x3800 then some (0x100 + (off - 0x3000) / 8)
  else if off = 0x3800 then some 0x00F
  else if off = 0x3808 then some 0x00E
  else if off = 0x3810 then some 0x010
  else if 0x3820 ≤ off ∧ off < 0x3840 then some (0x018 + (off - 0x3820) / 8)
  else if 0x3900 ≤ off ∧ off < 0x3A00 then some (0x0C0 + (off - 0x3900) / 8)
  else if off = 0x3A00 then some 0x011
  else if 0x5000 ≤ off ∧ off < 0x5100 then some (0x090 + (off - 0x5000) / 8)
  else if 0x6000 ≤ off ∧ off < 0x6800 then some (0x200 + (off - 0x6000) / 8)
  else if 0x6800 ≤ off ∧ off < 0x6880 then some (0x0B0 + (off - 0x6800) / 8)
  else none

/-- A queue pair's register (R69). -/
def QPair.read (x : QPair) (off : Nat) : Nat :=
  match off with
  | 0x00 => x.base
  | 0x08 => fld x.poll 16 16 + fld x.lsize 4 0
  | 0x10 => x.next
  | 0x18 => bit x.run 10 + bit x.crpt 9 + bit x.ovr 8 + bit x.en 0
  | 0x20 => x.cbase
  | 0x28 => bit x.ien 16 + fld x.vec 8 8 + fld x.clsize 4 0
  | 0x30 => x.tail
  | _ => x.head

/-- A register of BAR0; none at an offset that holds none. -/
def State.bar0 (s : State) (off : Nat) : Option Nat :=
  if off = 0x0800 then some s.dv.pdelay
  else if off = 0x0808 then some (fld s.recs.length 17 0)
  else if 0x1000 ≤ off ∧ off < 0x1100 then some ((s.qp ((off - 0x1000) / 0x40)).read (off % 0x40))
  else if off = 0x3B00 then some s.dv.power.ctlCool
  else if 0x4000 ≤ off ∧ off < 0x4080 then some (Tbl.get 0 s.dv.b2ma ((off - 0x4000) / 8)).toNat
  else (bar0Csr off).map s.csr

/-- A read of BAR0: of 8 bytes, else it returns all ones (R69). A read of a sensor register returns it and sets its tmax to
the current reading (R222). In recovery mode it is not answered (R80). -/
def execTsRead (r : BarRead) (s : State) : Out :=
  let off := r.off
  let answer (s : State) (v : Option Word) : Out := ok { s with dv := { s.dv with bar0 := v } }
  if !s.answers then answer s none
  else if r.width != 8 || off % 8 != 0 then answer s (some (BitVec.allOnes 64))
  else match s.bar0 off with
    | some v => answer (s.csrSeen ((bar0Csr off).getD 0)) (some (BitVec.ofNat 64 v))
    | none => answer { s with fresh := s.fresh + 1 } (some (Config.bar0Hole off s.fresh))

/-! ### PMBus (R516) -/

/-- The module's PMBus address, 0x40 to 0x47, which the system board's strap sets. -/
def pmAddr : Nat := 0x40 + Config.pmStrap.toNat

/-- PMBus answers; in recovery mode nothing but the DOE mailbox does (R80). -/
def State.pmAnswer (s : State) (v : PmAns) : Out :=
  ok (s.updPower fun p => { p with pmAns := if s.answers then v else .silent })

/-- A read of the page's rail: what its last sample holds (R516); a command that a page does not have is unsupported. -/
def State.pmRead (s : State) (f : PmRail → Int) : Out :=
  let p := s.dv.power
  s.pmAnswer (if p.page < 7 then .value (f (Tbl.get {} p.pmRails p.page)) else .unsupported)

/-- PAGE: a rail, 0 to 6, or 0xFF (R516); any other is invalid data (PRESUMED, assumption 13). A command at another address is
none of this module's. -/
def execPmPage (x : PmPage) (s : State) : Out :=
  if x.addr != pmAddr then ok s
  else if (x.page < 7 || x.page == 0xFF) && s.answers then (s.updPower fun p => { p with page := x.page }).pmAnswer (.value x.page)
  else s.pmAnswer .invalid

/-- READ_VOUT, in mV (R516). -/
def execReadVout (s : State) : Out := s.pmRead fun r => r.mv
/-- READ_IOUT, in A (R516). -/
def execReadIout (s : State) : Out := s.pmRead fun r => (r.amps.headD 0 : Nat)
/-- READ_TEMPERATURE_1 (R516). -/
def execReadTemperature1 (s : State) : Out := s.pmRead fun r => r.temp

/-- STATUS_WORD of a page: its faults, and OFF while its rail is off. -/
def Power.statusWord (p : Power) (page : Nat) : Nat :=
  Nat.lor (Tbl.get 0 p.faults page) (if p.on.contains page then 0 else 0x0840)

/-- STATUS_WORD (R516). -/
def execStatusWord (s : State) : Out :=
  let p := s.dv.power
  s.pmAnswer (if p.page < 7 then .value (p.statusWord p.page) else .unsupported)

/-- CLEAR_FAULTS: the page's faults, or every page's on page 0xFF, and ALERT_N is released where no condition remains
(R516). -/
def execClearFaults (s : State) : Out :=
  let p := s.dv.power
  let fs := if p.page == 0xFF then [] else Tbl.del p.faults p.page
  -- a rail that is still over its limit shows its fault again
  let fs := (List.range 7).foldl (fun t n => if (Tbl.get {} p.pmRails n).over (s.railLimit n) then Tbl.put t n 0x4010 else t) fs
  let caps := s.gov.ocap.isSome || s.gov.pkg.isSome || s.gov.dcap
  ok (if s.answers then s.updPower fun p => { p with faults := fs, alert := caps || !fs.isEmpty } else s)

/-- READ_PIN, in W, on page 0xFF (R516). -/
def execReadPin (s : State) : Out := s.pmAnswer (if s.dv.power.page == 0xFF then .value s.gov.pwr else .unsupported)
/-- READ_VIN, in mV, on page 0xFF: that of the last sample (R516). -/
def execReadVin (s : State) : Out := s.pmAnswer (if s.dv.power.page == 0xFF then .value s.dv.power.pmVin else .unsupported)
/-- A write that belongs to Geyser alone is refused with the invalid-data status (R516). -/
def execPmbusRefusedWrite (_cmd : Nat) (s : State) : Out := s.pmAnswer .invalid
/-- Any other command is answered as unsupported (R516). -/
def execPmbusUnsupported (_cmd : Nat) (s : State) : Out := s.pmAnswer .unsupported

/-! ### The time engine (R197, R198, R515) -/

/-- A 1588 message of the engine's domain reaches a port, and is timestamped (R197). A sync is answered with a delay request
and passed on at the device's other ports (a boundary clock); the answer to the request gives the offset from the
grandmaster, which goes to ctl.tmstat with the lock, and the rate is slewed by at most 500 ppm; with no live partition tm.now
is stepped by the offset (R197, R198). A delay request is answered. A message of another domain is passed over. -/
def execPtpMessage (dom port : Nat) (m : PtpMsg) (s : State) : Out :=
  let now : Int := s.tmNow
  let sent (s : State) (ps : List Nat) : State :=
    { s with dv := { s.dv with ptpSent := (ps.map fun p => (p, now)) ++ s.dv.ptpSent } }
  if dom != s.dv.cfg.ptpdom || s.dv.portsDown.contains port then ok s
  else match m with
    | .sync t1 =>
      let s := { s with dv := { s.dv with ptpPort := port, ptpT1 := t1, ptpT2 := now, ptpT3 := now } }
      ok (sent s (port :: (List.range zheostPorts).filter fun p => p != port && !s.dv.portsDown.contains p))
    | .delayResp t4 lock slewPpm =>
      if port != s.dv.ptpPort then ok s
      else
        let off := ((s.dv.ptpT2 - s.dv.ptpT1) - (t4 - s.dv.ptpT3)) / 2
        let stepped := ((s.tm : Int) - off * (tmUnit : Int)).toNat
        ok { s with
          dv := { s.dv with lock := lock, off := off }
          slew := min 500 (max (-500) slewPpm)
          tm := if s.parts.isEmpty then stepped else s.tm }
    | .delayReq => ok (sent s [port])

/-- A pulse per second reaches the engine: what it does with it shows in its next exchange (R197, R515). -/
def execPpsIn (s : State) : Out := ok s

end Sys2Proof.Machine
end

