-- ==== Sys2Proof/Machine/VecCol.lean ====
section
/-! DEFINITION. The V column: vector and lane-mask words (R247 to R269). -/

namespace Sys2Proof.Machine

/-- Every lane. -/
def allLanes : Lane := 0xFFFFFFFF

/-! ### Shared shapes -/

/-- Element by element over one source: `f` on elements of width w. -/
def map1 (w : Nat) (f : Nat → FRes) (a : Vec) : List FRes := (elems w a).map f
/-- Element by element over two sources. -/
def map2 (w : Nat) (f : Nat → Nat → FRes) (a b : Vec) : List FRes := List.zipWith f (elems w a) (elems w b)
/-- Element by element over three sources. -/
def map3 (w : Nat) (f : Nat → Nat → Nat → FRes) (a b c : Vec) : List FRes :=
  List.zipWith (fun g z => g z) (List.zipWith f (elems w a) (elems w b)) (elems w c)

/-- A word with D, A and B: window, streams, elements, flags of the enabled lanes, result (R178, R248, R249, R283). -/
def vec3 (s : State) (lat w : Nat) (o : V3) (f : Nat → Nat → FRes) : Out :=
  vcheck s [(o.d, 0), (o.a, 1), (o.b, 2)] <|
    let d := s.vnum o.d 0
    let srcs := [s.vnum o.a 1, s.vnum o.b 2]
    let m := s.lanes o.msk
    withV s srcs (some d) fun vs =>
      let rs := map2 w f (vs.getD 0 0) (vs.getD 1 0)
      vecDone s srcs lat d m (vecOf w (rs.map (·.bits))) (maskFlags m (laneFlags w rs))

/-- A word with D and A. -/
def vec2 (s : State) (lat w : Nat) (o : V2) (f : Nat → FRes) : Out :=
  vcheck s [(o.d, 0), (o.a, 1)] <|
    let d := s.vnum o.d 0
    let srcs := [s.vnum o.a 1]
    let m := s.lanes o.msk
    withV s srcs (some d) fun vs =>
      let rs := map1 w f (vs.getD 0 0)
      vecDone s srcs lat d m (vecOf w (rs.map (·.bits))) (maskFlags m (laneFlags w rs))

/-- A four-operand word: every lane is enabled (R248). -/
def vec4 (s : State) (lat w : Nat) (o : V4) (f : Nat → Nat → Nat → FRes) : Out :=
  vcheck s [(o.d, 0), (o.a, 1), (o.b, 2), (o.c, 3)] <|
    let d := s.vnum o.d 0
    let srcs := [s.vnum o.a 1, s.vnum o.b 2, s.vnum o.c 3]
    withV s srcs (some d) fun vs =>
      let rs := map3 w f (vs.getD 0 0) (vs.getD 1 0) (vs.getD 2 0)
      vecDone s srcs lat d allLanes (vecOf w (rs.map (·.bits))) (laneFlags w rs)

/-- A word that works on whole vectors and raises nothing. -/
def raw3 (s : State) (lat : Nat) (o : V3) (f : Vec → Vec → Vec) : Out :=
  vcheck s [(o.d, 0), (o.a, 1), (o.b, 2)] <|
    let d := s.vnum o.d 0
    let srcs := [s.vnum o.a 1, s.vnum o.b 2]
    withV s srcs (some d) fun vs => vecDone s srcs lat d (s.lanes o.msk) (f (vs.getD 0 0) (vs.getD 1 0)) []

/-- The same with one source and lanes of its own choice; `pm`: the lanes that its mask enables, where they differ. -/
def raw2 (s : State) (lat : Nat) (d a : VOp) (m : Lane) (f : Vec → Vec) (sn : List Src := []) (pm : Option Lane := none) :
    Out :=
  vcheck s [(d, 0), (a, 1)] <|
    let dn := s.vnum d 0
    let srcs := [s.vnum a 1]
    withV s srcs (some dn) fun vs => vecDone s srcs lat dn m (f (vs.getD 0 0)) [] sn pm

/-- A vector destination written from scalars. -/
def vecFromS (s : State) (lat : Nat) (d : VOp) (a : Src) (m : Mask) (v : Vec) : Out :=
  vcheck s [(d, 0)] <|
    let dn := s.vnum d 0
    withV s [] (some dn) fun _ => vecDone s [] lat dn (s.lanes m) v [] [a]

/-- A pattern result without flags. -/
def fr (b : Nat) : FRes := ⟨b, 0⟩

/-! ### Float words (R253 to R256) -/

/-- vadd (R253). -/
def execVadd (f : Fm) (o : V3) (s : State) : Out := vec3 s 4 (tyBits f.t) o (fAdd f.t f.r f.sat)
/-- vsub (R253). -/
def execVsub (f : Fm) (o : V3) (s : State) : Out := vec3 s 4 (tyBits f.t) o (fSub f.t f.r f.sat)
/-- vmul (R253). -/
def execVmul (f : Fm) (o : V3) (s : State) : Out := vec3 s 4 (tyBits f.t) o (fMul f.t f.r f.sat)
/-- vfma: a*b + c (R253). -/
def execVfma (t : Ty) (r : Rnd) (o : V4) (s : State) : Out := vec4 s 4 (tyBits t) o (fFma t r false false)
/-- vfms: a*b - c (R253). -/
def execVfms (t : Ty) (r : Rnd) (o : V4) (s : State) : Out := vec4 s 4 (tyBits t) o (fFma t r false true)
/-- vfnma: c - a*b (R253). -/
def execVfnma (t : Ty) (r : Rnd) (o : V4) (s : State) : Out := vec4 s 4 (tyBits t) o (fFma t r true false)
/-- vmin (R244, R254). -/
def execVmin (t : Ty) (o : V3) (s : State) : Out := vec3 s 2 (tyBits t) o (fMinMax t false false)
/-- vminp (R244, R254). -/
def execVminp (t : Ty) (o : V3) (s : State) : Out := vec3 s 2 (tyBits t) o (fMinMax t false true)
/-- vmax (R244, R254). -/
def execVmax (t : Ty) (o : V3) (s : State) : Out := vec3 s 2 (tyBits t) o (fMinMax t true false)
/-- vmaxp (R244, R254). -/
def execVmaxp (t : Ty) (o : V3) (s : State) : Out := vec3 s 2 (tyBits t) o (fMinMax t true true)

/-- A sign operation: a NaN gives the canonical NaN, and a signalling one raises invalid (R254). -/
def signOp (t : Ty) (f : Nat → Nat) (a : Nat) : FRes :=
  let v := decF t a
  if v.isNan then ⟨nanOf t, if v.sig then flNv else 0⟩ else fr (f a)

/-- vabs (R254). -/
def execVabs (t : Ty) (o : V2) (s : State) : Out :=
  vec2 s 2 (tyBits t) o (signOp t fun a => a % 2 ^ (tyBits t - 1))
/-- vneg (R254). -/
def execVneg (t : Ty) (o : V2) (s : State) : Out :=
  vec2 s 2 (tyBits t) o (signOp t fun a => a ^^^ 2 ^ (tyBits t - 1))

/-- A float comparison of vcmp and its flag (R260). -/
def fCmp (cc : Cond) (a b : Nat) : Bool × Flags :=
  let x := decF .f32 a
  let y := decF .f32 b
  let nan := x.isNan || y.isNan
  let sig := x.sig || y.sig
  let c := x.cmp y
  let r := match cc with
    | .eq => !nan && c == .eq
    | .ne => nan || c != .eq
    | .lt => !nan && c == .lt
    | .le => !nan && c != .gt
    | .gt => !nan && c == .gt
    | .ge => !nan && c != .lt
    | .tst => nan
  let inv := match cc with
    | .lt | .le | .gt | .ge => nan
    | .eq | .ne | .tst => sig
  (r, if inv then flNv else 0)

/-- One lane of vcmp. -/
def vcmpLane (cc : Cond) (t : Ty) (a b : Nat) : Bool × Flags :=
  if t == .f32 then fCmp cc a b else (cmpCond cc t (tyVal t a) (tyVal t b), 0)

/-- A mask from the bits of a list. -/
def maskOf (bs : List Bool) : Lane := BitVec.ofNat 32 (bs.foldr (fun b acc => (if b then 1 else 0) + 2 * acc) 0)

/-- vcmp: disabled lanes keep their bit (R260). -/
def execVcmp (cc : Cond) (t : Ty) (d : BitVec 3) (a b : VOp) (msk : Mask) (s : State) : Out :=
  vcheck s [(a, 1), (b, 2)] <|
    let srcs := [s.vnum a 1, s.vnum b 2]
    let m := s.lanes msk
    withV s srcs none fun vs =>
      let rs := List.zipWith (vcmpLane cc t) (elems 32 (vs.getD 0 0)) (elems 32 (vs.getD 1 0))
      let fs := ((List.range 32).zip rs).filterMap fun x => if x.2.2 = 0 then none else some (x.1, x.2.2)
      regDone s srcs 2 (.m d.toNat m (maskOf (rs.map (·.1)))) (maskFlags m fs) [] m

/-- vsel: lane by lane from A where the mask bit is 1 (R259). -/
def execVsel (d a b : VOp) (c : BitVec 3) (s : State) : Out :=
  vcheck s [(d, 0), (a, 1), (b, 2)] <|
    let dn := s.vnum d 0
    let srcs := [s.vnum a 1, s.vnum b 2]
    withV s srcs (some dn) fun vs =>
      vecDone s srcs 1 dn allLanes (mergeLanes (s.c.mreg c.toNat) (vs.getD 0 0) (vs.getD 1 0)) []

/-- vand (R259). -/
def execVand (o : V3) (s : State) : Out := raw3 s 1 o fun a b => a &&& b
/-- vor (R259). -/
def execVor (o : V3) (s : State) : Out := raw3 s 1 o fun a b => a ||| b
/-- vxor (R259). -/
def execVxor (o : V3) (s : State) : Out := raw3 s 1 o fun a b => a ^^^ b

/-! ### Integer words (R256 to R258) -/

/-- A vector shift, the amounts from B or from the immediate (R258). -/
def vshift (s : State) (t : Ty) (d a : VOp) (b : VAmt) (msk : Mask) (f : Nat → Nat → Nat → Nat) : Out :=
  let w := tyBits t
  match b with
  | .v b => vec3 s 2 w ⟨d, a, b, msk⟩ fun x n => fr (f w x n)
  | .imm n => vec2 s 2 w ⟨d, a, msk⟩ fun x => fr (f w x n.toNat)

/-- vshl (R258). -/
def execVshl (t : Ty) (d a : VOp) (b : VAmt) (msk : Mask) (s : State) : Out := vshift s t d a b msk shlPat
/-- vshr (R258). -/
def execVshr (t : Ty) (d a : VOp) (b : VAmt) (msk : Mask) (s : State) : Out := vshift s t d a b msk shrPat
/-- vsar (R258). -/
def execVsar (t : Ty) (d a : VOp) (b : VAmt) (msk : Mask) (s : State) : Out := vshift s t d a b msk sarPat

/-- An integer result at the type's width, clamped with .sat (R257). -/
def intElem (t : Ty) (sat : Bool) (f : Int → Int → Int) (a b : Nat) : FRes :=
  let r := f (tyVal t a) (tyVal t b)
  fr (tyPat t (if sat then min (max r (tyLo t)) (tyHi t) else r))

/-- viadd (R257). -/
def execViadd (t : Ty) (sat : Bool) (o : V3) (s : State) : Out :=
  vec3 s 2 (tyBits t) o (intElem t sat fun a b => a + b)
/-- visub (R257). -/
def execVisub (t : Ty) (sat : Bool) (o : V3) (s : State) : Out :=
  vec3 s 2 (tyBits t) o (intElem t sat fun a b => a - b)
/-- vimul (R257). -/
def execVimul (t : Ty) (sat : Bool) (o : V3) (s : State) : Out :=
  vec3 s 3 (tyBits t) o (intElem t sat fun a b => a * b)
/-- vimin (R257). -/
def execVimin (t : Ty) (o : V3) (s : State) : Out := vec3 s 2 (tyBits t) o (intElem t false min)
/-- vimax (R257). -/
def execVimax (t : Ty) (o : V3) (s : State) : Out := vec3 s 2 (tyBits t) o (intElem t false max)

/-! ### Conversion and layout (R262 to R266) -/

/-- vcvt: lane by lane, a narrow source from the low bits, a narrow result with the upper bits zero (R262). -/
def execVcvt (f : Fm) (st : Ty) (o : V2) (s : State) : Out :=
  vec2 s 3 32 o fun a => convert f.t st f.r f.sat (a % 2 ^ tyBits st)

/-- vpack (R263). -/
def execVpack (byte : Bool) (o : V3) (s : State) : Out :=
  raw3 s 2 o fun a b =>
    if byte then vecOf 8 ((elems 16 a ++ elems 16 b).map (· % 256))
    else vecOf 16 ((elems 32 a ++ elems 32 b).map (· % 65536))

/-- vunpack (R263). -/
def execVunpack (byte hi sgn : Bool) (o : V2) (s : State) : Out :=
  raw2 s 2 o.d o.a (s.lanes o.msk) fun a =>
    if byte then
      vecOf 16 (((elems 8 a).drop (if hi then 64 else 0)).take 64 |>.map fun x =>
        if sgn then (sextN x 8 % 65536).toNat else x)
    else
      vecOf 32 (((elems 16 a).drop (if hi then 32 else 0)).take 32 |>.map fun x =>
        if sgn then (sextN x 16 % 4294967296).toNat else x)

/-- vbcast (R264). -/
def execVbcast (t : Ty) (d : VOp) (a : Src) (msk : Mask) (s : State) : Out :=
  let w := tyBits t
  vecFromS s 1 d a msk (vecOf w (List.replicate (1024 / w) ((s.src a).toNat % 2 ^ w)))

/-- vext: sign-extended for i types, else zero-extended (R264). -/
def execVext (t : Ty) (d : BitVec 6) (a : VOp) (i : XIdx) (s : State) : Out :=
  vcheck s [(a, 1)] <|
    let srcs := [s.vnum a 1]
    let w := tyBits t
    let n := match i with
      | .s b => (s.src b).toNat
      | .imm n => n.toNat
    let sn := match i with
      | .s b => [b]
      | .imm _ => []
    withV s srcs none fun vs =>
      regDone s srcs 2 (.s (s.c.sdst d.toNat) (BitVec.ofInt 64 (tyVal t (elem w (n % (1024 / w)) (vs.getD 0 0))))) [] sn

/-- vperm: reads every lane of A, whatever the mask (R265). -/
def execVperm (o : V3) (s : State) : Out :=
  raw3 s 2 o fun a b => vecOf 32 ((elems 32 b).map fun x => if x / 32 % 2 = 1 then 0 else elem 32 (x % 32) a)

/-- vrot (R265). -/
def execVrot (d a : VOp) (n : SAmt) (msk : Mask) (s : State) : Out :=
  let k := match n with
    | .s b => (s.src b).toNat % 32
    | .imm n => n.toNat
  let sn := match n with
    | .s b => [b]
    | .imm _ => []
  raw2 s 2 d a (s.lanes msk) (fun v => vecOf 32 ((List.range 32).map fun i => elem 32 ((i + k) % 32) v)) sn

/-- vsqz: the mask selects lanes and does not protect D (R266). -/
def execVsqz (o : V2) (s : State) : Out :=
  let m := s.lanes o.msk
  raw2 s 2 o.d o.a allLanes (fun v =>
    vecOf 32 ((List.range 32).filterMap fun i => if m.getLsbD i then some (elem 32 i v) else none)) [] (some m)

/-! ### Reductions over lanes (R267, R268) -/

/-- The identity of a reduction (R267). -/
def redIdent (t : Ty) (op : RedOp) : Nat :=
  match op with
  | .add => if t == .f32 then 0x80000000 else 0
  | .min => if t == .f32 then 0x7F800000 else tyPat t (tyHi t)
  | .max => if t == .f32 then 0xFF800000 else tyPat t (tyLo t)

/-- One combination: float sums round .ne, float minima and maxima follow vminp and vmaxp (R245, R267). -/
def redOp (t : Ty) (op : RedOp) (a b : Nat) : FRes :=
  match op with
  | .add => if t == .f32 then fAdd .f32 .ne false a b else intElem t false (· + ·) a b
  | .min => if t == .f32 then fMinMax .f32 false true a b else intElem t false min a b
  | .max => if t == .f32 then fMinMax .f32 true true a b else intElem t false max a b

/-- An entry of the tree: value, and the lowest enabled lane whose value entered it. -/
abbrev RedEnt := Nat × Option Nat

/-- One level of the pairwise tree, the left operand first. -/
def redLevel (t : Ty) (op : RedOp) : List RedEnt → List RedEnt × List (Nat × Flags)
  | a :: b :: r =>
    let (es, fs) := redLevel t op r
    let x := redOp t op a.1 b.1
    let lane := match a.2, b.2 with
      | some i, some j => some (min i j)
      | some i, none => some i
      | none, y => y
    ((x.bits, lane) :: es, (if x.fl = 0 then [] else [(lane.getD 0, x.fl)]) ++ fs)
  | es => (es, [])

/-- The levels down to one entry. -/
def redTree (t : Ty) (op : RedOp) : Nat → List RedEnt → Nat × List (Nat × Flags)
  | 0, es => ((es.head?.map (·.1)).getD 0, [])
  | fuel + 1, es =>
    let (es', fs) := redLevel t op es
    let (v, gs) := redTree t op fuel es'
    (v, fs ++ gs)

/-- vredl: every lane of D takes the result (R267). -/
def execVredl (t : Ty) (op : RedOp) (o : V2) (s : State) : Out :=
  vcheck s [(o.d, 0), (o.a, 1)] <|
    let d := s.vnum o.d 0
    let srcs := [s.vnum o.a 1]
    let m := s.lanes o.msk
    withV s srcs (some d) fun vs =>
      let es := ((List.range 32).zip (elems 32 (vs.getD 0 0))).map fun x =>
        if m.getLsbD x.1 then (x.2, some x.1) else (redIdent t op, none)
      let (v, fs) := redTree t op 5 es
      vecDone s srcs 6 d allLanes (vecOf 32 (List.replicate 32 v)) fs [] (some m)

/-- The prefix of vscan from a lane on: disabled lanes are skipped (R268). -/
def scanFrom (t : Ty) (op : RedOp) (m : Lane) : Nat → Nat → List Nat → List FRes
  | _, _, [] => []
  | i, acc, a :: r =>
    if m.getLsbD i then
      let x := redOp t op acc a
      x :: scanFrom t op m (i + 1) x.bits r
    else fr 0 :: scanFrom t op m (i + 1) acc r

/-- vscan (R268). -/
def execVscan (t : Ty) (op : RedOp) (o : V2) (s : State) : Out :=
  vcheck s [(o.d, 0), (o.a, 1)] <|
    let d := s.vnum o.d 0
    let srcs := [s.vnum o.a 1]
    let m := s.lanes o.msk
    withV s srcs (some d) fun vs =>
      let rs := scanFrom t op m 0 (redIdent t op) (elems 32 (vs.getD 0 0))
      vecDone s srcs 8 d m (vecOf 32 (rs.map (·.bits))) (laneFlags 32 rs)

/-! ### vdot2, vclamp, vround, vmov (R253, R255, R256, R259) -/

/-- One lane of vdot2: the exact sum of c and two products, rounded once to FP32 (R253). -/
def dot2 (r : Rnd) (a b c : Nat) : FRes :=
  let va := [decF .bf16 (a % 65536), decF .bf16 (a / 65536)]
  let vb := [decF .bf16 (b % 65536), decF .bf16 (b / 65536)]
  let vc := decF .f32 c
  let p0 := mulX (va.getD 0 vc) (vb.getD 0 vc)
  let p1 := mulX (va.getD 1 vc) (vb.getD 1 vc)
  let isInf (x : XV) (n : Bool) : Bool := x == .inf n
  let xs := [vc.x, p0.x, p1.x]
  let opp := xs.any (isInf · true) && xs.any (isInf · false)
  let fl := p0.fl ||| p1.fl ||| (if opp || vc.sig then flNv else 0)
  let sum := addX r (addX r vc.x p0.x).x p1.x
  let y := roundF .f32 r false sum.x
  ⟨y.bits, y.fl ||| fl⟩

/-- vdot2 (R253). -/
def execVdot2 (r : Rnd) (o : V4) (s : State) : Out := vec4 s 4 32 o (dot2 r)

/-- One element of vclamp (R256). -/
def clampElem (t : Ty) (a b c : Nat) : FRes :=
  if t.isFloat then
    let x := fMinMax t true false a b
    let y := fMinMax t false false x.bits c
    ⟨y.bits, x.fl ||| y.fl⟩
  else fr (tyPat t (min (max (tyVal t a) (tyVal t b)) (tyVal t c)))

/-- vclamp (R256). -/
def execVclamp (t : Ty) (o : V4) (s : State) : Out := vec4 s 2 (tyBits t) o (clampElem t)

/-- One element of vround (R255). -/
def roundElem (t : Ty) (r : Rnd) (a : Nat) : FRes :=
  match decF t a with
  | .nan sig => ⟨nanOf t, if sig then flNv else 0⟩
  | .inf _ => fr a
  | .fin neg m e =>
    if m = 0 then fr a
    else
      let (n, inx) := roundMag r neg m e false 0
      if inx then ⟨(roundF t .ne false (.num neg n 0 false)).bits, flNx⟩ else fr a

/-- vround (R255). -/
def execVround (t : Ty) (r : Rnd) (o : V2) (s : State) : Out := vec2 s 3 (tyBits t) o (roundElem t r)
/-- vmov (R259). -/
def execVmov (o : V2) (s : State) : Out := raw2 s 1 o.d o.a (s.lanes o.msk) fun a => a

/-! ### Mask words (R261) -/

/-- Operand B of a mask word. -/
def State.maskSrc (s : State) : MSrc → Lane
  | .m n => s.c.mreg n.toNat
  | .s b => (s.src b).setWidth 32

/-- A mask word: all 32 bits. -/
def mask3 (s : State) (z : Bool) (d a : BitVec 3) (b : MSrc) (f : Lane → Lane → Lane) : Out :=
  let s' := match b with
    | .s x => s.seen x
    | .m _ => s
  ok (s'.result 1 (.m d.toNat allLanes (f (if z then 0 else s.c.mreg a.toNat) (s.maskSrc b))))

/-- mand (R261). -/
def execMand (z : Bool) (d a : BitVec 3) (b : MSrc) (s : State) : Out := mask3 s z d a b fun x y => x &&& y
/-- mor (R261). -/
def execMor (z : Bool) (d a : BitVec 3) (b : MSrc) (s : State) : Out := mask3 s z d a b fun x y => x ||| y
/-- mxor (R261). -/
def execMxor (z : Bool) (d a : BitVec 3) (b : MSrc) (s : State) : Out := mask3 s z d a b fun x y => x ^^^ y
/-- mnot (R261). -/
def execMnot (d a : BitVec 3) (s : State) : Out := ok (s.result 1 (.m d.toNat allLanes (~~~ s.c.mreg a.toNat)))
/-- vlane (R264). -/
def execVlane (t : Ty) (d : VOp) (a : Src) (msk : Mask) (s : State) : Out :=
  vecFromS s 1 d a msk (vecOf (tyBits t) ((List.range 32).map fun i => ((s.src a).toNat + i) % 2 ^ 32))

/-! ### vkeep (R269) -/

/-- The sorting key of an element: a NaN stands above every number. -/
def keepKey (t : Ty) (e : Nat) : Option (Nat × Int) :=
  if t.isFloat then
    match decF t e with
    | .nan _ | .inf _ => none
    | .fin _ m x => some (m, x)
  else some ((tyVal t e).natAbs, 0)

/-- Whether the first element ranks before the second: NaN, then infinity, then magnitude. -/
def keepAbove (t : Ty) (a b : Nat) : Bool :=
  let na := t.isFloat && (decF t a).isNan
  let nb := t.isFloat && (decF t b).isNan
  if nb then false else if na then true
  else match keepKey t a, keepKey t b with
    | _, none => false
    | none, some _ => true
    | some x, some y => magGt x.1 x.2 y.1 y.2

/-- Indices kept of a group: those with fewer than four ranked before them, equal keys by index. -/
def keepIdx (t : Ty) (es : List Nat) : List Nat :=
  (List.range 8).filter fun i =>
    let ei := es.getD i 0
    let above := (List.range 8).filter fun j =>
      let ej := es.getD j 0
      keepAbove t ej ei || (j < i && !keepAbove t ei ej)
    above.length < 4

/-- The kept values and the metadata half-word of a group. -/
def keepGroup (t : Ty) (es : List Nat) : List Nat × Nat :=
  let ix := keepIdx t es
  let isN (e : Nat) : Bool := t.isFloat && (decF t e).isNan
  let vals := ix.map fun i => let e := es.getD i 0; if isN e then nanOf t else e
  let meta_ := ((List.range 4).zip ix).foldl (fun acc x => acc + x.2 * 2 ^ (3 * x.1)) 0
  (vals, meta_ + (if es.any isN then 4096 else 0))

/-- What vkeep makes of a vector: the kept values below the metadata, and the flags of each lane. -/
def keepVec (t : Ty) (v : Vec) : Vec × List (Nat × Flags) :=
  let w := tyBits t
  let es := elems w v
  let gs := (chunks8 128 es).map (keepGroup t)
  let vals := (vecOf w (gs.flatMap (·.1))).toNat % 2 ^ 512
  let metas := (vecOf 16 (gs.map (·.2))).toNat % 2 ^ 512
  (BitVec.ofNat 1024 (vals + 2 ^ 512 * metas), ((List.range es.length).zip es).filterMap fun x =>
    if t.isFloat && (decF t x.2).sig then some (laneOf w x.1, flNv) else none)

/-- vkeep (R269). -/
def execVkeep (t : Ty) (d a : VOp) (s : State) : Out :=
  vcheck s [(d, 0), (a, 1)] <|
    let dn := s.vnum d 0
    let srcs := [s.vnum a 1]
    withV s srcs (some dn) fun vs =>
      vecDone s srcs 4 dn allLanes (keepVec t (vs.getD 0 0)).1 (keepVec t (vs.getD 0 0)).2

end Sys2Proof.Machine
end

