-- ==== Sys2Proof/Machine/SfuCol.lean ====
section
/-! DEFINITION. The F column: correctly rounded functions, random numbers and spline bases (R270 to R277). -/

namespace Sys2Proof.Machine

/-- frcp (R271). -/
def execFrcp (f : Fm) (o : V2) (s : State) : Out := vec2 s 10 (tyBits f.t) o (fRcp f.t f.r f.sat)
/-- frsq (R271). -/
def execFrsq (f : Fm) (o : V2) (s : State) : Out := vec2 s 10 (tyBits f.t) o (fRsq f.t f.r f.sat)
/-- fsqrt (R271). -/
def execFsqrt (f : Fm) (o : V2) (s : State) : Out := vec2 s 10 (tyBits f.t) o (fSqrt f.t f.r f.sat)
/-- fdiv (R271). -/
def execFdiv (f : Fm) (o : V3) (s : State) : Out := vec3 s 10 (tyBits f.t) o (fDiv f.t f.r f.sat)

/-- A transcendental word. -/
def vecTrans (fn : TFn) (f : Fm) (o : V2) (s : State) : Out := vec2 s 12 (tyBits f.t) o (fTrans fn f.t f.r f.sat)

/-- fexp2 (R271). -/
def execFexp2 (f : Fm) (o : V2) (s : State) : Out := vecTrans .exp2 f o s
/-- flog2 (R271). -/
def execFlog2 (f : Fm) (o : V2) (s : State) : Out := vecTrans .log2 f o s
/-- fsin (R271). -/
def execFsin (f : Fm) (o : V2) (s : State) : Out := vecTrans .sin f o s
/-- fcos (R271). -/
def execFcos (f : Fm) (o : V2) (s : State) : Out := vecTrans .cos f o s
/-- ftanh (R271). -/
def execFtanh (f : Fm) (o : V2) (s : State) : Out := vecTrans .tanh f o s
/-- fsig (R271). -/
def execFsig (f : Fm) (o : V2) (s : State) : Out := vecTrans .sig f o s
/-- fsilu (R271). -/
def execFsilu (f : Fm) (o : V2) (s : State) : Out := vecTrans .silu f o s
/-- fgelu (R271). -/
def execFgelu (f : Fm) (o : V2) (s : State) : Out := vecTrans .gelu f o s

/-- A random fraction n * 2^-k, which the type holds exactly. -/
def fracBits (t : Ty) (n k : Nat) : Nat := (roundF t .ne false (.num false n (-(k : Int)) false)).bits

/-- One lane of frng (R277). -/
def rngLane (t : Ty) (key : Word) (hi a : Nat) : Nat :=
  let res := (tephra key (BitVec.ofNat 64 (hi % 2 ^ 32 * 2 ^ 32 + a % 2 ^ 32))).toNat
  if t == .f32 then fracBits .f32 (res / 256 % 2 ^ 24) 24
  else if t == .bf16 then fracBits .bf16 (res / 2 ^ 24 % 256) 8 + 65536 * fracBits .bf16 (res / 2 ^ 56) 8
  else res % 2 ^ 32

/-- frng (R277): ctl.rngkey is read on the issue tick. -/
def execFrng (t : Ty) (d a : VOp) (b : Src) (msk : Mask) (s : State) : Out :=
  let hi := (s.src b).toNat
  let key := s.c.rngkey
  raw2 s 6 d a (s.lanes msk) (fun v => vecOf 32 ((elems 32 v).map (rngLane t key hi))) [b]

/-- frngk: the key lands at the end of the issue tick plus 5 (R276). -/
def execFrngk (a b : Src) (s : State) : Out :=
  ok (((s.seen a).seen b).result 6 (.key (tephra (s.src a) (s.src b))))

/-- fbasis: kn.lo and kn.inv are read on the issue tick (R273). -/
def execFbasis (r : Rnd) (sat : Bool) (k : BasisSel) (o : V2) (s : State) : Out :=
  let g := s.gang (gangOf s.me)
  vec2 s 6 32 o (fBasis r sat k g.lo.toNat g.inv.toNat)

/-- fldexp (R272). -/
def execFldexp (f : Fm) (o : V3) (s : State) : Out := vec3 s 2 (tyBits f.t) o (fLdexp f.t f.r f.sat)

end Sys2Proof.Machine
end

