-- ==== Sys2Proof/Machine/SplCol.lean ====
section
/-! DEFINITION. The spline words and the landing of knot (R376, R381 to R393). -/

namespace Sys2Proof.Machine

/-- ARRAY_FORMAT of the spline words (R382): the front plane must be SPL, the activation type AF8 or BF16, and kn.g within
the plane's limit. `k` is given whether the plane is TS8, and whether it is wide. -/
def splFormat (s : State) (t : Ty) (k : Bool → Bool → Out) : Out :=
  let f := s.front
  let g := (s.gang (gangOf s.me)).g.toNat
  guardT s (f.2.1 && (t == .a8 || t == .bf16) && 1 ≤ g && g ≤ (if f.2.2 then 29 else 13)) cArrayFormat
    (k (f.1 == 0xB) f.2.2)

/-- knot (R384). -/
def execKnot (a b : BitVec 6) (s : State) : Out :=
  let x := (s.sreg a).toNat
  let y := (s.sreg b).toNat
  let fin (n : Nat) : Bool := n / 2 ^ 23 % 256 != 255
  let lo := x % 2 ^ 32
  let inv := x / 2 ^ 32
  let g := y % 256
  let mode := y / 256 % 256
  guardT s (!s.c.ui.inh) cHandlerMatrix <|
    guardT s (fin lo && fin inv && inv != 0 && inv < 2 ^ 31 && 1 ≤ g && g ≤ 29 && mode ≤ 2 && y / 65536 == 0)
      cIllegalOperand <|
      ok (s.schedAt s.here (s.T + 2)
        (.knotLand s.here (BitVec.ofNat 32 lo) (BitVec.ofNat 32 inv) (BitVec.ofNat 8 g) (BitVec.ofNat 8 mode)))

/-- A knot set lands on every tile of the gang; of two on one tick, that of the highest x stands, and of one tile's, the last (R384). -/
def execKnotLand (l : Loc) (lo inv : Lane) (g mode : BitVec 8) (s : State) : Out :=
  ok (s.updGang (gangOf l.tile) fun x =>
    if x.knAt.1 == s.tick && tileX l.tile < x.knAt.2 then x
    else { x with lo := lo, inv := inv, g := g, mode := mode, knAt := (s.tick, tileX l.tile) })

/-- Row length of splld in bytes (R385). -/
def splLen (t8 wide : Bool) : Nat := if t8 then (if wide then 544 else 560) else if wide then 1072 else 1104

/-- splld (R385). -/
def execSplld (t : Ty) (back wide : Bool) (sc a b : BitVec 6) (k : BitVec 3) (s : State) : Out :=
  let o : ArrOp :=
    { i := .splld t back wide sc a b k, id := 0, load := back, tok := some k.toNat
      rows := 32, rp2 := 2 * ((splLen (t == .t8) wide + 127) / 128), sc := (s.sreg sc).toNat }
  mFirst s true o.tok <|
    descCheck s a b o fun o =>
      guardT s (t != .t8 || o.sc % 16 == 0) cAlignment <|
        guardT s (t != .t8 || o.sc + 32 ≤ s.c.share) cScratchBounds <| enqueueO s o

/-- splev (R386). -/
def execSplev (w : MmOp) (s : State) : Out :=
  let o : ArrOp :=
    { i := .splev w, id := 0, tok := some w.k.toNat, d := w.d.toNat, rows := rowsN w.rows, r0 := w.rows.r0.toNat, z := w.z
      aty := s.c.arr64.aty }
  mFirst s true o.tok <| aopCheck s w.src o fun o =>
    splFormat s o.aty fun t8 _ => enqueueO s { o with rp2 := if t8 then 2 else 8 }

/-- splev.g (R387). -/
def execSplevG (w : MmOp) (s : State) : Out :=
  let o : ArrOp :=
    { i := .splevG w, id := 0, tok := some w.k.toNat, d := w.d.toNat, rows := rowsN w.rows, r0 := w.rows.r0.toNat, z := w.z
      aty := s.c.arr64.aty }
  mFirst s true o.tok <| gangCheck s w.src o fun o =>
    splFormat s o.aty fun t8 _ => enqueue s { o with rp2 := if t8 then 2 else 8 } fun s => ok s.gangArrive

/-- splbd (R388). -/
def execSplbd (z : Bool) (w : ArrD) (s : State) : Out :=
  let o : ArrOp :=
    { i := .splbd z w, id := 0, tok := some w.k.toNat, d := w.d.toNat, rows := rowsN w.rows, r0 := w.rows.r0.toNat, z := z
      aty := s.c.arr64.aty }
  mFirst s true o.tok <| descCheck s w.a w.b o fun o =>
    splFormat s o.aty fun t8 _ => enqueueO s { o with rp2 := if t8 then 4 else 16 }

/-- splgr (R390). -/
def execSplgr (w : ArrD) (s : State) : Out :=
  let o : ArrOp :=
    { i := .splgr w, id := 0, tok := some w.k.toNat, d := w.d.toNat, rows := rowsN w.rows, r0 := w.rows.r0.toNat
      aty := s.c.arr64.aty }
  mFirst s true o.tok <| descCheck s w.a w.b o fun o =>
    splFormat s o.aty fun _ _ => enqueueO s { o with rp2 := 8 }

/-- splgrd (R391). -/
def execSplgrd (a b : BitVec 6) (k : BitVec 3) (rows : Rows) (s : State) : Out :=
  let o : ArrOp :=
    { i := .splgrd a b k rows, id := 0, tok := some k.toNat, rows := rowsN rows, r0 := rows.r0.toNat, rp2 := 34 }
  mFirst s true o.tok <| descCheck s a b o fun o => enqueueO s o

/-- splgclr (R391). -/
def execSplgclr (s : State) : Out := mFirst s true none <| enqueueO s { i := .splgclr, id := 0 }

/-- grefine: G is read when the word issues; the test of 2G + 3 comes after the checks of R359, the full lane among them
(R392). -/
def execGrefine (k : BitVec 3) (s : State) : Out :=
  mFirst s true (some k.toNat) <|
    splFormat s .a8 fun _ wide =>
      let kn := s.knots s.me
      laneOpen s false <| guardT s (2 * kn.getD 2 0 + 3 ≤ (if wide then 32 else 16)) cIllegalOperand <|
        enqueueO s { i := .grefine k, id := 0, tok := some k.toNat, kn := kn }

/-- splst (R393). -/
def execSplst (clr : Bool) (d a : BitVec 6) (k : BitVec 3) (s : State) : Out :=
  let ad := (s.sreg a).toNat
  mFirst s true (some k.toNat) <|
    guardT s (ad % 16 == 0) cAlignment <| guardT s (ad + 128 ≤ s.c.share) cScratchBounds <|
      enqueueO s { i := .splst clr d a k, id := 0, tok := some k.toNat, d := s.c.sdst d.toNat, sc := ad }

end Sys2Proof.Machine
end

