-- ==== Sys2Proof/Machine/Tick.lean ====
section
/-! DEFINITION. What the passing of a tick brings by itself: tm.now, waits whose target it reaches, deadlines that it
passes, and the all-asleep detector (R9, R196, R200, R212, R456). -/

namespace Sys2Proof.Machine

/-- Places in the banks of every tile. -/
def State.allPlaces (s : State) : List Loc :=
  s.cores.flatMap fun e => (e.2.fg.part.toList ++ e.2.bg.part.toList).map fun p => ⟨e.1, p⟩

/-- The detector looks at every partition at the end of a tick (R456). -/
def State.watchSleep (s : State) : State :=
  s.parts.foldl (fun s e =>
    if s.allAsleepNow e.1 && !s.agenda.any (fun x => x.2 == .allAsleep e.1) then s.schedIn 1 (.allAsleep e.1) else s) s

/-- Deadlines that tm.now has passed are missed, each once (R212). -/
def State.watchDeadlines (s : State) : State :=
  s.regions.foldl (fun s e =>
    if e.2.alive && s.missDue e.1 then
      (s.updRegion e.1 fun g => { g with pace := g.pace.map fun p => { p with missed := true } }).sched s.tick
        (.deadlineMiss e.1 e.2.step)
    else s) s

/-- One tick of device time (R9, R196). -/
def State.advance (s : State) : State :=
  let s := s.watchSleep.watchQuads
  let s := { s with tick := s.tick + 1, tm := s.tm + s.tmStep }
  (s.allPlaces.foldl State.pollWaits s).watchDeadlines

/-- Tiles whose clocks run (R221). -/
def State.clocked (s : State) : Tbl Core :=
  if s.ts.any fun e => e.2.stop then s.cores.filter fun e => !s.clockStopped e.1 else s.cores

end Sys2Proof.Machine
end

