-- ==== Sys2Proof/Machine/Dispatch.lean ====
section
/-! DEFINITION. The meaning of every instruction word and every event: one arm for each constructor of `Instr`. -/

namespace Sys2Proof.Machine

/-- What an instruction or an event does. -/
def exec (i : Instr) (s : State) : Host.Outcome State Fault Refusal :=
  match i with
  | .br det off => Sys2Proof.Machine.execBr det off s
  | .call det d off => Sys2Proof.Machine.execCall det d off s
  | .ret det a => Sys2Proof.Machine.execRet det a s
  | .jmpi det a off => Sys2Proof.Machine.execJmpi det a off s
  | .loop det d off => Sys2Proof.Machine.execLoop det d off s
  | .nop => Sys2Proof.Machine.execNop s
  | .trap code => Sys2Proof.Machine.execTrap code s
  | .sleep mask => Sys2Proof.Machine.execSleep mask s
  | .phase sc kind sync step => Sys2Proof.Machine.execPhase sc kind sync step s
  | .bar sc tok => Sys2Proof.Machine.execBar sc tok s
  | .rfork q d a b off => Sys2Proof.Machine.execRfork q d a b off s
  | .join a => Sys2Proof.Machine.execJoin a s
  | .spawn chain k a b => Sys2Proof.Machine.execSpawn chain k a b s
  | .trigger => Sys2Proof.Machine.execTrigger s
  | .stepdl a b extra => Sys2Proof.Machine.execStepdl a b extra s
  | .waitt tok a => Sys2Proof.Machine.execWaitt tok a s
  | .follow dir => Sys2Proof.Machine.execFollow dir s
  | .detach => Sys2Proof.Machine.execDetach s
  | .rep a count len1 => Sys2Proof.Machine.execRep a count len1 s
  | .uiret => Sys2Proof.Machine.execUiret s
  | .uien mask => Sys2Proof.Machine.execUien mask s
  | .csrr d n => Sys2Proof.Machine.execCsrr d n s
  | .csrw d a n => Sys2Proof.Machine.execCsrw d a n s
  | .csrs d a n => Sys2Proof.Machine.execCsrs d a n s
  | .csrc d a n => Sys2Proof.Machine.execCsrc d a n s
  | .fence sc => Sys2Proof.Machine.execFence sc s
  | .tlbinv sc d range k => Sys2Proof.Machine.execTlbinv sc d range k s
  | .halt => Sys2Proof.Machine.execHalt s
  | .add sat o => Sys2Proof.Machine.execAdd sat o s
  | .sub sat o => Sys2Proof.Machine.execSub sat o s
  | .mul sat o => Sys2Proof.Machine.execMul sat o s
  | .mulh o => Sys2Proof.Machine.execMulh o s
  | .mulhn o => Sys2Proof.Machine.execMulhn o s
  | .div o => Sys2Proof.Machine.execDiv o s
  | .divn o => Sys2Proof.Machine.execDivn o s
  | .rem o => Sys2Proof.Machine.execRem o s
  | .remn o => Sys2Proof.Machine.execRemn o s
  | .and o => Sys2Proof.Machine.execAnd o s
  | .or o => Sys2Proof.Machine.execOr o s
  | .xor o => Sys2Proof.Machine.execXor o s
  | .andn o => Sys2Proof.Machine.execAndn o s
  | .shl o => Sys2Proof.Machine.execShl o s
  | .shr o => Sys2Proof.Machine.execShr o s
  | .sar o => Sys2Proof.Machine.execSar o s
  | .rol o => Sys2Proof.Machine.execRol o s
  | .clz o => Sys2Proof.Machine.execClz o s
  | .ctz o => Sys2Proof.Machine.execCtz o s
  | .popc o => Sys2Proof.Machine.execPopc o s
  | .min o => Sys2Proof.Machine.execMin o s
  | .max o => Sys2Proof.Machine.execMax o s
  | .minn o => Sys2Proof.Machine.execMinn o s
  | .maxn o => Sys2Proof.Machine.execMaxn o s
  | .abs sat o => Sys2Proof.Machine.execAbs sat o s
  | .neg sat o => Sys2Proof.Machine.execNeg sat o s
  | .sel t d a b c => Sys2Proof.Machine.execSel t d a b c s
  | .cmp cc t d a b => Sys2Proof.Machine.execCmp cc t d a b s
  | .ldi hi t d imm => Sys2Proof.Machine.execLdi hi t d imm s
  | .mov o => Sys2Proof.Machine.execMov o s
  | .sxt d a n1 => Sys2Proof.Machine.execSxt d a n1 s
  | .zxt d a n1 => Sys2Proof.Machine.execZxt d a n1 s
  | .bfx sgn d a pos len1 => Sys2Proof.Machine.execBfx sgn d a pos len1 s
  | .bfi d a b c => Sys2Proof.Machine.execBfi d a b c s
  | .lea d a b sh disp => Sys2Proof.Machine.execLea d a b sh disp s
  | .madd sat t d a b c => Sys2Proof.Machine.execMadd sat t d a b c s
  | .pand ia ib d a b => Sys2Proof.Machine.execPand ia ib d a b s
  | .por ia ib d a b => Sys2Proof.Machine.execPor ia ib d a b s
  | .pxor ia ib d a b => Sys2Proof.Machine.execPxor ia ib d a b s
  | .pnot d a => Sys2Proof.Machine.execPnot d a s
  | .setx addm d a => Sys2Proof.Machine.execSetx addm d a s
  | .ld t d a off => Sys2Proof.Machine.execLd t d a off s
  | .st t a b off => Sys2Proof.Machine.execSt t a b off s
  | .ldv d a msk off => Sys2Proof.Machine.execLdv d a msk off s
  | .stv a b msk off => Sys2Proof.Machine.execStv a b msk off s
  | .ldg t d a off k => Sys2Proof.Machine.execLdg t d a off k s
  | .stg t a b off => Sys2Proof.Machine.execStg t a b off s
  | .ldgv d a msk off k => Sys2Proof.Machine.execLdgv d a msk off k s
  | .stgv a b msk off => Sys2Proof.Machine.execStgv a b msk off s
  | .ldx d a msk off k => Sys2Proof.Machine.execLdx d a msk off k s
  | .stx a b msk off k => Sys2Proof.Machine.execStx a b msk off k s
  | .ldrm t d a off k => Sys2Proof.Machine.execLdrm t d a off k s
  | .strm t a b off k => Sys2Proof.Machine.execStrm t a b off k s
  | .atom op t d a b off k => Sys2Proof.Machine.execAtom op t d a b off k s
  | .cas t d a b c k => Sys2Proof.Machine.execCas t d a b c k s
  | .upd op t a b off => Sys2Proof.Machine.execUpd op t a b off s
  | .updf a b off => Sys2Proof.Machine.execUpdf a b off s
  | .tlook d a => Sys2Proof.Machine.execTlook d a s
  | .tset a b => Sys2Proof.Machine.execTset a b s
  | .tclr a => Sys2Proof.Machine.execTclr a s
  | .tinv slot => Sys2Proof.Machine.execTinv slot s
  | .wsq d => Sys2Proof.Machine.execWsq d s
  | .vadd f o => Sys2Proof.Machine.execVadd f o s
  | .vsub f o => Sys2Proof.Machine.execVsub f o s
  | .vmul f o => Sys2Proof.Machine.execVmul f o s
  | .vfma t r o => Sys2Proof.Machine.execVfma t r o s
  | .vfms t r o => Sys2Proof.Machine.execVfms t r o s
  | .vfnma t r o => Sys2Proof.Machine.execVfnma t r o s
  | .vmin t o => Sys2Proof.Machine.execVmin t o s
  | .vminp t o => Sys2Proof.Machine.execVminp t o s
  | .vmax t o => Sys2Proof.Machine.execVmax t o s
  | .vmaxp t o => Sys2Proof.Machine.execVmaxp t o s
  | .vabs t o => Sys2Proof.Machine.execVabs t o s
  | .vneg t o => Sys2Proof.Machine.execVneg t o s
  | .vcmp cc t d a b msk => Sys2Proof.Machine.execVcmp cc t d a b msk s
  | .vsel d a b c => Sys2Proof.Machine.execVsel d a b c s
  | .vand o => Sys2Proof.Machine.execVand o s
  | .vor o => Sys2Proof.Machine.execVor o s
  | .vxor o => Sys2Proof.Machine.execVxor o s
  | .vshl t d a b msk => Sys2Proof.Machine.execVshl t d a b msk s
  | .vshr t d a b msk => Sys2Proof.Machine.execVshr t d a b msk s
  | .vsar t d a b msk => Sys2Proof.Machine.execVsar t d a b msk s
  | .viadd t sat o => Sys2Proof.Machine.execViadd t sat o s
  | .visub t sat o => Sys2Proof.Machine.execVisub t sat o s
  | .vimul t sat o => Sys2Proof.Machine.execVimul t sat o s
  | .vimin t o => Sys2Proof.Machine.execVimin t o s
  | .vimax t o => Sys2Proof.Machine.execVimax t o s
  | .vcvt f st o => Sys2Proof.Machine.execVcvt f st o s
  | .vpack byte o => Sys2Proof.Machine.execVpack byte o s
  | .vunpack byte hi sgn o => Sys2Proof.Machine.execVunpack byte hi sgn o s
  | .vbcast t d a msk => Sys2Proof.Machine.execVbcast t d a msk s
  | .vext t d a ix => Sys2Proof.Machine.execVext t d a ix s
  | .vperm o => Sys2Proof.Machine.execVperm o s
  | .vrot d a n msk => Sys2Proof.Machine.execVrot d a n msk s
  | .vredl t op o => Sys2Proof.Machine.execVredl t op o s
  | .vscan t op o => Sys2Proof.Machine.execVscan t op o s
  | .vdot2 r o => Sys2Proof.Machine.execVdot2 r o s
  | .vclamp t o => Sys2Proof.Machine.execVclamp t o s
  | .vround t r o => Sys2Proof.Machine.execVround t r o s
  | .vmov o => Sys2Proof.Machine.execVmov o s
  | .mand z d a b => Sys2Proof.Machine.execMand z d a b s
  | .mor z d a b => Sys2Proof.Machine.execMor z d a b s
  | .mxor z d a b => Sys2Proof.Machine.execMxor z d a b s
  | .mnot d a => Sys2Proof.Machine.execMnot d a s
  | .vlane t d a msk => Sys2Proof.Machine.execVlane t d a msk s
  | .vsqz o => Sys2Proof.Machine.execVsqz o s
  | .vkeep t d a => Sys2Proof.Machine.execVkeep t d a s
  | .frcp f o => Sys2Proof.Machine.execFrcp f o s
  | .frsq f o => Sys2Proof.Machine.execFrsq f o s
  | .fsqrt f o => Sys2Proof.Machine.execFsqrt f o s
  | .fdiv f o => Sys2Proof.Machine.execFdiv f o s
  | .fexp2 f o => Sys2Proof.Machine.execFexp2 f o s
  | .flog2 f o => Sys2Proof.Machine.execFlog2 f o s
  | .fsin f o => Sys2Proof.Machine.execFsin f o s
  | .fcos f o => Sys2Proof.Machine.execFcos f o s
  | .ftanh f o => Sys2Proof.Machine.execFtanh f o s
  | .fsig f o => Sys2Proof.Machine.execFsig f o s
  | .fsilu f o => Sys2Proof.Machine.execFsilu f o s
  | .fgelu f o => Sys2Proof.Machine.execFgelu f o s
  | .frng t d a b msk => Sys2Proof.Machine.execFrng t d a b msk s
  | .frngk a b => Sys2Proof.Machine.execFrngk a b s
  | .fbasis r sat k o => Sys2Proof.Machine.execFbasis r sat k o s
  | .fldexp f o => Sys2Proof.Machine.execFldexp f o s
  | .mwld t back cmp sc a b k => Sys2Proof.Machine.execMwld t back cmp sc a b k s
  | .mfmt t => Sys2Proof.Machine.execMfmt t s
  | .mm o => Sys2Proof.Machine.execMm o s
  | .mmg o => Sys2Proof.Machine.execMmg o s
  | .mmrot z o => Sys2Proof.Machine.execMmrot z o s
  | .macrd t r sat o => Sys2Proof.Machine.execMacrd t r sat o s
  | .macwr t o => Sys2Proof.Machine.execMacwr t o s
  | .macclr d rows => Sys2Proof.Machine.execMacclr d rows s
  | .mbank => Sys2Proof.Machine.execMbank s
  | .mmstat clr d k => Sys2Proof.Machine.execMmstat clr d k s
  | .knot a b => Sys2Proof.Machine.execKnot a b s
  | .splld t back wide sc a b k => Sys2Proof.Machine.execSplld t back wide sc a b k s
  | .splev o => Sys2Proof.Machine.execSplev o s
  | .splevG o => Sys2Proof.Machine.execSplevG o s
  | .splbd z o => Sys2Proof.Machine.execSplbd z o s
  | .splgr o => Sys2Proof.Machine.execSplgr o s
  | .splgrd a b k rows => Sys2Proof.Machine.execSplgrd a b k rows s
  | .splgclr => Sys2Proof.Machine.execSplgclr s
  | .grefine k => Sys2Proof.Machine.execGrefine k s
  | .splst clr d a k => Sys2Proof.Machine.execSplst clr d a k s
  | .send cls k a b => Sys2Proof.Machine.execSend cls k a b s
  | .recv d a b => Sys2Proof.Machine.execRecv d a b s
  | .tsend c3 a b lat => Sys2Proof.Machine.execTsend c3 a b lat s
  | .postrv nt tok d a b => Sys2Proof.Machine.execPostrv nt tok d a b s
  | .rvcan a => Sys2Proof.Machine.execRvcan a s
  | .probe tag d a => Sys2Proof.Machine.execProbe tag d a s
  | .ovfpop d b => Sys2Proof.Machine.execOvfpop d b s
  | .reduce op w => Sys2Proof.Machine.execReduce op w s
  | .allred op w => Sys2Proof.Machine.execAllred op w s
  | .bcast w => Sys2Proof.Machine.execBcast w s
  | .treecfg slot a => Sys2Proof.Machine.execTreecfg slot a s
  | .xbar tok slot => Sys2Proof.Machine.execXbar tok slot s
  | .clsord c ord => Sys2Proof.Machine.execClsord c ord s
  | .xstat rel d sel a => Sys2Proof.Machine.execXstat rel d sel a s
  | .cset r a => Sys2Proof.Machine.execCset r a s
  | .cget d r => Sys2Proof.Machine.execCget d r s
  | .claunch nt d k q => Sys2Proof.Machine.execClaunch nt d k q s
  | .cstat d a => Sys2Proof.Machine.execCstat d a s
  | .ccancel a => Sys2Proof.Machine.execCcancel a s
  | .qfence mask => Sys2Proof.Machine.execQfence mask s
  | .scfg v a => Sys2Proof.Machine.execScfg v a s
  | .sbind v => Sys2Proof.Machine.execSbind v s
  | .sunbind v => Sys2Proof.Machine.execSunbind v s
  | .sdrain k v => Sys2Proof.Machine.execSdrain k v s
  | .sdrainOut k v => Sys2Proof.Machine.execSdrainOut k v s
  | .sstat d v => Sys2Proof.Machine.execSstat d v s
  | .translationWalk l va acc => Sys2Proof.Machine.execTranslationWalk l va acc s
  | .forwardedWordIssue l w => Sys2Proof.Machine.execForwardedWordIssue l w s
  | .repReissue l rid => Sys2Proof.Machine.execRepReissue l rid s
  | .boundaryRelease region sc inst => Sys2Proof.Machine.execBoundaryRelease region sc inst s
  | .barRelease region sc inst => Sys2Proof.Machine.execBarRelease region sc inst s
  | .joinCellDecrement l cell trig => Sys2Proof.Machine.execJoinCellDecrement l cell trig s
  | .joinResult l cell last => Sys2Proof.Machine.execJoinResult l cell last s
  | .sleepWake l => Sys2Proof.Machine.execSleepWake l s
  | .waittRelease l tok => Sys2Proof.Machine.execWaittRelease l tok s
  | .recruitStart tile st => Sys2Proof.Machine.execRecruitStart tile st s
  | .homeRequestServe q => Sys2Proof.Machine.execHomeRequestServe q s
  | .dramMissFill pa => Sys2Proof.Machine.execDramMissFill pa s
  | .homeReplyArrival r => Sys2Proof.Machine.execHomeReplyArrival r s
  | .remoteAccessServe q => Sys2Proof.Machine.execRemoteAccessServe q s
  | .remoteAckArrival q wr poisoned => Sys2Proof.Machine.execRemoteAckArrival q wr poisoned s
  | .eccCorrected e => Sys2Proof.Machine.execEccCorrected e s
  | .uncorrectableError e => Sys2Proof.Machine.execUncorrectableError e s
  | .scrub slice => Sys2Proof.Machine.execScrub slice s
  | .dramSensorReading n r => Sys2Proof.Machine.execDramSensorReading n r s
  | .copyTransferStart l q => Sys2Proof.Machine.execCopyTransferStart l q s
  | .copySlotMove m => Sys2Proof.Machine.execCopySlotMove m s
  | .localCopyMove l q => Sys2Proof.Machine.execLocalCopyMove l q s
  | .copyWriteReport l q elem err => Sys2Proof.Machine.execCopyWriteReport l q elem err s
  | .streamFetch l v => Sys2Proof.Machine.execStreamFetch l v s
  | .streamVectorReady l v => Sys2Proof.Machine.execStreamVectorReady l v s
  | .streamWrite l v => Sys2Proof.Machine.execStreamWrite l v s
  | .streamWriteLand l v => Sys2Proof.Machine.execStreamWriteLand l v s
  | .arrayOpStart l load => Sys2Proof.Machine.execArrayOpStart l load s
  | .arrayRowEntry l op row => Sys2Proof.Machine.execArrayRowEntry l op row s
  | .arrayResultLand l op row => Sys2Proof.Machine.execArrayResultLand l op row s
  | .planeTakeEffect l op => Sys2Proof.Machine.execPlaneTakeEffect l op s
  | .gangBarrierRelease gang part => Sys2Proof.Machine.execGangBarrierRelease gang part s
  | .mmrotShiftLand l src sh => Sys2Proof.Machine.execMmrotShiftLand l src sh s
  | .mmrotPlaneExchange l op => Sys2Proof.Machine.execMmrotPlaneExchange l op s
  | .knotLand l lo inv g mode => Sys2Proof.Machine.execKnotLand l lo inv g mode s
  | .timedPacketArrival p => Sys2Proof.Machine.execTimedPacketArrival p s
  | .messageArrival m => Sys2Proof.Machine.execMessageArrival m s
  | .heldMessageReoffer tile => Sys2Proof.Machine.execHeldMessageReoffer tile s
  | .messageLand l h => Sys2Proof.Machine.execMessageLand l h s
  | .sendAckArrival l tok err pc => Sys2Proof.Machine.execSendAckArrival l tok err pc s
  | .treeContributionArrival l slot k port kind v nf => Sys2Proof.Machine.execTreeContributionArrival l slot k port kind v nf s
  | .treeResultArrival l slot k kind v nf => Sys2Proof.Machine.execTreeResultArrival l slot k kind v nf s
  | .xbarRelease l slot k => Sys2Proof.Machine.execXbarRelease l slot k s
  | .peerTreeCombine l slot child kind v nf => Sys2Proof.Machine.execPeerTreeCombine l slot child kind v nf s
  | .deadPartitionPacket m => Sys2Proof.Machine.execDeadPartitionPacket m s
  | .detourBlocked tile part => Sys2Proof.Machine.execDetourBlocked tile part s
  | .routerFailure tile lost => Sys2Proof.Machine.execRouterFailure tile lost s
  | .zheostCrcFail port exhausted lost => Sys2Proof.Machine.execZheostCrcFail port exhausted lost s
  | .ptpMessage dom port m => Sys2Proof.Machine.execPtpMessage dom port m s
  | .ppsIn => Sys2Proof.Machine.execPpsIn s
  | .launchQueuePoll q => Sys2Proof.Machine.execLaunchQueuePoll q s
  | .consumeEntry q => Sys2Proof.Machine.execConsumeEntry q s
  | .nopEntry q cookie => Sys2Proof.Machine.execNopEntry q cookie s
  | .launch q rcb cookie priv => Sys2Proof.Machine.execLaunch q rcb cookie priv s
  | .imageVerify file => Sys2Proof.Machine.execImageVerify file s
  | .lqNextWrite q v => Sys2Proof.Machine.execLqNextWrite q v s
  | .lqStopClear q ovr crpt => Sys2Proof.Machine.execLqStopClear q ovr crpt s
  | .cqHeadWrite q v => Sys2Proof.Machine.execCqHeadWrite q v s
  | .registerWrite mc r v => Sys2Proof.Machine.execRegisterWrite mc r v s
  | .uivecWrite l v => Sys2Proof.Machine.execUivecWrite l v s
  | .tsRead r => Sys2Proof.Machine.execTsRead r s
  | .hostBar2Write off bytes => Sys2Proof.Machine.execHostBar2Write off bytes s
  | .hostBar2Read off len => Sys2Proof.Machine.execHostBar2Read off len s
  | .ideStateChange c => Sys2Proof.Machine.execIdeStateChange c s
  | .spdmMeasurements req => Sys2Proof.Machine.execSpdmMeasurements req s
  | .ideKm stream key => Sys2Proof.Machine.execIdeKm stream key s
  | .firmwareDownload bank secver measure sig => Sys2Proof.Machine.execFirmwareDownload bank secver measure sig s
  | .configBlobSubmit addr b => Sys2Proof.Machine.execConfigBlobSubmit addr b s
  | .mappingRequest r => Sys2Proof.Machine.execMappingRequest r s
  | .sgEntryWrite n part v => Sys2Proof.Machine.execSgEntryWrite n part v s
  | .checkpointRegister part dir => Sys2Proof.Machine.execCheckpointRegister part dir s
  | .recoveryGroupRegister members => Sys2Proof.Machine.execRecoveryGroupRegister members s
  | .startRecordPlace region => Sys2Proof.Machine.execStartRecordPlace region s
  | .taskRecordPlace region => Sys2Proof.Machine.execTaskRecordPlace region s
  | .ballastDispatch region => Sys2Proof.Machine.execBallastDispatch region s
  | .preemptDelayExpiry region => Sys2Proof.Machine.execPreemptDelayExpiry region s
  | .imageChunkSend region seed chunk => Sys2Proof.Machine.execImageChunkSend region seed chunk s
  | .imageChunkArrival region tile c => Sys2Proof.Machine.execImageChunkArrival region tile c s
  | .loadCompleteReport region tile => Sys2Proof.Machine.execLoadCompleteReport region tile s
  | .childLaunch l => Sys2Proof.Machine.execChildLaunch l s
  | .childDelivery l => Sys2Proof.Machine.execChildDelivery l s
  | .paceEvaluation => Sys2Proof.Machine.execPaceEvaluation s
  | .deadlineMiss region step => Sys2Proof.Machine.execDeadlineMiss region step s
  | .pStateChange p => Sys2Proof.Machine.execPStateChange p s
  | .railRampDone => Sys2Proof.Machine.execRailRampDone s
  | .canaryWindowEnd rail errors => Sys2Proof.Machine.execCanaryWindowEnd rail errors s
  | .canaryHoldExpiry h => Sys2Proof.Machine.execCanaryHoldExpiry h s
  | .limiterSample amps => Sys2Proof.Machine.execLimiterSample amps s
  | .overcurrentTighten => Sys2Proof.Machine.execOvercurrentTighten s
  | .telemetrySample watts rails => Sys2Proof.Machine.execTelemetrySample watts rails s
  | .ygraceExpiry => Sys2Proof.Machine.execYgraceExpiry s
  | .regionPowerEstimate region watts => Sys2Proof.Machine.execRegionPowerEstimate region watts s
  | .heatWindowEnd => Sys2Proof.Machine.execHeatWindowEnd s
  | .sensorConversion cell r => Sys2Proof.Machine.execSensorConversion cell r s
  | .geyserHeartbeatMiss => Sys2Proof.Machine.execGeyserHeartbeatMiss s
  | .geyserHeartbeatReturn => Sys2Proof.Machine.execGeyserHeartbeatReturn s
  | .quadIdleExpiry quad => Sys2Proof.Machine.execQuadIdleExpiry quad s
  | .quadWake quad => Sys2Proof.Machine.execQuadWake quad s
  | .wakeStage quad => Sys2Proof.Machine.execWakeStage quad s
  | .haltDelivery part => Sys2Proof.Machine.execHaltDelivery part s
  | .allAsleep part => Sys2Proof.Machine.execAllAsleep part s
  | .phaseTimer l => Sys2Proof.Machine.execPhaseTimer l s
  | .resume part => Sys2Proof.Machine.execResume part s
  | .endRegion region => Sys2Proof.Machine.execEndRegion region s
  | .endPartition part => Sys2Proof.Machine.execEndPartition part s
  | .restore r => Sys2Proof.Machine.execRestore r s
  | .recoveryNotify part gen => Sys2Proof.Machine.execRecoveryNotify part gen s
  | .bankExchange part incoming => Sys2Proof.Machine.execBankExchange part incoming s
  | .spillComplete tile => Sys2Proof.Machine.execSpillComplete tile s
  | .resumeRecordPlace part => Sys2Proof.Machine.execResumeRecordPlace part s
  | .reloadComplete part => Sys2Proof.Machine.execReloadComplete part s
  | .uiDelivery l => Sys2Proof.Machine.execUiDelivery l s
  | .regionRetire region => Sys2Proof.Machine.execRegionRetire region s
  | .vinApplied mv => Sys2Proof.Machine.execVinApplied mv s
  | .pwrenAssert => Sys2Proof.Machine.execPwrenAssert s
  | .railBandTimeout rail => Sys2Proof.Machine.execRailBandTimeout rail s
  | .pwrenDeassert => Sys2Proof.Machine.execPwrenDeassert s
  | .vinLoss => Sys2Proof.Machine.execVinLoss s
  | .perstN => Sys2Proof.Machine.execPerstN s
  | .mcRstN => Sys2Proof.Machine.execMcRstN s
  | .coolReading tin tout flow dp => Sys2Proof.Machine.execCoolReading tin tout flow dp s
  | .pmPage x => Sys2Proof.Machine.execPmPage x s
  | .readVout => Sys2Proof.Machine.execReadVout s
  | .readIout => Sys2Proof.Machine.execReadIout s
  | .readTemperature1 => Sys2Proof.Machine.execReadTemperature1 s
  | .statusWord => Sys2Proof.Machine.execStatusWord s
  | .clearFaults => Sys2Proof.Machine.execClearFaults s
  | .readPin => Sys2Proof.Machine.execReadPin s
  | .readVin => Sys2Proof.Machine.execReadVin s
  | .pmbusRefusedWrite cmd => Sys2Proof.Machine.execPmbusRefusedWrite cmd s
  | .pmbusUnsupported cmd => Sys2Proof.Machine.execPmbusUnsupported cmd s
  | .zheostPortRestore port => Sys2Proof.Machine.execZheostPortRestore port s
  | .railsReenable => Sys2Proof.Machine.execRailsReenable s
  | .shootdownComplete l d tok sc lo hi => Sys2Proof.Machine.execShootdownComplete l d tok sc lo hi s
  | .faultDomainRegister fdom => Sys2Proof.Machine.execFaultDomainRegister fdom s
  | .debugAccess l op => Sys2Proof.Machine.execDebugAccess l op s

end Sys2Proof.Machine
end

