-- ==== Sys2Proof/Machine/Events.lean ====
section
/-! DEFINITION. Running an event of the agenda: each event has the meaning that exec gives the event constructor of
the same name. -/

namespace Sys2Proof.Machine

/-- What an event of the agenda does: the same meaning as exec of the constructor of `Instr` of its name. -/
def runEv (e : Ev) (s : State) : Out :=
  match e with
  | .translationWalk l va acc => Sys2Proof.Machine.execTranslationWalk l va acc s
  | .forwardedWordIssue l w => Sys2Proof.Machine.execForwardedWordIssue l w s
  | .repReissue l rid => Sys2Proof.Machine.execRepReissue l rid s
  | .boundaryRelease region sc inst => Sys2Proof.Machine.execBoundaryRelease region sc inst s
  | .barRelease region sc inst => Sys2Proof.Machine.execBarRelease region sc inst s
  | .joinCellDecrement l cell trig => Sys2Proof.Machine.execJoinCellDecrement l cell trig s
  | .joinResult l cell last => Sys2Proof.Machine.execJoinResult l cell last s
  | .sleepWake l => Sys2Proof.Machine.execSleepWake l s
  | .waittRelease l tok => Sys2Proof.Machine.execWaittRelease l tok s
  | .recruitStart tile st => Sys2Proof.Machine.execRecruitStart tile st s
  | .homeRequestServe q => Sys2Proof.Machine.execHomeRequestServe q s
  | .dramMissFill pa => Sys2Proof.Machine.execDramMissFill pa s
  | .homeReplyArrival r => Sys2Proof.Machine.execHomeReplyArrival r s
  | .remoteAccessServe q => Sys2Proof.Machine.execRemoteAccessServe q s
  | .remoteAckArrival q wr poisoned => Sys2Proof.Machine.execRemoteAckArrival q wr poisoned s
  | .eccCorrected e => Sys2Proof.Machine.execEccCorrected e s
  | .uncorrectableError e => Sys2Proof.Machine.execUncorrectableError e s
  | .scrub slice => Sys2Proof.Machine.execScrub slice s
  | .dramSensorReading n r => Sys2Proof.Machine.execDramSensorReading n r s
  | .copyTransferStart l q => Sys2Proof.Machine.execCopyTransferStart l q s
  | .copySlotMove m => Sys2Proof.Machine.execCopySlotMove m s
  | .localCopyMove l q => Sys2Proof.Machine.execLocalCopyMove l q s
  | .copyWriteReport l q elem err => Sys2Proof.Machine.execCopyWriteReport l q elem err s
  | .streamFetch l v => Sys2Proof.Machine.execStreamFetch l v s
  | .streamVectorReady l v => Sys2Proof.Machine.execStreamVectorReady l v s
  | .streamWrite l v => Sys2Proof.Machine.execStreamWrite l v s
  | .streamWriteLand l v => Sys2Proof.Machine.execStreamWriteLand l v s
  | .arrayOpStart l load => Sys2Proof.Machine.execArrayOpStart l load s
  | .arrayRowEntry l op row => Sys2Proof.Machine.execArrayRowEntry l op row s
  | .arrayResultLand l op row => Sys2Proof.Machine.execArrayResultLand l op row s
  | .planeTakeEffect l op => Sys2Proof.Machine.execPlaneTakeEffect l op s
  | .gangBarrierRelease gang part => Sys2Proof.Machine.execGangBarrierRelease gang part s
  | .mmrotShiftLand l src sh => Sys2Proof.Machine.execMmrotShiftLand l src sh s
  | .mmrotPlaneExchange l op => Sys2Proof.Machine.execMmrotPlaneExchange l op s
  | .knotLand l lo inv g mode => Sys2Proof.Machine.execKnotLand l lo inv g mode s
  | .timedPacketArrival p => Sys2Proof.Machine.execTimedPacketArrival p s
  | .messageArrival m => Sys2Proof.Machine.execMessageArrival m s
  | .heldMessageReoffer tile => Sys2Proof.Machine.execHeldMessageReoffer tile s
  | .messageLand l h => Sys2Proof.Machine.execMessageLand l h s
  | .sendAckArrival l tok err pc => Sys2Proof.Machine.execSendAckArrival l tok err pc s
  | .treeContributionArrival l slot k port kind v nf => Sys2Proof.Machine.execTreeContributionArrival l slot k port kind v nf s
  | .treeResultArrival l slot k kind v nf => Sys2Proof.Machine.execTreeResultArrival l slot k kind v nf s
  | .xbarRelease l slot k => Sys2Proof.Machine.execXbarRelease l slot k s
  | .peerTreeCombine l slot child kind v nf => Sys2Proof.Machine.execPeerTreeCombine l slot child kind v nf s
  | .deadPartitionPacket m => Sys2Proof.Machine.execDeadPartitionPacket m s
  | .detourBlocked tile part => Sys2Proof.Machine.execDetourBlocked tile part s
  | .routerFailure tile lost => Sys2Proof.Machine.execRouterFailure tile lost s
  | .zheostCrcFail port exhausted lost => Sys2Proof.Machine.execZheostCrcFail port exhausted lost s
  | .ptpMessage dom port m => Sys2Proof.Machine.execPtpMessage dom port m s
  | .ppsIn => Sys2Proof.Machine.execPpsIn s
  | .launchQueuePoll q => Sys2Proof.Machine.execLaunchQueuePoll q s
  | .consumeEntry q => Sys2Proof.Machine.execConsumeEntry q s
  | .nopEntry q cookie => Sys2Proof.Machine.execNopEntry q cookie s
  | .launch q rcb cookie priv => Sys2Proof.Machine.execLaunch q rcb cookie priv s
  | .imageVerify file => Sys2Proof.Machine.execImageVerify file s
  | .lqNextWrite q v => Sys2Proof.Machine.execLqNextWrite q v s
  | .lqStopClear q ovr crpt => Sys2Proof.Machine.execLqStopClear q ovr crpt s
  | .cqHeadWrite q v => Sys2Proof.Machine.execCqHeadWrite q v s
  | .registerWrite mc r v => Sys2Proof.Machine.execRegisterWrite mc r v s
  | .uivecWrite l v => Sys2Proof.Machine.execUivecWrite l v s
  | .tsRead r => Sys2Proof.Machine.execTsRead r s
  | .hostBar2Write off bytes => Sys2Proof.Machine.execHostBar2Write off bytes s
  | .hostBar2Read off len => Sys2Proof.Machine.execHostBar2Read off len s
  | .ideStateChange c => Sys2Proof.Machine.execIdeStateChange c s
  | .spdmMeasurements req => Sys2Proof.Machine.execSpdmMeasurements req s
  | .ideKm stream key => Sys2Proof.Machine.execIdeKm stream key s
  | .firmwareDownload bank secver measure sig => Sys2Proof.Machine.execFirmwareDownload bank secver measure sig s
  | .configBlobSubmit addr b => Sys2Proof.Machine.execConfigBlobSubmit addr b s
  | .mappingRequest r => Sys2Proof.Machine.execMappingRequest r s
  | .sgEntryWrite n part v => Sys2Proof.Machine.execSgEntryWrite n part v s
  | .checkpointRegister part dir => Sys2Proof.Machine.execCheckpointRegister part dir s
  | .recoveryGroupRegister members => Sys2Proof.Machine.execRecoveryGroupRegister members s
  | .startRecordPlace region => Sys2Proof.Machine.execStartRecordPlace region s
  | .taskRecordPlace region => Sys2Proof.Machine.execTaskRecordPlace region s
  | .ballastDispatch region => Sys2Proof.Machine.execBallastDispatch region s
  | .preemptDelayExpiry region => Sys2Proof.Machine.execPreemptDelayExpiry region s
  | .imageChunkSend region seed chunk => Sys2Proof.Machine.execImageChunkSend region seed chunk s
  | .imageChunkArrival region tile c => Sys2Proof.Machine.execImageChunkArrival region tile c s
  | .loadCompleteReport region tile => Sys2Proof.Machine.execLoadCompleteReport region tile s
  | .childLaunch l => Sys2Proof.Machine.execChildLaunch l s
  | .childDelivery l => Sys2Proof.Machine.execChildDelivery l s
  | .paceEvaluation => Sys2Proof.Machine.execPaceEvaluation s
  | .deadlineMiss region step => Sys2Proof.Machine.execDeadlineMiss region step s
  | .pStateChange p => Sys2Proof.Machine.execPStateChange p s
  | .railRampDone => Sys2Proof.Machine.execRailRampDone s
  | .canaryWindowEnd rail errors => Sys2Proof.Machine.execCanaryWindowEnd rail errors s
  | .canaryHoldExpiry h => Sys2Proof.Machine.execCanaryHoldExpiry h s
  | .limiterSample amps => Sys2Proof.Machine.execLimiterSample amps s
  | .overcurrentTighten => Sys2Proof.Machine.execOvercurrentTighten s
  | .telemetrySample watts rails => Sys2Proof.Machine.execTelemetrySample watts rails s
  | .ygraceExpiry => Sys2Proof.Machine.execYgraceExpiry s
  | .regionPowerEstimate region watts => Sys2Proof.Machine.execRegionPowerEstimate region watts s
  | .heatWindowEnd => Sys2Proof.Machine.execHeatWindowEnd s
  | .sensorConversion cell r => Sys2Proof.Machine.execSensorConversion cell r s
  | .geyserHeartbeatMiss => Sys2Proof.Machine.execGeyserHeartbeatMiss s
  | .geyserHeartbeatReturn => Sys2Proof.Machine.execGeyserHeartbeatReturn s
  | .quadIdleExpiry quad => Sys2Proof.Machine.execQuadIdleExpiry quad s
  | .quadWake quad => Sys2Proof.Machine.execQuadWake quad s
  | .wakeStage quad => Sys2Proof.Machine.execWakeStage quad s
  | .haltDelivery part => Sys2Proof.Machine.execHaltDelivery part s
  | .allAsleep part => Sys2Proof.Machine.execAllAsleep part s
  | .phaseTimer l => Sys2Proof.Machine.execPhaseTimer l s
  | .resume part => Sys2Proof.Machine.execResume part s
  | .endRegion region => Sys2Proof.Machine.execEndRegion region s
  | .endPartition part => Sys2Proof.Machine.execEndPartition part s
  | .restore r => Sys2Proof.Machine.execRestore r s
  | .recoveryNotify part gen => Sys2Proof.Machine.execRecoveryNotify part gen s
  | .bankExchange part incoming => Sys2Proof.Machine.execBankExchange part incoming s
  | .spillComplete tile => Sys2Proof.Machine.execSpillComplete tile s
  | .resumeRecordPlace part => Sys2Proof.Machine.execResumeRecordPlace part s
  | .reloadComplete part => Sys2Proof.Machine.execReloadComplete part s
  | .uiDelivery l => Sys2Proof.Machine.execUiDelivery l s
  | .regionRetire region => Sys2Proof.Machine.execRegionRetire region s
  | .vinApplied mv => Sys2Proof.Machine.execVinApplied mv s
  | .pwrenAssert => Sys2Proof.Machine.execPwrenAssert s
  | .railBandTimeout rail => Sys2Proof.Machine.execRailBandTimeout rail s
  | .pwrenDeassert => Sys2Proof.Machine.execPwrenDeassert s
  | .vinLoss => Sys2Proof.Machine.execVinLoss s
  | .perstN => Sys2Proof.Machine.execPerstN s
  | .mcRstN => Sys2Proof.Machine.execMcRstN s
  | .coolReading tin tout flow dp => Sys2Proof.Machine.execCoolReading tin tout flow dp s
  | .pmPage x => Sys2Proof.Machine.execPmPage x s
  | .readVout => Sys2Proof.Machine.execReadVout s
  | .readIout => Sys2Proof.Machine.execReadIout s
  | .readTemperature1 => Sys2Proof.Machine.execReadTemperature1 s
  | .statusWord => Sys2Proof.Machine.execStatusWord s
  | .clearFaults => Sys2Proof.Machine.execClearFaults s
  | .readPin => Sys2Proof.Machine.execReadPin s
  | .readVin => Sys2Proof.Machine.execReadVin s
  | .pmbusRefusedWrite cmd => Sys2Proof.Machine.execPmbusRefusedWrite cmd s
  | .pmbusUnsupported cmd => Sys2Proof.Machine.execPmbusUnsupported cmd s
  | .zheostPortRestore port => Sys2Proof.Machine.execZheostPortRestore port s
  | .railsReenable => Sys2Proof.Machine.execRailsReenable s
  | .shootdownComplete l d tok sc lo hi => Sys2Proof.Machine.execShootdownComplete l d tok sc lo hi s
  | .faultDomainRegister fdom => Sys2Proof.Machine.execFaultDomainRegister fdom s
  | .debugAccess l op => Sys2Proof.Machine.execDebugAccess l op s

end Sys2Proof.Machine
end

