-- ==== Sys2Proof/Machine/Step.lean ====
section
/-! DEFINITION. One step: the earliest thing that is due on the present tick, an event of the agenda before a word of a
strand, words in tile order and then in program order; and one tick of device time where nothing is due. -/

namespace Sys2Proof.Machine

/-- A word issues: what it reads lands, its guard is evaluated, and its meaning runs where the guard is true (R114). -/
def issueWord (s : State) (tile : Nat) (e : QEnt) : Host.Outcome State Fault Refusal :=
  let b := s.begin tile e
  if b.c.guard e.x then
    match exec e.x.instr b with
    | .next t => .next (t.finish e)
    | .fault r => .fault r
    | .refused r => .refused r
  else .next ((b.falseGuard e).finish e)

/-- A word, or an illegal word, that is due on the present tick. -/
def dueWord (s : State) : Option (Host.Outcome State Fault Refusal) :=
  match s.pickTile s.clocked with
  | some (tile, .issue e) => some (issueWord s tile e)
  | some (tile, .deviate e) => some (.next (s.deviate tile e))
  | some (_, .none) | none =>
    match pickIllegal s.clocked with
    | some (tile, pc, bits) => some (.next (s.illegalTrap tile pc bits))
    | none => none

/-- An event that is due: it waits while its context is frozen, or while its tile's clocks are stopped (R221, R446). -/
def dueEvent (s : State) (e : Ev) : Host.Outcome State Fault Refusal :=
  if s.evFrozen 0 e then .next (s.deferEv e)
  else match evLoc e with
    | some l => if s.clockStopped l.tile then .next (s.holdEv l e) else runEv e s
    | none => runEv e s

/-- What is due on the present tick, if anything. -/
def dueNow (s : State) : Option (Host.Outcome State Fault Refusal) :=
  match s.agenda with
  | (d, e) :: r => if d ≤ s.tick then some (dueEvent { s with agenda := r } e) else dueWord s
  | [] => dueWord s

/-- One step of the machine. -/
def step (s : State) : Host.Outcome State Fault Refusal :=
  let s := s.decodeAll
  match dueNow s with
  | some o => o
  | none =>
    let s := s.advance.decodeAll
    match dueNow s with
    | some o => o
    | none => .next s

/-- A state in which the next step fetches, decodes and issues the given word on tile 0: partition 0 runs one region
whose strand stands in an elastic phase with empty queues, and its role holds the word at its first index (assumption
11 says how a program comes to run otherwise). What else this takes: the column's base is set so that a delay count
above 0 ends on the strand's next tick (device time is taken forward where the count is larger than the time passed), a
guard predicate other than p0 is set as the guard asks, and no event of the agenda is due before. -/
def State.withFetchWord (s : State) (nbits w : Nat) : State :=
  let bits : IWord := BitVec.ofNat 96 (w % 2 ^ nbits)
  let k := s.core 0
  let dly := (bits.extractLsb' 19 8).toNat
  let gp := (bits.extractLsb' 27 4).toNat
  let shift := dly - (s.tick + 1)
  let c : Ctx :=
    { part := some 0, region := 1, live := true, words := 1, vlo := 0, vhi := 255, spad := 32,
      kind := .elastic, fstop := .run, base := if dly = 0 then [] else [(colOf bits, s.tick + shift + 1 - dly)],
      p := if gp = 0 || rdBit (bits.extractLsb' 31 1) then [] else [(gp, true)] }
  let k := { k with fg := c, istore := Mem.setMany k.istore (addrBytes 0 (bytesOfWord bits)) }
  { s with
    tick := s.tick + shift
    quads := Tbl.put s.quads 0 { st := 0 },
    agenda := s.agenda.map fun e => (max e.1 s.tick + shift + 2, e.2),
    cores := Tbl.put s.cores 0 k,
    parts := Tbl.put s.parts 0 { root := 1 },
    regions := Tbl.put s.regions 1 { eff := { spad := 32 }, st := .running, started := true } }

end Sys2Proof.Machine
end

