-- ==== Sys2Proof/Certificates/Slice0/Obligations.lean ====
section
/-! DEFINITION. The statements for the provers. The terms they use stand first, under Claim. -/

namespace Sys2Proof.Claim

open Sys2Proof.Machine

/-! ### Terms: decoding and issuing -/

/-- No event of the agenda is due on the present tick. -/
def quiet (s : State) : Prop := ∀ e ∈ s.agenda.head?, s.tick < e.1

/-- What a step does with a word it has chosen: the word leaves its queue and what its reads see lands; its guard is
evaluated; its meaning, or that of a false guard, is followed by what follows every issue (R114, R132, R133, R173). -/
def issued (s : State) (tile : Nat) (e : QEnt) : Out :=
  let b := s.begin tile e
  if b.c.guard e.x then
    match exec e.x.instr b with
    | .next t => .next (t.finish e)
    | .fault r => .fault r
    | .refused r => .refused r
  else .next ((b.falseGuard e).finish e)

/-! ### Terms: words -/

/-- The low bits of a pattern, at the type's width, extended to 64 bits by its signedness (R183). -/
def widen (t : Ty) (x : Word) : Word :=
  if t.isI then ((x.setWidth (tyBits t)).signExtend 64) else ((x.setWidth (tyBits t)).setWidth 64)

/-- Operand B of a TS word as 64 bits: a source, or the immediate extended by the type's signedness (R182, R183). -/
def operandB (s : State) (t : Ty) : SrcB → Word
  | .reg r => s.src r
  | .imm v => if t.isI then v.signExtend 64 else v.setWidth 64

/-! ### Terms: the I column (R181 to R195) -/

/-- Scalar sources of an I-column word, in operand order: reading tm.now latches its fraction (R198). -/
def intSources : Instr → List Src
  | .add _ o | .sub _ o | .mul _ o | .mulh o | .mulhn o | .div o | .divn o | .rem o | .remn o | .and o | .or o | .xor o
  | .andn o | .shl o | .shr o | .sar o | .rol o | .min o | .max o | .minn o | .maxn o =>
    match o.b with
    | .reg r => [o.a, r]
    | .imm _ => [o.a]
  | .clz o | .ctz o | .popc o | .abs _ o | .neg _ o | .mov o => [o.a]
  | .sel _ _ a b _ | .lea _ a b _ _ => [a, b]
  | .cmp _ _ _ a b =>
    match b with
    | .reg r => [a, r]
    | .imm _ => [a]
  | .sxt _ a _ | .zxt _ a _ | .bfx _ _ a _ _ => [a]
  | .bfi _ a b c | .madd _ _ _ a b c => [a, b, c]
  | .setx _ _ (.reg r) => [r]
  | _ => []

/-- The scalar result of an I-column word: latency, destination, value. `A` and `B` are the operands as 64 bits, `a` and
`b` as numbers of the type; a word without .sat keeps the low bits of its result (R173, R174, R183 to R192). -/
def intResult (s : State) : Instr → Option (Nat × BitVec 6 × Word)
  | .add sat o => some (1, o.d, if sat then resWord o.t true (s.val o.t o.a + s.valB o.t o.b)
      else widen o.t (s.src o.a + operandB s o.t o.b))
  | .sub sat o => some (1, o.d, if sat then resWord o.t true (s.val o.t o.a - s.valB o.t o.b)
      else widen o.t (s.src o.a - operandB s o.t o.b))
  | .mul sat o => some (3, o.d, if sat then resWord o.t true (s.val o.t o.a * s.valB o.t o.b)
      else widen o.t (s.src o.a * operandB s o.t o.b))
  | .mulh o | .mulhn o =>
    some (3, o.d, resWord o.t false (s.val o.t o.a * s.valB o.t o.b / ((2 ^ tyBits o.t : Nat) : Int)))
  | .div o | .divn o =>
    some (12, o.d, if s.valB o.t o.b = 0 then widen o.t (BitVec.allOnes 64)
      else resWord o.t false ((s.val o.t o.a).tdiv (s.valB o.t o.b)))
  | .rem o | .remn o =>
    some (12, o.d, if s.valB o.t o.b = 0 then widen o.t (s.src o.a)
      else resWord o.t false ((s.val o.t o.a).tmod (s.valB o.t o.b)))
  | .and o => some (1, o.d, widen o.t (s.src o.a &&& operandB s o.t o.b))
  | .or o => some (1, o.d, widen o.t (s.src o.a ||| operandB s o.t o.b))
  | .xor o => some (1, o.d, widen o.t (s.src o.a ^^^ operandB s o.t o.b))
  | .andn o => some (1, o.d, widen o.t (s.src o.a &&& ~~~ operandB s o.t o.b))
  | .shl o => some (1, o.d, widen o.t (s.src o.a <<< ((operandB s o.t o.b).toNat % tyBits o.t)))
  | .shr o => some (1, o.d, widen o.t
      (((s.src o.a).setWidth (tyBits o.t) >>> ((operandB s o.t o.b).toNat % tyBits o.t)).setWidth 64))
  | .sar o => some (1, o.d, widen o.t
      ((((s.src o.a).setWidth (tyBits o.t)).sshiftRight ((operandB s o.t o.b).toNat % tyBits o.t)).setWidth 64))
  | .rol o => some (1, o.d, widen o.t
      ((((s.src o.a).setWidth (tyBits o.t)).rotateLeft ((operandB s o.t o.b).toNat % tyBits o.t)).setWidth 64))
  | .clz o => some (1, o.d, resWord o.t false (clzPat (tyBits o.t) (tyPat o.t (s.val o.t o.a))))
  | .ctz o => some (1, o.d, resWord o.t false (ctzFrom (tyPat o.t (s.val o.t o.a)) (tyBits o.t) 0))
  | .popc o => some (1, o.d, resWord o.t false (popPat (tyBits o.t) (tyPat o.t (s.val o.t o.a))))
  | .min o | .minn o => some (1, o.d, resWord o.t false (min (s.val o.t o.a) (s.valB o.t o.b)))
  | .max o | .maxn o => some (1, o.d, resWord o.t false (max (s.val o.t o.a) (s.valB o.t o.b)))
  | .abs sat o => some (1, o.d, resWord o.t sat ((s.val o.t o.a).natAbs : Int))
  | .neg sat o => some (1, o.d, if sat then resWord o.t true (-(s.val o.t o.a)) else widen o.t (-(s.src o.a)))
  | .sel t d a b c => some (1, d, widen t (if s.c.preg c.toNat then s.src a else s.src b))
  | .ldi hi t d imm => some (1, d, if hi then (imm.extractLsb' 0 26 ++ (s.sreg d).extractLsb' 0 38 : BitVec 64)
      else widen t (if t.isI then imm.signExtend 64 else imm.setWidth 64))
  | .mov o => some (1, o.d, widen o.t (s.src o.a))
  | .sxt d a n1 => some (1, d, ((s.src a).setWidth (n1.toNat + 1)).signExtend 64)
  | .zxt d a n1 => some (1, d, ((s.src a).setWidth (n1.toNat + 1)).setWidth 64)
  | .bfx sgn d a pos len1 =>
    let f := (s.src a).extractLsb' pos.toNat (len1.toNat + 1)
    some (1, d, if sgn then f.signExtend 64 else f.setWidth 64)
  | .bfi d a b c =>
    let pos := (s.src c).toNat % 64
    let len := (s.src c).toNat / 64 % 64 + 1
    let field : Word := ((BitVec.allOnes len).setWidth 64) <<< pos
    some (1, d, (s.src b &&& ~~~ field) ||| ((s.src a <<< pos) &&& field))
  | .lea d a b sh disp => some (1, d, s.src a + (s.src b <<< sh.toNat) + disp.signExtend 64)
  | .madd sat t d a b c => some (3, d, if sat then resWord t true (s.val t a * s.val t b + s.val t c)
      else widen t (s.src a * s.src b + s.src c))
  | _ => none

/-- The predicate result of cmp, pand, por, pxor and pnot: destination and value (R193, R194). -/
def predResult (s : State) : Instr → Option (BitVec 4 × Bool)
  | .cmp cc t d a b =>
    let x := s.val t a
    let y := s.valC t b
    some (d, match cc with
      | .eq => decide (x = y) | .ne => decide (x ≠ y) | .lt => decide (x < y) | .le => decide (x ≤ y)
      | .gt => decide (x > y) | .ge => decide (x ≥ y) | .tst => tyPat t x &&& tyPat t y != 0)
  | .pand ia ib d a b => some (d, (s.c.preg a.toNat != ia) && (s.c.preg b.toNat != ib))
  | .por ia ib d a b => some (d, (s.c.preg a.toNat != ia) || (s.c.preg b.toNat != ib))
  | .pxor ia ib d a b => some (d, (s.c.preg a.toNat != ia) != (s.c.preg b.toNat != ib))
  | .pnot d a => some (d, !s.c.preg a.toNat)
  | _ => none

/-- The index-register result of setx (R195). -/
def indexResult (s : State) : Instr → Option (BitVec 2 × BitVec 16)
  | .setx addm d a =>
    let v : BitVec 16 := match a with
      | .imm v => v.setWidth 16
      | .reg r => (s.src r).setWidth 16
    some (d, if addm then s.c.xreg d.toNat + v else v)
  | _ => none

/-! ### Terms: the V and F columns (R247 to R277) -/

/-- What a vector word writes: lanes of its vector destination, or another register; with the flags of each lane. -/
inductive VecOut where
  | vec (m : Lane) (v : Vec) (fl : List (Nat × Flags))
  | reg (w : Wr) (fl : List (Nat × Flags))

/-- A vector word: its vector operands with their positions, D first; its vector sources; its vector destination; its
scalar sources; its latency; the lanes that its mask enables; and what it writes, from the vectors that its sources read. -/
structure VecWord where
  ops : List (VOp × Nat)
  srcs : List (VOp × Nat)
  dst : Option VOp
  seen : List Src
  lat : Nat
  en : Lane := allLanes
  out : List Vec → VecOut

/-- Element results as what a word writes: flags count in enabled lanes only (R238, R248). -/
def elemOut (w : Nat) (m : Lane) (rs : List FRes) : VecOut :=
  .vec m (vecOf w (rs.map (·.bits))) (maskFlags m (laneFlags w rs))

/-- D, A and B under a mask, element by element. -/
def word3 (s : State) (lat w : Nat) (o : V3) (f : Nat → Nat → FRes) : VecWord :=
  { ops := [(o.d, 0), (o.a, 1), (o.b, 2)], srcs := [(o.a, 1), (o.b, 2)], dst := some o.d, seen := [], lat := lat
    en := s.lanes o.msk
    out := fun vs => elemOut w (s.lanes o.msk) (List.zipWith f (elems w (vs.getD 0 0)) (elems w (vs.getD 1 0))) }
/-- D and A under a mask, element by element. -/
def word2 (s : State) (lat w : Nat) (o : V2) (f : Nat → FRes) : VecWord :=
  { ops := [(o.d, 0), (o.a, 1)], srcs := [(o.a, 1)], dst := some o.d, seen := [], lat := lat
    en := s.lanes o.msk
    out := fun vs => elemOut w (s.lanes o.msk) ((elems w (vs.getD 0 0)).map f) }
/-- D, A, B and C, every lane enabled. -/
def word4 (lat w : Nat) (o : V4) (f : Nat → Nat → Nat → FRes) : VecWord :=
  { ops := [(o.d, 0), (o.a, 1), (o.b, 2), (o.c, 3)], srcs := [(o.a, 1), (o.b, 2), (o.c, 3)], dst := some o.d, seen := [], lat := lat
    out := fun vs =>
      let rs := map3 w f (vs.getD 0 0) (vs.getD 1 0) (vs.getD 2 0)
      .vec allLanes (vecOf w (rs.map (·.bits))) (laneFlags w rs) }
/-- D, A and B as whole vectors, no flag. -/
def whole3 (s : State) (lat : Nat) (o : V3) (f : Vec → Vec → Vec) : VecWord :=
  { ops := [(o.d, 0), (o.a, 1), (o.b, 2)], srcs := [(o.a, 1), (o.b, 2)], dst := some o.d, seen := [], lat := lat
    en := s.lanes o.msk
    out := fun vs => .vec (s.lanes o.msk) (f (vs.getD 0 0) (vs.getD 1 0)) [] }
/-- D and A as whole vectors, in lanes of the word's choice. -/
def whole2 (lat : Nat) (d a : VOp) (seen : List Src) (en : Lane) (out : Vec → VecOut) : VecWord :=
  { ops := [(d, 0), (a, 1)], srcs := [(a, 1)], dst := some d, seen := seen, lat := lat, en := en
    out := fun vs => out (vs.getD 0 0) }
/-- A vector written from a scalar. -/
def wordS (s : State) (d : VOp) (a : Src) (msk : Mask) (v : Vec) : VecWord :=
  { ops := [(d, 0)], srcs := [], dst := some d, seen := [a], lat := 1, en := s.lanes msk, out := fun _ => .vec (s.lanes msk) v [] }
/-- A vector shift (R258). -/
def wordShift (s : State) (t : Ty) (d a : VOp) (b : VAmt) (msk : Mask) (f : Nat → Nat → Nat → Nat) : VecWord :=
  match b with
  | .v b => word3 s 2 (tyBits t) ⟨d, a, b, msk⟩ fun x n => ⟨f (tyBits t) x n, 0⟩
  | .imm n => word2 s 2 (tyBits t) ⟨d, a, msk⟩ fun x => ⟨f (tyBits t) x n.toNat, 0⟩

/-- Every word of the V and F columns that reads or writes a vector register (R252 to R277). -/
def vecWord (s : State) : Instr → Option VecWord
  | .vadd f o => some (word3 s 4 (tyBits f.t) o (fAdd f.t f.r f.sat))
  | .vsub f o => some (word3 s 4 (tyBits f.t) o (fSub f.t f.r f.sat))
  | .vmul f o => some (word3 s 4 (tyBits f.t) o (fMul f.t f.r f.sat))
  | .vfma t r o => some (word4 4 (tyBits t) o (fFma t r false false))
  | .vfms t r o => some (word4 4 (tyBits t) o (fFma t r false true))
  | .vfnma t r o => some (word4 4 (tyBits t) o (fFma t r true false))
  | .vmin t o => some (word3 s 2 (tyBits t) o (fMinMax t false false))
  | .vminp t o => some (word3 s 2 (tyBits t) o (fMinMax t false true))
  | .vmax t o => some (word3 s 2 (tyBits t) o (fMinMax t true false))
  | .vmaxp t o => some (word3 s 2 (tyBits t) o (fMinMax t true true))
  | .vabs t o => some (word2 s 2 (tyBits t) o (signOp t fun a => a % 2 ^ (tyBits t - 1)))
  | .vneg t o => some (word2 s 2 (tyBits t) o (signOp t fun a => a ^^^ 2 ^ (tyBits t - 1)))
  | .vcmp cc t d a b msk => some
    { ops := [(a, 1), (b, 2)], srcs := [(a, 1), (b, 2)], dst := none, seen := [], lat := 2
      en := s.lanes msk
      out := fun vs =>
        let rs := List.zipWith (vcmpLane cc t) (elems 32 (vs.getD 0 0)) (elems 32 (vs.getD 1 0))
        .reg (.m d.toNat (s.lanes msk) (maskOf (rs.map (·.1))))
          (maskFlags (s.lanes msk) (((List.range 32).zip rs).filterMap fun x => if x.2.2 = 0 then none else some (x.1, x.2.2))) }
  | .vsel d a b c => some
    { ops := [(d, 0), (a, 1), (b, 2)], srcs := [(a, 1), (b, 2)], dst := some d, seen := [], lat := 1
      out := fun vs => .vec allLanes (mergeLanes (s.c.mreg c.toNat) (vs.getD 0 0) (vs.getD 1 0)) [] }
  | .vand o => some (whole3 s 1 o (· &&& ·))
  | .vor o => some (whole3 s 1 o (· ||| ·))
  | .vxor o => some (whole3 s 1 o (· ^^^ ·))
  | .vshl t d a b msk => some (wordShift s t d a b msk shlPat)
  | .vshr t d a b msk => some (wordShift s t d a b msk shrPat)
  | .vsar t d a b msk => some (wordShift s t d a b msk sarPat)
  | .viadd t sat o => some (word3 s 2 (tyBits t) o (intElem t sat (· + ·)))
  | .visub t sat o => some (word3 s 2 (tyBits t) o (intElem t sat (· - ·)))
  | .vimul t sat o => some (word3 s 3 (tyBits t) o (intElem t sat (· * ·)))
  | .vimin t o => some (word3 s 2 (tyBits t) o (intElem t false min))
  | .vimax t o => some (word3 s 2 (tyBits t) o (intElem t false max))
  | .vcvt f st o => some (word2 s 3 32 o fun a => convert f.t st f.r f.sat (a % 2 ^ tyBits st))
  | .vpack byte o => some (whole3 s 2 o fun a b =>
      if byte then vecOf 8 ((elems 16 a ++ elems 16 b).map (· % 256))
      else vecOf 16 ((elems 32 a ++ elems 32 b).map (· % 65536)))
  | .vunpack byte hi sgn o => some (whole2 2 o.d o.a [] (s.lanes o.msk) fun a => .vec (s.lanes o.msk)
      (if byte then vecOf 16 (((elems 8 a).drop (if hi then 64 else 0)).take 64 |>.map fun x =>
          if sgn then (sextN x 8 % 65536).toNat else x)
        else vecOf 32 (((elems 16 a).drop (if hi then 32 else 0)).take 32 |>.map fun x =>
          if sgn then (sextN x 16 % 4294967296).toNat else x)) [])
  | .vbcast t d a msk =>
    some (wordS s d a msk (vecOf (tyBits t) (List.replicate (1024 / tyBits t) ((s.src a).toNat % 2 ^ tyBits t))))
  | .vext t d a i => some
    { ops := [(a, 1)], srcs := [(a, 1)], dst := none
      seen := match i with | .s b => [b] | .imm _ => []
      lat := 2
      out := fun vs =>
        let n := match i with | .s b => (s.src b).toNat | .imm n => n.toNat
        .reg (.s (s.c.sdst d.toNat) (BitVec.ofInt 64 (tyVal t (elem (tyBits t) (n % (1024 / tyBits t)) (vs.getD 0 0))))) [] }
  | .vperm o => some (whole3 s 2 o fun a b =>
      vecOf 32 ((elems 32 b).map fun x => if x / 32 % 2 = 1 then 0 else elem 32 (x % 32) a))
  | .vrot d a n msk =>
    let k := match n with | .s b => (s.src b).toNat % 32 | .imm n => n.toNat
    some (whole2 2 d a (match n with | .s b => [b] | .imm _ => []) (s.lanes msk)
      fun v => .vec (s.lanes msk) (vecOf 32 ((List.range 32).map fun i => elem 32 ((i + k) % 32) v)) [])
  | .vredl t op o => some (whole2 6 o.d o.a [] (s.lanes o.msk) fun a =>
      let es := ((List.range 32).zip (elems 32 a)).map fun x =>
        if (s.lanes o.msk).getLsbD x.1 then (x.2, some x.1) else (redIdent t op, none)
      .vec allLanes (vecOf 32 (List.replicate 32 (redTree t op 5 es).1)) (redTree t op 5 es).2)
  | .vscan t op o => some (whole2 8 o.d o.a [] (s.lanes o.msk) fun a =>
      let rs := scanFrom t op (s.lanes o.msk) 0 (redIdent t op) (elems 32 a)
      .vec (s.lanes o.msk) (vecOf 32 (rs.map (·.bits))) (laneFlags 32 rs))
  | .vdot2 r o => some (word4 4 32 o (dot2 r))
  | .vclamp t o => some (word4 2 (tyBits t) o (clampElem t))
  | .vround t r o => some (word2 s 3 (tyBits t) o (roundElem t r))
  | .vmov o => some (whole2 1 o.d o.a [] (s.lanes o.msk) fun a => .vec (s.lanes o.msk) a [])
  | .vlane t d a msk =>
    some (wordS s d a msk (vecOf (tyBits t) ((List.range 32).map fun i => ((s.src a).toNat + i) % 2 ^ 32)))
  | .vsqz o => some (whole2 2 o.d o.a [] (s.lanes o.msk) fun v => .vec allLanes
      (vecOf 32 ((List.range 32).filterMap fun i => if (s.lanes o.msk).getLsbD i then some (elem 32 i v) else none)) [])
  | .vkeep t d a => some (whole2 4 d a [] allLanes fun v => .vec allLanes (keepVec t v).1 (keepVec t v).2)
  | .frcp f o => some (word2 s 10 (tyBits f.t) o (fRcp f.t f.r f.sat))
  | .frsq f o => some (word2 s 10 (tyBits f.t) o (fRsq f.t f.r f.sat))
  | .fsqrt f o => some (word2 s 10 (tyBits f.t) o (fSqrt f.t f.r f.sat))
  | .fdiv f o => some (word3 s 10 (tyBits f.t) o (fDiv f.t f.r f.sat))
  | .fexp2 f o => some (word2 s 12 (tyBits f.t) o (fTrans .exp2 f.t f.r f.sat))
  | .flog2 f o => some (word2 s 12 (tyBits f.t) o (fTrans .log2 f.t f.r f.sat))
  | .fsin f o => some (word2 s 12 (tyBits f.t) o (fTrans .sin f.t f.r f.sat))
  | .fcos f o => some (word2 s 12 (tyBits f.t) o (fTrans .cos f.t f.r f.sat))
  | .ftanh f o => some (word2 s 12 (tyBits f.t) o (fTrans .tanh f.t f.r f.sat))
  | .fsig f o => some (word2 s 12 (tyBits f.t) o (fTrans .sig f.t f.r f.sat))
  | .fsilu f o => some (word2 s 12 (tyBits f.t) o (fTrans .silu f.t f.r f.sat))
  | .fgelu f o => some (word2 s 12 (tyBits f.t) o (fTrans .gelu f.t f.r f.sat))
  | .frng t d a b msk => some (whole2 6 d a [b] (s.lanes msk) fun v =>
      .vec (s.lanes msk) (vecOf 32 ((elems 32 v).map (rngLane t s.c.rngkey (s.src b).toNat))) [])
  | .fbasis r sat k o =>
    let g := s.gang (gangOf s.me)
    some (word2 s 6 32 o (fBasis r sat k g.lo.toNat g.inv.toNat))
  | .fldexp f o => some (word3 s 2 (tyBits f.t) o (fLdexp f.t f.r f.sat))
  | _ => none

/-- A mask word's scalar operand B reads tm.now (R198). -/
def maskSeen (s : State) : MSrc → State
  | .s x => s.seen x
  | .m _ => s

/-- Every vector operand lies in the region's window (R178, R179). -/
def inWindow (s : State) (ops : List (VOp × Nat)) : Prop := ∀ o ∈ ops, s.c.inWindow (s.vidx o.1 o.2) = true
/-- The registers that operands name. -/
def numsOf (s : State) (ops : List (VOp × Nat)) : List Nat := ops.map fun o => s.vnum o.1 o.2

/-- The streams that a word touches are ready: each bound source has a vector, not poisoned, and a bound destination takes
one (R283, R284, R311). -/
def streamsReady (s : State) (w : VecWord) : Prop :=
  (∀ n ∈ numsOf s w.srcs, s.c.canRead n = .go ∧ s.c.popPoison n = false) ∧
  (∀ d, w.dst = some d → s.c.canWrite (s.vnum d 0) = .go)

/-- Flags that a word raises: those of the conversions of what it pops, its own, and those of what it pushes; the streams'
count in the lanes that the word enables (R238, R248, R279, R285). -/
def raised (s : State) (w : VecWord) : List (Nat × Flags) :=
  match w.out ((numsOf s w.srcs).map s.c.readV), w.dst with
  | .vec m v fl, some d =>
    maskFlags w.en (s.c.popFlags (numsOf s w.srcs)) ++ fl ++ maskFlags w.en (s.c.pushFlags (s.vnum d 0) m v)
  | .vec _ _ fl, none | .reg _ fl, _ => maskFlags w.en (s.c.popFlags (numsOf s w.srcs)) ++ fl

/-- The state after a vector word: its bound sources popped once each, its result put in flight or pushed, its flags
landing with it (R238, R249, R283). -/
def vecNext (s : State) (w : VecWord) : State :=
  let s1 := (w.seen.foldl State.seen s).popAll (numsOf s w.srcs)
  let s2 := match w.out ((numsOf s w.srcs).map s.c.readV), w.dst with
    | .vec m v _, some d => s1.putV w.lat (s.vnum d 0) m v
    | .vec _ _ _, none => s1
    | .reg r _, _ => s1.result w.lat r
  s2.putFlags w.lat (raised s w)

/-! ### Terms: the L column (R313 to R323) -/

/-- A token that no pending operation holds on the issue tick (R134). -/
def tokFree (s : State) (k : BitVec 3) : Prop := (s.c.tok k.toNat).bound s.T = false
/-- The translation of a virtual address is in hand and permits the access, at this physical address (R304, R305). -/
def inHand (s : State) (va acc pa : Nat) : Prop :=
  va < 2 ^ 56 ∧ ∃ e, s.tlbFind s.here va = some e ∧ s.checkEnt e va acc = .ok pa
/-- A vector operand in the window whose register can be read now; its flags in the enabled lanes are not enabled to
trap. -/
def readable (s : State) (o : VOp) (pos : Nat) (m : Lane) : Prop :=
  s.c.inWindow (s.vidx o pos) = true ∧ s.c.canRead (s.vnum o pos) = .go ∧ s.c.popPoison (s.vnum o pos) = false ∧
    orFlags (maskFlags m (s.c.popFlags [s.vnum o pos])) &&& s.c.fpEnable = 0
/-- A vector destination in the window that takes a result now. -/
def writable (s : State) (o : VOp) : Prop :=
  s.c.inWindow (s.vidx o 0) = true ∧ s.c.canWrite (s.vnum o 0) = .go
/-- The state once a stored vector has been read: its stream popped, the flags of its conversion put in flight. -/
def popped (s : State) (a : Src) (o : VOp) (pos : Nat) (m : Lane) : State :=
  ((s.seen a).popAll [s.vnum o pos]).putFlags 1 (maskFlags m (s.c.popFlags [s.vnum o pos]))
/-- The virtual address of a scalar access, of a global vector access, and of a local or remote vector access (R313). -/
def addrS (s : State) (a : Src) (off : BitVec 18) : Nat := (s.src a + off.signExtend 64).toNat
/-- The address of a global vector access: its offset counts lines. -/
def addrG (s : State) (a : Src) (off : BitVec 14) : Nat := (s.src a + off.signExtend 64 * 128).toNat
/-- The address of a local or remote vector access: its offset counts units of 16 bytes. -/
def addrV (s : State) (a : Src) (off : BitVec 14) : Nat := (s.src a + off.signExtend 64 * 16).toNat
/-- A remote address is well formed and names 128 bytes of a tile of the region's box that is not harvested (R317). -/
def remoteOk (s : State) (r : Nat) : Prop :=
  r / 2 ^ 21 % 8 = 0 ∧ r / 2 ^ 36 = 0 ∧ s.harvested (r / 2 ^ 24 % 4096) = false ∧ r % 2 ^ 21 % 16 = 0 ∧
    (s.region s.c.region).eff.inBox (r / 2 ^ 24 % 4096) = true ∧ r % 2 ^ 21 + 128 ≤ s.c.share
/-- The write-set bytes of a line by physical address (R301). -/
def ownBytes (s : State) (pa : Nat) : List (Nat × Byte) :=
  (s.c.wsBytes (pa / 128)).map fun b => (pa / 128 * 128 + b.1, b.2)
/-- The write-set takes the bytes of a store to a line: the line's update line goes to its home first (R299, R301). -/
def buffered (s : State) (pa : Nat) (bs : List (Nat × Byte)) (t : State) : Prop :=
  ∃ c, s.c.wsStore (pa / 128) (bs.map fun b => (b.1 % 128, b.2)) = some c ∧
    t = (s.setC c).pushUpd s.here (pa / 128) s.c.pushNo

/-! ### Terms: the K column (R140 to R169, R199 to R205, R466 to R473) -/

/-- The word in progress stands in the strand's own stream; it has not trapped. -/
def ownWord (s : State) (e : QEnt) : Prop := s.cur.ent = some e ∧ e.fwd = false ∧ s.cur.trapped = false
/-- A transfer's target may be fetched: the next word, or a word of the role (R143). -/
def inCode (s : State) (e : QEnt) (tgt : Nat) : Prop := tgt = e.pc + 1 ∨ tgt < s.c.words
/-- The target of a transfer that is taken (R142, R143). -/
def targetOf (s : State) (e : QEnt) : Instr → Option Int
  | .br _ off | .call _ _ off => some (e.pc + off.toInt)
  | .ret _ a => some (s.sreg a).toNat
  | .jmpi _ a off => some (s.sreg a + off.signExtend 64).toNat
  | .loop _ d off => some (if s.sreg d = 1 then e.pc + 1 else e.pc + off.toInt)
  | _ => none
/-- No rep is capturing (R167). -/
def noRep (s : State) : Prop := s.c.openRep = none
/-- No handler runs (R465). -/
def noUi (s : State) : Prop := s.c.ui.inh = false
/-- The strand's own decoder goes on at the target, and the outcome is known for its followers (R125, R135). -/
def jumped (s : State) (e : QEnt) (tgt : Nat) : State :=
  State.updC { s with cur := { s.cur with outcome := some tgt } } fun c => c.resolve e.pc tgt s.T
/-- A follower's own outcome, which it compares with its leader's or forwards (R125). -/
def outcomeIs (s : State) (tgt : Nat) : State := { s with cur := { s.cur with outcome := some tgt } }
/-- Where the strand goes on behind an rfork: a follower follows its leader there (R130, R153). -/
def went (s : State) (e : QEnt) (tgt : Nat) : State := if e.fwd then outcomeIs s tgt else jumped s e tgt
/-- The idle slots of the region, nearest first by the recruitment tree and then by strand number (R153, R154). -/
def forkSlots (s : State) : List Nat :=
  let g := (s.region s.c.region).eff
  sortBy (fun x y => treeDist g s.me x < treeDist g s.me y || (treeDist g s.me x == treeDist g s.me y && g.strandOf x ≤ g.strandOf y))
    (s.idleSlots s.c.region)
/-- How many strands an rfork of m chunks puts to work, the issuing one among them (R153). -/
def forkWidth (s : State) (m : Nat) : Nat :=
  min m (1 + min (forkSlots s).length ((s.region s.c.region).eff.tiles - (s.busySlots s.c.region).length))
/-- An rfork: its form, its operands, its chunks, the strands it puts to work, its cell and its target. -/
structure Fork where
  q : Bool
  d : BitVec 6
  n : Nat
  g : Nat
  m : Nat
  k : Nat
  h : Nat
  tgt : Nat
/-- The first index of the j-th part of its range: a chunk of rfork.q, or the j-th of k runs of whole chunks (R153). -/
def Fork.lo (f : Fork) (j : Nat) : Nat := if f.q then j * f.g else j * f.m / f.k * f.g
/-- The start of the strand that takes the j-th part (R154, R155). -/
def Fork.start (f : Fork) (s : State) (j : Nat) : Start :=
  { region := s.c.region, pc := f.tgt, s1 := f.lo j, s2 := min (f.lo (j + 1)) f.n, dreg := f.d.toNat, cell := f.h }
/-- What an rfork makes: its cell, whose count is its chunks or its strands; its recruits, on the nearest slots; and the task
records of the chunks that no strand takes at once (R153 to R155). -/
def forked (s : State) (f : Fork) : State :=
  let u := { s with cells := Tbl.put s.cells f.h ⟨s.c.region, if f.q then f.m else f.k, false⟩ }
  let u := ((List.range (f.k - 1)).zip (forkSlots s)).foldl (fun u x => u.recruit (some s.me) x.2 (f.start s (x.1 + 1))) u
  if f.q then
    State.kick { u with
      recs := u.recs ++ (List.range (f.m - f.k)).map fun i =>
        ⟨.task (f.start s (f.k + i)), s.c.region, (s.region s.c.region).part, u.recLevel s.c.region, u.recSeq + i, false⟩
      recSeq := u.recSeq + (f.m - f.k) }
  else u
/-- The arrival of a strand at a boundary (R148). -/
def arrivalAt (s : State) (sc : Scope) (kind : PKind) (step : Bool) : Arr :=
  { sc := sc, kind := kind, step := step, at_ := s.tick, pub := 0, pubDone := false, pubAt := 0, tok := none, pc := s.pcNow
    ent := s.cur.ent }
/-- The arrival of a strand at a bar (R152). -/
def barAt (s : State) (sc : Scope) (tok : Option Nat) : Arr :=
  { sc := sc, kind := .elastic, step := false, at_ := s.tick, pub := 0, pubDone := true, pubAt := 0, tok := tok, pc := s.pcNow
    ent := s.cur.ent }
/-- The timetable records that the second operand of stepdl names (R205). -/
def recsUsed (s : State) (b : Word) : List PhRec := (s.roleRecs.drop (b.toNat % 65536)).take (b.toNat / 65536 % 65536)
/-- The declared tick budget of stepdl (R205). -/
def budgetOf (s : State) (b : Word) (extra : BitVec 18) : Nat :=
  if b.toNat / 65536 % 65536 = 0 then extra.toNat
  else b.toNat / 2 ^ 32 * (recsUsed s b).foldl (fun n p => n + p.ticks) 0 + extra.toNat

/-! ### Terms: the M column and the spline words (R344 to R393) -/

/-- A descriptor operand: its reserved bits are zero, rot is at most 5, the base is a multiple of 16, and every row lies in
the share (R350, R351). -/
def descOk (s : State) (a b : BitVec 6) (o : ArrOp) : Prop :=
  let o := s.descOf a b o
  (s.sreg a).toNat / 2 ^ 48 = 0 ∧ (s.sreg b).toNat / 2 ^ 28 = 0 ∧ o.rot ≤ 5 ∧ o.base % 16 = 0 ∧
    ∀ r, r < o.rows → o.rowAddr r + o.rowLen ≤ s.c.share
/-- An operation with the operand that its word names: a descriptor, or a stream, whose type it then takes (R352, R361). -/
def operand (s : State) (src : AOp) (o : ArrOp) : ArrOp :=
  match src with
  | .desc a b => s.descOf a b { o with aty := s.c.arr64.aty }
  | .strm n =>
    let i := s.vnum (.v (n.setWidth 8)) 1
    { o with strm := some i, aty := (s.c.slot i).rfmt }
/-- A stream operand lies in the window and is bound to read (R352). -/
def operandOk (s : State) (src : AOp) (o : ArrOp) : Prop :=
  match src with
  | .desc a b => descOk s a b { o with aty := s.c.arr64.aty }
  | .strm n =>
    let v : VOp := .v (n.setWidth 8)
    s.c.inWindow (s.vidx v 1) = true ∧ s.c.bound (s.vnum v 1) = true ∧ (s.c.slot (s.vnum v 1)).dir = false
/-- The same of a gang's word: only the tile with x = 0 reads an operand, and its type is every tile's (R363). -/
def gangOperand (s : State) (src : AOp) (o : ArrOp) : ArrOp :=
  if tileX s.me = 0 then operand s src o
  else { o with aty := s.gangAty src }
/-- The box covers the gang, tile 0's operand is good, and a stream operand lies in the window on every tile (R179, R363,
R365). -/
def gangOperandOk (s : State) (src : AOp) (o : ArrOp) : Prop :=
  (s.region s.c.region).eff.ex = 16 ∧ (tileX s.me = 0 → operandOk s src o) ∧
    ∀ n, src = .strm n → s.c.inWindow (s.vidx (.v (n.setWidth 8)) 1) = true
/-- An M-column word: the operation that enters its lane, the conditions on its operands and planes, and whether the gang's
barrier starts it. -/
structure ArrWord where
  o : ArrOp
  good : Prop
  gang : Bool := false
/-- A word of the linear kinds: the front plane and the activation type go together, and give the entry interval (R347). -/
def linear (s : State) (good : Prop) (o : ArrOp) (gang : Bool := false) : ArrWord :=
  { o := { o with rp2 := (mmRp s.front o.aty).getD 2 }, good := good ∧ (mmRp s.front o.aty).isSome, gang := gang }
/-- The front plane is a spline plane, the activation type fits, and kn.g is within the plane's limit (R382). -/
def splineOk (s : State) (t : Ty) : Prop :=
  let f := s.front
  let g := (s.gang (gangOf s.me)).g.toNat
  f.2.1 = true ∧ (t = .a8 ∨ t = .bf16) ∧ 1 ≤ g ∧ g ≤ (if f.2.2 then 29 else 13)
/-- The front plane holds TS8 cells. -/
def spl8 (s : State) : Bool := s.front.1 == 0xB
/-- A spline word and its entry interval in half ticks for TS8 and for wider cells. -/
def spline (s : State) (good : Prop) (o : ArrOp) (r8 r16 : Nat) (gang : Bool := false) : ArrWord :=
  { o := { o with rp2 := if spl8 s then r8 else r16 }, good := good ∧ splineOk s o.aty, gang := gang }
/-- The operation of an mm-like word, before its operand. -/
def mmOp (s : State) (i : Instr) (w : MmOp) : ArrOp :=
  { i := i, id := 0, tok := some w.k.toNat, d := w.d.toNat, rows := rowsN w.rows, r0 := w.rows.r0.toNat, z := w.z
    aty := s.c.arr64.aty }
/-- The operation of a word with a descriptor and an accumulator. -/
def dOp (s : State) (i : Instr) (w : ArrD) (z : Bool := false) : ArrOp :=
  s.descOf w.a w.b { i := i, id := 0, tok := some w.k.toNat, d := w.d.toNat, rows := rowsN w.rows, r0 := w.rows.r0.toNat, z := z
                     aty := s.c.arr64.aty }
/-- The conditions on it. -/
def dOk (s : State) (i : Instr) (w : ArrD) (z : Bool := false) : Prop :=
  descOk s w.a w.b { i := i, id := 0, tok := some w.k.toNat, d := w.d.toNat, rows := rowsN w.rows, r0 := w.rows.r0.toNat, z := z
                     aty := s.c.arr64.aty }

/-- Every word of the M column that enters a lane (R358 to R373, R385 to R393). -/
def arrWord (s : State) (i : Instr) : Option ArrWord :=
  match i with
  | .mwld t back cmp sc a b k =>
    let o : ArrOp :=
      { i := i, id := 0, load := back, tok := some k.toNat, rows := if t == .t8 && cmp then 32 else 64
        rp2 := if t == .t8 && !cmp then 1 else 2, sc := (s.sreg sc).toNat }
    some { o := s.descOf a b o
           good := descOk s a b o ∧ (t = .t8 → (s.sreg sc).toNat % 16 = 0 ∧ (s.sreg sc).toNat + 64 ≤ s.c.share) }
  | .mm w => some (linear s (operandOk s w.src (mmOp s i w)) (operand s w.src (mmOp s i w)))
  | .mmg w => some (linear s (gangOperandOk s w.src (mmOp s i w)) (gangOperand s w.src (mmOp s i w)) true)
  | .mmrot z w => some (linear s (s.c.kind = .compute ∧ dOk s i w z) (dOp s i w z))
  | .macrd _ _ _ w | .macwr _ w => some { o := dOp s i w, good := dOk s i w }
  | .macclr d rows => some { o := { i := i, id := 0, d := d.toNat, rows := rowsN rows, r0 := rows.r0.toNat }, good := True }
  | .mbank | .splgclr => some { o := { i := i, id := 0 }, good := True }
  | .mmstat _ d k => some { o := { i := i, id := 0, tok := some k.toNat, d := s.c.sdst d.toNat }, good := True }
  | .splld t back wide sc a b k =>
    let o : ArrOp :=
      { i := i, id := 0, load := back, tok := some k.toNat, rows := 32
        rp2 := 2 * ((splLen (t == .t8) wide + 127) / 128), sc := (s.sreg sc).toNat }
    some { o := s.descOf a b o
           good := descOk s a b o ∧ (t = .t8 → (s.sreg sc).toNat % 16 = 0 ∧ (s.sreg sc).toNat + 32 ≤ s.c.share) }
  | .splev w => some (spline s (operandOk s w.src (mmOp s i w)) (operand s w.src (mmOp s i w)) 2 8)
  | .splevG w => some (spline s (gangOperandOk s w.src (mmOp s i w)) (gangOperand s w.src (mmOp s i w)) 2 8 true)
  | .splbd z w => some (spline s (dOk s i w z) (dOp s i w z) 4 16)
  | .splgr w => some (spline s (dOk s i w) (dOp s i w) 8 8)
  | .splgrd a b k rows =>
    let o : ArrOp := { i := i, id := 0, tok := some k.toNat, rows := rowsN rows, r0 := rows.r0.toNat, rp2 := 34 }
    some { o := s.descOf a b o, good := descOk s a b o }
  | .grefine k => some
    { o := { i := i, id := 0, tok := some k.toNat, kn := s.knots s.me }
      good := splineOk s .a8 ∧ 2 * (s.knots s.me).getD 2 0 + 3 ≤ (if s.front.2.2 then 32 else 16) }
  | .splst _ d a k => some
    { o := { i := i, id := 0, tok := some k.toNat, d := s.c.sdst d.toNat, sc := (s.sreg a).toNat }
      good := (s.sreg a).toNat % 16 = 0 ∧ (s.sreg a).toNat + 128 ≤ s.c.share }
  | _ => none

/-! ### Terms: the X column and the trees (R398 to R422) -/

/-- A buffer word is well formed, it is aligned, and it and the same length at the other end's offset lie in the share
(R404). -/
def bufFits (s : State) (w : Word) (off : Nat) : Prop :=
  bufOk w = true ∧ bufAddr w % 16 = 0 ∧ off % 16 = 0 ∧ bufAddr w + bufLen w ≤ s.c.share ∧ off + bufLen w ≤ s.c.share
/-- Fields of send's destination word (R407): device, tile, partition, tag. -/
def destDev (d : Word) : Nat := (d.extractLsb' 12 12).toNat
/-- Its tile. -/
def destTile (d : Word) : Nat := (d.extractLsb' 0 12).toNat
/-- Its partition. -/
def destPart (d : Word) : Nat := (d.extractLsb' 24 6).toNat
/-- The destination is a device of the system and a tile within the own partition's root box; on this device the tile is
not harvested and the partition is the own one (R407, R408). -/
def destOk (s : State) (d : Word) : Prop :=
  d.getLsbD 31 = false ∧ d.getLsbD 30 = false ∧ destDev d < s.dv.cfg.sysdev ∧
    (s.region (s.part s.here.part).root).eff.inBox (destTile d) = true ∧
    (destDev d = s.dv.cfg.devno → s.harvested (destTile d) = false ∧ destPart d = s.here.part)
/-- The message that a send launches. -/
def msgOf (s : State) (cls : BitVec 2) (k : BitVec 3) (d w : Word) : Msg :=
  { srcDev := s.dv.cfg.devno, srcTile := s.me, srcPart := s.here.part, cls := cls.toNat, order := s.c.orderOf cls.toNat,
    rorder := s.c.orderOf 1, dev := destDev d, part := destPart d, tile := destTile d, tag := (d.extractLsb' 32 32).toNat,
    len := bufLen w, addr := bufAddr w, bytes := [], pz := [], tok := k.toNat, pc := s.pcNow, sent := s.tick }
/-- A member of a tree slot with fewer than four operations under way on it (R418). -/
def treeFree (s : State) (slot : BitVec 4) : Prop :=
  (s.c.tree slot.toNat).up ≠ 7 ∧ ((s.c.treeList slot.toNat).filter (·.own)).length < 4
/-- The vector register that reduce, allred or bcast reads: a bcast does at the root alone (R420). -/
def treeReads (s : State) (w : TreeW) (kind : TreeKind) : List Nat :=
  if isBcast kind = true ∧ s.treeRoot w.slot.toNat = false then [] else [s.vnum w.a 1]
/-- Whether it writes its vector destination: a reduce does at the root alone (R419). -/
def treeWrites (s : State) (w : TreeW) (kind : TreeKind) : Bool := !isReduce kind || s.treeRoot w.slot.toNat
/-- Its operands lie in the window, what it reads can be read now, raises no enabled flag and is not poisoned, and what it
writes takes a result (R179, R239, R283, R311). -/
def treeReady (s : State) (w : TreeW) (kind : TreeKind) : Prop :=
  s.c.inWindow (s.vidx w.d 0) = true ∧ s.c.inWindow (s.vidx w.a 1) = true ∧
    (∀ n ∈ treeReads s w kind, s.c.canRead n = .go ∧ s.c.popPoison n = false) ∧
    orFlags (s.c.popFlags (treeReads s w kind)) &&& s.c.fpEnable = 0 ∧
    (treeWrites s w kind = true → s.c.canWrite (s.vnum w.d 0) = .go)
/-- The operation of reduce, allred or bcast. -/
def treeOpOf (s : State) (w : TreeW) (kind : TreeKind) : TreeOpSt :=
  let v := ((treeReads s w kind).map s.c.readV).getD 0 0
  { k := 0, kind := kind, v := v, nf := ownNf w.t v, tok := some w.k.toNat, d := s.vnum w.d 0, e := s.c.pdst w.e.toNat, pc := s.pcNow }
/-- The state after it: what it reads is popped, its vector destination takes its place in the stream that it is bound to,
and the operation goes to the slot. -/
def treeNext (s : State) (w : TreeW) (kind : TreeKind) : State :=
  let t := (s.popAll (treeReads s w kind)).putFlags 1 (s.c.popFlags (treeReads s w kind))
  treeIssue (if treeWrites s w kind = true then t.claimV (s.vnum w.d 0) (some w.k.toNat) else t) w.slot.toNat
    (treeOpOf s w kind) false
/-- The number of a dimension order (R398). -/
def orderNo : Order → Nat
  | .xyz => 0 | .xzy => 1 | .yxz => 2 | .yzx => 3 | .zxy => 4 | .zyx => 5
/-- The value of an xstat of no handle (R416). -/
def xstatOf (s : State) : XSel → Nat
  | .overflow => s.c.ovf.length + 65536 * s.c.ovfBytes
  | .handles => (s.c.recvT.filter fun e => e.2.st != .free).length
  | .orders => s.c.orderOf 0 + 8 * s.c.orderOf 1 + 64 * s.c.orderOf 2 + 512 * s.c.orderOf 3 + 4096 * s.c.orderOf 5 +
      32768 * s.c.orderOf 5
  | .status | .tag => 0
/-- The value of an xstat of a handle: its status word, or the tag of the message that a complete one holds; that of a
cancelled one is a free value. -/
def xstatH (s : State) (h : Handle) : XSel → Word
  | .status => h.status
  | _ =>
    if h.st = .complete then BitVec.ofNat 64 h.tag
    else if h.st = .cancelled then (Config.cancelTag s.fresh).setWidth 64 else 0

/-! ### Terms: the C column (R324 to R343) and the streams (R278 to R286) -/

/-- Everything that R332 checks of a transfer holds. -/
def copyOk (s : State) : Prop :=
  let c := s.c.cp
  (c.affine = true → (s.part s.here.part).priv = true) ∧ s.cpLegal c = true ∧
    sideAligned c c.srcsp c.src c.sstr c.ssz = true ∧ sideAligned c c.dstsp c.dst c.dstr c.dsz = true ∧
    s.sideInBox c c.srcsp c.src = true ∧ s.sideInBox c c.dstsp c.dst = true ∧
    sideInShare c s.c.share c.srcsp c.src c.sstr c.ssz = true ∧ sideInShare c s.c.share c.dstsp c.dst c.dstr c.dsz = true
/-- The slot that a stream word names: inside the window, and one of v0 to v7 (R280). -/
def slotAt (s : State) (v : BitVec 3) (pos n : Nat) : Prop :=
  s.c.inWindow (s.vidx (.v (v.setWidth 8)) pos) = true ∧ s.vnum (.v (v.setWidth 8)) pos = n ∧ n < 8

/-! ### Terms: events -/

/-- The word that a follower queues (R123). -/
def fwdEnt (c : Ctx) (w : Fwd) (x : Inst) (n : Nat) : QEnt :=
  { pc := w.pc, bits := w.bits, x := x, col := colOf w.bits, seq := c.seq, rank := c.seq, avail := n, prev := .none
    fixed := some n, fwd := true
    outcome := w.outcome, j := w.j, strides := w.strides, cnt := w.cnt }
/-- The reissues that a sequencer puts into the queues (R168): each stands behind the last captured word in program order. -/
def reissues (r : Rep) : List QEnt :=
  r.caps.map fun x => { x.1 with
    fixed := some (x.2 + (r.j + 1) * r.period + r.slip), j := r.j + 1, rid := r.rid, strides := r.strides, avail := 0, notBefore := 0
    rank := (r.caps.getLast?.map fun y => y.1.seq).getD 0 }
/-- The members of a set pass its boundary, in tile order (R149). -/
def passAll (s : State) (ms : List Loc) : State :=
  ms.foldl (fun s l => match (s.ctx l).arr with
    | some a => s.passBoundary l a
    | none => s) s
/-- A member of a set is released from its bar: a split bar's token completes, and a plain one blocks the strand no more
(R152). -/
def passBar (s : State) (l : Loc) : State :=
  match (s.ctx l).bars with
  | a :: r =>
    let u := s.updCtx l fun c => { c with bars := r }
    match a.tok with
    | some k => u.tokDone l k ((u.ctx l).now u.tick)
    | none => (u.updCtx l fun c => { c with block := .none }).uiPoll l
  | [] => s
/-- A strand of a partition whose clock runs traps imprecisely: the record is listed and the halt comes 24 ticks later
(R446, R452). -/
def trapped (s t : State) (l : Loc) (kind code : Nat) : Prop :=
  ∃ r, (t.ctx l).stops = (s.ctx l).stops ++ [r] ∧ r.kind = kind ∧ r.code = code ∧ r.prec = false ∧ r.tile = l.tile ∧
    (t.part l.part).st = .halting ∧ (t.part l.part).haltAt = s.tick + 24 ∧ (s.tick + 24, .haltDelivery l.part) ∈ t.agenda
/-- The place is in its tile's foreground bank, its clock runs, and its partition is active. -/
def runs (s : State) (l : Loc) : Prop :=
  s.inFg l = true ∧ (s.ctx l).frozen = none ∧ (s.part l.part).st = .active
/-- Whether the head of a copy queue has elements to move that no local transfer moves (R325). -/
def ableAt (s : State) (l : Loc) (q : Nat) : Bool := ((s.ctx l).queue q).head?.any fun x => x.moving && !x.cp.isLocal
/-- The queue whose turn it is in a slot: the next one after the last served that has something to move (R325). -/
def nextTurn (s : State) (l : Loc) : Option Nat :=
  ((List.range 4).map fun i => ((s.ctx l).cpTurn + 1 + i) % 4).find? (ableAt s l)
/-- What a run has read, and its destination is to take. -/
def bytesOf (x : Xfer) (r : CopyRun) : Moved := ((x.fly.find? fun f => f.elem == r.elem).map (·.m)).getD []
/-- A run that has read its elements is on its way: its bytes, without those of earlier runs, and the virtual addresses that it is to
write. -/
def inFlight (s : State) (l : Loc) (x : Xfer) (r : CopyRun) (e : MoveEnd) : Flown :=
  { elem := r.elem
    m := e.m.take (e.m.length - (x.fly.flatMap (·.m)).length)
    vas := (List.range e.n).filterMap fun i => match s.dstSide l x (r.elem + i) with
      | .virt va => some va
      | .spad .. => none }
/-- An operation of a gang that waits at the barrier is released on a tick (R364). -/
def released (n : Nat) (o : ArrOp) : ArrOp :=
  if isGang o.i && o.inLane && o.start.isNone && o.rel.isNone then { o with rel := some n } else o
/-- A tile of a gang is released from the barrier on a tick: its operations that wait there, and its strand (R364). -/
def passGang (n : Nat) (s : State) (l : Loc) : State :=
  (s.updCtx l fun c => { c with
    arr64 := { c.arr64 with ops := c.arr64.ops.map (released n) }
    block := if c.block == .mmg then .none else c.block }).uiPoll l
/-- A missed line is in its slice and not waited for (R296). -/
def hitNow (s : State) (pa : Nat) : Prop := isHome pa = true ∧ s.sliceHit pa = true ∧ s.lineWaits pa = false
/-- The only operation in a context's slice. -/
def onlyOp (s : State) (l : Loc) (id : Nat) (o : ArrOp) : Prop := (s.ctx l).arr64.ops = [o] ∧ o.id = id
/-- A link or a tree slot gives an event its place: the member's own word has issued (R418). -/
def ownOp (s : State) (l : Loc) (slot k : Nat) (o : TreeOpSt) : Prop := (s.ctx l).treeOp slot k = some o ∧ o.own = true

/-! ### Terms: the dispenser, launches and the module -/

/-- A record that asks for a task's strand. -/
def isTask (d : DRec) : Bool := match d.kind with | .task _ => true | .start | .resume => false
/-- The slots on which a task record's strand may be placed: no earlier record waits there, a bank is free, and no strand of another
partition stands there but a ballast task's that gives way (R22, R85, R155). -/
def taskSlots (s : State) (d : DRec) : List Nat :=
  (s.idleSlots d.region).filter fun t => !(s.waitedTiles d).contains t && (match s.taken t d.part with
    | some x => d.lvl != 0 && x.2 == 0
    | none => true) && s.bankOk t d.part
/-- What stands in a recruit's way, a ballast task, is swapped out, where that is possible now (R22). -/
def recruitWay (s : State) (t : Nat) (st : Start) : State :=
  match s.taken t (s.region st.region).part with
  | some x => if x.2 = 0 ∧ s.recLevel st.region ≠ 0 ∧ s.canSwap x.1 (s.region st.region).part [t] = true then
      s.swapOut x.1 (s.region st.region).part else s
  | none => s
/-- The contexts that give way to one being reloaded, where they can be swapped out (R461). -/
def giveWay (s : State) (p : Nat) : List Nat :=
  match s.inTheWay p (s.recLevel (s.part p).root) (s.strandTiles p) with
  | .pre ps _ => if (ps.all fun q => s.canSwap q p (s.strandTiles p)) = true then ps else []
  | .go | .wait => []
/-- The record leaves the dispenser. -/
def dropRec (s : State) (d : DRec) : State := { s with recs := s.recs.filter fun x => x != d }
/-- The word that a queue entry's slot of a launch ring holds, as the poll reads it (R72). -/
def seqWord (s : State) (q : Nat) : Nat :=
  leNat (s.outsideRead (hostAddr ((s.qp q).base + 64 * (((s.qp q).next + 2 ^ 64 - 1) % ringSize (s.qp q).lsize))) 8).2
/-- The poll has read it. -/
def polled (s : State) (q : Nat) : State :=
  (s.outsideRead (hostAddr ((s.qp q).base + 64 * (((s.qp q).next + 2 ^ 64 - 1) % ringSize (s.qp q).lsize))) 8).1
/-- One more free value has been taken. -/
def tookFree (s : State) : State := { s with fresh := s.fresh + 1 }
/-- The words of the launch entry at lq.next, from its second (R71). -/
def entryWord (s : State) (q i : Nat) : Nat :=
  leNat (((s.outsideRead (hostAddr ((s.qp q).base + 64 * (((s.qp q).next + 2 ^ 64 - 1) % ringSize (s.qp q).lsize) + 8)) 56).2.drop
    (8 * i)).take 8)
/-- An entry is consumed: lq.next moves on and its completion is owed (R74). -/
def consumed (s : State) (q : Nat) : State :=
  (s.outsideRead (hostAddr ((s.qp q).base + 64 * (((s.qp q).next + 2 ^ 64 - 1) % ringSize (s.qp q).lsize) + 8)) 56).1.updQp q
    fun x => { x with next := (x.next + 1) % 2 ^ 64, ready := false, owed := x.owed + 1 }
/-- A launch is counted: the image cache's order of use (R83). -/
def counted (s : State) : State := { s with dv := { s.dv with launches := s.dv.launches + 1 } }
/-- What launches from a queue, or the management controller (R73, R455). -/
def launcher (q : Nat) (cookie : Word) (priv : Bool) : Launcher := { q := if priv then none else some q, cookie := cookie, priv := priv }
/-- What launches the next child of a strand's batch (R159, R162). -/
def childOf (s : State) (l : Loc) : Launcher :=
  let b := (s.ctx l).batch
  { parent := some (s.ctx l).region, by_ := some (l.tile, b.launched)
    pred := if b.chain && b.launched != 0 then Tbl.find b.kids (b.launched - 1) else none }
/-- The next child of a strand's batch is counted in (R160). -/
def childCounted (s : State) (l : Loc) (r n : Nat) (f : Batch → Batch) : State :=
  ((((s.updCtx l fun c => { c with batch := f { c.batch with launched := n } }).kidsBy r (· + 1)).nextDelivery l).nextChild l)
/-- Changes the governor. -/
def updGov (s : State) (f : Gov → Gov) : State := { s with gov := f s.gov }
/-- PMBus has answered. -/
def answered (s : State) (v : PmAns) : State := s.updPower fun p => { p with pmAns := v }

/-- A request of the host to the home of a line (R290). -/
def hostAsk (pa o : Nat) (op : HomeOp) : HomeReq :=
  { loc := ⟨0, 64⟩, tok := none, va := 0, pa := pa, op := op, pc := 0, agent := some o }
/-- A request of the host is on its way to its home, which it reaches no sooner than its route takes, where the route is free of
blocked detours (R89, R397). -/
def asksHome (s t : State) (q : HomeReq) : Prop :=
  ∀ k, s.legTime [{ order := 0, src := none, dst := s.endOf q.pa, bytes := homeBytes q.op }] = .ok k →
    ∃ n, s.tick + k ≤ n ∧ (n, .homeRequestServe q) ∈ t.agenda
/-- The rails of the step of power-up in progress are in band (R510). -/
def inBand (s : State) : Prop := ∃ b, s.dv.power.bandAt = some b ∧ b ≤ s.tick
/-- A step of power-up has begun: its rails reach their band within 10 ms, or one of them has not by then (R510). -/
def begun (s t : State) (n : Nat) (on : List Nat) : Prop :=
  t.dv.power.stage = n ∧ t.dv.power.on = on ∧ t.dv.power.stepAt = s.tick ∧
    ((∃ b, t.dv.power.bandAt = some b ∧ s.tick < b ∧ b ≤ s.tick + t.ticksOf 10000000 ∧
        (s.dv.power.pwren = true → (b, .pwrenAssert) ∈ t.agenda)) ∨
      (t.dv.power.bandAt = none ∧ ∃ x m, x ∈ stepRails n ∧ s.tick + t.ticksOf 10000000 < m ∧ (m, .railBandTimeout x) ∈ t.agenda))

/-! ### Terms: the agenda, landing and traps -/

/-- The instruction that has an event's name and arguments. -/
def names (e : Ev) (i : Instr) : Prop :=
  match e with
  | .translationWalk l va acc => i = .translationWalk l va acc
  | .forwardedWordIssue l w => i = .forwardedWordIssue l w
  | .repReissue l rid => i = .repReissue l rid
  | .boundaryRelease region sc inst => i = .boundaryRelease region sc inst
  | .barRelease region sc inst => i = .barRelease region sc inst
  | .joinCellDecrement l cell trig => i = .joinCellDecrement l cell trig
  | .joinResult l cell last => i = .joinResult l cell last
  | .sleepWake l => i = .sleepWake l
  | .waittRelease l tok => i = .waittRelease l tok
  | .recruitStart tile st => i = .recruitStart tile st
  | .homeRequestServe q => i = .homeRequestServe q
  | .dramMissFill pa => i = .dramMissFill pa
  | .homeReplyArrival r => i = .homeReplyArrival r
  | .remoteAccessServe q => i = .remoteAccessServe q
  | .remoteAckArrival q wr poisoned => i = .remoteAckArrival q wr poisoned
  | .eccCorrected e => i = .eccCorrected e
  | .uncorrectableError e => i = .uncorrectableError e
  | .scrub slice => i = .scrub slice
  | .dramSensorReading n r => i = .dramSensorReading n r
  | .copyTransferStart l q => i = .copyTransferStart l q
  | .copySlotMove m => i = .copySlotMove m
  | .localCopyMove l q => i = .localCopyMove l q
  | .copyWriteReport l q last err => i = .copyWriteReport l q last err
  | .streamFetch l v => i = .streamFetch l v
  | .streamVectorReady l v => i = .streamVectorReady l v
  | .streamWrite l v => i = .streamWrite l v
  | .streamWriteLand l v => i = .streamWriteLand l v
  | .arrayOpStart l load => i = .arrayOpStart l load
  | .arrayRowEntry l op row => i = .arrayRowEntry l op row
  | .arrayResultLand l op row => i = .arrayResultLand l op row
  | .planeTakeEffect l op => i = .planeTakeEffect l op
  | .gangBarrierRelease gang part => i = .gangBarrierRelease gang part
  | .mmrotShiftLand l src sh => i = .mmrotShiftLand l src sh
  | .mmrotPlaneExchange l op => i = .mmrotPlaneExchange l op
  | .knotLand l lo inv g mode => i = .knotLand l lo inv g mode
  | .timedPacketArrival p => i = .timedPacketArrival p
  | .messageArrival m => i = .messageArrival m
  | .heldMessageReoffer tile => i = .heldMessageReoffer tile
  | .messageLand l h => i = .messageLand l h
  | .sendAckArrival l tok err pc => i = .sendAckArrival l tok err pc
  | .treeContributionArrival l slot k port kind v nf => i = .treeContributionArrival l slot k port kind v nf
  | .treeResultArrival l slot k kind v nf => i = .treeResultArrival l slot k kind v nf
  | .xbarRelease l slot k => i = .xbarRelease l slot k
  | .peerTreeCombine l slot child kind v nf => i = .peerTreeCombine l slot child kind v nf
  | .deadPartitionPacket m => i = .deadPartitionPacket m
  | .detourBlocked tile part => i = .detourBlocked tile part
  | .routerFailure tile lost => i = .routerFailure tile lost
  | .zheostCrcFail port exhausted lost => i = .zheostCrcFail port exhausted lost
  | .ptpMessage dom port m => i = .ptpMessage dom port m
  | .ppsIn => i = .ppsIn
  | .launchQueuePoll q => i = .launchQueuePoll q
  | .consumeEntry q => i = .consumeEntry q
  | .nopEntry q cookie => i = .nopEntry q cookie
  | .launch q rcb cookie priv => i = .launch q rcb cookie priv
  | .imageVerify file => i = .imageVerify file
  | .lqNextWrite q v => i = .lqNextWrite q v
  | .lqStopClear q ovr crpt => i = .lqStopClear q ovr crpt
  | .cqHeadWrite q v => i = .cqHeadWrite q v
  | .registerWrite mc r v => i = .registerWrite mc r v
  | .uivecWrite l v => i = .uivecWrite l v
  | .tsRead r => i = .tsRead r
  | .hostBar2Write off bytes => i = .hostBar2Write off bytes
  | .hostBar2Read off len => i = .hostBar2Read off len
  | .ideStateChange c => i = .ideStateChange c
  | .spdmMeasurements req => i = .spdmMeasurements req
  | .ideKm stream key => i = .ideKm stream key
  | .firmwareDownload bank secver measure good => i = .firmwareDownload bank secver measure good
  | .configBlobSubmit addr b => i = .configBlobSubmit addr b
  | .mappingRequest r => i = .mappingRequest r
  | .sgEntryWrite n part v => i = .sgEntryWrite n part v
  | .checkpointRegister part dir => i = .checkpointRegister part dir
  | .recoveryGroupRegister members => i = .recoveryGroupRegister members
  | .startRecordPlace region => i = .startRecordPlace region
  | .taskRecordPlace region => i = .taskRecordPlace region
  | .ballastDispatch region => i = .ballastDispatch region
  | .preemptDelayExpiry region => i = .preemptDelayExpiry region
  | .imageChunkSend region seed chunk => i = .imageChunkSend region seed chunk
  | .imageChunkArrival region tile c => i = .imageChunkArrival region tile c
  | .loadCompleteReport region tile => i = .loadCompleteReport region tile
  | .childLaunch l => i = .childLaunch l
  | .childDelivery l => i = .childDelivery l
  | .paceEvaluation => i = .paceEvaluation
  | .deadlineMiss region step => i = .deadlineMiss region step
  | .pStateChange p => i = .pStateChange p
  | .railRampDone => i = .railRampDone
  | .canaryWindowEnd rail errors => i = .canaryWindowEnd rail errors
  | .canaryHoldExpiry h => i = .canaryHoldExpiry h
  | .limiterSample amps => i = .limiterSample amps
  | .overcurrentTighten => i = .overcurrentTighten
  | .telemetrySample watts rails => i = .telemetrySample watts rails
  | .ygraceExpiry => i = .ygraceExpiry
  | .regionPowerEstimate region watts => i = .regionPowerEstimate region watts
  | .heatWindowEnd => i = .heatWindowEnd
  | .sensorConversion cell r => i = .sensorConversion cell r
  | .geyserHeartbeatMiss => i = .geyserHeartbeatMiss
  | .geyserHeartbeatReturn => i = .geyserHeartbeatReturn
  | .quadIdleExpiry quad => i = .quadIdleExpiry quad
  | .quadWake quad => i = .quadWake quad
  | .wakeStage quad => i = .wakeStage quad
  | .haltDelivery part => i = .haltDelivery part
  | .allAsleep part => i = .allAsleep part
  | .phaseTimer l => i = .phaseTimer l
  | .resume part => i = .resume part
  | .endRegion region => i = .endRegion region
  | .endPartition part => i = .endPartition part
  | .restore r => i = .restore r
  | .recoveryNotify part gen => i = .recoveryNotify part gen
  | .bankExchange part incoming => i = .bankExchange part incoming
  | .spillComplete tile => i = .spillComplete tile
  | .resumeRecordPlace part => i = .resumeRecordPlace part
  | .reloadComplete part => i = .reloadComplete part
  | .uiDelivery l => i = .uiDelivery l
  | .regionRetire region => i = .regionRetire region
  | .vinApplied mv => i = .vinApplied mv
  | .pwrenAssert => i = .pwrenAssert
  | .railBandTimeout step => i = .railBandTimeout step
  | .pwrenDeassert => i = .pwrenDeassert
  | .vinLoss => i = .vinLoss
  | .perstN => i = .perstN
  | .mcRstN => i = .mcRstN
  | .coolReading tin tout flow dp => i = .coolReading tin tout flow dp
  | .pmPage page => i = .pmPage page
  | .readVout => i = .readVout
  | .readIout => i = .readIout
  | .readTemperature1 => i = .readTemperature1
  | .statusWord => i = .statusWord
  | .clearFaults => i = .clearFaults
  | .readPin => i = .readPin
  | .readVin => i = .readVin
  | .pmbusRefusedWrite cmd => i = .pmbusRefusedWrite cmd
  | .pmbusUnsupported cmd => i = .pmbusUnsupported cmd
  | .zheostPortRestore port => i = .zheostPortRestore port
  | .railsReenable => i = .railsReenable
  | .shootdownComplete l d tok sc lo hi => i = .shootdownComplete l d tok sc lo hi
  | .faultDomainRegister fdom => i = .faultDomainRegister fdom
  | .debugAccess l op => i = .debugAccess l op

/-- Registers, tokens and memories that a context holds, without what is in flight. -/
def settled (c : Ctx) : Ctx := { c with pend := [] }
/-- A word of the I, V and F columns, or a mask word. -/
def isRegisterWord (s : State) (i : Instr) : Prop :=
  (intResult s i).isSome ∨ (predResult s i).isSome ∨ (indexResult s i).isSome ∨ (vecWord s i).isSome ∨
    (∃ z d a b, i = .mand z d a b ∨ i = .mor z d a b ∨ i = .mxor z d a b) ∨ (∃ d a, i = .mnot d a) ∨ ∃ a b, i = .frngk a b
/-- What stands in the registers of a context, its scratchpad and its own code. -/
def sameRegisters (c d : Ctx) : Prop :=
  d.s = c.s ∧ d.p = c.p ∧ d.m = c.m ∧ d.x = c.x ∧ d.v = c.v ∧ d.a = c.a ∧ d.k = c.k ∧ d.fpst = c.fpst ∧ d.rngkey = c.rngkey ∧
    d.sp = c.sp ∧ d.spw = c.spw ∧ d.ui = c.ui ∧ d.cp = c.cp ∧ d.arr64 = c.arr64 ∧ d.kind = c.kind ∧ d.pc = c.pc
/-- A result as it is written to the 64-bit destination: its low bits at the type's width, extended (R183). -/
def written (t : Ty) (x : Int) : Word := widen t (BitVec.ofInt 64 x)
/-- A word by its fields (R106): opcode, column, variant, operands D, A and B, immediate, delay count; every other field 0. -/
def wordOf (opc col var d a b imm dly : Nat) : Nat :=
  opc * 2 ^ 90 + col * 2 ^ 87 + var * 2 ^ 80 + d * 2 ^ 70 + a * 2 ^ 60 + b * 2 ^ 50 + imm * 2 ^ 32 + dly * 2 ^ 19
/-- A word by its three parcels, the lowest first (R6). -/
def parcels (a b c : Nat) : Nat := a + b * 2 ^ 32 + c * 2 ^ 64

end Sys2Proof.Claim

open Sys2Proof Sys2Proof.Machine Sys2Proof.Claim

/-! ### Encoding (R106 to R117) -/

/-- Every well-formed word has an encoding, and decoding it gives it back, with every operand, guard and hint (R106). -/
def Obligations.EncodeThenDecode : Prop :=
  ∀ x : Inst, x.wf = true → x.instr.isEvent = false → ∃ w, encode x = some w ∧ decode w = some x

/-- A word that decodes is the encoding of what it decodes to: no two words decode alike, and a word with a reserved bit set
or an illegal value does not decode (R117). -/
def Obligations.DecodeThenEncode : Prop :=
  ∀ (w : IWord) (x : Inst), decode w = some x → encode x = some w ∧ x.wf = true ∧ x.instr.isEvent = false

/-- Words written out from R106, R107 and the tables of each column decode to the instructions that they stand for; an all-zero
word, one with a reserved bit set and one of an unassigned opcode decode to none. -/
def Obligations.DecodeSamples : Prop :=
  decodeTableWord 96 (wordOf 0x01 0 0x1A 5 4 0 16 2) = some (.add false ⟨.i64, 5, .s 4, .imm 16⟩) ∧
  decodeTableWord 96 (wordOf 0x1C 0 0x12 0x202 3 0 (2 ^ 17 + 64) 1) = some (.cmp .lt .i32 2 (.s 3) (.imm 64)) ∧
  decodeTableWord 96 (wordOf 0x05 1 0x18 7 4 0 0 1) = some (.ldg .i64 7 (.s 4) 0 0) ∧
  decodeTableWord 96 (parcels 0x1820508C 0x240C010A 0x11404290) = some (.vfma .f32 .ne ⟨.v 10, .v 2, .v 3, .v 10⟩) ∧
  decodeTableWord 96 (wordOf 0x01 3 0x40 0x105 0x106 0 0 1) = some (.frcp ⟨.f32, .ne, false⟩ ⟨.v 5, .v 6, none⟩) ∧
  decodeTableWord 96 (wordOf 0x03 4 1 0x222 10 11 4159 1) = some (.mm ⟨true, 2, .desc 10 11, 1, ⟨63, 0⟩⟩) ∧
  decodeTableWord 96 (wordOf 0x09 5 67 0x128 0x129 0 642 1) = some (.allred .add ⟨.f32, .v 40, .v 41, 3, 2, 5⟩) ∧
  decodeTableWord 96 (wordOf 0x03 6 10 9 0 0 0 1) = some (.claunch false 9 2 1) ∧
  decodeTableWord 96 (wordOf 0x0F 7 0 0 6 7 2000 3) = some (.stepdl (.s 6) (.s 7) 2000) ∧
  decodeTableWord 96 (wordOf 0x16 7 0 9 0 0 4 1) = some (.csrr 9 4) ∧
  decodeTableWord 96 (parcels 0x00600070 0 0x27BC0000) = some (.phase .region .elastic false false) ∧
  decodeTableWord 96 (parcels 0x80000000 0 0x1B800000) = some .nop ∧
  decodeTableWord 96 0 = none ∧ decodeTableWord 96 (parcels 0x80000001 0 0x1B800000) = none ∧
  decodeTableWord 96 (wordOf 0x2A 0 0 0 0 0 0 0) = none

/-! ### Stepping (R114, R119, R120, R132) -/

/-- What a step does. With nothing of the agenda due, the word that the queues choose issues: it is exec of the decoded word that
the entry holds, with what stands before and after every issue; with no word either, a tick passes. An event that is due is
exec of its own instruction. What the decoder queues at a program counter is what the twelve bytes there decode to. -/
def Obligations.StepRunsDecoded : Prop :=
  (∀ s : State, let d := s.decodeAll
    (∀ tile e, quiet d → d.pickTile d.clocked = some (tile, .issue e) → step s = issued d tile e) ∧
    (quiet d → d.pickTile d.clocked = none → pickIllegal d.clocked = none →
      let a := d.advance.decodeAll
      (∀ tile e, quiet a → a.pickTile a.clocked = some (tile, .issue e) → step s = issued a tile e) ∧
      (quiet a → a.pickTile a.clocked = none → pickIllegal a.clocked = none → step s = .next a)) ∧
    (∀ n ev r, d.agenda = (n, ev) :: r → n ≤ d.tick → let u := { d with agenda := r }
      u.evFrozen 0 ev = false → (∀ l, evLoc ev = some l → u.clockStopped l.tile = false) →
        ∀ i, names ev i → step s = exec i u)) ∧
  (∀ (k : Core) (n : Nat) (c : Ctx) (x : Inst), c.pc < c.fpc → c.fstop = .run → c.ui.going = none → c.pc < c.words →
    decode (k.wordAt c c.pc) = some x → x.isPadding = false → 
    c.depth (colOf (k.wordAt c c.pc)) + (if Tbl.get 0 c.freed (colOf (k.wordAt c c.pc)) = n + 1 then 1 else 0) < 16 →
    ∃ d e, passOne k n c = some d ∧ e ∈ d.q ∧ e.x = x ∧ e.pc = c.pc ∧ e.bits = k.wordAt c c.pc ∧ e.avail = n + 1 ∧
      d.pc = c.pc + 1 ∧ ∀ y ∈ c.q, y ∈ d.q) ∧
  (∀ (k : Core) (c : Ctx) (pc i : Nat), i < 12 → (k.wordAt c pc).extractLsb' (8 * i) 8 = k.istore.byte (c.cbase + 12 * pc + i))

/-- The end of a role's code: the decoder stops there with the word 0, which is unassigned; once every earlier word has issued,
and no other thing is due, the step takes ILLEGAL_ENCODING, whose record holds that program counter and the word 0. -/
def Obligations.EndOfCode : Prop :=
  decode 0 = none ∧
  (∀ (k : Core) (n : Nat) (c : Ctx), c.pc < c.fpc → c.fstop = .run → c.ui.going = none → c.words ≤ c.pc →
    passOne k n c = some { c with fstop := .illegal c.pc 0 }) ∧
  (∀ (c : Ctx) (pc : Nat) (bits : IWord), c.running = true → c.q = [] → (c.ui.inh = true ∨ ∀ r ∈ c.reps, r.left ≠ 0) →
    c.fstop = .illegal pc bits → c.illegalNow = some (pc, bits)) ∧
  (∀ (s : State) (tile pc : Nat), let d := s.decodeAll
    quiet d → d.pickTile d.clocked = none → pickIllegal d.clocked = some (tile, pc, 0) →
    step s = .next (d.illegalTrap tile pc 0)) ∧
  (∀ (s : State) (tile pc p : Nat), (s.core tile).fg.part = some p → (s.core tile).fg.frozen = none → (s.part p).st = .active →
    pc < 2 ^ 14 → let t := s.illegalTrap tile pc 0
    (t.core tile).fg.stopped = true ∧ (t.part p).st = .halting ∧ (t.part p).haltAt = s.tick + 24 ∧
      ∃ r, (t.core tile).fg.stops = (s.core tile).fg.stops ++ [r] ∧ r.code = 0x01 ∧ r.prec = true ∧ r.pc = pc ∧ r.word = 0)

/-- No step stops the machine: every instruction and every event has a next state in every state. -/
def Obligations.NeverStops : Prop :=
  (∀ (i : Instr) (s : State), ∃ t : State, exec i s = .next t) ∧ ∀ s : State, ∃ t, step s = .next t

/-- Vault and HBM memory keep their canonical form in every step. -/
def Obligations.MemoryStaysCanonical : Prop :=
  ∀ s t : State, Memory.wf s.mem = true → step s = .next t → Memory.wf t.mem = true

/-- The machine after reset: its memory is canonical, no partition, region, context or translation stands, and the registers of
R69, R95, R103, R213 and R217 hold the values that their tables give. -/
def Obligations.ResetState : Prop :=
  let s := State.reset
  Memory.wf s.mem = true ∧ s.parts = [] ∧ s.regions = [] ∧ s.recs = [] ∧ s.wcache = [] ∧
    (∀ t, (s.core t).fg.part = none ∧ (s.core t).bg.part = none ∧ (s.core t).tlb = []) ∧
    (∀ q, (s.qp q).next = 1 ∧ (s.qp q).poll = 0x3F ∧ (s.qp q).en = false ∧ (s.qp q).tail = 0 ∧ (s.qp q).head = 0) ∧
    s.ctlPgate = 16 * 2 ^ 16 + 50 * 2 + 1 ∧ s.ctlGov = 7 * 2 ^ 20 + 7 * 2 ^ 12 + 2 * 2 ^ 8 ∧
    s.gov.ctlHeat = 50 * 2 ^ 48 + 30 * 2 ^ 40 + 5 * 2 ^ 32 + 6000 ∧ s.gov.ctlHeatst = 0 ∧ s.dv.ctlTmstat = 0

/-! ### Results and frames (R109, R173, R175, R248, R446, R452) -/

/-- A result put in flight with latency L is not seen before tick T + L, and there stands behind those of words that issued no
later: of two results of one tick, that of the word that issued later stands, whichever was put in flight first. s0 and p0
discard it; a vector result reaches the lanes of its mask alone. -/
def Obligations.ResultsLand : Prop :=
  (∀ (s : State) (lat : Nat) (w : Wr), let t := s.result lat w
    (∀ n, n < s.T + lat → settled (t.c.landRegs n) = settled (s.c.landRegs n)) ∧
    ((∀ e ∈ s.c.pend, e.1 = s.T + lat → e.2.1 ≤ s.c.issueNo) →
      settled (t.c.landRegs (s.T + lat)) = settled ((s.c.landRegs (s.T + lat)).put w))) ∧
  (∀ (c : Ctx) (n a b : Nat) (w u : Wr), a < b →
    settled ({ c with pend := insPend n a w (insPend n b u []) }.landRegs n) = settled ((c.put w).put u) ∧
      settled ({ c with pend := insPend n b u (insPend n a w []) }.landRegs n) = settled ((c.put w).put u)) ∧
  (∀ (c : Ctx) (n : Nat) (x : Word) (b : Bool), (n % 64 = 0 → c.put (.s n x) = c) ∧ (n % 16 = 0 → c.put (.p n b) = c)) ∧
  (∀ c : Ctx, c.sreg 0 = 0 ∧ c.preg 0 = true) ∧
  (∀ (m : Lane) (x y : Vec) (i : Nat), i < 32 →
    elem 32 i (mergeLanes m x y) = if m.getLsbD i then elem 32 i x else elem 32 i y)

/-- The frame of every word of the I, V and F columns and of the mask words, whether it completes, stalls or traps: memory,
regions, gangs and every other tile are as they were, and so are all registers of the strand, its scratchpad and its control
registers: its results are in flight. A landing write of the scratchpad leaves every other byte of it. -/
def Obligations.RegisterWordFrame : Prop :=
  (∀ (s t : State) (i : Instr), isRegisterWord s i → exec i s = .next t →
    sameRegisters s.c t.c ∧ t.mem = s.mem ∧ t.poison = s.poison ∧ t.outside = s.outside ∧ t.regions = s.regions ∧
      t.gangs = s.gangs ∧ t.tick = s.tick ∧ t.tm = s.tm ∧ t.gov = s.gov ∧ t.dv = s.dv ∧ ∀ u, u ≠ s.me → t.core u = s.core u) ∧
  (∀ (c : Ctx) (bs : List (Nat × Byte)) (pz : List Nat), Memory.wf c.sp = true →
    Memory.wf (c.spLand bs pz).sp = true ∧ (∀ a, (∀ b ∈ bs, b.1 ≠ a) → (c.spLand bs pz).sp.byte a = c.sp.byte a) ∧
      sameRegisters { c with sp := (c.spLand bs pz).sp } (c.spLand bs pz))

/-! ### The I column -/

/-- Every scalar word of the I column completes in every state: its result is put in flight to land after its latency,
tm.now's fraction is latched where it is read, and nothing else changes. -/
def Obligations.IntegerWords : Prop :=
  ∀ (s : State) (i : Instr) (lat : Nat) (d : BitVec 6) (v : Word), i.wf = true → intResult s i = some (lat, d, v) →
    exec i s = .next (((intSources i).foldl State.seen s).putS lat d v)

/-- Every predicate word and setx complete in every state, with latency 1, and change nothing else. Mask words and frngk
complete in every state. -/
def Obligations.PredicateIndexAndMaskWords : Prop :=
  ((∀ (s : State) (i : Instr) (d : BitVec 4) (b : Bool), i.wf = true → predResult s i = some (d, b) →
    exec i s = .next (((intSources i).foldl State.seen s).putP 1 d b)) ∧
  (∀ (s : State) (i : Instr) (d : BitVec 2) (v : BitVec 16), i.wf = true → indexResult s i = some (d, v) →
    exec i s = .next (((intSources i).foldl State.seen s).result 1 (.x d.toNat v)))) ∧
  (∀ s : State,
    (∀ z d a b, exec (.mand z d a b) s = .next ((maskSeen s b).result 1
      (.m d.toNat 0xFFFFFFFF ((if z then 0 else s.c.mreg a.toNat) &&& s.maskSrc b)))) ∧
    (∀ z d a b, exec (.mor z d a b) s = .next ((maskSeen s b).result 1
      (.m d.toNat 0xFFFFFFFF ((if z then 0 else s.c.mreg a.toNat) ||| s.maskSrc b)))) ∧
    (∀ z d a b, exec (.mxor z d a b) s = .next ((maskSeen s b).result 1
      (.m d.toNat 0xFFFFFFFF ((if z then 0 else s.c.mreg a.toNat) ^^^ s.maskSrc b)))) ∧
    (∀ d a, exec (.mnot d a) s = .next (s.result 1 (.m d.toNat 0xFFFFFFFF (~~~ s.c.mreg a.toNat)))) ∧
    (∀ a b, exec (.frngk a b) s = .next (((s.seen a).seen b).result 6 (.key (tephra (s.src a) (s.src b))))))

/-! ### The V and F columns -/

/-- Every vector word completes when its operands lie in the window, its streams are ready and it raises no flag that is
enabled to trap. -/
def Obligations.VectorWords : Prop :=
  ∀ (s : State) (i : Instr) (w : VecWord), vecWord s i = some w → inWindow s w.ops → streamsReady s w →
    orFlags (raised s w) &&& s.c.fpEnable = 0 → exec i s = .next (vecNext s w)

/-- The first vector operand outside the window, D first, traps with REG_BOUNDS; its detail gives the reissue number, the
index and the position, and the word has no effect. A word that raises an enabled flag takes FP_TRAP and has no other effect.
-/
def Obligations.VectorTraps : Prop :=
  (∀ (s : State) (i : Instr) (w : VecWord) (pre post : List (VOp × Nat)) (o : VOp × Nat), vecWord s i = some w →
    w.ops = pre ++ o :: post → inWindow s pre → s.c.inWindow (s.vidx o.1 o.2) = false →
    exec i s = .next (s.trapWord 0x04 (s.boundsDetail (s.vidx o.1 o.2) o.2))) ∧
  (∀ (s : State) (i : Instr) (w : VecWord), vecWord s i = some w → inWindow s w.ops → streamsReady s w →
    orFlags (raised s w) &&& s.c.fpEnable ≠ 0 →
    exec i s = .next (s.trapWord 0x18 (fpDetail s.c.fpEnable (raised s w))))

/-! ### The L column -/

/-- Scratchpad words complete when they are aligned, within the share and, if loads, not poisoned; a load reads the bytes as
they stand, extended by the type; a store puts the low bytes of its operand in flight to change at the end of the tick. -/
def Obligations.ScratchpadWords : Prop :=
  ∀ s : State,
    (∀ t d a off, t.isInt = true → addrS s a off % tySize t = 0 → addrS s a off + tySize t ≤ s.c.share →
      s.c.spBad (addrS s a off) (tySize t) = false →
      exec (.ld t d a off) s = .next ((s.seen a).putS 3 d (valWord t (s.c.sp.nat (addrS s a off) (tySize t))))) ∧
    (∀ t a b off, t.isInt = true → addrS s a off % tySize t = 0 → addrS s a off + tySize t ≤ s.c.share →
      exec (.st t a b off) s = .next (((s.seen a).seen b).updC fun c =>
        c.spWrite s.T 6 (addrBytes (addrS s a off) (leBytes (tySize t) (s.src b).toNat)))) ∧
    (∀ d a msk off, writable s d → addrV s a off % 16 = 0 → addrV s a off + 128 ≤ s.c.share →
      (∀ i, i < 32 → (s.lanes msk).getLsbD i = true → s.c.spBad (addrV s a off + 4 * i) 4 = false) →
      orFlags (maskFlags (s.lanes msk) (s.c.pushFlags (s.vnum d 0) (s.lanes msk)
        (vecBytes (s.c.sp.bytes (addrV s a off) 128)))) &&& s.c.fpEnable = 0 →
      exec (.ldv d a msk off) s = .next
        (((s.seen a).putV 4 (s.vnum d 0) (s.lanes msk) (vecBytes (s.c.sp.bytes (addrV s a off) 128))).putFlags 4
          (maskFlags (s.lanes msk) (s.c.pushFlags (s.vnum d 0) (s.lanes msk) (vecBytes (s.c.sp.bytes (addrV s a off) 128)))))) ∧
    (∀ a b msk off, readable s b 2 (s.lanes msk) → addrV s a off % 16 = 0 → addrV s a off + 128 ≤ s.c.share →
      exec (.stv a b msk off) s = .next ((popped s a b 2 (s.lanes msk)).updC fun c =>
        c.spWrite s.T 6 (laneBytes (s.lanes msk) (addrV s a off) (s.c.readV (s.vnum b 2)))))

/-- A scratchpad access that is not aligned traps with ALIGNMENT, an aligned one that passes the share with SCRATCH_BOUNDS,
scalar or vector. A transfer whose target lies outside the code takes ILLEGAL_OPERAND; a follower's transfer whose outcome
differs from its leader's takes FOLLOW_DIVERGE without .det, and with .det leaves the leader and fetches for itself. -/
def Obligations.WordTraps : Prop :=
  (∀ (s : State) (t : Ty), t.isInt = true → ∀ (d : BitVec 6) (a b : Src) (off : BitVec 18),
    (addrS s a off % tySize t ≠ 0 →
      exec (.ld t d a off) s = .next (s.trapWord 0x0B) ∧ exec (.st t a b off) s = .next (s.trapWord 0x0B)) ∧
    (addrS s a off % tySize t = 0 → s.c.share < addrS s a off + tySize t →
      exec (.ld t d a off) s = .next (s.trapWord 0x0C) ∧ exec (.st t a b off) s = .next (s.trapWord 0x0C))) ∧
  (∀ (s : State) (a : Src) (msk : Mask) (off : BitVec 14),
    (∀ d, s.c.inWindow (s.vidx d 0) = true →
      (addrV s a off % 16 ≠ 0 → exec (.ldv d a msk off) s = .next (s.trapWord 0x0B)) ∧
      (addrV s a off % 16 = 0 → s.c.share < addrV s a off + 128 → exec (.ldv d a msk off) s = .next (s.trapWord 0x0C))) ∧
    (∀ b, s.c.inWindow (s.vidx b 2) = true →
      (addrV s a off % 16 ≠ 0 → exec (.stv a b msk off) s = .next (s.trapWord 0x0B)) ∧
      (addrV s a off % 16 = 0 → s.c.share < addrV s a off + 128 → exec (.stv a b msk off) s = .next (s.trapWord 0x0C)))) ∧
  (∀ (s : State) (e : QEnt) (i : Instr) (tgt : Int), s.cur.ent = some e → noRep s → targetOf s e i = some tgt →
    tgt ≠ e.pc + 1 → (tgt < 0 ∨ (s.c.words : Int) ≤ tgt) → exec i s = .next (s.trapWord 0x02)) ∧
  (∀ (s : State) (e : QEnt) (i : Instr) (tgt : Nat), s.cur.ent = some e → s.cur.trapped = false → noRep s →
    targetOf s e i = some (tgt : Int) → inCode s e tgt → e.fwd = true → e.outcome ≠ some tgt →
    (transferDet i = some false → exec i s = .next ((outcomeIs s tgt).trapWord 0x07)) ∧
    (transferDet i = some true → ∃ t : State, exec i s = .next t ∧ t.c.fol.cur = none ∧ t.c.pc = tgt ∧ t.c.fstop = .run))

/-- Global loads, and the words that act at the home of their line, complete in an elastic phase when the token is free, the
address is aligned and its translation is in hand: the token is bound and a request is on its way to the home. ldg and ldgv
first send the line's update line and carry the strand's own bytes of the line, and ldgv takes its place in the output stream
that its destination is bound to; the others first push the whole line. -/
def Obligations.HomeWords : Prop :=
  ∀ (s : State) (k : BitVec 3) (pa : Nat), s.c.kind = .elastic → tokFree s k →
    (∀ t d a off, addrS s a off % tySize t = 0 → inHand s (addrS s a off) accRead pa →
      exec (.ldg t d a off k) s = .next (((s.seen a).pushUpd s.here (pa / 128) s.c.pushNo).request k (addrS s a off) pa
        (.read (tySize t) (ownBytes s pa) (.s (s.c.sdst d.toNat) t)))) ∧
    (∀ d a msk off, writable s d → addrG s a off % 128 = 0 → inHand s (addrG s a off) accRead pa →
      exec (.ldgv d a msk off k) s = .next ((((s.seen a).pushUpd s.here (pa / 128) s.c.pushNo).claimV (s.vnum d 0) (some k.toNat)).request
        k (addrG s a off) pa
        (.read 128 ((s.c.wsBytes (pa / 128)).map fun b => (pa + b.1, b.2)) (.v (s.vnum d 0) (s.lanes msk))))) ∧
    (∀ t d a off, addrS s a off % tySize t = 0 → inHand s (addrS s a off) accHomeRead pa →
      exec (.ldrm t d a off k) s = .next (((s.seen a).pushLine s.here (pa / 128)).request k (addrS s a off) pa
        (.ldrm t (.s (s.c.sdst d.toNat) t)))) ∧
    (∀ t a b off, addrS s a off % tySize t = 0 → inHand s (addrS s a off) accHomeWrite pa →
      exec (.strm t a b off k) s = .next ((((s.seen a).seen b).pushLine s.here (pa / 128)).request k (addrS s a off) pa
        (.strm t ((s.src b).toNat % 2 ^ tyBits t)))) ∧
    (∀ op t d a b off, (s.src a + off.signExtend 64).toNat % tySize t = 0 →
      inHand s (s.src a + off.signExtend 64).toNat accHomeWrite pa →
      exec (.atom op t d a b off k) s = .next ((((s.seen a).seen b).pushLine s.here (pa / 128)).request k
        (s.src a + off.signExtend 64).toNat pa
        (.atom op t ((s.src b).toNat % 2 ^ tyBits t) (.s (s.c.sdst d.toNat) t)))) ∧
    (∀ t d a b c, (s.src a).toNat % tySize t = 0 → inHand s (s.src a).toNat accHomeWrite pa →
      exec (.cas t d a b c k) s = .next (((((s.seen a).seen b).seen c).pushLine s.here (pa / 128)).request k
        (s.src a).toNat pa
        (.cas t ((s.src b).toNat % 2 ^ tyBits t) ((s.src c).toNat % 2 ^ tyBits t) (.s (s.c.sdst d.toNat) t))))

/-- Global stores and updates complete in an elastic phase when the address is aligned and its translation, which permits
writes, is in hand: a store enters the write-set, which must take it, and an update the update buffer; a store first sends the
line's update line, also a vector store whose mask is empty, which writes nothing. Remote loads and stores complete in an elastic phase when the token is free and the address
names 128 bytes of a tile of the box: the token is bound, and the request, with the vector that a store has read, is on its
way in class 0. -/
def Obligations.BufferedAndRemoteWords : Prop :=
  (∀ (s : State) (pa : Nat), s.c.kind = .elastic →
    (∀ t a b off u, addrS s a off % tySize t = 0 → inHand s (addrS s a off) accBuf pa →
      buffered s pa (addrBytes pa (leBytes (tySize t) (s.src b).toNat)) u →
      exec (.stg t a b off) s = .next ((u.seen a).seen b)) ∧
    (∀ a b msk off u, readable s b 2 (s.lanes msk) → addrG s a off % 128 = 0 → inHand s (addrG s a off) accBuf pa → s.lanes msk ≠ 0 →
      buffered s pa (laneBytes (s.lanes msk) pa (s.c.readV (s.vnum b 2))) u →
      exec (.stgv a b msk off) s = .next
        (((u.seen a).popAll [s.vnum b 2]).putFlags 1 (maskFlags (s.lanes msk) (s.c.popFlags [s.vnum b 2])))) ∧
    (∀ a b msk off, readable s b 2 (s.lanes msk) → addrG s a off % 128 = 0 → inHand s (addrG s a off) accBuf pa → s.lanes msk = 0 →
      exec (.stgv a b msk off) s = .next ((((s.pushUpd s.here (pa / 128) s.c.pushNo).seen a).popAll [s.vnum b 2]).putFlags 1
        (maskFlags (s.lanes msk) (s.c.popFlags [s.vnum b 2])))) ∧
    (∀ op t a b off, (s.src a + off.signExtend 64).toNat % tySize t = 0 →
      inHand s (s.src a + off.signExtend 64).toNat accUpd pa →
      exec (.upd op t a b off) s = .next (((s.seen a).seen b).update op t pa ((s.src b).toNat % 2 ^ tyBits t))) ∧
    (∀ a b off, addrS s a off % 4 = 0 → inHand s (addrS s a off) accUpd pa →
      exec (.updf a b off) s = .next (((s.seen a).seen b).update .fadd .f32 pa ((s.src b).toNat % 2 ^ 32)))) ∧
  (∀ (s : State) (k : BitVec 3), s.c.kind = .elastic → tokFree s k →
    (∀ d a msk off, writable s d → remoteOk s (addrV s a off) →
      exec (.ldx d a msk off k) s = .next (((((s.seen a).claimV (s.vnum d 0) (some k.toNat)).updC fun c =>
        c.bind k.toNat).accSent).askRemote
          { loc := s.here, tok := k.toNat, target := addrV s a off / 2 ^ 24 % 4096, off := addrV s a off % 2 ^ 21
            store := none, mask := s.lanes msk, dest := s.vnum d 0, pc := s.pcNow, rorder := s.c.orderOf 1 })) ∧
    (∀ a b msk off, readable s b 2 (s.lanes msk) → remoteOk s (addrV s a off) →
      exec (.stx a b msk off k) s = .next ((((popped s a b 2 (s.lanes msk)).updC fun c => c.bind k.toNat).accSent).askRemote
          { loc := s.here, tok := k.toNat, target := addrV s a off / 2 ^ 24 % 4096, off := addrV s a off % 2 ^ 21
            store := some (s.c.readV (s.vnum b 2)), mask := s.lanes msk, dest := 0, pc := s.pcNow, rorder := s.c.orderOf 1 })))

/-- Tag words and wsq. tlook gives the slot of the valid entry with the block of s[A], with bit 16 its dirty bit, or 0xFFFF;
tset makes an entry valid and clean; tclr clears its dirty bit; tinv and tinv.all drop entries; wsq gives the entries of both
buffers. -/
def Obligations.TagWords : Prop :=
  ∀ s : State,
    (∀ d a, exec (.tlook d a) s = .next ((s.seen a).putS 2 d (BitVec.ofNat 64
      (match s.c.tagFind ((s.src a).toNat / 4096 % 2 ^ 44) with
       | some x => x.1 + (if x.2.d then 65536 else 0)
       | none => 0xFFFF)))) ∧
    (∀ a b, (s.src a).toNat < 512 → (s.src b).toNat % 4096 = 0 → (s.src b).toNat < 2 ^ 56 →
      (∀ e ∈ s.c.tags, e.2.v = true → e.2.blk = (s.src b).toNat / 4096 → e.1 = (s.src a).toNat) →
      4096 * (s.src a).toNat + 4096 ≤ s.c.share →
      exec (.tset a b) s = .next (((s.seen a).seen b).updC fun c =>
        { c with tags := Tbl.put c.tags (s.src a).toNat ⟨true, false, (s.src b).toNat / 4096⟩ })) ∧
    (∀ a e, (s.src a).toNat < 512 → Tbl.find s.c.tags (s.src a).toNat = some e →
      exec (.tclr a) s = .next ((s.seen a).updC fun c =>
        { c with tags := Tbl.put c.tags (s.src a).toNat { e with d := false } })) ∧
    (∀ a, (s.src a).toNat < 512 → Tbl.find s.c.tags (s.src a).toNat = none → exec (.tclr a) s = .next (s.seen a |>.updC id)) ∧
    (∀ a, (s.src a).toNat < 512 →
      exec (.tinv (some a)) s = .next ((s.seen a).updC fun c => { c with tags := Tbl.del c.tags (s.src a).toNat })) ∧
    exec (.tinv none) s = .next (s.updC fun c => { c with tags := [] }) ∧
    (∀ d, exec (.wsq d) s = .next (s.putS 1 d (BitVec.ofNat 64 (s.c.ws.length + 65536 * s.c.upd.length))))

/-! ### The K column -/

/-- A transfer of the strand's own stream, outside a capture, goes to its target where that is the next word or lies in the
role's code: br and jmpi by a signed offset, ret to s[A], loop while its counter does not reach 0, call with the return index
put in flight. A taken transfer leaves the next word to issue from the target four ticks on; one that is not taken, on the
next tick. -/
def Obligations.Transfers : Prop :=
  (∀ (s : State) (e : QEnt) (tgt : Nat), ownWord s e → noRep s → inCode s e tgt →
    (∀ det off, (e.pc : Int) + off.toInt = tgt → exec (.br det off) s = .next (jumped s e tgt)) ∧
    (∀ det d off, (e.pc : Int) + off.toInt = tgt →
      exec (.call det d off) s = .next ((jumped s e tgt).putS 1 d (BitVec.ofNat 64 (e.pc + 1)))) ∧
    (∀ det a, (s.sreg a).toNat = tgt → exec (.ret det a) s = .next (jumped s e tgt)) ∧
    (∀ det a off, (s.sreg a + off.signExtend 64).toNat = tgt → exec (.jmpi det a off) s = .next (jumped s e tgt)) ∧
    (∀ det d off, s.sreg d ≠ 1 → (e.pc : Int) + off.toInt = tgt →
      exec (.loop det d off) s = .next ((jumped s e tgt).putS 1 d (s.sreg d - 1))) ∧
    (∀ det d off, s.sreg d = 1 → tgt = e.pc + 1 →
      exec (.loop det d off) s = .next ((jumped s e tgt).putS 1 d 0))) ∧
  (∀ (c : Ctx) (pc tgt n : Nat),
    (tgt ≠ pc + 1 → (c.resolve pc tgt n).pc = tgt ∧ (c.resolve pc tgt n).fetchAt = n + 3 ∧
      (c.resolve pc tgt n).fdone = n + 3 ∧ (c.resolve pc tgt n).fstop = .run) ∧
    ((c.resolve pc (pc + 1) n).pc = c.pc ∧ (c.resolve pc (pc + 1) n).fdone = n ∧ (c.resolve pc (pc + 1) n).fstop = .run))

/-- nop changes nothing; trap records a precise SOFT_TRAP with its code in the detail, stops the strand and raises the halt
line, which comes 24 ticks later. join of 0xFFFF goes on at once and tells its followers; join of a cell of the region blocks the strand on its way
out. halt does so without a cell and discards the pending user-level events. -/
def Obligations.NopTrapJoinHalt : Prop :=
  (∀ s : State, exec .nop s = .next s ∧
    ∀ code, (s.part s.here.part).st = .active → s.c.part.isSome → s.c.frozen = none →
      ∃ t r, exec (.trap code) s = .next t ∧ t.c.stopped = true ∧ t.c.stops = s.c.stops ++ [r] ∧ r.code = 0x0D ∧
        r.prec = true ∧ r.detail = code.toNat ∧ r.pc = s.pcNow % 2 ^ 14 ∧ (t.part s.here.part).st = .halting ∧
        (t.part s.here.part).haltAt = s.tick + 24 ∧ (s.tick + 24, .haltDelivery s.here.part) ∈ t.agenda ∧ t.mem = s.mem) ∧
  (∀ s : State, noUi s →
    (∀ e a, ownWord s e → s.c.kind = .elastic → noRep s →
      ((s.sreg a).toNat % 65536 = 0xFFFF →
        exec (.join a) s = .next ((jumped s e (e.pc + 1)).tellJoin s.here true) ∧
        (s.followers s.me s.here.part = [] → exec (.join a) s = .next (jumped s e (e.pc + 1)))) ∧
      (∀ h c, (s.sreg a).toNat % 65536 = h → h ≠ 0xFFFF → Tbl.find s.cells h = some c → c.region = s.c.region →
        exec (.join a) s = .next (((s.updC fun c => { c with fol := { c.fol with join := some (e, some h, none) } }).blockIn
            (.leave (some h) 0 0 s.pcNow)).leaveStep s.here))) ∧
    exec .halt s = .next (((s.updC fun c =>
      { c with ui := { c.ui with dl := none, yld := false, tmq := [], arq := [], going := none } }).blockIn
        (.leave none 0 0 s.pcNow)).leaveStep s.here))

/-- sleep, in an elastic phase outside a handler, ends at once when a named event holds, and otherwise blocks the strand, to
be woken at the tick of a named token whose completion is known. waitt, in an elastic phase with a target no further than 2^36
ns ahead: the plain form blocks the strand and the split form binds its token; where tm.now has reached the target the release
comes on the issue tick. -/
def Obligations.SleepAndWaitt : Prop :=
  (∀ (s : State) (mask : BitVec 10), s.c.kind = .elastic → noUi s →
    (s.c.sleepHolds mask s.T = true → exec (.sleep mask) s = .next (s.updC (·.sleepSeen mask))) ∧
    (s.c.sleepHolds mask s.T = false → s.c.ui.going = none →
      ∃ t : State, exec (.sleep mask) s = .next t ∧ t.c.block = .sleep mask s.pcNow ∧ t.c.pend = s.c.pend ∧ t.mem = s.mem ∧
        (s.tick, .sleepWake s.here) ∈ t.agenda ∧
        ∀ i x, s.c.part.isSome → i < 8 → mask.getLsbD i = true → s.c.tok i = .done x →
          (s.tick + (x - s.T), .sleepWake s.here) ∈ t.agenda)) ∧
  (∀ (s : State) (a : Src), s.c.kind = .elastic → (s.src a).toNat ≤ s.tmNow + 2 ^ 36 →
    (noUi s → s.c.ui.going = none →
      ∃ t : State, exec (.waitt none a) s = .next t ∧ t.c.block = .waitt (s.src a).toNat s.pcNow ∧
        ((s.src a).toNat ≤ s.tmNow → (s.tick, .waittRelease s.here none) ∈ t.agenda)) ∧
    (∀ k, tokFree s k →
      ∃ t : State, exec (.waitt (some k) a) s = .next t ∧ t.c.tok k.toNat = .pending ∧ t.c.block = s.c.block ∧
        ((s.src a).toNat ≤ s.tmNow → (s.tick, .waittRelease s.here (some k.toNat)) ∈ t.agenda) ∧
        (s.tmNow < (s.src a).toNat → (k.toNat, (s.src a).toNat) ∈ t.c.waits)))

/-- phase and bar, outside a handler and a capture: the strand's arrival is noted, it is blocked (but for the split bar, whose
token is bound), and the region's sets are examined. -/
def Obligations.PhaseAndBar : Prop :=
  ∀ (s : State) (sc : Scope), noUi s → noRep s →
    (∀ kind sync step, (step = true → s.isSuperstep s.c.region sc s.me = true) →
      (sync = true → s.c.noneBound s.T = true) → s.c.fol.armed = none →
      exec (.phase sc kind sync step) s = .next
        ((((s.blockIn .boundary).updC fun c => { c with ui := { c.ui with going := none } }).updC fun c =>
          { c with arr := some (arrivalAt (s.blockIn .boundary) sc kind step) }).examine false s.c.region)) ∧
    (s.c.kind = .elastic →
      exec (.bar sc none) s = .next (((s.blockIn .bar).updC fun c =>
        { c with bars := c.bars ++ [barAt s sc none] }).examine true s.c.region) ∧
      ∀ k, tokFree s k → exec (.bar sc (some k)) s = .next (((s.updC (·.bind k.toNat)).updC fun c =>
        { c with bars := c.bars ++ [barAt s sc (some k.toNat)] }).examine true s.c.region))

/-- rfork of no chunk of work branches nowhere and gives 0xFFFF. Otherwise, with a cell of its layer free, it makes a join
cell, recruits strands on the nearest idle slots and, as rfork.q, leaves a task record for each chunk that no strand takes at
once; it puts its own part into s1 and s2 and the handle into its destination, and goes on at its target, a follower with its
leader. Without a cell, or room for the records, it waits. A recruit's start is on its way where its packet's route is open.
-/
def Obligations.Rfork : Prop :=
  (∀ (s : State) (e : QEnt) (q : Bool) (d a b : BitVec 6) (off : BitVec 18), s.cur.ent = some e → s.c.kind = .elastic → noUi s →
    noRep s → d ≠ 1 → d ≠ 2 → (s.sreg b).toNat ≠ 0 →
    let n := (s.sreg a).toNat
    let g := (s.sreg b).toNat
    let m := (n + g - 1) / g
    let k := forkWidth s m
    (n = 0 → exec (.rfork q d a b off) s = .next ((went s e (e.pc + 1)).putS 1 d 0xFFFF)) ∧
    (∀ h, 0 < n → (q = true → m ≤ 4096 ∧ s.recs.length + (m - k) ≤ 65536) → s.freeCell (tileZ s.me) = some h →
      let f : Fork := ⟨q, d, n, g, m, k, h, (((e.pc : Int) + off.toInt) % 2 ^ 64).toNat⟩
      exec (.rfork q d a b off) s = .next ((((went (forked s f) e f.tgt).putS 1 1 (BitVec.ofNat 64 (f.lo 0))).putS 1 2
        (BitVec.ofNat 64 (min (f.lo 1) n))).putS 1 d (BitVec.ofNat 64 h))) ∧
    (0 < n → (q = true → m ≤ 4096) → (s.freeCell (tileZ s.me) = none ∨ (q = true ∧ 65536 < s.recs.length + (m - k))) →
      exec (.rfork q d a b off) s = .next s.stall)) ∧
  (∀ (s : State) (src : Option Nat) (t : Nat) (st : Start) (n : Nat), s.holds ⟨t, (s.region st.region).part⟩ = true →
    s.legTime [{ order := 0, src := src, dst := some t }] = .ok n →
    ∃ u w, s.recruit src t st = u ∧ s.tick + n ≤ w ∧ (w, .recruitStart t st) ∈ u.agenda ∧
      (u.ctx ⟨t, (s.region st.region).part⟩).starting = true ∧ (u.ctx ⟨t, (s.region st.region).part⟩).region = st.region)

/-- spawn of no child completes its token at once; otherwise, with a 256-byte-aligned array, a free token and no batch active,
it binds the token, records the batch and sends its launches in class 6. trigger marks the strand once and publishes its
buffers, at once or when the last earlier store has issued. stepdl declares the step's deadline and its budget. -/
def Obligations.SpawnTriggerStepdl : Prop :=
  ∀ s : State,
    (∀ chain k a b, s.c.kind = .elastic → noUi s → noRep s → (s.sreg a).toNat % 256 = 0 → tokFree s k →
      ((s.sreg b).toNat = 0 → exec (.spawn chain k a b) s = .next (s.updC fun c => c.complete k.toNat s.T)) ∧
      (0 < (s.sreg b).toNat → (s.sreg b).toNat < 2 ^ 32 → s.c.batch.active = false →
        exec (.spawn chain k a b) s = .next ((s.updC fun c => { c.bind k.toNat with
          batch := { n := (s.sreg b).toNat, arr := (s.sreg a).toNat, chain := chain, tok := k.toNat, active := true } }).packet
            s.here.part [s.c.leg 6 (some s.me) none] (.childLaunch s.here)))) ∧
    (noUi s → s.c.trig = true → exec .trigger s = .next s) ∧
    (noUi s → s.c.trig = false →
      let u := s.updC fun c => { c with trig := true, trigSeq := some s.seqNow }
      exec .trigger s = .next (u.trigStep s.here) ∧
      (s.c.part.isSome → s.c.behind s.seqNow isBuffered = true → exec .trigger s = .next u) ∧
      (s.c.part.isSome → s.c.behind s.seqNow isBuffered = false →
        exec .trigger s = .next (((u.publish s.here).updCtx s.here fun c =>
          { c with trigSeq := none, trigPend := some c.pubSeq }).progress s.here))) ∧
    (∀ a b extra, (s.src b).toNat / 65536 % 65536 = 0 ∨
        ((s.src b).toNat / 2 ^ 32 ≠ 0 ∧ (s.src b).toNat % 65536 + (s.src b).toNat / 65536 % 65536 ≤ s.roleRecs.length ∧
          ∀ p ∈ recsUsed s (s.src b), p.kind = 2 → p.ticks ≠ 0) →
      budgetOf s (s.src b) extra < 2 ^ 48 →
      exec (.stepdl a b extra) s = .next
        (let u := ((s.seen a).seen b).updRegion s.c.region fun g => { g with paceStep := s.idStep }
         if (s.region s.c.region).eff.dlmode = 0 then u
         else u.declare s.c.region (s.src a).toNat (budgetOf s (s.src b) extra)))

/-- follow arms a leader that lies in the box and is not harvested, where no cycle, no chain of more than 15 hops and no sixth
follower results;
detach drops it; rep opens a capture, but in a follower. -/
def Obligations.FollowDetachRep : Prop :=
  ∀ s : State, noUi s →
    (∀ dir, (s.region s.c.region).eff.inBox (neighbour s.me dir) = true → s.harvested (neighbour s.me dir) = false →
      let t := s.updC fun c => { c with fol := { c.fol with armed := some dir, armAt := s.cur.ent.map fun e => (s.tick, e) } }
      t.chainHas s.here.part s.me 17 s.me = false → t.followedBy s.here.part s.c.region (neighbour s.me dir) ≤ 5 →
      (∀ l ∈ t.strands s.c.region, t.chainHops s.here.part 17 l.tile ≤ 15) → exec (.follow dir) s = .next t) ∧
    (∃ t : State, exec .detach s = .next t ∧ t.c.fol.armed = none ∧ t.c.fol.cur = none ∧
      (s.c.fol.cur = none → t = s.updC fun c => { c with fol := { c.fol with armed := none, armAt := none } }) ∧
      (s.c.fol.cur ≠ none → t.c.pc = s.pcNow + 1 ∧ t.c.fstop = .run ∧ t.c.fetchAt = s.T + 3)) ∧
    (noRep s → ∀ a count len1 n, (match count with | .imm c => c.toNat | .reg b => (s.sreg b).toNat) = n → n ≤ 4095 →
      ((s.cur.ent.map (·.fwd)).getD false = true → exec (.rep a count len1) s = .next s) ∧
      ((s.cur.ent.map (·.fwd)).getD false = false → ∃ r, exec (.rep a count len1) s = .next (s.updC fun c =>
          { c with repSeq := c.repSeq + 1, reps := c.reps ++ [r] }) ∧ r.count = n ∧ r.left = len1.toNat + 1 ∧
        r.strides = (s.sreg a).setWidth 32 ∧ r.caps = [] ∧ r.at_ = s.T ∧ r.seq = s.seqNow))

/-- uien sets the delivery mask; uiret, in a handler, goes on at the interrupted index. fence waits for nothing in a timed
phase or at STRAND scope, and else blocks the strand until its accesses are performed and its lines accepted; tlbinv binds its
token, drops the translations of its range and schedules its completion. The CSR words return a register's value on the issue
tick; the writing ones write it field by field, and in a partition that is not privileged take PRIVILEGE on a device-wide
register. -/
def Obligations.SystemWords : Prop :=
  ((∀ s : State,
    (∀ m, exec (.uien m) s = .next ((s.updC fun c => { c with ui := { c.ui with en := m } }).uiPoll s.here)) ∧
    (s.c.kind = .elastic → s.c.ui.inh = true → exec .uiret s = .next ((s.updC fun c =>
      { c.refetch c.ui.ret s.T with ui := { c.ui with inh := false } }).uiPoll s.here)) ∧
    (s.c.kind = .elastic → s.c.ui.inh = false → exec .uiret s = .next (s.trapWord 0x02))) ∧
  (∀ s : State,
    (∀ sc, (s.c.kind ≠ .elastic ∨ sc = .strand) → exec (.fence sc) s = .next s) ∧
    (∀ sc, s.c.kind = .elastic → sc ≠ .strand →
      exec (.fence sc) s = .next ((s.blockIn (.fence sc false)).fenceStep s.here)) ∧
    (∀ sc d k, s.c.kind = .elastic → tokFree s k →
      ∃ t n, exec (.tlbinv sc d none k) s = .next t ∧ t.c.tok k.toNat = .pending ∧ s.tick < n ∧
        (n, .shootdownComplete s.here (s.c.sdst d.toNat) k.toNat sc 0 (2 ^ 56)) ∈ t.agenda ∧
        (∀ e ∈ (t.core s.me).tlb, s.sameInst sc s.here s.me = true → e.part ≠ s.here.part ∨ 2 ^ 56 ≤ e.va ∨ e.va + e.size = 0)) ∧
    (∀ sc d a b k, s.c.kind = .elastic → tokFree s k → (s.src a).toNat % 65536 = 0 → (s.src a).toNat < 2 ^ 56 →
      (s.src b).toNat ≠ 0 → (s.src b).toNat ≤ 2 ^ 40 →
      ∃ t n, exec (.tlbinv sc d (some (a, b)) k) s = .next t ∧ t.c.tok k.toNat = .pending ∧ s.tick < n ∧
        (n, .shootdownComplete s.here (s.c.sdst d.toNat) k.toNat sc (s.src a).toNat
          ((s.src a).toNat + (s.src b).toNat * 65536)) ∈ t.agenda))) ∧
  (∀ (s : State) (n : BitVec 12) (d : BitVec 6),
    exec (.csrr d n) s = .next ((if d = 0 then s else s.csrSeen n.toNat).putS 1 d (BitVec.ofNat 64 (s.csr n.toNat))) ∧
    ∀ a : Src,
      let old : Word := BitVec.ofNat 64 (s.csr n.toNat)
      let next (o : CsrOp) : State :=
        ((if d = 0 then s.seen a else (s.seen a).csrSeen n.toNat).csrPut n.toNat o old (s.src a)).putS 1 d old
      ((csrDevice n.toNat = true ∧ (s.part s.here.part).priv = false) →
        exec (.csrw d a n) s = .next (s.trapWord 0x03) ∧ exec (.csrs d a n) s = .next (s.trapWord 0x03) ∧
        exec (.csrc d a n) s = .next (s.trapWord 0x03)) ∧
      ((csrDevice n.toNat = false ∨ (s.part s.here.part).priv = true) →
        ((n ≠ 0x009 ∨ s.c.uivecOk (s.src a) = true) → exec (.csrw d a n) s = .next (next .w)) ∧
        ((n ≠ 0x009 ∨ s.c.uivecOk (old ||| s.src a) = true) → exec (.csrs d a n) s = .next (next .s)) ∧
        ((n ≠ 0x009 ∨ s.c.uivecOk (old &&& ~~~ s.src a) = true) → exec (.csrc d a n) s = .next (next .c))))

/-! ### The M column and the spline words -/

/-- Every word of the M column that has an operation completes when no handler runs, its token is free, its operands and
planes are good and its lane has room: the operation enters the lane with its token bound; of a gang's word, the strand
arrives at the gang's barrier, else the lane starts what it can. mfmt sets the activation type of later words; knot, with a
legal record, lands on the gang's tiles two ticks later. -/
def Obligations.ArrayWords : Prop :=
  (∀ (s : State) (i : Instr) (w : ArrWord), arrWord s i = some w → noUi s → w.good →
    (∀ k, w.o.tok = some k → (s.c.tok k).bound s.T = false) → s.c.arr64.held w.o.load < 8 →
    exec i s = .next (if w.gang then (s.enqueued w.o).gangArrive else (s.enqueued w.o).arrKick s.here)) ∧
  (∀ s : State, noUi s →
    (∀ t, exec (.mfmt t) s = .next (s.updC fun c => { c with arr64 := { c.arr64 with aty := t } })) ∧
    (∀ a b lo inv g mode, (s.sreg a).toNat = lo + 2 ^ 32 * inv → (s.sreg b).toNat = g + 256 * mode →
      lo < 2 ^ 32 → lo / 2 ^ 23 % 256 ≠ 255 → 0 < inv → inv < 255 * 2 ^ 23 → 1 ≤ g → g ≤ 29 → mode ≤ 2 →
      exec (.knot a b) s = .next (s.schedAt s.here (s.T + 2)
        (.knotLand s.here (BitVec.ofNat 32 lo) (BitVec.ofNat 32 inv) (BitVec.ofNat 8 g) (BitVec.ofNat 8 mode)))))

/-! ### The X column and the trees -/

/-- Outside a handler's bars and in an elastic phase: send binds its token and its message starts to read its buffer; postrv
posts the lowest free handle and gives its number; recv posts a hidden one and blocks the strand on it. Posting searches the
overflow area first, oldest message first: the first that meets the criteria leaves it for the handle's buffer; with none the
handle stays posted. -/
def Obligations.SendAndReceive : Prop :=
  (∀ (s : State) (a b : Src), s.c.kind = .elastic → bufFits s (s.src b) 0 →
    (∀ cls k, tokFree s k → destOk s (s.src a) →
      exec (.send cls k a b) s = .next ((((s.seen a).seen b).updC fun c => c.bind k.toNat).schedIn 1
        (.messageArrival (msgOf s cls k (s.src a) (s.src b))))) ∧
    (∀ h, s.c.freeHandle = some h →
      (∀ nt d, exec (.postrv nt none d a b) s = .next ((((s.seen a).seen b).post h
        { crit := s.src a, buf := s.src b, nt := nt, tok := none }).putS 1 d (BitVec.ofNat 64 h))) ∧
      (∀ nt k d, tokFree s k → exec (.postrv nt (some k) d a b) s = .next (((((s.updC fun c => c.bind k.toNat).seen a).seen b).post h
        { crit := s.src a, buf := s.src b, nt := nt, tok := some k.toNat }).putS 1 d (BitVec.ofNat 64 h))) ∧
      (∀ d, noUi s → (∀ e ∈ s.c.recvT, e.2.hidden = false) →
        exec (.recv d a b) s = .next ((((s.seen a).seen b).post h { crit := s.src a, buf := s.src b, hidden := true, no := s.c.issueNo }).blockIn
          (.recv h d s.pcNow ((s.src a).getLsbD 30 || ((s.src a).extractLsb' 12 12).toNat != s.dv.cfg.devno)))))) ∧
  (∀ (s : State) (h : Nat) (hd : Handle) (pre post : List Msg) (m : Msg), (s.core s.me).held = [] →
    (∀ x ∈ pre, meets hd.crit x = false) → s.c.part.isSome →
    (s.c.ovf = pre ++ m :: post → meets hd.crit m = true →
      ((s.post h hd).c.handle h).st = .landing ∧ ((s.post h hd).c.handle h).tag = m.tag ∧ (s.post h hd).c.ovf = pre ++ post) ∧
    (s.c.ovf = pre → ((s.post h hd).c.handle h).st = .posted ∧ (s.post h hd).c.ovf = pre))

/-- tsend in an exchange phase, to a tile of the box by a route that is not blocked: its flits take their links from two ticks
on, and the packet carries the tick that it is due. A timed packet reads its bytes on the tick after its issue, needs its
receiver in an exchange phase when its header arrives, and lands unless it is late: then it is dropped and traps. One for a
partition that is no longer live is discarded. -/
def Obligations.TimedSend : Prop :=
  (∀ (s : State) (c3 : Bool) (a b : Src) (lat : BitVec 18),
    let r := (s.src a).toNat
    let tile := r / 2 ^ 24 % 4096
    let rt := s.route (s.c.orderOf (if c3 then 3 else 2)) s.me tile
    let run := ((s.seen a).seen b).timedRun c3 rt (bufLen (s.src b))
    s.c.kind = .exchange → bufFits s (s.src b) (r % 2 ^ 21) → r / 2 ^ 21 % 8 = 0 → r / 2 ^ 36 = 0 → s.harvested tile = false →
    (s.region s.c.region).eff.inBox tile = true → rt.bad = none →
    exec (.tsend c3 a b lat) s = .next (run.1.schedIn 1 (.timedPacketArrival
      { src := s.me, dst := tile, part := s.here.part, addr := bufAddr (s.src b), off := r % 2 ^ 21, len := bufLen (s.src b)
        bytes := [], pz := [], due := (s.c.tt s.tick + lat.toNat) % 2 ^ 32, head := run.2.1, land := run.2.2, stage := 0
        inj := s.tick + 1 }))) ∧
  (∀ (s : State) (p : TPkt), s.partLive p.part = false → exec (.timedPacketArrival p) s = .next s) ∧
  (∀ (s : State) (p : TPkt), s.partLive p.part = true → let l : Loc := ⟨p.dst, p.part⟩
    (p.stage = 0 → let u := s.landAt ⟨p.src, p.part⟩
      exec (.timedPacketArrival p) s = .next (u.sched p.head (.timedPacketArrival
        { p with bytes := (u.ctx ⟨p.src, p.part⟩).sp.bytes p.addr p.len, pz := (u.ctx ⟨p.src, p.part⟩).poisonIn p.addr p.len
                 stage := 1 }))) ∧
    (p.stage = 1 → (s.ctx l).live = true → (s.ctx l).kind = .exchange →
      exec (.timedPacketArrival p) s = .next (s.sched p.land (.timedPacketArrival { p with stage := 2 }))) ∧
    (p.stage = 1 → ((s.ctx l).live = false ∨ (s.ctx l).kind ≠ .exchange) →
      exec (.timedPacketArrival p) s = .next (s.lateTrap l p.src 1 p.due ((s.ctx l).tt s.tick))) ∧
    (p.stage = 2 → (s.ctx l).tt s.tick ≤ p.due → exec (.timedPacketArrival p) s = .next
      (s.engWrite l 0 4 (addrBytes p.off p.bytes) (poisonAt p.off p.len p.pz))) ∧
    (p.stage = 2 → p.due < (s.ctx l).tt s.tick →
      exec (.timedPacketArrival p) s = .next (s.lateTrap l p.src 0 p.due ((s.ctx l).tt s.tick))))

/-- The words that watch and empty the receive table and the overflow area, and clsord. The tag of a handle that was
cancelled is a free value: the spec states none (assumption 34), and what the statement says holds whatever it is. -/
def Obligations.ReceiveTableWords : Prop :=
  ∀ s : State,
    (s.c.kind = .elastic → ∀ a : Src,
      (∀ h, (s.src a).toNat = h → h < 64 → (s.c.handle h).st ≠ .posted → exec (.rvcan a) s = .next (s.seen a)) ∧
      (∀ h, (s.src a).toNat = h → h < 64 → (s.c.handle h).st = .posted →
        let hd := s.c.handle h
        let t := (s.seen a).updC fun c => c.setHandle h { hd with st := .cancelled }
        exec (.rvcan a) s = .next ((match hd.tok with
          | some k => t.tokDone s.here k (s.T + 1)
          | none => t).changed s.here)) ∧
      (∀ tag d, exec (.probe tag d a) s = .next ((s.seen a).putS 2 d (match s.c.ovf.find? (meets (s.src a)) with
        | some m => if tag then BitVec.ofNat 64 m.tag else statusWord true false 0 (msgSrc m) m.len
        | none => if tag then 0xFFFFFFFFFFFFFFFF else 0))) ∧
      (bufFits s (s.src a) 0 → ∀ d,
        (s.c.ovf = [] → exec (.ovfpop d a) s = .next ((s.seen a).putS 2 d 0)) ∧
        (∀ m r, s.c.ovf = m :: r → ∃ t : State, exec (.ovfpop d a) s = .next t ∧
          t = ((((s.seen a).updC fun c => Ctx.fillBuf { c with ovf := r } (s.src a) m (s.T + 2) 128).putS 2 d
            (statusWord true (bufLen (s.src a) < m.len) 2 (msgSrc m) m.len)).changed s.here)))) ∧
    (∀ c ord, exec (.clsord c ord) s = .next (s.updC fun x => { x with orders := Tbl.set 0 x.orders c.toNat (orderNo ord) })) ∧
    (∀ rel d sel a, (sel = .overflow ∨ sel = .handles ∨ sel = .orders) →
      exec (.xstat rel d sel a) s = .next (s.putS 1 d (BitVec.ofNat 64 (xstatOf s sel)))) ∧
    (∀ rel d sel a h, (sel = .status ∨ sel = .tag) → (s.src a).toNat = h → h < 64 →
      let t := ((if sel = .tag ∧ (s.c.handle h).st = .cancelled then tookFree s else s).seen a).putS 1 d
        (xstatH s (s.c.handle h) sel)
      exec (.xstat rel d sel a) s = .next
        (if rel = true ∧ ((s.c.handle h).st = .complete ∨ (s.c.handle h).st = .cancelled) then
          (t.updC fun c => c.setHandle h {}).changed s.here else t))

/-- Tree words in an elastic phase, at a member of the slot with fewer than four operations under way, its token free: the
member's next operation is listed with its vector and its flag, and the tree takes it from there. treecfg sets the slot. What
issuing a tree operation leaves: the member's count has moved on, its token is bound, and its operation is listed with its
payload, unless the tree has already finished it. -/
def Obligations.TreeWords : Prop :=
  (∀ s : State,
    (s.c.kind = .elastic →
      (∀ w : TreeW, treeFree s w.slot → tokFree s w.k →
        (∀ op, treeReady s w (.reduce op w.t) → exec (.reduce op w) s = .next (treeNext s w (.reduce op w.t))) ∧
        (∀ op, treeReady s w (.allred op w.t) → exec (.allred op w) s = .next (treeNext s w (.allred op w.t))) ∧
        (treeReady s w (.bcast w.t) → exec (.bcast w) s = .next (treeNext s w (.bcast w.t)))) ∧
      (∀ slot, treeFree s slot →
        (noUi s → exec (.xbar none slot) s = .next (treeIssue s slot.toNat { k := 0, tok := none, pc := s.pcNow } true)) ∧
        (∀ k, tokFree s k →
          exec (.xbar (some k) slot) s = .next (treeIssue s slot.toNat { k := 0, tok := some k.toNat, pc := s.pcNow } false)))) ∧
    (∀ slot a kids up, (s.src a).toNat = up + 256 * kids → kids < 64 → up < 8 → (up = 7 → kids = 0) →
      (∀ o ∈ s.c.treeList slot.toNat, o.own = false) → (up < 6 → kids / 2 ^ up % 2 = 0) →
      (∀ d : Dir, (portNo d = up ∨ kids / 2 ^ portNo d % 2 = 1) →
        (s.region s.c.region).eff.inBox (neighbour s.me d) = true ∧ s.harvested (neighbour s.me d) = false) →
      (up = 6 → (Tbl.get 0 s.dv.ptree slot.toNat).getLsbD 63 = true → ptF (Tbl.get 0 s.dv.ptree slot.toNat) 1 12 = s.me) →
      exec (.treecfg slot a) s = .next ((s.seen a).updC fun c =>
        { c with trees := Tbl.set {} c.trees slot.toNat { kids := kids, up := up, n := (c.tree slot.toNat).n } }))) ∧
  (∀ (s : State) (slot : Nat) (o : TreeOpSt), s.c.part.isSome → kidPorts (s.c.tree slot).kids ≠ [] →
    isBcast o.kind = false → s.c.treeList slot = [] →
    let t := treeIssue s slot o false
    (t.c.tree slot).n = (s.c.tree slot).n + 1 ∧ (∀ k, o.tok = some k → t.c.tok k = .pending) ∧
      t.c.treeList slot = [{ o with k := (s.c.tree slot).n, own := true, kidsIn := [], peersIn := [], res := none, sent := false, dev := none }] ∧
      t.mem = s.mem ∧ t.agenda = s.agenda)

/-! ### The C column -/

/-- claunch of a legal transfer, its token free and its queue not full: the id goes to sD, the token is bound, and the
transfer stands last in its queue with the control registers as they are. The other words of the C column: cset and cget write
and read a control register; cstat gives a transfer's landed elements and its state; ccancel removes a queued transfer from its
queue, behind which the next one starts two ticks later at the earliest, and stops an active one, which is over at once where no
report of it is outstanding; qfence of two queues or more is set down with the transfers launched before it. -/
def Obligations.CopyWords : Prop :=
  (∀ (s : State) (nt : Bool) (d : BitVec 6) (k : BitVec 3) (q : BitVec 2), copyOk s → tokFree s k →
    ((s.c.queue q.toNat).filter Xfer.stands).length < 8 →
    let ctr := (s.core s.me).launchCtr
    let id := s.me * 65536 + ctr
    exec (.claunch nt d k q) s = .next (((((s.setCore s.me { s.core s.me with launchCtr := (ctr + 1) % 65536 }).updC fun c =>
        { (c.bind k.toNat).setQueue q.toNat (c.queue q.toNat ++ [
            { cp := s.c.cp, id := id, tok := k.toNat, nt := nt, region := s.c.region, seq := s.c.xferCtr
              order := s.c.orderOf 5, rorder := s.c.orderOf 1 }]) with
          xferCtr := c.xferCtr + 1 }).schedIn 1 (.copyTransferStart s.here q.toNat)).putS 1 d (BitVec.ofNat 64 id)))) ∧
  (∀ s : State,
    (∀ r a, exec (.cset r a) s = .next ((s.seen a).updC fun c => { c with cp := c.cp.put r (s.src a) })) ∧
    (∀ d r, exec (.cget d r) s = .next (s.putS 1 d (s.c.cp.get r))) ∧
    (∀ d a, (s.src a).toNat / 65536 = s.me → exec (.cstat d a) s = .next ((s.seen a).putS 2 d (BitVec.ofNat 64
      (match s.c.findXfer (s.src a).toNat with
       | some x => x.2.landed * 2 ^ 32 + (if x.2.cancelled then 3 else if x.2.act then 2 else 1)
       | none => 0)))) ∧
    (∀ a, (s.src a).toNat / 65536 = s.me →
      (s.c.findXfer (s.src a).toNat = none → exec (.ccancel a) s = .next (s.seen a)) ∧
      (∀ q x, s.c.findXfer (s.src a).toNat = some (q, x) → x.act = true → x.cancelled = false → x.out ≠ 0 →
        exec (.ccancel a) s = .next ((s.seen a).updC fun c =>
          c.updHead q fun x => { x with cancelled := true, next := x.read, pend := none })) ∧
      (∀ q x, s.c.findXfer (s.src a).toNat = some (q, x) → x.act = true → x.cancelled = false → x.out = 0 →
        exec (.ccancel a) s = .next
          (((s.seen a).updC fun c =>
            c.updHead q fun x => { x with cancelled := true, next := x.read, pend := none }).copyDone s.here q)) ∧
      (∀ q x, s.c.findXfer (s.src a).toNat = some (q, x) → x.act = false →
        exec (.ccancel a) s = .next (((((s.seen a).updC fun c =>
          c.setQueue q (((c.queue q).filter fun y => y.seq != x.seq).map fun y =>
            if x.seq < y.seq then { y with gate := s.tick + 2 } else y)).tokDone s.here x.tok (s.T + 1)).schedIn 2
            (.copyTransferStart s.here q))))) ∧
    (∀ mask : BitVec 4, let n := ((List.range 4).filter fun i => mask.getLsbD i).length
      (n ≤ 1 → exec (.qfence mask) s = .next s) ∧
      (2 ≤ n → exec (.qfence mask) s = .next (s.updC fun c => { c with qfence := c.qfence ++ [(mask.toNat, c.xferCtr)] }))))

/-- The stream words: scfg with a legal record in the share sets a slot that is not bound; sbind binds a READY slot, whose
first fetch starts on the next tick; sunbind of a bound slot makes it READY; sstat gives the slot's state. The drains bind
their token; sdrain's completes on the issue tick, or, where fetches are in flight, on the tick after the last of them ends (the
model's choice, assumption 61: on the tick after its vector would be ready); sdrain.out's completes on the issue tick where
every pushed vector has landed, and else with the landing of the newest. -/
def Obligations.StreamWords : Prop :=
  ∀ (s : State) (v : BitVec 3) (n : Nat),
    (slotAt s v 0 n →
      (∀ a ad, (s.src a).toNat = ad → ad % 64 = 0 → ad + 64 ≤ s.c.share → s.c.bound n = false →
        slotLegal (fun i => s.c.sp.nat (ad + i) 8) = true → (slotOf fun i => s.c.sp.nat (ad + i) 8).aligned = true →
        (slotOf fun i => s.c.sp.nat (ad + i) 8).inShare s.c.share = true →
        exec (.scfg v a) s = .next ((s.seen a).updC fun c => c.setSlot n (slotOf fun i => s.c.sp.nat (ad + i) 8))) ∧
      ((s.c.slot n).st = .ready → exec (.sbind v) s = .next (s.bindSlot s.here n s.T)) ∧
      ((s.c.slot n).st ≠ .bound → exec (.sunbind v) s = .next s) ∧
      ((s.c.slot n).st = .bound → (s.c.slot n).dir = false → exec (.sunbind v) s = .next
        ((s.dropFetches s.here n).updC fun c => c.updSlot n fun x =>
          { x with st := .ready, buf := [], fly := [], moved := x.pos })) ∧
      ((s.c.slot n).st = .bound → (s.c.slot n).dir = true → exec (.sunbind v) s = .next
        (s.updC fun c => c.updSlot n fun x => { x with st := .ready }))) ∧
    (slotAt s v 1 n →
      (∀ d, exec (.sstat d v) s = .next (s.putS 1 d (BitVec.ofNat 64 ((s.c.slot n).st.code +
        (if (s.c.slot n).dir then 8 + 16 * min (s.c.unlanded n) 8 else 16 * min (s.c.slot n).buf.length 8) +
        2 ^ 32 * (s.c.slot n).pos)))) ∧
      (∀ k, tokFree s k → (s.c.slot n).st = .done →
        let t := s.updC fun c => c.bind k.toNat
        ((s.c.slot n).dir = false → exec (.sdrain k v) s = .next (t.tokDone s.here k.toNat s.T)) ∧
        ((s.c.slot n).dir = true → exec (.sdrainOut k v) s = .next (t.tokDone s.here k.toNat s.T))) ∧
      (∀ k, tokFree s k → ((s.c.slot n).st = .ready ∨ (s.c.slot n).st = .bound) →
        let t := s.updC fun c => c.bind k.toNat
        ((s.c.slot n).dir = false → ∃ x : Nat,
          exec (.sdrain k v) s = .next (((t.dropFetches s.here n).updC fun c => c.updSlot n fun x =>
            { x with st := .done, buf := [], fly := [] }).tokDone s.here k.toNat x) ∧
          (∀ e ∈ s.agenda, e.2 = .streamVectorReady s.here n → s.T + (e.1 - s.tick) + 1 ≤ x) ∧
          (x = s.T ∨ ∃ e ∈ s.agenda, e.2 = .streamVectorReady s.here n ∧ x = s.T + (e.1 - s.tick) + 1)) ∧
        ((s.c.slot n).dir = true → s.c.unlanded n = 0 →
          exec (.sdrainOut k v) s = .next ((t.updC fun c => c.updSlot n fun x => { x with st := .done }).tokDone s.here k.toNat s.T)) ∧
        ((s.c.slot n).dir = true → s.c.unlanded n ≠ 0 →
          exec (.sdrainOut k v) s = .next (t.updC fun c => { c with pushes := drainPush n k.toNat c.pushes }))))

/-! ### Events of a strand's control -/

/-- A forwarded word enters its follower's queue in program order behind what stands there, with the present tick as its own
and with its leader's outcome, strides and reissue number; what a join of the leader has come to is noted and settles the
follower's own join; a strand that follows no more takes neither (R123, R125). The sequencer of rep queues every captured word for its own
tick of the next period, and comes again a period later while reissues remain (R168); while a handler runs it only puts its
reissues off by a tick (R169). The delivery of a user-level event begins the handler: the event leaves its store, its code
stands in the shadow s1 and its payload in the shadow s2, and the strand fetches from the handler's entry, three ticks on, with
the interrupted index kept and its own registers as they were (R463, R464). -/
def Obligations.IssueEvents : Prop :=
  ∀ (s : State) (l : Loc),
    (∀ w b, (s.ctx l).fol.cur.isSome → (s.ctx l).live = true → w.joined = some b →
      exec (.forwardedWordIssue l w) s = .next
        ((s.updCtx l fun c => { c with fol := { c.fol with joined := c.fol.joined ++ [b] } }).joinSettle l)) ∧
    (∀ w, ((s.ctx l).fol.cur = none ∨ (s.ctx l).live = false) → exec (.forwardedWordIssue l w) s = .next s) ∧
    (∀ w x, (s.ctx l).fol.cur.isSome → (s.ctx l).live = true → w.joined = none → decode w.bits = some x →
      exec (.forwardedWordIssue l w) s = .next (s.updCtx l fun c =>
        { c with q := insEnt (fwdEnt (s.ctx l) w x ((s.ctx l).now s.tick)) c.q, seq := c.seq + 1, prev := .pending })) ∧
    (∀ rid r, ((s.ctx l).reps.find? fun r => r.rid == rid) = some r → (s.ctx l).ui.inh = false →
      let u := s.updCtx l fun c =>
        { c.setRep { r with j := r.j + 1 } with q := (reissues r).foldl (fun q e => insEnt e q) c.q }
      exec (.repReissue l rid) s = .next
        (if r.j + 1 < r.count then u.schedAt l (r.firstT + (r.j + 1 + 1) * r.period + r.slip) (.repReissue l rid) else u)) ∧
    (∀ rid r, ((s.ctx l).reps.find? fun r => r.rid == rid) = some r → (s.ctx l).ui.inh = true →
      exec (.repReissue l rid) s = .next
        ((s.updCtx l fun c => c.setRep { r with slip := r.slip + 1 }).schedIn 1 (.repReissue l rid))) ∧
    (∀ code pay, s.inFg l = true → (s.ctx l).ui.going = some (code, pay) → (s.ctx l).running = true → (s.ctx l).q = [] →
      (s.ctx l).kind = .elastic → (s.ctx l).block = .none →
      Tbl.wf 0 (s.ctx l).ui.hs = true →
      ∃ t : State, exec (.uiDelivery l) s = .next t ∧ (t.ctx l).ui.inh = true ∧ (t.ctx l).ui.going = none ∧
        (t.ctx l).ui.ret = (s.ctx l).pc ∧ (t.ctx l).pc = (s.ctx l).ui.entry ∧ (t.ctx l).fstop = .run ∧
        (t.ctx l).fetchAt = (s.ctx l).now s.tick + 3 ∧ (t.ctx l).sreg 1 = BitVec.ofNat 64 code ∧
        (t.ctx l).sreg 2 = BitVec.ofNat 64 pay ∧ ((t.ctx l).ui.dl, (t.ctx l).ui.yld, (t.ctx l).ui.tmq, (t.ctx l).ui.arq) =
          (((s.ctx l).ui.take code).dl, ((s.ctx l).ui.take code).yld, ((s.ctx l).ui.take code).tmq, ((s.ctx l).ui.take code).arq) ∧
        (t.ctx l).s = (s.ctx l).s ∧ (t.ctx l).p = (s.ctx l).p ∧ t.mem = s.mem)

/-- A set that may be released passes its boundary on the present tick, and with .step the region's step ends; one in which the
follow that a member has armed closes its phase at another PC than the leader's may not be released, and one that may not is
examined again (R148 to R151, R164). Such a member's arrival is taken back: its phase word stands in its queue again and traps
with FOLLOW_DIVERGE, precisely (R164, R450 to R452). A set of a barrier that may be released passes it, and the
region's barriers are examined again; one that may not is examined again (R152). A strand that passes a boundary begins a phase
of the kind that it named: tt.tick restarts, every column's count restarts, and it is blocked no more; its registers and its
results in flight are as they were (R139, R149). A strand that passes a plain bar is blocked no more, and one that passes a split
bar has its token complete (R152). -/
def Obligations.ReleaseEvents : Prop :=
  (∀ (s : State) (r : Nat) (sc : Scope) (inst : Nat),
    (s.mayRelease false r sc inst = true →
      let u := passAll (s.takeFollows (s.members r sc inst)) (s.members r sc inst)
      exec (.boundaryRelease r sc inst) s = .next
        (if ((s.members r sc inst).any fun l => ((s.ctx l).arr.map (·.step)).getD false) = true then u.stepEnd r else u)) ∧
    ((∃ l ∈ s.members r sc inst, s.followPcBad l = true) → s.mayRelease false r sc inst = false) ∧
    (s.mayRelease false r sc inst = false →
      exec (.boundaryRelease r sc inst) s = .next (s.unrelease false r sc inst)) ∧
    (s.mayRelease true r sc inst = true →
      exec (.barRelease r sc inst) s = .next (((s.members r sc inst).foldl passBar s).examine true r)) ∧
    (s.mayRelease true r sc inst = false → exec (.barRelease r sc inst) s = .next (s.unrelease true r sc inst))) ∧
  (∀ (s : State) (l : Loc) (a : Arr) (e : QEnt), s.inFg l = true → (s.ctx l).frozen = none → (s.ctx l).arr = some a →
    a.ent = some e → e.fwd = false →
    let t := s.phaseBack l
    (t.ctx l).arr = none ∧ (t.ctx l).block = .none ∧ (t.ctx l).stopped = true ∧
      { e with fixed := some ((s.ctx l).now s.tick) } ∈ (t.ctx l).q ∧
      ∃ r, (t.ctx l).stops = (s.ctx l).stops ++ [r] ∧ r.code = 0x07 ∧ r.prec = true ∧ r.pc = a.pc % 2 ^ 14 ∧
        r.word = e.bits.toNat) ∧
  (∀ (s : State) (l : Loc) (a : Arr), s.inFg l = true → (s.part l.part).priv = false → (s.ctx l).ui.en = 0 →
    let t := s.passBoundary l a
    (t.ctx l).kind = a.kind ∧ (t.ctx l).ph0 = (s.ctx l).now s.tick + 3 * (s.ctx l).fol.hops ∧ (t.ctx l).base = [] ∧
      (t.ctx l).arr = none ∧ (t.ctx l).block = .none ∧ (t.ctx l).s = (s.ctx l).s ∧ (t.ctx l).p = (s.ctx l).p ∧
      (t.ctx l).v = (s.ctx l).v ∧ (t.ctx l).k = (s.ctx l).k ∧ (t.ctx l).pend = (s.ctx l).pend ∧ t.mem = s.mem) ∧
  (∀ (s : State) (l : Loc) (a : Arr) (r : List Arr), s.inFg l = true → (s.ctx l).bars = a :: r →
    (a.tok = none → ((passBar s l).ctx l).bars = r ∧ ((passBar s l).ctx l).block = .none) ∧
    (∀ k, a.tok = some k → ((passBar s l).ctx l).bars = r ∧
      ((passBar s l).ctx l).tok k = .done ((s.ctx l).now s.tick) ∧ ((passBar s l).ctx l).block = (s.ctx l).block))

/-- A decrement of a join cell takes one from its count, and its result goes back to the strand in class 6, saying whether it
was the last, which frees the cell; of a trigger cell, by a join or by a trigger, the last one fires the region, once, and the
cell stays (R157, R162, R423; that its count stays at zero is the model's choice, assumption 58). The result of a join reaches a
strand that follows none and has no follower: the last one goes on at the next word, blocked no more; another parks, which ends
the strand (R157). Waits that end: a sleep whose event holds goes on and one whose event does not waits on (R146); a
strand that waits for its tokens on its way out looks at them again (R157, R471); the release of a waitt lets the strand go on,
or completes the token of the split form (R200); the timer of a live strand's phase halts its context with PHASE_TIMER and runs
anew from the tick on which the context freezes (R457; the restart is the model's deduction, assumption 77). -/
def Obligations.JoinAndWaitEvents : Prop :=
  (∀ (s : State) (l : Loc) (h : Nat),
    (∀ c, Tbl.find s.cells h = some c → s.firstArrival l h = l →
      let back := [(s.ctx l).leg 6 (some (joinTile h)) (some l.tile)]
      (1 < c.count → exec (.joinCellDecrement l h false) s = .next
        (State.packet { s with cells := Tbl.put s.cells h { c with count := c.count - 1 } } l.part back (.joinResult l h false))) ∧
      (c.count = 1 → c.trig = false → (s.ctx l).fol.cur = none → exec (.joinCellDecrement l h false) s = .next
        ((State.kick { s with cells := Tbl.del s.cells h }).packet l.part back (.joinResult l h true))) ∧
      (c.count = 1 → c.trig = true → (s.region c.region).fired = false → exec (.joinCellDecrement l h false) s = .next
        ((State.fire { s with cells := Tbl.put s.cells h { c with count := 0 } } c.region).packet l.part back (.joinResult l h true)))) ∧
    (∀ c, Tbl.find s.cells h = some c → c.count ≠ 1 → 0 < c.count →
      exec (.joinCellDecrement l h true) s = .next { s with cells := Tbl.put s.cells h { c with count := c.count - 1 } }) ∧
    (∀ c, Tbl.find s.cells h = some c → c.count = 1 → c.trig = true → (s.region c.region).fired = false →
      exec (.joinCellDecrement l h true) s = .next (State.fire { s with cells := Tbl.put s.cells h { c with count := 0 } } c.region)) ∧
    (∀ p pc e x o, s.inFg l = true → (s.ctx l).block = .leave (some h) 2 p pc → (s.ctx l).fol.join = some (e, x, o) →
      (s.ctx l).fol.cur = none → s.followers l.tile l.part = [] →
      (∃ t : State, exec (.joinResult l h true) s = .next t ∧ (t.ctx l).block = .none ∧ (t.ctx l).fol.join = none ∧
        t.cells = s.cells ∧ t.mem = s.mem ∧ (t.ctx l).s = (s.ctx l).s ∧ (t.ctx l).k = (s.ctx l).k ∧
        ((s.ctx l).ui.going = none → (s.ctx l).ui.v = false → (t.ctx l).pc = (s.ctx l).pc ∧ (t.ctx l).fstop = .run ∧
          (t.ctx l).fdone = (s.ctx l).now s.tick)) ∧
      ((s.ctx l).trig = true → ∃ u : State, exec (.joinResult l h false) s = .next (u.endStrand l) ∧ u.cells = s.cells ∧
        u.mem = s.mem ∧ u.agenda = s.agenda ∧ (u.ctx l).region = (s.ctx l).region))) ∧
  (∀ (s : State) (l : Loc),
    (∀ m pc, (s.ctx l).block = .sleep m pc → (s.ctx l).sleepHolds m ((s.ctx l).now s.tick) = true →
      exec (.sleepWake l) s = .next ((s.updCtx l fun c => { c.sleepSeen m with block := .none }).uiPoll l)) ∧
    (∀ m pc, (s.ctx l).block = .sleep m pc → (s.ctx l).sleepHolds m ((s.ctx l).now s.tick) = false →
      exec (.sleepWake l) s = .next s) ∧
    (∀ c p pc, (s.ctx l).block = .leave c 0 p pc → exec (.sleepWake l) s = .next (s.leaveStep l)) ∧
    (∀ g pc, (s.ctx l).block = .waitt g pc →
      exec (.waittRelease l none) s = .next ((s.updCtx l fun c => { c with block := .none }).uiPoll l)) ∧
    (∀ k, exec (.waittRelease l (some k)) s = .next (s.tokDone l k ((s.ctx l).now s.tick))) ∧
    (runs s l → (s.ctx l).live = true → ∃ t : State, exec (.phaseTimer l) s = .next t ∧ trapped s t l 8 0x12 ∧ t.mem = s.mem ∧
      (s.tick + 24 + (s.ctx l).timer + 1, .phaseTimer l) ∈ t.agenda) ∧
    ((s.ctx l).live = false → exec (.phaseTimer l) s = .next s))

/-! ### Events of memory -/

/-- A request that no held message keeps waiting at the home of its line: one to a line in its slice is performed; one to a missing
line waits for it, and its fetch is on its way unless another request waits already or the DRAM is blocked; one to a line that is
waited for waits behind the others. The fetched line is in the slice, and what waited is performed in order; nothing happens while
the DRAM is blocked. A line comes from its vault, or by its route from an HBM controller. What a home does with a request: to a
line that is not poisoned strm stores its bytes; atom and a cas that succeeds store their result; ldg, ldrm and a cas that fails
store nothing; a written line stores its bytes. A merge combines its elements into what is stored, and leaves the line's poison as
it was (R302, R311). A request of another device goes on by its route from the attach port, or is answered with an error where the
address is not held here. A request to host memory, or to a peer's with a port up, reads or writes there, and leaves this device's
memory; with every port down it waits, and where the peer holds nothing an error comes back (R294, R424, R425). -/
def Obligations.HomeEvents : Prop :=
  (∀ (s : State) (q : HomeReq) (pa : Nat),
    ((q.peer = none ∨ q.entered = true) → s.classHeld (s.homeTile q.pa) 0 = false →
      (hitNow s q.pa → exec (.homeRequestServe q) s = .next (s.serve q)) ∧
      (isHome q.pa = true → s.sliceHit q.pa = false → s.lineWaits q.pa = false → s.dramBlocked q.pa = false →
        exec (.homeRequestServe q) s = .next (State.fetchLine { s with missQ := s.missQ ++ [q] } q.pa)) ∧
      (isHome q.pa = true → s.sliceHit q.pa = false → s.lineWaits q.pa = false → s.dramBlocked q.pa = true →
        exec (.homeRequestServe q) s = .next { s with missQ := s.missQ ++ [q] }) ∧
      (isHome q.pa = true → s.lineWaits q.pa = true →
        exec (.homeRequestServe q) s = .next { s with missQ := s.missQ ++ [q] })) ∧
    (s.dramBlocked pa = false → exec (.dramMissFill pa) s = .next
      ((s.missQ.filter fun r => r.pa / 128 == pa / 128).foldl State.serve
        { s.sliceTouch pa with missQ := s.missQ.filter fun r => r.pa / 128 != pa / 128 })) ∧
    (s.dramBlocked pa = true → exec (.dramMissFill pa) s = .next s) ∧
    (spaceOf pa = .vault → s.fetchLine pa = s.schedFree 0 (.dramMissFill pa)) ∧
    (∀ n, spaceOf pa = .hbm → s.legTime [{ order := 0, src := some (s.homeTile pa), dst := none },
        { order := 0, src := none, dst := some (s.homeTile pa), bytes := 128 }] = .ok n →
      s.fetchLine pa = s.schedFree n (.dramMissFill pa))) ∧
  (∀ (s : State) (q : HomeReq), s.linePoison q.pa = false →
    (∀ t v, q.op = .strm t v → (s.serve q).mem = s.mem.setNat q.pa (tySize t) v) ∧
    (∀ op t b d, q.op = .atom op t b d →
      (s.serve q).mem = s.mem.setNat q.pa (tySize t) (atomNew op t (s.mem.nat q.pa (tySize t)) b)) ∧
    (∀ t cmp new d, q.op = .cas t cmp new d → s.mem.nat q.pa (tySize t) = cmp →
      (s.serve q).mem = s.mem.setNat q.pa (tySize t) new) ∧
    (∀ t cmp new d, q.op = .cas t cmp new d → s.mem.nat q.pa (tySize t) ≠ cmp → (s.serve q).mem = s.mem) ∧
    (∀ size own d, q.op = .read size own d → (s.serve q).mem = s.mem) ∧
    (∀ t d, q.op = .ldrm t d → (s.serve q).mem = s.mem) ∧
    (∀ bs pub b r, q.op = .write bs pub → bs = b :: r → (s.serve q).mem = s.mem.setMany bs)) ∧
  (∀ (s : State) (q : HomeReq) (op : UpdOp) (t : Ty) (es : List (Nat × Nat)) (pub : Nat), q.op = .merge op t es pub →
    (s.serve q).mem = s.mem.setMany (es.flatMap fun e => addrBytes (q.pa + tySize t * e.1)
      (leBytes (tySize t) (combine op t (s.mem.nat (q.pa + tySize t * e.1) (tySize t)) e.2)))) ∧
  (∀ (s : State) (b : Nat × Byte) (r : List (Nat × Byte)),
    (s.lineWrite (b :: r) (s.linePoison b.1)).linePoison b.1 = s.linePoison b.1) ∧
  (∀ (s : State) (q : HomeReq),
    (∀ d n, q.peer = some d → q.entered = false → isHome q.pa = true →
      s.legTime [{ order := q.order, src := none, dst := some (s.homeTile q.pa), bytes := homeBytes q.op }] = .ok n →
      exec (.homeRequestServe q) s = .next (s.schedFree n (.homeRequestServe { q with entered := true }))) ∧
    (∀ d, q.peer = some d → isHome q.pa = false → exec (.homeRequestServe q) s = .next (s.sendReply
      { q := q, wr := [], lastseq := none, poisoned := false, err := true })) ∧
    (q.peer = none → isHome q.pa = false →
      (spaceOf q.pa ≠ .peer → exec (.homeRequestServe q) s = .next (s.serveOutside q)) ∧
      (spaceOf q.pa = .peer → (s.zheostPort (s.peerDev q.pa + q.pa / 128)).isSome → isHome (s.peerPa q.pa) = true →
        exec (.homeRequestServe q) s = .next (s.serveOutside q)) ∧
      (spaceOf q.pa = .peer → (s.zheostPort (s.peerDev q.pa + q.pa / 128)).isSome → isHome (s.peerPa q.pa) = false →
        exec (.homeRequestServe q) s = .next (s.sendReply { q := q, wr := [], lastseq := none, poisoned := false, err := true })) ∧
      (spaceOf q.pa = .peer → s.zheostPort (s.peerDev q.pa + q.pa / 128) = none →
        ∃ t : State, exec (.homeRequestServe q) s = .next t ∧ (s.tick + 1, .homeRequestServe q) ∈ t.agenda ∧ t.mem = s.mem ∧
          t.outside = s.outside))) ∧
  (∀ (s : State) (q : HomeReq), (s.serveOutside q).mem = s.mem ∧
    (∀ bs pub, q.op = .write bs pub → s.serveOutside q = (s.outsideWrite bs).didAccept q pub) ∧
    (∀ op t es pub, q.op = .merge op t es pub → let o := s.outsideRead q.pa 128
      s.serveOutside q = (o.1.outsideWrite (mergeBytes q.pa op t es fun i =>
        leNat ((o.2.drop (tySize t * i)).take (tySize t)))).didAccept q pub) ∧
    (∀ size own d, q.op = .read size own d → let o := s.outsideRead q.pa size
      s.serveOutside q = (o.1.reply q (destWrite d (overlay q.pa own o.2)) none false).didServe q) ∧
    (∀ t v, q.op = .strm t v → let o := (s.outsideWrite (addrBytes q.pa (leBytes (tySize t) v))).outsideRead q.pa 4
      s.serveOutside q = (o.1.reply q [] (some (true, 0x7FF, leNat o.2)) false).didServe q) ∧
    (∀ op t b d, q.op = .atom op t b d → let o := s.outsideRead q.pa (tySize t)
      let u := (o.1.outsideWrite (addrBytes q.pa (leBytes (tySize t) (atomNew op t (leNat o.2) b)))).outsideRead q.pa 4
      s.serveOutside q = (u.1.reply q (destWrite d o.2) (some (true, 0x7FF, leNat u.2)) false).didServe q) ∧
    (∀ t cmp new d, q.op = .cas t cmp new d → let o := s.outsideRead q.pa (tySize t)
      let u := (o.1.outsideWrite (addrBytes q.pa (leBytes (tySize t) new))).outsideRead q.pa 4
      s.serveOutside q = (if leNat o.2 = cmp then
          (u.1.reply q (destWrite d o.2) (some (true, 0x7FF, leNat u.2)) false).didServe q
        else (o.1.reply q (destWrite d o.2) (some (false, 0x7FF, 0)) false).didServe q))) ∧
  (∀ (s : State) (bs : List (Nat × Byte)), (s.outsideWrite bs).outside = bs.foldl (fun t b => Tbl.put t b.1 b.2) s.outside)

/-- Replies and acknowledgements, where no held message keeps them waiting (R409). What BAR2 reads has come; a reply to another device
leaves, once a port is up (R290, R424). A home's reply is given to the word that asked,
and sets ctl.lastseq where it carries a stamp (R298, R318); a peer's error completion halts the context with PROTECTION, and the
access is made again on resumption (R425, R451). A remote access is served at its target once the target's quad is awake: a store
changes the scratchpad at the end of the tick, a load's data goes back, and so does the acknowledgement of either; until then it wakes
the quad and comes again 250 ns later (R102, R317). What a reply does to the word that asked: a scalar, or a vector whose register
is bound to no stream, lands on the next tick, on which the token completes; poisoned data halts the context with
POISON_CONSUMED, and the access is made again (R311, R314, R318). Walks and errors: a walk that ends caches the translation that it
found, and leaves the fault that it met for the stalled word; it goes on while an entry waits at its home (R304, R305, R308). A
corrected error is counted, one of a tag table with the scratchpad's, and changes no value; an uncorrectable one poisons its granule or its line and is counted, or halts the
core's context, and each is set down to the rail it came from; a slice's scrub changes nothing (R215, R310 to R312). -/
def Obligations.ReplyAndErrorEvents : Prop :=
  (∀ (s : State),
    (∀ (r : HomeRep) (o n : Nat) (own : List (Nat × Byte)) (d : LdDest) (g : Nat) (m : Lane) (v : Vec), r.q.agent = some o →
      r.q.op = .read n own d → r.wr = [.v g m v] → exec (.homeReplyArrival r) s = .next
        { s with dv := { s.dv with bar2 := layAt s.dv.bar2 o (leBytes n v.toNat) } }) ∧
    (∀ (r : HomeRep) (d : Nat), r.q.agent = none → r.q.peer = some d →
      ((s.zheostPort 0).isSome → exec (.homeReplyArrival r) s = .next { s with dv := { s.dv with sentReps := (d, r) :: s.dv.sentReps } }) ∧
      (s.zheostPort 0 = none → exec (.homeReplyArrival r) s = .next (s.schedIn 1 (.homeReplyArrival r)))) ∧
    (∀ r : HomeRep, r.q.agent = none → r.q.peer = none → s.classHeld r.q.loc.tile 1 = false →
      (r.err = false → r.lastseq = none →
        exec (.homeReplyArrival r) s = .next (s.tokenReply r.q.loc r.q.tok r.wr r.poisoned r.q.pc (.homeRequestServe r.q))) ∧
      (∀ wr sl n, r.err = false → r.lastseq = some (wr, sl, n) →
        exec (.homeReplyArrival r) s = .next (State.tokenReply (s.updCtx r.q.loc fun c =>
          { c with lastWr := wr, lastSlice := sl, lastSeq := if wr then n else c.lastSeq })
            r.q.loc r.q.tok r.wr r.poisoned r.q.pc (.homeRequestServe r.q))) ∧
      (r.err = true → exec (.homeReplyArrival r) s = .next
        ((s.trapEngine r.q.loc 0 0x0A r.q.pc (xlDetail 3 0 (homeAcc r.q.op) r.q.va) 0).again r.q.loc (.homeRequestServe r.q)))) ∧
    (∀ q : RemReq, s.classHeld q.target 0 = false →
      let tl : Loc := ⟨q.target, q.loc.part⟩
      let u := (s.quadRest q.target).landAt tl
      (s.quadAwake q.target = false → exec (.remoteAccessServe q) s = .next
        ((s.wakeQuad q.target).schedIn (s.ticksOf 250) (.remoteAccessServe q))) ∧
      (∀ v, s.quadAwake q.target = true → q.store = some v → exec (.remoteAccessServe q) s = .next
        (((u.engWrite tl 0 3 (laneBytes q.mask q.off v)).performed q.loc).packet q.loc.part
          [{ order := q.rorder, src := some q.target, dst := some q.loc.tile, bytes := 0 }] (.remoteAckArrival q [] false))) ∧
      (s.quadAwake q.target = true → q.store = none → exec (.remoteAccessServe q) s = .next
        ((u.performed q.loc).packet q.loc.part
          [{ order := q.rorder, src := some q.target, dst := some q.loc.tile, bytes := 128 }]
          (.remoteAckArrival q [.v q.dest q.mask (vecBytes ((u.ctx tl).sp.bytes q.off 128))]
            ((List.range 32).any fun i => q.mask.getLsbD i && (u.ctx tl).spBad (q.off + 4 * i) 4))))) ∧
    (∀ (q : RemReq) (wr : List Wr) (pz : Bool), s.classHeld q.loc.tile 1 = false →
      exec (.remoteAckArrival q wr pz) s = .next (s.tokenReply q.loc (some q.tok) wr pz q.pc (.remoteAccessServe q))) ∧
    (∀ (l : Loc) (k n : Nat) (x : Word) (pc : Nat) (redo : Ev), s.inFg l = true →
      let t := s.tokenReply l (some k) [.s n x] false pc redo
      (t.ctx l).tok k = .done ((s.ctx l).now s.tick + 1) ∧ t.mem = s.mem ∧
        (t.ctx l).pend = insPend ((s.ctx l).now s.tick + 1) (Tbl.get 0 (s.ctx l).kNo k) (.s n x) (s.ctx l).pend) ∧
    (∀ (l : Loc) (k n : Nat) (m : Lane) (x : Vec) (pc : Nat) (redo : Ev), s.inFg l = true → (s.ctx l).pushes = [] →
      let t := s.tokenReply l (some k) [.v n m x] false pc redo
      (t.ctx l).tok k = .done ((s.ctx l).now s.tick + 1) ∧ t.mem = s.mem ∧
        (t.ctx l).pend = insPend ((s.ctx l).now s.tick + 1) (Tbl.get 0 (s.ctx l).kNo k) (.v n m x) (s.ctx l).pend) ∧
    (∀ (l : Loc) (tok : Option Nat) (wr : List Wr) (pc : Nat) (redo : Ev),
      s.tokenReply l tok wr true pc redo = (s.trapEngine l 0 0x14 pc 0 0).again l redo)) ∧
  (∀ (s : State) (l : Loc) (a pa : Nat),
    (∀ va acc, s.xlWaits l va = false → s.inFg l = true → (s.ctx l).walk = some (va, none) →
      ∃ t : State, exec (.translationWalk l va acc) s = .next t ∧ t.mem = s.mem ∧
        (t.ctx l).walk = (match s.checkWalk (s.walk l va).2 va acc with
          | .ok _ => none
          | .error x => some (va, some x)) ∧
        ∀ e, (s.walk l va).2 = .ok e → e ∈ (t.core l.tile).tlb) ∧
    (∀ va acc, s.xlWaits l va = true →
      exec (.translationWalk l va acc) s = .next (s.schedIn 1 (.translationWalk l va acc))) ∧
    exec (.eccCorrected (.dram pa)) s = .next { s with eccd := { s.eccd with dce := min (s.eccd.dce + 1) (2 ^ 24 - 1) } } ∧
    exec (.eccCorrected (.slice pa)) s = .next { s with eccd := { s.eccd with sce := min (s.eccd.sce + 1) (2 ^ 24 - 1) } } ∧
    exec (.eccCorrected (.spad l a)) s = .next (s.setCore l.tile
      { s.core l.tile with ecctSp := min ((s.core l.tile).ecctSp + 1) (2 ^ 32 - 1) }) ∧
    exec (.eccCorrected (.core l .tagTable)) s = .next (s.setCore l.tile
      { s.core l.tile with ecctSp := min ((s.core l.tile).ecctSp + 1) (2 ^ 32 - 1) }) ∧
    (∀ x, x ≠ .tagTable → exec (.eccCorrected (.core l x)) s = .next (s.setCore l.tile
      { s.core l.tile with ecctCore := min ((s.core l.tile).ecctCore + 1) (2 ^ 32 - 1) })) ∧
    exec (.uncorrectableError (.dram pa)) s = .next
      { s with eccd := { s.eccd with due := min (s.eccd.due + 1) (2 ^ 8 - 1) }
               poison := if s.poison.contains (pa / 128) then s.poison else pa / 128 :: s.poison } ∧
    exec (.uncorrectableError (.slice pa)) s = .next (State.railError
      { s with eccd := { s.eccd with sue := min (s.eccd.sue + 1) (2 ^ 8 - 1) }
               poison := if s.poison.contains (pa / 128) then s.poison else pa / 128 :: s.poison } 2) ∧
    exec (.uncorrectableError (.spad l a)) s = .next ((s.updCtx l fun c =>
      if c.spPoison.contains (a / 8) then c else { c with spPoison := a / 8 :: c.spPoison }).railError 2) ∧
    (∀ x, exec (.uncorrectableError (.core l x)) s = .next
      ((s.trapEngine l 0 0x13 (s.ctx l).pc 0 0).railError (errRail x))) ∧
    errRail .accumulator = 0 ∧ errRail .latch = 0 ∧ errRail .datapath = 1 ∧ errRail .register = 2 ∧ errRail .instrStore = 2 ∧
    errRail .engine = 3 ∧
    (∀ n, exec (.scrub n) s = .next s))

/-- A DRAM reading sets the sensor's register, and its refresh state rises at 85, 95 and above 105 degrees and falls below 83,
93 and 103, step by step. A conversion sets a cell's register: HOT from 103 degrees to below 100, the cap from 108 to below
105, trip from 116 until it is cleared; a failed sensor counts as 108 and keeps its reading; one that is masked gives none, and
its points are released (the model's choice, assumption 72). The core rails come back once every sensor that is not masked reads
below 90. -/
def Obligations.SensorEvents : Prop :=
  ((∀ (s : State) (n : Nat) (q : Int), ∃ t : State, exec (.dramSensorReading n (.temp q)) s = .next t ∧ t.mem = s.mem ∧
    Tbl.get {} t.dts n = { temp := q, fail := false, st := refreshNext (Tbl.get {} s.dts n).st q, valid := true }) ∧
  (∀ (st : Nat) (q : Int), st ≤ 3 →
    (q < 332 → refreshNext st q = 0) ∧ (420 < q → refreshNext st q = 3) ∧
    (340 ≤ q → q < 372 → refreshNext st q = 1) ∧ (380 ≤ q → q < 412 → refreshNext st q = 2) ∧
    (332 ≤ q → q < 340 → refreshNext st q = min st 1) ∧ (372 ≤ q → q < 380 → refreshNext st q = max 1 (min st 2)) ∧
    (412 ≤ q → q ≤ 420 → refreshNext st q = max 2 st))) ∧
  ((∀ (s : State) (cell : Nat) (r : Reading), (∀ q, r = .temp q → q < 500) →
    ∃ t : State, exec (.sensorConversion cell r) s = .next t ∧ t.tsReg cell = (s.tsReg cell).convert r) ∧
  (∀ (t : TsReg) (q : Int), let u := t.convert (.temp q)
    u.temp = q ∧ u.valid = true ∧ u.fail = false ∧ (u.hot = true ↔ 412 ≤ q ∨ (400 ≤ q ∧ t.hot = true)) ∧
      (u.cap = true ↔ 432 ≤ q ∨ (420 ≤ q ∧ t.cap = true)) ∧ (u.trip = true ↔ 464 ≤ q ∨ t.trip = true) ∧
      (464 ≤ q → u.stop = true)) ∧
  (∀ t : TsReg, t.masked = false → let u := t.convert .fail
    u.temp = t.temp ∧ u.valid = true ∧ u.fail = true ∧ u.hot = true ∧ u.cap = true ∧ u.trip = t.trip) ∧
  (∀ t : TsReg, t.fail = true → let u := t.convert .masked
    u.temp = t.temp ∧ u.masked = true ∧ u.hot = false ∧ u.cap = false ∧ u.trip = t.trip) ∧
  (∀ s : State, s.railsOff.dv.power.thermtrip = true ∧ s.railsOff.dv.power.pgood = false ∧ s.railsOff.dv.power.coresOn = false ∧
    ∀ r, r ∈ s.railsOff.dv.power.on ↔ r = 6 ∧ 6 ∈ s.dv.power.on) ∧
  (∀ s : State, s.dv.power.thermtrip = true → (∀ e ∈ s.ts, e.2.masked = true ∨ (e.2.fail = false ∧ e.2.temp < 360)) →
    ∃ t : State, exec .railsReenable s = .next t ∧ t.pnow = 7 ∧ t.dv.power.coresOn = true ∧ t.dv.power.pgood = true ∧
      4 ∈ t.dv.power.on ∧ 5 ∈ t.dv.power.on ∧
      t.dv.power.thermtrip = false ∧ t.cores = s.cores) ∧
  (∀ s : State, (s.dv.power.thermtrip = false ∨ ∃ e ∈ s.ts, e.2.masked = false ∧ 360 ≤ e.2.temp) → exec .railsReenable s = .next s))

/-! ### Events of copies and streams -/

/-- A transfer at the head of the only queue in use, which no gate and no fence keeps back, becomes active; a local one moves from the
same tick on and another in a slot of the tile; one that has completed on an earlier tick leaves its queue (R324, R333, R335). A
tick that is not the tile's puts the tile's next slot on the agenda; in a slot of the tile the next queue in turn that has elements to
move takes up to 128 bytes of them in runs, each of which sets out for its source, and another slot follows while any queue has
more; a slot with nothing to move changes nothing (R325). A run at its source is read in its turn, and what it has read is on its
way to its destination; there, in its turn, it is written, in memory line by line, and reported; an error of the host or a peer
stops the transfer at its element (R328, R329, R339). A local transfer moves on each tick while it has elements left (R335). A
report counts down, and the last one of a transfer that has written all, or was cancelled, ends it; an error report stops the
transfer at its element with COPY_FAULT, cause 3, unless it was cancelled (R329, R339, R342).
A fetch of a bound input stream reads its vector, which can be popped q + 4 ticks later, and the next fetch follows q ticks after it
while the buffer has room; a vector that is ready stands last in the buffer (R284). A pushed vector of an output stream starts its
write; the one that lands first is in the scratchpad as at the end of the tick before, and the tokens of the drains that waited for it
complete, which leaves the slot DONE (R284, R285). -/
def Obligations.CopyAndStreamEvents : Prop :=
  (∀ (s : State) (l : Loc) (q : Nat) (x : Xfer), s.inFg l = true → q < 4 → (s.ctx l).cq = [(q, [x])] → (s.ctx l).qfence = [] →
    (x.fin = none → x.act = false → x.gate ≤ s.tick →
      ∃ t : State, exec (.copyTransferStart l q) s = .next t ∧ (t.ctx l).queue q = [{ x with act := true }] ∧ t.mem = s.mem ∧
        (x.cp.isLocal = true → (s.tick, .localCopyMove l q) ∈ t.agenda) ∧
        (x.cp.isLocal = false → ∃ e ∈ t.agenda, ∃ err, e.2 = .copySlotMove ⟨l, err, none⟩)) ∧
    (∀ n, x.fin = some n → n ≤ s.tick → x.nt = false →
      ∃ t : State, exec (.copyTransferStart l q) s = .next t ∧ (t.ctx l).queue q = [] ∧ t.mem = s.mem)) ∧
  (∀ (s : State) (l : Loc) (err : Bool),
    (s.tick % 16 ≠ tileX l.tile → exec (.copySlotMove ⟨l, err, none⟩) s = .next (s.slotAt l s.tick)) ∧
    (s.tick % 16 = tileX l.tile → nextTurn s l = none → exec (.copySlotMove ⟨l, err, none⟩) s = .next s) ∧
    (∀ q x r, s.tick % 16 = tileX l.tile → nextTurn s l = some q → (s.ctx l).queue q = x :: r →
      let u := (s.updCtx l fun c => { c with cpTurn := q }).slotRuns l q (128 / max x.cp.ssz x.cp.dsz)
      exec (.copySlotMove ⟨l, err, none⟩) s = .next (if (List.range 4).any (ableAt u l) = true then u.slotAt l (u.tick + 1) else u)) ∧
    (∀ x q most, let t := State.takeElems l x q most { s := s }
      t.n ≤ most ∧ (t.runs.map (·.n)).sum = t.n ∧ ∀ r ∈ t.runs, r.q = q ∧ r.lands = false ∧ x.next ≤ r.elem)) ∧
  (∀ (s : State) (l : Loc) (r : CopyRun) (x : Xfer) (rest : List Xfer) (err : Bool), (s.ctx l).queue r.q = x :: rest → r.elem < x.next →
    (r.lands = false → (x.read ≠ r.elem → exec (.copySlotMove ⟨l, err, some r⟩) s = .next (s.schedIn 1 (.copySlotMove ⟨l, false, some r⟩))) ∧
      (x.read = r.elem →
        let e := State.moveElems l x err r.elem r.n { s := s, m := x.fly.flatMap (·.m) }
        let u := e.s.updXfer l r.q fun y => { y with read := y.read + e.n, out := y.out + 1, fly := inFlight s l x r e :: y.fly }
        e.n ≠ 0 → e.held = none → exec (.copySlotMove ⟨l, err, some r⟩) s = .next
          ((u.packet l.part (u.farthest (x.dataLegs l true r.srcs (e.n * x.cp.ssz)) ++
              u.farthest (x.dataLegs l false r.dsts (e.n * x.cp.dsz)))
            (.copySlotMove ⟨l, false, some { r with n := e.n, lands := true }⟩)).runOver l r.q))) ∧
    (r.lands = true → x.landed ≠ r.elem →
      exec (.copySlotMove ⟨l, err, some r⟩) s = .next (s.schedIn 1 (.copySlotMove ⟨l, false, some r⟩))) ∧
    (r.lands = true → x.landed = r.elem →
      let m := bytesOf x r
      let gone (y : Xfer) : Xfer := { y with fly := y.fly.filter fun f => f.elem != r.elem }
      (∀ b ∈ m, ∀ t, b.1 = some t → s.quadAwake t = true) → (∀ b ∈ m, b.1 = none → s.mustWait b.2.1 = false) →
      let u := (s.landMoved l m).updXfer l r.q fun y => { gone y with landed := y.landed + r.n }
      ((err = false ∨ none ∉ r.dsts) → x.reported l r.dsts = [] →
        exec (.copySlotMove ⟨l, err, some r⟩) s = .next (u.runOver l r.q)) ∧
      ((err = false ∨ none ∉ r.dsts) → x.reported l r.dsts ≠ [] → exec (.copySlotMove ⟨l, err, some r⟩) s = .next
        (u.packet l.part (u.farthest ((x.reported l r.dsts).map fun e =>
          [({ order := x.rorder, src := e, dst := some l.tile } : Leg)])) (.copyWriteReport l r.q r.elem false))) ∧
      (err = true → none ∈ r.dsts → exec (.copySlotMove ⟨l, err, some r⟩) s = .next
        ((s.updXfer l r.q fun y => (gone y).stopAt r.elem (0x0E, 3)).runOver l r.q)))) ∧
  (∀ (s : State) (l : Loc) (m : Moved) (line : Nat), isHome (128 * line) = true → (∀ b ∈ m, b.1 = none ∧ b.2.1 / 128 = line) →
    (s.landMoved l m).mem = s.mem.setMany (m.reverse.map fun b => (b.2.1, b.2.2.1))) ∧
  (∀ (s : State) (l : Loc) (q : Nat) (x : Xfer) (r : List Xfer), (s.ctx l).queue q = x :: r →
    (x.moving = true →
      let u := s.localMove l q
        (if x.cp.contig then min (128 / x.cp.ssz) (x.cp.cnt 0 - x.next % max 1 (x.cp.cnt 0)) else 1)
      exec (.localCopyMove l q) s = .next
        (if ((u.ctx l).queue q).head?.any Xfer.moving = true then u.schedIn 1 (.localCopyMove l q) else u)) ∧
    (s.inFg l = true → ∀ elem,
      (x.out ≠ 1 → 0 < x.out → x.solo = false →
        exec (.copyWriteReport l q elem false) s = .next (s.updCtx l fun c => c.updHead q fun x => { x with out := x.out - 1 })) ∧
      (x.out = 1 → x.stands = true → (x.cancelled = true ∨ (x.pend = none ∧ x.landed = x.cp.total)) →
        exec (.copyWriteReport l q elem false) s = .next
          ((s.updCtx l fun c => c.updHead q fun x => { x with out := x.out - 1 }).copyDone l q)) ∧
      (x.cancelled = true → exec (.copyWriteReport l q elem true) s = exec (.copyWriteReport l q elem false) s) ∧
      (x.cancelled = false → elem ≤ x.next → x.out = 1 → x.stands = true → ∃ (u : State) (y : Xfer),
        exec (.copyWriteReport l q elem true) s = .next (u.copyTrap l y q 0x0E 3 elem) ∧
        (u.ctx l).queue q = y :: r ∧ y = { x with
          out := 0, next := elem, read := min x.read elem, landed := min x.landed elem, pend := some (0x0E, 3) } ∧
        u.mem = s.mem ∧ u.agenda = s.agenda))) ∧
  (∀ (s : State) (l : Loc) (v : Nat),
    (let u := s.landAt l
     let x := (u.ctx l).slot v
     let n := (u.ctx l).now u.tick
     let q := (u.ctx l).streamQ v
     x.st = .bound → x.dir = false → x.moved < x.total →
      let w := (u.updCtx l fun c => c.updSlot v fun y =>
        { y with fly := y.fly ++ [(u.ctx l).fetchVec x x.moved], moved := y.moved + 1, lastF := n }).schedAt l (n + q + 4)
          (.streamVectorReady l v)
      exec (.streamFetch l v) s = .next
        (if x.moved + 1 < x.total ∧ x.moved + 1 < x.pos + 8 then w.schedAt l (n + q) (.streamFetch l v) else w)) ∧
    exec (.streamVectorReady l v) s = .next (s.updCtx l fun c => c.updSlot v fun x =>
      { x with buf := x.buf ++ x.fly.take 1, fly := x.fly.tail }) ∧
    exec (.streamWrite l v) s = .next (s.updCtx l fun c => c.updSlot v fun x => { x with moved := x.moved + 1 }) ∧
    (∀ pre post p d, (s.ctx l).pushes = pre ++ p :: post → p.slot = v → p.w.isSome → p.data = some d →
      (∀ x ∈ pre, x.slot = v → ∀ n ∈ x.landsAt, ∀ m ∈ p.landsAt, m < n) →
      (∀ x ∈ post, x.slot = v → ∀ n ∈ x.landsAt, ∀ m ∈ p.landsAt, m ≤ n) →
      let u := (s.updCtx l fun c => { c with pushes := pre ++ post }).engWrite l 1 5
        ((p.cfg.outElems d.2.2 d.2.1).flatMap fun e =>
          addrBytes (p.cfg.elemAddr p.idx e.1).toNat (leBytes (tySize p.cfg.mfmt) e.2.bits))
      (p.toks = [] → exec (.streamWriteLand l v) s = .next (u.quadRest l.tile)) ∧
      (∀ k, p.toks = [k] → p.cur = true → exec (.streamWriteLand l v) s = .next
        (((u.updCtx l fun c => c.updSlot v fun x => { x with st := .done }).tokDone l k
          ((s.ctx l).now s.tick)).quadRest l.tile))))

/-! ### Events of the array slice -/

/-- What both lanes have ended by then has left them. What heads a lane starts on the tick on which the lane is free and what it needs is there, and a gang's operation with the gang, at its
tile 0; else the lane looks again at the tick on which it can start (R346, R354, R364). An operation with rows that starts keeps the
front plane as it stands, and its first row enters on that tick (R355). A row that can be read enters, and the next one after its
interval; of a load the row is kept, of a gang's operation every tile takes it, and else its result is on its way; a row that waits is
tried on the next tick, and one whose data traps halts the context and is tried again after it (R311, R352, R354, R359, R363). The row
of an operation with a descriptor is read from the scratchpad (R351). A result that lands is added to its accumulator row and the
operation is cleared away when nothing of it is to come: mm, mmg and mmrot add their products to row r0 + row of their accumulator, or
with .z start from +0; splev and splev.g do so in the columns that the plane has outputs for; macwr replaces the row; macrd stores it to
the scratchpad at the end of the tick (R355, R361, R362, R369, R370, R386). A plane that is loaded takes effect on its tick, and one that
is refined too (R354, R360, R392). -/
def Obligations.ArrayOperationEvents : Prop :=
  (∀ (s : State) (l : Loc),
    (∀ load,
      let u := (s.laneTurn l true).laneTurn l false
      let n := (s.ctx l).now s.tick
      ((u.ctx l).arr64.head load = none → exec (.arrayOpStart l load) s = .next (u.arrKick l)) ∧
      (∀ o, (u.ctx l).arr64.head load = some o → isGang o.i = false →
        (∀ t, (u.ctx l).arr64.startAt o = some t → t ≤ n → o.notBefore ≤ u.tick →
          exec (.arrayOpStart l load) s = .next ((u.opStart l o n).arrKick l)) ∧
        ((∀ t, (u.ctx l).arr64.startAt o = some t → n < t ∨ u.tick < o.notBefore) →
          exec (.arrayOpStart l load) s = .next (u.arrKick l))) ∧
      (∀ o t, (u.ctx l).arr64.head load = some o → isGang o.i = true → u.gangStartAt (gangOf l.tile) l.part = some t → t ≤ n →
        tileX l.tile = 0 → o.notBefore ≤ u.tick →
        exec (.arrayOpStart l load) s = .next ((u.gangStart (gangOf l.tile) l.part n).arrKick l))) ∧
    (∀ op row o, (s.ctx l).arr64.op op = some o →
      (s.rowRead l o row = .wait → exec (.arrayRowEntry l op row) s = .next (s.schedIn 1 (.arrayRowEntry l op row))) ∧
      (∀ u code, s.rowRead l o row = .trap u code →
        exec (.arrayRowEntry l op row) s = .next (u.sliceTrap l o code (.arrayRowEntry l op row))) ∧
      (∀ u vals bytes, s.rowRead l o row = .row u vals bytes →
        (∀ t b c sc x y k, o.i ≠ .mwld t b c sc x y k ∧ o.i ≠ .splld t b c sc x y k) →
        let v := u.rowSide l o row ((s.ctx l).now s.tick) vals bytes
        let w := if isGang o.i = true then (gangLocs (gangOf l.tile) l.part).foldl (fun s' m =>
            match ((s'.ctx m).arr64.ops.find? fun y => isGang y.i && y.start == o.start) with
            | some y => s'.rowGo m y.id row ((s.ctx l).now s.tick) (tileX m.tile) vals
            | none => s') v
          else v.rowGo l op row ((s.ctx l).now s.tick) 0 vals
        exec (.arrayRowEntry l op row) s = .next
          (if row + 1 < o.rows then w.schedIn (o.off (row + 1) - o.off row) (.arrayRowEntry l op (row + 1)) else w)) ∧
      (∀ u vals bytes t b c sc x y k, s.rowRead l o row = .row u vals bytes →
        (o.i = .mwld t b c sc x y k ∨ o.i = .splld t b c sc x y k) → row + 1 < o.rows →
        exec (.arrayRowEntry l op row) s = .next ((u.updArr l fun a => a.updOp op fun o =>
          { o with rowsIn := Tbl.put o.rowsIn row vals, landed := if row < o.rows then row :: o.landed else o.landed }).schedIn
            (o.off (row + 1) - o.off row) (.arrayRowEntry l op (row + 1))))) ∧
    (∀ op row o, onlyOp s l op o → row ∉ o.landed → exec (.arrayResultLand l op row) s = .next
      ((s.rowLand l o row).updArr l fun a => a.prune ((s.ctx l).now s.tick))) ∧
    (∀ op, (∀ o, (s.ctx l).arr64.op op = some o → isRefine o.i = false ∨ o.taken = true) →
      exec (.planeTakeEffect l op) s = .next (s.updArr l fun a => a.takeDue ((s.ctx l).now s.tick))) ∧
    (∀ op o, (s.ctx l).arr64.op op = some o → isRefine o.i = true → o.taken = false →
      exec (.planeTakeEffect l op) s = .next (s.updArr l fun a => (a.take o).takeDue ((s.ctx l).now s.tick)))) ∧
  (∀ (s : State) (l : Loc) (o : ArrOp) (n : Nat), s.inFg l = true → (s.ctx l).arr64.ops = [o] → actsAtOnce o.i = false →
    isRot o.i = false → isSpline o.i = false → (s.ctx l).now s.tick ≤ n →
    ((s.opStart l o n).ctx l).arr64.ops = [{ o with start := some n, plane := (s.ctx l).arr64.front, kn := s.knots l.tile }] ∧
      (s.tick + (n - (s.ctx l).now s.tick), .arrayRowEntry l o.id 0) ∈ (s.opStart l o n).agenda) ∧
  (∀ (s : State) (l : Loc) (o : ArrOp) (row : Nat) (w : MmOp), o.i = .mm w → o.strm = none →
    let u := s.landAt l
    (u.ctx l).spBad (o.rowAddr row) (64 * tySize o.aty) = false → s.rowRead l o row = .row u
      (elemsOf (tySize o.aty) 64 ((u.ctx l).sp.bytes (o.rowAddr row) (64 * tySize o.aty)))
      ((u.ctx l).sp.bytes (o.rowAddr row) (64 * tySize o.aty))) ∧
  (∀ (s : State) (l : Loc) (o : ArrOp) (row : Nat), s.inFg l = true → (s.ctx l).arr64.ops = [o] →
    let t := s.rowLand l o row
    let vals := Tbl.get [] o.rowsIn row
    let acc := if o.z then List.replicate 64 0 else (s.ctx l).accRow o.d (o.r0 + row)
    (∀ w z d, (o.i = .mm w ∨ o.i = .mmg w ∨ o.i = .mmrot z d) →
      (t.ctx l).a = ((s.ctx l).setAccRow o.d (o.r0 + row) (mmRow o.plane o.aty vals acc)).a) ∧
    (∀ w, (o.i = .splev w ∨ o.i = .splevG w) → (t.ctx l).a = ((s.ctx l).setAccRow o.d (o.r0 + row)
      ((splRow o.plane o.aty o.kn vals acc).take o.plane.outs)).a) ∧
    (∀ ty w, o.i = .macwr ty w → (t.ctx l).a = ((s.ctx l).setAccRow o.d (o.r0 + row) vals).a) ∧
    (∀ ty r sat w, o.i = .macrd ty r sat w → (t.ctx l).a = (s.ctx l).a ∧ (t.ctx l).spw = ((s.ctx l).spWrite (s.engNow l) 1
      (addrBytes (o.rowAddr row) (vals.flatMap fun v => leBytes (tySize ty) v))).spw) ∧
    (t.ctx l).v = (s.ctx l).v ∧ (t.ctx l).s = (s.ctx l).s ∧ t.mem = s.mem) ∧
  (∀ (a : Arr64) (o : ArrOp) (f n : Nat) (ty : Ty) (back cmp : Bool) (sc x y : BitVec 6) (k : BitVec 3), a.ops = [o] →
    o.taken = false → o.free = some f → f ≤ n → o.i = .mwld ty back cmp sc x y k →
    (a.takeDue n).back = (if back then o.latched.1 else a.back) ∧ (a.takeDue n).front = (if back then a.front else o.latched.1))

/-- The gang's barrier with sixteen arrivals, 4 ticks after the last, forgets them and releases every tile's waiting operation and
strand; in a timed phase fewer are a mismatch, and in an elastic one it waits on (R364, R365). knot's landing replaces the gang's knot
set, and of two that land on one tick that of the higher x stands, in whichever order they come (R384). mmrot: what a neighbour sends to a tile that performs it lands, a row of the operand in the scratchpad at the end of the
tick, a row of the weights and their format in the back plane; what comes to a tile that performs none is early, and where its strand
is live its context halts with EXCHANGE_LATE; a tile in which nothing is missing looks again on the next tick while anything is
to come, and one in which something is missing traps, once (R366, R367). At the end a back plane of the front's format becomes the
front and the front the back; another format traps with ARRAY_FORMAT; after a trap, or where something is missing, no plane is
exchanged (R366, R367). -/
def Obligations.GangAndRotationEvents : Prop :=
  (∀ (s : State) (g p : Nat),
    (∀ (l : Loc) lo inv gg mode, let at_ := (s.gang (gangOf l.tile)).knAt
      ((at_.1 ≠ s.tick ∨ at_.2 ≤ tileX l.tile) → exec (.knotLand l lo inv gg mode) s = .next (s.updGang (gangOf l.tile) fun x =>
        { x with lo := lo, inv := inv, g := gg, mode := mode, knAt := (s.tick, tileX l.tile) })) ∧
      (at_.1 = s.tick → tileX l.tile < at_.2 → exec (.knotLand l lo inv gg mode) s = .next (s.updGang (gangOf l.tile) id))) ∧
    (∀ (l m : Loc) lo inv gg mode lo' inv' gg' mode', gangOf l.tile = g → gangOf m.tile = g → tileX m.tile < tileX l.tile →
      (s.gang g).knAt.1 ≠ s.tick →
      ∃ t u v w : State, exec (.knotLand l lo inv gg mode) s = .next t ∧ exec (.knotLand m lo' inv' gg' mode') t = .next u ∧
        exec (.knotLand m lo' inv' gg' mode') s = .next v ∧ exec (.knotLand l lo inv gg mode) v = .next w ∧
        ((u.gang g).lo, (u.gang g).inv, (u.gang g).g, (u.gang g).mode) = (lo, inv, gg, mode) ∧
        ((w.gang g).lo, (w.gang g).inv, (w.gang g).g, (w.gang g).mode) = (lo, inv, gg, mode)) ∧
    (∀ a r, ((s.gang g).arrs.filter fun a => a.1 == p) = a :: r → r.length < 15 →
      (s.ctx ⟨a.2.1, p⟩).kind ≠ .elastic → exec (.gangBarrierRelease g p) s = .next (s.gangMismatch g p)) ∧
    (∀ a r, ((s.gang g).arrs.filter fun a => a.1 == p) = a :: r → r.length < 15 →
      (s.ctx ⟨a.2.1, p⟩).kind = .elastic → exec (.gangBarrierRelease g p) s = .next s) ∧
    (∀ a r, ((s.gang g).arrs.filter fun a => a.1 == p) = a :: r → r.length = 15 →
      (a :: r).foldl (fun m a => max m a.2.2.2.2) 0 + 4 ≤ (s.ctx ⟨a.2.1, p⟩).now s.tick →
      exec (.gangBarrierRelease g p) s = .next (((gangLocs g p).foldl (passGang ((s.ctx ⟨a.2.1, p⟩).now s.tick))
        (s.updGang g fun x => { x with arrs := x.arrs.filter fun a => a.1 != p })).arrKick ⟨g * 16, p⟩)) ∧
    (∀ n l o, s.inFg l = true → (s.ctx l).arr64.ops = [o] → isGang o.i = true → o.inLane = true → o.start = none → o.rel = none →
      (s.ctx l).block = .mmg → ((passGang n s l).ctx l).arr64.ops = [{ o with rel := some n }] ∧
        ((passGang n s l).ctx l).block = .none)) ∧
  (∀ (s : State) (l : Loc) (src : Nat),
    (∀ o, (s.ctx l).arr64.rot = some o →
      let mark (key : Nat) : State := s.updArr l fun a => a.updOp o.id fun x => { x with got := key :: x.got }
      (∀ row bs pz, row ∉ o.got → exec (.mmrotShiftLand l src (.aRow row bs pz)) s = .next ((mark row).engWrite l 0 1
        (addrBytes (o.rowAddr row) bs)
        (if pz then (List.range bs.length).map (fun i => (o.rowAddr row + i) / 8) |>.eraseDups else []))) ∧
      (∀ k codes, 64 + k ∉ o.got → exec (.mmrotShiftLand l src (.wRow k codes)) s = .next ((mark (64 + k)).updArr l fun a =>
        { a with back := { a.back with cols := setWRow a.back.cols k codes } })) ∧
      (∀ ty spl cmp scl, 128 ∉ o.got → exec (.mmrotShiftLand l src (.state ty spl cmp scl)) s = .next ((mark 128).updArr l fun a =>
        { a with back := { a.back with ty := ty, spl := spl, cmp := cmp, scl := scl, cells := [] } })) ∧
      ((∀ k ∈ o.owed (s.engNow l), k ∈ o.got) → exec (.mmrotShiftLand l src .due) s = .next
        (if (o.owed (s.engNow l + 4096)).all (o.owed (s.engNow l)).contains = true then s
         else s.schedIn 1 (.mmrotShiftLand l l.tile .due))) ∧
      ((∃ k ∈ o.owed (s.engNow l), k ∉ o.got) → o.bad = false → runs s l →
        ∃ t : State, exec (.mmrotShiftLand l src .due) s = .next t ∧ trapped s t l 2 0x06 ∧ t.mem = s.mem)) ∧
    ((s.ctx l).arr64.rot = none → (s.ctx l).live = true → runs s l → ∀ row bs pz,
      ∃ t : State, exec (.mmrotShiftLand l src (.aRow row bs pz)) s = .next t ∧ trapped s t l 2 0x06 ∧ (t.ctx l).spw = (s.ctx l).spw) ∧
    ((s.ctx l).arr64.rot = none → exec (.mmrotShiftLand l src .due) s = .next s)) ∧
  (∀ (s : State) (l : Loc) (op : Nat) (o : ArrOp), (s.ctx l).arr64.op op = some o →
    ((∀ k ∈ o.owed (s.engNow l), k ∈ o.got) →
      (o.bad = false → o.noEx = false → (s.ctx l).arr64.back.fmt = (s.ctx l).arr64.front.fmt →
        exec (.mmrotPlaneExchange l op) s = .next (s.updArr l fun a =>
          { a.updOp op fun x => { x with taken := true } with
            front := (s.ctx l).arr64.back, back := (s.ctx l).arr64.front })) ∧
      (o.bad = false → o.noEx = false → (s.ctx l).arr64.back.fmt ≠ (s.ctx l).arr64.front.fmt →
        exec (.mmrotPlaneExchange l op) s = .next (s.sliceTrap l o 0x16 (.mmrotPlaneExchange l op))) ∧
      ((o.bad = true ∨ o.noEx = true) →
        exec (.mmrotPlaneExchange l op) s = .next (s.updArr l fun a => a.updOp op fun x => { x with taken := true }))) ∧
    ((∃ k ∈ o.owed (s.engNow l), k ∉ o.got) → s.inFg l = true →
      ∃ t : State, exec (.mmrotPlaneExchange l op) s = .next t ∧ (t.ctx l).arr64.front = (s.ctx l).arr64.front ∧
        (t.ctx l).arr64.back = (s.ctx l).arr64.back ∧ t.mem = s.mem))

/-! ### Events of the networks -/

/-- A class-7 packet brings its stop record. A message that still reads its buffer takes its next piece; one for another device leaves
by its port, and one of another device goes by its route from the attach port to its tile, as the acknowledgement of one goes to
it, in class 1 and in the request's order, with its error; at its destination it is acknowledged and placed by the posted handle that it meets, else in the overflow area, else held with RECV_OVERFLOW; for a partition that is not live
it is discarded and its acknowledgement carries an error. A landed payload completes its handle and, on the same tick, its
token; a held message is offered again; an acknowledgement completes the sender's token on the next tick, and an error halts
it with PROTECTION. -/
def Obligations.MessageEvents : Prop :=
  (∀ (s : State) (m : Msg), let l : Loc := ⟨m.tile, m.part⟩
    (m.stop = none → m.leaving = false → m.bytes.length < m.len → m.srcDev = s.dv.cfg.devno →
      exec (.messageArrival m) s = .next (s.readPiece m)) ∧
    (∀ r, m.stop = some r → exec (.messageArrival m) s = .next (s.report r)) ∧
    let here := m.stop = none ∧ m.leaving = false ∧ (m.srcDev = s.dv.cfg.devno → m.bytes.length = m.len) ∧
      (m.srcDev ≠ s.dv.cfg.devno → m.entered = true)
    (m.stop = none → m.leaving = true → ∀ port, s.zheostPort (m.srcTile ^^^ m.tile) = some port →
      ∃ t : State, exec (.messageArrival m) s = .next t ∧
        (if m.srcDev = s.dv.cfg.devno then m.dev else m.srcDev, { m with port := port }) ∈ t.dv.sent ∧ t.mem = s.mem) ∧
    (m.stop = none → m.leaving = false → m.srcDev ≠ s.dv.cfg.devno → m.entered = false → ∀ n,
      s.legTime [{ order := m.order, src := none, dst := some m.tile, bytes := m.len }] = .ok n →
      ∃ t w u, exec (.messageArrival m) s = .next t ∧ s.tick + n ≤ w ∧ (w, .messageArrival u) ∈ t.agenda ∧ u.entered = true ∧
        { u with entered := false, detour := m.detour } = m ∧ t.mem = s.mem) ∧
    (m.srcDev ≠ s.dv.cfg.devno → ∀ err n, s.legTime [{ order := m.rorder, src := some m.tile, dst := none }] = .ok n →
      ∃ w u, (w, .messageArrival u) ∈ (s.ackMsg m err).agenda ∧ s.tick + n ≤ w ∧ u.leaving = true ∧ u.cls = 1 ∧
        u.order = m.rorder ∧ u.err = err ∧ u.srcDev = m.srcDev ∧ u.tok = m.tok) ∧
    (here → s.partLive m.part = false → exec (.messageArrival m) s = .next (s.ackMsg m true)) ∧
    exec (.deadPartitionPacket m) s = .next (s.ackMsg m true) ∧
    (here → s.partLive m.part = true → (s.core m.tile).held = [] → s.receives l = true →
      (∀ u, s.offer l m = some u → exec (.messageArrival m) s = .next u) ∧
      (s.offer l m = none → let u := s.trapEngine l 4 cRecvOverflow 0 0 0
        exec (.messageArrival m) s = .next (u.setCore m.tile { u.core m.tile with held := (u.core m.tile).held ++ [m] }))) ∧
    (∀ e, ((s.ctx l).recvT.filter fun e => e.2.st == .posted && meets e.2.crit m) = [e] →
      s.offer l m = some ((s.takeMsg l e.1 m false).ackMsg m false)) ∧
    (((s.ctx l).recvT.filter fun e => e.2.st == .posted && meets e.2.crit m) = [] →
      ((s.ctx l).ovf.length < 16 → (s.ctx l).ovfBytes + ovfSize m ≤ 32768 →
        s.offer l m = some ((s.updCtx l fun c => { c with ovf := c.ovf ++ [m] }).ackMsg m false)) ∧
      (16 ≤ (s.ctx l).ovf.length ∨ 32768 < (s.ctx l).ovfBytes + ovfSize m → s.offer l m = none))) ∧
  (∀ (s : State) (l : Loc),
    (∀ h, ((s.ctx l).handle h).st = .landing → ((s.ctx l).handle h).tok = none → ((s.ctx l).handle h).nt = false →
      ((s.ctx l).handle h).hidden = false → exec (.messageLand l h) s = .next
        ((s.updCtx l fun c => c.setHandle h { (s.ctx l).handle h with st := .complete }).changed l)) ∧
    (∀ h k, ((s.ctx l).handle h).st = .landing → ((s.ctx l).handle h).tok = some k → ((s.ctx l).handle h).nt = false →
      ((s.ctx l).handle h).hidden = false → exec (.messageLand l h) s = .next
        (((s.updCtx l fun c => c.setHandle h { (s.ctx l).handle h with st := .complete }).tokDone l k
          ((s.ctx l).now s.tick)).changed l)) ∧
    (∀ h d pc dev, ((s.ctx l).handle h).st = .complete → ((s.ctx l).handle h).hidden = true →
      (s.ctx l).block = .recv h d pc dev → exec (.messageLand l h) s = .next
        (((s.recvEnd l h ((s.ctx l).sdst d.toNat)).updCtx l fun c => { c with block := .none }).uiPoll l)) ∧
    ((s.core l.tile).held = [] → exec (.heldMessageReoffer l.tile) s = .next
      (s.setCore l.tile { s.core l.tile with held := [] })) ∧
    (∀ m u, (s.core l.tile).held = [m] → m.part = l.part → s.partLive l.part = true → s.receives l = true →
      s.offer l m = some u → exec (.heldMessageReoffer l.tile) s = .next (u.setCore l.tile { u.core l.tile with held := [] })) ∧
    (s.classHeld l.tile 1 = false → ∀ k pc, exec (.sendAckArrival l k false pc) s = .next (s.tokDone l k ((s.ctx l).now s.tick + 1))) ∧
    (s.classHeld l.tile 1 = false → ∀ k pc, exec (.sendAckArrival l k true pc) s = .next (s.trapEngine l 4 cProtection pc (3 * 2 ^ 62) 0)))

/-- Tree events. A child's contribution is noted where the port is a child's, and else, or where the tile is no member, halts the
context, as does one whose operation is over at this tile, a bcast; a child device's goes by its route to the root tile and is
combined there; a result or a
release that meets the member's own operation of its kind is applied, and one that differs halts the context and comes again;
a result before the member's word waits for it. -/
def Obligations.TreeEvents : Prop :=
  ∀ (s : State) (l : Loc) (slot k : Nat),
    (∀ port kind v nf, ((s.ctx l).tree slot).up ≠ 7 → ((s.ctx l).tree slot).kids / 2 ^ portNo port % 2 = 1 →
      (k < ((s.ctx l).tree slot).n → ((s.ctx l).treeOp slot k).isSome) →
      exec (.treeContributionArrival l slot k port kind v nf) s = .next
        ((s.updCtx l (·.updTree slot k fun o => { o with kidsIn := o.kidsIn ++ [(portNo port, kind, v, nf)] })).treeStep l slot k)) ∧
    (∀ port kind v nf, ((s.ctx l).tree slot).up = 7 ∨ ((s.ctx l).tree slot).kids / 2 ^ portNo port % 2 = 0 →
      exec (.treeContributionArrival l slot k port kind v nf) s = .next (s.treeTrap l (s.ctx l).pc)) ∧
    (∀ port kind v nf, ((s.ctx l).tree slot).up ≠ 7 → ((s.ctx l).tree slot).kids / 2 ^ portNo port % 2 = 1 →
      k < ((s.ctx l).tree slot).n → (s.ctx l).treeOp slot k = none → runs s l →
      ∃ t : State, exec (.treeContributionArrival l slot k port kind v nf) s = .next t ∧ trapped s t l 4 0x02 ∧ t.mem = s.mem) ∧
    (∀ o v nf, ownOp s l slot k o → exec (.treeResultArrival l slot k o.kind v nf) s = .next (s.treeApply l slot o o.kind v nf)) ∧
    (∀ o kind v nf, ownOp s l slot k o → kind ≠ o.kind →
      ∃ t : State, exec (.treeResultArrival l slot k kind v nf) s = .next t ∧ t.mem = s.mem ∧
        (runs s l → trapped s t l 4 0x02) ∧ ∃ n, s.tick < n ∧
          (n, if isXbar o.kind = true then .xbarRelease l slot k else .treeResultArrival l slot k o.kind v nf) ∈ t.agenda) ∧
    (∀ kind v nf, (s.ctx l).treeOp slot k = none → exec (.treeResultArrival l slot k kind v nf) s = .next
      (s.updCtx l (·.updTree slot k fun o => { o with res := some (kind, v, nf) }))) ∧
    (∀ o, ownOp s l slot k o → exec (.xbarRelease l slot k) s = .next (s.treeApply l slot o .xbar 0 false)) ∧
    (∀ child kind v nf o r, (s.ctx l).treeList slot = o :: r → isBcast o.kind = false → (∀ x ∈ o.peersIn, x.1 ≠ child) →
      exec (.peerTreeCombine l slot ⟨child, true⟩ kind v nf) s = .next
        ((s.updCtx l (·.updTree slot o.k fun o => { o with peersIn := o.peersIn ++ [(child, kind, v, nf)] })).treePeers l slot o.k)) ∧
    (∀ child kind v nf n, s.legTime [{ order := 0, src := none, dst := some l.tile, bytes := kindBytes kind }] = .ok n →
      exec (.peerTreeCombine l slot ⟨child, false⟩ kind v nf) s = .next
        (s.schedFree n (.peerTreeCombine l slot ⟨child, true⟩ kind v nf)))

/-- Routers and ports. A hop blocked on a detour is a failure of the router. When a router fails every running partition halts, with
UNCORRECTABLE where it lost a packet and with cause 0 where not; the recovery comes at some later tick, and again until every halt is
delivered. Then the failed tiles are harvested and every table is rewritten, with a plan whose tables are fit, or another plan is
tried; each partition that a newly harvested tile or a lost packet strikes is restored or ended, and one halted with cause 0 is
resumed. A port whose retries are exhausted goes down, and each partition that lost a packet with it halts with UNCORRECTABLE; a
restored port comes back. -/
def Obligations.RouterEvents : Prop :=
  ∀ (s : State),
    (∀ tile part, exec (.detourBlocked tile part) s = .next (s.sched s.tick (.routerFailure tile { parts := [part] }))) ∧
    (∀ tile ps, ∃ t : State, exec (.routerFailure tile { parts := ps }) s = .next t ∧ tile ∈ t.dv.failed ∧ t.mem = s.mem ∧
      (tile ∉ s.dv.failed → ∃ n, s.tick < n ∧ (n, .routerFailure tile { recover := true }) ∈ t.agenda) ∧
      ∀ e ∈ s.parts, (s.part e.1).st = .active → (t.part e.1).st = .halting ∧ (t.part e.1).haltAt = s.tick + 24 ∧
        ((s.part e.1).cause = none → (t.part e.1).cause.map (·.2.2.2) = some (if e.1 ∈ ps then 0x13 else 0))) ∧
    (∀ tile, tile ∈ s.dv.failed → (∃ e ∈ s.parts, e.2.st ≠ .halted) → ∃ (t : State) (n : Nat),
      exec (.routerFailure tile { recover := true }) s = .next t ∧ t.mem = s.mem ∧ t.dv.failed = s.dv.failed ∧ s.tick < n ∧
        (n, .routerFailure tile { recover := true }) ∈ t.agenda) ∧
    (∀ tile, tile ∈ s.dv.failed → (∀ e ∈ s.parts, e.2.st = .halted) → let x := s.harvestFailed
      exec (.routerFailure tile { recover := true }) s = .next
        (if x.1.tablesOk = true then
          (x.1.parts.map (·.1)).foldl (State.recoverPart x.2) { x.1 with dv := { x.1.dv with failed := [] } }
        else State.schedFree (tookFree s) 1 (.routerFailure tile { recover := true }))) ∧
    (Tbl.wf 0 s.hv = true → ∀ t ∈ s.dv.failed, t < 4096 →
      (Tbl.get 0 s.harvestFailed.1.hv (t / 64)).getLsbD (t % 64) = true) ∧
    (∀ p new, let hit := (∃ t ∈ new, (s.region (s.part p).root).eff.inBox t = true) ∨ (s.part p).code = 0x13
      (hit → State.recoverPart new s p = s.strike p) ∧
      (¬ hit → (s.part p).st = .halted → (s.part p).code = 0 → State.recoverPart new s p = s.resumePart p) ∧
      (¬ hit → (s.part p).st ≠ .halted ∨ (s.part p).code ≠ 0 → State.recoverPart new s p = s)) ∧
    (∀ p, ((s.part p).ckpt ≠ none → s.strike p = s.sched s.tick (.restore ⟨p, none⟩)) ∧
      ((s.part p).ckpt = none → (s.part p).st = .halted → s.strike p = s.sched s.tick (.endPartition p)) ∧
      ((s.part p).ckpt = none → (s.part p).st ≠ .halted → ∃ n, s.tick < n ∧ (n, .endPartition p) ∈ (s.strike p).agenda)) ∧
    (∀ port lost, exec (.zheostCrcFail port false lost) s = .next s) ∧
    (∀ port lost, ∃ t : State, exec (.zheostCrcFail port true lost) s = .next t ∧ t.mem = s.mem ∧
      t.dv.portsDown = (if port ∈ s.dv.portsDown then s.dv.portsDown else port :: s.dv.portsDown) ∧
      ∀ p ∈ lost, Tbl.has s.parts p = true → (s.part p).st = .active → (t.part p).st = .halting ∧ (t.part p).haltAt = s.tick + 24 ∧
        ((s.part p).cause = none → (t.part p).cause.map (·.2.2.2) = some 0x13)) ∧
    (∀ port, exec (.zheostPortRestore port) s = .next
      { s with dv := { s.dv with portsDown := s.dv.portsDown.filter (· != port) } })

/-! ### Events of the dispenser -/

/-- A start record that can be placed is placed on the dispatch tick, a ballast one while the gate is open and balen is 1; one that
waits on ballast tasks alone pre-empts them then, and one that waits on other lower strands begins its pre-emption delay, once; any
other waits. A placed record stays in the dispenser, marked, and its region loads. A task's strand is recruited on the first slot that it may
have. A recruit starts once its quad is awake and its bank is in the foreground, with every scalar register 0 but three; until then
a ballast task that stands in its way is swapped out, it wakes the quad and looks again on the next tick. -/
def Obligations.PlacingEvents : Prop :=
  ∀ (s : State) (r : Nat),
    (∀ d, s.startRec r = some d →
      (s.startReady d = .wait → exec (.startRecordPlace r) s = .next s) ∧
      (s.startReady d = .go → exec (.startRecordPlace r) s = .next (s.placeStart d)) ∧
      (s.startReady d = .go → s.gov.gate = true → s.dv.cfg.balen = true →
        exec (.ballastDispatch r) s = .next (s.placeStart d)) ∧
      (∀ ps, s.startReady d = .pre ps true → exec (.startRecordPlace r) s = .next (s.preempt d ps)) ∧
      (∀ ps, s.startReady d = .pre ps false → (∀ e ∈ s.agenda, e.2 ≠ .preemptDelayExpiry r) →
        exec (.startRecordPlace r) s = .next (s.schedIn
          ((s.dv.pdelay * 504 + tickUnits s.pnow - 1) / tickUnits s.pnow) (.preemptDelayExpiry r))) ∧
      (∀ ps, s.startReady d = .pre ps false → (∃ e ∈ s.agenda, e.2 = .preemptDelayExpiry r) →
        exec (.startRecordPlace r) s = .next s)) ∧
    ((s.gov.gate = false ∨ s.dv.cfg.balen = false) → exec (.ballastDispatch r) s = .next s) ∧
    (∀ d, let u := s.placeStart d
      (d ∈ s.recs → { d with placed := true } ∈ u.recs) ∧ u.recs.length = s.recs.length ∧ d ∉ u.toPlace ∧
      (u.region d.region).loading = 1 ∧ (u.region d.region).loaded = []) ∧
    (∀ d st t rest, (s.recs.find? fun d => d.region == r && isTask d) = some d → d.kind = .task st → d.region = r →
      (s.part d.part).st = .active → (d.lvl ≠ 0 ∨ s.ballastOpen = true) → (s.busySlots r).length < (s.region r).eff.tiles →
      taskSlots s d = t :: rest →
      exec (.taskRecordPlace r) s = .next ((dropRec s d).recruit none t st).kick) ∧
    (∀ t st, let l : Loc := ⟨t, (s.region st.region).part⟩
      (s.ctx l).starting = true → s.quadAwake t = true → s.inFg l = true →
      ∃ u : State, exec (.recruitStart t st) s = .next u ∧ (u.ctx l).live = true ∧ (u.ctx l).starting = false ∧
        (u.ctx l).kind = .elastic ∧ (u.ctx l).pc = st.pc ∧ (u.ctx l).region = st.region ∧
        (st.dreg ≠ 1 → st.dreg ≠ 2 → (u.ctx l).sreg 1 = BitVec.ofNat 64 st.s1 ∧ (u.ctx l).sreg 2 = BitVec.ofNat 64 st.s2) ∧
        (∀ n, n ≠ 1 → n ≠ 2 → n ≠ st.dreg → (u.ctx l).sreg n = 0)) ∧
    (∀ t st, let l : Loc := ⟨t, (s.region st.region).part⟩
      (s.ctx l).starting = true → s.quadAwake t = false ∨ s.fgReady l = false →
      exec (.recruitStart t st) s = .next (((recruitWay s t st).wakeQuad t).schedIn 1 (.recruitStart t st))) ∧
    (∀ t st, (s.ctx ⟨t, (s.region st.region).part⟩).starting = false → exec (.recruitStart t st) s = .next s)

/-- Pre-emption: at its delay's end a waiting record goes into the shadow banks of its tiles, where they are free: a region whose code
has room is loaded there, a context to be resumed is reloaded there, and for a region whose code has none what stands in its way is
swapped out first; where the banks are not free it tries again on the next tick. A swap stops the outgoing context on its tick and
tells its ballast strands to yield; the banks exchange 160 ticks later, once it has drained, and it leaves a resume record. Its bank
is then spilled. The resume record is placed once its tiles have a free bank; its context is reloaded once there is room for it and
its code and its quads are awake, what stands in its way is swapped out, and it goes in 160 ticks later, or makes way again. -/
def Obligations.SwapEvents : Prop :=
  ∀ (s : State) (p : Nat),
    (∀ r d ps b, (s.toPlace.find? fun d => d.region == r && (d.kind == .start || d.kind == .resume)) = some d →
      let ready := if d.kind = .resume then s.resumeReady d else s.startReady d
      (ready = .pre ps b → s.canPreempt d ps = true → exec (.preemptDelayExpiry r) s = .next (s.preempt d ps)) ∧
      (ready = .pre ps b → s.canPreempt d ps = false →
        exec (.preemptDelayExpiry r) s = .next (s.schedIn 1 (.preemptDelayExpiry r))) ∧
      (ready = .go → exec (.preemptDelayExpiry r) s = .next s.kick) ∧
      (ready = .wait → exec (.preemptDelayExpiry r) s = .next s)) ∧
    (∀ d ps, s.canPreempt d ps = true →
      let room := ((s.roleOf d.region).map fun ro => s.codeRoom [] (s.region d.region) ro).getD false
      let ts := (s.region d.region).eff.tilesOf
      (d.kind = .resume → s.preempt d ps = (s.mark d).schedFree 1 (.reloadComplete d.part)) ∧
      (d.kind = .start → room = true → s.preempt d ps = s.placeStart d) ∧
      (d.kind = .start → room = false → s.preempt d ps =
        ps.foldl (fun s p => s.swapOut p d.part) (ts.foldl (fun s t => s.claimBank t d.part) s)) ∧
      (d.kind = .start → room = false → ps = [p] → (s.part p).st = .active →
        let t := s.preempt d ps
        (t.part p).st = .swapping ∧ (t.part p).incoming = some d.part ∧ (s.tick + 160, .bankExchange p d.part) ∈ t.agenda)) ∧
    (∀ d ps, s.canPreempt d ps = false → s.preempt d ps = s) ∧
    (∀ q, s.swapOut p q = (s.yieldAll p).orderSwap p q) ∧
    (∀ q, (s.part p).st = .active → let t := s.orderSwap p q
      (t.part p).st = .swapping ∧ (t.part p).incoming = some q ∧ (t.part p).swapAt = s.tick ∧
        (s.tick + 160, .bankExchange p q) ∈ t.agenda) ∧
    (∀ q, p ≠ q → (s.part p).st = .swapping → s.drained p = false →
      exec (.bankExchange p q) s = .next (s.schedIn 1 (.bankExchange p q))) ∧
    (∀ q, p ≠ q → (s.part p).st = .swapping → s.drained p = true → (s.part q).st = .active →
      ∃ t : State, exec (.bankExchange p q) s = .next t ∧ (t.part p).st = .swapped ∧ t.mem = s.mem ∧
        ∃ d ∈ t.recs, d.kind = .resume ∧ d.part = p) ∧
    (let u := s.swapIn p
     exec (.bankExchange p p) s = .next (if (u.part p).st = .swapped then
       (u.clearWay p (u.recLevel (u.part p).root) (u.strandTiles p)).schedIn 1 (.bankExchange p p) else u)) ∧
    (∀ t, (s.core t).bg.part = some p → (s.part p).st = .swapped → (s.core t).spill = none →
      exec (.spillComplete t) s = .next (s.setCore t { s.core t with bg := {}, spill := some (s.core t).bg }).kick) ∧
    (∀ d, (s.toPlace.find? fun d => d.kind == RKind.resume && d.part == p) = some d →
      (s.resumeReady d = .go → exec (.resumeRecordPlace p) s = .next
        (((s.placesOf p).foldl (fun s l => s.wakeQuad l.tile) (s.mark d)).schedFree 1 (.reloadComplete p))) ∧
      (s.resumeReady d = .wait → exec (.resumeRecordPlace p) s = .next s) ∧
      (∀ ps, s.resumeReady d = .pre ps true → exec (.resumeRecordPlace p) s = .next (s.preempt d ps)) ∧
      (∀ ps, s.resumeReady d = .pre ps false → (∀ e ∈ s.agenda, e.2 ≠ .preemptDelayExpiry d.region) →
        exec (.resumeRecordPlace p) s = .next (s.schedIn
          ((s.dv.pdelay * 504 + tickUnits s.pnow - 1) / tickUnits s.pnow) (.preemptDelayExpiry d.region)))) ∧
    (let room (l : Loc) : Prop := s.bankOk l.tile p = true ∧ (s.reloadCore p (giveWay s p) l.tile).isSome = true
     ((∃ l ∈ s.placesOf p, (s.spilled l).isSome = true ∧ ¬ room l) →
       exec (.reloadComplete p) s = .next (s.schedIn 1 (.reloadComplete p))) ∧
     ((∀ l ∈ s.placesOf p, (s.spilled l).isSome = true → room l) → (∃ l ∈ s.placesOf p, s.quadAwake l.tile = false) →
       exec (.reloadComplete p) s = .next
         (((s.placesOf p).foldl (fun s l => s.wakeQuad l.tile) s).schedIn (s.ticksOf 250) (.reloadComplete p))) ∧
     ((∀ l ∈ s.placesOf p, ((s.spilled l).isSome = true → room l) ∧ s.quadAwake l.tile = true) →
       ∃ t : State, exec (.reloadComplete p) s = .next t ∧ (s.tick + 160, .bankExchange p p) ∈ t.agenda))

/-- Loading: once the region has every tile of its box and every quad of it is awake, chunks leave one after another for a seed; a tile
passes a chunk on where the role forwards it, and with the last chunk takes the image and reports; a chunk with an uncorrectable
link error halts the context and comes again at some later tick; the region starts when the last tile has reported and its tiles are in
its hands, its start record then leaving the dispenser, and what it pre-empts is swapped out before that. -/
def Obligations.LoadingEvents : Prop :=
  ∀ (s : State) (r : Nat) (ro : Role), s.roleOf r = some ro → (s.region r).alive = true → (s.region r).loading ≠ 0 →
    let g := s.region r
    let chunkLeg (src : Option Nat) (dst : Nat) : Leg := { order := 0, src := src, dst := some dst, bytes := 128 }
    (∀ seed, g.eff.tilesOf.all (s.boxTileFree r) = false → exec (.imageChunkSend r seed 0) s = .next
      ((g.eff.tilesOf.foldl (fun s t => s.claimBank t g.part) s).schedIn 1 (.imageChunkSend r seed 0))) ∧
    (∀ seed chunk, (chunk ≠ 0 ∨ g.eff.tilesOf.all (s.boxTileFree r) = true) → g.eff.tilesOf.all s.quadAwake = false →
      exec (.imageChunkSend r seed chunk) s = .next
        ((g.eff.tilesOf.foldl State.wakeQuad s).schedIn (s.ticksOf 250) (.imageChunkSend r seed chunk))) ∧
    (∀ seed chunk, (chunk ≠ 0 ∨ g.eff.tilesOf.all (s.boxTileFree r) = true) → g.eff.tilesOf.all s.quadAwake = true →
      (s.legRoute (chunkLeg none seed)).bad = none →
      ∃ t : State, exec (.imageChunkSend r seed chunk) s = .next t ∧ t.mem = s.mem ∧ t.cores = s.cores ∧
        (∃ n, s.tick < n ∧ (n, .imageChunkArrival r seed ⟨chunk, false⟩) ∈ t.agenda) ∧
        (chunk + 1 < ro.chunks → ∃ n, s.tick < n ∧ (n, .imageChunkSend r seed (chunk + 1)) ∈ t.agenda)) ∧
    (∀ tile chunk, chunk + 1 < ro.chunks → ∃ t : State, exec (.imageChunkArrival r tile ⟨chunk, false⟩) s = .next t ∧
      t.cores = s.cores ∧ t.mem = s.mem ∧
      ∀ d ∈ ro.forwards g.eff tile, (s.legRoute (chunkLeg (some tile) (neighbour tile d))).bad = none →
        ∃ n, s.tick < n ∧ (n, .imageChunkArrival r (neighbour tile d) ⟨chunk, false⟩) ∈ t.agenda) ∧
    (∀ tile chunk, chunk + 1 = ro.chunks → ro.forwards g.eff tile = [] →
      exec (.imageChunkArrival r tile ⟨chunk, false⟩) s = .next ((s.applyImage r tile).packet g.part
        [{ order := 0, src := some tile, dst := none }] (.loadCompleteReport r tile))) ∧
    (∀ tile chunk, runs s ⟨tile, g.part⟩ → ∃ t : State, exec (.imageChunkArrival r tile ⟨chunk, true⟩) s = .next t ∧
      trapped s t ⟨tile, g.part⟩ 4 0x13 ∧ (t.region r).chunkErr = true ∧
        ∃ n, s.tick < n ∧ (n, .imageChunkArrival r tile ⟨chunk, false⟩) ∈ t.agenda) ∧
    (∀ d ∈ (s.regionStart r).recs, d ∈ s.recs ∧ ¬ (d.kind = .start ∧ d.region = r)) ∧
    (∀ tile, tile ∉ g.loaded →
      let u := s.updRegion r fun g => { g with loaded := tile :: g.loaded }
      let n := g.eff.ex * g.eff.ey * g.eff.ez
      let inHand := g.eff.tilesOf.all u.quadAwake = true ∧ (g.eff.startTiles.all fun t => u.fgReady ⟨t, g.part⟩) = true
      (g.loaded.length + 1 < n → exec (.loadCompleteReport r tile) s = .next u) ∧
      (n ≤ g.loaded.length + 1 → inHand → exec (.loadCompleteReport r tile) s = .next (u.regionStart r)) ∧
      (n ≤ g.loaded.length + 1 → ¬ inHand →
        exec (.loadCompleteReport r tile) s = .next
          ((u.clearWay g.part (u.recLevel r) g.eff.startTiles).schedIn 1 (.loadCompleteReport r tile))))

/-! ### Events of the launch queues -/

/-- A poll reads the sequence word at lq.next: equal, the entry is ready; empty or a lap behind, it polls again; beyond, the
ring has overrun; else it is corrupt. A consumed entry is acted on. -/
def Obligations.QueueEvents : Prop :=
  ∀ (s : State) (q : Nat),
    (s.polls q = true →
      let x := s.qp q
      let n := ringSize x.lsize
      let v := seqWord s q
      let last := BitVec.ofNat 64 (x.next + 2 ^ 64 - 1)
      exec (.launchQueuePoll q) s = .next
        (if v = x.next then ((polled s q).updQp q fun x => { x with ready := true }).schedFree 0 (.consumeEntry q)
         else if v = 0 ∨ v + n = x.next then (polled s q).schedIn (s.ticksOf x.pollNs) (.launchQueuePoll q)
         else if x.next < v ∧ (v - x.next) % n = 0 then
           ((polled s q).updQp q fun x => { x with ovr := true, run := false }).completion q 6 0 0 0 last s.tmNow
         else ((polled s q).updQp q fun x => { x with crpt := true, run := false }).completion q 7 0 0 0 last s.tmNow)) ∧
    (s.polls q = false → exec (.launchQueuePoll q) s = .next (s.updQp q fun x => { x with run := false, ready := false })) ∧
    ((s.qp q).ready = true → s.polls q = true →
      (ringSize (s.qp q).clsize < ((s.qp q).tail - (s.qp q).head) + (s.qp q).owed + 2 →
        exec (.consumeEntry q) s = .next (s.schedIn 1 (.consumeEntry q))) ∧
      (((s.qp q).tail - (s.qp q).head) + (s.qp q).owed + 2 ≤ ringSize (s.qp q).clsize → s.recs.length < 65536 →
        let w := entryWord s q
        let cookie := BitVec.ofNat 64 (w 1)
        exec (.consumeEntry q) s = .next (State.schedIn
          (if 2 ^ 48 ≤ w 0 ∨ w 0 % 256 ≠ 0 ∨ 1 < w 2 ∨ w 3 ≠ 0 ∨ w 4 ≠ 0 ∨ w 5 ≠ 0 ∨ w 6 ≠ 0 then
             (consumed s q).postOwed q 5 0 0 0 cookie s.tmNow
           else if w 2 = 0 then (consumed s q).sched s.tick (.nopEntry q cookie)
           else (consumed s q).sched s.tick (.launch q (w 0) cookie false)) 1 (.launchQueuePoll q)))) ∧
    (∀ cookie, exec (.nopEntry q cookie) s = .next (s.postOwed q 4 0 0 0 cookie s.tmNow)) ∧
    (∀ st cause r p cookie tend, let t := s.postOwed q st cause r p cookie tend
      (t.qp q).tail = ((s.qp q).tail + 1) % 2 ^ 64 ∧ (t.qp q).owed = (s.qp q).owed - 1 ∧ (t.qp q).head = (s.qp q).head ∧
        t.mem = s.mem ∧ t.dv.msix = (if (s.qp q).ien then min 63 (s.qp q).vec :: s.dv.msix else s.dv.msix))

/-- Launches: a launch that passes every check enters its region; a refused one posts its cause to its queue, and of a batch
leaves a complete entry; the child at the window base is counted out and the last one completes the token. A file's check
leaves it in the image cache. -/
def Obligations.LaunchEvents : Prop :=
  ∀ s : State,
    (65536 ≤ s.recs.length → ∀ q rcb cookie priv,
      exec (.launch q rcb cookie priv) s = .next (s.schedIn 1 (.launch q rcb cookie priv))) ∧
    (s.recs.length < 65536 → ∀ q rcb cookie priv, exec (.launch q rcb cookie priv) s = .next
      (match (counted s).tryLaunch (launcher q cookie priv) ⟨0, 0⟩ rcb rcb with
       | .ok t _ => t
       | .refused t cause _ => if priv then t else t.postOwed q 3 cause 0 0 cookie t.tmNow
       | .wait => s.schedIn 1 (.launch q rcb cookie priv))) ∧
    (∀ who l rcb pa, (s.rcbBusy pa = true → s.tryLaunch who l rcb pa = .refused s 0x02 false) ∧
      (s.rcbBusy pa = false → isHome pa = false → s.tryLaunch who l rcb pa = .refused s 0x09 false)) ∧
    (∀ l : Loc, let b := (s.ctx l).batch
      let va := b.arr + 256 * b.launched
      b.active = true → b.launched < b.n → b.launched < b.base + 256 → s.recs.length < 65536 → s.xlWaits l va = false →
      (∀ c, (s.xlate l va accRead).2 = .error c → exec (.childLaunch l) s = .next
        (childCounted (counted (s.xlate l va accRead).1) l (s.ctx l).region (b.launched + 1) fun b => { b with
          doneI := (s.ctx l).batch.launched :: b.doneI, nunw := min (b.nunw + 1) 0xFFFFFF
          fcause := if b.nunw = 0 then 0x09 else b.fcause
          first := if b.nunw = 0 then (s.ctx l).batch.launched else b.first })) ∧
      (∀ pa t r, (s.xlate l va accRead).2 = .ok pa →
        (counted (s.xlate l va accRead).1).tryLaunch (childOf s l) l va pa = .ok t r →
        exec (.childLaunch l) s = .next (childCounted t l (s.ctx l).region (b.launched + 1) fun c =>
          { c with kids := Tbl.put c.kids b.launched r })) ∧
      (∀ pa t cause, (s.xlate l va accRead).2 = .ok pa →
        (counted (s.xlate l va accRead).1).tryLaunch (childOf s l) l va pa = .refused t cause true →
        exec (.childLaunch l) s = .next (childCounted t l (s.ctx l).region (b.launched + 1) fun c =>
          { c with doneI := b.launched :: c.doneI }))) ∧
    (∀ l : Loc, let b := (s.ctx l).batch
      (b.active = false → exec (.childLaunch l) s = .next s) ∧
      (b.active = true → b.base ∈ b.doneI → exec (.childDelivery l) s = .next
        (let u := ((s.updCtx l fun c => { c with batch := { c.batch with
            base := b.base + 1, doneI := c.batch.doneI.filter (· != b.base), kids := Tbl.del c.batch.kids b.base
            news := c.batch.news + 1, active := b.base + 1 != b.n } }).kidsBy (s.ctx l).region (· - 1)).sched s.tick (.sleepWake l)
         (((if b.base + 1 = b.n then u.tokDone l b.tok ((u.ctx l).now u.tick) else u).nextDelivery l).nextChild l))) ∧
      (b.active = false → exec (.childDelivery l) s = .next s)) ∧
    (∀ file,
      exec (.imageVerify file) s = .next (match s.verifyImage file (s.fileAt file) with
        | .ok t _ => t
        | .bad => s
        | .wait => s.schedIn 1 (.imageVerify file)) ∧
      ∀ t id, s.verifyImage file (s.fileAt file) = .ok t id → Tbl.has t.images id = true)

/-! ### Events of the registers and of the host -/

/-- Registers from outside a strand: a shootdown completes with its count, once no access that the translations served is left;
ctl.uivec takes an entry inside the role's code,
and one beyond it traps. A read of BAR0 of another width than 8 bytes returns all ones, and one of a register its value; reading a
sensor's register makes its tmax the reading. The host writes lq.next, the stops and cq.head of a pair, and the pre-emption delay; a
write of another width is discarded; the management controller alone writes the page-table roots, the power gates, the harvest map
and the fault-region tables, in which reserved bits read as 0 and no entry is written that R95 and R97 rule out; a partition whose box
a newly harvested tile is in is reset. In recovery mode no access to BAR0 is answered. -/
def Obligations.RegisterEvents : Prop :=
  ∀ s : State,
    (∀ l d tok sc lo hi, s.shotAt l sc lo hi = true →
      exec (.shootdownComplete l d tok sc lo hi) s = .next (s.schedIn 1 (.shootdownComplete l d tok sc lo hi))) ∧
    (∀ l d tok sc lo hi, s.shotAt l sc lo hi = false →
      let v := (s.dv.shoot + 1) % 2 ^ 32
      let u := s.tlbDrop l sc lo hi
      let w : State := { u with dv := { u.dv with shoot := v, tlbseq := v } }
      u.dv = s.dv ∧ exec (.shootdownComplete l d tok sc lo hi) s = .next ((w.updCtx l fun c =>
        c.pendK (some tok) ((w.ctx l).now s.tick + 1) (.s d (BitVec.ofNat 64 v))).tokDone l tok ((w.ctx l).now s.tick + 1))) ∧
    (∀ (l : Loc) (v : Word), v.toNat % 2 ^ 14 < (s.ctx l).words → exec (.uivecWrite l v) s = .next
      ((s.updCtx l fun c => { c with ui := { c.ui with v := v.getLsbD 63, entry := v.toNat % 2 ^ 14 } }).uiPoll l)) ∧
    (∀ (l : Loc) (v : Word), (s.ctx l).words ≤ v.toNat % 2 ^ 14 → s.inFg l = true → (s.ctx l).frozen = none →
      ∃ t : State, exec (.uivecWrite l v) s = .next t ∧ (t.ctx l).ui = (s.ctx l).ui ∧ (t.ctx l).stopped = true ∧
        ∃ r, (t.ctx l).stops = (s.ctx l).stops ++ [r] ∧ r.code = 0x02 ∧ r.prec = true) ∧
    (let reads (v : Option Word) : State := { s with dv := { s.dv with bar0 := v } }
     (∀ off width, s.answers = false → exec (.tsRead ⟨off, width⟩) s = .next (reads none)) ∧
     (∀ off width, s.answers = true → width ≠ 8 ∨ off % 8 ≠ 0 →
       exec (.tsRead ⟨off, width⟩) s = .next (reads (some 0xFFFFFFFFFFFFFFFF))) ∧
     (∀ off v, s.answers = true → off % 8 = 0 → off < 0x3000 ∨ 0x3800 ≤ off → s.bar0 off = some v →
       exec (.tsRead ⟨off, 8⟩) s = .next (reads (some (BitVec.ofNat 64 v)))) ∧
     (∀ n, s.answers = true → n < 256 → ∃ t : State, exec (.tsRead ⟨0x3000 + 8 * n, 8⟩) s = .next t ∧
       t.dv.bar0 = some (BitVec.ofNat 64 (s.tsReg n).ctl) ∧ (t.tsReg n).tmax = (s.tsReg n).temp ∧
       (t.tsReg n).temp = (s.tsReg n).temp ∧ t.cores = s.cores ∧ t.mem = s.mem)) ∧
    (s.answers = true →
      (∀ q v, ((s.qp q).en = true → exec (.lqNextWrite q v) s = .next s) ∧
        ((s.qp q).en = false → exec (.lqNextWrite q v) s = .next (s.updQp q fun x => { x with next := v.toNat }))) ∧
      (∀ q ovr crpt, exec (.lqStopClear q ovr crpt) s = .next
        ((s.updQp q fun x => { x with ovr := x.ovr && !ovr, crpt := x.crpt && !crpt }).setPolling q)) ∧
      (∀ q v, ((s.qp q).head ≤ v.toNat → v.toNat ≤ (s.qp q).tail →
          exec (.cqHeadWrite q v) s = .next (s.updQp q fun x => { x with head := v.toNat })) ∧
        (v.toNat < (s.qp q).head → v.toNat ≤ (s.qp q).tail → exec (.cqHeadWrite q v) s = .next s)) ∧
      (∀ v : Word, exec (.registerWrite false (.bar0 0x0800 8) v) s = .next
        { s with dv := { s.dv with pdelay := v.toNat % 2 ^ 32 } })) ∧
    (s.answers = false → ∀ q v ovr crpt mc off width, exec (.lqNextWrite q v) s = .next s ∧
      exec (.lqStopClear q ovr crpt) s = .next s ∧ exec (.cqHeadWrite q v) s = .next s ∧
      exec (.registerWrite mc (.bar0 off width) v) s = .next s) ∧
    (∀ mc off width v, width ≠ 8 ∨ off % 8 ≠ 0 → exec (.registerWrite mc (.bar0 off width) v) s = .next s) ∧
    (∀ v p t i, exec (.registerWrite false .pgate v) s = .next s ∧ exec (.registerWrite false (.ptroot p) v) s = .next s ∧
      exec (.registerWrite false (.flt t i) v) s = .next s) ∧
    (∀ off v, off % 8 = 0 → 0x2000 ≤ off → exec (.registerWrite false (.bar0 off 8) v) s = .next s) ∧
    (∀ p v, exec (.registerWrite true (.ptroot p) v) s = .next
      { s with ptroots := Tbl.put s.ptroots p { en := v.getLsbD 0, root := v.toNat / 2048 % 2 ^ 37 } }) ∧
    (∀ t i (v : Word), let e := v &&& 0xFF807FFF00000FFF
      let u := s.setCore t { s.core t with flt := Tbl.set 0 (s.core t).flt (i % 8) e }
      (fltLegal t e = true → u.tablesOk = true ∨ s.tablesOk = false → exec (.registerWrite true (.flt t i) v) s = .next u) ∧
      (fltLegal t e = true → u.tablesOk = false → s.tablesOk = true → exec (.registerWrite true (.flt t i) v) s = .next s) ∧
      (fltLegal t e = false → exec (.registerWrite true (.flt t i) v) s = .next s)) ∧
    (∀ n (v : Word), n < 64 → s.answers = true →
      let u : State := { s with hv := Tbl.set 0 s.hv n v }
      let adds (i : Nat) : Prop := i < 64 ∧ v.getLsbD i = true ∧ (Tbl.get 0 s.hv n).getLsbD i = false
      ((∀ e ∈ s.parts, ∀ i, adds i → (s.region e.2.root).eff.inBox (64 * n + i) = false) →
        exec (.registerWrite true (.bar0 (0x2000 + 8 * n) 8) v) s = .next u) ∧
      (∀ p x i, s.parts = [(p, x)] → adds i → (s.region x.root).eff.inBox (64 * n + i) = true →
        exec (.registerWrite true (.bar0 (0x2000 + 8 * n) 8) v) s = .next (u.strike p)))

/-- What the host asks for, where the device answers; in recovery mode it answers a firmware download alone. BAR2 reads and writes
memory through an enabled aperture: each line of the access is a request that goes to its home, and a read through another aperture
returns all ones. A change of the secure state stops the polling of every pair that is no more covered. Keys; firmware, whose bank is
good where the root key's signature verifies, and after which the device boots where its banks do; measurements and certificates; the configuration blob, under the owner's key; mappings, of which one beyond the budget
or to the image cache changes nothing; and the tables that the host registers. -/
def Obligations.HostRequests : Prop :=
  ∀ s : State,
    (s.answers = false → ∀ off len bs n key req a o (m : MapReq) p v d ms f,
      exec (.hostBar2Read off len) s = .next { s with dv := { s.dv with bar2 := [] } } ∧ exec (.hostBar2Write off bs) s = .next s ∧
      exec (.ideKm n key) s = .next s ∧ exec (.spdmMeasurements req) s = .next s ∧ exec (.configBlobSubmit a ⟨n, o⟩) s = .next s ∧
      exec (.mappingRequest m) s = .next s ∧ exec (.sgEntryWrite n p v) s = .next s ∧ exec (.checkpointRegister p d) s = .next s ∧
      exec (.recoveryGroupRegister ms) s = .next s ∧ exec (.faultDomainRegister f) s = .next s) ∧
    (∀ bank ver m x,
      let d := { s.dv with banks := Tbl.put s.dv.banks bank { measure := m, secver := ver, good := fwVerifies m x } }
      let w : State := { s with dv := d }
      let u := (if geyserBank bank = true then w.geyserOff else w).boot
      (s.dv.power.recovery = false → geyserBank bank = false → exec (.firmwareDownload bank ver m x) s = .next s) ∧
      (s.dv.power.recovery = true → d.boots = true → s.dv.power.pwren = true → s.dv.power.stage = 1 →
        exec (.firmwareDownload bank ver m x) s = .next (u.schedIn 1 .pwrenAssert)) ∧
      (s.dv.power.recovery = true → (d.boots = false ∨ s.dv.power.pwren = false ∨ s.dv.power.stage ≠ 1) →
        exec (.firmwareDownload bank ver m x) s = .next u) ∧
      u.dv.power.recovery = !d.boots ∧ u.dv.power.booted = d.boots ∧ u.cores = s.cores ∧ u.mem = s.mem) ∧
    (∀ m x, fwVerifies m x = true → sha384 x.root = Config.rootHash) ∧
    (∀ n b cover, let rest := s.dv.ide.filter (· != n)
      let u : State := { s with dv := { s.dv with
        ide := if b then n :: rest else rest, ideCover := Tbl.put s.dv.ideCover n cover } }
      (n ≤ 4 → exec (.ideStateChange ⟨n, b, cover⟩) s = .next u.setPollingAll) ∧
      (4 < n → exec (.ideStateChange ⟨n, b, cover⟩) s = .next s) ∧
      (∀ q, q < 4 → s.dv.cfg.ideReq = true → u.dv.ideCovers (s.qp q) = false → (u.setPollingAll.qp q).run = false)) ∧
    (s.answers = true →
      (∀ off len, (∀ pa, s.bar2Addr off len = some pa → ∃ t : State, exec (.hostBar2Read off len) s = .next t ∧ t.dv.bar2 = [] ∧
          t.mem = s.mem ∧ t.cores = s.cores ∧ ∀ x ∈ linePieces pa len,
            asksHome s t (hostAsk (pa + x.1) x.1 (.read x.2 [] (.v 0 0xFFFFFFFF)))) ∧
        (s.bar2Addr off len = none → exec (.hostBar2Read off len) s = .next
          { s with dv := { s.dv with bar2 := List.replicate len 0xFF } })) ∧
      (∀ off bs, (s.bar2Addr off bs.length = none → exec (.hostBar2Write off bs) s = .next s) ∧
        (∀ pa, s.bar2Addr off bs.length = some pa → ∃ t : State, exec (.hostBar2Write off bs) s = .next t ∧ t.dv = s.dv ∧
          t.mem = s.mem ∧ t.cores = s.cores ∧ ∀ x ∈ linePieces pa bs.length,
            asksHome s t (hostAsk (pa + x.1) 0 (.write (addrBytes (pa + x.1) ((bs.drop x.1).take x.2)) 0)))) ∧
      (∀ pa n, (∀ x ∈ linePieces pa n, (pa + x.1) % 128 + x.2 ≤ 128 ∧ x.1 + x.2 ≤ n) ∧
        ∀ i, i < n → ∃ x ∈ linePieces pa n, x.1 ≤ i ∧ i < x.1 + x.2) ∧
      (∀ n k, (n ≤ 4 → exec (.ideKm n k) s = .next { s with dv := { s.dv with ideKeys := Tbl.put s.dv.ideKeys n k } }) ∧
        (4 < n → exec (.ideKm n k) s = .next s)) ∧
      (∀ n bs, let m := BitVec.ofNat 8 n :: s.measurement n
        exec (.spdmMeasurements (.measurements n)) s = .next { s with dv := { s.dv with doe := m ++ signWith s.dv.aliasKey m } } ∧
        exec (.spdmMeasurements .certificate) s = .next { s with dv := { s.dv with doe := s.dv.certificates } } ∧
        exec (.spdmMeasurements .digests) s = .next
          { s with dv := { s.dv with doe := hashBytes (sha384 s.dv.certificates) } } ∧
        ∃ ans, exec (.spdmMeasurements (.other bs)) s = .next { tookFree s with dv := { s.dv with doe := ans } }) ∧
      (∀ a n o, let bs := s.mem.bytes a n
        let signed := sha384 o == s.dv.ownerHash && signatureOk o (bs.take (n - 96)) (bs.drop (n - 96))
        match s.dv.readBlob bs with
        | none => exec (.configBlobSubmit a ⟨n, o⟩) s = .next s
        | some c => s.dv.cfgCtr < c.cfgver ∧ s.dv.fwFloor ≤ c.fwfloor ∧
          (signed = false → exec (.configBlobSubmit a ⟨n, o⟩) s = .next s) ∧
          (signed = true → blobOwner bs = none → exec (.configBlobSubmit a ⟨n, o⟩) s = .next (State.setPollingAll { s with dv := { s.dv with
            cfg := { c with owner := o }, cfgCtr := c.cfgver, fwFloor := c.fwfloor, flashCtr := s.dv.flashCtr + 1 } }).setGate) ∧
          (∀ k, signed = true → blobOwner bs = some k →
            exec (.configBlobSubmit a ⟨n, o⟩) s = .next (State.setPollingAll { s with dv := { s.dv with
              cfg := { c with owner := k }, cfgCtr := c.cfgver, fwFloor := c.fwfloor, flashCtr := s.dv.flashCtr + 1
              ownerHash := sha384 k } }).setGate)) ∧
      (∀ m : MapReq, (m.va % 2 ^ 24 ≠ 0 ∨ m.pa % 2 ^ 24 ≠ 0 ∨ Tbl.has s.parts m.part = false ∨
          (∃ i, i < m.chunks ∧ inImageCache (m.pa + i * 2 ^ 24) = true) ∨
          (s.region (s.part m.part).root).eff.vault < (s.part m.part).vaultUsed + chunksIn m.pa m.chunks .vault ∨
          (s.region (s.part m.part).root).eff.hbm < (s.part m.part).hbmUsed + chunksIn m.pa m.chunks .hbm) →
        exec (.mappingRequest m) s = .next s) ∧
      (∀ m : MapReq, Tbl.has s.parts m.part = true → m.va % 2 ^ 24 = 0 → m.pa % 2 ^ 24 = 0 → m.chunks = 1 →
        m.va + 2 ^ 24 ≤ 2 ^ 56 → spaceOf m.pa = .vault →
        (s.part m.part).vaultUsed + 1 ≤ (s.region (s.part m.part).root).eff.vault →
        (s.part m.part).hbmUsed ≤ (s.region (s.part m.part).root).eff.hbm →
        ∃ t : State, exec (.mappingRequest m) s = .next t ∧ (t.part m.part).vaultUsed = (s.part m.part).vaultUsed + 1 ∧
          (Tbl.get {} t.ptroots m.part).en = true) ∧
      (∀ n p v, n < 32 → exec (.sgEntryWrite n p v) s = .next
        (let w : Word := (v &&& 0x81FFFFFFFFFFFFFF) ||| BitVec.ofNat 64 (p % 64 * 2 ^ 57)
         { s with dv := { s.dv with sg := Tbl.set 0 s.dv.sg n w } })) ∧
      (∀ p d, Tbl.has s.parts p = true → d % 4096 = 0 → isHome d = true →
        exec (.checkpointRegister p d) s = .next (s.updPart p fun q => { q with ckpt := some d })) ∧
      (∀ ms, exec (.recoveryGroupRegister ms) s = .next { s with dv := { s.dv with groups := s.dv.groups ++ [ms] } }) ∧
      (∀ f, f < 4096 → f ∉ s.dv.fdoms →
        exec (.faultDomainRegister f) s = .next { s with dv := { s.dv with fdoms := f :: s.dv.fdoms } }))

/-! ### Events of the management controller -/

/-- Taking a trap. The word has no effect: it stands in its queue again, every register is as it was, the strand issues nothing
more, and its stop record names its program counter, bits, code and detail; the halt is delivered 24 ticks later. HALT_DELIVERY
freezes the context on its tick, keeping its registers and queues; before that tick it does nothing. Its running regions are HALTED,
and of the queued ones only that whose loading met a link error; a context that is swapped out halts as it stands. A context that goes
on has its clock where it stood, on the tiles whose clocks run. -/
def Obligations.TrapsAndHalts : Prop :=
  (∀ (s : State) (e : QEnt) (p code detail : Nat), s.cur.ent = some e → s.c.part = some p → s.c.frozen = none →
    (s.part p).st = .active → let t := s.trapWord code detail
    sameRegisters s.c t.c ∧ e ∈ t.c.q ∧ t.c.stopped = true ∧ t.mem = s.mem ∧ t.tick = s.tick ∧ t.cur.trapped = true ∧
      (t.part p).st = .halting ∧ (t.part p).haltAt = s.tick + 24 ∧ (s.tick + 24, .haltDelivery p) ∈ t.agenda ∧
      (∀ u, u ≠ s.me → t.core u = s.core u) ∧
      ∃ r, t.c.stops = s.c.stops ++ [r] ∧ r.code = code ∧ r.prec = true ∧ r.pc = e.pc % 2 ^ 14 ∧ r.word = e.bits.toNat ∧
        r.detail = detail ∧ r.tile = s.me ∧ r.part = p ∧ r.tnow = s.tmNow) ∧
  (∀ (s : State) (p : Nat),
    ((s.part p).st = .active ∨ (s.part p).st = .halted → exec (.haltDelivery p) s = .next s) ∧
    ((s.part p).st = .halting → s.tick < (s.part p).haltAt → exec (.haltDelivery p) s = .next s) ∧
    ((s.part p).st = .halting → (s.part p).haltAt ≤ s.tick →
      ∃ t : State, exec (.haltDelivery p) s = .next t ∧ (t.part p).st = .halted ∧ t.tick = s.tick ∧
        (∀ l, l.part = p → s.inFg l = true → (t.ctx l).frozen = some ((s.ctx l).now s.tick) ∧
          (t.ctx l).s = (s.ctx l).s ∧ (t.ctx l).q = (s.ctx l).q ∧ (t.ctx l).pc = (s.ctx l).pc) ∧
        (∀ e ∈ t.agenda, s.evPart e.2 ≠ some p)) ∧
    ((s.part p).st = .halting ∨ (s.part p).st = .swapped → (s.part p).haltAt ≤ s.tick → (s.regions.map (·.1)).Nodup →
      ∃ t : State, exec (.haltDelivery p) s = .next t ∧ ((t.part p).out = true ↔ (s.part p).st = .swapped) ∧
        ∀ r, Tbl.has s.regions r = true → (s.region r).part = p → let g := s.region r
          (g.st = .running → (t.region r).st = .halted) ∧
          (g.st = .queued → g.chunkErr = true → (t.region r).st = .halted) ∧
          (g.st = .queued → g.chunkErr = false → (t.region r).st = .queued)) ∧
    (∀ l n, l.part = p → s.inFg l = true → (s.ctx l).frozen = some n → n ≤ s.tick → s.clockStopped l.tile = false →
      ((s.thaw p).ctx l).frozen = none ∧ ((s.thaw p).ctx l).now s.tick = n))

/-- What ends a region or a context: a region retires once its conditions hold and what its strands left is performed; the
management controller resumes a halted context, ends a region of it with its descendants, or ends it. Recovery: a notice halts
its partition and has it restored at some later tick from the named generation; a restore of a partition that is not halted yet halts
it and comes again at some later tick; that of a halted one resets it, copies its checkpoint back from the slot that it takes, and
launches it again, by an alternate RCB where the harvest map refuses its box; without a checkpoint it ends. A slot is taken by its generation,
else the one of the higher generation, from the device's own copy where that and the directory can be read. -/
def Obligations.ControllerEvents : Prop :=
  (∀ (s : State) (r p : Nat),
    (s.canRetire r = false → exec (.regionRetire r) s = .next s) ∧
    (s.canRetire r = true → (s.region r).retiring ≠ 0 →
      (s.allPerformed r = true → exec (.regionRetire r) s = .next (s.endAs r .retired 0 true)) ∧
      (s.allPerformed r = false → exec (.regionRetire r) s = .next s)) ∧
    ((s.part p).st = .halted → (s.part p).out = false → exec (.resume p) s = .next (s.goOn p)) ∧
    ((s.part p).st = .halted → (s.part p).out = true → exec (.resume p) s = .next
      (((s.updPart p fun q => { q with st := .swapped, out := false, haltAt := 0 }).resumeRec p).kick)) ∧
    ((s.part p).st ≠ .halted → exec (.resume p) s = .next s ∧ exec (.endPartition p) s = .next s) ∧
    ((s.part p).st = .halted → exec (.endPartition p) s = .next (s.endPart p (s.part p).code true)) ∧
    ((s.region r).part = p → (s.part p).st = .halted → (s.region r).alive = true →
      ((s.region r).parent = 0 → exec (.endRegion r) s = .next (s.endPart p (s.part p).code true)) ∧
      ((s.region r).parent ≠ 0 → exec (.endRegion r) s = .next ((s.endFamily r (s.part p).code true).resumePart p))) ∧
    (∀ l w, s.dv.cfg.dbg = true → (s.part l.part).st = .halted →
      exec (.debugAccess l (.write w)) s = .next (s.updCtx l fun c => c.put w)) ∧
    (∀ l op, s.dv.cfg.dbg = false → exec (.debugAccess l op) s = .next s) ∧
    ((s.part p).st = .active → exec (.allAsleep p) s = .next (s.trapPart p (s.partStop p 7 0x11 0xFFF))) ∧
    ((s.part p).st ≠ .active → exec (.allAsleep p) s = .next s)) ∧
  (∀ (s : State) (p : Nat),
    (∀ gen, Tbl.has s.parts p = true → (s.part p).st = .active → ∃ t : State, exec (.recoveryNotify p gen) s = .next t ∧
      (t.part p).st = .halting ∧ (t.part p).gen = some gen ∧ (s.tick + 24, .haltDelivery p) ∈ t.agenda ∧
      (∃ n, s.tick < n ∧ (n, .restore ⟨p, none⟩) ∈ t.agenda) ∧ t.mem = s.mem) ∧
    (∀ gen, Tbl.has s.parts p = false → exec (.recoveryNotify p gen) s = .next s) ∧
    (Tbl.has s.parts p = false → exec (.restore ⟨p, none⟩) s = .next s) ∧
    (Tbl.has s.parts p = true → (s.part p).st ≠ .halted → ∃ t : State, exec (.restore ⟨p, none⟩) s = .next t ∧ t.mem = s.mem ∧
      ((s.part p).st = .active → (t.part p).st = .halting ∧ (s.tick + 24, .haltDelivery p) ∈ t.agenda) ∧
      ∃ n, s.tick < n ∧ (n, .restore ⟨p, none⟩) ∈ t.agenda) ∧
    (Tbl.has s.parts p = true → (s.part p).st = .halted → s.groupOf p = [] → (s.part p).ckpt = none →
      exec (.restore ⟨p, none⟩) s = .next (s.endPart p (s.part p).code true)) ∧
    (∀ d u, Tbl.has s.parts p = true → (s.part p).st = .halted → s.groupOf p = [] → (s.part p).ckpt = some d →
      s.ckptFind d (s.part p).gen = (u, none) → exec (.restore ⟨p, none⟩) s = .next (u.endPart p (u.part p).code true)) ∧
    (∀ d u w rep, Tbl.has s.parts p = true → (s.part p).st = .halted → s.groupOf p = [] → (s.part p).ckpt = some d →
      s.ckptFind d (s.part p).gen = (u, some (w, rep)) → ckptWord w 0x30 < 2 ^ 60 →
      let x := (counted ((u.resetPart p).copyBack w rep)).tryLaunch
        { q := (s.region (s.part p).root).lqn, cookie := (s.region (s.part p).root).cookie, priv := (s.part p).priv } ⟨0, 0⟩
        (ckptWord w 0x10 % 2 ^ 48) (ckptWord w 0x10 % 2 ^ 48)
      ∀ t n, x = .ok t n → exec (.restore ⟨p, none⟩) s = .next
        (t.updPart (t.region n).part fun q => { q with ckpt := some d, name := some (s.partName p) })) ∧
    (∀ who a alts t w, s.tryLaunch who ⟨0, 0⟩ a a = .refused t 0x04 w →
      let harv := (effOf ((List.range 16).map fun i => s.mem.nat (a + 8 * i) 8)).tilesOf.any s.harvested
      (harv = true → s.relaunch who a alts = t.relaunchAlt who alts) ∧ (harv = false → s.relaunch who a alts = .refused t 0x04 w) ∧
      (∀ b rest t' c w', s.tryLaunch who ⟨0, 0⟩ b b = .refused t' c w' →
        s.relaunchAlt who (b :: rest) = t'.relaunchAlt who rest) ∧
      ∀ b rest t' n, s.tryLaunch who ⟨0, 0⟩ b b = .ok t' n → s.relaunchAlt who (b :: rest) = .ok t' n) ∧
    (∀ d gen w, pickSlot gen (s.slotWords d) (s.slotWords (d + 256)) = some w → s.readable d 512 = true → s.localGood w = true →
      s.ckptFind d gen = (s, some (w, none))) ∧
    (∀ (n : Nat) (a b : List Nat), (n ≠ 0 → ckptWord a 0 = n → pickSlot (some n) a b = some a) ∧
      (n ≠ 0 → ckptWord a 0 ≠ n → ckptWord b 0 = n → pickSlot (some n) a b = some b) ∧
      (ckptWord a 0 ≠ n → ckptWord b 0 ≠ n → pickSlot (some n) a b = none) ∧
      (ckptWord b 0 < ckptWord a 0 → pickSlot none a b = some a) ∧ (ckptWord a 0 < ckptWord b 0 → pickSlot none a b = some b)))

/-! ### Events of the governor -/

/-- An evaluation looks at every entry, applies the demand and comes again in 1 µs; an entry's need is the slowest P-state at
which the rest of its budget fits into the time left, by tm.now with its fraction; a missed deadline is counted, and with dlmiss ends the region; a P-state change takes
effect at once, its rails ramping for at most 25 µs when it is slower; a canary window moves the offset of the applied P-state by 5 mV
steps, and one with too many errors holds it there for 1 s. -/
def Obligations.PaceEvents : Prop :=
  ∀ s : State,
    (exec .paceEvaluation s = .next
      (let u := s.regions.foldl (fun s e => s.paceEntry e.1) s
       u.applyDemand.schedIn (u.ticksOf 1000) .paceEvaluation)) ∧
    (∀ r p dl b, (s.region r).pace = some p → p.dl = some dl → p.budget = some b →
      ∃ q, ((s.paceEntry r).region r).pace = some q ∧ q.need = some (needFor ((b : Int) - (p.elapsed s.tick : Int))
        (((dl : Int) - ((s.region r).eff.dlguard : Int)) * 65536 - ((s.tmNow * 65536 + s.tmFrac : Nat) : Int)))) ∧
    (∀ rest avail : Int, 0 < rest →
      (needFor rest avail = 0 ∨ rest * (tickUnits (needFor rest avail) : Int) * 65536 ≤ avail * 504) ∧
      ∀ q, needFor rest avail < q → q ≤ 7 → avail * 504 < rest * (tickUnits q : Int) * 65536) ∧
    (s.demand ≤ 7 ∧ ∀ e ∈ s.regions, ∀ n, e.2.adds = some n → s.demand ≤ n) ∧
    (∀ r step, (s.region r).alive = false → exec (.deadlineMiss r step) s = .next s) ∧
    (∀ r step, (s.region r).alive = true → (s.region r).eff.dlmiss = false → ∃ t : State, exec (.deadlineMiss r step) s = .next t ∧
      (t.region r).misses = min 0xFFFF ((s.region r).misses + 1) ∧ t.cores = s.cores ∧ t.agenda = s.agenda) ∧
    (∀ r step, (s.region r).alive = true → (s.region r).eff.dlmiss = true →
      ∃ u : State, exec (.deadlineMiss r step) s = .next (u.endFamily r 0x12 true) ∧
        (u.region r).misses = min 0xFFFF ((s.region r).misses + 1)) ∧
    (∀ p, p ≤ 7 → ∃ t : State, exec (.pStateChange p) s = .next t ∧ t.pnow = p ∧ t.tick = s.tick ∧ t.cores = s.cores ∧
      (p ≤ s.pnow → (s.tick, .railRampDone) ∈ t.agenda) ∧
      (s.pnow < p → ∃ n, s.tick < n ∧ n ≤ s.tick + max 1 ((25000 * 504 + tickUnits p - 1) / tickUnits p) ∧
        (n, .railRampDone) ∈ t.agenda)) ∧
    (s.gov.want = none → exec .railRampDone s = .next (updGov s fun g => { g with ramp := none, want := none, band := none })) ∧
    (∀ p, s.gov.want = some p → exec .railRampDone s = .next
      ((updGov s fun g => { g with ramp := none, want := none, band := none }).requestP (max p s.capNow))) ∧
    (∀ n errors, (s.gov.fwok = false ∨ (s.gov.rail n).frz = true ∨ s.pnow ∈ (s.gov.rail n).held) →
      exec (.canaryWindowEnd n errors) s = .next s) ∧
    (∀ n errors o, s.gov.fwok = true → (s.gov.rail n).frz = false → s.pnow ∉ (s.gov.rail n).held →
      Tbl.get 0 (s.gov.rail n).off s.pnow = o →
      (errors ≤ (s.gov.rail n).gthr → o < 15 → 400 ≤ railMv n s.pnow - 5 * (o + 1) →
        exec (.canaryWindowEnd n errors) s = .next (s.updRail n fun r =>
          { r with off := Tbl.set 0 r.off s.pnow (o + 1) })) ∧
      (errors ≤ (s.gov.rail n).gthr → (15 ≤ o ∨ railMv n s.pnow - 5 * (o + 1) < 400) → exec (.canaryWindowEnd n errors) s = .next
        (s.updRail n fun r => { r with off := Tbl.set 0 r.off s.pnow o })) ∧
      ((s.gov.rail n).gthr < errors → exec (.canaryWindowEnd n errors) s = .next
        ((s.updRail n fun r => { r with off := Tbl.set 0 r.off s.pnow (o - 2), held := s.pnow :: r.held }).schedIn
          (s.ticksOf 1000000000) (.canaryHoldExpiry ⟨n, s.pnow⟩)))) ∧
    (∀ n p, exec (.canaryHoldExpiry ⟨n, p⟩) s = .next (s.updRail n fun r => { r with held := r.held.filter (· != p) }))

/-- Limits: a combined current or a rail over its limit sets or tightens the cap, and again every 100 µs; telemetry is kept; a
region over its power share for ten estimates is OVERBUDGET; a 1 s window is averaged and counted when it misses the band; a
ballast strand that has not yielded is swapped out; without the firmware's heartbeat, or while the firmware is updated, P4 is the cap,
every offset is 0 and the gate is shut; when it returns the firmware has started (the model's choice, assumption 71). -/
def Obligations.LimitEvents : Prop :=
  ∀ s : State,
    (∀ amps,
      let u := updGov s fun g => { g with amps := amps }
      let w := updGov u fun g => { g with calm := if u.gov.calmNow then g.calm else 0 }
      (w.gov.exceeds = false → exec (.limiterSample amps) s = .next (updGov w fun g => { g with overrun := false })) ∧
      (w.gov.exceeds = true → s.gov.overrun = true → exec (.limiterSample amps) s = .next w) ∧
      (w.gov.exceeds = true → s.gov.overrun = false → exec (.limiterSample amps) s = .next w.tightenOc)) ∧
    (s.gov.exceeds = true → exec .overcurrentTighten s = .next s.tightenOc) ∧
    (s.gov.exceeds = false → exec .overcurrentTighten s = .next (updGov s fun g => { g with overrun := false })) ∧
    (s.tightenOc.gov.ocap = tighten s.gov.ocap s.pnow ∧
      (s.tick + s.ticksOf 100000, .overcurrentTighten) ∈ s.tightenOc.agenda) ∧
    (∀ watts rails, ∃ t : State, exec (.telemetrySample watts rails) s = .next t ∧ t.gov.pwr = watts ∧
      t.gov.samples = (watts :: s.gov.samples).take 10 ∧ t.mem = s.mem ∧
      t.dv.power.pmVin = s.dv.power.vinMv ∧ (∀ n x, n < 4 → rails[n]? = some x → (t.gov.rail n).iamp = x.amps ∧ (t.gov.rail n).vmv = x.mv) ∧
      ∀ n x, n < 7 → rails[n]? = some x → let r := Tbl.get {} t.dv.power.pmRails n
        r.mv = x.mv ∧ r.temp = x.temp ∧ r.amps.head? = some x.amps) ∧
    (∀ r w, (s.gov.fwok = false ∨ (s.region r).alive = false) → exec (.regionPowerEstimate r w) s = .next s) ∧
    (∀ r w, s.gov.fwok = true → (s.region r).alive = true → (w :: (s.region r).watts).length = 10 →
      (s.region r).eff.power ≠ 0 → (s.region r).eff.power * 10 < (w :: (s.region r).watts).foldl (· + ·) 0 →
      exec (.regionPowerEstimate r w) s = .next
        (s.updRegion r fun g => { g with watts := w :: (s.region r).watts, overb := true })) ∧
    (s.gov.winN = 0 → exec .heatWindowEnd s = .next s) ∧
    (s.gov.winN ≠ 0 →
      let g := s.gov
      let sp := g.setptNow
      let out := sp ≠ 0 ∧ (g.winSum * 1000 < sp * g.winN * (1000 - g.cband) ∨ sp * g.winN * (1000 + g.cband) < g.winSum * 1000)
      ∃ t : State, exec .heatWindowEnd s = .next t ∧ t.gov.wavg = min 8191 (g.winSum / g.winN) ∧ t.gov.winN = 0 ∧
        (out → t.gov.wmiss = min 0xFFFF (g.wmiss + 1)) ∧ (¬ out → t.gov.wmiss = g.wmiss) ∧ t.cores = s.cores) ∧
    (s.gov.yielding = [] → exec .ygraceExpiry s = .next s) ∧
    (∀ t p, s.gov.yielding = [(t, p)] → (s.ctx ⟨t, p⟩).live = true → (s.region (s.ctx ⟨t, p⟩).region).eff.lvl = true →
      s.inFg ⟨t, p⟩ = true → (s.part p).st = .active → s.canSwap p noPart [t] = true →
      ∃ u : State, exec .ygraceExpiry s = .next u ∧ (u.part p).st = .swapping ∧ (s.tick + 160, .bankExchange p noPart) ∈ u.agenda) ∧
    (∃ t : State, exec .geyserHeartbeatMiss s = .next t ∧ t.gov.fwok = false ∧ t.gov.gate = false ∧ 4 ≤ t.capNow ∧
      ∀ n, (t.gov.rail n).off = []) ∧
    (∀ bank v m g, s.dv.power.recovery = false → geyserBank bank = true →
      ∃ t : State, exec (.firmwareDownload bank v m g) s = .next t ∧ t.gov.fwok = false ∧ t.gov.gate = false ∧ 4 ≤ t.capNow ∧
        (∀ n, (t.gov.rail n).off = []) ∧ Tbl.get {} t.dv.banks bank = { measure := m, secver := v, good := fwVerifies m g }) ∧
    (exec .geyserHeartbeatReturn s = .next
      (State.setGate { s with
        gov := { s.gov with fwok := true, fwCap := false, fwSamples := 0 }
        dv := { s.dv with gfw := if s.dv.bankBoots 2 || s.dv.bankBoots 3 then s.dv.bankInUse 2 else s.dv.gfw } }))

/-! ### Events of sensors, quads, power and the management bus -/

/-- A quad that has been idle for its time turns its switches off, stage by stage, and retains; a wake begins in its turn where its
layer has room, stops a switch-off in progress, and turns the missing of the eight stages on, one in 250 ns; a quad whose stages are
all still on is ACTIVE at once. Power-up, each step once the rails of the step before are in band; a rail that is not within 10 ms is
recorded. Power-down and resets. A power cycle ends everything that the device holds but what its flash keeps. -/
def Obligations.QuadAndPowerEvents : Prop :=
  (∀ (s : State) (q : Nat), let x := Tbl.get {} s.quads q
    (x.idleFrom = none → exec (.quadIdleExpiry q) s = .next s) ∧
    (∀ t0, x.idleFrom = some t0 → x.st = 0 → s.pgEn = true → (∀ t ∈ quadTiles q, s.tileBusy t = false) →
      (t0 + 1000 * max 1 s.pgIdle * tmUnit ≤ s.tm → exec (.quadIdleExpiry q) s = .next
        (s.quadSink q 1)) ∧
      (s.tm < t0 + 1000 * max 1 s.pgIdle * tmUnit → ∃ n, 1 ≤ n ∧
        exec (.quadIdleExpiry q) s = .next (s.schedIn n (.quadIdleExpiry q)))) ∧
    (∀ st, let t := s.quadSink q st
      (Tbl.get {} t.quads q).st = st ∧ (Tbl.get {} t.quads q).waking = false ∧ (Tbl.get {} t.quads q).stage = x.stage ∧
        ((Tbl.get {} t.quads q).sinking = true ↔ x.stage ≠ 0) ∧
        (x.stage ≠ 0 → ∃ n, s.tick < n ∧ (n, .wakeStage q) ∈ t.agenda)) ∧
    (x.sinking = true → exec (.wakeStage q) s = .next
      (State.quadSink { s with quads := Tbl.put s.quads q { x with stage := x.stage - 1 } } q x.st)) ∧
    (x.st = 0 → exec (.quadWake q) s = .next s) ∧
    (x.st ≠ 0 → x.waking = false → q ∉ s.wakeQ →
      let u : State := { s.unsched fun e => e == .wakeStage q with quads := Tbl.put s.quads q { x with sinking := false } }
      let full := max 1 s.pgWaves ≤ u.wakingIn (q / 64)
      let first := ∀ y ∈ s.wakeQ, y / 64 ≠ q / 64
      (first → x.stage = 8 → exec (.quadWake q) s = .next (u.quadUp q)) ∧
      (first → x.stage ≠ 8 → ¬ full → exec (.quadWake q) s = .next (State.schedIn
        { u with quads := Tbl.put u.quads q { x with sinking := false, waking := true } } (s.ticksOf 250) (.wakeStage q))) ∧
      (x.stage ≠ 8 → (∀ y ∈ s.wakeQ, (Tbl.get {} s.quads y).stage ≠ 8) → full →
        exec (.quadWake q) s = .next { u with wakeQ := s.wakeQ ++ [q] })) ∧
    (x.waking = true → x.sinking = false → x.stage + 1 < 8 → exec (.wakeStage q) s = .next
      (State.schedIn { s with quads := Tbl.put s.quads q { x with stage := x.stage + 1 } } (s.ticksOf 250) (.wakeStage q))) ∧
    (x.waking = true → x.sinking = false → 8 ≤ x.stage + 1 → ∃ t : State, exec (.wakeStage q) s = .next t ∧ t.mem = s.mem ∧
      ((∀ y ∈ s.wakeQ, y / 64 ≠ q / 64) → (Tbl.get {} t.quads q).st = 0 ∧ (Tbl.get {} t.quads q).waking = false ∧
        (x.st ≠ 2 → t.cores = s.cores)) ∧
      ∀ y rest, s.wakeQ = y :: rest → y / 64 = q / 64 → y ≠ q → (Tbl.get {} s.quads y).stage ≠ 8 →
        (s.quadUp q).wakingIn (q / 64) < max 1 s.pgWaves → (Tbl.get {} t.quads y).waking = true) ∧
    (x.waking = false → x.sinking = false → exec (.wakeStage q) s = .next s)) ∧
  (∀ s : State,
    (∀ mv, (mv < 40000 ∨ 60000 < mv) → exec (.vinApplied mv) s = .next (s.updPower fun p => { p with vinMv := mv })) ∧
    (∀ mv, 40000 ≤ mv → mv ≤ 60000 → s.dv.power.stage ≠ 0 →
      exec (.vinApplied mv) s = .next (s.updPower fun p => { p with vinMv := mv })) ∧
    (∀ mv, 40000 ≤ mv → mv ≤ 60000 → s.dv.power.stage = 0 → ∃ t : State, exec (.vinApplied mv) s = .next t ∧
      t.dv.power.booted = s.dv.boots ∧ t.dv.power.recovery = (!s.dv.boots) ∧ begun s t 1 [6]) ∧
    (s.dv.power.bandAt = none → exec .pwrenAssert s = .next (s.updPower fun p => { p with pwren := true })) ∧
    (∀ b, s.dv.power.bandAt = some b → s.tick < b →
      exec .pwrenAssert s = .next ((s.updPower fun p => { p with pwren := true }).sched b .pwrenAssert)) ∧
    (inBand s →
      let u := s.updPower fun p => { p with pwren := true }
      (s.dv.power.stage = 1 → s.dv.power.booted = true → ∃ t : State, exec .pwrenAssert s = .next t ∧ begun u t 2 [6, 5, 4]) ∧
      (s.dv.power.stage = 1 → s.dv.power.booted = false → exec .pwrenAssert s = .next u) ∧
      (s.dv.power.stage = 2 → s.ilkMet = true → ∃ t : State, exec .pwrenAssert s = .next t ∧ begun u t 3 [6, 5, 4, 3, 2] ∧
        t.dv.power.ilk = true) ∧
      (s.dv.power.stage = 2 → s.ilkMet = false → exec .pwrenAssert s = .next u) ∧
      (s.dv.power.stage = 3 → ∃ t : State, exec .pwrenAssert s = .next t ∧ begun u t 4 [6, 5, 4, 3, 2, 1, 0] ∧ t.pnow = 7 ∧
        t.dv.power.thermtrip = false ∧ t.dv.power.coresOn = true) ∧
      (s.dv.power.stage = 4 → ∃ t : State, exec .pwrenAssert s = .next t ∧ t.dv.power.stage = 5 ∧ t.dv.power.pgood = true) ∧
      (s.dv.power.stage = 0 ∨ s.dv.power.stage = 5 → exec .pwrenAssert s = .next u)) ∧
    (∀ n, let p := s.dv.power
      let due := p.stage = railStep n ∧ n < 7 ∧ ¬ inBand s ∧ s.ticksOf 10000000 ≤ s.tick - p.stepAt
      (¬ due → exec (.railBandTimeout n) s = .next s) ∧
      (due → ∃ t : State, exec (.railBandTimeout n) s = .next t ∧ t.dv.power.on = [6] ∧ t.dv.power.recovery = true ∧
        t.dv.power.booted = false ∧ t.dv.power.badRail = some n ∧ t.dv.power.pgood = false ∧ t.dv.power.alert = true ∧
        ∀ e ∈ t.agenda, e.2 ≠ .pwrenAssert)) ∧
    (∀ n, n < 7 → n ∈ stepRails (railStep n)) ∧
    (∃ t : State, exec .pwrenDeassert s = .next t ∧ t.parts = [] ∧ t.regions = [] ∧ t.cores = [] ∧ t.mem = [] ∧ t.tick = s.tick ∧
      t.dv.power.on = (if s.dv.power.on.contains 6 then [6] else []) ∧ t.dv.power.pwren = false ∧ t.dv.power.pgood = false ∧
      t.dv.cfg = s.dv.cfg ∧ t.dv.banks = s.dv.banks ∧ t.hv = s.hv) ∧
    (∃ t : State, exec .vinLoss s = .next t ∧ t.parts = [] ∧ t.regions = [] ∧ t.cores = [] ∧ t.mem = [] ∧ t.dv.power.on = [] ∧
      t.dv.power.booted = false ∧ t.dv.cfg = s.dv.cfg ∧ t.dv.banks = s.dv.banks ∧ t.hv = s.hv) ∧
    (∃ t : State, exec .perstN s = .next t ∧ t.dv.qps = [] ∧ t.dv.ide = [] ∧ t.dv.ideKeys = [] ∧ t.seqs = [] ∧
      (s.parts = [] → t.dv.power = s.dv.power ∧ t.mem = s.mem)) ∧
    (∃ t : State, exec .mcRstN s = .next t ∧ t.parts = s.parts ∧ t.cores = s.cores ∧ t.mem = s.mem ∧ t.dv.doe = [] ∧
      t.dv.power.booted = s.dv.boots ∧ t.dv.power.recovery = !s.dv.boots) ∧
    (∀ tin tout flow dp, s.dv.power.stage ≠ 2 → exec (.coolReading tin tout flow dp) s = .next (s.updPower fun p => { p with
      tin := tin, tout := tout, flow := flow, dp := dp, coolHot := decide (200 < tin), coolLow := decide (flow < 250), coolV := true
      flowFrom := if flow < 250 then none else some (p.flowFrom.getD s.tick) })) ∧
    (∀ tin tout flow dp t0, s.dv.power.stage = 2 → inBand s → tin ≤ 200 → 250 ≤ flow → s.dv.power.flowFrom = some t0 →
      s.ticksOf 1000000000 ≤ s.tick - t0 →
      ∃ t : State, exec (.coolReading tin tout flow dp) s = .next t ∧ begun s t 3 [6, 5, 4, 3, 2] ∧ t.dv.power.ilk = true) ∧
    (∀ tin tout flow dp, s.dv.power.stage = 2 → 200 < tin ∨ flow < 250 →
      ∃ t : State, exec (.coolReading tin tout flow dp) s = .next t ∧ t.dv.power.stage = 2 ∧ t.dv.power.on = s.dv.power.on))

/-- The management bus answers its commands on the pages that they name, at the module's address: a rail's voltage, current and
temperature and VIN are those of the last 1 ms sample; invalid data and an unsupported command are answered apart; in recovery mode
nothing is answered. The time engine passes over messages of another domain; a sync is timestamped, answered with a delay request and
passed on at the other ports that are up; the answer to the request gives the offset and the lock, slews by at most 500 ppm, and steps
tm.now only while no partition is live. -/
def Obligations.BusAndTimeEvents : Prop :=
  ∀ s : State,
    let page := s.dv.power.page
    let r := Tbl.get {} s.dv.power.pmRails page
    (∀ x : PmPage, x.addr ≠ pmAddr → exec (.pmPage x) s = .next s) ∧
    (s.answers = false → ∀ x : PmPage, x.addr = pmAddr → ∀ c, let quiet := answered s .silent
      exec (.pmPage x) s = .next quiet ∧ exec .readVout s = .next quiet ∧ exec .readIout s = .next quiet ∧
      exec .readTemperature1 s = .next quiet ∧ exec .statusWord s = .next quiet ∧ exec .readPin s = .next quiet ∧
      exec .readVin s = .next quiet ∧ exec (.pmbusRefusedWrite c) s = .next quiet ∧ exec (.pmbusUnsupported c) s = .next quiet ∧
      exec .clearFaults s = .next s) ∧
    (s.answers = true →
      (∀ n, (n < 7 ∨ n = 0xFF) →
        exec (.pmPage ⟨pmAddr, n⟩) s = .next (s.updPower fun p => { p with page := n, pmAns := .value n })) ∧
      (∀ n, ¬ (n < 7 ∨ n = 0xFF) → exec (.pmPage ⟨pmAddr, n⟩) s = .next (answered s .invalid)) ∧
      (page < 7 → exec .readVout s = .next (answered s (.value r.mv)) ∧
        exec .readIout s = .next (answered s (.value ((r.amps.headD 0 : Nat) : Int))) ∧
        exec .readTemperature1 s = .next (answered s (.value r.temp)) ∧
        exec .statusWord s = .next (answered s (.value (s.dv.power.statusWord page)))) ∧
      (7 ≤ page → exec .readVout s = .next (answered s .unsupported) ∧ exec .readIout s = .next (answered s .unsupported) ∧
        exec .readTemperature1 s = .next (answered s .unsupported) ∧ exec .statusWord s = .next (answered s .unsupported)) ∧
      (page = 0xFF → exec .readPin s = .next (answered s (.value s.gov.pwr)) ∧
        exec .readVin s = .next (answered s (.value s.dv.power.pmVin))) ∧
      (page ≠ 0xFF → exec .readPin s = .next (answered s .unsupported) ∧ exec .readVin s = .next (answered s .unsupported)) ∧
      ((∀ n, n < 7 → (Tbl.get {} s.dv.power.pmRails n).over (s.railLimit n) = false) → s.gov.ocap = none → s.gov.pkg = none →
        s.gov.dcap = false → page = 0xFF →
        exec .clearFaults s = .next (s.updPower fun p => { p with faults := [], alert := false })) ∧
      (∀ c, exec (.pmbusRefusedWrite c) s = .next (answered s .invalid) ∧
        exec (.pmbusUnsupported c) s = .next (answered s .unsupported))) ∧
    (∀ dom port m, dom ≠ s.dv.cfg.ptpdom ∨ port ∈ s.dv.portsDown → exec (.ptpMessage dom port m) s = .next s) ∧
    (∀ port, port ∉ s.dv.portsDown → let dom := s.dv.cfg.ptpdom
      (∀ t1, ∃ t : State, exec (.ptpMessage dom port (.sync t1)) s = .next t ∧ t.dv.ptpPort = port ∧ t.dv.ptpT1 = t1 ∧
        t.dv.ptpT2 = s.tmNow ∧ t.dv.ptpT3 = s.tmNow ∧ (port, (s.tmNow : Int)) ∈ t.dv.ptpSent ∧ t.tm = s.tm ∧
        ∀ x, x < 16 → x ∉ s.dv.portsDown → (x, (s.tmNow : Int)) ∈ t.dv.ptpSent) ∧
      (exec (.ptpMessage dom port .delayReq) s = .next
        { s with dv := { s.dv with ptpSent := (port, (s.tmNow : Int)) :: s.dv.ptpSent } }) ∧
      (∀ t4 lock ppm, port ≠ s.dv.ptpPort → exec (.ptpMessage dom port (.delayResp t4 lock ppm)) s = .next s) ∧
      (∀ t4 lock ppm, port = s.dv.ptpPort →
        let off : Int := ((s.dv.ptpT2 - s.dv.ptpT1) - (t4 - s.dv.ptpT3)) / 2
        ∃ t : State, exec (.ptpMessage dom port (.delayResp t4 lock ppm)) s = .next t ∧ t.dv.lock = lock ∧ t.dv.off = off ∧
          -500 ≤ t.slew ∧ t.slew ≤ 500 ∧ (-500 ≤ ppm → ppm ≤ 500 → t.slew = ppm) ∧ (s.parts ≠ [] → t.tm = s.tm) ∧
          (s.parts = [] → t.tm = ((s.tm : Int) - off * (tmUnit : Int)).toNat))) ∧
    exec .ppsIn s = .next s

/-! ### Rules stated whole (R185, R189 to R192) -/

/-- mulh, mulhn, div, divn, rem and remn, sxt and zxt, bfx, bfi and lea: each computes what its rule's pseudocode computes,
raises no trap, and is encoded as its rule says; a bfx whose field passes bit 63 does not decode. -/
def Obligations.DivideExtendAndFields : Prop :=
  (∀ (s : State) (o : Bin),
    let w := tyBits o.t
    let a := s.val o.t o.a
    let b := s.valB o.t o.b
    let q : Int := if b = 0 then 2 ^ w - 1 else a.tdiv b
    let m : Int := if b = 0 then a else a - a.tdiv b * b
    let t (i : Instr) (lat : Nat) (x : Int) : State := ((intSources i).foldl State.seen s).putS lat o.d (written o.t x)
    (exec (.mulh o) s = .next (t (.mulh o) 3 (a * b / 2 ^ w)) ∧ exec (.mulhn o) s = .next (t (.mulhn o) 3 (a * b / 2 ^ w)) ∧
      exec (.div o) s = .next (t (.div o) 12 q) ∧ exec (.divn o) s = .next (t (.divn o) 12 q) ∧
      exec (.rem o) s = .next (t (.rem o) 12 m) ∧ exec (.remn o) s = .next (t (.remn o) 12 m))) ∧
  (∀ (s : State) (d : BitVec 6) (a : Src) (n1 : BitVec 6),
    exec (.sxt d a n1) s = .next ((s.seen a).putS 1 d (((s.src a).extractLsb' 0 (n1.toNat + 1)).signExtend 64)) ∧
    exec (.zxt d a n1) s = .next ((s.seen a).putS 1 d (((s.src a).extractLsb' 0 (n1.toNat + 1)).setWidth 64))) ∧
  (∀ (w : IWord) (x : Inst) (d : BitVec 6) (a : Src) (n1 : BitVec 6), decode w = some x →
    (x.instr = .sxt d a n1 ∨ x.instr = .zxt d a n1) → n1 = w.extractLsb' 32 6 ∧ w.extractLsb' 38 12 = 0) ∧
  (∀ (s : State) (d : BitVec 6) (a b c : Src) (pos len1 : BitVec 6) (sh : BitVec 3) (disp : BitVec 15),
    (let f := (s.src a).extractLsb' pos.toNat (len1.toNat + 1)
     exec (.bfx true d a pos len1) s = .next ((s.seen a).putS 1 d (f.signExtend 64)) ∧
     exec (.bfx false d a pos len1) s = .next ((s.seen a).putS 1 d (f.setWidth 64))) ∧
    (let p := ((s.src c).extractLsb' 0 6).toNat
     let len := ((s.src c).extractLsb' 6 6).toNat + 1
     ∃ v : Word, exec (.bfi d a b c) s = .next ((((s.seen a).seen b).seen c).putS 1 d v) ∧ ∀ i, i < 64 →
       v.getLsbD i = if p ≤ i ∧ i ≤ min (p + len - 1) 63 then (s.src a).getLsbD (i - p) else (s.src b).getLsbD i) ∧
    exec (.lea d a b sh disp) s = .next (((s.seen a).seen b).putS 1 d
      (BitVec.ofInt 64 ((s.src a).toNat + (s.src b).toNat * 2 ^ sh.toNat + disp.toInt)))) ∧
  (∀ (w : IWord) (x : Inst), decode w = some x →
    (∀ sgn d a pos len1, x.instr = .bfx sgn d a pos len1 → sgn = w.getLsbD 80 ∧ pos = w.extractLsb' 32 6 ∧
      len1 = w.extractLsb' 38 6 ∧ w.extractLsb' 44 6 = 0 ∧ pos.toNat + (len1.toNat + 1) ≤ 64) ∧
    (∀ d a b sh disp, x.instr = .lea d a b sh disp → sh = w.extractLsb' 32 3 ∧ disp = w.extractLsb' 35 15)) ∧
  (written .i8 (100 + 50) = 0xFFFFFFFFFFFFFF96 ∧ resWord .i8 true (100 + 50) = 0x7F ∧ resWord .n8 true (200 + 100) = 0xFF ∧
    written .i32 ((7 : Int).tdiv (-2)) = BitVec.ofInt 64 (-3) ∧ written .i32 (7 - (7 : Int).tdiv (-2) * (-2)) = 1 ∧
    written .i32 ((-7 : Int).tdiv 2) = BitVec.ofInt 64 (-3) ∧ written .i32 (-7 - (-7 : Int).tdiv 2 * 2) = BitVec.ofInt 64 (-1) ∧
    written .i32 (2 ^ 32 - 1) = 0xFFFFFFFFFFFFFFFF ∧ written .i32 ((-2 ^ 31 : Int).tdiv (-1)) = 0xFFFFFFFF80000000 ∧
    written .n8 (2 ^ 8 - 1) = 0xFF ∧ written .n8 200 = 0xC8 ∧ written .n8 ((200 : Int).tdiv 7) = 28 ∧
    written .n8 (200 - (200 : Int).tdiv 7 * 7) = 4) ∧
  (∀ (s : State) (r : Src), s.src r = 0x0000000100000005 → s.val .i32 r = 5 ∧ s.val .n32 r = 5)
end

