-- ==== Sys2Proof/Laws/State.lean ====
section
/-! SUPPORT. One lemma for each field of the state under each of the shared updates, true by unfolding, so that no proof
unfolds a record update; the same for the updates of a context that put results in flight and set tokens. -/

namespace Sys2Proof.Machine

/-! ### `State.setCore` -/

@[simp] theorem State.setCore_tick (s : State) (t : Nat) (k : Core) : (s.setCore t k).tick = s.tick := rfl
@[simp] theorem State.setCore_agenda (s : State) (t : Nat) (k : Core) : (s.setCore t k).agenda = s.agenda := rfl
@[simp] theorem State.setCore_me (s : State) (t : Nat) (k : Core) : (s.setCore t k).me = s.me := rfl
@[simp] theorem State.setCore_cur (s : State) (t : Nat) (k : Core) : (s.setCore t k).cur = s.cur := rfl
@[simp] theorem State.setCore_fresh (s : State) (t : Nat) (k : Core) : (s.setCore t k).fresh = s.fresh := rfl
@[simp] theorem State.setCore_gangs (s : State) (t : Nat) (k : Core) : (s.setCore t k).gangs = s.gangs := rfl
@[simp] theorem State.setCore_mem (s : State) (t : Nat) (k : Core) : (s.setCore t k).mem = s.mem := rfl
@[simp] theorem State.setCore_poison (s : State) (t : Nat) (k : Core) : (s.setCore t k).poison = s.poison := rfl
@[simp] theorem State.setCore_outside (s : State) (t : Nat) (k : Core) : (s.setCore t k).outside = s.outside := rfl
@[simp] theorem State.setCore_atc (s : State) (t : Nat) (k : Core) : (s.setCore t k).atc = s.atc := rfl
@[simp] theorem State.setCore_seqs (s : State) (t : Nat) (k : Core) : (s.setCore t k).seqs = s.seqs := rfl
@[simp] theorem State.setCore_flights (s : State) (t : Nat) (k : Core) : (s.setCore t k).flights = s.flights := rfl
@[simp] theorem State.setCore_slices (s : State) (t : Nat) (k : Core) : (s.setCore t k).slices = s.slices := rfl
@[simp] theorem State.setCore_missQ (s : State) (t : Nat) (k : Core) : (s.setCore t k).missQ = s.missQ := rfl
@[simp] theorem State.setCore_dts (s : State) (t : Nat) (k : Core) : (s.setCore t k).dts = s.dts := rfl
@[simp] theorem State.setCore_hv (s : State) (t : Nat) (k : Core) : (s.setCore t k).hv = s.hv := rfl
@[simp] theorem State.setCore_bg (s : State) (t : Nat) (k : Core) : (s.setCore t k).bg = s.bg := rfl
@[simp] theorem State.setCore_ptroots (s : State) (t : Nat) (k : Core) : (s.setCore t k).ptroots = s.ptroots := rfl
@[simp] theorem State.setCore_wcache (s : State) (t : Nat) (k : Core) : (s.setCore t k).wcache = s.wcache := rfl
@[simp] theorem State.setCore_parts (s : State) (t : Nat) (k : Core) : (s.setCore t k).parts = s.parts := rfl
@[simp] theorem State.setCore_regions (s : State) (t : Nat) (k : Core) : (s.setCore t k).regions = s.regions := rfl
@[simp] theorem State.setCore_images (s : State) (t : Nat) (k : Core) : (s.setCore t k).images = s.images := rfl
@[simp] theorem State.setCore_nextRegion (s : State) (t : Nat) (k : Core) : (s.setCore t k).nextRegion = s.nextRegion := rfl
@[simp] theorem State.setCore_recs (s : State) (t : Nat) (k : Core) : (s.setCore t k).recs = s.recs := rfl
@[simp] theorem State.setCore_recSeq (s : State) (t : Nat) (k : Core) : (s.setCore t k).recSeq = s.recSeq := rfl
@[simp] theorem State.setCore_cells (s : State) (t : Nat) (k : Core) : (s.setCore t k).cells = s.cells := rfl
@[simp] theorem State.setCore_quads (s : State) (t : Nat) (k : Core) : (s.setCore t k).quads = s.quads := rfl
@[simp] theorem State.setCore_wakeQ (s : State) (t : Nat) (k : Core) : (s.setCore t k).wakeQ = s.wakeQ := rfl
@[simp] theorem State.setCore_pgWaves (s : State) (t : Nat) (k : Core) : (s.setCore t k).pgWaves = s.pgWaves := rfl
@[simp] theorem State.setCore_pgIdle (s : State) (t : Nat) (k : Core) : (s.setCore t k).pgIdle = s.pgIdle := rfl
@[simp] theorem State.setCore_pgEn (s : State) (t : Nat) (k : Core) : (s.setCore t k).pgEn = s.pgEn := rfl
@[simp] theorem State.setCore_hotCells (s : State) (t : Nat) (k : Core) : (s.setCore t k).hotCells = s.hotCells := rfl
@[simp] theorem State.setCore_ts (s : State) (t : Nat) (k : Core) : (s.setCore t k).ts = s.ts := rfl
@[simp] theorem State.setCore_stopEvs (s : State) (t : Nat) (k : Core) : (s.setCore t k).stopEvs = s.stopEvs := rfl
@[simp] theorem State.setCore_gov (s : State) (t : Nat) (k : Core) : (s.setCore t k).gov = s.gov := rfl
@[simp] theorem State.setCore_dv (s : State) (t : Nat) (k : Core) : (s.setCore t k).dv = s.dv := rfl
@[simp] theorem State.setCore_eccd (s : State) (t : Nat) (k : Core) : (s.setCore t k).eccd = s.eccd := rfl
@[simp] theorem State.setCore_tm (s : State) (t : Nat) (k : Core) : (s.setCore t k).tm = s.tm := rfl
@[simp] theorem State.setCore_slew (s : State) (t : Nat) (k : Core) : (s.setCore t k).slew = s.slew := rfl
@[simp] theorem State.setCore_pnow (s : State) (t : Nat) (k : Core) : (s.setCore t k).pnow = s.pnow := rfl

/-! ### `State.setC` -/

@[simp] theorem State.setC_tick (s : State) (c : Ctx) : (s.setC c).tick = s.tick := rfl
@[simp] theorem State.setC_agenda (s : State) (c : Ctx) : (s.setC c).agenda = s.agenda := rfl
@[simp] theorem State.setC_me (s : State) (c : Ctx) : (s.setC c).me = s.me := rfl
@[simp] theorem State.setC_cur (s : State) (c : Ctx) : (s.setC c).cur = s.cur := rfl
@[simp] theorem State.setC_fresh (s : State) (c : Ctx) : (s.setC c).fresh = s.fresh := rfl
@[simp] theorem State.setC_gangs (s : State) (c : Ctx) : (s.setC c).gangs = s.gangs := rfl
@[simp] theorem State.setC_mem (s : State) (c : Ctx) : (s.setC c).mem = s.mem := rfl
@[simp] theorem State.setC_poison (s : State) (c : Ctx) : (s.setC c).poison = s.poison := rfl
@[simp] theorem State.setC_outside (s : State) (c : Ctx) : (s.setC c).outside = s.outside := rfl
@[simp] theorem State.setC_atc (s : State) (c : Ctx) : (s.setC c).atc = s.atc := rfl
@[simp] theorem State.setC_seqs (s : State) (c : Ctx) : (s.setC c).seqs = s.seqs := rfl
@[simp] theorem State.setC_flights (s : State) (c : Ctx) : (s.setC c).flights = s.flights := rfl
@[simp] theorem State.setC_slices (s : State) (c : Ctx) : (s.setC c).slices = s.slices := rfl
@[simp] theorem State.setC_missQ (s : State) (c : Ctx) : (s.setC c).missQ = s.missQ := rfl
@[simp] theorem State.setC_dts (s : State) (c : Ctx) : (s.setC c).dts = s.dts := rfl
@[simp] theorem State.setC_hv (s : State) (c : Ctx) : (s.setC c).hv = s.hv := rfl
@[simp] theorem State.setC_bg (s : State) (c : Ctx) : (s.setC c).bg = s.bg := rfl
@[simp] theorem State.setC_ptroots (s : State) (c : Ctx) : (s.setC c).ptroots = s.ptroots := rfl
@[simp] theorem State.setC_wcache (s : State) (c : Ctx) : (s.setC c).wcache = s.wcache := rfl
@[simp] theorem State.setC_parts (s : State) (c : Ctx) : (s.setC c).parts = s.parts := rfl
@[simp] theorem State.setC_regions (s : State) (c : Ctx) : (s.setC c).regions = s.regions := rfl
@[simp] theorem State.setC_images (s : State) (c : Ctx) : (s.setC c).images = s.images := rfl
@[simp] theorem State.setC_nextRegion (s : State) (c : Ctx) : (s.setC c).nextRegion = s.nextRegion := rfl
@[simp] theorem State.setC_recs (s : State) (c : Ctx) : (s.setC c).recs = s.recs := rfl
@[simp] theorem State.setC_recSeq (s : State) (c : Ctx) : (s.setC c).recSeq = s.recSeq := rfl
@[simp] theorem State.setC_cells (s : State) (c : Ctx) : (s.setC c).cells = s.cells := rfl
@[simp] theorem State.setC_quads (s : State) (c : Ctx) : (s.setC c).quads = s.quads := rfl
@[simp] theorem State.setC_wakeQ (s : State) (c : Ctx) : (s.setC c).wakeQ = s.wakeQ := rfl
@[simp] theorem State.setC_pgWaves (s : State) (c : Ctx) : (s.setC c).pgWaves = s.pgWaves := rfl
@[simp] theorem State.setC_pgIdle (s : State) (c : Ctx) : (s.setC c).pgIdle = s.pgIdle := rfl
@[simp] theorem State.setC_pgEn (s : State) (c : Ctx) : (s.setC c).pgEn = s.pgEn := rfl
@[simp] theorem State.setC_hotCells (s : State) (c : Ctx) : (s.setC c).hotCells = s.hotCells := rfl
@[simp] theorem State.setC_ts (s : State) (c : Ctx) : (s.setC c).ts = s.ts := rfl
@[simp] theorem State.setC_stopEvs (s : State) (c : Ctx) : (s.setC c).stopEvs = s.stopEvs := rfl
@[simp] theorem State.setC_gov (s : State) (c : Ctx) : (s.setC c).gov = s.gov := rfl
@[simp] theorem State.setC_dv (s : State) (c : Ctx) : (s.setC c).dv = s.dv := rfl
@[simp] theorem State.setC_eccd (s : State) (c : Ctx) : (s.setC c).eccd = s.eccd := rfl
@[simp] theorem State.setC_tm (s : State) (c : Ctx) : (s.setC c).tm = s.tm := rfl
@[simp] theorem State.setC_slew (s : State) (c : Ctx) : (s.setC c).slew = s.slew := rfl
@[simp] theorem State.setC_pnow (s : State) (c : Ctx) : (s.setC c).pnow = s.pnow := rfl

/-! ### `State.updC` -/

@[simp] theorem State.updC_tick (s : State) (f : Ctx → Ctx) : (s.updC f).tick = s.tick := rfl
@[simp] theorem State.updC_agenda (s : State) (f : Ctx → Ctx) : (s.updC f).agenda = s.agenda := rfl
@[simp] theorem State.updC_me (s : State) (f : Ctx → Ctx) : (s.updC f).me = s.me := rfl
@[simp] theorem State.updC_cur (s : State) (f : Ctx → Ctx) : (s.updC f).cur = s.cur := rfl
@[simp] theorem State.updC_fresh (s : State) (f : Ctx → Ctx) : (s.updC f).fresh = s.fresh := rfl
@[simp] theorem State.updC_gangs (s : State) (f : Ctx → Ctx) : (s.updC f).gangs = s.gangs := rfl
@[simp] theorem State.updC_mem (s : State) (f : Ctx → Ctx) : (s.updC f).mem = s.mem := rfl
@[simp] theorem State.updC_poison (s : State) (f : Ctx → Ctx) : (s.updC f).poison = s.poison := rfl
@[simp] theorem State.updC_outside (s : State) (f : Ctx → Ctx) : (s.updC f).outside = s.outside := rfl
@[simp] theorem State.updC_atc (s : State) (f : Ctx → Ctx) : (s.updC f).atc = s.atc := rfl
@[simp] theorem State.updC_seqs (s : State) (f : Ctx → Ctx) : (s.updC f).seqs = s.seqs := rfl
@[simp] theorem State.updC_flights (s : State) (f : Ctx → Ctx) : (s.updC f).flights = s.flights := rfl
@[simp] theorem State.updC_slices (s : State) (f : Ctx → Ctx) : (s.updC f).slices = s.slices := rfl
@[simp] theorem State.updC_missQ (s : State) (f : Ctx → Ctx) : (s.updC f).missQ = s.missQ := rfl
@[simp] theorem State.updC_dts (s : State) (f : Ctx → Ctx) : (s.updC f).dts = s.dts := rfl
@[simp] theorem State.updC_hv (s : State) (f : Ctx → Ctx) : (s.updC f).hv = s.hv := rfl
@[simp] theorem State.updC_bg (s : State) (f : Ctx → Ctx) : (s.updC f).bg = s.bg := rfl
@[simp] theorem State.updC_ptroots (s : State) (f : Ctx → Ctx) : (s.updC f).ptroots = s.ptroots := rfl
@[simp] theorem State.updC_wcache (s : State) (f : Ctx → Ctx) : (s.updC f).wcache = s.wcache := rfl
@[simp] theorem State.updC_parts (s : State) (f : Ctx → Ctx) : (s.updC f).parts = s.parts := rfl
@[simp] theorem State.updC_regions (s : State) (f : Ctx → Ctx) : (s.updC f).regions = s.regions := rfl
@[simp] theorem State.updC_images (s : State) (f : Ctx → Ctx) : (s.updC f).images = s.images := rfl
@[simp] theorem State.updC_nextRegion (s : State) (f : Ctx → Ctx) : (s.updC f).nextRegion = s.nextRegion := rfl
@[simp] theorem State.updC_recs (s : State) (f : Ctx → Ctx) : (s.updC f).recs = s.recs := rfl
@[simp] theorem State.updC_recSeq (s : State) (f : Ctx → Ctx) : (s.updC f).recSeq = s.recSeq := rfl
@[simp] theorem State.updC_cells (s : State) (f : Ctx → Ctx) : (s.updC f).cells = s.cells := rfl
@[simp] theorem State.updC_quads (s : State) (f : Ctx → Ctx) : (s.updC f).quads = s.quads := rfl
@[simp] theorem State.updC_wakeQ (s : State) (f : Ctx → Ctx) : (s.updC f).wakeQ = s.wakeQ := rfl
@[simp] theorem State.updC_pgWaves (s : State) (f : Ctx → Ctx) : (s.updC f).pgWaves = s.pgWaves := rfl
@[simp] theorem State.updC_pgIdle (s : State) (f : Ctx → Ctx) : (s.updC f).pgIdle = s.pgIdle := rfl
@[simp] theorem State.updC_pgEn (s : State) (f : Ctx → Ctx) : (s.updC f).pgEn = s.pgEn := rfl
@[simp] theorem State.updC_hotCells (s : State) (f : Ctx → Ctx) : (s.updC f).hotCells = s.hotCells := rfl
@[simp] theorem State.updC_ts (s : State) (f : Ctx → Ctx) : (s.updC f).ts = s.ts := rfl
@[simp] theorem State.updC_stopEvs (s : State) (f : Ctx → Ctx) : (s.updC f).stopEvs = s.stopEvs := rfl
@[simp] theorem State.updC_gov (s : State) (f : Ctx → Ctx) : (s.updC f).gov = s.gov := rfl
@[simp] theorem State.updC_dv (s : State) (f : Ctx → Ctx) : (s.updC f).dv = s.dv := rfl
@[simp] theorem State.updC_eccd (s : State) (f : Ctx → Ctx) : (s.updC f).eccd = s.eccd := rfl
@[simp] theorem State.updC_tm (s : State) (f : Ctx → Ctx) : (s.updC f).tm = s.tm := rfl
@[simp] theorem State.updC_slew (s : State) (f : Ctx → Ctx) : (s.updC f).slew = s.slew := rfl
@[simp] theorem State.updC_pnow (s : State) (f : Ctx → Ctx) : (s.updC f).pnow = s.pnow := rfl

/-! ### `State.updRegion` -/

@[simp] theorem State.updRegion_tick (s : State) (r : Nat) (f : Region → Region) : (s.updRegion r f).tick = s.tick := rfl
@[simp] theorem State.updRegion_agenda (s : State) (r : Nat) (f : Region → Region) : (s.updRegion r f).agenda = s.agenda := rfl
@[simp] theorem State.updRegion_me (s : State) (r : Nat) (f : Region → Region) : (s.updRegion r f).me = s.me := rfl
@[simp] theorem State.updRegion_cur (s : State) (r : Nat) (f : Region → Region) : (s.updRegion r f).cur = s.cur := rfl
@[simp] theorem State.updRegion_fresh (s : State) (r : Nat) (f : Region → Region) : (s.updRegion r f).fresh = s.fresh := rfl
@[simp] theorem State.updRegion_cores (s : State) (r : Nat) (f : Region → Region) : (s.updRegion r f).cores = s.cores := rfl
@[simp] theorem State.updRegion_gangs (s : State) (r : Nat) (f : Region → Region) : (s.updRegion r f).gangs = s.gangs := rfl
@[simp] theorem State.updRegion_mem (s : State) (r : Nat) (f : Region → Region) : (s.updRegion r f).mem = s.mem := rfl
@[simp] theorem State.updRegion_poison (s : State) (r : Nat) (f : Region → Region) : (s.updRegion r f).poison = s.poison := rfl
@[simp] theorem State.updRegion_outside (s : State) (r : Nat) (f : Region → Region) : (s.updRegion r f).outside = s.outside := rfl
@[simp] theorem State.updRegion_atc (s : State) (r : Nat) (f : Region → Region) : (s.updRegion r f).atc = s.atc := rfl
@[simp] theorem State.updRegion_seqs (s : State) (r : Nat) (f : Region → Region) : (s.updRegion r f).seqs = s.seqs := rfl
@[simp] theorem State.updRegion_flights (s : State) (r : Nat) (f : Region → Region) : (s.updRegion r f).flights = s.flights := rfl
@[simp] theorem State.updRegion_slices (s : State) (r : Nat) (f : Region → Region) : (s.updRegion r f).slices = s.slices := rfl
@[simp] theorem State.updRegion_missQ (s : State) (r : Nat) (f : Region → Region) : (s.updRegion r f).missQ = s.missQ := rfl
@[simp] theorem State.updRegion_dts (s : State) (r : Nat) (f : Region → Region) : (s.updRegion r f).dts = s.dts := rfl
@[simp] theorem State.updRegion_hv (s : State) (r : Nat) (f : Region → Region) : (s.updRegion r f).hv = s.hv := rfl
@[simp] theorem State.updRegion_bg (s : State) (r : Nat) (f : Region → Region) : (s.updRegion r f).bg = s.bg := rfl
@[simp] theorem State.updRegion_ptroots (s : State) (r : Nat) (f : Region → Region) : (s.updRegion r f).ptroots = s.ptroots := rfl
@[simp] theorem State.updRegion_wcache (s : State) (r : Nat) (f : Region → Region) : (s.updRegion r f).wcache = s.wcache := rfl
@[simp] theorem State.updRegion_parts (s : State) (r : Nat) (f : Region → Region) : (s.updRegion r f).parts = s.parts := rfl
@[simp] theorem State.updRegion_images (s : State) (r : Nat) (f : Region → Region) : (s.updRegion r f).images = s.images := rfl
@[simp] theorem State.updRegion_nextRegion (s : State) (r : Nat) (f : Region → Region) : (s.updRegion r f).nextRegion = s.nextRegion := rfl
@[simp] theorem State.updRegion_recs (s : State) (r : Nat) (f : Region → Region) : (s.updRegion r f).recs = s.recs := rfl
@[simp] theorem State.updRegion_recSeq (s : State) (r : Nat) (f : Region → Region) : (s.updRegion r f).recSeq = s.recSeq := rfl
@[simp] theorem State.updRegion_cells (s : State) (r : Nat) (f : Region → Region) : (s.updRegion r f).cells = s.cells := rfl
@[simp] theorem State.updRegion_quads (s : State) (r : Nat) (f : Region → Region) : (s.updRegion r f).quads = s.quads := rfl
@[simp] theorem State.updRegion_wakeQ (s : State) (r : Nat) (f : Region → Region) : (s.updRegion r f).wakeQ = s.wakeQ := rfl
@[simp] theorem State.updRegion_pgWaves (s : State) (r : Nat) (f : Region → Region) : (s.updRegion r f).pgWaves = s.pgWaves := rfl
@[simp] theorem State.updRegion_pgIdle (s : State) (r : Nat) (f : Region → Region) : (s.updRegion r f).pgIdle = s.pgIdle := rfl
@[simp] theorem State.updRegion_pgEn (s : State) (r : Nat) (f : Region → Region) : (s.updRegion r f).pgEn = s.pgEn := rfl
@[simp] theorem State.updRegion_hotCells (s : State) (r : Nat) (f : Region → Region) : (s.updRegion r f).hotCells = s.hotCells := rfl
@[simp] theorem State.updRegion_ts (s : State) (r : Nat) (f : Region → Region) : (s.updRegion r f).ts = s.ts := rfl
@[simp] theorem State.updRegion_stopEvs (s : State) (r : Nat) (f : Region → Region) : (s.updRegion r f).stopEvs = s.stopEvs := rfl
@[simp] theorem State.updRegion_gov (s : State) (r : Nat) (f : Region → Region) : (s.updRegion r f).gov = s.gov := rfl
@[simp] theorem State.updRegion_dv (s : State) (r : Nat) (f : Region → Region) : (s.updRegion r f).dv = s.dv := rfl
@[simp] theorem State.updRegion_eccd (s : State) (r : Nat) (f : Region → Region) : (s.updRegion r f).eccd = s.eccd := rfl
@[simp] theorem State.updRegion_tm (s : State) (r : Nat) (f : Region → Region) : (s.updRegion r f).tm = s.tm := rfl
@[simp] theorem State.updRegion_slew (s : State) (r : Nat) (f : Region → Region) : (s.updRegion r f).slew = s.slew := rfl
@[simp] theorem State.updRegion_pnow (s : State) (r : Nat) (f : Region → Region) : (s.updRegion r f).pnow = s.pnow := rfl

/-! ### `State.updPart` -/

@[simp] theorem State.updPart_tick (s : State) (p : Nat) (f : Part → Part) : (s.updPart p f).tick = s.tick := rfl
@[simp] theorem State.updPart_agenda (s : State) (p : Nat) (f : Part → Part) : (s.updPart p f).agenda = s.agenda := rfl
@[simp] theorem State.updPart_me (s : State) (p : Nat) (f : Part → Part) : (s.updPart p f).me = s.me := rfl
@[simp] theorem State.updPart_cur (s : State) (p : Nat) (f : Part → Part) : (s.updPart p f).cur = s.cur := rfl
@[simp] theorem State.updPart_fresh (s : State) (p : Nat) (f : Part → Part) : (s.updPart p f).fresh = s.fresh := rfl
@[simp] theorem State.updPart_cores (s : State) (p : Nat) (f : Part → Part) : (s.updPart p f).cores = s.cores := rfl
@[simp] theorem State.updPart_gangs (s : State) (p : Nat) (f : Part → Part) : (s.updPart p f).gangs = s.gangs := rfl
@[simp] theorem State.updPart_mem (s : State) (p : Nat) (f : Part → Part) : (s.updPart p f).mem = s.mem := rfl
@[simp] theorem State.updPart_poison (s : State) (p : Nat) (f : Part → Part) : (s.updPart p f).poison = s.poison := rfl
@[simp] theorem State.updPart_outside (s : State) (p : Nat) (f : Part → Part) : (s.updPart p f).outside = s.outside := rfl
@[simp] theorem State.updPart_atc (s : State) (p : Nat) (f : Part → Part) : (s.updPart p f).atc = s.atc := rfl
@[simp] theorem State.updPart_seqs (s : State) (p : Nat) (f : Part → Part) : (s.updPart p f).seqs = s.seqs := rfl
@[simp] theorem State.updPart_flights (s : State) (p : Nat) (f : Part → Part) : (s.updPart p f).flights = s.flights := rfl
@[simp] theorem State.updPart_slices (s : State) (p : Nat) (f : Part → Part) : (s.updPart p f).slices = s.slices := rfl
@[simp] theorem State.updPart_missQ (s : State) (p : Nat) (f : Part → Part) : (s.updPart p f).missQ = s.missQ := rfl
@[simp] theorem State.updPart_dts (s : State) (p : Nat) (f : Part → Part) : (s.updPart p f).dts = s.dts := rfl
@[simp] theorem State.updPart_hv (s : State) (p : Nat) (f : Part → Part) : (s.updPart p f).hv = s.hv := rfl
@[simp] theorem State.updPart_bg (s : State) (p : Nat) (f : Part → Part) : (s.updPart p f).bg = s.bg := rfl
@[simp] theorem State.updPart_ptroots (s : State) (p : Nat) (f : Part → Part) : (s.updPart p f).ptroots = s.ptroots := rfl
@[simp] theorem State.updPart_wcache (s : State) (p : Nat) (f : Part → Part) : (s.updPart p f).wcache = s.wcache := rfl
@[simp] theorem State.updPart_regions (s : State) (p : Nat) (f : Part → Part) : (s.updPart p f).regions = s.regions := rfl
@[simp] theorem State.updPart_images (s : State) (p : Nat) (f : Part → Part) : (s.updPart p f).images = s.images := rfl
@[simp] theorem State.updPart_nextRegion (s : State) (p : Nat) (f : Part → Part) : (s.updPart p f).nextRegion = s.nextRegion := rfl
@[simp] theorem State.updPart_recs (s : State) (p : Nat) (f : Part → Part) : (s.updPart p f).recs = s.recs := rfl
@[simp] theorem State.updPart_recSeq (s : State) (p : Nat) (f : Part → Part) : (s.updPart p f).recSeq = s.recSeq := rfl
@[simp] theorem State.updPart_cells (s : State) (p : Nat) (f : Part → Part) : (s.updPart p f).cells = s.cells := rfl
@[simp] theorem State.updPart_quads (s : State) (p : Nat) (f : Part → Part) : (s.updPart p f).quads = s.quads := rfl
@[simp] theorem State.updPart_wakeQ (s : State) (p : Nat) (f : Part → Part) : (s.updPart p f).wakeQ = s.wakeQ := rfl
@[simp] theorem State.updPart_pgWaves (s : State) (p : Nat) (f : Part → Part) : (s.updPart p f).pgWaves = s.pgWaves := rfl
@[simp] theorem State.updPart_pgIdle (s : State) (p : Nat) (f : Part → Part) : (s.updPart p f).pgIdle = s.pgIdle := rfl
@[simp] theorem State.updPart_pgEn (s : State) (p : Nat) (f : Part → Part) : (s.updPart p f).pgEn = s.pgEn := rfl
@[simp] theorem State.updPart_hotCells (s : State) (p : Nat) (f : Part → Part) : (s.updPart p f).hotCells = s.hotCells := rfl
@[simp] theorem State.updPart_ts (s : State) (p : Nat) (f : Part → Part) : (s.updPart p f).ts = s.ts := rfl
@[simp] theorem State.updPart_stopEvs (s : State) (p : Nat) (f : Part → Part) : (s.updPart p f).stopEvs = s.stopEvs := rfl
@[simp] theorem State.updPart_gov (s : State) (p : Nat) (f : Part → Part) : (s.updPart p f).gov = s.gov := rfl
@[simp] theorem State.updPart_dv (s : State) (p : Nat) (f : Part → Part) : (s.updPart p f).dv = s.dv := rfl
@[simp] theorem State.updPart_eccd (s : State) (p : Nat) (f : Part → Part) : (s.updPart p f).eccd = s.eccd := rfl
@[simp] theorem State.updPart_tm (s : State) (p : Nat) (f : Part → Part) : (s.updPart p f).tm = s.tm := rfl
@[simp] theorem State.updPart_slew (s : State) (p : Nat) (f : Part → Part) : (s.updPart p f).slew = s.slew := rfl
@[simp] theorem State.updPart_pnow (s : State) (p : Nat) (f : Part → Part) : (s.updPart p f).pnow = s.pnow := rfl

/-! ### `State.updGang` -/

@[simp] theorem State.updGang_tick (s : State) (g : Nat) (f : Gang → Gang) : (s.updGang g f).tick = s.tick := rfl
@[simp] theorem State.updGang_agenda (s : State) (g : Nat) (f : Gang → Gang) : (s.updGang g f).agenda = s.agenda := rfl
@[simp] theorem State.updGang_me (s : State) (g : Nat) (f : Gang → Gang) : (s.updGang g f).me = s.me := rfl
@[simp] theorem State.updGang_cur (s : State) (g : Nat) (f : Gang → Gang) : (s.updGang g f).cur = s.cur := rfl
@[simp] theorem State.updGang_fresh (s : State) (g : Nat) (f : Gang → Gang) : (s.updGang g f).fresh = s.fresh := rfl
@[simp] theorem State.updGang_cores (s : State) (g : Nat) (f : Gang → Gang) : (s.updGang g f).cores = s.cores := rfl
@[simp] theorem State.updGang_mem (s : State) (g : Nat) (f : Gang → Gang) : (s.updGang g f).mem = s.mem := rfl
@[simp] theorem State.updGang_poison (s : State) (g : Nat) (f : Gang → Gang) : (s.updGang g f).poison = s.poison := rfl
@[simp] theorem State.updGang_outside (s : State) (g : Nat) (f : Gang → Gang) : (s.updGang g f).outside = s.outside := rfl
@[simp] theorem State.updGang_atc (s : State) (g : Nat) (f : Gang → Gang) : (s.updGang g f).atc = s.atc := rfl
@[simp] theorem State.updGang_seqs (s : State) (g : Nat) (f : Gang → Gang) : (s.updGang g f).seqs = s.seqs := rfl
@[simp] theorem State.updGang_flights (s : State) (g : Nat) (f : Gang → Gang) : (s.updGang g f).flights = s.flights := rfl
@[simp] theorem State.updGang_slices (s : State) (g : Nat) (f : Gang → Gang) : (s.updGang g f).slices = s.slices := rfl
@[simp] theorem State.updGang_missQ (s : State) (g : Nat) (f : Gang → Gang) : (s.updGang g f).missQ = s.missQ := rfl
@[simp] theorem State.updGang_dts (s : State) (g : Nat) (f : Gang → Gang) : (s.updGang g f).dts = s.dts := rfl
@[simp] theorem State.updGang_hv (s : State) (g : Nat) (f : Gang → Gang) : (s.updGang g f).hv = s.hv := rfl
@[simp] theorem State.updGang_bg (s : State) (g : Nat) (f : Gang → Gang) : (s.updGang g f).bg = s.bg := rfl
@[simp] theorem State.updGang_ptroots (s : State) (g : Nat) (f : Gang → Gang) : (s.updGang g f).ptroots = s.ptroots := rfl
@[simp] theorem State.updGang_wcache (s : State) (g : Nat) (f : Gang → Gang) : (s.updGang g f).wcache = s.wcache := rfl
@[simp] theorem State.updGang_parts (s : State) (g : Nat) (f : Gang → Gang) : (s.updGang g f).parts = s.parts := rfl
@[simp] theorem State.updGang_regions (s : State) (g : Nat) (f : Gang → Gang) : (s.updGang g f).regions = s.regions := rfl
@[simp] theorem State.updGang_images (s : State) (g : Nat) (f : Gang → Gang) : (s.updGang g f).images = s.images := rfl
@[simp] theorem State.updGang_nextRegion (s : State) (g : Nat) (f : Gang → Gang) : (s.updGang g f).nextRegion = s.nextRegion := rfl
@[simp] theorem State.updGang_recs (s : State) (g : Nat) (f : Gang → Gang) : (s.updGang g f).recs = s.recs := rfl
@[simp] theorem State.updGang_recSeq (s : State) (g : Nat) (f : Gang → Gang) : (s.updGang g f).recSeq = s.recSeq := rfl
@[simp] theorem State.updGang_cells (s : State) (g : Nat) (f : Gang → Gang) : (s.updGang g f).cells = s.cells := rfl
@[simp] theorem State.updGang_quads (s : State) (g : Nat) (f : Gang → Gang) : (s.updGang g f).quads = s.quads := rfl
@[simp] theorem State.updGang_wakeQ (s : State) (g : Nat) (f : Gang → Gang) : (s.updGang g f).wakeQ = s.wakeQ := rfl
@[simp] theorem State.updGang_pgWaves (s : State) (g : Nat) (f : Gang → Gang) : (s.updGang g f).pgWaves = s.pgWaves := rfl
@[simp] theorem State.updGang_pgIdle (s : State) (g : Nat) (f : Gang → Gang) : (s.updGang g f).pgIdle = s.pgIdle := rfl
@[simp] theorem State.updGang_pgEn (s : State) (g : Nat) (f : Gang → Gang) : (s.updGang g f).pgEn = s.pgEn := rfl
@[simp] theorem State.updGang_hotCells (s : State) (g : Nat) (f : Gang → Gang) : (s.updGang g f).hotCells = s.hotCells := rfl
@[simp] theorem State.updGang_ts (s : State) (g : Nat) (f : Gang → Gang) : (s.updGang g f).ts = s.ts := rfl
@[simp] theorem State.updGang_stopEvs (s : State) (g : Nat) (f : Gang → Gang) : (s.updGang g f).stopEvs = s.stopEvs := rfl
@[simp] theorem State.updGang_gov (s : State) (g : Nat) (f : Gang → Gang) : (s.updGang g f).gov = s.gov := rfl
@[simp] theorem State.updGang_dv (s : State) (g : Nat) (f : Gang → Gang) : (s.updGang g f).dv = s.dv := rfl
@[simp] theorem State.updGang_eccd (s : State) (g : Nat) (f : Gang → Gang) : (s.updGang g f).eccd = s.eccd := rfl
@[simp] theorem State.updGang_tm (s : State) (g : Nat) (f : Gang → Gang) : (s.updGang g f).tm = s.tm := rfl
@[simp] theorem State.updGang_slew (s : State) (g : Nat) (f : Gang → Gang) : (s.updGang g f).slew = s.slew := rfl
@[simp] theorem State.updGang_pnow (s : State) (g : Nat) (f : Gang → Gang) : (s.updGang g f).pnow = s.pnow := rfl

/-! ### `State.sched` -/

@[simp] theorem State.sched_tick (s : State) (n : Nat) (e : Ev) : (s.sched n e).tick = s.tick := rfl
@[simp] theorem State.sched_me (s : State) (n : Nat) (e : Ev) : (s.sched n e).me = s.me := rfl
@[simp] theorem State.sched_cur (s : State) (n : Nat) (e : Ev) : (s.sched n e).cur = s.cur := rfl
@[simp] theorem State.sched_fresh (s : State) (n : Nat) (e : Ev) : (s.sched n e).fresh = s.fresh := rfl
@[simp] theorem State.sched_cores (s : State) (n : Nat) (e : Ev) : (s.sched n e).cores = s.cores := rfl
@[simp] theorem State.sched_gangs (s : State) (n : Nat) (e : Ev) : (s.sched n e).gangs = s.gangs := rfl
@[simp] theorem State.sched_mem (s : State) (n : Nat) (e : Ev) : (s.sched n e).mem = s.mem := rfl
@[simp] theorem State.sched_poison (s : State) (n : Nat) (e : Ev) : (s.sched n e).poison = s.poison := rfl
@[simp] theorem State.sched_outside (s : State) (n : Nat) (e : Ev) : (s.sched n e).outside = s.outside := rfl
@[simp] theorem State.sched_atc (s : State) (n : Nat) (e : Ev) : (s.sched n e).atc = s.atc := rfl
@[simp] theorem State.sched_seqs (s : State) (n : Nat) (e : Ev) : (s.sched n e).seqs = s.seqs := rfl
@[simp] theorem State.sched_flights (s : State) (n : Nat) (e : Ev) : (s.sched n e).flights = s.flights := rfl
@[simp] theorem State.sched_slices (s : State) (n : Nat) (e : Ev) : (s.sched n e).slices = s.slices := rfl
@[simp] theorem State.sched_missQ (s : State) (n : Nat) (e : Ev) : (s.sched n e).missQ = s.missQ := rfl
@[simp] theorem State.sched_dts (s : State) (n : Nat) (e : Ev) : (s.sched n e).dts = s.dts := rfl
@[simp] theorem State.sched_hv (s : State) (n : Nat) (e : Ev) : (s.sched n e).hv = s.hv := rfl
@[simp] theorem State.sched_bg (s : State) (n : Nat) (e : Ev) : (s.sched n e).bg = s.bg := rfl
@[simp] theorem State.sched_ptroots (s : State) (n : Nat) (e : Ev) : (s.sched n e).ptroots = s.ptroots := rfl
@[simp] theorem State.sched_wcache (s : State) (n : Nat) (e : Ev) : (s.sched n e).wcache = s.wcache := rfl
@[simp] theorem State.sched_parts (s : State) (n : Nat) (e : Ev) : (s.sched n e).parts = s.parts := rfl
@[simp] theorem State.sched_regions (s : State) (n : Nat) (e : Ev) : (s.sched n e).regions = s.regions := rfl
@[simp] theorem State.sched_images (s : State) (n : Nat) (e : Ev) : (s.sched n e).images = s.images := rfl
@[simp] theorem State.sched_nextRegion (s : State) (n : Nat) (e : Ev) : (s.sched n e).nextRegion = s.nextRegion := rfl
@[simp] theorem State.sched_recs (s : State) (n : Nat) (e : Ev) : (s.sched n e).recs = s.recs := rfl
@[simp] theorem State.sched_recSeq (s : State) (n : Nat) (e : Ev) : (s.sched n e).recSeq = s.recSeq := rfl
@[simp] theorem State.sched_cells (s : State) (n : Nat) (e : Ev) : (s.sched n e).cells = s.cells := rfl
@[simp] theorem State.sched_quads (s : State) (n : Nat) (e : Ev) : (s.sched n e).quads = s.quads := rfl
@[simp] theorem State.sched_wakeQ (s : State) (n : Nat) (e : Ev) : (s.sched n e).wakeQ = s.wakeQ := rfl
@[simp] theorem State.sched_pgWaves (s : State) (n : Nat) (e : Ev) : (s.sched n e).pgWaves = s.pgWaves := rfl
@[simp] theorem State.sched_pgIdle (s : State) (n : Nat) (e : Ev) : (s.sched n e).pgIdle = s.pgIdle := rfl
@[simp] theorem State.sched_pgEn (s : State) (n : Nat) (e : Ev) : (s.sched n e).pgEn = s.pgEn := rfl
@[simp] theorem State.sched_hotCells (s : State) (n : Nat) (e : Ev) : (s.sched n e).hotCells = s.hotCells := rfl
@[simp] theorem State.sched_ts (s : State) (n : Nat) (e : Ev) : (s.sched n e).ts = s.ts := rfl
@[simp] theorem State.sched_stopEvs (s : State) (n : Nat) (e : Ev) : (s.sched n e).stopEvs = s.stopEvs := rfl
@[simp] theorem State.sched_gov (s : State) (n : Nat) (e : Ev) : (s.sched n e).gov = s.gov := rfl
@[simp] theorem State.sched_dv (s : State) (n : Nat) (e : Ev) : (s.sched n e).dv = s.dv := rfl
@[simp] theorem State.sched_eccd (s : State) (n : Nat) (e : Ev) : (s.sched n e).eccd = s.eccd := rfl
@[simp] theorem State.sched_tm (s : State) (n : Nat) (e : Ev) : (s.sched n e).tm = s.tm := rfl
@[simp] theorem State.sched_slew (s : State) (n : Nat) (e : Ev) : (s.sched n e).slew = s.slew := rfl
@[simp] theorem State.sched_pnow (s : State) (n : Nat) (e : Ev) : (s.sched n e).pnow = s.pnow := rfl

/-! ### `State.schedIn` -/

@[simp] theorem State.schedIn_tick (s : State) (n : Nat) (e : Ev) : (s.schedIn n e).tick = s.tick := rfl
@[simp] theorem State.schedIn_me (s : State) (n : Nat) (e : Ev) : (s.schedIn n e).me = s.me := rfl
@[simp] theorem State.schedIn_cur (s : State) (n : Nat) (e : Ev) : (s.schedIn n e).cur = s.cur := rfl
@[simp] theorem State.schedIn_fresh (s : State) (n : Nat) (e : Ev) : (s.schedIn n e).fresh = s.fresh := rfl
@[simp] theorem State.schedIn_cores (s : State) (n : Nat) (e : Ev) : (s.schedIn n e).cores = s.cores := rfl
@[simp] theorem State.schedIn_gangs (s : State) (n : Nat) (e : Ev) : (s.schedIn n e).gangs = s.gangs := rfl
@[simp] theorem State.schedIn_mem (s : State) (n : Nat) (e : Ev) : (s.schedIn n e).mem = s.mem := rfl
@[simp] theorem State.schedIn_poison (s : State) (n : Nat) (e : Ev) : (s.schedIn n e).poison = s.poison := rfl
@[simp] theorem State.schedIn_outside (s : State) (n : Nat) (e : Ev) : (s.schedIn n e).outside = s.outside := rfl
@[simp] theorem State.schedIn_atc (s : State) (n : Nat) (e : Ev) : (s.schedIn n e).atc = s.atc := rfl
@[simp] theorem State.schedIn_seqs (s : State) (n : Nat) (e : Ev) : (s.schedIn n e).seqs = s.seqs := rfl
@[simp] theorem State.schedIn_flights (s : State) (n : Nat) (e : Ev) : (s.schedIn n e).flights = s.flights := rfl
@[simp] theorem State.schedIn_slices (s : State) (n : Nat) (e : Ev) : (s.schedIn n e).slices = s.slices := rfl
@[simp] theorem State.schedIn_missQ (s : State) (n : Nat) (e : Ev) : (s.schedIn n e).missQ = s.missQ := rfl
@[simp] theorem State.schedIn_dts (s : State) (n : Nat) (e : Ev) : (s.schedIn n e).dts = s.dts := rfl
@[simp] theorem State.schedIn_hv (s : State) (n : Nat) (e : Ev) : (s.schedIn n e).hv = s.hv := rfl
@[simp] theorem State.schedIn_bg (s : State) (n : Nat) (e : Ev) : (s.schedIn n e).bg = s.bg := rfl
@[simp] theorem State.schedIn_ptroots (s : State) (n : Nat) (e : Ev) : (s.schedIn n e).ptroots = s.ptroots := rfl
@[simp] theorem State.schedIn_wcache (s : State) (n : Nat) (e : Ev) : (s.schedIn n e).wcache = s.wcache := rfl
@[simp] theorem State.schedIn_parts (s : State) (n : Nat) (e : Ev) : (s.schedIn n e).parts = s.parts := rfl
@[simp] theorem State.schedIn_regions (s : State) (n : Nat) (e : Ev) : (s.schedIn n e).regions = s.regions := rfl
@[simp] theorem State.schedIn_images (s : State) (n : Nat) (e : Ev) : (s.schedIn n e).images = s.images := rfl
@[simp] theorem State.schedIn_nextRegion (s : State) (n : Nat) (e : Ev) : (s.schedIn n e).nextRegion = s.nextRegion := rfl
@[simp] theorem State.schedIn_recs (s : State) (n : Nat) (e : Ev) : (s.schedIn n e).recs = s.recs := rfl
@[simp] theorem State.schedIn_recSeq (s : State) (n : Nat) (e : Ev) : (s.schedIn n e).recSeq = s.recSeq := rfl
@[simp] theorem State.schedIn_cells (s : State) (n : Nat) (e : Ev) : (s.schedIn n e).cells = s.cells := rfl
@[simp] theorem State.schedIn_quads (s : State) (n : Nat) (e : Ev) : (s.schedIn n e).quads = s.quads := rfl
@[simp] theorem State.schedIn_wakeQ (s : State) (n : Nat) (e : Ev) : (s.schedIn n e).wakeQ = s.wakeQ := rfl
@[simp] theorem State.schedIn_pgWaves (s : State) (n : Nat) (e : Ev) : (s.schedIn n e).pgWaves = s.pgWaves := rfl
@[simp] theorem State.schedIn_pgIdle (s : State) (n : Nat) (e : Ev) : (s.schedIn n e).pgIdle = s.pgIdle := rfl
@[simp] theorem State.schedIn_pgEn (s : State) (n : Nat) (e : Ev) : (s.schedIn n e).pgEn = s.pgEn := rfl
@[simp] theorem State.schedIn_hotCells (s : State) (n : Nat) (e : Ev) : (s.schedIn n e).hotCells = s.hotCells := rfl
@[simp] theorem State.schedIn_ts (s : State) (n : Nat) (e : Ev) : (s.schedIn n e).ts = s.ts := rfl
@[simp] theorem State.schedIn_stopEvs (s : State) (n : Nat) (e : Ev) : (s.schedIn n e).stopEvs = s.stopEvs := rfl
@[simp] theorem State.schedIn_gov (s : State) (n : Nat) (e : Ev) : (s.schedIn n e).gov = s.gov := rfl
@[simp] theorem State.schedIn_dv (s : State) (n : Nat) (e : Ev) : (s.schedIn n e).dv = s.dv := rfl
@[simp] theorem State.schedIn_eccd (s : State) (n : Nat) (e : Ev) : (s.schedIn n e).eccd = s.eccd := rfl
@[simp] theorem State.schedIn_tm (s : State) (n : Nat) (e : Ev) : (s.schedIn n e).tm = s.tm := rfl
@[simp] theorem State.schedIn_slew (s : State) (n : Nat) (e : Ev) : (s.schedIn n e).slew = s.slew := rfl
@[simp] theorem State.schedIn_pnow (s : State) (n : Nat) (e : Ev) : (s.schedIn n e).pnow = s.pnow := rfl

/-! ### `State.tookDelay` -/

@[simp] theorem State.tookDelay_tick (s : State) : s.tookDelay.tick = s.tick := rfl
@[simp] theorem State.tookDelay_agenda (s : State) : s.tookDelay.agenda = s.agenda := rfl
@[simp] theorem State.tookDelay_me (s : State) : s.tookDelay.me = s.me := rfl
@[simp] theorem State.tookDelay_cur (s : State) : s.tookDelay.cur = s.cur := rfl
@[simp] theorem State.tookDelay_cores (s : State) : s.tookDelay.cores = s.cores := rfl
@[simp] theorem State.tookDelay_gangs (s : State) : s.tookDelay.gangs = s.gangs := rfl
@[simp] theorem State.tookDelay_mem (s : State) : s.tookDelay.mem = s.mem := rfl
@[simp] theorem State.tookDelay_poison (s : State) : s.tookDelay.poison = s.poison := rfl
@[simp] theorem State.tookDelay_outside (s : State) : s.tookDelay.outside = s.outside := rfl
@[simp] theorem State.tookDelay_atc (s : State) : s.tookDelay.atc = s.atc := rfl
@[simp] theorem State.tookDelay_seqs (s : State) : s.tookDelay.seqs = s.seqs := rfl
@[simp] theorem State.tookDelay_flights (s : State) : s.tookDelay.flights = s.flights := rfl
@[simp] theorem State.tookDelay_slices (s : State) : s.tookDelay.slices = s.slices := rfl
@[simp] theorem State.tookDelay_missQ (s : State) : s.tookDelay.missQ = s.missQ := rfl
@[simp] theorem State.tookDelay_dts (s : State) : s.tookDelay.dts = s.dts := rfl
@[simp] theorem State.tookDelay_hv (s : State) : s.tookDelay.hv = s.hv := rfl
@[simp] theorem State.tookDelay_bg (s : State) : s.tookDelay.bg = s.bg := rfl
@[simp] theorem State.tookDelay_ptroots (s : State) : s.tookDelay.ptroots = s.ptroots := rfl
@[simp] theorem State.tookDelay_wcache (s : State) : s.tookDelay.wcache = s.wcache := rfl
@[simp] theorem State.tookDelay_parts (s : State) : s.tookDelay.parts = s.parts := rfl
@[simp] theorem State.tookDelay_regions (s : State) : s.tookDelay.regions = s.regions := rfl
@[simp] theorem State.tookDelay_images (s : State) : s.tookDelay.images = s.images := rfl
@[simp] theorem State.tookDelay_nextRegion (s : State) : s.tookDelay.nextRegion = s.nextRegion := rfl
@[simp] theorem State.tookDelay_recs (s : State) : s.tookDelay.recs = s.recs := rfl
@[simp] theorem State.tookDelay_recSeq (s : State) : s.tookDelay.recSeq = s.recSeq := rfl
@[simp] theorem State.tookDelay_cells (s : State) : s.tookDelay.cells = s.cells := rfl
@[simp] theorem State.tookDelay_quads (s : State) : s.tookDelay.quads = s.quads := rfl
@[simp] theorem State.tookDelay_wakeQ (s : State) : s.tookDelay.wakeQ = s.wakeQ := rfl
@[simp] theorem State.tookDelay_pgWaves (s : State) : s.tookDelay.pgWaves = s.pgWaves := rfl
@[simp] theorem State.tookDelay_pgIdle (s : State) : s.tookDelay.pgIdle = s.pgIdle := rfl
@[simp] theorem State.tookDelay_pgEn (s : State) : s.tookDelay.pgEn = s.pgEn := rfl
@[simp] theorem State.tookDelay_hotCells (s : State) : s.tookDelay.hotCells = s.hotCells := rfl
@[simp] theorem State.tookDelay_ts (s : State) : s.tookDelay.ts = s.ts := rfl
@[simp] theorem State.tookDelay_stopEvs (s : State) : s.tookDelay.stopEvs = s.stopEvs := rfl
@[simp] theorem State.tookDelay_gov (s : State) : s.tookDelay.gov = s.gov := rfl
@[simp] theorem State.tookDelay_dv (s : State) : s.tookDelay.dv = s.dv := rfl
@[simp] theorem State.tookDelay_eccd (s : State) : s.tookDelay.eccd = s.eccd := rfl
@[simp] theorem State.tookDelay_tm (s : State) : s.tookDelay.tm = s.tm := rfl
@[simp] theorem State.tookDelay_slew (s : State) : s.tookDelay.slew = s.slew := rfl
@[simp] theorem State.tookDelay_pnow (s : State) : s.tookDelay.pnow = s.pnow := rfl

/-! ### `State.schedFree` -/

@[simp] theorem State.schedFree_tick (s : State) (n : Nat) (e : Ev) : (s.schedFree n e).tick = s.tick := rfl
@[simp] theorem State.schedFree_me (s : State) (n : Nat) (e : Ev) : (s.schedFree n e).me = s.me := rfl
@[simp] theorem State.schedFree_cur (s : State) (n : Nat) (e : Ev) : (s.schedFree n e).cur = s.cur := rfl
@[simp] theorem State.schedFree_cores (s : State) (n : Nat) (e : Ev) : (s.schedFree n e).cores = s.cores := rfl
@[simp] theorem State.schedFree_gangs (s : State) (n : Nat) (e : Ev) : (s.schedFree n e).gangs = s.gangs := rfl
@[simp] theorem State.schedFree_mem (s : State) (n : Nat) (e : Ev) : (s.schedFree n e).mem = s.mem := rfl
@[simp] theorem State.schedFree_poison (s : State) (n : Nat) (e : Ev) : (s.schedFree n e).poison = s.poison := rfl
@[simp] theorem State.schedFree_outside (s : State) (n : Nat) (e : Ev) : (s.schedFree n e).outside = s.outside := rfl
@[simp] theorem State.schedFree_atc (s : State) (n : Nat) (e : Ev) : (s.schedFree n e).atc = s.atc := rfl
@[simp] theorem State.schedFree_seqs (s : State) (n : Nat) (e : Ev) : (s.schedFree n e).seqs = s.seqs := rfl
@[simp] theorem State.schedFree_flights (s : State) (n : Nat) (e : Ev) : (s.schedFree n e).flights = s.flights := rfl
@[simp] theorem State.schedFree_slices (s : State) (n : Nat) (e : Ev) : (s.schedFree n e).slices = s.slices := rfl
@[simp] theorem State.schedFree_missQ (s : State) (n : Nat) (e : Ev) : (s.schedFree n e).missQ = s.missQ := rfl
@[simp] theorem State.schedFree_dts (s : State) (n : Nat) (e : Ev) : (s.schedFree n e).dts = s.dts := rfl
@[simp] theorem State.schedFree_hv (s : State) (n : Nat) (e : Ev) : (s.schedFree n e).hv = s.hv := rfl
@[simp] theorem State.schedFree_bg (s : State) (n : Nat) (e : Ev) : (s.schedFree n e).bg = s.bg := rfl
@[simp] theorem State.schedFree_ptroots (s : State) (n : Nat) (e : Ev) : (s.schedFree n e).ptroots = s.ptroots := rfl
@[simp] theorem State.schedFree_wcache (s : State) (n : Nat) (e : Ev) : (s.schedFree n e).wcache = s.wcache := rfl
@[simp] theorem State.schedFree_parts (s : State) (n : Nat) (e : Ev) : (s.schedFree n e).parts = s.parts := rfl
@[simp] theorem State.schedFree_regions (s : State) (n : Nat) (e : Ev) : (s.schedFree n e).regions = s.regions := rfl
@[simp] theorem State.schedFree_images (s : State) (n : Nat) (e : Ev) : (s.schedFree n e).images = s.images := rfl
@[simp] theorem State.schedFree_nextRegion (s : State) (n : Nat) (e : Ev) : (s.schedFree n e).nextRegion = s.nextRegion := rfl
@[simp] theorem State.schedFree_recs (s : State) (n : Nat) (e : Ev) : (s.schedFree n e).recs = s.recs := rfl
@[simp] theorem State.schedFree_recSeq (s : State) (n : Nat) (e : Ev) : (s.schedFree n e).recSeq = s.recSeq := rfl
@[simp] theorem State.schedFree_cells (s : State) (n : Nat) (e : Ev) : (s.schedFree n e).cells = s.cells := rfl
@[simp] theorem State.schedFree_quads (s : State) (n : Nat) (e : Ev) : (s.schedFree n e).quads = s.quads := rfl
@[simp] theorem State.schedFree_wakeQ (s : State) (n : Nat) (e : Ev) : (s.schedFree n e).wakeQ = s.wakeQ := rfl
@[simp] theorem State.schedFree_pgWaves (s : State) (n : Nat) (e : Ev) : (s.schedFree n e).pgWaves = s.pgWaves := rfl
@[simp] theorem State.schedFree_pgIdle (s : State) (n : Nat) (e : Ev) : (s.schedFree n e).pgIdle = s.pgIdle := rfl
@[simp] theorem State.schedFree_pgEn (s : State) (n : Nat) (e : Ev) : (s.schedFree n e).pgEn = s.pgEn := rfl
@[simp] theorem State.schedFree_hotCells (s : State) (n : Nat) (e : Ev) : (s.schedFree n e).hotCells = s.hotCells := rfl
@[simp] theorem State.schedFree_ts (s : State) (n : Nat) (e : Ev) : (s.schedFree n e).ts = s.ts := rfl
@[simp] theorem State.schedFree_stopEvs (s : State) (n : Nat) (e : Ev) : (s.schedFree n e).stopEvs = s.stopEvs := rfl
@[simp] theorem State.schedFree_gov (s : State) (n : Nat) (e : Ev) : (s.schedFree n e).gov = s.gov := rfl
@[simp] theorem State.schedFree_dv (s : State) (n : Nat) (e : Ev) : (s.schedFree n e).dv = s.dv := rfl
@[simp] theorem State.schedFree_eccd (s : State) (n : Nat) (e : Ev) : (s.schedFree n e).eccd = s.eccd := rfl
@[simp] theorem State.schedFree_tm (s : State) (n : Nat) (e : Ev) : (s.schedFree n e).tm = s.tm := rfl
@[simp] theorem State.schedFree_slew (s : State) (n : Nat) (e : Ev) : (s.schedFree n e).slew = s.slew := rfl
@[simp] theorem State.schedFree_pnow (s : State) (n : Nat) (e : Ev) : (s.schedFree n e).pnow = s.pnow := rfl

/-! ### `State.unsched` -/

@[simp] theorem State.unsched_tick (s : State) (f : Ev → Bool) : (s.unsched f).tick = s.tick := rfl
@[simp] theorem State.unsched_me (s : State) (f : Ev → Bool) : (s.unsched f).me = s.me := rfl
@[simp] theorem State.unsched_cur (s : State) (f : Ev → Bool) : (s.unsched f).cur = s.cur := rfl
@[simp] theorem State.unsched_fresh (s : State) (f : Ev → Bool) : (s.unsched f).fresh = s.fresh := rfl
@[simp] theorem State.unsched_cores (s : State) (f : Ev → Bool) : (s.unsched f).cores = s.cores := rfl
@[simp] theorem State.unsched_gangs (s : State) (f : Ev → Bool) : (s.unsched f).gangs = s.gangs := rfl
@[simp] theorem State.unsched_mem (s : State) (f : Ev → Bool) : (s.unsched f).mem = s.mem := rfl
@[simp] theorem State.unsched_poison (s : State) (f : Ev → Bool) : (s.unsched f).poison = s.poison := rfl
@[simp] theorem State.unsched_outside (s : State) (f : Ev → Bool) : (s.unsched f).outside = s.outside := rfl
@[simp] theorem State.unsched_atc (s : State) (f : Ev → Bool) : (s.unsched f).atc = s.atc := rfl
@[simp] theorem State.unsched_seqs (s : State) (f : Ev → Bool) : (s.unsched f).seqs = s.seqs := rfl
@[simp] theorem State.unsched_flights (s : State) (f : Ev → Bool) : (s.unsched f).flights = s.flights := rfl
@[simp] theorem State.unsched_slices (s : State) (f : Ev → Bool) : (s.unsched f).slices = s.slices := rfl
@[simp] theorem State.unsched_missQ (s : State) (f : Ev → Bool) : (s.unsched f).missQ = s.missQ := rfl
@[simp] theorem State.unsched_dts (s : State) (f : Ev → Bool) : (s.unsched f).dts = s.dts := rfl
@[simp] theorem State.unsched_hv (s : State) (f : Ev → Bool) : (s.unsched f).hv = s.hv := rfl
@[simp] theorem State.unsched_bg (s : State) (f : Ev → Bool) : (s.unsched f).bg = s.bg := rfl
@[simp] theorem State.unsched_ptroots (s : State) (f : Ev → Bool) : (s.unsched f).ptroots = s.ptroots := rfl
@[simp] theorem State.unsched_wcache (s : State) (f : Ev → Bool) : (s.unsched f).wcache = s.wcache := rfl
@[simp] theorem State.unsched_parts (s : State) (f : Ev → Bool) : (s.unsched f).parts = s.parts := rfl
@[simp] theorem State.unsched_regions (s : State) (f : Ev → Bool) : (s.unsched f).regions = s.regions := rfl
@[simp] theorem State.unsched_images (s : State) (f : Ev → Bool) : (s.unsched f).images = s.images := rfl
@[simp] theorem State.unsched_nextRegion (s : State) (f : Ev → Bool) : (s.unsched f).nextRegion = s.nextRegion := rfl
@[simp] theorem State.unsched_recs (s : State) (f : Ev → Bool) : (s.unsched f).recs = s.recs := rfl
@[simp] theorem State.unsched_recSeq (s : State) (f : Ev → Bool) : (s.unsched f).recSeq = s.recSeq := rfl
@[simp] theorem State.unsched_cells (s : State) (f : Ev → Bool) : (s.unsched f).cells = s.cells := rfl
@[simp] theorem State.unsched_quads (s : State) (f : Ev → Bool) : (s.unsched f).quads = s.quads := rfl
@[simp] theorem State.unsched_wakeQ (s : State) (f : Ev → Bool) : (s.unsched f).wakeQ = s.wakeQ := rfl
@[simp] theorem State.unsched_pgWaves (s : State) (f : Ev → Bool) : (s.unsched f).pgWaves = s.pgWaves := rfl
@[simp] theorem State.unsched_pgIdle (s : State) (f : Ev → Bool) : (s.unsched f).pgIdle = s.pgIdle := rfl
@[simp] theorem State.unsched_pgEn (s : State) (f : Ev → Bool) : (s.unsched f).pgEn = s.pgEn := rfl
@[simp] theorem State.unsched_hotCells (s : State) (f : Ev → Bool) : (s.unsched f).hotCells = s.hotCells := rfl
@[simp] theorem State.unsched_ts (s : State) (f : Ev → Bool) : (s.unsched f).ts = s.ts := rfl
@[simp] theorem State.unsched_stopEvs (s : State) (f : Ev → Bool) : (s.unsched f).stopEvs = s.stopEvs := rfl
@[simp] theorem State.unsched_gov (s : State) (f : Ev → Bool) : (s.unsched f).gov = s.gov := rfl
@[simp] theorem State.unsched_dv (s : State) (f : Ev → Bool) : (s.unsched f).dv = s.dv := rfl
@[simp] theorem State.unsched_eccd (s : State) (f : Ev → Bool) : (s.unsched f).eccd = s.eccd := rfl
@[simp] theorem State.unsched_tm (s : State) (f : Ev → Bool) : (s.unsched f).tm = s.tm := rfl
@[simp] theorem State.unsched_slew (s : State) (f : Ev → Bool) : (s.unsched f).slew = s.slew := rfl
@[simp] theorem State.unsched_pnow (s : State) (f : Ev → Bool) : (s.unsched f).pnow = s.pnow := rfl

/-! ### `State.result` -/

@[simp] theorem State.result_tick (s : State) (n : Nat) (w : Wr) : (s.result n w).tick = s.tick := rfl
@[simp] theorem State.result_agenda (s : State) (n : Nat) (w : Wr) : (s.result n w).agenda = s.agenda := rfl
@[simp] theorem State.result_me (s : State) (n : Nat) (w : Wr) : (s.result n w).me = s.me := rfl
@[simp] theorem State.result_cur (s : State) (n : Nat) (w : Wr) : (s.result n w).cur = s.cur := rfl
@[simp] theorem State.result_fresh (s : State) (n : Nat) (w : Wr) : (s.result n w).fresh = s.fresh := rfl
@[simp] theorem State.result_gangs (s : State) (n : Nat) (w : Wr) : (s.result n w).gangs = s.gangs := rfl
@[simp] theorem State.result_mem (s : State) (n : Nat) (w : Wr) : (s.result n w).mem = s.mem := rfl
@[simp] theorem State.result_poison (s : State) (n : Nat) (w : Wr) : (s.result n w).poison = s.poison := rfl
@[simp] theorem State.result_outside (s : State) (n : Nat) (w : Wr) : (s.result n w).outside = s.outside := rfl
@[simp] theorem State.result_atc (s : State) (n : Nat) (w : Wr) : (s.result n w).atc = s.atc := rfl
@[simp] theorem State.result_seqs (s : State) (n : Nat) (w : Wr) : (s.result n w).seqs = s.seqs := rfl
@[simp] theorem State.result_flights (s : State) (n : Nat) (w : Wr) : (s.result n w).flights = s.flights := rfl
@[simp] theorem State.result_slices (s : State) (n : Nat) (w : Wr) : (s.result n w).slices = s.slices := rfl
@[simp] theorem State.result_missQ (s : State) (n : Nat) (w : Wr) : (s.result n w).missQ = s.missQ := rfl
@[simp] theorem State.result_dts (s : State) (n : Nat) (w : Wr) : (s.result n w).dts = s.dts := rfl
@[simp] theorem State.result_hv (s : State) (n : Nat) (w : Wr) : (s.result n w).hv = s.hv := rfl
@[simp] theorem State.result_bg (s : State) (n : Nat) (w : Wr) : (s.result n w).bg = s.bg := rfl
@[simp] theorem State.result_ptroots (s : State) (n : Nat) (w : Wr) : (s.result n w).ptroots = s.ptroots := rfl
@[simp] theorem State.result_wcache (s : State) (n : Nat) (w : Wr) : (s.result n w).wcache = s.wcache := rfl
@[simp] theorem State.result_parts (s : State) (n : Nat) (w : Wr) : (s.result n w).parts = s.parts := rfl
@[simp] theorem State.result_regions (s : State) (n : Nat) (w : Wr) : (s.result n w).regions = s.regions := rfl
@[simp] theorem State.result_images (s : State) (n : Nat) (w : Wr) : (s.result n w).images = s.images := rfl
@[simp] theorem State.result_nextRegion (s : State) (n : Nat) (w : Wr) : (s.result n w).nextRegion = s.nextRegion := rfl
@[simp] theorem State.result_recs (s : State) (n : Nat) (w : Wr) : (s.result n w).recs = s.recs := rfl
@[simp] theorem State.result_recSeq (s : State) (n : Nat) (w : Wr) : (s.result n w).recSeq = s.recSeq := rfl
@[simp] theorem State.result_cells (s : State) (n : Nat) (w : Wr) : (s.result n w).cells = s.cells := rfl
@[simp] theorem State.result_quads (s : State) (n : Nat) (w : Wr) : (s.result n w).quads = s.quads := rfl
@[simp] theorem State.result_wakeQ (s : State) (n : Nat) (w : Wr) : (s.result n w).wakeQ = s.wakeQ := rfl
@[simp] theorem State.result_pgWaves (s : State) (n : Nat) (w : Wr) : (s.result n w).pgWaves = s.pgWaves := rfl
@[simp] theorem State.result_pgIdle (s : State) (n : Nat) (w : Wr) : (s.result n w).pgIdle = s.pgIdle := rfl
@[simp] theorem State.result_pgEn (s : State) (n : Nat) (w : Wr) : (s.result n w).pgEn = s.pgEn := rfl
@[simp] theorem State.result_hotCells (s : State) (n : Nat) (w : Wr) : (s.result n w).hotCells = s.hotCells := rfl
@[simp] theorem State.result_ts (s : State) (n : Nat) (w : Wr) : (s.result n w).ts = s.ts := rfl
@[simp] theorem State.result_stopEvs (s : State) (n : Nat) (w : Wr) : (s.result n w).stopEvs = s.stopEvs := rfl
@[simp] theorem State.result_gov (s : State) (n : Nat) (w : Wr) : (s.result n w).gov = s.gov := rfl
@[simp] theorem State.result_dv (s : State) (n : Nat) (w : Wr) : (s.result n w).dv = s.dv := rfl
@[simp] theorem State.result_eccd (s : State) (n : Nat) (w : Wr) : (s.result n w).eccd = s.eccd := rfl
@[simp] theorem State.result_tm (s : State) (n : Nat) (w : Wr) : (s.result n w).tm = s.tm := rfl
@[simp] theorem State.result_slew (s : State) (n : Nat) (w : Wr) : (s.result n w).slew = s.slew := rfl
@[simp] theorem State.result_pnow (s : State) (n : Nat) (w : Wr) : (s.result n w).pnow = s.pnow := rfl

/-! ### `Ctx.pendW` -/

@[simp] theorem Ctx.pendW_part (c : Ctx) (n : Nat) (w : Wr) : (c.pendW n w).part = c.part := rfl
@[simp] theorem Ctx.pendW_region (c : Ctx) (n : Nat) (w : Wr) : (c.pendW n w).region = c.region := rfl
@[simp] theorem Ctx.pendW_live (c : Ctx) (n : Nat) (w : Wr) : (c.pendW n w).live = c.live := rfl
@[simp] theorem Ctx.pendW_starting (c : Ctx) (n : Nat) (w : Wr) : (c.pendW n w).starting = c.starting := rfl
@[simp] theorem Ctx.pendW_role (c : Ctx) (n : Nat) (w : Wr) : (c.pendW n w).role = c.role := rfl
@[simp] theorem Ctx.pendW_words (c : Ctx) (n : Nat) (w : Wr) : (c.pendW n w).words = c.words := rfl
@[simp] theorem Ctx.pendW_cbase (c : Ctx) (n : Nat) (w : Wr) : (c.pendW n w).cbase = c.cbase := rfl
@[simp] theorem Ctx.pendW_vlo (c : Ctx) (n : Nat) (w : Wr) : (c.pendW n w).vlo = c.vlo := rfl
@[simp] theorem Ctx.pendW_vhi (c : Ctx) (n : Nat) (w : Wr) : (c.pendW n w).vhi = c.vhi := rfl
@[simp] theorem Ctx.pendW_spad (c : Ctx) (n : Nat) (w : Wr) : (c.pendW n w).spad = c.spad := rfl
@[simp] theorem Ctx.pendW_kind (c : Ctx) (n : Nat) (w : Wr) : (c.pendW n w).kind = c.kind := rfl
@[simp] theorem Ctx.pendW_ph0 (c : Ctx) (n : Nat) (w : Wr) : (c.pendW n w).ph0 = c.ph0 := rfl
@[simp] theorem Ctx.pendW_off (c : Ctx) (n : Nat) (w : Wr) : (c.pendW n w).off = c.off := rfl
@[simp] theorem Ctx.pendW_frozen (c : Ctx) (n : Nat) (w : Wr) : (c.pendW n w).frozen = c.frozen := rfl
@[simp] theorem Ctx.pendW_stopped (c : Ctx) (n : Nat) (w : Wr) : (c.pendW n w).stopped = c.stopped := rfl
@[simp] theorem Ctx.pendW_loose (c : Ctx) (n : Nat) (w : Wr) : (c.pendW n w).loose = c.loose := rfl
@[simp] theorem Ctx.pendW_s (c : Ctx) (n : Nat) (w : Wr) : (c.pendW n w).s = c.s := rfl
@[simp] theorem Ctx.pendW_p (c : Ctx) (n : Nat) (w : Wr) : (c.pendW n w).p = c.p := rfl
@[simp] theorem Ctx.pendW_m (c : Ctx) (n : Nat) (w : Wr) : (c.pendW n w).m = c.m := rfl
@[simp] theorem Ctx.pendW_x (c : Ctx) (n : Nat) (w : Wr) : (c.pendW n w).x = c.x := rfl
@[simp] theorem Ctx.pendW_v (c : Ctx) (n : Nat) (w : Wr) : (c.pendW n w).v = c.v := rfl
@[simp] theorem Ctx.pendW_a (c : Ctx) (n : Nat) (w : Wr) : (c.pendW n w).a = c.a := rfl
@[simp] theorem Ctx.pendW_k (c : Ctx) (n : Nat) (w : Wr) : (c.pendW n w).k = c.k := rfl
@[simp] theorem Ctx.pendW_issueNo (c : Ctx) (n : Nat) (w : Wr) : (c.pendW n w).issueNo = c.issueNo := rfl
@[simp] theorem Ctx.pendW_kNo (c : Ctx) (n : Nat) (w : Wr) : (c.pendW n w).kNo = c.kNo := rfl
@[simp] theorem Ctx.pendW_pc (c : Ctx) (n : Nat) (w : Wr) : (c.pendW n w).pc = c.pc := rfl
@[simp] theorem Ctx.pendW_fpc (c : Ctx) (n : Nat) (w : Wr) : (c.pendW n w).fpc = c.fpc := rfl
@[simp] theorem Ctx.pendW_fetchAt (c : Ctx) (n : Nat) (w : Wr) : (c.pendW n w).fetchAt = c.fetchAt := rfl
@[simp] theorem Ctx.pendW_fdone (c : Ctx) (n : Nat) (w : Wr) : (c.pendW n w).fdone = c.fdone := rfl
@[simp] theorem Ctx.pendW_fstop (c : Ctx) (n : Nat) (w : Wr) : (c.pendW n w).fstop = c.fstop := rfl
@[simp] theorem Ctx.pendW_q (c : Ctx) (n : Nat) (w : Wr) : (c.pendW n w).q = c.q := rfl
@[simp] theorem Ctx.pendW_base (c : Ctx) (n : Nat) (w : Wr) : (c.pendW n w).base = c.base := rfl
@[simp] theorem Ctx.pendW_freed (c : Ctx) (n : Nat) (w : Wr) : (c.pendW n w).freed = c.freed := rfl
@[simp] theorem Ctx.pendW_seq (c : Ctx) (n : Nat) (w : Wr) : (c.pendW n w).seq = c.seq := rfl
@[simp] theorem Ctx.pendW_prev (c : Ctx) (n : Nat) (w : Wr) : (c.pendW n w).prev = c.prev := rfl
@[simp] theorem Ctx.pendW_reps (c : Ctx) (n : Nat) (w : Wr) : (c.pendW n w).reps = c.reps := rfl
@[simp] theorem Ctx.pendW_repSeq (c : Ctx) (n : Nat) (w : Wr) : (c.pendW n w).repSeq = c.repSeq := rfl
@[simp] theorem Ctx.pendW_fol (c : Ctx) (n : Nat) (w : Wr) : (c.pendW n w).fol = c.fol := rfl
@[simp] theorem Ctx.pendW_block (c : Ctx) (n : Nat) (w : Wr) : (c.pendW n w).block = c.block := rfl
@[simp] theorem Ctx.pendW_blockSeq (c : Ctx) (n : Nat) (w : Wr) : (c.pendW n w).blockSeq = c.blockSeq := rfl
@[simp] theorem Ctx.pendW_arr (c : Ctx) (n : Nat) (w : Wr) : (c.pendW n w).arr = c.arr := rfl
@[simp] theorem Ctx.pendW_bars (c : Ctx) (n : Nat) (w : Wr) : (c.pendW n w).bars = c.bars := rfl
@[simp] theorem Ctx.pendW_ui (c : Ctx) (n : Nat) (w : Wr) : (c.pendW n w).ui = c.ui := rfl
@[simp] theorem Ctx.pendW_batch (c : Ctx) (n : Nat) (w : Wr) : (c.pendW n w).batch = c.batch := rfl
@[simp] theorem Ctx.pendW_trig (c : Ctx) (n : Nat) (w : Wr) : (c.pendW n w).trig = c.trig := rfl
@[simp] theorem Ctx.pendW_trigPend (c : Ctx) (n : Nat) (w : Wr) : (c.pendW n w).trigPend = c.trigPend := rfl
@[simp] theorem Ctx.pendW_trigSeq (c : Ctx) (n : Nat) (w : Wr) : (c.pendW n w).trigSeq = c.trigSeq := rfl
@[simp] theorem Ctx.pendW_stops (c : Ctx) (n : Nat) (w : Wr) : (c.pendW n w).stops = c.stops := rfl
@[simp] theorem Ctx.pendW_again (c : Ctx) (n : Nat) (w : Wr) : (c.pendW n w).again = c.again := rfl
@[simp] theorem Ctx.pendW_waits (c : Ctx) (n : Nat) (w : Wr) : (c.pendW n w).waits = c.waits := rfl
@[simp] theorem Ctx.pendW_fpst (c : Ctx) (n : Nat) (w : Wr) : (c.pendW n w).fpst = c.fpst := rfl
@[simp] theorem Ctx.pendW_tmfrac (c : Ctx) (n : Nat) (w : Wr) : (c.pendW n w).tmfrac = c.tmfrac := rfl
@[simp] theorem Ctx.pendW_timer (c : Ctx) (n : Nat) (w : Wr) : (c.pendW n w).timer = c.timer := rfl
@[simp] theorem Ctx.pendW_rngkey (c : Ctx) (n : Nat) (w : Wr) : (c.pendW n w).rngkey = c.rngkey := rfl
@[simp] theorem Ctx.pendW_lastWr (c : Ctx) (n : Nat) (w : Wr) : (c.pendW n w).lastWr = c.lastWr := rfl
@[simp] theorem Ctx.pendW_lastSlice (c : Ctx) (n : Nat) (w : Wr) : (c.pendW n w).lastSlice = c.lastSlice := rfl
@[simp] theorem Ctx.pendW_lastSeq (c : Ctx) (n : Nat) (w : Wr) : (c.pendW n w).lastSeq = c.lastSeq := rfl
@[simp] theorem Ctx.pendW_ws (c : Ctx) (n : Nat) (w : Wr) : (c.pendW n w).ws = c.ws := rfl
@[simp] theorem Ctx.pendW_upd (c : Ctx) (n : Nat) (w : Wr) : (c.pendW n w).upd = c.upd := rfl
@[simp] theorem Ctx.pendW_pubs (c : Ctx) (n : Nat) (w : Wr) : (c.pendW n w).pubs = c.pubs := rfl
@[simp] theorem Ctx.pendW_pubSeq (c : Ctx) (n : Nat) (w : Wr) : (c.pendW n w).pubSeq = c.pubSeq := rfl
@[simp] theorem Ctx.pendW_accOut (c : Ctx) (n : Nat) (w : Wr) : (c.pendW n w).accOut = c.accOut := rfl
@[simp] theorem Ctx.pendW_walk (c : Ctx) (n : Nat) (w : Wr) : (c.pendW n w).walk = c.walk := rfl
@[simp] theorem Ctx.pendW_tags (c : Ctx) (n : Nat) (w : Wr) : (c.pendW n w).tags = c.tags := rfl
@[simp] theorem Ctx.pendW_strm (c : Ctx) (n : Nat) (w : Wr) : (c.pendW n w).strm = c.strm := rfl
@[simp] theorem Ctx.pendW_pushes (c : Ctx) (n : Nat) (w : Wr) : (c.pendW n w).pushes = c.pushes := rfl
@[simp] theorem Ctx.pendW_cp (c : Ctx) (n : Nat) (w : Wr) : (c.pendW n w).cp = c.cp := rfl
@[simp] theorem Ctx.pendW_cq (c : Ctx) (n : Nat) (w : Wr) : (c.pendW n w).cq = c.cq := rfl
@[simp] theorem Ctx.pendW_xferCtr (c : Ctx) (n : Nat) (w : Wr) : (c.pendW n w).xferCtr = c.xferCtr := rfl
@[simp] theorem Ctx.pendW_cpTurn (c : Ctx) (n : Nat) (w : Wr) : (c.pendW n w).cpTurn = c.cpTurn := rfl
@[simp] theorem Ctx.pendW_qfence (c : Ctx) (n : Nat) (w : Wr) : (c.pendW n w).qfence = c.qfence := rfl
@[simp] theorem Ctx.pendW_arr64 (c : Ctx) (n : Nat) (w : Wr) : (c.pendW n w).arr64 = c.arr64 := rfl
@[simp] theorem Ctx.pendW_recvT (c : Ctx) (n : Nat) (w : Wr) : (c.pendW n w).recvT = c.recvT := rfl
@[simp] theorem Ctx.pendW_ovf (c : Ctx) (n : Nat) (w : Wr) : (c.pendW n w).ovf = c.ovf := rfl
@[simp] theorem Ctx.pendW_trees (c : Ctx) (n : Nat) (w : Wr) : (c.pendW n w).trees = c.trees := rfl
@[simp] theorem Ctx.pendW_treeOps (c : Ctx) (n : Nat) (w : Wr) : (c.pendW n w).treeOps = c.treeOps := rfl
@[simp] theorem Ctx.pendW_orders (c : Ctx) (n : Nat) (w : Wr) : (c.pendW n w).orders = c.orders := rfl
@[simp] theorem Ctx.pendW_postSeq (c : Ctx) (n : Nat) (w : Wr) : (c.pendW n w).postSeq = c.postSeq := rfl
@[simp] theorem Ctx.pendW_sp (c : Ctx) (n : Nat) (w : Wr) : (c.pendW n w).sp = c.sp := rfl
@[simp] theorem Ctx.pendW_spPoison (c : Ctx) (n : Nat) (w : Wr) : (c.pendW n w).spPoison = c.spPoison := rfl
@[simp] theorem Ctx.pendW_spw (c : Ctx) (n : Nat) (w : Wr) : (c.pendW n w).spw = c.spw := rfl

/-! ### `Ctx.pendK` -/

@[simp] theorem Ctx.pendK_part (c : Ctx) (k : Option Nat) (n : Nat) (w : Wr) : (c.pendK k n w).part = c.part := rfl
@[simp] theorem Ctx.pendK_region (c : Ctx) (k : Option Nat) (n : Nat) (w : Wr) : (c.pendK k n w).region = c.region := rfl
@[simp] theorem Ctx.pendK_live (c : Ctx) (k : Option Nat) (n : Nat) (w : Wr) : (c.pendK k n w).live = c.live := rfl
@[simp] theorem Ctx.pendK_starting (c : Ctx) (k : Option Nat) (n : Nat) (w : Wr) : (c.pendK k n w).starting = c.starting := rfl
@[simp] theorem Ctx.pendK_role (c : Ctx) (k : Option Nat) (n : Nat) (w : Wr) : (c.pendK k n w).role = c.role := rfl
@[simp] theorem Ctx.pendK_words (c : Ctx) (k : Option Nat) (n : Nat) (w : Wr) : (c.pendK k n w).words = c.words := rfl
@[simp] theorem Ctx.pendK_cbase (c : Ctx) (k : Option Nat) (n : Nat) (w : Wr) : (c.pendK k n w).cbase = c.cbase := rfl
@[simp] theorem Ctx.pendK_vlo (c : Ctx) (k : Option Nat) (n : Nat) (w : Wr) : (c.pendK k n w).vlo = c.vlo := rfl
@[simp] theorem Ctx.pendK_vhi (c : Ctx) (k : Option Nat) (n : Nat) (w : Wr) : (c.pendK k n w).vhi = c.vhi := rfl
@[simp] theorem Ctx.pendK_spad (c : Ctx) (k : Option Nat) (n : Nat) (w : Wr) : (c.pendK k n w).spad = c.spad := rfl
@[simp] theorem Ctx.pendK_kind (c : Ctx) (k : Option Nat) (n : Nat) (w : Wr) : (c.pendK k n w).kind = c.kind := rfl
@[simp] theorem Ctx.pendK_ph0 (c : Ctx) (k : Option Nat) (n : Nat) (w : Wr) : (c.pendK k n w).ph0 = c.ph0 := rfl
@[simp] theorem Ctx.pendK_off (c : Ctx) (k : Option Nat) (n : Nat) (w : Wr) : (c.pendK k n w).off = c.off := rfl
@[simp] theorem Ctx.pendK_frozen (c : Ctx) (k : Option Nat) (n : Nat) (w : Wr) : (c.pendK k n w).frozen = c.frozen := rfl
@[simp] theorem Ctx.pendK_stopped (c : Ctx) (k : Option Nat) (n : Nat) (w : Wr) : (c.pendK k n w).stopped = c.stopped := rfl
@[simp] theorem Ctx.pendK_loose (c : Ctx) (k : Option Nat) (n : Nat) (w : Wr) : (c.pendK k n w).loose = c.loose := rfl
@[simp] theorem Ctx.pendK_s (c : Ctx) (k : Option Nat) (n : Nat) (w : Wr) : (c.pendK k n w).s = c.s := rfl
@[simp] theorem Ctx.pendK_p (c : Ctx) (k : Option Nat) (n : Nat) (w : Wr) : (c.pendK k n w).p = c.p := rfl
@[simp] theorem Ctx.pendK_m (c : Ctx) (k : Option Nat) (n : Nat) (w : Wr) : (c.pendK k n w).m = c.m := rfl
@[simp] theorem Ctx.pendK_x (c : Ctx) (k : Option Nat) (n : Nat) (w : Wr) : (c.pendK k n w).x = c.x := rfl
@[simp] theorem Ctx.pendK_v (c : Ctx) (k : Option Nat) (n : Nat) (w : Wr) : (c.pendK k n w).v = c.v := rfl
@[simp] theorem Ctx.pendK_a (c : Ctx) (k : Option Nat) (n : Nat) (w : Wr) : (c.pendK k n w).a = c.a := rfl
@[simp] theorem Ctx.pendK_k (c : Ctx) (k : Option Nat) (n : Nat) (w : Wr) : (c.pendK k n w).k = c.k := rfl
@[simp] theorem Ctx.pendK_issueNo (c : Ctx) (k : Option Nat) (n : Nat) (w : Wr) : (c.pendK k n w).issueNo = c.issueNo := rfl
@[simp] theorem Ctx.pendK_kNo (c : Ctx) (k : Option Nat) (n : Nat) (w : Wr) : (c.pendK k n w).kNo = c.kNo := rfl
@[simp] theorem Ctx.pendK_pc (c : Ctx) (k : Option Nat) (n : Nat) (w : Wr) : (c.pendK k n w).pc = c.pc := rfl
@[simp] theorem Ctx.pendK_fpc (c : Ctx) (k : Option Nat) (n : Nat) (w : Wr) : (c.pendK k n w).fpc = c.fpc := rfl
@[simp] theorem Ctx.pendK_fetchAt (c : Ctx) (k : Option Nat) (n : Nat) (w : Wr) : (c.pendK k n w).fetchAt = c.fetchAt := rfl
@[simp] theorem Ctx.pendK_fdone (c : Ctx) (k : Option Nat) (n : Nat) (w : Wr) : (c.pendK k n w).fdone = c.fdone := rfl
@[simp] theorem Ctx.pendK_fstop (c : Ctx) (k : Option Nat) (n : Nat) (w : Wr) : (c.pendK k n w).fstop = c.fstop := rfl
@[simp] theorem Ctx.pendK_q (c : Ctx) (k : Option Nat) (n : Nat) (w : Wr) : (c.pendK k n w).q = c.q := rfl
@[simp] theorem Ctx.pendK_base (c : Ctx) (k : Option Nat) (n : Nat) (w : Wr) : (c.pendK k n w).base = c.base := rfl
@[simp] theorem Ctx.pendK_freed (c : Ctx) (k : Option Nat) (n : Nat) (w : Wr) : (c.pendK k n w).freed = c.freed := rfl
@[simp] theorem Ctx.pendK_seq (c : Ctx) (k : Option Nat) (n : Nat) (w : Wr) : (c.pendK k n w).seq = c.seq := rfl
@[simp] theorem Ctx.pendK_prev (c : Ctx) (k : Option Nat) (n : Nat) (w : Wr) : (c.pendK k n w).prev = c.prev := rfl
@[simp] theorem Ctx.pendK_reps (c : Ctx) (k : Option Nat) (n : Nat) (w : Wr) : (c.pendK k n w).reps = c.reps := rfl
@[simp] theorem Ctx.pendK_repSeq (c : Ctx) (k : Option Nat) (n : Nat) (w : Wr) : (c.pendK k n w).repSeq = c.repSeq := rfl
@[simp] theorem Ctx.pendK_fol (c : Ctx) (k : Option Nat) (n : Nat) (w : Wr) : (c.pendK k n w).fol = c.fol := rfl
@[simp] theorem Ctx.pendK_block (c : Ctx) (k : Option Nat) (n : Nat) (w : Wr) : (c.pendK k n w).block = c.block := rfl
@[simp] theorem Ctx.pendK_blockSeq (c : Ctx) (k : Option Nat) (n : Nat) (w : Wr) : (c.pendK k n w).blockSeq = c.blockSeq := rfl
@[simp] theorem Ctx.pendK_arr (c : Ctx) (k : Option Nat) (n : Nat) (w : Wr) : (c.pendK k n w).arr = c.arr := rfl
@[simp] theorem Ctx.pendK_bars (c : Ctx) (k : Option Nat) (n : Nat) (w : Wr) : (c.pendK k n w).bars = c.bars := rfl
@[simp] theorem Ctx.pendK_ui (c : Ctx) (k : Option Nat) (n : Nat) (w : Wr) : (c.pendK k n w).ui = c.ui := rfl
@[simp] theorem Ctx.pendK_batch (c : Ctx) (k : Option Nat) (n : Nat) (w : Wr) : (c.pendK k n w).batch = c.batch := rfl
@[simp] theorem Ctx.pendK_trig (c : Ctx) (k : Option Nat) (n : Nat) (w : Wr) : (c.pendK k n w).trig = c.trig := rfl
@[simp] theorem Ctx.pendK_trigPend (c : Ctx) (k : Option Nat) (n : Nat) (w : Wr) : (c.pendK k n w).trigPend = c.trigPend := rfl
@[simp] theorem Ctx.pendK_trigSeq (c : Ctx) (k : Option Nat) (n : Nat) (w : Wr) : (c.pendK k n w).trigSeq = c.trigSeq := rfl
@[simp] theorem Ctx.pendK_stops (c : Ctx) (k : Option Nat) (n : Nat) (w : Wr) : (c.pendK k n w).stops = c.stops := rfl
@[simp] theorem Ctx.pendK_again (c : Ctx) (k : Option Nat) (n : Nat) (w : Wr) : (c.pendK k n w).again = c.again := rfl
@[simp] theorem Ctx.pendK_waits (c : Ctx) (k : Option Nat) (n : Nat) (w : Wr) : (c.pendK k n w).waits = c.waits := rfl
@[simp] theorem Ctx.pendK_fpst (c : Ctx) (k : Option Nat) (n : Nat) (w : Wr) : (c.pendK k n w).fpst = c.fpst := rfl
@[simp] theorem Ctx.pendK_tmfrac (c : Ctx) (k : Option Nat) (n : Nat) (w : Wr) : (c.pendK k n w).tmfrac = c.tmfrac := rfl
@[simp] theorem Ctx.pendK_timer (c : Ctx) (k : Option Nat) (n : Nat) (w : Wr) : (c.pendK k n w).timer = c.timer := rfl
@[simp] theorem Ctx.pendK_rngkey (c : Ctx) (k : Option Nat) (n : Nat) (w : Wr) : (c.pendK k n w).rngkey = c.rngkey := rfl
@[simp] theorem Ctx.pendK_lastWr (c : Ctx) (k : Option Nat) (n : Nat) (w : Wr) : (c.pendK k n w).lastWr = c.lastWr := rfl
@[simp] theorem Ctx.pendK_lastSlice (c : Ctx) (k : Option Nat) (n : Nat) (w : Wr) : (c.pendK k n w).lastSlice = c.lastSlice := rfl
@[simp] theorem Ctx.pendK_lastSeq (c : Ctx) (k : Option Nat) (n : Nat) (w : Wr) : (c.pendK k n w).lastSeq = c.lastSeq := rfl
@[simp] theorem Ctx.pendK_ws (c : Ctx) (k : Option Nat) (n : Nat) (w : Wr) : (c.pendK k n w).ws = c.ws := rfl
@[simp] theorem Ctx.pendK_upd (c : Ctx) (k : Option Nat) (n : Nat) (w : Wr) : (c.pendK k n w).upd = c.upd := rfl
@[simp] theorem Ctx.pendK_pubs (c : Ctx) (k : Option Nat) (n : Nat) (w : Wr) : (c.pendK k n w).pubs = c.pubs := rfl
@[simp] theorem Ctx.pendK_pubSeq (c : Ctx) (k : Option Nat) (n : Nat) (w : Wr) : (c.pendK k n w).pubSeq = c.pubSeq := rfl
@[simp] theorem Ctx.pendK_accOut (c : Ctx) (k : Option Nat) (n : Nat) (w : Wr) : (c.pendK k n w).accOut = c.accOut := rfl
@[simp] theorem Ctx.pendK_walk (c : Ctx) (k : Option Nat) (n : Nat) (w : Wr) : (c.pendK k n w).walk = c.walk := rfl
@[simp] theorem Ctx.pendK_tags (c : Ctx) (k : Option Nat) (n : Nat) (w : Wr) : (c.pendK k n w).tags = c.tags := rfl
@[simp] theorem Ctx.pendK_strm (c : Ctx) (k : Option Nat) (n : Nat) (w : Wr) : (c.pendK k n w).strm = c.strm := rfl
@[simp] theorem Ctx.pendK_pushes (c : Ctx) (k : Option Nat) (n : Nat) (w : Wr) : (c.pendK k n w).pushes = c.pushes := rfl
@[simp] theorem Ctx.pendK_cp (c : Ctx) (k : Option Nat) (n : Nat) (w : Wr) : (c.pendK k n w).cp = c.cp := rfl
@[simp] theorem Ctx.pendK_cq (c : Ctx) (k : Option Nat) (n : Nat) (w : Wr) : (c.pendK k n w).cq = c.cq := rfl
@[simp] theorem Ctx.pendK_xferCtr (c : Ctx) (k : Option Nat) (n : Nat) (w : Wr) : (c.pendK k n w).xferCtr = c.xferCtr := rfl
@[simp] theorem Ctx.pendK_cpTurn (c : Ctx) (k : Option Nat) (n : Nat) (w : Wr) : (c.pendK k n w).cpTurn = c.cpTurn := rfl
@[simp] theorem Ctx.pendK_qfence (c : Ctx) (k : Option Nat) (n : Nat) (w : Wr) : (c.pendK k n w).qfence = c.qfence := rfl
@[simp] theorem Ctx.pendK_arr64 (c : Ctx) (k : Option Nat) (n : Nat) (w : Wr) : (c.pendK k n w).arr64 = c.arr64 := rfl
@[simp] theorem Ctx.pendK_recvT (c : Ctx) (k : Option Nat) (n : Nat) (w : Wr) : (c.pendK k n w).recvT = c.recvT := rfl
@[simp] theorem Ctx.pendK_ovf (c : Ctx) (k : Option Nat) (n : Nat) (w : Wr) : (c.pendK k n w).ovf = c.ovf := rfl
@[simp] theorem Ctx.pendK_trees (c : Ctx) (k : Option Nat) (n : Nat) (w : Wr) : (c.pendK k n w).trees = c.trees := rfl
@[simp] theorem Ctx.pendK_treeOps (c : Ctx) (k : Option Nat) (n : Nat) (w : Wr) : (c.pendK k n w).treeOps = c.treeOps := rfl
@[simp] theorem Ctx.pendK_orders (c : Ctx) (k : Option Nat) (n : Nat) (w : Wr) : (c.pendK k n w).orders = c.orders := rfl
@[simp] theorem Ctx.pendK_postSeq (c : Ctx) (k : Option Nat) (n : Nat) (w : Wr) : (c.pendK k n w).postSeq = c.postSeq := rfl
@[simp] theorem Ctx.pendK_sp (c : Ctx) (k : Option Nat) (n : Nat) (w : Wr) : (c.pendK k n w).sp = c.sp := rfl
@[simp] theorem Ctx.pendK_spPoison (c : Ctx) (k : Option Nat) (n : Nat) (w : Wr) : (c.pendK k n w).spPoison = c.spPoison := rfl
@[simp] theorem Ctx.pendK_spw (c : Ctx) (k : Option Nat) (n : Nat) (w : Wr) : (c.pendK k n w).spw = c.spw := rfl

/-! ### `Ctx.bind` -/

@[simp] theorem Ctx.bind_part (c : Ctx) (n : Nat) : (c.bind n).part = c.part := rfl
@[simp] theorem Ctx.bind_region (c : Ctx) (n : Nat) : (c.bind n).region = c.region := rfl
@[simp] theorem Ctx.bind_live (c : Ctx) (n : Nat) : (c.bind n).live = c.live := rfl
@[simp] theorem Ctx.bind_starting (c : Ctx) (n : Nat) : (c.bind n).starting = c.starting := rfl
@[simp] theorem Ctx.bind_role (c : Ctx) (n : Nat) : (c.bind n).role = c.role := rfl
@[simp] theorem Ctx.bind_words (c : Ctx) (n : Nat) : (c.bind n).words = c.words := rfl
@[simp] theorem Ctx.bind_cbase (c : Ctx) (n : Nat) : (c.bind n).cbase = c.cbase := rfl
@[simp] theorem Ctx.bind_vlo (c : Ctx) (n : Nat) : (c.bind n).vlo = c.vlo := rfl
@[simp] theorem Ctx.bind_vhi (c : Ctx) (n : Nat) : (c.bind n).vhi = c.vhi := rfl
@[simp] theorem Ctx.bind_spad (c : Ctx) (n : Nat) : (c.bind n).spad = c.spad := rfl
@[simp] theorem Ctx.bind_kind (c : Ctx) (n : Nat) : (c.bind n).kind = c.kind := rfl
@[simp] theorem Ctx.bind_ph0 (c : Ctx) (n : Nat) : (c.bind n).ph0 = c.ph0 := rfl
@[simp] theorem Ctx.bind_off (c : Ctx) (n : Nat) : (c.bind n).off = c.off := rfl
@[simp] theorem Ctx.bind_frozen (c : Ctx) (n : Nat) : (c.bind n).frozen = c.frozen := rfl
@[simp] theorem Ctx.bind_stopped (c : Ctx) (n : Nat) : (c.bind n).stopped = c.stopped := rfl
@[simp] theorem Ctx.bind_loose (c : Ctx) (n : Nat) : (c.bind n).loose = c.loose := rfl
@[simp] theorem Ctx.bind_s (c : Ctx) (n : Nat) : (c.bind n).s = c.s := rfl
@[simp] theorem Ctx.bind_p (c : Ctx) (n : Nat) : (c.bind n).p = c.p := rfl
@[simp] theorem Ctx.bind_m (c : Ctx) (n : Nat) : (c.bind n).m = c.m := rfl
@[simp] theorem Ctx.bind_x (c : Ctx) (n : Nat) : (c.bind n).x = c.x := rfl
@[simp] theorem Ctx.bind_v (c : Ctx) (n : Nat) : (c.bind n).v = c.v := rfl
@[simp] theorem Ctx.bind_a (c : Ctx) (n : Nat) : (c.bind n).a = c.a := rfl
@[simp] theorem Ctx.bind_pend (c : Ctx) (n : Nat) : (c.bind n).pend = c.pend := rfl
@[simp] theorem Ctx.bind_issueNo (c : Ctx) (n : Nat) : (c.bind n).issueNo = c.issueNo := rfl
@[simp] theorem Ctx.bind_pc (c : Ctx) (n : Nat) : (c.bind n).pc = c.pc := rfl
@[simp] theorem Ctx.bind_fpc (c : Ctx) (n : Nat) : (c.bind n).fpc = c.fpc := rfl
@[simp] theorem Ctx.bind_fetchAt (c : Ctx) (n : Nat) : (c.bind n).fetchAt = c.fetchAt := rfl
@[simp] theorem Ctx.bind_fdone (c : Ctx) (n : Nat) : (c.bind n).fdone = c.fdone := rfl
@[simp] theorem Ctx.bind_fstop (c : Ctx) (n : Nat) : (c.bind n).fstop = c.fstop := rfl
@[simp] theorem Ctx.bind_q (c : Ctx) (n : Nat) : (c.bind n).q = c.q := rfl
@[simp] theorem Ctx.bind_base (c : Ctx) (n : Nat) : (c.bind n).base = c.base := rfl
@[simp] theorem Ctx.bind_freed (c : Ctx) (n : Nat) : (c.bind n).freed = c.freed := rfl
@[simp] theorem Ctx.bind_seq (c : Ctx) (n : Nat) : (c.bind n).seq = c.seq := rfl
@[simp] theorem Ctx.bind_prev (c : Ctx) (n : Nat) : (c.bind n).prev = c.prev := rfl
@[simp] theorem Ctx.bind_reps (c : Ctx) (n : Nat) : (c.bind n).reps = c.reps := rfl
@[simp] theorem Ctx.bind_repSeq (c : Ctx) (n : Nat) : (c.bind n).repSeq = c.repSeq := rfl
@[simp] theorem Ctx.bind_fol (c : Ctx) (n : Nat) : (c.bind n).fol = c.fol := rfl
@[simp] theorem Ctx.bind_block (c : Ctx) (n : Nat) : (c.bind n).block = c.block := rfl
@[simp] theorem Ctx.bind_blockSeq (c : Ctx) (n : Nat) : (c.bind n).blockSeq = c.blockSeq := rfl
@[simp] theorem Ctx.bind_arr (c : Ctx) (n : Nat) : (c.bind n).arr = c.arr := rfl
@[simp] theorem Ctx.bind_bars (c : Ctx) (n : Nat) : (c.bind n).bars = c.bars := rfl
@[simp] theorem Ctx.bind_ui (c : Ctx) (n : Nat) : (c.bind n).ui = c.ui := rfl
@[simp] theorem Ctx.bind_batch (c : Ctx) (n : Nat) : (c.bind n).batch = c.batch := rfl
@[simp] theorem Ctx.bind_trig (c : Ctx) (n : Nat) : (c.bind n).trig = c.trig := rfl
@[simp] theorem Ctx.bind_trigPend (c : Ctx) (n : Nat) : (c.bind n).trigPend = c.trigPend := rfl
@[simp] theorem Ctx.bind_trigSeq (c : Ctx) (n : Nat) : (c.bind n).trigSeq = c.trigSeq := rfl
@[simp] theorem Ctx.bind_stops (c : Ctx) (n : Nat) : (c.bind n).stops = c.stops := rfl
@[simp] theorem Ctx.bind_again (c : Ctx) (n : Nat) : (c.bind n).again = c.again := rfl
@[simp] theorem Ctx.bind_waits (c : Ctx) (n : Nat) : (c.bind n).waits = c.waits := rfl
@[simp] theorem Ctx.bind_fpst (c : Ctx) (n : Nat) : (c.bind n).fpst = c.fpst := rfl
@[simp] theorem Ctx.bind_tmfrac (c : Ctx) (n : Nat) : (c.bind n).tmfrac = c.tmfrac := rfl
@[simp] theorem Ctx.bind_timer (c : Ctx) (n : Nat) : (c.bind n).timer = c.timer := rfl
@[simp] theorem Ctx.bind_rngkey (c : Ctx) (n : Nat) : (c.bind n).rngkey = c.rngkey := rfl
@[simp] theorem Ctx.bind_lastWr (c : Ctx) (n : Nat) : (c.bind n).lastWr = c.lastWr := rfl
@[simp] theorem Ctx.bind_lastSlice (c : Ctx) (n : Nat) : (c.bind n).lastSlice = c.lastSlice := rfl
@[simp] theorem Ctx.bind_lastSeq (c : Ctx) (n : Nat) : (c.bind n).lastSeq = c.lastSeq := rfl
@[simp] theorem Ctx.bind_ws (c : Ctx) (n : Nat) : (c.bind n).ws = c.ws := rfl
@[simp] theorem Ctx.bind_upd (c : Ctx) (n : Nat) : (c.bind n).upd = c.upd := rfl
@[simp] theorem Ctx.bind_pubs (c : Ctx) (n : Nat) : (c.bind n).pubs = c.pubs := rfl
@[simp] theorem Ctx.bind_pubSeq (c : Ctx) (n : Nat) : (c.bind n).pubSeq = c.pubSeq := rfl
@[simp] theorem Ctx.bind_accOut (c : Ctx) (n : Nat) : (c.bind n).accOut = c.accOut := rfl
@[simp] theorem Ctx.bind_walk (c : Ctx) (n : Nat) : (c.bind n).walk = c.walk := rfl
@[simp] theorem Ctx.bind_tags (c : Ctx) (n : Nat) : (c.bind n).tags = c.tags := rfl
@[simp] theorem Ctx.bind_strm (c : Ctx) (n : Nat) : (c.bind n).strm = c.strm := rfl
@[simp] theorem Ctx.bind_pushes (c : Ctx) (n : Nat) : (c.bind n).pushes = c.pushes := rfl
@[simp] theorem Ctx.bind_cp (c : Ctx) (n : Nat) : (c.bind n).cp = c.cp := rfl
@[simp] theorem Ctx.bind_cq (c : Ctx) (n : Nat) : (c.bind n).cq = c.cq := rfl
@[simp] theorem Ctx.bind_xferCtr (c : Ctx) (n : Nat) : (c.bind n).xferCtr = c.xferCtr := rfl
@[simp] theorem Ctx.bind_cpTurn (c : Ctx) (n : Nat) : (c.bind n).cpTurn = c.cpTurn := rfl
@[simp] theorem Ctx.bind_qfence (c : Ctx) (n : Nat) : (c.bind n).qfence = c.qfence := rfl
@[simp] theorem Ctx.bind_recvT (c : Ctx) (n : Nat) : (c.bind n).recvT = c.recvT := rfl
@[simp] theorem Ctx.bind_ovf (c : Ctx) (n : Nat) : (c.bind n).ovf = c.ovf := rfl
@[simp] theorem Ctx.bind_trees (c : Ctx) (n : Nat) : (c.bind n).trees = c.trees := rfl
@[simp] theorem Ctx.bind_treeOps (c : Ctx) (n : Nat) : (c.bind n).treeOps = c.treeOps := rfl
@[simp] theorem Ctx.bind_orders (c : Ctx) (n : Nat) : (c.bind n).orders = c.orders := rfl
@[simp] theorem Ctx.bind_postSeq (c : Ctx) (n : Nat) : (c.bind n).postSeq = c.postSeq := rfl
@[simp] theorem Ctx.bind_sp (c : Ctx) (n : Nat) : (c.bind n).sp = c.sp := rfl
@[simp] theorem Ctx.bind_spPoison (c : Ctx) (n : Nat) : (c.bind n).spPoison = c.spPoison := rfl
@[simp] theorem Ctx.bind_spw (c : Ctx) (n : Nat) : (c.bind n).spw = c.spw := rfl

/-! ### `Ctx.setTok` -/

@[simp] theorem Ctx.setTok_part (c : Ctx) (n : Nat) (k : Tok) : (c.setTok n k).part = c.part := rfl
@[simp] theorem Ctx.setTok_region (c : Ctx) (n : Nat) (k : Tok) : (c.setTok n k).region = c.region := rfl
@[simp] theorem Ctx.setTok_live (c : Ctx) (n : Nat) (k : Tok) : (c.setTok n k).live = c.live := rfl
@[simp] theorem Ctx.setTok_starting (c : Ctx) (n : Nat) (k : Tok) : (c.setTok n k).starting = c.starting := rfl
@[simp] theorem Ctx.setTok_role (c : Ctx) (n : Nat) (k : Tok) : (c.setTok n k).role = c.role := rfl
@[simp] theorem Ctx.setTok_words (c : Ctx) (n : Nat) (k : Tok) : (c.setTok n k).words = c.words := rfl
@[simp] theorem Ctx.setTok_cbase (c : Ctx) (n : Nat) (k : Tok) : (c.setTok n k).cbase = c.cbase := rfl
@[simp] theorem Ctx.setTok_vlo (c : Ctx) (n : Nat) (k : Tok) : (c.setTok n k).vlo = c.vlo := rfl
@[simp] theorem Ctx.setTok_vhi (c : Ctx) (n : Nat) (k : Tok) : (c.setTok n k).vhi = c.vhi := rfl
@[simp] theorem Ctx.setTok_spad (c : Ctx) (n : Nat) (k : Tok) : (c.setTok n k).spad = c.spad := rfl
@[simp] theorem Ctx.setTok_kind (c : Ctx) (n : Nat) (k : Tok) : (c.setTok n k).kind = c.kind := rfl
@[simp] theorem Ctx.setTok_ph0 (c : Ctx) (n : Nat) (k : Tok) : (c.setTok n k).ph0 = c.ph0 := rfl
@[simp] theorem Ctx.setTok_off (c : Ctx) (n : Nat) (k : Tok) : (c.setTok n k).off = c.off := rfl
@[simp] theorem Ctx.setTok_frozen (c : Ctx) (n : Nat) (k : Tok) : (c.setTok n k).frozen = c.frozen := rfl
@[simp] theorem Ctx.setTok_stopped (c : Ctx) (n : Nat) (k : Tok) : (c.setTok n k).stopped = c.stopped := rfl
@[simp] theorem Ctx.setTok_loose (c : Ctx) (n : Nat) (k : Tok) : (c.setTok n k).loose = c.loose := rfl
@[simp] theorem Ctx.setTok_s (c : Ctx) (n : Nat) (k : Tok) : (c.setTok n k).s = c.s := rfl
@[simp] theorem Ctx.setTok_p (c : Ctx) (n : Nat) (k : Tok) : (c.setTok n k).p = c.p := rfl
@[simp] theorem Ctx.setTok_m (c : Ctx) (n : Nat) (k : Tok) : (c.setTok n k).m = c.m := rfl
@[simp] theorem Ctx.setTok_x (c : Ctx) (n : Nat) (k : Tok) : (c.setTok n k).x = c.x := rfl
@[simp] theorem Ctx.setTok_v (c : Ctx) (n : Nat) (k : Tok) : (c.setTok n k).v = c.v := rfl
@[simp] theorem Ctx.setTok_a (c : Ctx) (n : Nat) (k : Tok) : (c.setTok n k).a = c.a := rfl
@[simp] theorem Ctx.setTok_pend (c : Ctx) (n : Nat) (k : Tok) : (c.setTok n k).pend = c.pend := rfl
@[simp] theorem Ctx.setTok_issueNo (c : Ctx) (n : Nat) (k : Tok) : (c.setTok n k).issueNo = c.issueNo := rfl
@[simp] theorem Ctx.setTok_kNo (c : Ctx) (n : Nat) (k : Tok) : (c.setTok n k).kNo = c.kNo := rfl
@[simp] theorem Ctx.setTok_pc (c : Ctx) (n : Nat) (k : Tok) : (c.setTok n k).pc = c.pc := rfl
@[simp] theorem Ctx.setTok_fpc (c : Ctx) (n : Nat) (k : Tok) : (c.setTok n k).fpc = c.fpc := rfl
@[simp] theorem Ctx.setTok_fetchAt (c : Ctx) (n : Nat) (k : Tok) : (c.setTok n k).fetchAt = c.fetchAt := rfl
@[simp] theorem Ctx.setTok_fdone (c : Ctx) (n : Nat) (k : Tok) : (c.setTok n k).fdone = c.fdone := rfl
@[simp] theorem Ctx.setTok_fstop (c : Ctx) (n : Nat) (k : Tok) : (c.setTok n k).fstop = c.fstop := rfl
@[simp] theorem Ctx.setTok_q (c : Ctx) (n : Nat) (k : Tok) : (c.setTok n k).q = c.q := rfl
@[simp] theorem Ctx.setTok_base (c : Ctx) (n : Nat) (k : Tok) : (c.setTok n k).base = c.base := rfl
@[simp] theorem Ctx.setTok_freed (c : Ctx) (n : Nat) (k : Tok) : (c.setTok n k).freed = c.freed := rfl
@[simp] theorem Ctx.setTok_seq (c : Ctx) (n : Nat) (k : Tok) : (c.setTok n k).seq = c.seq := rfl
@[simp] theorem Ctx.setTok_prev (c : Ctx) (n : Nat) (k : Tok) : (c.setTok n k).prev = c.prev := rfl
@[simp] theorem Ctx.setTok_reps (c : Ctx) (n : Nat) (k : Tok) : (c.setTok n k).reps = c.reps := rfl
@[simp] theorem Ctx.setTok_repSeq (c : Ctx) (n : Nat) (k : Tok) : (c.setTok n k).repSeq = c.repSeq := rfl
@[simp] theorem Ctx.setTok_fol (c : Ctx) (n : Nat) (k : Tok) : (c.setTok n k).fol = c.fol := rfl
@[simp] theorem Ctx.setTok_block (c : Ctx) (n : Nat) (k : Tok) : (c.setTok n k).block = c.block := rfl
@[simp] theorem Ctx.setTok_blockSeq (c : Ctx) (n : Nat) (k : Tok) : (c.setTok n k).blockSeq = c.blockSeq := rfl
@[simp] theorem Ctx.setTok_arr (c : Ctx) (n : Nat) (k : Tok) : (c.setTok n k).arr = c.arr := rfl
@[simp] theorem Ctx.setTok_bars (c : Ctx) (n : Nat) (k : Tok) : (c.setTok n k).bars = c.bars := rfl
@[simp] theorem Ctx.setTok_ui (c : Ctx) (n : Nat) (k : Tok) : (c.setTok n k).ui = c.ui := rfl
@[simp] theorem Ctx.setTok_batch (c : Ctx) (n : Nat) (k : Tok) : (c.setTok n k).batch = c.batch := rfl
@[simp] theorem Ctx.setTok_trig (c : Ctx) (n : Nat) (k : Tok) : (c.setTok n k).trig = c.trig := rfl
@[simp] theorem Ctx.setTok_trigPend (c : Ctx) (n : Nat) (k : Tok) : (c.setTok n k).trigPend = c.trigPend := rfl
@[simp] theorem Ctx.setTok_trigSeq (c : Ctx) (n : Nat) (k : Tok) : (c.setTok n k).trigSeq = c.trigSeq := rfl
@[simp] theorem Ctx.setTok_stops (c : Ctx) (n : Nat) (k : Tok) : (c.setTok n k).stops = c.stops := rfl
@[simp] theorem Ctx.setTok_again (c : Ctx) (n : Nat) (k : Tok) : (c.setTok n k).again = c.again := rfl
@[simp] theorem Ctx.setTok_waits (c : Ctx) (n : Nat) (k : Tok) : (c.setTok n k).waits = c.waits := rfl
@[simp] theorem Ctx.setTok_fpst (c : Ctx) (n : Nat) (k : Tok) : (c.setTok n k).fpst = c.fpst := rfl
@[simp] theorem Ctx.setTok_tmfrac (c : Ctx) (n : Nat) (k : Tok) : (c.setTok n k).tmfrac = c.tmfrac := rfl
@[simp] theorem Ctx.setTok_timer (c : Ctx) (n : Nat) (k : Tok) : (c.setTok n k).timer = c.timer := rfl
@[simp] theorem Ctx.setTok_rngkey (c : Ctx) (n : Nat) (k : Tok) : (c.setTok n k).rngkey = c.rngkey := rfl
@[simp] theorem Ctx.setTok_lastWr (c : Ctx) (n : Nat) (k : Tok) : (c.setTok n k).lastWr = c.lastWr := rfl
@[simp] theorem Ctx.setTok_lastSlice (c : Ctx) (n : Nat) (k : Tok) : (c.setTok n k).lastSlice = c.lastSlice := rfl
@[simp] theorem Ctx.setTok_lastSeq (c : Ctx) (n : Nat) (k : Tok) : (c.setTok n k).lastSeq = c.lastSeq := rfl
@[simp] theorem Ctx.setTok_ws (c : Ctx) (n : Nat) (k : Tok) : (c.setTok n k).ws = c.ws := rfl
@[simp] theorem Ctx.setTok_upd (c : Ctx) (n : Nat) (k : Tok) : (c.setTok n k).upd = c.upd := rfl
@[simp] theorem Ctx.setTok_pubs (c : Ctx) (n : Nat) (k : Tok) : (c.setTok n k).pubs = c.pubs := rfl
@[simp] theorem Ctx.setTok_pubSeq (c : Ctx) (n : Nat) (k : Tok) : (c.setTok n k).pubSeq = c.pubSeq := rfl
@[simp] theorem Ctx.setTok_accOut (c : Ctx) (n : Nat) (k : Tok) : (c.setTok n k).accOut = c.accOut := rfl
@[simp] theorem Ctx.setTok_walk (c : Ctx) (n : Nat) (k : Tok) : (c.setTok n k).walk = c.walk := rfl
@[simp] theorem Ctx.setTok_tags (c : Ctx) (n : Nat) (k : Tok) : (c.setTok n k).tags = c.tags := rfl
@[simp] theorem Ctx.setTok_strm (c : Ctx) (n : Nat) (k : Tok) : (c.setTok n k).strm = c.strm := rfl
@[simp] theorem Ctx.setTok_pushes (c : Ctx) (n : Nat) (k : Tok) : (c.setTok n k).pushes = c.pushes := rfl
@[simp] theorem Ctx.setTok_cp (c : Ctx) (n : Nat) (k : Tok) : (c.setTok n k).cp = c.cp := rfl
@[simp] theorem Ctx.setTok_cq (c : Ctx) (n : Nat) (k : Tok) : (c.setTok n k).cq = c.cq := rfl
@[simp] theorem Ctx.setTok_xferCtr (c : Ctx) (n : Nat) (k : Tok) : (c.setTok n k).xferCtr = c.xferCtr := rfl
@[simp] theorem Ctx.setTok_cpTurn (c : Ctx) (n : Nat) (k : Tok) : (c.setTok n k).cpTurn = c.cpTurn := rfl
@[simp] theorem Ctx.setTok_qfence (c : Ctx) (n : Nat) (k : Tok) : (c.setTok n k).qfence = c.qfence := rfl
@[simp] theorem Ctx.setTok_arr64 (c : Ctx) (n : Nat) (k : Tok) : (c.setTok n k).arr64 = c.arr64 := rfl
@[simp] theorem Ctx.setTok_recvT (c : Ctx) (n : Nat) (k : Tok) : (c.setTok n k).recvT = c.recvT := rfl
@[simp] theorem Ctx.setTok_ovf (c : Ctx) (n : Nat) (k : Tok) : (c.setTok n k).ovf = c.ovf := rfl
@[simp] theorem Ctx.setTok_trees (c : Ctx) (n : Nat) (k : Tok) : (c.setTok n k).trees = c.trees := rfl
@[simp] theorem Ctx.setTok_treeOps (c : Ctx) (n : Nat) (k : Tok) : (c.setTok n k).treeOps = c.treeOps := rfl
@[simp] theorem Ctx.setTok_orders (c : Ctx) (n : Nat) (k : Tok) : (c.setTok n k).orders = c.orders := rfl
@[simp] theorem Ctx.setTok_postSeq (c : Ctx) (n : Nat) (k : Tok) : (c.setTok n k).postSeq = c.postSeq := rfl
@[simp] theorem Ctx.setTok_sp (c : Ctx) (n : Nat) (k : Tok) : (c.setTok n k).sp = c.sp := rfl
@[simp] theorem Ctx.setTok_spPoison (c : Ctx) (n : Nat) (k : Tok) : (c.setTok n k).spPoison = c.spPoison := rfl
@[simp] theorem Ctx.setTok_spw (c : Ctx) (n : Nat) (k : Tok) : (c.setTok n k).spw = c.spw := rfl

end Sys2Proof.Machine
end

