-- ==== Sys2Proof/Laws/Tbl.lean ====
section
/-! SUPPORT. Laws of sparse tables and byte memories: a read after a write to the same place gives the value written, a
write leaves every other place alone, and every write keeps the canonical form. -/

namespace Sys2Proof.Machine

/-! ### Tables whose entries may hold the default -/

@[simp] theorem Tbl.get_put_same {α : Type} (d : α) (t : Tbl α) (n : Nat) (x : α) : Tbl.get d (Tbl.put t n x) n = x := by
  induction t with
  | nil => simp [Tbl.put, Tbl.get]
  | cons e r ih =>
    obtain ⟨k, v⟩ := e
    simp only [Tbl.put]
    split
    · simp [Tbl.get]
    · split
      · simp [Tbl.get]
      · simp [Tbl.get, *]

theorem Tbl.get_put_other {α : Type} (d : α) (t : Tbl α) (n m : Nat) (x : α) (h : m ≠ n) :
    Tbl.get d (Tbl.put t n x) m = Tbl.get d t m := by
  induction t with
  | nil => simp [Tbl.put, Tbl.get, h]
  | cons e r ih =>
    obtain ⟨k, v⟩ := e
    simp only [Tbl.put]
    split
    · by_cases h1 : m < n
      · have : m < k := by omega
        simp [Tbl.get, h1, this]
      · simp [Tbl.get, h1, h]
    · split
      · subst_vars; simp [Tbl.get, h]
      · simp [Tbl.get, ih]

@[simp] theorem Tbl.find_put_same {α : Type} (t : Tbl α) (n : Nat) (x : α) : Tbl.find (Tbl.put t n x) n = some x := by
  induction t with
  | nil => simp [Tbl.put, Tbl.find]
  | cons e r ih =>
    obtain ⟨k, v⟩ := e
    simp only [Tbl.put]
    split
    · simp [Tbl.find]
    · split
      · simp [Tbl.find]
      · simp [Tbl.find, *]

theorem Tbl.find_put_other {α : Type} (t : Tbl α) (n m : Nat) (x : α) (h : m ≠ n) :
    Tbl.find (Tbl.put t n x) m = Tbl.find t m := by
  induction t with
  | nil => simp [Tbl.put, Tbl.find, h]
  | cons e r ih =>
    obtain ⟨k, v⟩ := e
    simp only [Tbl.put]
    split
    · by_cases h1 : m < n
      · have : m < k := by omega
        simp [Tbl.find, h1, this]
      · simp [Tbl.find, h1, h]
    · split
      · subst_vars; simp [Tbl.find, h]
      · simp [Tbl.find, ih]

/-! ### Canonical tables -/

theorem Tbl.wfFrom_le {α : Type} [DecidableEq α] (d : α) (t : Tbl α) (a b : Nat) (h : a ≤ b) (hw : Tbl.wfFrom d b t = true) :
    Tbl.wfFrom d a t = true := by
  cases t with
  | nil => rfl
  | cons e r =>
    simp only [Tbl.wfFrom, Bool.and_eq_true, decide_eq_true_eq] at *
    exact ⟨⟨by omega, hw.1.2⟩, hw.2⟩

theorem Tbl.get_below {α : Type} [DecidableEq α] (d : α) (t : Tbl α) (lo n : Nat) (hw : Tbl.wfFrom d lo t = true) (h : n < lo) :
    Tbl.get d t n = d := by
  cases t with
  | nil => rfl
  | cons e r =>
    simp only [Tbl.wfFrom, Bool.and_eq_true, decide_eq_true_eq] at hw
    have : n < e.1 := by omega
    simp [Tbl.get, this]

theorem Tbl.set_wfFrom {α : Type} [DecidableEq α] (d : α) (t : Tbl α) (lo n : Nat) (x : α) (hn : lo ≤ n)
    (hw : Tbl.wfFrom d lo t = true) : Tbl.wfFrom d lo (Tbl.set d t n x) = true := by
  induction t generalizing lo with
  | nil =>
    simp only [Tbl.set]
    split <;> simp [Tbl.wfFrom, *]
  | cons e r ih =>
    obtain ⟨k, v⟩ := e
    have hw' := hw
    simp only [Tbl.wfFrom, Bool.and_eq_true, decide_eq_true_eq] at hw
    obtain ⟨⟨h1, h2⟩, h3⟩ := hw
    simp only [Tbl.set]
    split
    · split
      · exact hw'
      · simp only [Tbl.wfFrom, Bool.and_eq_true, decide_eq_true_eq]
        exact ⟨⟨hn, ‹_›⟩, ⟨by omega, h2⟩, h3⟩
    · split
      · split
        · exact Tbl.wfFrom_le d r lo (k + 1) (by omega) h3
        · simp only [Tbl.wfFrom, Bool.and_eq_true, decide_eq_true_eq]
          subst_vars
          exact ⟨⟨hn, ‹_›⟩, h3⟩
      · simp only [Tbl.wfFrom, Bool.and_eq_true, decide_eq_true_eq]
        exact ⟨⟨h1, h2⟩, ih (k + 1) (by omega) h3⟩

/-- A write keeps the canonical form. -/
theorem Tbl.set_wf {α : Type} [DecidableEq α] (d : α) (t : Tbl α) (n : Nat) (x : α) (hw : Tbl.wf d t = true) :
    Tbl.wf d (Tbl.set d t n x) = true := Tbl.set_wfFrom d t 0 n x (Nat.zero_le n) hw

theorem Tbl.get_set_same_from {α : Type} [DecidableEq α] (d : α) (t : Tbl α) (lo n : Nat) (x : α)
    (hw : Tbl.wfFrom d lo t = true) : Tbl.get d (Tbl.set d t n x) n = x := by
  induction t generalizing lo with
  | nil =>
    simp only [Tbl.set]
    split <;> simp [Tbl.get, *]
  | cons e r ih =>
    obtain ⟨k, v⟩ := e
    simp only [Tbl.wfFrom, Bool.and_eq_true, decide_eq_true_eq] at hw
    obtain ⟨⟨h1, h2⟩, h3⟩ := hw
    simp only [Tbl.set]
    split
    · split <;> simp [Tbl.get, *]
    · split
      · split
        · subst_vars
          exact Tbl.get_below _ _ _ _ h3 (by omega)
        · simp [Tbl.get]
      · simp [Tbl.get, ih _ h3, *]

/-- A read after a write to the same key gives the value written. -/
theorem Tbl.get_set_same {α : Type} [DecidableEq α] (d : α) (t : Tbl α) (n : Nat) (x : α) (hw : Tbl.wf d t = true) :
    Tbl.get d (Tbl.set d t n x) n = x := Tbl.get_set_same_from d t 0 n x hw

theorem Tbl.get_set_other_from {α : Type} [DecidableEq α] (d : α) (t : Tbl α) (lo n m : Nat) (x : α)
    (hw : Tbl.wfFrom d lo t = true) (h : m ≠ n) : Tbl.get d (Tbl.set d t n x) m = Tbl.get d t m := by
  induction t generalizing lo with
  | nil =>
    simp only [Tbl.set]
    split <;> simp [Tbl.get, h]
  | cons e r ih =>
    obtain ⟨k, v⟩ := e
    simp only [Tbl.wfFrom, Bool.and_eq_true, decide_eq_true_eq] at hw
    obtain ⟨⟨h1, h2⟩, h3⟩ := hw
    simp only [Tbl.set]
    split
    · split
      · rfl
      · by_cases hm : m < n
        · have : m < k := by omega
          simp [Tbl.get, hm, this]
        · simp [Tbl.get, hm, h]
    · split
      · subst_vars
        split
        · by_cases hm : m < k
          · rw [Tbl.get_below d r (k + 1) m h3 (by omega)]
            simp [Tbl.get, hm]
          · simp [Tbl.get, hm, h]
        · simp [Tbl.get, h]
      · simp [Tbl.get, ih _ h3]

/-- A write leaves every other key alone. -/
theorem Tbl.get_set_other {α : Type} [DecidableEq α] (d : α) (t : Tbl α) (n m : Nat) (x : α) (hw : Tbl.wf d t = true)
    (h : m ≠ n) : Tbl.get d (Tbl.set d t n x) m = Tbl.get d t m := Tbl.get_set_other_from d t 0 n m x hw h

/-- The same with no condition on the table, for a value that is listed. -/
theorem Tbl.get_set_same_ne {α : Type} [DecidableEq α] (d : α) (t : Tbl α) (n : Nat) (x : α) (hx : x ≠ d) :
    Tbl.get d (Tbl.set d t n x) n = x := by
  induction t with
  | nil => simp [Tbl.set, hx, Tbl.get]
  | cons e r ih =>
    obtain ⟨k, v⟩ := e
    simp only [Tbl.set, hx, if_false]
    split
    · simp [Tbl.get]
    · split
      · simp [Tbl.get]
      · simp [Tbl.get, *]

/-- A write of a value that is listed is a `put`. -/
theorem Tbl.set_eq_put {α : Type} [DecidableEq α] (d : α) (t : Tbl α) (n : Nat) (x : α) (hx : x ≠ d) :
    Tbl.set d t n x = Tbl.put t n x := by
  induction t with
  | nil => simp [Tbl.set, Tbl.put, hx]
  | cons e r ih =>
    obtain ⟨k, v⟩ := e
    simp [Tbl.set, Tbl.put, hx, ih]

/-! ### Byte memories -/

/-- Writing one byte keeps the canonical form. -/
theorem Mem.setByte_wf (m : Mem) (a : Nat) (b : Byte) (h : Memory.wf m = true) : Memory.wf (m.setByte a b) = true :=
  Tbl.set_wf _ _ _ _ h

/-- Writing bytes keeps the canonical form. -/
theorem Mem.setMany_wf (m : Mem) (bs : List (Nat × Byte)) (h : Memory.wf m = true) : Memory.wf (m.setMany bs) = true := by
  unfold Mem.setMany
  induction bs generalizing m with
  | nil => exact h
  | cons b r ih => exact ih _ (Mem.setByte_wf m b.1 b.2 h)

/-- Writing a number keeps the canonical form. -/
theorem Mem.setNat_wf (m : Mem) (a n v : Nat) (h : Memory.wf m = true) : Memory.wf (m.setNat a n v) = true :=
  Mem.setMany_wf m _ h

/-- The byte written. -/
theorem Mem.byte_setByte_same (m : Mem) (a : Nat) (b : Byte) (h : Memory.wf m = true) : (m.setByte a b).byte a = b :=
  Tbl.get_set_same _ _ _ _ h

/-- Every other byte. -/
theorem Mem.byte_setByte_other (m : Mem) (a x : Nat) (b : Byte) (h : Memory.wf m = true) (hx : x ≠ a) :
    (m.setByte a b).byte x = m.byte x := Tbl.get_set_other _ _ _ _ _ h hx

/-- Bytes outside those written. -/
theorem Mem.byte_setMany_other (m : Mem) (bs : List (Nat × Byte)) (x : Nat) (h : Memory.wf m = true)
    (hx : ∀ b ∈ bs, x ≠ b.1) : (m.setMany bs).byte x = m.byte x := by
  unfold Mem.setMany
  induction bs generalizing m with
  | nil => rfl
  | cons b r ih =>
    refine (ih _ (Mem.setByte_wf m b.1 b.2 h) fun c hc => hx c (List.mem_cons_of_mem _ hc)).trans ?_
    exact Mem.byte_setByte_other m b.1 x b.2 h (hx b (List.mem_cons_self ..))

end Sys2Proof.Machine
end

