-- ==== Sys2Proof/Laws/Ops.lean ====
section
/-! SUPPORT. What each shared operation does, said once: reads after writes of tiles and contexts, and the checks of the
words, which go on where their condition holds and take their trap where it does not. -/

namespace Sys2Proof.Machine

/-! ### Tiles and contexts -/

@[simp] theorem State.core_setCore_same (s : State) (t : Nat) (k : Core) : (s.setCore t k).core t = k :=
  Tbl.get_put_same _ _ _ _
theorem State.core_setCore_other (s : State) (t u : Nat) (k : Core) (h : u ≠ t) : (s.setCore t k).core u = s.core u :=
  Tbl.get_put_other _ _ _ _ _ h
@[simp] theorem State.c_setC (s : State) (c : Ctx) : (s.setC c).c = c := by
  simp [State.c, State.setC]
@[simp] theorem State.c_updC (s : State) (f : Ctx → Ctx) : (s.updC f).c = f s.c := State.c_setC s (f s.c)
theorem State.core_updC_other (s : State) (f : Ctx → Ctx) (u : Nat) (h : u ≠ s.me) : (s.updC f).core u = s.core u :=
  State.core_setCore_other s s.me u _ h
@[simp] theorem State.c_result (s : State) (n : Nat) (w : Wr) : (s.result n w).c = s.c.pendW (s.T + n) w :=
  State.c_updC s _
@[simp] theorem State.region_updRegion_same (s : State) (r : Nat) (f : Region → Region) :
    (s.updRegion r f).region r = f (s.region r) := Tbl.get_put_same _ _ _ _
theorem State.region_updRegion_other (s : State) (r q : Nat) (f : Region → Region) (h : q ≠ r) :
    (s.updRegion r f).region q = s.region q := Tbl.get_put_other _ _ _ _ _ h
@[simp] theorem State.part_updPart_same (s : State) (p : Nat) (f : Part → Part) :
    (s.updPart p f).part p = f (s.part p) := Tbl.get_put_same _ _ _ _
theorem State.part_updPart_other (s : State) (p q : Nat) (f : Part → Part) (h : q ≠ p) :
    (s.updPart p f).part q = s.part q := Tbl.get_put_other _ _ _ _ _ h
@[simp] theorem State.gang_updGang_same (s : State) (g : Nat) (f : Gang → Gang) :
    (s.updGang g f).gang g = f (s.gang g) := Tbl.get_put_same _ _ _ _
theorem State.gang_updGang_other (s : State) (g q : Nat) (f : Gang → Gang) (h : q ≠ g) :
    (s.updGang g f).gang q = s.gang q := Tbl.get_put_other _ _ _ _ _ h

/-! ### The context at a place -/

/-- A strand in its tile's foreground bank. -/
theorem State.ctx_of_inFg (s : State) (l : Loc) (h : s.inFg l = true) : s.ctx l = (s.core l.tile).fg := by
  simp [State.ctx, h]
/-- What it belongs to. -/
theorem State.part_ctx (s : State) (l : Loc) (h : s.inFg l = true) : (s.ctx l).part = some l.part := by
  rw [s.ctx_of_inFg l h]
  simpa [State.inFg] using h
/-- A change that keeps the partition keeps the place in the foreground. -/
theorem State.inFg_updCtx (s : State) (l : Loc) (f : Ctx → Ctx) (h : s.inFg l = true) (hp : (f (s.ctx l)).part = some l.part) :
    (s.updCtx l f).inFg l = true := by
  unfold State.updCtx State.setCtx
  rw [if_pos h]
  simp [State.inFg, hp]
/-- And it is what the place holds after it. -/
theorem State.ctx_updCtx (s : State) (l : Loc) (f : Ctx → Ctx) (h : s.inFg l = true) (hp : (f (s.ctx l)).part = some l.part) :
    (s.updCtx l f).ctx l = f (s.ctx l) := by
  rw [State.ctx_of_inFg _ _ (s.inFg_updCtx l f h hp)]
  unfold State.updCtx State.setCtx
  rw [if_pos h]
  simp
/-- It changes nothing but a core. -/
theorem State.updCtx_eq (s : State) (l : Loc) (f : Ctx → Ctx) : ∃ x, s.updCtx l f = { s with cores := x } := by
  unfold State.updCtx State.setCtx
  repeat' split
  all_goals exact ⟨_, rfl⟩
@[simp] theorem State.updCtx_tick (s : State) (l : Loc) (f : Ctx → Ctx) : (s.updCtx l f).tick = s.tick := by
  obtain ⟨x, h⟩ := s.updCtx_eq l f
  rw [h]
@[simp] theorem State.updCtx_agenda (s : State) (l : Loc) (f : Ctx → Ctx) : (s.updCtx l f).agenda = s.agenda := by
  obtain ⟨x, h⟩ := s.updCtx_eq l f
  rw [h]
@[simp] theorem State.updCtx_parts (s : State) (l : Loc) (f : Ctx → Ctx) : (s.updCtx l f).parts = s.parts := by
  obtain ⟨x, h⟩ := s.updCtx_eq l f
  rw [h]
@[simp] theorem State.updCtx_regions (s : State) (l : Loc) (f : Ctx → Ctx) : (s.updCtx l f).regions = s.regions := by
  obtain ⟨x, h⟩ := s.updCtx_eq l f
  rw [h]
@[simp] theorem State.updCtx_me (s : State) (l : Loc) (f : Ctx → Ctx) : (s.updCtx l f).me = s.me := by
  obtain ⟨x, h⟩ := s.updCtx_eq l f; rw [h]
@[simp] theorem State.updCtx_cur (s : State) (l : Loc) (f : Ctx → Ctx) : (s.updCtx l f).cur = s.cur := by
  obtain ⟨x, h⟩ := s.updCtx_eq l f; rw [h]
@[simp] theorem State.updCtx_fresh (s : State) (l : Loc) (f : Ctx → Ctx) : (s.updCtx l f).fresh = s.fresh := by
  obtain ⟨x, h⟩ := s.updCtx_eq l f; rw [h]
@[simp] theorem State.updCtx_gangs (s : State) (l : Loc) (f : Ctx → Ctx) : (s.updCtx l f).gangs = s.gangs := by
  obtain ⟨x, h⟩ := s.updCtx_eq l f; rw [h]
@[simp] theorem State.updCtx_poison (s : State) (l : Loc) (f : Ctx → Ctx) : (s.updCtx l f).poison = s.poison := by
  obtain ⟨x, h⟩ := s.updCtx_eq l f; rw [h]
@[simp] theorem State.updCtx_outside (s : State) (l : Loc) (f : Ctx → Ctx) : (s.updCtx l f).outside = s.outside := by
  obtain ⟨x, h⟩ := s.updCtx_eq l f; rw [h]
@[simp] theorem State.updCtx_atc (s : State) (l : Loc) (f : Ctx → Ctx) : (s.updCtx l f).atc = s.atc := by
  obtain ⟨x, h⟩ := s.updCtx_eq l f; rw [h]
@[simp] theorem State.updCtx_seqs (s : State) (l : Loc) (f : Ctx → Ctx) : (s.updCtx l f).seqs = s.seqs := by
  obtain ⟨x, h⟩ := s.updCtx_eq l f; rw [h]
@[simp] theorem State.updCtx_flights (s : State) (l : Loc) (f : Ctx → Ctx) : (s.updCtx l f).flights = s.flights := by
  obtain ⟨x, h⟩ := s.updCtx_eq l f; rw [h]
@[simp] theorem State.updCtx_slices (s : State) (l : Loc) (f : Ctx → Ctx) : (s.updCtx l f).slices = s.slices := by
  obtain ⟨x, h⟩ := s.updCtx_eq l f; rw [h]
@[simp] theorem State.updCtx_missQ (s : State) (l : Loc) (f : Ctx → Ctx) : (s.updCtx l f).missQ = s.missQ := by
  obtain ⟨x, h⟩ := s.updCtx_eq l f; rw [h]
@[simp] theorem State.updCtx_dts (s : State) (l : Loc) (f : Ctx → Ctx) : (s.updCtx l f).dts = s.dts := by
  obtain ⟨x, h⟩ := s.updCtx_eq l f; rw [h]
@[simp] theorem State.updCtx_hv (s : State) (l : Loc) (f : Ctx → Ctx) : (s.updCtx l f).hv = s.hv := by
  obtain ⟨x, h⟩ := s.updCtx_eq l f; rw [h]
@[simp] theorem State.updCtx_bg (s : State) (l : Loc) (f : Ctx → Ctx) : (s.updCtx l f).bg = s.bg := by
  obtain ⟨x, h⟩ := s.updCtx_eq l f; rw [h]
@[simp] theorem State.updCtx_ptroots (s : State) (l : Loc) (f : Ctx → Ctx) : (s.updCtx l f).ptroots = s.ptroots := by
  obtain ⟨x, h⟩ := s.updCtx_eq l f; rw [h]
@[simp] theorem State.updCtx_wcache (s : State) (l : Loc) (f : Ctx → Ctx) : (s.updCtx l f).wcache = s.wcache := by
  obtain ⟨x, h⟩ := s.updCtx_eq l f; rw [h]
@[simp] theorem State.updCtx_images (s : State) (l : Loc) (f : Ctx → Ctx) : (s.updCtx l f).images = s.images := by
  obtain ⟨x, h⟩ := s.updCtx_eq l f; rw [h]
@[simp] theorem State.updCtx_nextRegion (s : State) (l : Loc) (f : Ctx → Ctx) : (s.updCtx l f).nextRegion = s.nextRegion := by
  obtain ⟨x, h⟩ := s.updCtx_eq l f; rw [h]
@[simp] theorem State.updCtx_recs (s : State) (l : Loc) (f : Ctx → Ctx) : (s.updCtx l f).recs = s.recs := by
  obtain ⟨x, h⟩ := s.updCtx_eq l f; rw [h]
@[simp] theorem State.updCtx_recSeq (s : State) (l : Loc) (f : Ctx → Ctx) : (s.updCtx l f).recSeq = s.recSeq := by
  obtain ⟨x, h⟩ := s.updCtx_eq l f; rw [h]
@[simp] theorem State.updCtx_cells (s : State) (l : Loc) (f : Ctx → Ctx) : (s.updCtx l f).cells = s.cells := by
  obtain ⟨x, h⟩ := s.updCtx_eq l f; rw [h]
@[simp] theorem State.updCtx_quads (s : State) (l : Loc) (f : Ctx → Ctx) : (s.updCtx l f).quads = s.quads := by
  obtain ⟨x, h⟩ := s.updCtx_eq l f; rw [h]
@[simp] theorem State.updCtx_wakeQ (s : State) (l : Loc) (f : Ctx → Ctx) : (s.updCtx l f).wakeQ = s.wakeQ := by
  obtain ⟨x, h⟩ := s.updCtx_eq l f; rw [h]
@[simp] theorem State.updCtx_pgWaves (s : State) (l : Loc) (f : Ctx → Ctx) : (s.updCtx l f).pgWaves = s.pgWaves := by
  obtain ⟨x, h⟩ := s.updCtx_eq l f; rw [h]
@[simp] theorem State.updCtx_pgIdle (s : State) (l : Loc) (f : Ctx → Ctx) : (s.updCtx l f).pgIdle = s.pgIdle := by
  obtain ⟨x, h⟩ := s.updCtx_eq l f; rw [h]
@[simp] theorem State.updCtx_pgEn (s : State) (l : Loc) (f : Ctx → Ctx) : (s.updCtx l f).pgEn = s.pgEn := by
  obtain ⟨x, h⟩ := s.updCtx_eq l f; rw [h]
@[simp] theorem State.updCtx_hotCells (s : State) (l : Loc) (f : Ctx → Ctx) : (s.updCtx l f).hotCells = s.hotCells := by
  obtain ⟨x, h⟩ := s.updCtx_eq l f; rw [h]
@[simp] theorem State.updCtx_ts (s : State) (l : Loc) (f : Ctx → Ctx) : (s.updCtx l f).ts = s.ts := by
  obtain ⟨x, h⟩ := s.updCtx_eq l f; rw [h]
@[simp] theorem State.updCtx_stopEvs (s : State) (l : Loc) (f : Ctx → Ctx) : (s.updCtx l f).stopEvs = s.stopEvs := by
  obtain ⟨x, h⟩ := s.updCtx_eq l f; rw [h]
@[simp] theorem State.updCtx_gov (s : State) (l : Loc) (f : Ctx → Ctx) : (s.updCtx l f).gov = s.gov := by
  obtain ⟨x, h⟩ := s.updCtx_eq l f; rw [h]
@[simp] theorem State.updCtx_dv (s : State) (l : Loc) (f : Ctx → Ctx) : (s.updCtx l f).dv = s.dv := by
  obtain ⟨x, h⟩ := s.updCtx_eq l f; rw [h]
@[simp] theorem State.updCtx_eccd (s : State) (l : Loc) (f : Ctx → Ctx) : (s.updCtx l f).eccd = s.eccd := by
  obtain ⟨x, h⟩ := s.updCtx_eq l f; rw [h]
@[simp] theorem State.updCtx_tm (s : State) (l : Loc) (f : Ctx → Ctx) : (s.updCtx l f).tm = s.tm := by
  obtain ⟨x, h⟩ := s.updCtx_eq l f; rw [h]
@[simp] theorem State.updCtx_slew (s : State) (l : Loc) (f : Ctx → Ctx) : (s.updCtx l f).slew = s.slew := by
  obtain ⟨x, h⟩ := s.updCtx_eq l f; rw [h]
@[simp] theorem State.updCtx_pnow (s : State) (l : Loc) (f : Ctx → Ctx) : (s.updCtx l f).pnow = s.pnow := by
  obtain ⟨x, h⟩ := s.updCtx_eq l f; rw [h]
@[simp] theorem State.updCtx_part (s : State) (l : Loc) (f : Ctx → Ctx) (p : Nat) : (s.updCtx l f).part p = s.part p := by
  simp [State.part]
@[simp] theorem State.updCtx_region (s : State) (l : Loc) (f : Ctx → Ctx) (r : Nat) : (s.updCtx l f).region r = s.region r := by
  simp [State.region]
/-- It changes no other tile. -/
theorem State.core_updCtx_other (s : State) (l : Loc) (f : Ctx → Ctx) (n : Nat) (h : n ≠ l.tile) : (s.updCtx l f).core n = s.core n := by
  unfold State.updCtx State.setCtx
  repeat' split
  all_goals first | exact State.core_setCore_other _ _ _ _ h | rfl
/-- A context is found in the tiles alone. -/
theorem State.ctx_congr (s t : State) (l : Loc) (h : t.cores = s.cores) : t.ctx l = s.ctx l := by
  unfold State.ctx State.inFg State.spilled State.core
  rw [h]

/-! ### Halts and traps -/

/-- Raising the halt line of an active partition: it halts 24 ticks on, and no tile, memory or region changes. -/
theorem State.raiseHalt_active (s : State) (p : Nat) (cause : Nat × Nat × Nat × Nat) (h : (s.part p).st = .active) :
    let t := s.raiseHalt p cause
    t.tick = s.tick ∧ t.mem = s.mem ∧ t.cores = s.cores ∧ t.regions = s.regions ∧ (t.part p).st = .halting ∧
      (t.part p).haltAt = s.tick + 24 ∧ t.agenda = insEv (s.tick + 24) (.haltDelivery p) s.agenda := by
  intro t
  have e : t = ((s.updPart p fun q => { q with cause := match q.cause with
      | some c => if trapBefore cause c then some cause else some c
      | none => some cause }).updPart p fun q => { q with st := if q.st == .active then .halting else q.st, haltAt := s.tick + 24 }).sched
      (s.tick + 24) (.haltDelivery p) := by
    show State.raiseHalt s p cause = _
    unfold State.raiseHalt
    simp only [h]
    rfl
  have pc (u : State) (n : Nat) (x : Ev) : (u.sched n x).part p = u.part p := rfl
  rw [e]
  refine ⟨rfl, rfl, rfl, rfl, ?_, ?_, ?_⟩
  · rw [pc]; simp [h]
  · rw [pc]; simp
  · simp [State.sched]
/-- An imprecise trap of a context whose clock runs: its record is listed, and its partition halts 24 ticks on. -/
theorem State.trapEngine_active (s : State) (l : Loc) (kind code pc detail xfer : Nat) (h1 : s.inFg l = true)
    (h2 : (s.ctx l).frozen = none) (h3 : (s.part l.part).st = .active) :
    let t := s.trapEngine l kind code pc detail xfer
    t.ctx l = { s.ctx l with stops := (s.ctx l).stops ++ [s.mkStop l kind code false pc 0 detail xfer] } ∧ t.tick = s.tick ∧
      t.mem = s.mem ∧ t.regions = s.regions ∧ (t.part l.part).st = .halting ∧ (t.part l.part).haltAt = s.tick + 24 ∧
      t.agenda = insEv (s.tick + 24) (.haltDelivery l.part) s.agenda := by
  intro t
  have e : t = (s.updCtx l fun c => { c with stops := c.stops ++ [s.mkStop l kind code false pc 0 detail xfer] }).raiseHalt l.part
      (s.tick, l.tile, kind, code) := by
    show State.trapEngine s l kind code pc detail xfer = _
    unfold State.trapEngine State.raiseTrap
    rw [if_neg (by simp [h2])]
    simp [State.mkStop]
  have hm : (s.updCtx l fun c => { c with stops := c.stops ++ [s.mkStop l kind code false pc 0 detail xfer] }).mem = s.mem := by
    obtain ⟨x, hx⟩ := s.updCtx_eq l fun c => { c with stops := c.stops ++ [s.mkStop l kind code false pc 0 detail xfer] }
    rw [hx]
  obtain ⟨a1, a2, a3, a4, a5, a6, a7⟩ := State.raiseHalt_active
    (s.updCtx l fun c => { c with stops := c.stops ++ [s.mkStop l kind code false pc 0 detail xfer] }) l.part
    (s.tick, l.tile, kind, code) (by simpa using h3)
  rw [e]
  refine ⟨?_, ?_, ?_, ?_, a5, ?_, ?_⟩
  · rw [State.ctx_congr _ _ _ a3, s.ctx_updCtx l _ h1 (s.part_ctx l h1)]
  · rw [a1]; simp
  · rw [a2]; exact hm
  · rw [a4]; simp
  · rw [a6]; simp
  · rw [a7]; simp

/-! ### Deliveries of user-level events -/

/-- Turning to a handler changes no register and keeps what the strand belongs to. -/
theorem Ctx.toHandler_frame (c : Ctx) (ev : Nat × Nat) (n : Nat) : let d := c.toHandler ev n
    d.part = c.part ∧ d.region = c.region ∧ d.s = c.s ∧ d.p = c.p ∧ d.x = c.x ∧ d.m = c.m ∧ d.v = c.v ∧ d.k = c.k ∧ d.pend = c.pend ∧
      d.sp = c.sp ∧ d.spw = c.spw ∧ d.bars = c.bars ∧ d.arr = c.arr ∧ d.trig = c.trig ∧ (c.block = .none → d.block = .none) := by
  unfold Ctx.toHandler Ctx.leaveLeader Ctx.refetch Ctx.cutAt
  dsimp only
  repeat' split
  all_goals simp_all
/-- What uiPoll can do: nothing; a delivery that has begun goes on; or the strand turns to its handler, and the handler's start may be
put on the agenda. -/
theorem State.uiPoll_cases (s : State) (l : Loc) : s.uiPoll l = s ∨ s.uiPoll l = s.schedIn 1 (.uiDelivery l) ∨
    ∃ ev a, (s.ctx l).ui.going = none ∧ (s.ctx l).ui.next = some ev ∧ (s.ctx l).ui.v = true ∧
      s.uiPoll l = { s.setCtx l ((s.ctx l).toHandler ev ((s.ctx l).now s.tick)) with agenda := a } := by
  unfold State.uiPoll
  dsimp only
  split
  · split
    · exact .inr (.inl rfl)
    · exact .inl rfl
  next hg =>
    split
    next h =>
      simp only [Bool.and_eq_true] at h
      split
      next ev he =>
        refine .inr (.inr ⟨ev, ?_⟩)
        split
        · exact ⟨_, hg, he, h.1.1.2, rfl⟩
        · exact ⟨(s.setCtx l ((s.ctx l).toHandler ev ((s.ctx l).now s.tick))).agenda, hg, he, h.1.1.2, rfl⟩
      · exact .inl rfl
    · exact .inl rfl

/-! ### The agenda -/

theorem mem_insEv (n : Nat) (e : Ev) (l : List (Nat × Ev)) (x : Nat × Ev) :
    x ∈ insEv n e l ↔ x = (n, e) ∨ x ∈ l := by
  induction l with
  | nil => simp [insEv]
  | cons y r ih =>
    simp only [insEv]
    split
    · simp
    · simp only [List.mem_cons, ih]
      constructor <;> (rintro (h | h | h) <;> simp [h])

/-- A scheduled event stands on the agenda. -/
theorem State.mem_sched (s : State) (n : Nat) (e : Ev) (h : s.tick ≤ n) : (n, e) ∈ (s.sched n e).agenda := by
  simp [State.sched, mem_insEv, Nat.max_eq_left h]
/-- What stood there still does. -/
theorem State.mem_sched_of_mem (s : State) (n : Nat) (e : Ev) (x : Nat × Ev) (h : x ∈ s.agenda) :
    x ∈ (s.sched n e).agenda := by
  simp [State.sched, mem_insEv, h]

/-! ### The checks of a word -/

theorem guardT_go (s : State) (b : Bool) (code : Nat) (k : Out) (h : b = true) : guardT s b code k = k := by
  simp [guardT, h]
theorem guardT_stop (s : State) (b : Bool) (code : Nat) (k : Out) (h : b = false) :
    guardT s b code k = .next (s.trapWord code) := by
  simp [guardT, h, trapO]
theorem elastic_go (s : State) (k : Out) (h : s.c.kind = .elastic) : elastic s k = k := guardT_go _ _ _ _ (by simp [h])
theorem noHandler_go (s : State) (k : Out) (h : s.c.ui.inh = false) : noHandler s k = k := guardT_go _ _ _ _ (by simp [h])
theorem noCapture_go (s : State) (k : Out) (h : s.c.openRep = none) : noCapture s k = k := by simp [noCapture, h]
theorem freeTok_go (s : State) (n : Nat) (k : Out) (h : (s.c.tok n).bound s.T = false) : freeTok s n k = k :=
  guardT_go _ _ _ _ (by simp [h])
theorem freeTok_stop (s : State) (n : Nat) (k : Out) (h : (s.c.tok n).bound s.T = true) :
    freeTok s n k = .next (s.trapWord cTokenBusy) := guardT_stop _ _ _ _ (by simp [h])

/-- Every operand inside the window: the word goes on. -/
theorem vcheck_go (s : State) (ops : List (VOp × Nat)) (k : Out) (h : ∀ o ∈ ops, s.c.inWindow (s.vidx o.1 o.2) = true) :
    vcheck s ops k = k := by
  induction ops with
  | nil => rfl
  | cons o r ih => simp [vcheck, h o (by simp), ih fun x hx => h x (List.mem_cons_of_mem _ hx)]
/-- The first operand outside it: REG_BOUNDS. -/
theorem vcheck_stop (s : State) (pre post : List (VOp × Nat)) (o : VOp × Nat) (k : Out)
    (h : ∀ o ∈ pre, s.c.inWindow (s.vidx o.1 o.2) = true) (ho : s.c.inWindow (s.vidx o.1 o.2) = false) :
    vcheck s (pre ++ o :: post) k = .next (s.trapWord cRegBounds (s.boundsDetail (s.vidx o.1 o.2) o.2)) := by
  induction pre with
  | nil => simp [vcheck, ho, trapO]
  | cons x r ih =>
    simp only [List.cons_append, vcheck, h x (by simp), if_true]
    exact ih fun y hy => h y (List.mem_cons_of_mem _ hy)

theorem fpCheck_go (s : State) (fs : List (Nat × Flags)) (k : Out) (h : orFlags fs &&& s.c.fpEnable = 0) :
    fpCheck s fs k = k := by
  simp [fpCheck, h]

/-- Streams ready: the word reads its vectors. -/
theorem withV_go (s : State) (l : List Nat) (d : Option Nat) (k : List Vec → Out)
    (h : ∀ n ∈ l, s.c.canRead n = .go ∧ s.c.popPoison n = false) (hd : ∀ n, d = some n → s.c.canWrite n = .go) :
    withV s l d k = k (l.map s.c.readV) := by
  have h3 : l.any s.c.popPoison = false := by
    simp only [List.any_eq_false]
    intro n hn
    simp [h n hn]
  have h1 : ∀ (p : Pop) (r : List Pop), p ≠ .go → (∀ x ∈ r, x = .go) → (l.map s.c.canRead ++ r).contains p = false := by
    intro p r hp hr
    simp only [List.contains_eq_any_beq, List.any_append, Bool.or_eq_false_iff, List.any_eq_false, List.mem_map]
    constructor
    · rintro x ⟨n, hn, rfl⟩
      rw [(h n hn).1]
      simpa using hp
    · intro x hx
      rw [hr x hx]
      simpa using hp
  unfold withV
  simp only [h3]
  rw [h1 .bad, h1 .wait] <;> first | rfl | decide | skip
  all_goals
    intro x hx
    cases d with
    | none => simp at hx
    | some n =>
      simp only [List.mem_singleton] at hx
      rw [hx, hd n rfl]

/-! ### The array slice -/

/-- A lane with room takes the operation. -/
theorem enqueue_go (s : State) (o : ArrOp) (k : State → Out) (h : s.c.arr64.held o.load < 8) :
    enqueue s o k = k (s.enqueued o) := by
  unfold enqueue laneOpen
  rw [if_neg (by omega)]
/-- A full one stalls the word. -/
theorem enqueue_full (s : State) (o : ArrOp) (k : State → Out) (h : 8 ≤ s.c.arr64.held o.load) :
    enqueue s o k = .next s.stall := by
  unfold enqueue laneOpen
  rw [if_pos h]
  rfl

end Sys2Proof.Machine
end

