-- ==== Sys2Proof/Laws/Mem.lean ====
section
/-! SUPPORT. Vault and HBM memory under every shared operation: one that stores nothing leaves memory as it is
(`…_mem`), and one that may store keeps its canonical form (`…_wf`). -/

namespace Sys2Proof.Machine

/-- A fold of steps that leave memory alone leaves it alone. -/
@[simp] theorem foldl_mem {α : Type} (g : State → α → State) (l : List α) (s : State)
    (h : ∀ s x, (g s x).mem = s.mem) : (l.foldl g s).mem = s.mem := by
  induction l generalizing s with
  | nil => rfl
  | cons x r ih => rw [List.foldl_cons, ih, h]
/-- A fold of steps that keep the canonical form keeps it. -/
@[simp] theorem foldl_wf {α : Type} (g : State → α → State) (l : List α) (s : State)
    (hg : ∀ s x, Memory.wf s.mem = true → Memory.wf (g s x).mem = true) (h : Memory.wf s.mem = true) :
    Memory.wf (l.foldl g s).mem = true := by
  induction l generalizing s with
  | nil => exact h
  | cons x r ih => exact ih _ (hg _ _ h)
/-- A fold keeps what each of its steps keeps. -/
theorem foldl_inv {α β : Type} (P : α → Prop) (g : α → β → α) (l : List β) (a : α) (h : P a)
    (hg : ∀ a x, P a → P (g a x)) : P (l.foldl g a) := by
  induction l generalizing a with
  | nil => exact h
  | cons x r ih => exact ih _ (hg _ _ h)
@[simp] theorem ite_mem (c : Prop) [Decidable c] (a b : State) : (if c then a else b).mem = if c then a.mem else b.mem := by
  split <;> rfl
@[simp] theorem State.setCtx_mem (s : State) (l : Loc) (c : Ctx) : (State.setCtx s l c).mem = s.mem := by
  simp [State.setCtx]
@[simp] theorem State.updCtx_mem (s : State) (l : Loc) (f : Ctx → Ctx) : (State.updCtx s l f).mem = s.mem := by
  simp [State.updCtx]
@[simp] theorem State.schedAt_mem (s : State) (l : Loc) (t : Nat) (ev : Ev) : (State.schedAt s l t ev).mem = s.mem := by
  rfl
@[simp] theorem State.landAt_mem (s : State) (l : Loc) : (State.landAt s l).mem = s.mem := by
  simp [State.landAt]
@[simp] theorem State.engWrite_mem (s : State) (l : Loc) (back : Nat) (rank : Nat) (bs : List (Nat × Byte)) (pz : List Nat) :
    (State.engWrite s l back rank bs pz).mem = s.mem := by
  simp [State.engWrite]
@[simp] theorem State.raiseHalt_mem (s : State) (p : Nat) (cause : Nat × Nat × Nat × Nat) :
    (State.raiseHalt s p cause).mem = s.mem := by
  simp only [State.raiseHalt]
  (repeat' split) <;> simp_all
@[simp] theorem State.raiseTrap_mem (s : State) (l : Loc) (r : StopRec) : (State.raiseTrap s l r).mem = s.mem := by
  simp [State.raiseTrap]
@[simp] theorem State.unissue_mem (s : State) : (State.unissue s).mem = s.mem := by
  unfold State.unissue
  split <;> simp
@[simp] theorem State.trapWord_mem (s : State) (code : Nat) (detail : Nat) : (State.trapWord s code detail).mem = s.mem := by
  simp [State.trapWord]
@[simp] theorem State.softTrap_mem (s : State) (code : Nat) : (State.softTrap s code).mem = s.mem := by
  simp [State.softTrap]
@[simp] theorem State.trapEngine_mem (s : State) (l : Loc) (kind : Nat) (code : Nat) (pc : Nat) (detail : Nat) (xfer : Nat) :
    (State.trapEngine s l kind code pc detail xfer).mem = s.mem := by
  simp [State.trapEngine]
@[simp] theorem State.stallUntil_mem (s : State) (n : Nat) : (State.stallUntil s n).mem = s.mem := by
  unfold State.stallUntil
  (repeat' split) <;> simp
@[simp] theorem State.stall_mem (s : State) : (State.stall s).mem = s.mem := by
  simp [State.stall]
@[simp] theorem State.seen_mem (s : State) (a : Src) : (State.seen s a).mem = s.mem := by
  unfold State.seen
  split <;> simp
@[simp] theorem State.putS_mem (s : State) (lat : Nat) (d : BitVec 6) (v : Word) : (State.putS s lat d v).mem = s.mem := by
  rfl
@[simp] theorem State.putP_mem (s : State) (lat : Nat) (d : BitVec 4) (b : Bool) : (State.putP s lat d b).mem = s.mem := by
  rfl
@[simp] theorem State.popOne_mem (s : State) (n : Nat) : (State.popOne s n).mem = s.mem := by
  simp [State.popOne]
@[simp] theorem State.popAll_mem (s : State) (srcs : List Nat) : (State.popAll s srcs).mem = s.mem := by
  simp [State.popAll]
@[simp] theorem State.putFlags_mem (s : State) (lat : Nat) (fs : List (Nat × Flags)) :
    (State.putFlags s lat fs).mem = s.mem := by
  simp [State.putFlags]
@[simp] theorem State.pump_mem (s : State) (l : Loc) (n : Nat) : (State.pump s l n).mem = s.mem := by
  simp [State.pump]
@[simp] theorem State.pushV_mem (s : State) (l : Loc) (n : Nat) (tok : Option Nat) (data : Option (Nat × Vec × Lane)) :
    (State.pushV s l n tok data).mem = s.mem := by
  simp [State.pushV]
@[simp] theorem State.claimV_mem (s : State) (n : Nat) (tok : Option Nat) : (State.claimV s n tok).mem = s.mem := by
  simp [State.claimV]
@[simp] theorem State.putV_mem (s : State) (lat : Nat) (n : Nat) (m : Lane) (v : Vec) :
    (State.putV s lat n m v).mem = s.mem := by
  simp [State.putV]
@[simp] theorem State.packet_mem (s : State) (p : Nat) (legs : List Leg) (ev : Ev) :
    (State.packet s p legs ev).mem = s.mem := by
  unfold State.packet
  split <;> simp
@[simp] theorem State.timedRun_mem (s : State) (c3 : Bool) (r : Route) (n : Nat) : (State.timedRun s c3 r n).1.mem = s.mem := by
  unfold State.timedRun
  dsimp only
  rw [foldl_mem]
  · rfl
  · intro s x
    simp
@[simp] theorem State.sliceTouch_mem (s : State) (pa : Nat) : (State.sliceTouch s pa).mem = s.mem := by
  rfl
@[simp] theorem State.stamp_mem (s : State) (pa : Nat) : (State.stamp s pa).1.mem = s.mem := by
  rfl
@[simp] theorem State.lineWrite_wf (s : State) (bs : List (Nat × Byte)) (pz : Bool) (h : Memory.wf s.mem = true) :
    Memory.wf (s.lineWrite bs pz).mem = true := by
  unfold State.lineWrite
  split <;> simp [h, Mem.setMany_wf]
@[simp] theorem State.homeWrite_wf (s : State) (bs : List (Nat × Byte)) (pz : Bool) (h : Memory.wf s.mem = true) :
    Memory.wf (State.homeWrite s bs pz).mem = true := by
  unfold State.homeWrite
  (repeat' split) <;> simp [h]
@[simp] theorem State.devWrite_wf (s : State) (bs : List (Nat × Byte)) (h : Memory.wf s.mem = true) :
    Memory.wf (s.devWrite bs).mem = true := by
  unfold State.devWrite
  (repeat' split) <;> simp [h]
@[simp] theorem State.outsideRead_mem (s : State) (pa : Nat) (n : Nat) : (State.outsideRead s pa n).1.mem = s.mem := by
  rfl
@[simp] theorem State.outsideWrite_mem (s : State) (bs : List (Nat × Byte)) : (State.outsideWrite s bs).mem = s.mem := by
  rfl
@[simp] theorem State.physRead_mem (s : State) (pa : Nat) (n : Nat) : (State.physRead s pa n).1.mem = s.mem := by
  unfold State.physRead
  split <;> simp
@[simp] theorem State.physWrite_wf (s : State) (bs : List (Nat × Byte)) (pz : Bool) (h : Memory.wf s.mem = true) :
    Memory.wf (State.physWrite s bs pz).mem = true := by
  unfold State.physWrite
  (repeat' split) <;> simp [h]
@[simp] theorem State.walk_mem (s : State) (l : Loc) (va : Nat) : (State.walk s l va).1.mem = s.mem := by
  simp only [State.walk]
  (repeat' split) <;> simp_all
@[simp] theorem State.xlate_mem (s : State) (l : Loc) (va : Nat) (acc : Nat) : (State.xlate s l va acc).1.mem = s.mem := by
  unfold State.xlate
  (repeat' split) <;> simp
@[simp] theorem translate.startWalk_mem (va : Nat) (acc : Nat) (s : State) (l : Loc) :
    (translate.startWalk va acc s l).mem = s.mem := by
  simp [translate.startWalk]
@[simp] theorem State.sendHome_mem (s : State) (q : HomeReq) : (State.sendHome s q).mem = s.mem := by
  simp only [State.sendHome]
  (repeat' split) <;> simp_all
@[simp] theorem State.pushUpd_mem (s : State) (l : Loc) (line : Nat) (pub : Nat) :
    (State.pushUpd s l line pub).mem = s.mem := by
  unfold State.pushUpd
  split <;> simp
@[simp] theorem State.pushWs_mem (s : State) (l : Loc) (line : Nat) (pub : Nat) :
    (State.pushWs s l line pub).mem = s.mem := by
  unfold State.pushWs
  split <;> simp
@[simp] theorem State.pushLine_mem (s : State) (l : Loc) (line : Nat) : (State.pushLine s l line).mem = s.mem := by
  simp [State.pushLine]
@[simp] theorem State.pushLines_mem (s : State) (l : Loc) (sel : Space → Bool) : (State.pushLines s l sel).mem = s.mem := by
  simp [State.pushLines]
@[simp] theorem State.publish_mem (s : State) (l : Loc) : (State.publish s l).mem = s.mem := by
  simp [State.publish]
@[simp] theorem State.accSent_mem (s : State) : (State.accSent s).mem = s.mem := by
  rfl
@[simp] theorem State.request_mem (s : State) (k : BitVec 3) (va : Nat) (pa : Nat) (op : HomeOp) :
    (State.request s k va pa op).mem = s.mem := by
  simp [State.request]
@[simp] theorem State.askRemote_mem (s : State) (q : RemReq) : (State.askRemote s q).mem = s.mem := by
  simp [State.askRemote]
@[simp] theorem State.update_mem (s : State) (op : UpdOp) (t : Ty) (pa : Nat) (v : Nat) :
    (State.update s op t pa v).mem = s.mem := by
  simp only [State.update]
  (repeat' split) <;> simp_all
@[simp] theorem State.decodeAll_mem (s : State) : (State.decodeAll s).mem = s.mem := by
  rfl
@[simp] theorem State.begin_mem (s : State) (tile : Nat) (e : QEnt) : (State.begin s tile e).mem = s.mem := by
  rfl
@[simp] theorem State.noteCapture_mem (s : State) (e : QEnt) (n : Nat) : (State.noteCapture s e n).mem = s.mem := by
  unfold State.noteCapture
  (repeat' split) <;> simp
@[simp] theorem State.forward_mem (s : State) (e : QEnt) (n : Nat) : (s.forward e n).mem = s.mem := by
  unfold State.forward
  split
  · rfl
  · apply foldl_mem
    intro s l
    simp
@[simp] theorem State.noteDrain_mem (s : State) : (State.noteDrain s).mem = s.mem := by
  simp [State.noteDrain]
@[simp] theorem State.goTo_mem (s : State) (e : QEnt) (det : Bool) (tgt : Nat) : (State.goTo s e det tgt).mem = s.mem := by
  simp [State.goTo]
@[simp] theorem State.noteWord_mem (s : State) (e : QEnt) : (s.noteWord e).mem = s.mem := by
  unfold State.noteWord
  dsimp only
  (repeat' split) <;> simp
@[simp] theorem State.illegalTrap_mem (s : State) (tile : Nat) (pc : Nat) (bits : IWord) :
    (State.illegalTrap s tile pc bits).mem = s.mem := by
  simp [State.illegalTrap]
@[simp] theorem State.deviate_mem (s : State) (tile : Nat) (e : QEnt) : (State.deviate s tile e).mem = s.mem := by
  simp [State.deviate]
@[simp] theorem State.kick_mem (s : State) : (s.kick).mem = s.mem := by
  unfold State.kick
  dsimp only
  rw [foldl_mem]
  intro s x
  simp
@[simp] theorem State.rcbWord_wf (s : State) (n : Nat) (off : Nat) (v : Nat) (h : Memory.wf s.mem = true) :
    Memory.wf (State.rcbWord s n off v).mem = true := by
  simp [State.rcbWord, h]
@[simp] theorem State.rcb80_wf (s : State) (n : Nat) (h : Memory.wf s.mem = true) :
    Memory.wf (State.rcb80 s n).mem = true := by
  simp [State.rcb80, h]
@[simp] theorem State.rcb88_wf (s : State) (n : Nat) (h : Memory.wf s.mem = true) :
    Memory.wf (State.rcb88 s n).mem = true := by
  simp [State.rcb88, h]
@[simp] theorem State.rcb90_wf (s : State) (n : Nat) (h : Memory.wf s.mem = true) :
    Memory.wf (State.rcb90 s n).mem = true := by
  simp [State.rcb90, h]
@[simp] theorem State.setRSt_wf (s : State) (n : Nat) (st : RSt) (cause : Nat) (h : Memory.wf s.mem = true) :
    Memory.wf (State.setRSt s n st cause).mem = true := by
  simp [State.setRSt, h]
@[simp] theorem State.stepStart_mem (s : State) (r : Nat) (first : Bool) : (State.stepStart s r first).mem = s.mem := by
  rfl
@[simp] theorem State.stepEnd_wf (s : State) (r : Nat) (h : Memory.wf s.mem = true) : Memory.wf (s.stepEnd r).mem = true := by
  unfold State.stepEnd
  dsimp only
  (repeat' split) <;> simp [h]
@[simp] theorem State.uiPoll_mem (s : State) (l : Loc) : (State.uiPoll s l).mem = s.mem := by
  simp only [State.uiPoll]
  (repeat' split) <;> simp_all
@[simp] theorem State.uiRaise_mem (s : State) (l : Loc) (code : Nat) (payload : Nat) :
    (State.uiRaise s l code payload).mem = s.mem := by
  simp [State.uiRaise]
@[simp] theorem State.tokDone_mem (s : State) (l : Loc) (k : Nat) (x : Nat) : (State.tokDone s l k x).mem = s.mem := by
  simp only [State.tokDone]
  (repeat' split) <;> simp_all
@[simp] theorem State.beginPub_mem (s : State) (l : Loc) : (State.beginPub s l).mem = s.mem := by
  unfold State.beginPub
  split <;> simp
@[simp] theorem State.phaseBack_mem (s : State) (l : Loc) : (s.phaseBack l).mem = s.mem := by
  unfold State.phaseBack
  split <;> simp
@[simp] theorem State.examine_mem (s : State) (b : Bool) (r : Nat) : (s.examine b r).mem = s.mem := by
  unfold State.examine
  dsimp only
  rw [foldl_mem]
  · rw [foldl_mem]
    · rw [foldl_mem]
      intro s l
      (repeat' split) <;> simp
    · intro s l
      simp
  · intro s x
    cases b <;> (repeat' split) <;> simp
@[simp] theorem State.startTimer_mem (s : State) (l : Loc) (pc : Nat) : (State.startTimer s l pc).mem = s.mem := by
  simp only [State.startTimer]
  (repeat' split) <;> simp_all
@[simp] theorem State.passBoundary_mem (s : State) (l : Loc) (a : Arr) : (State.passBoundary s l a).mem = s.mem := by
  simp [State.passBoundary]
@[simp] theorem State.takeFollows_mem (s : State) (ms : List Loc) : (State.takeFollows s ms).mem = s.mem := by
  simp [State.takeFollows]
@[simp] theorem State.quadRest_mem (s : State) (t : Nat) : (State.quadRest s t).mem = s.mem := by
  simp [State.quadRest]
@[simp] theorem State.gangMismatch_mem (s : State) (g p : Nat) : (s.gangMismatch g p).mem = s.mem := by
  unfold State.gangMismatch
  dsimp only
  rw [foldl_mem]
  · rfl
  · intro s l
    split <;> simp
@[simp] theorem State.gangLeft_mem (s : State) (l : Loc) : (s.gangLeft l).mem = s.mem := by
  unfold State.gangLeft
  (repeat' split) <;> simp
@[simp] theorem State.endStrand_mem (s : State) (l : Loc) : (s.endStrand l).mem = s.mem := by
  simp [State.endStrand]
@[simp] theorem State.toCell_mem (s : State) (l : Loc) (h : Nat) (trig : Bool) : (State.toCell s l h trig).mem = s.mem := by
  simp [State.toCell]
@[simp] theorem State.leaveStep.out_mem (s : State) (l : Loc) (c : Option Nat) (id pc : Nat) :
    (State.leaveStep.out s l c id pc).mem = s.mem := by
  unfold State.leaveStep.out
  split <;> simp
@[simp] theorem State.leaveStep_mem (s : State) (l : Loc) : (s.leaveStep l).mem = s.mem := by
  unfold State.leaveStep
  dsimp only
  split
  · split
    · split <;> simp
    · apply foldl_mem
      intro s i
      (repeat' split) <;> simp
  · split <;> simp
  · rfl
@[simp] theorem State.triggerCount_mem (s : State) (l : Loc) : (State.triggerCount s l).mem = s.mem := by
  unfold State.triggerCount
  split <;> simp
@[simp] theorem State.fenceStep_mem (s : State) (l : Loc) : (State.fenceStep s l).mem = s.mem := by
  simp only [State.fenceStep]
  (repeat' split) <;> simp_all
@[simp] theorem State.progress_mem (s : State) (l : Loc) : (s.progress l).mem = s.mem := by
  unfold State.progress
  dsimp only
  (repeat' split) <;> simp
@[simp] theorem State.trigStep_mem (s : State) (l : Loc) : (s.trigStep l).mem = s.mem := by
  unfold State.trigStep
  (repeat' split) <;> simp
@[simp] theorem State.wordGone_mem (s : State) (l : Loc) : (s.wordGone l).mem = s.mem := by
  unfold State.wordGone
  dsimp only
  split <;> simp
@[simp] theorem State.finish_mem (s : State) (e : QEnt) : (s.finish e).mem = s.mem := by
  simp [State.finish]
@[simp] theorem State.accepted_mem (s : State) (l : Loc) (p : Nat) : (s.accepted l p).mem = s.mem := by
  simp [State.accepted]
@[simp] theorem State.performed_mem (s : State) (l : Loc) : (s.performed l).mem = s.mem := by
  simp [State.performed]
@[simp] theorem State.bindSlot_mem (s : State) (l : Loc) (n : Nat) (t : Nat) : (State.bindSlot s l n t).mem = s.mem := by
  simp [State.bindSlot]
@[simp] theorem State.dropFetches_mem (s : State) (l : Loc) (n : Nat) : (State.dropFetches s l n).mem = s.mem := by
  rfl
@[simp] theorem State.claimBank_mem (s : State) (t : Nat) (p : Nat) : (State.claimBank s t p).mem = s.mem := by
  simp [State.claimBank]
@[simp] theorem State.freeBank_mem (s : State) (l : Loc) : (State.freeBank s l).mem = s.mem := by
  simp [State.freeBank]
@[simp] theorem State.wakeQuad_mem (s : State) (t : Nat) : (State.wakeQuad s t).mem = s.mem := by
  simp [State.wakeQuad]
@[simp] theorem State.quadUp_mem (s : State) (q : Nat) : (s.quadUp q).mem = s.mem := by
  unfold State.quadUp
  dsimp only
  (repeat' split) <;> simp
@[simp] theorem State.startWakes.go_mem (layer n : Nat) (s : State) : (State.startWakes.go layer n s).mem = s.mem := by
  induction n generalizing s with
  | zero => rfl
  | succ n ih =>
    unfold State.startWakes.go
    dsimp only
    (repeat' split) <;> simp [ih]
@[simp] theorem State.startWakes_mem (s : State) (layer : Nat) : (s.startWakes layer).mem = s.mem := by
  simp [State.startWakes]
@[simp] theorem State.quadSink_mem (s : State) (q : Nat) (st : Nat) : (State.quadSink s q st).mem = s.mem := by
  simp [State.quadSink]
@[simp] theorem State.quadOff_mem (s : State) (q : Nat) : (State.quadOff s q).mem = s.mem := by
  simp [State.quadOff]
@[simp] theorem State.startStrand_wf (s : State) (l : Loc) (r pc : Nat) (k : PKind) (n : Nat) (h : Memory.wf s.mem = true) :
    Memory.wf (s.startStrand l r pc k n).mem = true := by
  unfold State.startStrand
  extract_lets g words base s1 s2 s3
  have h2 : Memory.wf s2.mem = true := by
    have : s2.mem = s1.mem := by
      simp only [s2]
      rw [foldl_mem]
      intro s x
      simp
    rw [this]
    simpa [s1] using h
  split
  · exact h2
  · simp [s3, h2]
@[simp] theorem State.recruit_mem (s : State) (src : Option Nat) (t : Nat) (st : Start) :
    (State.recruit s src t st).mem = s.mem := by
  simp only [State.recruit]
  (repeat' split) <;> simp_all
@[simp] theorem State.updRail_mem (s : State) (n : Nat) (f : Rail → Rail) : (State.updRail s n f).mem = s.mem := by
  rfl
@[simp] theorem State.railBelow_mem (s : State) (n : Nat) : (State.railBelow s n).1.mem = s.mem := by
  unfold State.railBelow
  split <;> simp
@[simp] theorem State.railError_mem (s : State) (n : Nat) : (State.railError s n).mem = s.mem := by
  simp [State.railError]
@[simp] theorem State.setTs_mem (s : State) (k : Nat) (t : TsReg) : (s.setTs k t).mem = s.mem := by
  unfold State.setTs
  dsimp only
  split
  · rfl
  · split
    · rfl
    · rw [foldl_mem]
      intro s x
      (repeat' split) <;> simp
@[simp] theorem State.holdEv_mem (s : State) (l : Loc) (e : Ev) : (State.holdEv s l e).mem = s.mem := by
  rfl
@[simp] theorem State.clearTrip_mem (s : State) (k : Nat) : (State.clearTrip s k).mem = s.mem := by
  simp [State.clearTrip]
@[simp] theorem State.rampTo_mem (s : State) (p : Nat) : (State.rampTo s p).mem = s.mem := by
  rfl
@[simp] theorem State.requestP_mem (s : State) (p : Nat) : (State.requestP s p).mem = s.mem := by
  simp [State.requestP]
@[simp] theorem State.capAlert_mem (s : State) : (State.capAlert s).mem = s.mem := by
  simp [State.capAlert]
@[simp] theorem State.applyCaps_mem (s : State) : (State.applyCaps s).mem = s.mem := by
  simp [State.applyCaps]
@[simp] theorem State.setGate_mem (s : State) : (State.setGate s).mem = s.mem := by
  simp [State.setGate]
@[simp] theorem State.putBack_mem (s : State) (mine : Ev → Bool) (e : Ev) : (s.putBack mine e).mem = s.mem := by
  unfold State.putBack
  dsimp only
  rw [foldl_mem]
  intro s x
  simp
@[simp] theorem State.sendReply_mem (s : State) (r : HomeRep) : (State.sendReply s r).mem = s.mem := by
  unfold State.sendReply
  (repeat' split) <;> simp
@[simp] theorem State.reply_mem (s : State) (q : HomeReq) (wr : List Wr) (ls : Option (Bool × Nat × Nat)) (pz : Bool) :
    (State.reply s q wr ls pz).mem = s.mem := by
  simp [State.reply]
@[simp] theorem State.didServe_mem (s : State) (q : HomeReq) : (State.didServe s q).mem = s.mem := by
  simp [State.didServe]
@[simp] theorem State.didAccept_mem (s : State) (q : HomeReq) (pub : Nat) : (State.didAccept s q pub).mem = s.mem := by
  simp [State.didAccept]
@[simp] theorem State.serve_wf (s : State) (q : HomeReq) (h : Memory.wf s.mem = true) :
    Memory.wf (s.serve q).mem = true := by
  unfold State.serve
  dsimp only
  (repeat' split) <;> simp [h]
@[simp] theorem State.serveOutside_mem (s : State) (q : HomeReq) : (s.serveOutside q).mem = s.mem := by
  unfold State.serveOutside
  dsimp only
  (repeat' split) <;> simp
@[simp] theorem State.landWr_mem (s : State) (l : Loc) (tok : Option Nat) (n : Nat) (w : Wr) :
    (State.landWr s l tok n w).mem = s.mem := by
  simp only [State.landWr]
  (repeat' split) <;> simp_all
@[simp] theorem State.again_mem (s : State) (l : Loc) (ev : Ev) : (State.again s l ev).mem = s.mem := by
  simp [State.again]
@[simp] theorem State.tokenReply_mem (s : State) (l : Loc) (tok : Option Nat) (wr : List Wr) (pz : Bool) (pc : Nat) (redo : Ev) :
    (State.tokenReply s l tok wr pz pc redo).mem = s.mem := by
  unfold State.tokenReply
  (repeat' split) <;> simp
@[simp] theorem State.blockIn_mem (s : State) (b : Block) : (State.blockIn s b).mem = s.mem := by
  simp [State.blockIn]
@[simp] theorem State.waitEnd_mem (s : State) (l : Loc) (tok : Option Nat) : (State.waitEnd s l tok).mem = s.mem := by
  rfl
@[simp] theorem State.pollWaits_mem (s : State) (l : Loc) : (State.pollWaits s l).mem = s.mem := by
  simp only [State.pollWaits]
  (repeat' split) <;> simp_all
@[simp] theorem State.joinEnd_mem (s : State) (l : Loc) (pc : Nat) (cell : Option Nat) (cont : Bool) :
    (State.joinEnd s l pc cell cont).mem = s.mem := by
  unfold State.joinEnd
  dsimp only
  split
  · split
    · (repeat' split) <;> simp
    · simp
  · (repeat' split) <;> simp
@[simp] theorem State.joinDiverge_mem (s : State) (l : Loc) (e : QEnt) (cell : Option Nat) :
    (State.joinDiverge s l e cell).mem = s.mem := by
  unfold State.joinDiverge
  split <;> simp
@[simp] theorem State.tellJoin_mem (s : State) (l : Loc) (cont : Bool) : (s.tellJoin l cont).mem = s.mem := by
  unfold State.tellJoin
  split
  · rfl
  · rw [foldl_mem]
    intro s x
    simp
@[simp] theorem State.joinSettle_mem (s : State) (l : Loc) : (s.joinSettle l).mem = s.mem := by
  unfold State.joinSettle
  (repeat' split) <;> simp
@[simp] theorem State.joinNop_mem (s : State) (e : QEnt) : (State.joinNop s e).mem = s.mem := by
  unfold State.joinNop
  dsimp only
  (repeat' split) <;> simp
@[simp] theorem State.falseGuard_mem (s : State) (e : QEnt) : (s.falseGuard e).mem = s.mem := by
  unfold State.falseGuard
  (repeat' split) <;> simp
@[simp] theorem State.declare_mem (s : State) (r : Nat) (dl : Nat) (budget : Nat) :
    (State.declare s r dl budget).mem = s.mem := by
  rfl
@[simp] theorem State.takeBack_mem (s : State) (l : Loc) (e : QEnt) : (State.takeBack s l e).mem = s.mem := by
  simp [State.takeBack]
@[simp] theorem State.unrelease_mem (s : State) (b : Bool) (r : Nat) (sc : Scope) (i : Nat) :
    (s.unrelease b r sc i).mem = s.mem := by
  simp [State.unrelease]
@[simp] theorem State.fire_mem (s : State) (r : Nat) : (State.fire s r).mem = s.mem := by
  simp [State.fire]
@[simp] theorem State.copyDone_mem (s : State) (l : Loc) (q : Nat) : (State.copyDone s l q).mem = s.mem := by
  unfold State.copyDone
  split <;> simp
@[simp] theorem State.slotAt_mem (s : State) (l : Loc) (from_ : Nat) : (State.slotAt s l from_).mem = s.mem := by
  simp [State.slotAt]
@[simp] theorem State.copyTile_mem (s : State) (l : Loc) (t : Nat) : (s.copyTile l t).1.mem = s.mem := by
  unfold State.copyTile
  (repeat' split) <;> simp
@[simp] theorem State.copyXlate_mem (s : State) (l : Loc) (sinter : Bool) (va z acc : Nat) :
    (s.copyXlate l sinter va z acc).1.mem = s.mem := by
  unfold State.copyXlate
  refine foldl_inv (fun (x : State × Except Held (List Nat)) => x.1.mem = s.mem) _ _ _ rfl fun x i hx => ?_
  dsimp only at hx ⊢
  split
  · exact hx
  · have h := State.xlate_mem x.1 l ((va + i) % 2 ^ 64) acc
    split
    · exact hx
    · split
      · rename_i heq
        rw [heq] at h
        (repeat' split) <;> exact h.trans hx
      · rename_i heq
        rw [heq] at h
        exact h.trans hx
@[simp] theorem State.copyEnds_mem (s : State) (l : Loc) (sinter : Bool) (sp z acc : Nat) (c : CSide) :
    (s.copyEnds l sinter sp z acc c).1.mem = s.mem := by
  unfold State.copyEnds
  split
  · rename_i t _
    have h := State.copyTile_mem s l t
    split <;> rename_i heq <;> rw [heq] at h <;> exact h
  · rename_i va
    have h := State.copyXlate_mem s l sinter va z acc
    split <;> rename_i heq <;> rw [heq] at h <;> exact h
@[simp] theorem State.copyRead_mem (s : State) (l : Loc) (err sinter : Bool) (m : Moved) (z : Nat) (c : CSide) :
    (s.copyRead l err sinter m z c).1.mem = s.mem := by
  unfold State.copyRead
  split
  · rename_i t off
    have h := State.copyTile_mem s l t
    split <;> rename_i heq <;> rw [heq] at h
    · exact h
    · simpa using h
  · rename_i va
    have h := State.copyXlate_mem s l sinter va z accRead
    split
    · rename_i heq
      rw [heq] at h
      exact h
    · rename_i s' pas heq
      rw [heq] at h
      split
      · exact h
      · split
        · exact h
        · refine foldl_inv (fun (x : State × List Byte × Bool) => x.1.mem = s.mem) _ _ _ h fun x i hx => ?_
          dsimp only
          split
          · exact hx
          · exact (State.physRead_mem x.1 i 1).trans hx
@[simp] theorem State.copyPut_mem (s : State) (l : Loc) (m : Moved) (bs : List Byte) (pz : Bool) (c : CSide) :
    (s.copyPut l m bs pz c).1.mem = s.mem := by
  unfold State.copyPut
  split
  · rfl
  · rename_i va
    have h := State.copyXlate_mem s l false va bs.length accBuf
    split <;> rename_i heq <;> rw [heq] at h <;> exact h
@[simp] theorem State.copyElem_mem (s : State) (l : Loc) (x : Xfer) (err : Bool) (m : Moved) (e : Nat) :
    (s.copyElem l x err m e).1.mem = s.mem := by
  unfold State.copyElem
  split
  · rfl
  · rename_i src _
    have h := State.copyRead_mem s l err x.cp.sinter m x.cp.ssz src
    split <;> rename_i heq <;> rw [heq] at h
    · exact h
    · exact (State.copyPut_mem _ _ _ _ _ _).trans h
/-- What elements are read for leaves memory alone: it changes when their writes land. -/
@[simp] theorem State.moveElems_mem (l : Loc) (x : Xfer) (err : Bool) (a n : Nat) (r : MoveEnd) :
    (State.moveElems l x err a n r).s.mem = r.s.mem := by
  induction n generalizing r with
  | zero => rfl
  | succ n ih =>
    have he := State.copyElem_mem r.s l x err r.m (a + r.n)
    unfold State.moveElems
    split <;> rename_i heq <;> rw [heq] at he
    · exact (ih _).trans he
    · exact he
@[simp] theorem State.takeElems_mem (l : Loc) (x : Xfer) (q n : Nat) (t : Taken) :
    (State.takeElems l x q n t).s.mem = t.s.mem := by
  induction n generalizing t with
  | zero => rfl
  | succ n ih =>
    unfold State.takeElems
    dsimp only
    split
    · rfl
    · rename_i src _
      have h1 := State.copyEnds_mem t.s l x.cp.sinter x.cp.srcsp x.cp.ssz accRead src
      split <;> rename_i heq <;> rw [heq] at h1
      · exact h1
      · rename_i s a
        have h2 := State.copyEnds_mem s l false x.cp.dstsp x.cp.dsz accBuf (s.dstSide l x (x.next + t.n))
        split <;> rename_i heq2 <;> rw [heq2] at h2
        · exact h2.trans h1
        · split
          · exact h2.trans h1
          · exact (ih _).trans (h2.trans h1)
@[simp] theorem State.landMoved_wf (s : State) (l : Loc) (m : Moved) (h : Memory.wf s.mem = true) :
    Memory.wf (State.landMoved s l m).mem = true := by
  unfold State.landMoved
  (repeat' (first | split | (refine foldl_wf _ _ _ (fun s x hs => ?_) ?_))) <;> simp_all
@[simp] theorem State.updXfer_mem (s : State) (l : Loc) (q : Nat) (f : Xfer → Xfer) : (s.updXfer l q f).mem = s.mem := by
  simp [State.updXfer]
@[simp] theorem State.copyTrap_mem (s : State) (l : Loc) (x : Xfer) (q : Nat) (code : Nat) (cause : Nat) (elem : Nat) :
    (State.copyTrap s l x q code cause elem).mem = s.mem := by
  simp [State.copyTrap]
@[simp] theorem State.copySettle_mem (s : State) (l : Loc) (q : Nat) : (s.copySettle l q).mem = s.mem := by
  unfold State.copySettle
  (repeat' split) <;> simp
@[simp] theorem State.runOver_mem (s : State) (l : Loc) (q : Nat) : (s.runOver l q).mem = s.mem := by
  unfold State.runOver
  dsimp only
  split <;> simp
@[simp] theorem State.readRun_mem (s : State) (l : Loc) (r : CopyRun) (err : Bool) : (s.readRun l r err).mem = s.mem := by
  unfold State.readRun
  dsimp only
  (repeat' split) <;> simp
@[simp] theorem State.landRun_wf (s : State) (l : Loc) (r : CopyRun) (err : Bool) (h : Memory.wf s.mem = true) :
    Memory.wf (s.landRun l r err).mem = true := by
  unfold State.landRun
  dsimp only
  (repeat' split) <;> simp [h]
@[simp] theorem State.slotRuns_mem (s : State) (l : Loc) (q most : Nat) : (s.slotRuns l q most).mem = s.mem := by
  unfold State.slotRuns
  split
  · dsimp only
    rw [State.copySettle_mem, foldl_mem]
    · (repeat' split) <;> simp
    · intro s x
      split <;> simp
  · rfl
@[simp] theorem State.localMove_wf (s : State) (l : Loc) (q most : Nat) (h : Memory.wf s.mem = true) :
    Memory.wf (s.localMove l q most).mem = true := by
  unfold State.localMove
  split
  · simp [h]
  · exact h
@[simp] theorem State.copyResume_mem (s : State) (l : Loc) : (s.copyResume l).mem = s.mem := by
  unfold State.copyResume
  rw [foldl_mem]
  intro s x
  (repeat' split) <;> simp
@[simp] theorem State.csrSeen_mem (s : State) (n : Nat) : (State.csrSeen s n).mem = s.mem := by
  simp [State.csrSeen]
@[simp] theorem State.csrPut_mem (s : State) (n : Nat) (o : CsrOp) (old : Word) (a : Word) :
    (State.csrPut s n o old a).mem = s.mem := by
  unfold State.csrPut
  split <;> simp
@[simp] theorem State.tlbDrop_mem (s : State) (l : Loc) (sc : Scope) (lo : Nat) (hi : Nat) :
    (State.tlbDrop s l sc lo hi).mem = s.mem := by
  unfold State.tlbDrop
  split <;> simp
@[simp] theorem State.updQp_mem (s : State) (q : Nat) (f : QPair → QPair) : (State.updQp s q f).mem = s.mem := by
  rfl
@[simp] theorem State.setPolling_mem (s : State) (q : Nat) : (State.setPolling s q).mem = s.mem := by
  simp [State.setPolling]
@[simp] theorem State.hostQp_mem (s : State) (q : Nat) (off : Nat) (v : Word) : (State.hostQp s q off v).mem = s.mem := by
  unfold State.hostQp
  split <;> simp
@[simp] theorem State.updArr_mem (s : State) (l : Loc) (f : Arr64 → Arr64) : (State.updArr s l f).mem = s.mem := by
  simp [State.updArr]
@[simp] theorem State.arrKick_mem (s : State) (l : Loc) : (s.arrKick l).mem = s.mem := by
  unfold State.arrKick
  dsimp only
  rw [foldl_mem]
  intro s x
  (repeat' split) <;> simp
@[simp] theorem State.opEnds_mem (s : State) (l : Loc) (o : ArrOp) (free : Nat) (tokAt : Nat) :
    (State.opEnds s l o free tokAt).mem = s.mem := by
  unfold State.opEnds
  split <;> simp
@[simp] theorem State.sliceTrap_mem (s : State) (l : Loc) (o : ArrOp) (code : Nat) (redo : Ev) :
    (State.sliceTrap s l o code redo).mem = s.mem := by
  simp [State.sliceTrap]
@[simp] theorem State.rotStart_mem (s : State) (l : Loc) (o : ArrOp) (n : Nat) : (s.rotStart l o n).mem = s.mem := by
  unfold State.rotStart
  dsimp only
  rw [State.schedAt_mem, State.schedAt_mem, State.schedAt_mem, foldl_mem]
  intro s x
  simp
@[simp] theorem State.opAct_mem (s : State) (l : Loc) (o : ArrOp) (n : Nat) : (State.opAct s l o n).mem = s.mem := by
  unfold State.opAct
  split <;> simp
@[simp] theorem State.opStart_mem (s : State) (l : Loc) (o : ArrOp) (n : Nat) : (s.opStart l o n).mem = s.mem := by
  unfold State.opStart
  dsimp only
  (repeat' split) <;> simp
@[simp] theorem State.gangStart_mem (s : State) (g p n : Nat) : (s.gangStart g p n).mem = s.mem := by
  unfold State.gangStart
  dsimp only
  split
  · split
    · simp
    · rw [State.schedAt_mem, foldl_mem]
      intro s x
      split <;> simp
  · rfl
@[simp] theorem State.laneTurn_mem (s : State) (l : Loc) (load : Bool) : (State.laneTurn s l load).mem = s.mem := by
  simp [State.laneTurn]
@[simp] theorem State.rowSide_mem (s : State) (l : Loc) (o : ArrOp) (row : Nat) (n : Nat) (vals : List Nat) (bytes : List Byte) :
    (State.rowSide s l o row n vals bytes).mem = s.mem := by
  unfold State.rowSide
  split <;> simp
@[simp] theorem State.rowGo_mem (s : State) (l : Loc) (id : Nat) (row : Nat) (n : Nat) (x : Nat) (vals : List Nat) :
    (State.rowGo s l id row n x vals).mem = s.mem := by
  unfold State.rowGo
  split <;> simp
@[simp] theorem State.rowLand_mem (s : State) (l : Loc) (o : ArrOp) (row : Nat) : (State.rowLand s l o row).mem = s.mem := by
  unfold State.rowLand
  dsimp only
  split <;> simp
@[simp] theorem State.rotLate_mem (s : State) (l : Loc) (src : Nat) : (State.rotLate s l src).mem = s.mem := by
  unfold State.rotLate
  split <;> simp
@[simp] theorem State.deferEv_mem (s : State) (e : Ev) : (State.deferEv s e).mem = s.mem := by
  unfold State.deferEv
  split <;> simp
@[simp] theorem State.freezeEvents_mem (s : State) (p : Nat) : (State.freezeEvents s p).mem = s.mem := by
  rfl
@[simp] theorem State.updRegions_mem (s : State) (p : Nat) (f : Region → Region) : (State.updRegions s p f).mem = s.mem := by
  rfl
@[simp] theorem State.freezeClock_mem (s : State) (p : Nat) : (State.freezeClock s p).mem = s.mem := by
  simp [State.freezeClock]
@[simp] theorem State.thaw_mem (s : State) (p : Nat) : (s.thaw p).mem = s.mem := by
  unfold State.thaw
  dsimp only [State.updRegions]
  rw [foldl_mem, State.updPart_mem, foldl_mem]
  · intro s x
    simp
  · intro s x
    simp
@[simp] theorem State.completion_mem (s : State) (q : Nat) (status : Nat) (cause : Nat) (region : Nat) (part : Nat) (cookie : Word) (tend : Nat) :
    (State.completion s q status cause region part cookie tend).mem = s.mem := by
  simp [State.completion]
@[simp] theorem State.postOwed_mem (s : State) (q : Nat) (status : Nat) (cause : Nat) (region : Nat) (part : Nat) (cookie : Word) (tend : Nat) :
    (State.postOwed s q status cause region part cookie tend).mem = s.mem := by
  simp [State.postOwed]
@[simp] theorem State.accept_wf (s : State) (who : Launcher) (w : Rcb) (rcb pa ovr : Nat) (e : Eff) (f : Nat)
    (h : Memory.wf s.mem = true) : Memory.wf (s.accept who w rcb pa ovr e f).1.mem = true := by
  unfold State.accept
  extract_lets r part child carve g s1 s2 d s3 s4 s5
  have h2 : Memory.wf s2.mem = true := by
    simp only [s2]
    split <;> exact h
  have h4 : Memory.wf s4.mem = true := State.rcbWord_wf s3 _ _ _ h2
  have h5 : Memory.wf s5.mem = true :=
    foldl_wf _ _ _ (fun s x hs => State.rcbWord_wf s _ _ _ hs) (State.rcb90_wf _ _ (State.rcb88_wf _ _ h4))
  change Memory.wf (State.mem (State.kick _)) = true
  rw [State.kick_mem]
  exact State.rcb80_wf _ _ h5
@[simp] theorem State.kidsBy_wf (s : State) (r : Nat) (f : Nat → Nat) (h : Memory.wf s.mem = true) :
    Memory.wf (State.kidsBy s r f).mem = true := by
  simp [State.kidsBy, h]
@[simp] theorem State.nextChild_mem (s : State) (l : Loc) : (State.nextChild s l).mem = s.mem := by
  simp [State.nextChild]
@[simp] theorem State.nextDelivery_mem (s : State) (l : Loc) : (State.nextDelivery s l).mem = s.mem := by
  simp [State.nextDelivery]
@[simp] theorem State.lateTrap_mem (s : State) (l : Loc) (src : Nat) (kind : Nat) (due : Nat) (land : Nat) :
    (State.lateTrap s l src kind due land).mem = s.mem := by
  simp [State.lateTrap]
@[simp] theorem State.toPort_mem (s : State) (o t : Nat) (m : Msg) : (s.toPort o t m).mem = s.mem := by
  unfold State.toPort
  dsimp only
  split <;> simp
@[simp] theorem State.launchMsg_mem (s : State) (m : Msg) : (State.launchMsg s m).mem = s.mem := by
  simp only [State.launchMsg]
  (repeat' split) <;> simp_all
@[simp] theorem State.readPiece_mem (s : State) (m : Msg) : (State.readPiece s m).mem = s.mem := by
  simp [State.readPiece]
@[simp] theorem State.ackMsg_mem (s : State) (m : Msg) (err : Bool) : (State.ackMsg s m err).mem = s.mem := by
  simp only [State.ackMsg]
  (repeat' split) <;> simp_all
@[simp] theorem State.changed_mem (s : State) (l : Loc) : (State.changed s l).mem = s.mem := by
  simp [State.changed]
@[simp] theorem State.takeMsg_mem (s : State) (l : Loc) (h : Nat) (m : Msg) (fromOvf : Bool) :
    (State.takeMsg s l h m fromOvf).mem = s.mem := by
  simp [State.takeMsg]
theorem State.offer_mem (s t : State) (l : Loc) (m : Msg) (h : s.offer l m = some t) : t.mem = s.mem := by
  unfold State.offer at h
  dsimp only at h
  split at h
  · cases h
    simp
  · split at h
    · cases h
      simp
    · cases h
@[simp] theorem State.offerHeld_mem (s : State) (t : Nat) (ms kept : List Msg) : (s.offerHeld t ms kept).mem = s.mem := by
  induction ms generalizing s kept with
  | nil => rfl
  | cons m r ih =>
    unfold State.offerHeld
    dsimp only
    split
    · rw [ih]
      simp
    · split
      · rw [ih]
      · split
        · rename_i heq
          rw [ih]
          exact State.offer_mem _ _ _ _ heq
        · rw [ih]
          simp
@[simp] theorem State.recvEnd_mem (s : State) (l : Loc) (h : Nat) (d : Nat) : (State.recvEnd s l h d).mem = s.mem := by
  simp [State.recvEnd]
@[simp] theorem State.post_mem (s : State) (h : Nat) (hd : Handle) : (State.post s h hd).mem = s.mem := by
  simp only [State.post]
  (repeat' split) <;> simp_all
@[simp] theorem State.trapPart_mem (s : State) (p : Nat) (r : StopRec) : (State.trapPart s p r).mem = s.mem := by
  unfold State.trapPart
  split <;> simp
@[simp] theorem State.haltWith_mem (s : State) (p : Nat) (cause : Nat × Nat × Nat) :
    (State.haltWith s p cause).mem = s.mem := by
  unfold State.haltWith
  split <;> simp
theorem State.ringPut_wf (s t : State) (d z : Nat) (a : Nat → Option Nat) (r : StopRec) (h : Memory.wf s.mem = true)
    (ht : s.ringPut d z a r = some t) : Memory.wf t.mem = true := by
  unfold State.ringPut at ht
  dsimp only at ht
  split at ht
  · split at ht
    · cases ht
      simp [h]
    · cases ht
  · cases ht
theorem getD_wf (o : Option State) (s : State) (ho : ∀ t, o = some t → Memory.wf t.mem = true) (h : Memory.wf s.mem = true) :
    Memory.wf (o.getD s).mem = true := by
  cases o with
  | none => exact h
  | some t => exact ho t rfl
@[simp] theorem State.report_wf (s : State) (r : StopRec) (h : Memory.wf s.mem = true) :
    Memory.wf (s.report r).mem = true := by
  unfold State.report
  dsimp only
  split
  · rename_i heq
    split at heq
    · exact State.ringPut_wf _ _ _ _ _ _ h heq
    · exact State.ringPut_wf _ _ _ _ _ _ h heq
  · split
    · rw [State.haltWith_mem, State.updPart_mem]
      exact getD_wf _ _ (fun t ht => State.ringPut_wf _ t _ _ _ _ (by exact h) ht) (by exact h)
    · exact getD_wf _ _ (fun t ht => State.ringPut_wf _ t _ _ _ _ (by exact h) ht) (by exact h)
@[simp] theorem State.sendStop_mem (s : State) (r : StopRec) : (s.sendStop r).mem = s.mem := by
  unfold State.sendStop
  dsimp only
  split <;> simp
@[simp] theorem State.restateIf_wf (s : State) (p : Nat) (f : Region → Bool) (to_ : RSt) (cause : Nat) (h : Memory.wf s.mem = true) :
    Memory.wf (State.restateIf s p f to_ cause).mem = true := by
  unfold State.restateIf
  (repeat' (first | split | (refine foldl_wf _ _ _ (fun s x hs => ?_) ?_))) <;> simp_all
@[simp] theorem State.restate_wf (s : State) (p : Nat) (from_ : RSt) (to_ : RSt) (cause : Nat) (h : Memory.wf s.mem = true) :
    Memory.wf (State.restate s p from_ to_ cause).mem = true := by
  simp [State.restate, h]
@[simp] theorem State.goOn_wf (s : State) (p : Nat) (h : Memory.wf s.mem = true) : Memory.wf (s.goOn p).mem = true := by
  unfold State.goOn
  dsimp only
  rw [State.kick_mem]
  refine foldl_wf _ _ _ (fun s x hs => ?_) (foldl_wf _ _ _ (fun s x hs => ?_) (foldl_wf _ _ _ (fun s x hs => ?_) ?_))
  · split <;> simp [hs]
  · split <;> simp [hs]
  · split <;> simp [hs]
  · simp [h]
@[simp] theorem State.takeFg_mem (s : State) (l : Loc) : (State.takeFg s l).mem = s.mem := by
  simp [State.takeFg]
@[simp] theorem State.yieldAll_mem (s : State) (p : Nat) : (State.yieldAll s p).mem = s.mem := by
  simp [State.yieldAll]
@[simp] theorem State.orderSwap_mem (s : State) (p : Nat) (inc : Nat) : (State.orderSwap s p inc).mem = s.mem := by
  simp [State.orderSwap]
@[simp] theorem State.resumeRec_mem (s : State) (p : Nat) : (State.resumeRec s p).mem = s.mem := by
  rfl
@[simp] theorem State.swapIn_wf (s : State) (p : Nat) (h : Memory.wf s.mem = true) : Memory.wf (s.swapIn p).mem = true := by
  unfold State.swapIn
  dsimp only
  split
  · refine State.goOn_wf _ _ (foldl_wf _ _ _ (fun s x hs => ?_) h)
    split <;> simp [hs]
  · exact h
@[simp] theorem State.mark_mem (s : State) (d : DRec) : (s.mark d).mem = s.mem := rfl
@[simp] theorem State.placeStart_mem (s : State) (d : DRec) : (s.placeStart d).mem = s.mem := by
  unfold State.placeStart
  dsimp only
  rw [foldl_mem, State.updRegion_mem, foldl_mem, foldl_mem]
  · split <;> simp
  · intro s x
    split <;> simp
  · intro s x
    simp
  · intro s x
    simp
@[simp] theorem State.swapOut_mem (s : State) (p inc : Nat) : (s.swapOut p inc).mem = s.mem := by
  simp [State.swapOut]
@[simp] theorem State.preempt_mem (s : State) (d : DRec) (ps : List Nat) : (State.preempt s d ps).mem = s.mem := by
  unfold State.preempt
  dsimp only
  (repeat' split) <;> simp
@[simp] theorem State.tryStart_mem (s : State) (r : Nat) : (State.tryStart s r).mem = s.mem := by
  unfold State.tryStart
  (repeat' split) <;> simp
@[simp] theorem State.chunkTo_mem (s : State) (region : Nat) (src : Option Nat) (t : Nat) (chunk : Nat) :
    (State.chunkTo s region src t chunk).mem = s.mem := by
  simp only [State.chunkTo]
  (repeat' split) <;> simp_all
@[simp] theorem State.applyImage_mem (s : State) (r : Nat) (t : Nat) : (State.applyImage s r t).mem = s.mem := by
  unfold State.applyImage
  (repeat' split) <;> simp
@[simp] theorem State.regionStart_wf (s : State) (r : Nat) (h : Memory.wf s.mem = true) :
    Memory.wf (s.regionStart r).mem = true := by
  unfold State.regionStart
  dsimp only
  split
  · exact h
  · rw [State.stepStart_mem]
    refine foldl_wf _ _ _ (fun s x hs => ?_) ?_
    · simp [hs]
    · split <;> simpa using h
@[simp] theorem State.partEnd_mem (s : State) (p : Nat) : (State.partEnd s p).mem = s.mem := by
  simp [State.partEnd]
@[simp] theorem State.endAs_wf (s : State) (r : Nat) (st : RSt) (c : Nat) (p : Bool) (h : Memory.wf s.mem = true) :
    Memory.wf (s.endAs r st c p).mem = true := by
  unfold State.endAs
  dsimp only
  split
  · rw [State.partEnd_mem]
    split
    · split
      · simp [h]
      · simp [h]
    · simp [h]
  · rw [State.kick_mem, State.sched_mem]
    split
    · split
      · simp [h]
      · simp [h]
    · simp [h]
@[simp] theorem State.discard_mem (s : State) (r : Nat) : (s.discard r).mem = s.mem := by
  unfold State.discard
  dsimp only
  rw [foldl_mem]
  · rfl
  · intro s x
    simp
@[simp] theorem State.endFamily_wf (s : State) (r c : Nat) (p : Bool) (h : Memory.wf s.mem = true) :
    Memory.wf (s.endFamily r c p).mem = true := by
  unfold State.endFamily
  exact foldl_wf _ _ _ (fun s x hs => by simp [hs]) h
@[simp] theorem State.endPart_wf (s : State) (p : Nat) (cause : Nat) (post : Bool) (h : Memory.wf s.mem = true) :
    Memory.wf (State.endPart s p cause post).mem = true := by
  simp [State.endPart, h]
@[simp] theorem State.treeSend_mem (s : State) (l : Loc) (slot : Nat) (dev : Nat) (kind : TreeKind) (v : Vec) (nf : Bool) :
    (State.treeSend s l slot dev kind v nf).mem = s.mem := by
  simp [State.treeSend]
@[simp] theorem State.treeEdge_mem (s : State) (l : Loc) (d : Dir) (c : Nat) (k : TreeKind) (e : Ev) :
    (s.treeEdge l d c k e).mem = s.mem := by
  unfold State.treeEdge
  split <;> simp
@[simp] theorem State.treeTrap_mem (s : State) (l : Loc) (pc : Nat) : (State.treeTrap s l pc).mem = s.mem := by
  simp [State.treeTrap]
@[simp] theorem State.treeDiffer_mem (s : State) (l : Loc) (pc : Nat) (e : Ev) :
    (State.treeDiffer s l pc e).mem = s.mem := by
  simp [State.treeDiffer]
@[simp] theorem State.treeEnd_mem (s : State) (l : Loc) (slot : Nat) (o : TreeOpSt) (x : Nat) :
    (State.treeEnd s l slot o x).mem = s.mem := by
  unfold State.treeEnd
  split <;> simp
@[simp] theorem State.treeWrite_mem (s : State) (l : Loc) (o : TreeOpSt) (n : Nat) (v : Vec) (nf : Bool) :
    (State.treeWrite s l o n v nf).mem = s.mem := by
  simp [State.treeWrite]
@[simp] theorem State.treeDown_mem (s : State) (l : Loc) (slot : Nat) (o : TreeOpSt) (v : Vec) (nf : Bool) :
    (s.treeDown l slot o v nf).mem = s.mem := by
  unfold State.treeDown
  dsimp only
  rw [foldl_mem]
  intro s x
  (repeat' split) <;> simp
@[simp] theorem State.treeApply_mem (s : State) (l : Loc) (slot : Nat) (o : TreeOpSt) (kind : TreeKind) (v : Vec) (nf : Bool) :
    (State.treeApply s l slot o kind v nf).mem = s.mem := by
  simp only [State.treeApply]
  (repeat' split) <;> simp_all
@[simp] theorem State.treeTop_mem (s : State) (l : Loc) (slot : Nat) (o : TreeOpSt) (c : Nat) (r : Vec × Bool) :
    (State.treeTop s l slot o c r).mem = s.mem := by
  simp [State.treeTop]
@[simp] theorem State.treePeers_mem (s : State) (l : Loc) (slot : Nat) (k : Nat) :
    (State.treePeers s l slot k).mem = s.mem := by
  simp only [State.treePeers]
  (repeat' split) <;> simp_all
@[simp] theorem State.treeStep_mem (s : State) (l : Loc) (slot : Nat) (k : Nat) :
    (State.treeStep s l slot k).mem = s.mem := by
  simp only [State.treeStep]
  (repeat' split) <;> simp_all
@[simp] theorem treeIssue_mem (s : State) (slot : Nat) (o : TreeOpSt) (blk : Bool) :
    (treeIssue s slot o blk).mem = s.mem := by
  simp only [treeIssue]
  (repeat' split) <;> simp_all
@[simp] theorem State.resumePart_wf (s : State) (p : Nat) (h : Memory.wf s.mem = true) :
    Memory.wf (s.resumePart p).mem = true := by
  unfold State.resumePart
  dsimp only
  (repeat' split) <;> simp [h]
@[simp] theorem State.deviceRead_mem (s : State) (dev pa n : Nat) : (s.deviceRead dev pa n).1.mem = s.mem := by
  unfold State.deviceRead
  split <;> rfl
@[simp] theorem State.replica_mem (s : State) (r : Nat) : (State.replica s r).1.mem = s.mem :=
  State.deviceRead_mem _ _ _ _
@[simp] theorem State.ckptFind_mem (s : State) (d : Nat) (gen : Option Nat) : (State.ckptFind s d gen).1.mem = s.mem := by
  unfold State.ckptFind
  (repeat' split) <;> simp
@[simp] theorem State.copyBack_wf (s : State) (w : List Nat) (rep : Option Nat) (h : Memory.wf s.mem = true) :
    Memory.wf (s.copyBack w rep).mem = true := by
  unfold State.copyBack
  dsimp only
  refine foldl_wf _ _ _ (fun s x hs => foldl_wf _ _ _ (fun s y hs => ?_) hs) h
  (repeat' split) <;> simp [hs]
@[simp] theorem State.resetPart_wf (s : State) (p : Nat) (h : Memory.wf s.mem = true) :
    Memory.wf (State.resetPart s p).mem = true := by
  simp [State.resetPart, h]
@[simp] theorem State.haltQuiet_mem (s : State) (p : Nat) : (State.haltQuiet s p).mem = s.mem := by
  simp [State.haltQuiet]
@[simp] theorem State.groupGen_mem (s : State) (p : Nat) (g : List (Nat × Nat)) : (s.groupGen p g).1.mem = s.mem := rfl
@[simp] theorem State.notifyGroup_mem (s : State) (p gen : Nat) (g : List (Nat × Nat)) :
    (s.notifyGroup p gen g).mem = s.mem := by
  unfold State.notifyGroup
  dsimp only
  rw [foldl_mem]
  intro s x
  rfl
@[simp] theorem State.strike_mem (s : State) (p : Nat) : (s.strike p).mem = s.mem := by
  unfold State.strike
  (repeat' split) <;> simp
@[simp] theorem State.harvestMap_wf (s : State) (n : Nat) (v : Word) (h : Memory.wf s.mem = true) :
    Memory.wf (State.harvestMap s n v).mem = true := by
  unfold State.harvestMap
  refine foldl_wf _ _ _ (fun s x hs => ?_) h
  split <;> simp [hs]
theorem ite_wf {c : Prop} [Decidable c] {a b : State} (ha : Memory.wf a.mem = true) (hb : Memory.wf b.mem = true) :
    Memory.wf (if c then a else b).mem = true := by
  split
  · exact ha
  · exact hb
@[simp] theorem State.mcReg_wf (s : State) (off : Nat) (v : Word) (h : Memory.wf s.mem = true) :
    Memory.wf (State.mcReg s off v).mem = true := by
  unfold State.mcReg
  dsimp only
  repeat' first | with_reducible exact h | with_reducible apply ite_wf
  all_goals simp [h]
@[simp] theorem State.setPollingAll_mem (s : State) : (State.setPollingAll s).mem = s.mem := by
  simp [State.setPollingAll]
@[simp] theorem State.boot_mem (s : State) : (State.boot s).mem = s.mem := by
  rfl
@[simp] theorem State.flashWrite_mem (s : State) (ctr : Nat) (mac : BitVec 384) (data : List Byte) (f : Dev → Dev) :
    (State.flashWrite s ctr mac data f).mem = s.mem := by
  simp [State.flashWrite]
@[simp] theorem State.newTable_wf (s : State) (n : Nat) (h : Memory.wf s.mem = true) :
    Memory.wf (s.newTable n).1.mem = true := by
  unfold State.newTable
  dsimp only
  exact foldl_wf _ _ _ (fun s x hs => by simp [hs]) h
@[simp] theorem State.putEntry_wf (s : State) (a : Nat) (v : Nat) (h : Memory.wf s.mem = true) :
    Memory.wf (State.putEntry s a v).mem = true := by
  simp [State.putEntry, h]
@[simp] theorem State.rootTable_wf (s : State) (p : Nat) (h : Memory.wf s.mem = true) :
    Memory.wf (s.rootTable p).1.mem = true := by
  have key : ∀ x : State × Nat, Memory.wf x.1.mem = true →
      Memory.wf (if (Tbl.get {} s.ptroots p).en then (s, (Tbl.get {} s.ptroots p).root * 2048)
        else ({ x.1 with ptroots := Tbl.put x.1.ptroots p { en := true, root := x.2 / 2048 } }, x.2)).1.mem = true := by
    intro x hx
    split
    · exact h
    · exact hx
  exact key _ (State.newTable_wf s 2048 h)
@[simp] theorem State.seenB_mem (s : State) (b : SrcB) : (State.seenB s b).mem = s.mem := by
  unfold State.seenB
  split <;> simp
@[simp] theorem State.enqueued_mem (s : State) (o : ArrOp) : (State.enqueued s o).mem = s.mem := by
  rfl
@[simp] theorem State.gangArrive_mem (s : State) : s.gangArrive.mem = s.mem := by
  unfold State.gangArrive
  dsimp only
  (repeat' split) <;> simp
@[simp] theorem State.raiseRisk_wf (s : State) (r : Nat) (h : Memory.wf s.mem = true) :
    Memory.wf (s.raiseRisk r).mem = true := by
  unfold State.raiseRisk
  dsimp only
  split <;> simp [h]
@[simp] theorem State.paceEntry_wf (s : State) (r : Nat) (h : Memory.wf s.mem = true) :
    Memory.wf (s.paceEntry r).mem = true := by
  unfold State.paceEntry
  dsimp only
  (repeat' split) <;> simp [h]
@[simp] theorem State.applyDemand_mem (s : State) : (State.applyDemand s).mem = s.mem := by
  simp [State.applyDemand]
@[simp] theorem State.retime_mem (s : State) (a b : Nat) : (s.retime a b).mem = s.mem := by
  unfold State.retime
  dsimp only
  rw [foldl_mem]
  · rfl
  · intro s x
    rfl
@[simp] theorem State.tightenOc_mem (s : State) : (State.tightenOc s).mem = s.mem := by
  simp [State.tightenOc]
@[simp] theorem State.checkOver_mem (s : State) : (State.checkOver s).mem = s.mem := by
  simp [State.checkOver]
@[simp] theorem State.releaseOc_mem (s : State) : (State.releaseOc s).mem = s.mem := by
  rfl
@[simp] theorem State.packageCap_mem (s : State) : (State.packageCap s).mem = s.mem := by
  simp [State.packageCap]
@[simp] theorem State.geyserOff_mem (s : State) : (State.geyserOff s).mem = s.mem := by
  simp [State.geyserOff]
@[simp] theorem State.tripCell_mem (s : State) (cell : Nat) : (State.tripCell s cell).mem = s.mem := by
  simp [State.tripCell]
@[simp] theorem State.railsOff_wf (s : State) (h : Memory.wf s.mem = true) :
    Memory.wf (State.railsOff s).mem = true := by
  unfold State.railsOff
  (repeat' (first | split | (refine foldl_wf _ _ _ (fun s x hs => ?_) ?_))) <;> simp_all
@[simp] theorem State.watchQuads_mem (s : State) : (State.watchQuads s).mem = s.mem := by
  simp [State.watchQuads]
@[simp] theorem State.updPower_mem (s : State) (f : Power → Power) : (State.updPower s f).mem = s.mem := by
  rfl
@[simp] theorem State.beginStep_mem (s : State) (n : Nat) (on : List Nat) : (s.beginStep n on).mem = s.mem := by
  unfold State.beginStep
  dsimp only
  (repeat' split) <;> simp
@[simp] theorem State.powerStep_mem (s : State) : (State.powerStep s).mem = s.mem := by
  simp only [State.powerStep]
  (repeat' split) <;> simp_all
@[simp] theorem State.powerCycle_mem (s : State) (p : Power) : (s.powerCycle p).mem = [] := rfl
@[simp] theorem State.watchSleep_mem (s : State) : (State.watchSleep s).mem = s.mem := by
  simp [State.watchSleep]
@[simp] theorem State.watchDeadlines_mem (s : State) : (State.watchDeadlines s).mem = s.mem := by
  simp [State.watchDeadlines]
@[simp] theorem State.advance_mem (s : State) : (State.advance s).mem = s.mem := by
  simp [State.advance]
@[simp] theorem State.withFetchWord_mem (s : State) (nbits : Nat) (w : Nat) :
    (State.withFetchWord s nbits w).mem = s.mem := by
  rfl

end Sys2Proof.Machine
end

