-- ==== Sys2Proof/Tests/Slice0.lean ====
section
/-! SUPPORT. Tests: words decoded, ill-formed words refused, the worked examples of the spec, and for every statement that
has hypotheses the states and operands that meet them. The expected values are the spec's. -/

namespace Sys2Proof.Tests

set_option Elab.async false

open Sys2Proof.Machine Sys2Proof.Claim

/-! ### Small states -/

/-- A running strand of partition 0 and region 1 in an elastic phase, whose role has 100 words and 2 MiB of share. -/
def c0 : Ctx := { part := some 0, region := 1, live := true, words := 100, spad := 32 }
/-- The state in which it runs on tile 0. -/
def st (c : Ctx) : State :=
  { cores := [(0, { fg := c })], parts := [(0, { root := 1 })]
    regions := [(1, { eff := { spad := 32 }, st := .running, started := true })], quads := [(0, { st := 0 })] }
/-- The same with scalars. -/
def regs (l : Tbl Word) : State := st { c0 with s := l }
/-- Its place. -/
def l0 : Loc := ⟨0, 0⟩
/-- What a meaning leaves in flight. -/
def pend (o : Out) : List (Nat × Wr) := match o with | .next t => t.c.pend.map fun x => (x.1, x.2.2) | _ => []
/-- What a meaning leaves in the strand. -/
def after (o : Out) : Ctx := match o with | .next t => t.c | _ => {}
/-- The code and detail of the traps that a meaning takes. -/
def traps (o : Out) : List (Nat × Nat) := (after o).stops.map fun r => (r.code, r.detail)
/-- What the first step leaves in flight, of a word stored where it is fetched. -/
def stepPend (w : Nat) : List (Nat × Wr) :=
  match step (State.reset.withFetchWord 96 w) with | .next t => t.c.pend.map fun x => (x.1, x.2.2) | _ => []
/-- A vector from its 32-bit lanes, the rest 0. -/
def lanes (l : List Nat) : Vec := vecOf 32 l

/-! ### Decoding (R106 to R117, R181, R313, R250, R270, R358, R403, R324) -/

theorem test_decode_sub : decodeTableWord 96 (wordOf 0x02 0 0x2C 1 2 3 0 1) = some (.sub true ⟨.n16, 1, .s 2, .reg (.s 3)⟩) := by
  decide
theorem test_decode_ldg : decodeTableWord 96 (wordOf 0x05 1 0x13 9 4 0 8 1) = some (.ldg .i32 9 (.s 4) 8 3) := by decide
/-- The word of "A word assembled", byte by byte (R6, R106). -/
theorem test_decode_vfma : decode (wordOfBytes [0x8C, 0x50, 0x20, 0x18, 0x0A, 0x01, 0x0C, 0x24, 0x90, 0x42, 0x40, 0x11]) =
    (decode (BitVec.ofNat 96 (parcels 0x1820508C 0x240C010A 0x11404290))) ∧
    ((decode (wordOfBytes [0x8C, 0x50, 0x20, 0x18, 0x0A, 0x01, 0x0C, 0x24, 0x90, 0x42, 0x40, 0x11])).map (·.eog)) = some true := by
  decide
theorem test_decode_frcp : decodeTableWord 96 (wordOf 0x01 3 0x40 0x107 0x108 0 0 1) = some (.frcp ⟨.f32, .ne, false⟩ ⟨.v 7, .v 8, none⟩) := by
  decide
theorem test_decode_vx : decodeTableWord 96 (wordOf 0x01 3 0x40 0x37D 0x108 0 0 1) = some (.frcp ⟨.f32, .ne, false⟩ ⟨.vx 1 0x3D, .v 8, none⟩) := by
  decide
theorem test_decode_mm : decodeTableWord 96 (wordOf 0x03 4 0 0x223 12 13 63 1) = some (.mm ⟨false, 3, .desc 12 13, 0, ⟨63, 0⟩⟩) := by
  decide
theorem test_decode_allred : decodeTableWord 96 (wordOf 0x09 5 67 0x12A 0x12B 0 642 1) = some (.allred .add ⟨.f32, .v 42, .v 43, 3, 2, 5⟩) := by
  decide
theorem test_decode_claunch : decodeTableWord 96 (wordOf 0x03 6 10 11 0 0 0 1) = some (.claunch false 11 2 1) := by decide
theorem test_decode_phase : decodeTableWord 96 (wordOf 0x09 7 0x1B 0 0 0 0 1) = some (.phase .gang .exchange true false) := by decide
theorem test_decode_br : decodeTableWord 96 (wordOf 0x01 7 0x40 0 0 0 0x3FFFF 1) = some (.br true 0x3FFFF) := by decide

/-! ### What the encoding cannot say is refused (R117), and WellFormed refuses what it can say and the spec calls illegal -/

theorem test_reserved_bit : decodeTableWord 96 (wordOf 0x02 0 0x2C 1 2 3 0 1 + 1) = none := by decide
theorem test_unassigned : decodeTableWord 96 (wordOf 0x3F 0 0 0 0 0 0 1) = none := by decide
theorem test_wf_type : Instr.wf (.add false ⟨.f32, 1, .s 2, .imm 0⟩) = false := by decide
theorem test_wf_signed : Instr.wf (.mulh ⟨.n32, 1, .s 2, .imm 0⟩) = false := by decide
theorem test_wf_unsigned : Instr.wf (.minn ⟨.i32, 1, .s 2, .imm 0⟩) = false := by decide
theorem test_wf_abs : Instr.wf (.abs false ⟨.n8, 1, .s 2⟩) = false := by decide
theorem test_wf_sel : Instr.wf (.sel .bf16 1 (.s 2) (.s 3) 4) = false := by decide
theorem test_wf_ldi_hi : Instr.wf (.ldi true .i32 1 0) = false ∧ Instr.wf (.ldi true .n64 1 0x4000000) = false := by decide
theorem test_wf_bfx : Instr.wf (.bfx false 1 (.s 2) 63 1) = false ∧ Instr.wf (.bfx false 1 (.s 2) 63 0) = true := by decide
theorem test_wf_csr : Instr.wf (.csrr 1 0x013) = false ∧ Instr.wf (.csrr 1 0x012) = true := by decide
theorem test_wf_tlbinv : Instr.wf (.tlbinv .strand 1 none 0) = false := by decide
theorem test_wf_ld : Instr.wf (.ld .a8 1 (.s 2) 0) = false := by decide
theorem test_wf_wide : Instr.wf (.ldrm .i16 1 (.s 2) 0 0) = false := by decide
theorem test_wf_atom : Instr.wf (.atom .fadd .i32 1 (.s 2) (.s 3) 0 0) = false := by decide
theorem test_wf_upd : Instr.wf (.upd .fadd .n32 (.s 2) (.s 3) 0) = false := by decide
theorem test_wf_float : Instr.wf (.vadd ⟨.a8, .ne, false⟩ ⟨.v 1, .v 2, .v 3, none⟩) = false := by decide
theorem test_wf_vcmp : Instr.wf (.vcmp .eq .i16 1 (.v 2) (.v 3) none) = false := by decide
theorem test_wf_vint : Instr.wf (.viadd .i64 false ⟨.v 1, .v 2, .v 3, none⟩) = false := by decide
theorem test_wf_vcvt : Instr.wf (.vcvt ⟨.t8, .od, false⟩ .f32 ⟨.v 1, .v 2, none⟩) = false := by decide
theorem test_wf_mand : Instr.wf (.mand true 1 2 (.m 3)) = false := by decide
theorem test_wf_vlane : Instr.wf (.vlane .f32 (.v 1) (.s 2) none) = false := by decide
theorem test_wf_vkeep : Instr.wf (.vkeep .i16 (.v 1) (.v 2)) = false := by decide
theorem test_wf_frng : Instr.wf (.frng .i32 (.v 1) (.v 2) (.s 3) none) = false := by decide
theorem test_wf_fbasis : Instr.wf (.fbasis .tz false .idx ⟨.v 1, .v 2, none⟩) = false := by decide
theorem test_wf_mwld : Instr.wf (.mwld .bf16 true false 5 1 2 0) = false := by decide
theorem test_wf_mfmt : Instr.wf (.mfmt .f32) = false := by decide
theorem test_wf_rows : Instr.wf (.mm ⟨false, 1, .desc 2 3, 0, ⟨63, 1⟩⟩) = false := by decide
theorem test_wf_splgrd : Instr.wf (.splgrd 1 2 0 ⟨31, 1⟩) = false := by decide
theorem test_wf_tsend : Instr.wf (.tsend false (.s 1) (.s 2) 0) = false := by decide
theorem test_wf_tree : Instr.wf (.reduce .and ⟨.f32, .v 1, .v 2, 0, 0, 0⟩) = false := by decide
theorem test_wf_clsord : Instr.wf (.clsord 4 .xyz) = false := by decide
theorem test_wf_xstat : Instr.wf (.xstat true 1 .orders (.s 0)) = false ∧ Instr.wf (.xstat false 1 .orders (.s 3)) = false := by decide
theorem test_wf_qfence : Instr.wf (.qfence 0) = false := by decide

/-! ### One step -/

/-- A stored word is fetched, decoded and issued; its result lands one tick later. -/
theorem test_step_add : stepPend (wordOf 0x01 0 0x1A 5 4 0 16 0) = [(2, .s 5 16)] := by decide
theorem test_step_delay : stepPend (wordOf 0x01 0 0x1A 5 4 0 16 200) = [(201, .s 5 16)] := by decide
theorem test_step_event : (match step { State.reset with agenda := [(0, .dramSensorReading 3 (.temp 341))] } with
    | .next t => (Tbl.find t.dts 3).map (·.st) | _ => none) = some 1 := by decide

/-! ### Worked examples -/

/-- The table of R185. -/
theorem test_add_sat : pend (exec (.add true ⟨.i8, 5, .s 4, .imm 50⟩) (regs [(4, 100)])) = [(1, .s 5 0x7F)] ∧
    pend (exec (.add true ⟨.n8, 5, .s 4, .imm 100⟩) (regs [(4, 200)])) = [(1, .s 5 0xFF)] := by decide
theorem test_div : pend (exec (.div ⟨.i32, 5, .s 4, .reg (.s 6)⟩) (regs [(4, 0xFFFFFFF9), (6, 2)])) =
    [(12, .s 5 0xFFFFFFFFFFFFFFFD)] := by decide
theorem test_rem_zero : pend (exec (.rem ⟨.i32, 5, .s 4, .reg (.s 6)⟩) (regs [(4, 5)])) = [(12, .s 5 5)] := by decide
theorem test_divn_zero : pend (exec (.divn ⟨.n8, 5, .s 4, .imm 0⟩) (regs [(4, 200)])) = [(12, .s 5 0xFF)] := by decide
theorem test_div_low : pend (exec (.div ⟨.i32, 5, .s 4, .imm 0x3FFFF⟩) (regs [(4, 0x80000000)])) =
    [(12, .s 5 0xFFFFFFFF80000000)] := by decide
/-- R186. -/
theorem test_shl : pend (exec (.shl ⟨.i32, 1, .s 2, .imm 35⟩) (regs [(2, 1)])) = [(1, .s 1 8)] := by decide
theorem test_sar : pend (exec (.sar ⟨.n16, 1, .s 2, .imm 1⟩) (regs [(2, 0x8000)])) = [(1, .s 1 0xC000)] := by decide
theorem test_bfi : pend (exec (.bfi 1 (.s 2) (.s 3) (.s 4)) (regs [(2, 0xFF), (3, 0), (4, 60 + 64 * 7)])) =
    [(1, .s 1 0xF000000000000000)] := by decide
theorem test_setx : pend (exec (.setx true 1 (.imm 0x3FFFF)) (st c0)) = [(1, .x 1 0xFFFF)] := by decide
theorem test_pand : pend (exec (.pand true false 4 0 0) (st c0)) = [(1, .p 4 false)] := by decide
theorem test_cmp : pend (exec (.cmp .lt .n32 2 (.s 3) (.imm 1)) (regs [(3, 0xFFFFFFFF00000000)])) = [(1, .p 2 true)] := by decide
/-- The table of R236. -/
theorem test_convert : (convert .bf16 .f32 .ne false 0x3F99999A).bits = 0x3F9A ∧ (convert .bf16 .f32 .od false 0x3F99999A).bits = 0x3F99 ∧
    (convert .a8 .f32 .ne false 0x3F99999A).bits = 0x3A ∧ (convert .a8 .f32 .tz false 0x3F99999A).bits = 0x39 ∧
    (convert .t8 .f32 .ne false 0x3F99999A).bits = 0x02 ∧ (convert .t8 .f32 .tz false 0x3F99999A).bits = 0x03 ∧
    (convert .i8 .f32 .up false 0x3F99999A).bits = 2 ∧ (convert .i8 .f32 .ne false 0x3F99999A).bits = 1 := by decide
theorem test_convert_tie : (convert .t8 .f32 .ne false 0x3F680000).bits = 0x0C := by decide
/-- The groups of R269. -/
theorem test_vkeep : elem 128 4 (keepVec .bf16 (vecOf 16 [0x3F00, 0xC000, 0x3F00, 0, 0x3F80, 0x8000, 0xBF80, 0x3E80,
      0x7FC1, 0x4040, 0x4040, 0x4040, 0x4040, 0, 0, 0])).1 % 2 ^ 32 = 0x16880D08 ∧
    elem 128 0 (keepVec .bf16 (vecOf 16 [0x3F00, 0xC000, 0x3F00, 0, 0x3F80, 0x8000, 0xBF80, 0x3E80,
      0x7FC1, 0x4040, 0x4040, 0x4040, 0x4040, 0, 0, 0])).1 = 0x404040404040 * 2 ^ 80 + 0x7FC0 * 2 ^ 64 + 0xBF803F80C0003F00 := by decide +kernel
/-- R298: the home of 0x000C_A123_4580. -/
theorem test_home : State.reset.homeSlice 0xCA1234580 = 178 := by decide
/-- R330: element 300. -/
theorem test_place : ({ geo := 0x41100000040, fmt := 0x886, str0 := 0x400000004, len := 1024 } : CpRegs).place 300 = (108, 0) := by decide
/-- R398: 13 hops of lateral time and 4 along z. -/
theorem test_route : (State.reset.route 0 (tileOf 3 12 5) (tileOf 14 2 9)).time = 26 ∧
    (State.reset.route 0 (tileOf 3 12 5) (tileOf 14 2 9)).latency 64 = 30 := by decide
/-- R98: the detour of a packet that runs z first. -/
theorem test_detour : ({ State.reset with cores := [(tileOf 11 5 7, { flt := [(0, 0xC88004420000074A)] })] }.route 5
    (tileOf 11 5 6) (tileOf 11 5 9)).time = 7 := by decide
/-- Tile 2,413 of "Coordinates and groupings". -/
theorem test_tile : tileOf 13 6 9 = 2413 ∧ gangOf 2413 = 150 ∧ columnOf 2413 = 109 ∧ quadOf 2413 = 606 ∧ blockOf 2413 = 39 := by decide

/-! ### The hypotheses of the statements are met: decoding, stepping, results -/

/-- A stored word of one transfer-free role. -/
def wAdd : Nat := wordOf 0x01 0 0x1A 5 4 0 16 0
/-- A core whose role is that word. -/
def kAdd : Core := (State.reset.withFetchWord 96 wAdd).core 0
/-- The state that runs it, with nothing on the agenda. -/
def sAdd : State := { st c0 with cores := [(0, kAdd)] }
/-- Whether a tile's word is chosen to issue. -/
def issues (s : State) : Bool := match s.pickTile s.clocked with | some (0, .issue _) => true | _ => false
/-- Whether a meaning or a step goes on. -/
def goesOn (o : Out) : Bool := match o with | .next _ => true | _ => false

theorem witness_EncodeThenDecode : Inst.wf ⟨true, 15, 255, 255, 255, true, .bfx true 63 (.s 63) 63 0⟩ = true ∧
    Instr.isEvent (.bfx true 63 (.s 63) 63 0) = false := by decide
theorem witness_DecodeThenEncode : (decode (BitVec.ofNat 96 (wordOf 0x21 0 1 63 63 0 63 255))).isSome = true := by decide
theorem witness_StepRunsDecoded_word : quiet sAdd.decodeAll.advance ∧ issues sAdd.decodeAll.advance.decodeAll = true := by
  refine ⟨?_, by decide⟩
  intro e h; cases h
theorem witness_StepRunsDecoded_tick : let d := sAdd.decodeAll
    quiet d ∧ d.pickTile d.clocked = none ∧ pickIllegal d.clocked = none ∧
      let a := d.advance.decodeAll
      quiet a ∧ issues a = true := by
  refine ⟨?_, by decide, by decide, ?_, by decide⟩ <;> (intro e h; cases h)
theorem witness_StepRunsDecoded_idle : let d := (st c0).decodeAll
    quiet d ∧ d.pickTile d.clocked = none ∧ pickIllegal d.clocked = none ∧
      let a := d.advance.decodeAll
      quiet a ∧ a.pickTile a.clocked = none ∧ pickIllegal a.clocked = none := by
  refine ⟨?_, by decide, by decide, ?_, by decide, by decide⟩ <;> (intro e h; cases h)
theorem witness_StepRunsDecoded_event : let d := { st c0 with agenda := [(0, .ppsIn)] }.decodeAll
    d.agenda = [(0, .ppsIn)] ∧ 0 ≤ d.tick ∧ d.evFrozen 0 .ppsIn = false ∧ evLoc .ppsIn = none ∧ names .ppsIn .ppsIn := by
  refine ⟨rfl, by decide, by decide, by decide, rfl⟩
theorem witness_StepRunsDecoded_decode : let c := { kAdd.fg with fpc := 4 }
    c.pc < c.fpc ∧ c.fstop = .run ∧ c.ui.going = none ∧ c.pc < c.words ∧
      ((decode (kAdd.wordAt c c.pc)).map fun x => x.isPadding) = some false ∧ c.depth (colOf (kAdd.wordAt c c.pc)) < 16 := by decide
theorem witness_EndOfCode_decode : let c := { c0 with words := 0, fpc := 4, fstop := .run }
    c.pc < c.fpc ∧ c.fstop = .run ∧ c.ui.going = none ∧ c.words ≤ c.pc := by decide
theorem witness_EndOfCode_now : let c := { c0 with fstop := .illegal 7 0 }
    c.running = true ∧ c.q = [] ∧ (∀ r ∈ c.reps, r.left ≠ 0) ∧ c.fstop = .illegal 7 0 := by decide
theorem witness_EndOfCode_step : let d := (st { c0 with words := 0, fpc := 4, fstop := .run }).decodeAll
    quiet d ∧ d.pickTile d.clocked = none ∧ pickIllegal d.clocked = some (0, 0, 0) := by
  refine ⟨?_, by decide, by decide⟩
  intro e h; cases h
theorem witness_EndOfCode_trap : ((st c0).core 0).fg.part = some 0 ∧ ((st c0).core 0).fg.frozen = none ∧
    ((st c0).part 0).st = .active ∧ 16383 < 2 ^ 14 := by decide
theorem witness_MemoryStaysCanonical : Memory.wf State.reset.mem = true ∧ goesOn (step State.reset) = true := by decide
theorem witness_ResultsLand : 0 < (st c0).T + 1 ∧ (∀ e ∈ [(1, 7, Wr.s 1 0)], e.1 = (st c0).T + 1 → e.2.1 ≤ ({ c0 with issueNo := 7 } : Ctx).issueNo) ∧ 6 < 7 ∧ 64 % 64 = 0 ∧ 16 % 16 = 0 ∧ 31 < 32 := by decide
theorem witness_RegisterWordFrame : isRegisterWord (st c0) (.mnot 7 0) ∧ isRegisterWord (st c0) (.frngk (.s 0) (.s 63)) ∧
    goesOn (exec (.mnot 7 0) (st c0)) = true ∧ Memory.wf c0.sp = true ∧ ∀ b ∈ [(0, (7 : Byte))], b.1 ≠ 2097151 := by
  refine ⟨?_, ?_, by decide, by decide, by decide⟩
  · exact Or.inr (Or.inr (Or.inr (Or.inr (Or.inr (Or.inl ⟨_, _, rfl⟩)))))
  · exact Or.inr (Or.inr (Or.inr (Or.inr (Or.inr (Or.inr ⟨_, _, rfl⟩)))))
theorem witness_IntegerWords : Instr.wf (.bfx true 63 (.s 63) 63 0) = true ∧ (intResult (st c0) (.bfx true 63 (.s 63) 63 0)).isSome = true ∧
    Instr.wf (.ldi true .n64 63 0x3FFFFFF) = true ∧ (intResult (st c0) (.ldi true .n64 63 0x3FFFFFF)).isSome = true ∧
    Instr.wf (.divn ⟨.n8, 0, .s 4, .imm 0⟩) = true ∧ (intResult (st c0) (.divn ⟨.n8, 0, .s 4, .imm 0⟩)).isSome = true := by decide
theorem witness_PredicateIndexAndMaskWords : Instr.wf (.cmp .tst .i8 15 (.s 63) (.imm 0x1FFFF)) = true ∧
    (predResult (st c0) (.cmp .tst .i8 15 (.s 63) (.imm 0x1FFFF))).isSome = true ∧ Instr.wf (.setx true 3 (.imm 0x20000)) = true ∧
    (indexResult (st c0) (.setx true 3 (.imm 0x20000))).isSome = true := by decide

/-- A strand whose window is v8 to v15. -/
def sWin : State := st { c0 with vlo := 8, vhi := 15 }
/-- An addition at both ends of that window. -/
def iWin : Instr := .vadd ⟨.f32, .ne, false⟩ ⟨.v 15, .v 8, .v 8, none⟩
theorem witness_VectorWords : ∃ w, vecWord sWin iWin = some w ∧ inWindow sWin w.ops ∧ streamsReady sWin w ∧
    orFlags (raised sWin w) &&& sWin.c.fpEnable = 0 := by
  refine ⟨_, rfl, by unfold inWindow; decide, ⟨by decide, ?_⟩, by decide +kernel⟩
  intro d h; cases h; decide
/-- The same with D one past the window. -/
def iOut : Instr := .vadd ⟨.f32, .ne, false⟩ ⟨.v 16, .v 8, .v 8, none⟩
theorem witness_VectorTraps_bounds : ∃ w o post, vecWord sWin iOut = some w ∧ w.ops = [] ++ o :: post ∧ inWindow sWin [] ∧
    sWin.c.inWindow (sWin.vidx o.1 o.2) = false := by
  refine ⟨_, _, _, rfl, rfl, by unfold inWindow; decide, by decide⟩
/-- An infinity is taken from itself while the invalid flag may trap. -/
def sNv : State := st { c0 with v := [(1, lanes [0x7F800000])], fpst := 0x100000 }
def iNv : Instr := .vsub ⟨.f32, .ne, false⟩ ⟨.v 0, .v 1, .v 1, none⟩
theorem witness_VectorTraps_flag : ∃ w, vecWord sNv iNv = some w ∧ inWindow sNv w.ops ∧ streamsReady sNv w ∧
    orFlags (raised sNv w) &&& sNv.c.fpEnable ≠ 0 := by
  refine ⟨_, rfl, by unfold inWindow; decide, ⟨by decide, ?_⟩, by decide +kernel⟩
  intro d h; cases h; decide
theorem test_fp_trap : (traps (exec iNv sNv)).map (·.1) = [0x18] := by decide +kernel
theorem test_reg_bounds : (traps (exec iOut sWin)).map (·.1) = [0x04] := by decide

/-! ### L column and tags -/

/-- s4 holds the last aligned 8 bytes of the share, s5 its last vector, s6 its first byte past the end, s7 an odd address. -/
def sSp : State := regs [(4, 0x1FFFF8), (5, 0x1FFF80), (6, 0x200000), (7, 0x1FFFF9), (8, 99)]
theorem witness_ScratchpadWords : Ty.isInt .n64 = true ∧ addrS sSp (.s 4) 0 % tySize .n64 = 0 ∧
    addrS sSp (.s 4) 0 + tySize .n64 ≤ sSp.c.share ∧ sSp.c.spBad (addrS sSp (.s 4) 0) (tySize .n64) = false ∧
    writable sSp (.v 255) ∧ readable sSp (.v 255) 2 allLanes ∧ addrV sSp (.s 5) 0 % 16 = 0 ∧ addrV sSp (.s 5) 0 + 128 ≤ sSp.c.share ∧
    (∀ i, i < 32 → (sSp.lanes none).getLsbD i = true → sSp.c.spBad (addrV sSp (.s 5) 0 + 4 * i) 4 = false) := by
  unfold writable readable; decide
theorem witness_ScratchpadWords_flags : orFlags (sSp.c.pushFlags (sSp.vnum (.v 255) 0) (sSp.lanes none)
    (vecBytes (sSp.c.sp.bytes (addrV sSp (.s 5) 0) 128))) &&& sSp.c.fpEnable = 0 := by decide
theorem witness_WordTraps : Ty.isInt .i16 = true ∧ addrS sSp (.s 7) 0 % tySize .i16 ≠ 0 ∧ addrS sSp (.s 6) 0 % tySize .i16 = 0 ∧
    sSp.c.share < addrS sSp (.s 6) 0 + tySize .i16 ∧ addrS sSp (.s 5) 0 % tySize .i16 = 0 := by decide
theorem test_ld_bounds : (traps (exec (.ld .i16 1 (.s 6) 0) sSp)).map (·.1) = [0x0C] := by decide
theorem test_ld_align : (traps (exec (.ld .i16 1 (.s 7) 0) sSp)).map (·.1) = [0x0B] := by decide
/-- Little-endian bytes, sign-extended (R6, R314). -/
theorem test_ld : pend (exec (.ld .i16 1 (.s 0) 4) (st { c0 with sp := [(4, 0x34), (5, 0xFF)] })) = [(3, .s 1 0xFFFFFFFFFFFFFF34)] := by
  decide

/-- A word of a strand's own stream at index 0, and one that a leader has forwarded. -/
def e0 : QEnt := { x := ⟨false, 0, 0, 0, 0, false, .nop⟩ }
def eF : QEnt := { e0 with fwd := true, outcome := some 7 }
/-- A state in which a word is in progress. -/
def inWord (e : QEnt) (s : State) : State := { s with cur := { ent := some e } }
theorem witness_WordTraps_transfer : (inWord e0 sSp).cur.ent = some e0 ∧ (inWord e0 sSp).cur.trapped = false ∧ noRep (inWord e0 sSp) ∧
    ((inWord e0 sSp).sreg 6).toNat = 0x200000 ∧ ¬ inCode (inWord e0 sSp) e0 0x200000 := by
  refine ⟨rfl, rfl, rfl, by decide, by unfold inCode; decide⟩
theorem witness_WordTraps_follower : (inWord eF sSp).cur.ent = some eF ∧ noRep (inWord eF sSp) ∧ ((inWord eF sSp).sreg 8).toNat = 99 ∧
    inCode (inWord eF sSp) eF 99 ∧ eF.fwd = true ∧ eF.outcome ≠ some 99 := by
  refine ⟨rfl, rfl, by decide, by unfold inCode; decide, rfl, by decide⟩
theorem test_ret_code : (traps (exec (.ret false 6) (inWord e0 sSp))).map (·.1) = [0x02] := by decide

/-- Translations of one 64 KiB page for reading and writing are cached. -/
def sTlb : State := { st c0 with
  cores := [(0, { fg := { c0 with s := [(4, 0xFFF8), (5, 0xFF80), (6, 0x1FFF80)] }, tlb := [⟨0, 0, 65536, 0, true⟩] })]
  ptroots := [(0, { en := true })] }
theorem witness_HomeWords : sTlb.c.kind = .elastic ∧ tokFree sTlb 7 ∧ addrS sTlb (.s 4) 0 % tySize .i64 = 0 ∧
    inHand sTlb (addrS sTlb (.s 4) 0) accRead 0xFFF8 ∧ inHand sTlb (addrS sTlb (.s 4) 0) accHomeRead 0xFFF8 ∧
    inHand sTlb (addrS sTlb (.s 4) 0) accHomeWrite 0xFFF8 ∧ writable sTlb (.v 0) ∧ addrG sTlb (.s 5) 0 % 128 = 0 ∧
    inHand sTlb (addrG sTlb (.s 5) 0) accRead 0xFF80 := by
  refine ⟨rfl, rfl, by decide, ⟨by decide, _, rfl, rfl⟩, ⟨by decide, _, rfl, rfl⟩, ⟨by decide, _, rfl, rfl⟩,
    by unfold writable; decide, by decide, ⟨by decide, _, rfl, rfl⟩⟩
theorem witness_HomeWords_atom : (sTlb.src (.s 4) + (0 : BitVec 14).signExtend 64).toNat % tySize .i32 = 0 ∧
    inHand sTlb (sTlb.src (.s 4) + (0 : BitVec 14).signExtend 64).toNat accHomeWrite 0xFFF8 ∧ (sTlb.src (.s 4)).toNat % tySize .n64 = 0 ∧
    inHand sTlb (sTlb.src (.s 4)).toNat accHomeWrite 0xFFF8 := by
  refine ⟨by decide, ⟨by decide, _, rfl, rfl⟩, by decide, ⟨by decide, _, rfl, rfl⟩⟩
theorem witness_BufferedAndRemoteWords : inHand sTlb (addrS sTlb (.s 4) 0) accBuf 0xFFF8 ∧
    inHand sTlb (addrS sTlb (.s 4) 0) accUpd 0xFFF8 ∧ inHand sTlb (addrG sTlb (.s 5) 0) accBuf 0xFF80 ∧ readable sTlb (.v 255) 2 allLanes ∧
    sTlb.lanes none ≠ 0 ∧ ({ sTlb with cores := [(0, { (sTlb.core 0) with fg := { c0 with m := [(3, 0)] } })] }.lanes (some 3)) = 0 ∧
    remoteOk sTlb (addrV sTlb (.s 6) 0) ∧ addrS sTlb (.s 4) 4 % 4 = 0 := by
  refine ⟨⟨by decide, _, rfl, rfl⟩, ⟨by decide, _, rfl, rfl⟩, ⟨by decide, _, rfl, rfl⟩, by unfold readable; decide, by decide,
    by decide, by unfold remoteOk; decide, by decide⟩
theorem witness_BufferedAndRemoteWords_store : (∃ u, buffered sTlb 0xFFF8 (addrBytes 0xFFF8 (leBytes (tySize .i64) 7)) u) ∧
    ∃ u, buffered sTlb 0xFF80 (laneBytes (sTlb.lanes none) 0xFF80 0) u := by
  refine ⟨⟨_, _, rfl, rfl⟩, ⟨_, _, rfl, rfl⟩⟩

/-- Entry 511 of the tag table holds block 1. -/
def sTag : State := st { c0 with s := [(4, 511), (5, 0x1000), (6, 510)], tags := [(511, ⟨true, true, 1⟩)] }
theorem witness_TagWords : (sTag.src (.s 4)).toNat < 512 ∧ (sTag.src (.s 5)).toNat % 4096 = 0 ∧ (sTag.src (.s 5)).toNat < 2 ^ 56 ∧
    (∀ e ∈ sTag.c.tags, e.2.v = true → e.2.blk = (sTag.src (.s 5)).toNat / 4096 → e.1 = (sTag.src (.s 4)).toNat) ∧
    4096 * (sTag.src (.s 4)).toNat + 4096 ≤ sTag.c.share ∧ Tbl.find sTag.c.tags (sTag.src (.s 4)).toNat = some ⟨true, true, 1⟩ ∧
    (sTag.src (.s 6)).toNat < 512 ∧ Tbl.find sTag.c.tags (sTag.src (.s 6)).toNat = none := by decide
theorem test_tlook : pend (exec (.tlook 9 (.s 5)) sTag) = [(2, .s 9 0x101FF)] := by decide

/-! ### K column -/

/-- A word in progress at index 5 of a role of 100 words; s3 holds the last index, s4 holds 1, s5 holds 0, s6 0xFFFF. -/
def e5 : QEnt := { e0 with pc := 5 }
def sK : State := inWord e5 (regs [(3, 99), (4, 1), (6, 0xFFFF), (7, 65535), (8, 2)])
theorem witness_Transfers : ownWord sK e5 ∧ noRep sK ∧ inCode sK e5 99 ∧ inCode sK e5 6 ∧ inCode sK e5 0 ∧
    (e5.pc : Int) + (94 : BitVec 18).toInt = 99 ∧ (e5.pc : Int) + (0x3FFFB : BitVec 18).toInt = 0 ∧ (sK.sreg 3).toNat = 99 ∧
    (sK.sreg 3 + (0x3FF9D : BitVec 18).signExtend 64).toNat = 0 ∧ sK.sreg 3 ≠ 1 ∧ sK.sreg 4 = 1 ∧ 6 = e5.pc + 1 := by
  unfold ownWord noRep inCode; refine ⟨⟨rfl, rfl, rfl⟩, rfl, ?_⟩; decide
/-- A loop whose counter starts at 0 branches (R143). -/
theorem test_loop_zero : pend (exec (.loop false 9 0x3FFFB) sK) = [(1, .s 9 0xFFFFFFFFFFFFFFFF)] := by decide
theorem test_call : pend (exec (.call false 9 94) sK) = [(1, .s 9 6)] ∧ (after (exec (.call false 9 94) sK)).pc = 99 := by decide
theorem witness_NopTrapJoinHalt : (sK.part sK.here.part).st = .active ∧ sK.c.part.isSome = true ∧ sK.c.frozen = none ∧ noUi sK ∧
    ownWord sK e5 ∧ sK.c.kind = .elastic ∧ noRep sK ∧ (sK.sreg 6).toNat % 65536 = 0xFFFF ∧ sK.followers sK.me sK.here.part = [] := by
  refine ⟨rfl, rfl, rfl, rfl, ⟨rfl, rfl, rfl⟩, rfl, rfl, by decide, by decide⟩
theorem witness_NopTrapJoinHalt_cell : let s := { sK with cells := [(1, ⟨1, 2, false⟩)] }
    (s.sreg 4).toNat % 65536 = 1 ∧ 1 ≠ 0xFFFF ∧ Tbl.find s.cells 1 = some ⟨1, 2, false⟩ ∧ (⟨1, 2, false⟩ : Cell).region = s.c.region ∧ (⟨1, 2, false⟩ : Cell).trig = false := by
  decide
theorem test_trap : traps (exec (.trap 0x3FFFF) sK) = [(0x0D, 0x3FFFF)] := by decide
/-- Token 0 is pending. -/
def sTok : State := st { c0 with k := [(0, .pending)], s := [(4, 0x1000000000)] }
theorem witness_SleepAndWaitt : sTok.c.kind = .elastic ∧ noUi sTok ∧ sTok.c.sleepHolds 2 sTok.T = true ∧
    sTok.c.sleepHolds 1 sTok.T = false ∧ sTok.c.ui.going = none ∧ (sTok.src (.s 4)).toNat ≤ sTok.tmNow + 2 ^ 36 ∧
    (sTok.src (.s 0)).toNat ≤ sTok.tmNow ∧ tokFree sTok 1 ∧ sTok.tmNow < (sTok.src (.s 4)).toNat := by
  refine ⟨rfl, rfl, ?_⟩; unfold tokFree; decide
theorem witness_PhaseAndBar : noUi sTok ∧ noRep sTok ∧ sTok.isSuperstep sTok.c.region .strand sTok.me = true ∧
    (st c0).isSuperstep 1 .tile 0 = true ∧ (st c0).c.noneBound (st c0).T = true ∧ sTok.c.fol.armed = none ∧ sTok.c.kind = .elastic ∧
    tokFree sTok 7 := by
  refine ⟨rfl, rfl, ?_⟩; unfold tokFree; decide
theorem witness_Rfork : ownWord sK e5 ∧ sK.c.kind = .elastic ∧ noUi sK ∧ noRep sK ∧ (9 : BitVec 6) ≠ 1 ∧ (9 : BitVec 6) ≠ 2 ∧
    (sK.sreg 8).toNat ≠ 0 ∧ (sK.sreg 5).toNat = 0 ∧ 0 < (sK.sreg 8).toNat ∧ (sK.sreg 8).toNat ≤ (sK.sreg 8).toNat ∧
    (e5.pc : Int) + (94 : BitVec 18).toInt = 99 ∧ 99 < sK.c.words ∧ sK.recs.length ≤ 65536 := by
  refine ⟨⟨rfl, rfl, rfl⟩, rfl, rfl, rfl, ?_⟩; decide
theorem witness_Rfork_cell : sK.freeCell (tileZ sK.me) = some 0 := by decide
/-- s4 holds 2^32 - 1 children, s5 an aligned array. -/
def sSpawn : State := regs [(4, 0xFFFFFFFF), (5, 0xFFFFFFFFFFFF00)]
theorem witness_SpawnTriggerStepdl : sSpawn.c.kind = .elastic ∧ noUi sSpawn ∧ noRep sSpawn ∧ (sSpawn.sreg 5).toNat % 256 = 0 ∧
    tokFree sSpawn 7 ∧ (sSpawn.sreg 0).toNat = 0 ∧ 0 < (sSpawn.sreg 4).toNat ∧ (sSpawn.sreg 4).toNat < 2 ^ 32 ∧
    sSpawn.c.batch.active = false ∧ (st { c0 with trig := true }).c.trig = true ∧ sSpawn.c.trig = false := by
  refine ⟨rfl, rfl, rfl, ?_⟩; unfold tokFree; decide
/-- A timetable of two records. -/
def sRec : State :=
  { regs [(4, 0x100020000), (5, 0x100000000)] with
    images := [(1, { roles := [{ role := 0, recs := [⟨100, 0, 0, 1⟩, ⟨7, 2, 2, 3⟩] }] })]
    regions := [(1, { st := .running, fileId := 1 })] }
theorem witness_SpawnTriggerStepdl_budget : (sRec.src (.s 4)).toNat / 2 ^ 32 ≠ 0 ∧
    (sRec.src (.s 4)).toNat % 65536 + (sRec.src (.s 4)).toNat / 65536 % 65536 ≤ sRec.roleRecs.length ∧
    (∀ p ∈ recsUsed sRec (sRec.src (.s 4)), p.kind = 2 → p.ticks ≠ 0) ∧ budgetOf sRec (sRec.src (.s 4)) 0x3FFFF = 107 + 0x3FFFF ∧
    budgetOf sRec (sRec.src (.s 4)) 0x3FFFF < 2 ^ 48 ∧ (sRec.src (.s 5)).toNat / 65536 % 65536 = 0 := by decide
/-- A region of two tiles, with a strand on the first. -/
def sFol : State := { st c0 with regions := [(1, { eff := { ex := 2, spad := 32 }, st := .running, started := true })] }
theorem witness_FollowDetachRep : noUi sFol ∧ (sFol.region sFol.c.region).eff.inBox (neighbour sFol.me .xp) = true ∧
    sFol.harvested (neighbour sFol.me .xp) = false ∧
    (let t := sFol.updC fun c => { c with fol := { c.fol with armed := some .xp, armAt := sFol.cur.ent.map fun e => (sFol.tick, e) } }
     t.chainHas sFol.here.part sFol.me 17 sFol.me = false ∧ t.followedBy sFol.here.part sFol.c.region (neighbour sFol.me .xp) ≤ 5 ∧
       ∀ l ∈ t.strands sFol.c.region, t.chainHops sFol.here.part 17 l.tile ≤ 15) := by
  refine ⟨rfl, ?_⟩; decide
theorem witness_FollowDetachRep_rep : noRep sK ∧ (match RepCount.imm 4095 with | .imm c => c.toNat | .reg b => (sK.sreg b).toNat) = 4095 ∧
    ((sK.cur.ent.map (·.fwd)).getD false) = false ∧ (((inWord eF sK).cur.ent.map (·.fwd)).getD false) = true ∧
    sK.c.fol.cur = none ∧ (st { c0 with fol := { cur := some .xm } }).c.fol.cur ≠ none := by
  refine ⟨rfl, ?_⟩; decide
/-- A handler runs; the partition of the second is privileged. -/
def sUi : State := st { c0 with ui := { inh := true, ret := 42 } }
def sPriv : State := { st c0 with parts := [(0, { root := 1, priv := true })] }
theorem witness_SystemWords : sUi.c.kind = .elastic ∧ sUi.c.ui.inh = true ∧ (st c0).c.ui.inh = false ∧
    (st { c0 with kind := .compute }).c.kind ≠ .elastic ∧ tokFree sUi 0 ∧ (sSpawn.src (.s 0)).toNat % 65536 = 0 ∧
    (sK.src (.s 8)).toNat ≠ 0 ∧ (sK.src (.s 8)).toNat ≤ 2 ^ 40 ∧ (sK.src (.s 0)).toNat < 2 ^ 56 ∧ csrDevice 0x008 = true ∧
    ((st c0).part (st c0).here.part).priv = false ∧ csrDevice 0x004 = false ∧ (sPriv.part sPriv.here.part).priv = true ∧
    (0x004 : BitVec 12) ≠ 0x009 ∧ (st c0).c.uivecOk 99 = true ∧
    (∀ e ∈ ((st c0).core 0).tlb, (st c0).sameInst .device l0 0 = true → e.part ≠ 0 ∨ 2 ^ 56 ≤ e.va ∨ e.va + e.size = 0) := by
  refine ⟨rfl, rfl, rfl, ?_⟩; unfold tokFree; decide
theorem test_uiret : (after (exec .uiret sUi)).pc = 42 ∧ (after (exec .uiret sUi)).ui.inh = false := by decide
theorem test_csr_privilege : (traps (exec (.csrw 0 (.s 0) 0x008) (st c0))).map (·.1) = [0x03] := by decide
theorem test_csrr_fpst : pend (exec (.csrr 5 0x004) (st { c0 with fpst := 0x100010 })) = [(1, .s 5 0x100010)] := by decide

/-! ### M column and splines -/

/-- The descriptor in s10 and s11 is 0, s12 and s13 hold the last scales and counters; the front plane holds TS8 weights. -/
def cArr : Ctx := { c0 with s := [(10, 0), (12, 0x1FFFC0), (13, 0x1FFF80)], arr64 := { front := { ty := 0xB } } }
def sArr : State := st cArr
theorem witness_ArrayWords : noUi sArr ∧ tokFree sArr 1 ∧ sArr.c.arr64.held false < 8 ∧ sArr.c.arr64.held true < 8 := by
  unfold noUi tokFree; decide
theorem witness_ArrayWords_mm : ∃ w, arrWord sArr (.mm ⟨true, 2, .desc 10 11, 1, ⟨63, 0⟩⟩) = some w ∧ w.good := by
  refine ⟨_, rfl, ⟨by decide, by decide, by decide, by decide, by decide⟩, by decide⟩
theorem witness_ArrayWords_mwld : ∃ w, arrWord sArr (.mwld .t8 true false 12 10 11 1) = some w ∧ w.good := by
  refine ⟨_, rfl, ⟨by decide, by decide, by decide, by decide, by decide⟩, fun _ => by decide⟩
theorem witness_ArrayWords_macrd : ∃ w, arrWord sArr (.macrd .f32 .ne false ⟨7, 10, 11, 1, ⟨0, 63⟩⟩) = some w ∧ w.good := by
  refine ⟨_, rfl, by decide, by decide, by decide, by decide, by decide⟩
theorem witness_ArrayWords_macclr : ∃ w, arrWord sArr (.macclr 7 ⟨0, 63⟩) = some w ∧ w.good := ⟨_, rfl, trivial⟩
theorem witness_ArrayWords_splst : ∃ w, arrWord sArr (.splst false 1 13 1) = some w ∧ w.good := ⟨_, rfl, by decide, by decide⟩
theorem witness_ArrayWords_splld : ∃ w, arrWord sArr (.splld .bf16 true true 0 10 11 1) = some w ∧ w.good := by
  refine ⟨_, rfl, ⟨by decide, by decide, by decide, by decide, by decide⟩, fun h => by cases h⟩
/-- A stream operand of mm: v7 is bound to read AF8. -/
def sStrm : State := st { cArr with strm := [(7, { st := .bound, rfmt := .a8, mfmt := .a8, cnt0 := 1 })] }
theorem witness_ArrayWords_stream : ∃ w, arrWord sStrm (.mm ⟨true, 2, .strm 7, 1, ⟨63, 0⟩⟩) = some w ∧ w.good := by
  refine ⟨_, rfl, ⟨by decide, by decide, by decide⟩, by decide⟩
/-- mmrot in a compute phase. -/
def sRot : State := st { cArr with kind := .compute }
theorem witness_ArrayWords_mmrot : ∃ w, arrWord sRot (.mmrot false ⟨2, 10, 11, 1, ⟨63, 0⟩⟩) = some w ∧ w.good := by
  refine ⟨_, rfl, ⟨by decide, by decide, by decide, by decide, by decide, by decide⟩, by decide⟩
/-- A box that covers a gang. -/
def sGang : State := { sArr with regions := [(1, { eff := { ex := 16, spad := 32 }, st := .running, started := true })] }
theorem witness_ArrayWords_mmg : ∃ w, arrWord sGang (.mmg ⟨true, 2, .desc 10 11, 1, ⟨63, 0⟩⟩) = some w ∧ w.good := by
  refine ⟨_, rfl, ⟨by decide, fun _ => ⟨by decide, by decide, by decide, by decide, by decide⟩, nofun⟩, by decide⟩
/-- A spline plane of wide cells, with a grid of 29 intervals. -/
def sSpl : State := { st { cArr with arr64 := { front := { ty := 0xB, spl := true, cmp := true } } } with
  gangs := [(0, { g := 29, inv := 0x3F800000 })]
  regions := [(1, { eff := { ex := 16, spad := 32 }, st := .running, started := true })] }
theorem witness_ArrayWords_splev : (∃ w, arrWord sSpl (.splev ⟨true, 2, .desc 10 11, 1, ⟨63, 0⟩⟩) = some w ∧ w.good) ∧
    ∃ w, arrWord sSpl (.splevG ⟨true, 2, .desc 10 11, 1, ⟨63, 0⟩⟩) = some w ∧ w.good := by
  refine ⟨⟨_, rfl, ⟨by decide, by decide, by decide, by decide, by decide⟩, by unfold splineOk; decide⟩,
    ⟨_, rfl, ⟨by decide, fun _ => ⟨by decide, by decide, by decide, by decide, by decide⟩, nofun⟩, by unfold splineOk; decide⟩⟩
theorem witness_ArrayWords_splbd : (∃ w, arrWord sSpl (.splbd false ⟨2, 10, 11, 1, ⟨63, 0⟩⟩) = some w ∧ w.good) ∧
    (∃ w, arrWord sSpl (.splgr ⟨2, 10, 11, 1, ⟨63, 0⟩⟩) = some w ∧ w.good) ∧
    ∃ w, arrWord sSpl (.splgrd 10 11 1 ⟨31, 0⟩) = some w ∧ w.good := by
  refine ⟨⟨_, rfl, ⟨by decide, by decide, by decide, by decide, by decide⟩, by unfold splineOk; decide⟩,
    ⟨_, rfl, ⟨by decide, by decide, by decide, by decide, by decide⟩, by unfold splineOk; decide⟩,
    ⟨_, rfl, by decide, by decide, by decide, by decide, by decide⟩⟩
/-- A grid that can be refined once. -/
def sRef : State := { sSpl with gangs := [(0, { g := 14, inv := 0x3F800000 })] }
theorem witness_ArrayWords_grefine : ∃ w, arrWord sRef (.grefine 1) = some w ∧ w.good := by
  refine ⟨_, rfl, by unfold splineOk; decide, by decide⟩
theorem witness_ArrayWords_knot : let s := regs [(4, 0x0101), (5, 29 + 256 * 2), (6, 0x7F7FFFFF * 2 ^ 32 + 0x7F7FFFFF)]
    noUi s ∧ (s.sreg 6).toNat = 0x7F7FFFFF + 2 ^ 32 * 0x7F7FFFFF ∧ (s.sreg 5).toNat = 29 + 256 * 2 ∧ 0x7F7FFFFF < 2 ^ 32 ∧
      0x7F7FFFFF / 2 ^ 23 % 256 ≠ 255 ∧ 0 < 0x7F7FFFFF ∧ 0x7F7FFFFF < 255 * 2 ^ 23 := by
  refine ⟨rfl, ?_⟩; decide

/-! ### X column and trees -/

/-- s4 names tile 0 of this device and partition with tag 9, s5 is the buffer of the last 4,096 bytes of the share, s6 is a
remote address of tile 1 with the same offset. -/
def msgRegs : Tbl Word := [(4, 0x900000000), (5, 0x10001FF000), (6, 0x11FF000), (7, 63)]
def sMsg : State := regs msgRegs
theorem witness_SendAndReceive : sMsg.c.kind = .elastic ∧ bufFits sMsg (sMsg.src (.s 5)) 0 ∧ tokFree sMsg 7 ∧
    destOk sMsg (sMsg.src (.s 4)) ∧ sMsg.c.freeHandle = some 0 ∧ noUi sMsg ∧ ∀ e ∈ sMsg.c.recvT, e.2.hidden = false := by
  refine ⟨rfl, by unfold bufFits; decide, rfl, by unfold destOk; decide, by decide, rfl, by decide⟩
/-- A message with a tag, of no bytes left to read. -/
def msg (tag : Nat) : Msg :=
  { srcDev := 0, srcTile := 3, srcPart := 0, cls := 2, order := 0, rorder := 0, dev := 0, part := 0, tile := 0, tag := tag, len := 16
    addr := 0, bytes := List.replicate 16 7, pz := [], tok := 1, pc := 5, sent := 0 }
/-- The overflow area holds a message that the criteria do not meet and one that they do. -/
def sOvf : State := st { c0 with ovf := [msg 1, msg 9] }
theorem witness_SendAndReceive_overflow : (sOvf.core sOvf.me).held = [] ∧ (∀ x ∈ [msg 1], meets 0x900000003 x = false) ∧
    sOvf.c.part.isSome = true ∧ sOvf.c.ovf = [msg 1] ++ msg 9 :: [] ∧ meets 0x900000003 (msg 9) = true ∧
    (st { c0 with ovf := [msg 1] }).c.ovf = [msg 1] := by decide
/-- An exchange phase in a region of two tiles. -/
def sExc : State := { st { c0 with s := msgRegs, kind := .exchange } with
  regions := [(1, { eff := { ex := 2, spad := 32 }, st := .running, started := true })] }
theorem witness_TimedSend : let r := (sExc.src (.s 6)).toNat
    sExc.c.kind = .exchange ∧ bufFits sExc (sExc.src (.s 5)) (r % 2 ^ 21) ∧ r / 2 ^ 21 % 8 = 0 ∧ r / 2 ^ 36 = 0 ∧
      sExc.harvested (r / 2 ^ 24 % 4096) = false ∧ (sExc.region sExc.c.region).eff.inBox (r / 2 ^ 24 % 4096) = true ∧
      (sExc.route (sExc.c.orderOf 3) sExc.me (r / 2 ^ 24 % 4096)).bad = none := by
  refine ⟨rfl, by unfold bufFits; decide, ?_⟩; decide
/-- A packet in each stage, due on tick 0. -/
def pkt (stage : Nat) : TPkt :=
  { src := 0, dst := 0, part := 0, addr := 0, off := 0, len := 16, bytes := [], pz := [], due := 0, head := 2, land := 3, stage := stage }
theorem witness_TimedSend_packet : (pkt 0).stage = 0 ∧ (pkt 1).stage = 1 ∧ (sExc.ctx ⟨(pkt 1).dst, (pkt 1).part⟩).live = true ∧
    (sExc.ctx l0).kind = .exchange ∧ (sMsg.ctx l0).kind ≠ .exchange ∧ (pkt 2).stage = 2 ∧ (sExc.ctx l0).tt sExc.tick ≤ (pkt 2).due ∧
    (pkt 2).due < ({ sExc with tick := 1 }.ctx l0).tt 1 := by decide
theorem test_exchange_late : (match exec (.timedPacketArrival (pkt 2)) { sExc with tick := 1 } with
    | .next t => (t.ctx l0).stops.map (·.code) | _ => []) = [0x06] := by decide
/-- Handle 63 is posted, and handle 0 has been completed by a message. -/
def sRv : State := st { c0 with s := msgRegs, recvT := [(0, { st := .complete, len := 16, src := 3, tag := 9 }), (63, { st := .posted })]
                                ovf := [msg 9] }
theorem witness_ReceiveTableWords : sRv.c.kind = .elastic ∧ (sRv.src (.s 0)).toNat = 0 ∧ (sRv.c.handle 0).st ≠ .posted ∧
    (sRv.src (.s 7)).toNat = 63 ∧ 63 < 64 ∧ (sRv.c.handle 63).st = .posted ∧ bufFits sRv (sRv.src (.s 5)) 0 ∧ sMsg.c.ovf = [] ∧
    sRv.c.ovf = msg 9 :: [] ∧ (sRv.c.handle 0).st = .complete := by
  unfold bufFits; decide
theorem test_probe : pend (exec (.probe true 8 (.s 4)) { sRv with cores := sRv.cores }) = [(2, .s 8 0xFFFFFFFFFFFFFFFF)] := by decide
theorem test_ovfpop_empty : pend (exec (.ovfpop 8 (.s 5)) sMsg) = [(2, .s 8 0)] := by decide

/-- The root of a slot with a child to the east. -/
def cTree : Ctx := { c0 with trees := [(15, { kids := 2, up := 6 })], s := [(4, 0x206), (5, 7), (6, 0x001), (7, 0x3F06)] }
def sTree : State := { st cTree with regions := [(1, { eff := { ex := 16, ey := 16, ez := 16, spad := 32 }, st := .running, started := true })] }
theorem witness_TreeWords : sTree.c.kind = .elastic ∧ treeFree sTree 15 ∧ tokFree sTree 7 ∧ sTree.c.inWindow (sTree.vidx (.v 255) 0) = true ∧
    treeReady sTree ⟨.f32, .v 255, .v 255, 0, 15, 7⟩ (.reduce .add .f32) ∧ treeReady sTree ⟨.f32, .v 255, .v 255, 0, 15, 7⟩ (.bcast .f32) ∧ sTree.c.canWrite (sTree.vnum (.v 255) 0) = .go ∧ noUi sTree := by
  refine ⟨rfl, by unfold treeFree; decide, rfl, by decide, by unfold treeReady; decide, by unfold treeReady; decide, by decide, rfl⟩
theorem witness_TreeWords_treecfg : (sTree.src (.s 4)).toNat = 6 + 256 * 2 ∧ (sTree.src (.s 5)).toNat = 7 + 256 * 0 ∧
    (sTree.src (.s 6)).toNat = 1 + 256 * 0 ∧ (sTree.src (.s 7)).toNat = 6 + 256 * 63 ∧
    (∀ o ∈ sTree.c.treeList (0 : BitVec 4).toNat, o.own = false) ∧
    (∀ d ∈ [Dir.xm, .xp, .ym, .yp, .zm, .zp], (sTree.region sTree.c.region).eff.inBox (neighbour sTree.me d) = true ∧
      sTree.harvested (neighbour sTree.me d) = false) ∧ (Tbl.get 0 sTree.dv.ptree 0).getLsbD 63 = false := by decide
theorem witness_TreeWords_issue : sTree.c.part.isSome = true ∧ kidPorts (sTree.c.tree 15).kids ≠ [] ∧ isBcast TreeKind.xbar = false ∧
    sTree.c.treeList 15 = [] := by decide

/-! ### C column and streams -/

/-- A local copy of one element of 4 bytes, from the share's first to its last bytes; and the example of R330. -/
def cpLoc : CpRegs := { dst := 0x1FFFFC, len := 0x0001000100010001, fmt := 0x880 }
def cpEx : CpRegs :=
  { src := 0x40000000, dst := 0x10000, len := 0x0001000100010400, str0 := 0x400000004, geo := 0x41100000040, fmt := 0x886 }
def sCp (cp : CpRegs) : State := { st { c0 with cp := cp } with
  regions := [(1, { eff := { ox := 4, oy := 8, oz := 2, ex := 2, ey := 2, spad := 2 }, st := .running, started := true })] }
theorem witness_CopyWords : copyOk (st { c0 with cp := cpLoc }) ∧ copyOk (sCp cpEx) ∧ tokFree (sCp cpEx) 7 ∧
    (((sCp cpEx).c.queue 3).filter Xfer.stands).length < 8 := by
  unfold copyOk tokFree; decide
/-- A transfer under way with one report to come, at the head of queue 0, and one that waits in queue 1. -/
def xAct : Xfer := { cp := cpLoc, id := 7, tok := 1, nt := false, region := 1, act := true, next := 1, out := 1, landed := 1 }
def xWait : Xfer := { cp := cpLoc, id := 8, tok := 2, nt := false, region := 1, seq := 1 }
def sX : State := st { c0 with cq := [(0, [xAct]), (1, [xWait])], s := [(4, 7), (5, 8), (6, 9)] }
theorem witness_CopyWords_cancel : (sX.src (.s 4)).toNat / 65536 = sX.me ∧ sX.c.findXfer (sX.src (.s 6)).toNat = none ∧
    sX.c.findXfer (sX.src (.s 4)).toNat = some (0, xAct) ∧ xAct.act = true ∧ xAct.cancelled = false ∧ xAct.out ≠ 0 ∧
    sX.c.findXfer (sX.src (.s 5)).toNat = some (1, xWait) ∧ xWait.act = false ∧
    ((List.range 4).filter fun i => (8 : BitVec 4).getLsbD i).length ≤ 1 ∧ 2 ≤ ((List.range 4).filter fun i => (9 : BitVec 4).getLsbD i).length := by
  decide
theorem test_cstat : pend (exec (.cstat 9 (.s 4)) sX) = [(2, .s 9 0x100000002)] := by decide
/-- A stream record of one element at address 0, and slots in each state. -/
def sStr : State := st { c0 with
  sp := [(12, 1), (20, 1), (28, 1), (32, 0x80), (33, 8)]
  strm := [(1, { st := .ready }), (2, { st := .bound }), (3, { st := .bound, dir := true }), (4, { st := .done })
           , (5, { st := .done, dir := true }), (6, { st := .ready, dir := true })]
  pushes := [{ slot := 3, cfg := {}, idx := 0, q := 1 }] }
theorem witness_StreamWords : slotAt sStr 0 0 0 ∧ slotAt sStr 7 1 7 ∧ (sStr.src (.s 0)).toNat = 0 ∧ 0 % 64 = 0 ∧ 0 + 64 ≤ sStr.c.share ∧
    sStr.c.bound 0 = false ∧ slotLegal (fun i => sStr.c.sp.nat (0 + i) 8) = true ∧
    (slotOf fun i => sStr.c.sp.nat (0 + i) 8).aligned = true ∧ (slotOf fun i => sStr.c.sp.nat (0 + i) 8).inShare sStr.c.share = true := by
  unfold slotAt; decide
theorem witness_StreamWords_states : (sStr.c.slot 1).st = .ready ∧ (sStr.c.slot 1).st ≠ .bound ∧ (sStr.c.slot 2).st = .bound ∧
    (sStr.c.slot 2).dir = false ∧ (sStr.c.slot 3).st = .bound ∧ (sStr.c.slot 3).dir = true ∧ sStr.c.unlanded 3 ≠ 0 ∧ tokFree sStr 7 ∧
    (sStr.c.slot 4).st = .done ∧ (sStr.c.slot 4).dir = false ∧ (sStr.c.slot 5).st = .done ∧ (sStr.c.slot 5).dir = true ∧
    (sStr.c.slot 6).st = .ready ∧ (sStr.c.slot 6).dir = true ∧ sStr.c.unlanded 6 = 0 ∧
    ∀ e ∈ sStr.agenda, e.2 ≠ .streamVectorReady sStr.here 2 := by
  unfold tokFree; decide

/-! ### Events of strands -/

/-- A follower, a strand whose rep has one reissue to make, and one to which an event is being delivered. -/
def sFw : State := st { c0 with fol := { cur := some .xm } }
def rep1 : Rep := { rid := 1, strides := 0, count := 1, at_ := 0, left := 0, caps := [(e0, 1)], j := 0, slip := 0 }
def sRep : State := st { c0 with reps := [rep1] }
def sGo : State := st { c0 with ui := { going := some (3, 9), entry := 50 } }
theorem witness_IssueEvents : (sFw.ctx l0).fol.cur.isSome = true ∧ (sFw.ctx l0).live = true ∧
    (decode (BitVec.ofNat 96 wAdd)).isSome = true ∧ ((sRep.ctx l0).reps.find? fun r => r.rid == 1) = some rep1 ∧
    (sRep.ctx l0).ui.inh = false ∧ rep1.count ≤ rep1.j + 1 ∧ ({ rep1 with count := 2 } : Rep).j + 1 < 2 ∧
    ((st { c0 with reps := [rep1], ui := { inh := true } }).ctx l0).ui.inh = true ∧ Tbl.wf 0 (sGo.ctx l0).ui.hs = true ∧
    (sGo.ctx l0).ui.going = some (3, 9) ∧ (sGo.ctx l0).running = true ∧ (sGo.ctx l0).q = [] ∧ (sGo.ctx l0).kind = .elastic ∧
    (sGo.ctx l0).block = .none ∧ sGo.inFg l0 = true := by decide
/-- An arrival at a boundary of the strand, whose lines have been accepted; one at a bar. -/
def arr0 (done : Bool) : Arr :=
  { sc := .region, kind := .compute, step := true, at_ := 0, pub := 1, pubDone := done, pubAt := 0, tok := none, pc := 5 }
def sArrive (done : Bool) : State := st { c0 with arr := some (arr0 done), bars := [arr0 done], block := .boundary }
theorem witness_ReleaseEvents : (sArrive true).mayRelease false 1 .region 1 = true ∧
    (∀ l ∈ (sArrive true).members 1 .region 1, (sArrive true).followPcBad l = false) ∧
    (sArrive false).mayRelease false 1 .region 1 = false ∧ (sArrive true).mayRelease true 1 .region 1 = true ∧
    (sArrive false).mayRelease true 1 .region 1 = false ∧ (sArrive true).inFg l0 = true ∧ ((sArrive true).part 0).priv = false ∧
    ((sArrive true).ctx l0).ui.en = 0 ∧ ((sArrive true).ctx l0).bars = arr0 true :: [] ∧ (arr0 true).tok = none := by decide
/-- A split bar's arrival; and two strands whose phase closes at different words, of which the second is to follow the first. -/
def sSplit : State := st { c0 with bars := [{ arr0 true with tok := some 7 }] }
def sDiffer : State :=
  { st c0 with
    cores := [(0, { fg := { c0 with arr := some (arr0 true) } }),
      (1, { fg := { c0 with arr := some { arr0 true with pc := 6 }, fol := { armed := some .xm } } })]
    regions := [(1, { eff := { ex := 2, spad := 32 }, st := .running, started := true })] }
theorem witness_ReleaseEvents_others : sSplit.inFg l0 = true ∧ (sSplit.ctx l0).bars = { arr0 true with tok := some 7 } :: [] ∧
    (∃ l ∈ sDiffer.members 1 .region 1, sDiffer.followPcBad l = true) ∧ sDiffer.mayRelease false 1 .region 1 = false := by decide
theorem witness_ReleaseEvents_back : let s : State := st { c0 with arr := some { arr0 true with ent := some e0 } }
    s.inFg l0 = true ∧ (s.ctx l0).frozen = none ∧ (s.ctx l0).arr = some { arr0 true with ent := some e0 } ∧ e0.fwd = false := by decide
/-- Join cells 0 (count 2), 1 (count 1) and 4095 (a trigger cell of count 3). -/
def sCell : State := { st c0 with cells := [(0, ⟨1, 2, false⟩), (1, ⟨1, 1, true⟩), (4095, ⟨1, 3, true⟩)] }
theorem witness_JoinAndWaitEvents : Tbl.find sCell.cells 0 = some ⟨1, 2, false⟩ ∧ sCell.firstArrival l0 0 = l0 ∧
    Tbl.find sCell.cells 4095 = some ⟨1, 3, true⟩ ∧ (⟨1, 3, true⟩ : Cell).count ≠ 1 ∧ 0 < (⟨1, 3, true⟩ : Cell).count ∧
    Tbl.find sCell.cells 1 = some ⟨1, 1, true⟩ ∧ (sCell.region 1).fired = false := by decide
/-- A strand that waits for the result of its join, having triggered; one asleep on token 0; one that waits for a time. -/
def sLeave : State := st { c0 with block := .leave (some 0) 2 0 5, trig := true, fol := { join := some (e0, some 0, none) } }
def sAsleep (t : Tok) : State := st { c0 with block := .sleep 1 5, k := [(0, t)] }
theorem witness_JoinAndWaitEvents_waits : sLeave.inFg l0 = true ∧ (sLeave.ctx l0).block = .leave (some 0) 2 0 5 ∧
    (sLeave.ctx l0).fol.join = some (e0, some 0, none) ∧ (sLeave.ctx l0).ui.going = none ∧ (sLeave.ctx l0).ui.v = false ∧
    (sLeave.ctx l0).fol.cur = none ∧ ((st { c0 with block := .leave none 0 0 5 }).ctx l0).block = .leave none 0 0 5 ∧
    sLeave.followers l0.tile l0.part = [] ∧ (sLeave.ctx l0).trig = true ∧ ((sAsleep .unbound).ctx l0).block = .sleep 1 5 ∧
    ((sAsleep .unbound).ctx l0).sleepHolds 1 0 = true ∧ ((sAsleep .pending).ctx l0).sleepHolds 1 0 = false ∧
    ((st { c0 with block := .waitt 7 5 }).ctx l0).block = .waitt 7 5 ∧ runs sLeave l0 ∧ (sLeave.ctx l0).live = true ∧ (sLeave.ctx ⟨1, 0⟩).live = false := by
  unfold runs; decide

/-! ### Events of memory -/

/-- A home request to address 0, whose line is in its slice in the first state, missing in the second, and in the third in a
stack that is blocked. -/
def hreq (op : HomeOp) : HomeReq := { loc := l0, tok := some 1, va := 0, pa := 0, op := op, pc := 5 }
def sHit : State := (st c0).sliceTouch 0
def sMiss : State := { st c0 with missQ := [hreq (.ldrm .i32 .none)] }
def sHot : State := { st c0 with dts := [(dtIndex 0, { st := 3, valid := true, temp := 421 })] }
theorem witness_HomeEvents : (st c0).classHeld ((st c0).homeTile 0) 0 = false ∧ hitNow sHit 0 ∧ isHome 0 = true ∧ (st c0).sliceHit 0 = false ∧ (st c0).lineWaits 0 = false ∧
    (st c0).dramBlocked 0 = false ∧ sMiss.lineWaits 0 = true ∧ sHot.dramBlocked 0 = true := by
  unfold hitNow; decide
/-- Memory holds 5 at address 0. -/
def sMem : State := { st c0 with mem := [(0, 5)] }
theorem witness_HomeEvents_ops : sMem.linePoison 0 = false ∧ (hreq (.strm .i64 7)).op = .strm .i64 7 ∧
    (hreq (.atom .add .i32 1 .none)).op = .atom .add .i32 1 .none ∧ (hreq (.cas .i32 5 6 .none)).op = .cas .i32 5 6 .none ∧
    sMem.mem.nat 0 (tySize .i32) = 5 ∧ sMem.mem.nat 0 (tySize .i32) ≠ 4 ∧ (hreq (.read 128 [] .none)).op = .read 128 [] .none ∧
    (hreq (.ldrm .i32 .none)).op = .ldrm .i32 .none ∧ (hreq (.write [(0, 1)] 0)).op = .write [(0, 1)] 0 := by decide
/-- The old value is added to, in memory (R319). -/
theorem test_atom : (sMem.serve (hreq (.atom .add .i32 0xFFFFFFFF .none))).mem = [(0, 4)] := by decide
theorem test_cas : (sMem.serve (hreq (.cas .i32 5 0 .none))).mem = [] := by decide
def hrep (ls : Option (Bool × Nat × Nat)) : HomeRep := { q := hreq (.strm .i32 0), wr := [], lastseq := ls, poisoned := false, err := false }
def remReq (store : Option Vec) : RemReq := { loc := l0, tok := 1, target := 0, off := 0, store := store, mask := allLanes, dest := 0, pc := 5 }
theorem witness_ReplyAndErrorEvents : (∀ t < 2, (st c0).classHeld t 0 = false ∧ (st c0).classHeld t 1 = false) ∧
    (hrep none).err = false ∧ (hrep none).lastseq = none ∧ ({ hrep none with err := true } : HomeRep).err = true ∧
    (hrep (some (true, 178, 1))).lastseq = some (true, 178, 1) ∧ (st c0).quadAwake (remReq none).target = true ∧
    State.reset.quadAwake 4095 = false ∧ (remReq (some 0)).store = some 0 ∧ (remReq none).store = none ∧ (st c0).inFg l0 = true ∧
    ((st c0).ctx l0).pushes = [] := by decide +kernel
/-- A translation waits for a page table whose line is poisoned in no stack; one whose root is in a stack that is blocked. -/
def sWalk (st3 : Nat) : State :=
  { st { c0 with walk := some (0, none) } with
    ptroots := [(0, { en := true, root := 2 ^ 29 })], dts := [(dtIndex (2 ^ 40), { st := st3, valid := true, temp := 421 })] }
theorem witness_ReplyAndErrorEvents_walk : (sWalk 0).xlWaits l0 0 = false ∧ (sWalk 0).inFg l0 = true ∧
    ((sWalk 0).ctx l0).walk = some (0, none) ∧ (sWalk 3).xlWaits l0 0 = true := by decide +kernel
/-! ### Sensors, copies and streams -/

theorem witness_SensorEvents : ({ fail := true } : TsReg).fail = true ∧ ({} : TsReg).masked = false ∧ (∀ q : Int, Reading.temp 499 = .temp q → q < 500) ∧ 3 ≤ 3 ∧ (331 : Int) < 332 ∧ (420 : Int) < 421 ∧ (340 : Int) ≤ 340 ∧ (371 : Int) < 372 ∧ (380 : Int) ≤ 380 ∧
    (411 : Int) < 412 ∧ (332 : Int) ≤ 332 ∧ (339 : Int) < 340 ∧ (372 : Int) ≤ 372 ∧ (379 : Int) < 380 ∧ (412 : Int) ≤ 412 ∧ (420 : Int) ≤ 420 ∧
    (464 : Int) ≤ 464 ∧ (499 : Int) < 500 := by
  refine ⟨rfl, rfl, fun q h => by cases h; decide, ?_⟩; decide
/-- R309: 85 degrees is the first refresh state; it is kept at 83 and left below. -/
theorem test_refresh : refreshNext 0 339 = 0 ∧ refreshNext 0 340 = 1 ∧ refreshNext 1 332 = 1 ∧ refreshNext 1 331 = 0 ∧ refreshNext 3 411 = 2 := by
  decide
/-- R221: trip at 116 degrees, hot kept at 100. -/
theorem test_thermal : (({} : TsReg).convert (.temp 463)).trip = false ∧ (({} : TsReg).convert (.temp 464)).trip = true ∧
    (({ hot := true } : TsReg).convert (.temp 400)).hot = true ∧ (({ hot := true } : TsReg).convert (.temp 399)).hot = false := by decide
/-- The core rails are off, with every sensor below 90 degrees, or one not. -/
def sTherm (q : Int) : State := { State.reset with ts := [(0, { temp := q, valid := true })], dv := { power := { thermtrip := true } } }
theorem witness_SensorEvents_rails : (sTherm 359).dv.power.thermtrip = true ∧ (∀ e ∈ (sTherm 359).ts, e.2.masked = true ∨ (e.2.fail = false ∧ e.2.temp < 360)) ∧
    State.reset.dv.power.thermtrip = false ∧ ∃ e ∈ (sTherm 360).ts, e.2.masked = false ∧ 360 ≤ e.2.temp := by decide

/-- One local copy that waits in queue 3; one global copy under way in queue 0. -/
def sQ3 : State := st { c0 with cq := [(3, [xWait])] }
def xGlob : Xfer := { cp := { cpEx with fmt := 0x88A }, id := 7, tok := 1, nt := false, region := 1, act := true }
def sGlob (t : Nat) : State := { st { c0 with cq := [(0, [xGlob])] } with tick := t }
theorem witness_CopyAndStreamEvents_start : sQ3.inFg l0 = true ∧ 3 < 4 ∧ (sQ3.ctx l0).cq = [(3, [xWait])] ∧ xWait.fin = none ∧
    xWait.act = false ∧ xWait.cp.isLocal = true ∧ xGlob.cp.isLocal = false ∧
    ({ xWait with fin := some 0 } : Xfer).nt = false ∧ (sQ3.ctx l0).qfence = [] := by decide
theorem witness_CopyAndStreamEvents_slot : (sGlob 1).tick % 16 ≠ tileX l0.tile ∧ sQ3.tick % 16 = tileX l0.tile ∧
    nextTurn sQ3 l0 = none ∧ nextTurn (sGlob 16) l0 = some 0 ∧
    (sGlob 16).tick % 16 = tileX l0.tile ∧ ((sGlob 16).ctx l0).queue 0 = [xGlob] ∧ xGlob.moving = true ∧ xGlob.cp.isLocal = false ∧
    (sGlob 16).inFg l0 = true := by decide
/-- A local copy under way; transfers with two reports to come, and with the last one. -/
def xOut (n : Nat) : Xfer := { xAct with out := n }
theorem witness_CopyAndStreamEvents_reports : ({ xWait with act := true } : Xfer).moving = true ∧
    ((st { c0 with cq := [(0, [xOut 2])] }).ctx l0).queue 0 = [xOut 2] ∧ (xOut 2).out ≠ 1 ∧ 0 < (xOut 2).out ∧ (xOut 1).out = 1 ∧
    (xOut 1).stands = true ∧ (xOut 1).cancelled = false ∧ 0 ≤ (xOut 1).next ∧ (xOut 1).next = (xOut 1).cp.total := by decide +kernel
theorem witness_CopyAndStreamEvents_streams : let p : Push := { slot := 7, cfg := { st := .bound, dir := true }, idx := 0, q := 1, data := some (0, 0, allLanes), w := some 1 }
    let s := st { c0 with strm := [(0, { st := .bound, cnt0 := 1, cnt1 := 1, cnt2 := 1 })], pushes := [{ p with slot := 6 }, { p with toks := [3] }, p] }
    ((s.landAt l0).ctx l0).slot 0 = { st := .bound, cnt0 := 1, cnt1 := 1, cnt2 := 1 } ∧
      (((s.landAt l0).ctx l0).slot 0).moved < (((s.landAt l0).ctx l0).slot 0).total ∧
      (s.ctx l0).pushes = [{ p with slot := 6 }] ++ { p with toks := [3] } :: [p] ∧ (∀ x ∈ [{ p with slot := 6 }], x.slot ≠ 7 ∨ x.w = none) ∧
      p.slot = 7 ∧ p.w.isSome = true ∧ p.data = some (0, 0, allLanes) ∧ p.toks = [] ∧ p.cur = true := by decide +kernel
/-! ### Array operations -/

/-- A row store under way, which needs nothing from memory; an operation of mm by stream, or by descriptor. -/
def opRd (start : Option Nat) : ArrOp :=
  { i := .macrd .f32 .ne false ⟨7, 10, 11, 1, ⟨0, 63⟩⟩, id := 3, rows := 2, r0 := 62, d := 7, start := start }
def mmI : Instr := .mm ⟨true, 2, .strm 7, 1, ⟨63, 0⟩⟩
def opMm (strm : Option Nat) : ArrOp := { i := mmI, id := 3, rows := 64, start := some 0, strm := strm }
def sOps (ops : List ArrOp) (t : Nat) : State := { st { c0 with arr64 := { front := { ty := 0xB }, ops := ops } } with tick := t }
theorem witness_ArrayOperationEvents_start : (((st c0).laneTurn l0 true).ctx l0).arr64.head true = none ∧
    (let u := (sOps [opRd none] 1).laneTurn l0 false
     (u.ctx l0).arr64.head false = some (opRd none) ∧ isGang (opRd none).i = false ∧ (u.ctx l0).arr64.startAt (opRd none) = some 1 ∧
       1 ≤ ((sOps [opRd none] 1).ctx l0).now 1 ∧ (opRd none).notBefore ≤ u.tick) ∧
    (let u := (sOps [{ opRd none with notBefore := 9 }] 1).laneTurn l0 false
     (u.ctx l0).arr64.head false = some { opRd none with notBefore := 9 } ∧ u.tick < 9) ∧
    ((sOps [opRd none] 1).ctx l0).arr64.ops = [opRd none] ∧ actsAtOnce (opRd none).i = false ∧ isRot (opRd none).i = false ∧
    isSpline (opRd none).i = false ∧ ((sOps [opRd none] 1).ctx l0).now 1 ≤ 2 ∧ (sOps [opRd none] 1).inFg l0 = true := by decide +kernel
/-- An operation of mmg that the barrier has released on all sixteen tiles. -/
def opG : ArrOp := { i := .mmg ⟨true, 2, .strm 7, 1, ⟨63, 0⟩⟩, id := 3, rows := 64, rel := some 0 }
def sG : State :=
  { st c0 with cores := (List.range 16).map fun t => (t, { fg := { c0 with arr64 := { front := { ty := 0xB }, ops := [opG] } } }), tick := 1 }
theorem witness_ArrayOperationEvents_gang : let u := sG.laneTurn l0 false
    (u.ctx l0).arr64.head false = some opG ∧ isGang opG.i = true ∧ u.gangStartAt (gangOf l0.tile) l0.part = some 1 ∧ tileX l0.tile = 0 ∧
      opG.notBefore ≤ u.tick := by decide +kernel
theorem witness_ArrayOperationEvents_wait : let s := { sOps [opMm (some 7)] 1 with
      cores := [(0, { fg := { c0 with arr64 := { ops := [opMm (some 7)] }, strm := [(7, { st := .bound, cnt0 := 1, cnt1 := 1, cnt2 := 1 })] } })] }
    (s.ctx l0).arr64.op 3 = some (opMm (some 7)) ∧ s.rowRead l0 (opMm (some 7)) 0 = .wait := ⟨by decide, rfl⟩
theorem witness_ArrayOperationEvents_trap : let s := sOps [opMm (some 7)] 1
    (s.ctx l0).arr64.op 3 = some (opMm (some 7)) ∧ ∃ u, s.rowRead l0 (opMm (some 7)) 63 = .trap u cIllegalOperand :=
  ⟨by decide, _, rfl⟩
theorem witness_ArrayOperationEvents_row : let s := sOps [opRd (some 1)] 1
    (s.ctx l0).arr64.op 3 = some (opRd (some 1)) ∧ isGang (opRd (some 1)).i = false ∧
    (∀ t b c sc x y k, (opRd (some 1)).i ≠ .mwld t b c sc x y k ∧ (opRd (some 1)).i ≠ .splld t b c sc x y k) ∧
    ∃ u vals bytes, s.rowRead l0 (opRd (some 1)) 1 = .row u vals bytes :=
  ⟨by decide, rfl, fun _ _ _ _ _ _ _ => ⟨nofun, nofun⟩, _, _, _, rfl⟩
/-- A load of a TS8 plane from address 0, whose lane has been free since tick 1. -/
def iLd : Instr := .mwld .t8 true false 12 10 11 1
def opLd : ArrOp := { i := iLd, id := 3, load := true, rows := 64, rp2 := 1, start := some 0, free := some 1 }
theorem witness_ArrayOperationEvents_load : let s := sOps [opLd] 1
    (s.ctx l0).arr64.op 3 = some opLd ∧ 62 + 1 < opLd.rows ∧ (∃ u vals bytes, s.rowRead l0 opLd 62 = .row u vals bytes) ∧
    isRefine opLd.i = false ∧ opLd.taken = false ∧ 1 ≤ 1 ∧ isRefine (.grefine 1) = true :=
  ⟨by decide, by decide, ⟨_, _, _, rfl⟩, rfl, rfl, by decide, rfl⟩
theorem witness_ArrayOperationEvents_read : let s := sOps [opMm none] 1
    (opMm none).i = mmI ∧ (opMm none).strm = none ∧
      ((s.landAt l0).ctx l0).spBad ((opMm none).rowAddr 63) (64 * tySize (opMm none).aty) = false ∧ (s.ctx l0).arr64.ops = [opMm none] ∧
      s.inFg l0 = true := ⟨rfl, rfl, by decide, rfl, by decide⟩
theorem witness_ArrayOperationEvents_land : onlyOp (sOps [opMm none] 1) l0 3 (opMm none) ∧ 63 ∉ (opMm none).landed ∧
    (sOps [opMm none] 1).inFg l0 = true ∧ ((sOps [opRd none] 1).ctx l0).arr64.ops = [opRd none] ∧
    ((sOps [{ opMm none with i := .macwr .f32 ⟨7, 10, 11, 1, ⟨0, 63⟩⟩ }] 1).ctx l0).arr64.ops =
      [{ opMm none with i := .macwr .f32 ⟨7, 10, 11, 1, ⟨0, 63⟩⟩ }] := by
  unfold onlyOp; decide
/-- One result row of a 1-wide product: the row's first element times the weight 2, added to 3 (R347, R361). -/
theorem test_mmRow : (mmRow { ty := 0x9, cols := [[0x4000 + 2]] } .bf16 [0x4040] [0x40400000]).headD 0 = 0x41100000 := by decide +kernel

/-- Arrivals of partition 0 at the barrier of gang 0, n of them, the last on tick 7. -/
def arrsOf (n : Nat) : List (Nat × Nat × Nat × Nat × Nat) := (List.range n).map fun t => (0, t, 0, 0, 7)
def sBar (n tick : Nat) (k : PKind) : State := { st { c0 with kind := k } with gangs := [(0, { arrs := arrsOf n })], tick := tick }
theorem witness_GangAndRotationEvents_arrs : (((sBar 15 8 .compute).gang 0).arrs.filter fun a => a.1 == 0) = (0, 0, 0, 0, 7) :: (arrsOf 15).tail ∧
    (((sBar 15 8 .elastic).gang 0).arrs.filter fun a => a.1 == 0) = (0, 0, 0, 0, 7) :: (arrsOf 15).tail ∧
    (((sBar 16 11 .elastic).gang 0).arrs.filter fun a => a.1 == 0) = (0, 0, 0, 0, 7) :: (arrsOf 16).tail := ⟨rfl, rfl, rfl⟩
theorem witness_GangAndRotationEvents :
    (arrsOf 15).tail.length < 15 ∧ ((sBar 15 8 .compute).ctx l0).kind ≠ .elastic ∧
    ((sBar 15 8 .elastic).ctx l0).kind = .elastic ∧
    (arrsOf 16).tail.length = 15 ∧
    (arrsOf 16).foldl (fun m a => max m a.2.2.2.2) 0 + 4 ≤ ((sBar 16 11 .elastic).ctx l0).now 11 := by decide +kernel
theorem witness_GangAndRotationEvents_pass : let s := st { c0 with block := .mmg, arr64 := { ops := [{ opG with rel := none }] } }
    s.inFg l0 = true ∧ (s.ctx l0).arr64.ops = [{ opG with rel := none }] ∧ isGang opG.i = true ∧ opG.inLane = true ∧ opG.start = none ∧
      (s.ctx l0).block = .mmg := by decide
/-- A rotation that started on tick 0 and has received some of what its neighbours send; a back plane of a type. -/
def opRot (got : List Nat) (bad : Bool) : ArrOp :=
  { i := .mmrot false ⟨2, 10, 11, 1, ⟨63, 0⟩⟩, id := 3, rows := 64, start := some 0, got := got, bad := bad }
def sRotate (o : ArrOp) (ty t : Nat) : State :=
  { st { c0 with arr64 := { front := { ty := 0xB }, back := { ty := ty }, ops := [o] } } with tick := t }
theorem witness_GangAndRotationEvents_rot : let s := sRotate (opRot [0, 64] false)
    ((s 0xB 2).ctx l0).arr64.rot = some (opRot [0, 64] false) ∧ 63 ∉ (opRot [0, 64] false).got ∧ 64 + 63 ∉ (opRot [0, 64] false).got ∧
    128 ∉ (opRot [0, 64] false).got ∧ (opRot [0, 64] false).owed ((s 0xB 2).engNow l0) = [0, 64] ∧
    (∃ k ∈ (opRot [0, 64] false).owed ((s 0xB 3).engNow l0), k ∉ (opRot [0, 64] false).got) ∧ runs (s 0xB 3) l0 ∧
    ((s 0xB 66).ctx l0).arr64.op 3 = some (opRot [0, 64] false) ∧ ((s 0xB 66).ctx l0).arr64.back.fmt = ((s 0xB 66).ctx l0).arr64.front.fmt ∧
    ((s 0x9 66).ctx l0).arr64.back.fmt ≠ ((s 0x9 66).ctx l0).arr64.front.fmt ∧ (opRot [] true).bad = true ∧
    ((st c0).ctx l0).arr64.rot = none ∧ ((st c0).ctx l0).live = true ∧ runs (st c0) l0 := by
  unfold runs; decide +kernel

/-! ### Networks -/

/-- A strand that receives; its overflow area is empty, has 16 entries, or its table a posted handle. -/
def crit9 : Word := 0x900000003
def sPost : State := st { c0 with recvT := [(63, { st := .posted, crit := crit9 })] }
def sFull : State := st { c0 with ovf := List.replicate 16 (msg 1) }
theorem witness_MessageEvents : let m := msg 9
    let half := { m with bytes := [] }
    half.bytes.length < half.len ∧ half.srcDev = (st c0).dv.cfg.devno ∧ ({ m with dev := 1 } : Msg).dev ≠ (st c0).dv.cfg.devno ∧
    (st c0).zheostPort (m.srcTile ^^^ m.tile) = some 3 ∧ (m.srcDev = (st c0).dv.cfg.devno → m.dev = (st c0).dv.cfg.devno) ∧
    (st c0).classHeld 0 1 = false ∧ m.part = l0.part ∧ m.bytes.length = m.len ∧ State.reset.partLive m.part = false ∧
    (st c0).partLive m.part = true ∧ ((st c0).core m.tile).held = [] ∧ (st c0).receives ⟨m.tile, m.part⟩ = true ∧
    ((st c0).offer ⟨m.tile, m.part⟩ m).isSome = true ∧ sFull.partLive m.part = true ∧ (sFull.core m.tile).held = [] ∧
    sFull.receives ⟨m.tile, m.part⟩ = true ∧ sFull.offer ⟨m.tile, m.part⟩ m = none ∧
    ((sPost.ctx ⟨m.tile, m.part⟩).recvT.filter fun e => e.2.st == .posted && meets e.2.crit m) = [(63, { st := .posted, crit := crit9 })] ∧
    (((st c0).ctx ⟨m.tile, m.part⟩).recvT.filter fun e => e.2.st == .posted && meets e.2.crit m) = [] ∧
    ((st c0).ctx ⟨m.tile, m.part⟩).ovf.length < 16 ∧ ((st c0).ctx ⟨m.tile, m.part⟩).ovfBytes + ovfSize m ≤ 32768 ∧
    16 ≤ (sFull.ctx ⟨m.tile, m.part⟩).ovf.length := by decide +kernel
def sLand (h : Handle) : State := st { c0 with recvT := [(5, h)], block := .recv 5 0 5 false }
theorem witness_MessageEvents_land : let a : Handle := { st := .landing }
    let b : Handle := { st := .landing, tok := some 7 }
    let c : Handle := { st := .complete, hidden := true }
    ((sLand a).ctx l0).handle 5 = a ∧ ((sLand b).ctx l0).handle 5 = b ∧ ((sLand c).ctx l0).handle 5 = c ∧
    ((sLand c).ctx l0).block = .recv 5 0 5 false ∧ ((st c0).core l0.tile).held = [] := by decide
theorem witness_MessageEvents_held : let s : State := { st c0 with cores := [(0, { fg := c0, held := [msg 9] })] }
    (s.core l0.tile).held = [msg 9] ∧ (msg 9).part = l0.part ∧ s.partLive l0.part = true ∧ s.receives l0 = true ∧
    (s.offer l0 (msg 9)).isSome = true := by decide +kernel

/-- A slot whose member is not the root and has a child by a port, with its own operation on it. -/
def tOp : TreeOpSt := { k := 1, own := true, kind := .xbar, pc := 5 }
def sTr (ops : List TreeOpSt) : State := st { c0 with trees := [(15, { kids := 1, up := 1, n := 1 })], treeOps := [(15, ops)] }
theorem witness_TreeEvents : (((sTr []).ctx l0).tree 15).up ≠ 7 ∧ ((((sTr []).ctx l0).tree 15).kids / 2 ^ portNo .xm % 2 = 1 ∨
      (((sTr []).ctx l0).tree 15).kids / 2 ^ portNo .xp % 2 = 1) ∧ (((sTr []).ctx l0).tree 15).kids / 2 ^ portNo .zp % 2 = 0 ∧
    ownOp (sTr [tOp]) l0 15 1 tOp ∧ TreeKind.reduce .add .f32 ≠ tOp.kind ∧ runs (sTr [tOp]) l0 ∧
    ((sTr []).ctx l0).treeOp 15 1 = none ∧ ((sTr [tOp]).ctx l0).treeList 15 = [tOp] ∧
    isBcast tOp.kind = false ∧ ∀ x ∈ tOp.peersIn, x.1 ≠ 3 := by
  unfold ownOp runs; decide +kernel
theorem witness_RouterEvents : 4095 ∉ (st c0).dv.failed ∧ 4095 < 4096 ∧ 11 ∉ (st c0).dv.portsDown ∧ ((st c0).part 0).st = .active := by decide
/-- Tile 0 has failed; partition 0 stands there, halted with cause 0, with a checkpoint or without. -/
def sFail (code : Nat) (ck : Option Nat) : State :=
  { st c0 with parts := [(0, { root := 1, st := .halted, cause := some (0, 0, 0, code), ckpt := ck })], dv := { failed := [0, 9] } }
theorem witness_RouterEvents_struck : 0 ∈ (sFail 0 none).dv.failed ∧ 9 ∈ (sFail 0 none).dv.failed ∧
    (sFail 0 none).parts = [(0, (sFail 0 none).part 0)] ∧ ((sFail 0 none).region 1).eff.inBox 0 = true ∧
    ¬ (((sFail 0 none).region 1).eff.inBox 9 = true ∨ 0 ∈ ([] : List Nat)) ∧ ((sFail 0 none).part 0).st = .halted ∧
    ((sFail 0 none).part 0).code = 0 ∧ ((sFail 4 none).part 0).code ≠ 0 ∧ ((sFail 0 (some 0)).part 0).ckpt ≠ none ∧
    ((sFail 0 none).part 0).ckpt = none := by decide +kernel
/-! ### The dispenser -/

/-- A role of one word, in the image cache. -/
def ro0 : Role := { role := 0, code := [0] }
/-- A root region of partition 0 on tile 0, at priority 0, with a start record; no strand has started. -/
def dStart : DRec := { kind := .start, region := 1, part := 0, lvl := 1, seq := 0 }
def gQ : Region := { eff := { spad := 32, strt := true }, rcb := 256, rcbPa := 256 }
def sPlace : State :=
  { parts := [(0, { root := 1 })], regions := [(1, gQ)], images := [(0, { roles := [ro0], nroles := 1 })], recs := [dStart], recSeq := 1 }
/-- The same with a strand of partition 5 in the foreground of tile 0, of priority n. -/
def sTaken (prio : Nat) : State :=
  { sPlace with
    parts := [(0, { root := 1 }), (5, { root := 2 })]
    cores := [(0, { fg := { c0 with part := some 5, region := 2 } })]
    regions := [(1, { gQ with eff := { gQ.eff with prio := 3 } }), (2, { part := 5, st := .running, eff := { spad := 32, prio := prio } })]
    recs := [{ dStart with lvl := 4 }] }
theorem witness_PlacingEvents_start : sPlace.startRec 1 = some dStart ∧ sPlace.startReady dStart = .go ∧
    (sTaken 2).startRec 1 = some { dStart with lvl := 4 } ∧ (sTaken 2).startReady { dStart with lvl := 4 } = .pre [5] false ∧
    (∀ e ∈ (sTaken 2).agenda, e.2 ≠ .preemptDelayExpiry 1) ∧ (sTaken 3).startRec 1 = some { dStart with lvl := 4 } ∧
    (sTaken 3).startReady { dStart with lvl := 4 } = .wait ∧ State.reset.gov.gate = false ∧
    (∃ e ∈ ({ sTaken 2 with agenda := [(9, .preemptDelayExpiry 1)] } : State).agenda, e.2 = .preemptDelayExpiry 1) ∧
    ({ sTaken 2 with agenda := [(9, .preemptDelayExpiry 1)] } : State).startReady { dStart with lvl := 4 } = .pre [5] false := by
  decide +kernel
/-- The same where what stands in the way is ballast. -/
def sYld : State :=
  { sTaken 2 with regions := [(1, { gQ with eff := { gQ.eff with prio := 3 } }), (2, { part := 5, st := .running, eff := { spad := 32, lvl := true } })] }
theorem witness_PlacingEvents_yield : (sYld.startRec 1 = some { dStart with lvl := 4 }) ∧
    sYld.startReady { dStart with lvl := 4 } = .pre [5] true := by decide +kernel
/-- The same record as a ballast record. -/
def sBal : State := { sPlace with gov := { gate := true }, dv := { cfg := { balen := true } }, recs := [{ dStart with lvl := 0 }] }
theorem witness_PlacingEvents_ballast : sBal.startRec 1 = some { dStart with lvl := 0 } ∧ sBal.startReady { dStart with lvl := 0 } = .go ∧
    sBal.gov.gate = true ∧ sBal.dv.cfg.balen = true ∧ (sPlace.gov.gate = false ∨ sPlace.dv.cfg.balen = false) := by decide +kernel
/-- A task record of a running region, and a slot that is to start a strand. -/
def go0 : Start := { region := 1, pc := 99, s1 := 7, s2 := 8, dreg := 63, cell := 4095 }
def dTask : DRec := { kind := .task go0, region := 1, part := 0, lvl := 1, seq := 0 }
def sTask : State := { sPlace with regions := [(1, { gQ with st := .running, started := true })], recs := [dTask] }
def sRecruit : State := { st { c0 with live := false, starting := true, s := [(4, 9)] } with images := sPlace.images }
theorem witness_PlacingEvents_tasks : (sTask.recs.find? fun d => d.region == 1 && isTask d) = some dTask ∧ dTask.kind = .task go0 ∧
    dTask.region = 1 ∧ (sTask.part dTask.part).st = .active ∧ (dTask.lvl ≠ 0 ∨ sTask.ballastOpen = true) ∧ (sTask.busySlots 1).length < (sTask.region 1).eff.tiles ∧
    taskSlots sTask dTask = 0 :: [] ∧ (sRecruit.ctx ⟨0, (sRecruit.region go0.region).part⟩).starting = true ∧ sRecruit.quadAwake 0 = true ∧
    sRecruit.inFg ⟨0, (sRecruit.region go0.region).part⟩ = true ∧ go0.dreg ≠ 1 ∧ go0.dreg ≠ 2 ∧
    (sTask.ctx ⟨0, (sTask.region go0.region).part⟩).starting = false ∧ sRecruit.takenBy 0 0 = none ∧
    ({ sRecruit with quads := [] } : State).quadAwake 0 = false := by decide +kernel

/-- Partition 0 swaps out on tile 0, drained or with a line still to be accepted, for partition 5, which is active. -/
def sSwap (c : Ctx) : State :=
  { st c with parts := [(0, { root := 1, st := .swapping, incoming := some 5 }), (5, { root := 2 })] }
theorem witness_SwapEvents_exchange : (sSwap { c0 with pubs := [(1, 1)] }).drained 0 = false ∧ (sSwap c0).drained 0 = true ∧
    ((sSwap c0).part 0).st = .swapping ∧ ((sSwap c0).part 5).st = .active ∧ 0 ≠ 5 ∧ ((st c0).part 0).st = .active := by decide +kernel
theorem witness_SwapEvents_delay : ((sTaken 2).toPlace.find? fun d => d.region == 1 && (d.kind == .start || d.kind == .resume)) =
      some { dStart with lvl := 4 } ∧ (sTaken 2).startReady { dStart with lvl := 4 } = .pre [5] false ∧
    (sTaken 2).canPreempt { dStart with lvl := 4 } [5] = true ∧ ((sTaken 2).part 5).st = .active ∧ dStart.kind = .start ∧
    (sPlace.toPlace.find? fun d => d.region == 1 && (d.kind == .start || d.kind == .resume)) = some dStart ∧
    sPlace.startReady dStart = .go ∧ (sTaken 3).startReady { dStart with lvl := 4 } = .wait := by decide +kernel
/-- The same with both banks taken by others. -/
def sTaken2 : State :=
  { sTaken 2 with cores := [(0, { fg := { c0 with part := some 5, region := 2 }, bg := { c0 with part := some 6 } })] }
theorem witness_SwapEvents_banks : (sTaken2.toPlace.find? fun d => d.region == 1 && (d.kind == .start || d.kind == .resume)) =
      some { dStart with lvl := 4 } ∧ sTaken2.startReady { dStart with lvl := 4 } = .pre [5] false ∧
    sTaken2.canPreempt { dStart with lvl := 4 } [5] = false := by decide +kernel
/-- Partition 0 is swapped out: in the shadow bank of tile 0, or spilled with a resume record. -/
def dRes : DRec := { kind := .resume, region := 1, part := 0, lvl := 1, seq := 0 }
def sOut (spilled : Bool) : State :=
  { st c0 with
    cores := [(0, if spilled then { spill := some c0 } else { bg := c0 })], parts := [(0, { root := 1, st := .swapped })], recs := [dRes] }
/-- Both banks of the tile are taken by others. -/
def sNoBank : State :=
  { sOut true with cores := [(0, { fg := { c0 with part := some 5 }, bg := { c0 with part := some 6 }, spill := some c0 })] }
theorem witness_SwapEvents_spill : ((sOut false).core 0).bg.part = some 0 ∧ ((sOut false).part 0).st = .swapped ∧
    ((sOut false).core 0).spill = none ∧ ((sOut true).toPlace.find? fun d => d.kind == RKind.resume && d.part == 0) = some dRes ∧
    (sOut true).resumeReady dRes = .go ∧ (sNoBank.toPlace.find? fun d => d.kind == RKind.resume && d.part == 0) = some dRes ∧
    sNoBank.resumeReady dRes = .wait ∧ (∃ l ∈ sNoBank.placesOf 0, (sNoBank.spilled l).isSome = true ∧ ¬ (sNoBank.bankOk l.tile 0 = true)) ∧
    (∀ l ∈ (sOut true).placesOf 0, ((sOut true).spilled l).isSome = true → (sOut true).bankOk l.tile 0 = true ∧
      ((sOut true).reloadCore 0 (giveWay (sOut true) 0) l.tile).isSome = true) ∧ (∀ l ∈ (sOut true).placesOf 0, (sOut true).quadAwake l.tile = true) ∧
    (∃ l ∈ ({ sOut true with quads := [] } : State).placesOf 0, ({ sOut true with quads := [] } : State).quadAwake l.tile = false) := by
  decide +kernel
/-- A region of two tiles that loads an image of two chunks. -/
def ro2 : Role := { ro0 with code := List.replicate 11 0 }
def sLoad (loaded : List Nat) : State :=
  { st c0 with
    images := [(0, { roles := [ro2], nroles := 1 })]
    regions := [(1, { gQ with loading := 1, loaded := loaded, eff := { gQ.eff with ex := 2, tiles := 2 } })] }
theorem witness_LoadingEvents : (sLoad []).roleOf 1 = some ro2 ∧ ((sLoad []).region 1).alive = true ∧ ((sLoad []).region 1).loading ≠ 0 ∧
    ((sLoad []).region 1).eff.tilesOf.all ((sLoad []).boxTileFree 1) = false ∧ ((sLoad []).region 1).eff.tilesOf.all (sLoad []).quadAwake = true ∧
    (({ sLoad [] with quads := [] } : State).region 1).eff.tilesOf.all ({ sLoad [] with quads := [] } : State).quadAwake = false ∧
    ((sLoad []).legRoute { order := 0, src := none, dst := some 0, bytes := 128 }).bad = none ∧
    ((sLoad []).legRoute { order := 0, src := some 0, dst := some 1, bytes := 128 }).bad = none ∧ 0 + 1 < ro2.chunks ∧ 1 + 1 = ro2.chunks ∧
    ro2.forwards ((sLoad []).region 1).eff 0 = [.xp] ∧ ro2.forwards ((sLoad []).region 1).eff 1 = [] ∧ runs (sLoad []) ⟨0, 0⟩ ∧
    0 ∉ ((sLoad []).region 1).loaded ∧ ((sLoad []).region 1).loaded.length + 1 < 2 ∧ 2 ≤ ((sLoad [1]).region 1).loaded.length + 1 ∧
    (((sLoad [1]).region 1).eff.startTiles.all fun t => (sLoad [1]).fgReady ⟨t, ((sLoad [1]).region 1).part⟩) = true := by
  unfold runs; decide +kernel
/-! ### Queues and launches -/

/-- A queue pair that polls; an entry is ready, with room for its completion and without. -/
def sQp (tail : Nat) : State := { dv := { qps := [(0, { en := true, next := 17, ready := true, tail := tail })] } }
theorem witness_QueueEvents : (sQp 14).polls 0 = true ∧ State.reset.polls 0 = false ∧ ((sQp 14).qp 0).ready = true ∧
    (((sQp 14).qp 0).tail - ((sQp 14).qp 0).head) + ((sQp 14).qp 0).owed + 2 ≤ ringSize ((sQp 14).qp 0).clsize ∧
    (sQp 14).recs.length < 65536 ∧
    ringSize ((sQp 15).qp 0).clsize < (((sQp 15).qp 0).tail - ((sQp 15).qp 0).head) + ((sQp 15).qp 0).owed + 2 := by decide

/-- The RCB of a root region at 0x1000 with the file at 0x10000, which the image cache holds (R14, R52). -/
def imgF : Image := { pa := 0x10000, len := 160, sig := List.replicate 96 0, roles := [ro0], nroles := 1 }
def word8 (a v : Nat) : Mem := ((addrBytes a (leBytes 8 v)).filter fun e => e.2 != 0)
def memL (ovr : Nat) : Mem :=
  word8 0x1000 (2 ^ 48 + ovr * 2 ^ 32) ++ word8 0x1010 (2 ^ 32 + 2 ^ 37 + 2 ^ 42) ++ word8 0x1018 0x10000 ++ word8 0x1020 (2 ^ 32 + 2 ^ 14 + 2 ^ 20) ++
    word8 0x1038 0x2000 ++ word8 0x10008 160
def sLaunch (ovr : Nat) : State := { mem := memL ovr, images := [(0, imgF)], gov := { fwok := true } }
def isOk : Launched → Bool
  | .ok .. => true
  | .refused .. | .wait => false
theorem isOk_iff {x : Launched} (h : isOk x = true) : ∃ t r, x = .ok t r := by
  cases x with
  | ok t r => exact ⟨t, r, rfl⟩
  | refused t c b => cases h
  | wait => cases h
def isRefused (c : Nat) (b : Bool) : Launched → Bool
  | .refused _ x y => x == c && y == b
  | .ok .. | .wait => false
theorem isRefused_iff {c : Nat} {b : Bool} {x : Launched} (h : isRefused c b x = true) : ∃ t, x = .refused t c b := by
  cases x with
  | ok t r => cases h
  | refused t x y => simp only [isRefused, Bool.and_eq_true, beq_iff_eq] at h; exact ⟨t, by rw [h.1, h.2]⟩
  | wait => cases h
/-- R18: the launch passes every check, and with ovr other than 0xFFF it is refused with FORMAT. -/
theorem test_launch : isOk ((counted (sLaunch 0xFFF)).tryLaunch (launcher 0 5 false) ⟨0, 0⟩ 0x1000 0x1000) = true ∧
    isRefused 1 true ((counted (sLaunch 0x7FF)).tryLaunch (launcher 0 5 false) ⟨0, 0⟩ 0x1000 0x1000) = true := by decide +kernel
def isVerified : Verified → Bool
  | .ok .. => true
  | .bad | .wait => false
theorem isVerified_iff {x : Verified} (h : isVerified x = true) : ∃ t id, x = .ok t id := by
  cases x with
  | ok t r => exact ⟨t, r, rfl⟩
  | bad => cases h
  | wait => cases h
theorem witness_LaunchEvents_image : ∃ t id, (sLaunch 0).verifyImage 0x10000 ((sLaunch 0).fileAt 0x10000) = .ok t id :=
  isVerified_iff (by decide +kernel)
theorem witness_LaunchEvents_rcb : ({ State.reset with regions := [(1, gQ)] } : State).rcbBusy 256 = true ∧
    State.reset.rcbBusy (2 ^ 37) = false ∧ isHome (2 ^ 37) = false := by decide
/-- A strand of partition 0 launches child i of a batch of 257, whose RCBs are translated, or are not. -/
def sBatch (tlb : List TlbEnt) (word0 : Nat) (b : Batch) : State :=
  { st { c0 with batch := b } with
    cores := [(0, { fg := { c0 with batch := b }, tlb := tlb })]
    regions := [(1, { gQ with rcb := 0x100, rcbPa := 0x100, st := .running, started := true, eff := { spad := 32, tiles := 1 } })]
    images := [(0, imgF)]
    ptroots := if tlb.isEmpty then [] else [(0, { en := true })]
    mem := word8 0x200 word0 ++ word8 0x208 0x100 }
def tlb0 : List TlbEnt := [{ part := 0, va := 0, size := 65536, pa := 0, w := true }]
def bat : Batch := { n := 257, arr := 0x200, active := true, tok := 7 }
theorem witness_LaunchEvents_child_error : let s := sBatch [] 0 { bat with launched := 255 }
    (s.ctx l0).batch.active = true ∧ (s.ctx l0).batch.launched < (s.ctx l0).batch.n ∧
      (s.ctx l0).batch.launched < (s.ctx l0).batch.base + 256 ∧ s.recs.length < 65536 ∧
      s.xlWaits l0 ((s.ctx l0).batch.arr + 256 * (s.ctx l0).batch.launched) = false ∧
      (match (s.xlate l0 ((s.ctx l0).batch.arr + 256 * (s.ctx l0).batch.launched) accRead).2 with
        | .error _ => true
        | .ok _ => false) = true := by decide +kernel
theorem witness_LaunchEvents_child : let s := sBatch tlb0 (2 ^ 48) bat
    ((s.ctx l0).batch.active = true ∧ (s.ctx l0).batch.launched < (s.ctx l0).batch.n ∧ s.recs.length < 65536 ∧ s.xlWaits l0 0x200 = false ∧
      (match (s.xlate l0 0x200 accRead).2 with
        | .error _ => false
        | .ok pa => pa == 0x200) = true) ∧
    ∃ t r, (counted (s.xlate l0 0x200 accRead).1).tryLaunch (childOf s l0) l0 0x200 0x200 = .ok t r :=
  ⟨by decide +kernel, isOk_iff (by decide +kernel)⟩
theorem witness_LaunchEvents_child_refused : let s := sBatch tlb0 0 bat
    ∃ t, (counted (s.xlate l0 0x200 accRead).1).tryLaunch (childOf s l0) l0 0x200 0x200 = .refused t 1 true :=
  isRefused_iff (by decide +kernel)
theorem witness_LaunchEvents_delivery : ((sBatch [] 0 { bat with base := 256, doneI := [256] }).ctx l0).batch.active = true ∧
    ((sBatch [] 0 { bat with base := 256, doneI := [256] }).ctx l0).batch.base ∈ [256] ∧
    ((sBatch [] 0 { bat with active := false }).ctx l0).batch.active = false := by decide

/-! ### Registers, the host and the management controller -/

/-- A translation request of partition 0's strand waits, and another of partition 5's. -/
theorem witness_RegisterEvents : State.shotAt { State.reset with missQ := [{ hreq (.ldrm .i32 .none) with loc := ⟨0, 5⟩ }] } l0 .region 0 65536 = false ∧
    State.shotAt { st c0 with missQ := [hreq (.ldrm .i32 .none)] } l0 .region 0 1 = true ∧
    (99 : Word).toNat % 2 ^ 14 < ((st c0).ctx l0).words ∧ ((st c0).ctx l0).words ≤ (100 : Word).toNat % 2 ^ 14 ∧
    (st c0).inFg l0 = true ∧ ((st c0).ctx l0).frozen = none ∧ ((sQp 14).qp 0).en = true ∧ (State.reset.qp 0).en = false ∧
    ((sQp 14).qp 0).head ≤ (14 : Word).toNat ∧ (14 : Word).toNat ≤ ((sQp 14).qp 0).tail ∧
    (13 : Word).toNat < ({ head := 14, tail := 14 } : QPair).head ∧ ((4 : Nat) ≠ 8 ∨ 0 % 8 ≠ 0) ∧ (0x2000 % 8 = 0 ∧ 0x2000 ≤ 0x2000) ∧
    63 < 64 ∧ State.reset.answers = true ∧ (State.reset.bar0 0x1000).isSome = true ∧ 0x1000 % 8 = 0 ∧ 0x1000 < 0x3000 ∧ 255 < 256 := by
  decide +kernel
/-- A table entry that keeps R95, one whose detour is its own axis, and a harvest register that newly strikes tile 0's box. -/
theorem witness_RegisterEvents_tables : fltLegal (tileOf 11 5 7) 0xC88004420000074A = true ∧ fltLegal 0 0x8000000000000000 = false ∧
    ({ st c0 with dv := { power := { recovery := true } } } : State).answers = false ∧ (st c0).answers = true ∧
    (st c0).parts = [(0, (st c0).part 0)] ∧ (1 : Word).getLsbD 0 = true ∧ (Tbl.get 0 (st c0).hv 0).getLsbD 0 = false ∧
    ((st c0).region 1).eff.inBox (64 * 0 + 0) = true ∧ (∀ e ∈ (st c0).parts, ((st c0).region e.2.root).eff.inBox (64 * 0 + 1) = false) := by
  decide +kernel
/-- Every tile is harvested but tiles 0 and 1; with an entry at tile 0 that turns the hop between them aside, no route is left. -/
def sTwo : State := { hv := (0, 0xFFFFFFFFFFFFFFFC) :: (List.range 63).map fun n => (n + 1, 0xFFFFFFFFFFFFFFFF) }
def flt01 : Word := 0x9080042100000001
theorem witness_RegisterEvents_routes : fltLegal 0 flt01 = true ∧ sTwo.tablesOk = true ∧
    (sTwo.setCore 0 { sTwo.core 0 with flt := Tbl.set 0 (sTwo.core 0).flt 7 flt01 }).tablesOk = false ∧ 7 % 8 = 7 := by decide +kernel
theorem witness_RegisterEvents_head : let s : State := { dv := { qps := [(0, { head := 14, tail := 14 })] } }
    (13 : Word).toNat < (s.qp 0).head ∧ (13 : Word).toNat ≤ (s.qp 0).tail := by decide

/-- BAR2's first aperture is enabled, onto HBM from 2^40. -/
def sBar2 : State := { dv := { b2ma := [(0, 0x8000000000000100)] } }
/-- The words of a blob before its serial number, and behind it. -/
def blobHead : List Byte := leBytes 8 0x3146434E ++ leBytes 8 1
def blobTail : List Byte := leBytes 8 0x10000 ++ List.replicate 128 0
/-- A blob of no keys for a serial number. -/
def blob (ser : Nat) : List Byte := blobHead ++ (leBytes 8 ser ++ blobTail)
/-- Recovery mode, with no bank that boots, or all, at the power-up's step or before it. -/
def sRcy (good pw : Bool) : State :=
  { dv := { banks := [(0, { good := good }), (1, { good := good })], power := { recovery := true, booted := false, pwren := pw, stage := 1 } } }
/-- The blob's signature is accepted; the link covers no queue while a stream has left the secure state. -/
def sIde : State := { dv := { cfg := { ideReq := true } } }
/-- A partition with a budget of one vault chunk. -/
def sBud (used : Nat) : State :=
  { parts := [(63, { root := 1, vaultUsed := used })], regions := [(1, { part := 63, st := .running, eff := { vault := 1 } })] }
theorem witness_HostRequests : sBar2.bar2Addr 0xFFFFFF80 128 = some 0x100FFFFFF80 ∧ sBar2.bar2Addr 0xFFFFFF80 129 = none ∧
    linePieces 0x100FFFFFFC0 128 = [(0, 64), (64, 64)] ∧ sBar2.answers = true ∧ (sRcy true true).answers = false ∧
    State.reset.dv.power.recovery = false ∧ (sRcy true true).dv.power.recovery = true ∧
    (sRcy true true).dv.boots = true ∧ (sRcy false true).dv.boots = false ∧ (sRcy true true).dv.power.pwren = true ∧
    (sRcy true false).dv.power.pwren = false ∧ (sRcy true true).dv.power.stage = 1 ∧ sIde.dv.cfg.ideReq = true ∧
    sIde.dv.ideCovers (sIde.qp 3) = false ∧ Tbl.has State.reset.parts 0 = false ∧ Tbl.has (sBud 0).parts 63 = true ∧
    (0xFFFFFFFF000000 : Nat) % 2 ^ 24 = 0 ∧ 0xFFFFFFFF000000 + 2 ^ 24 ≤ 2 ^ 56 ∧ spaceOf 0 = .vault ∧
    ((sBud 0).part 63).vaultUsed + 1 ≤ ((sBud 0).region ((sBud 0).part 63).root).eff.vault ∧
    ((sBud 0).part 63).hbmUsed ≤ ((sBud 0).region ((sBud 0).part 63).root).eff.hbm ∧
    ((sBud 1).region ((sBud 1).part 63).root).eff.vault < ((sBud 1).part 63).vaultUsed + chunksIn 0 1 .vault ∧
    inImageCache 0x1FFE0000000 = true ∧ 31 < 32 ∧
    0x1000 % 4096 = 0 ∧ isHome 0x1000 = true ∧ 4095 < 4096 ∧ 4095 ∉ State.reset.dv.fdoms := by decide +kernel
theorem witness_HostRequests_leg : ∃ k, sBar2.legTime [{ order := 0, src := none, dst := sBar2.endOf 0x100FFFFFF80, bytes := 0 }] = .ok k :=
  ⟨_, rfl⟩
theorem length_leBytes (n v : Nat) : (leBytes n v).length = n := by simp [leBytes]
theorem blob_head (x i : Nat) (h : i < 2) : fileNat (blob x) (8 * i) 8 = fileNat blobHead (8 * i) 8 := by
  unfold fileNat blob
  rw [List.drop_append_of_le_length, List.take_append_of_le_length]
  · simp [blobHead, length_leBytes]; omega
  · simp [blobHead, length_leBytes]; omega
theorem blob_tail (x i : Nat) (h : 3 ≤ i) : fileNat (blob x) (8 * i) 8 = fileNat blobTail (8 * i - 24) 8 := by
  unfold fileNat blob
  rw [← List.append_assoc, List.drop_append, List.drop_of_length_le, List.nil_append]
  · simp [blobHead, length_leBytes]
  · simp [blobHead, length_leBytes]; omega
theorem blob_serial (x : Nat) (h : x < 2 ^ 64) : fileNat (blob x) (8 * 2) 8 = x := by
  have e : (List.drop (8 * 2) (blob x)).take 8 = leBytes 8 x := by
    unfold blob
    rw [List.drop_append, List.drop_of_length_le, List.nil_append] <;> simp [blobHead, length_leBytes]
  unfold fileNat
  rw [e]
  simp [leBytes, leNat, List.range_succ]
  omega
/-- A blob for this device reads well, whatever its serial number is (R82). -/
theorem witness_HostRequests_blob : (State.reset.dv.readBlob (blob Config.devSerial.toNat)).isSome = true := by
  generalize hx : Config.devSerial.toNat = x
  have h : x < 2 ^ 64 := hx ▸ Config.devSerial.isLt
  have hl : (blob x).length = 160 := by simp [blob, blobHead, blobTail, length_leBytes]
  unfold Dev.readBlob
  simp only [blob_head x 0 (by decide), blob_head x 1 (by decide), blob_serial x h, blob_tail x 3 (by decide), blob_tail x 4 (by decide),
    blob_tail x 5 (by decide), blob_tail x 6 (by decide), blob_tail x 7 (by decide), hl]
  have n0 : bf (fileNat blobTail (8 * 4 - 24) 8) 7 0 = 0 := by decide +kernel
  rw [n0]
  simp only [hx, List.range_zero, List.map_nil, List.all_nil, Option.isSome_iff_ne_none]
  rw [if_pos]
  · simp
  · generalize (blobOwner (blob x)).isSome = b
    have hb : (160 == 64 + 112 * 0 + 96 || b) = true := rfl
    rw [hb, beq_self_eq_true]
    decide +kernel
theorem witness_HostRequests_owner : blobOwner (blob 1) = none ∧ (blobOwner (blob 1 ++ List.replicate 96 0)).isSome = true := by
  decide +kernel

/-- The word that traps: it has been taken from its queue. -/
def sOwn : State := { st { c0 with q := [] } with cur := { ent := some e0 } }
theorem witness_TrapsAndHalts : sOwn.cur.ent = some e0 ∧ sOwn.c.part = some 0 ∧ sOwn.c.frozen = none ∧ (sOwn.part 0).st = .active := by decide
/-- Partition 0 is to halt on tick 24; it has halted, frozen at its own tick 24, in its tiles or swapped out. -/
def sHalting (tick : Nat) : State := { st c0 with parts := [(0, { root := 1, st := .halting, haltAt := 24 })], tick := tick }
def sHalted (out : Bool) : State :=
  { st { c0 with frozen := some 24 } with parts := [(0, { root := 1, st := .halted, haltAt := 24, out := out })], tick := 24 }
theorem witness_TrapsAndHalts_delivery : ((sHalting 23).part 0).st = .halting ∧ (sHalting 23).tick < ((sHalting 23).part 0).haltAt ∧
    ((sHalting 24).part 0).haltAt ≤ (sHalting 24).tick ∧ (sHalting 24).inFg l0 = true ∧ ((st c0).part 0).st = .active ∧
    ((sHalted false).part 0).st = .halted ∧ (sHalted false).inFg l0 = true ∧ ((sHalted false).ctx l0).frozen = some 24 ∧
    24 ≤ (sHalted false).tick ∧ (sHalted false).clockStopped l0.tile = false := by decide

/-- A region whose only strand has ended; what it left is accepted, or is not. -/
def sEnd (pubs : Tbl Nat) : State :=
  { st { c0 with live := false, pubs := pubs } with regions := [(1, { gQ with st := .running, started := true, retiring := 1 })] }
/-- A halted partition with a child region 2, a checkpoint directory at 0x3000, or debug access. -/
def sKid : State :=
  { sHalted false with
    regions := [(1, { gQ with st := .running }), (2, { gQ with rcbPa := 512, st := .running, parent := 1, depth := 1 })]
    dv := { cfg := { dbg := true } } }
theorem witness_ControllerEvents : (st c0).canRetire 1 = false ∧ (sEnd []).canRetire 1 = true ∧ ((sEnd []).region 1).retiring ≠ 0 ∧
    (sEnd []).allPerformed 1 = true ∧ (sEnd [(1, 1)]).canRetire 1 = true ∧ (sEnd [(1, 1)]).allPerformed 1 = false ∧
    ((sHalted false).part 0).out = false ∧ ((sHalted true).part 0).st = .halted ∧ ((sHalted true).part 0).out = true ∧
    ((st c0).part 0).st ≠ .halted ∧ (sKid.region 1).part = 0 ∧ (sKid.part 0).st = .halted ∧ (sKid.region 1).alive = true ∧
    (sKid.region 1).parent = 0 ∧ (sKid.region 2).part = 0 ∧ (sKid.region 2).alive = true ∧ (sKid.region 2).parent ≠ 0 ∧
    sKid.dv.cfg.dbg = true ∧ State.reset.dv.cfg.dbg = false ∧ ((st c0).part 0).st = .active := by decide +kernel
/-- A checkpoint whose first slot, of generation 1, names the RCB at 0x1000 and no range. -/
def sCk : State :=
  { sLaunch 0xFFF with
    mem := memL 0xFFF ++ (word8 0x3000 1 ++ word8 0x3010 0x1000)
    parts := [(0, { root := 1, st := .halted, ckpt := some 0x3000 })]
    regions := [(1, { gQ with rcb := 0x1000, rcbPa := 0x1000, st := .running })] }
def memC : Mem := word8 0x1000 (2 ^ 48 + 0xFFF * 2 ^ 32) ++ word8 0x1010 (2 ^ 32 + 2 ^ 37 + 2 ^ 42) ++ word8 0x1018 0x10000 ++
  word8 0x1020 (2 ^ 32 + 2 ^ 14 + 2 ^ 20) ++ word8 0x1038 0x2000 ++ word8 0x3000 1 ++ word8 0x3010 0x1000 ++ word8 0x10008 160
def sCkpt : State := { sCk with mem := memC }
theorem witness_ControllerEvents_restore : Tbl.has (st c0).parts 0 = true ∧ ((st c0).part 0).st = .active ∧
    Tbl.has State.reset.parts 0 = false ∧ Tbl.has (sHalting 0).parts 0 = true ∧ ((sHalting 0).part 0).st = .halting ∧
    Tbl.has (sHalted false).parts 0 = true ∧ ((sHalted false).part 0).st = .halted ∧ (sHalted false).groupOf 0 = [] ∧
    ((sHalted false).part 0).ckpt = none ∧ Tbl.has sCkpt.parts 0 = true ∧ (sCkpt.part 0).st = .halted ∧ sCkpt.groupOf 0 = [] ∧
    (sCkpt.part 0).ckpt = some 0x3000 ∧ pickSlot (sCkpt.part 0).gen (sCkpt.slotWords 0x3000) (sCkpt.slotWords 0x3100) = some (sCkpt.slotWords 0x3000) ∧
    sCkpt.readable 0x3000 512 = true ∧ sCkpt.localGood (sCkpt.slotWords 0x3000) = true ∧ ckptWord (sCkpt.slotWords 0x3000) 0x30 < 2 ^ 60 ∧
    ckptWord (sCkpt.slotWords 0x3000) 0x10 % 2 ^ 48 = 0x1000 ∧ Memory.wf sCkpt.mem = true ∧
    (({ sCkpt with mem := [] } : State).ckptFind 0x3000 none).2 = none ∧ ckptWord (sCkpt.slotWords 0x3000) 0 = 1 ∧
    ckptWord (sCkpt.slotWords 0x3100) 0 < 1 := by decide +kernel
theorem witness_ControllerEvents_relaunch : ∃ t n, (counted ((sCkpt.resetPart 0).copyBack (sCkpt.slotWords 0x3000) none)).tryLaunch
    { q := (sCkpt.region (sCkpt.part 0).root).lqn, cookie := (sCkpt.region (sCkpt.part 0).root).cookie, priv := (sCkpt.part 0).priv } ⟨0, 0⟩
    (ckptWord (sCkpt.slotWords 0x3000) 0x10 % 2 ^ 48) (ckptWord (sCkpt.slotWords 0x3000) 0x10 % 2 ^ 48) = .ok t n := isOk_iff (by decide +kernel)

/-! ### The governor, power and the management bus -/

/-- A region with a deadline and a budget; regions that run, with dlmiss or without. -/
def sPace : State :=
  { regions := [(1, { gQ with st := .running, pace := some { dl := some 9, budget := some 9 } }),
      (2, { gQ with st := .running, eff := { dlmiss := true } })] }
theorem witness_PaceEvents : (sPace.region 1).pace = some { dl := some 9, budget := some 9 } ∧ (0 : Int) < 1 ∧
    needFor 1 0 < 1 ∧ needFor 8 (4 * 65536) < 1 ∧ (({ State.reset with regions := [(1, { gQ with st := .retired })] } : State).region 1).alive = false ∧
    (sPace.region 1).alive = true ∧ (sPace.region 1).eff.dlmiss = false ∧ (sPace.region 2).alive = true ∧ (sPace.region 2).eff.dlmiss = true ∧
    (7 : Nat) ≤ 7 ∧ State.reset.gov.want = none ∧ ({ gov := { want := some 7 } } : State).gov.want = some 7 ∧
    State.reset.gov.fwok = false := by decide +kernel
/-- R208: 8 ticks fit into 4 ns at 2.0 GHz, and into 16 ns at the slowest state. -/
theorem test_need : needFor 8 (4 * 65536) = 0 ∧ needFor 8 (1000 * 65536) = 7 := by decide +kernel
/-- Entries add their needs. -/
theorem witness_PaceEvents_adds : let s : State := { regions := [(1, { gQ with st := .running, pace := some { need := some 3 } })] }
    ∃ e ∈ s.regions, e.2.adds = some 3 := by decide
def sCan (fr : Bool) (held : List Nat) (off gthr : Nat) : State :=
  { gov := { fwok := true, rails := [{ frz := fr, held := held, off := [(0, off)], gthr := gthr }] }, pnow := 0 }
theorem witness_PaceEvents_canary : (sCan false [] 14 0).gov.fwok = true ∧ ((sCan false [] 14 0).gov.rail 0).frz = false ∧
    (sCan false [] 14 0).pnow ∉ ((sCan false [] 14 0).gov.rail 0).held ∧
    Tbl.get 0 ((sCan false [] 14 0).gov.rail 0).off (sCan false [] 14 0).pnow = 14 ∧ 0 ≤ ((sCan false [] 14 0).gov.rail 0).gthr ∧
    14 < 15 ∧ 400 ≤ railMv 0 (sCan false [] 14 0).pnow - 5 * (14 + 1) ∧ ((sCan false [] 14 0).gov.rail 0).gthr < 1 ∧
    ((sCan true [] 14 0).gov.rail 0).frz = true ∧ (sCan false [0] 14 0).pnow ∈ ((sCan false [0] 14 0).gov.rail 0).held := by decide +kernel

/-- The limiter's samples at 12,000 and 12,001 A, with the limit exceeded before or not. -/
def sLim (amps : Nat) (overrun : Bool) : State := { gov := { amps := amps, overrun := overrun } }
theorem witness_LimitEvents : (∀ amps : Nat, amps = 12000 →
      (updGov (updGov (sLim 0 false) fun g => { g with amps := amps }) fun g =>
        { g with calm := if (updGov (sLim 0 false) fun g => { g with amps := amps }).gov.calmNow then g.calm else 0 }).gov.exceeds = false) ∧
    (∀ amps : Nat, amps = 12001 → ∀ b,
      (updGov (updGov (sLim 0 b) fun g => { g with amps := amps }) fun g =>
        { g with calm := if (updGov (sLim 0 b) fun g => { g with amps := amps }).gov.calmNow then g.calm else 0 }).gov.exceeds = true) ∧
    (sLim 0 true).gov.overrun = true ∧ (sLim 0 false).gov.overrun = false ∧ (sLim 12001 true).gov.exceeds = true ∧
    (sLim 12000 true).gov.exceeds = false := by
  refine ⟨fun _ h => ?_, fun _ h b => ?_, by decide, by decide, by decide, by decide⟩
  · subst h; decide
  · subst h; cases b <;> decide
/-- A region of 10 W that has been estimated nine times at 10 W. -/
def sWatt : State := { gov := { fwok := true }, regions := [(1, { gQ with st := .running, watts := List.replicate 9 10, eff := { power := 10 } })] }
/-- A ballast strand of partition 0 on tile 0 that was told to yield. -/
def sYield : State :=
  { st c0 with gov := { yielding := [(0, 0)] }, regions := [(1, { gQ with st := .running, started := true, eff := { lvl := true, spad := 32 } })] }
/-- An update of the Geyser firmware, and a download that is none. -/
theorem witness_LimitEvents_update : State.reset.dv.power.recovery = false ∧ geyserBank 2 = true ∧ geyserBank 3 = true ∧ geyserBank 1 = false ∧
    geyserBank 4 = false := by decide

theorem witness_LimitEvents_others : 3 < 4 ∧ ([⟨1, 2, 3⟩, ⟨1, 2, 3⟩, ⟨1, 2, 3⟩, ⟨8, 9, 3⟩] : List RailSample)[3]? = some ⟨8, 9, 3⟩ ∧
    (State.reset.gov.fwok = false ∨ (State.reset.region 1).alive = false) ∧ sWatt.gov.fwok = true ∧ (sWatt.region 1).alive = true ∧
    (11 :: (sWatt.region 1).watts).length = 10 ∧ (sWatt.region 1).eff.power ≠ 0 ∧
    (sWatt.region 1).eff.power * 10 < (11 :: (sWatt.region 1).watts).foldl (· + ·) 0 ∧ State.reset.gov.winN = 0 ∧
    ({ gov := { winN := 1 } } : State).gov.winN ≠ 0 ∧ State.reset.gov.yielding = [] ∧ sYield.gov.yielding = [(0, 0)] ∧
    (sYield.ctx ⟨0, 0⟩).live = true ∧ (sYield.region (sYield.ctx ⟨0, 0⟩).region).eff.lvl = true ∧ sYield.inFg ⟨0, 0⟩ = true ∧
    (sYield.part 0).st = .active ∧ sYield.canSwap 0 noPart [0] = true := by decide +kernel

/-- Quad 1023 in a state, waking or idle; the layer's limit of wakes is reached with n of them. -/
def sQuad (x : Quad) (pg tm : Nat) : State := { quads := [(1023, x)], pgWaves := pg, tm := tm, pgIdle := 1 }
theorem witness_QuadAndPowerEvents_idle : (Tbl.get {} State.reset.quads 1023).idleFrom = none ∧
    (Tbl.get {} (sQuad { st := 0, idleFrom := some 5 } 1 0).quads 1023).idleFrom = some 5 ∧
    (Tbl.get {} (sQuad { st := 0, idleFrom := some 5 } 1 0).quads 1023).st = 0 ∧ (sQuad { st := 0, idleFrom := some 5 } 1 0).pgEn = true ∧
    (∀ t ∈ quadTiles 1023, (sQuad { st := 0, idleFrom := some 5 } 1 0).tileBusy t = false) ∧
    5 + 1000 * max 1 (sQuad {} 1 0).pgIdle * tmUnit ≤ (sQuad {} 1 (5 + 1000 * tmUnit)).tm ∧
    (sQuad {} 1 (4 + 1000 * tmUnit)).tm < 5 + 1000 * max 1 (sQuad {} 1 0).pgIdle * tmUnit := by decide +kernel
theorem witness_QuadAndPowerEvents_wake : (Tbl.get {} State.reset.quads 1023).st ≠ 0 ∧ (Tbl.get {} State.reset.quads 1023).waking = false ∧
    1023 ∉ State.reset.wakeQ ∧ State.reset.wakingIn (1023 / 64) < max 1 State.reset.pgWaves ∧
    max 1 (sQuad { waking := true, stage := 7 } 1 0).pgWaves ≤ (sQuad { waking := true, stage := 7 } 1 0).wakingIn (960 / 64) ∧
    (Tbl.get {} (sQuad { waking := true, stage := 6 } 1 0).quads 1023).stage + 1 < 8 ∧
    8 ≤ (Tbl.get {} (sQuad { waking := true, stage := 7 } 1 0).quads 1023).stage + 1 ∧ 960 ∉ (sQuad { waking := true, stage := 7 } 1 0).wakeQ ∧
    (Tbl.get {} (sQuad { st := 0 } 1 0).quads 1023).st = 0 ∧
    (Tbl.get {} (sQuad { sinking := true, stage := 8 } 1 0).quads 1023).sinking = true ∧
    (Tbl.get {} (sQuad { waking := true, stage := 7 } 1 0).quads 1023).sinking = false := by decide +kernel
/-- Power-up at a stage, whose rails are in band, or are not yet; the coolant has flowed for a second on the last tick. -/
def sPow (n tick : Nat) (band : Option Nat) : State :=
  { dv := { power := { stage := n, bandAt := band, flowFrom := some 0, coolV := true, tin := 200, booted := n ≤ 1 } }, tick := tick }
theorem witness_QuadAndPowerEvents_power : ((39999 : Nat) < 40000 ∨ 60000 < 39999) ∧ ((60001 : Nat) < 40000 ∨ 60000 < 60001) ∧
    (sPow 0 0 none).dv.power.stage = 0 ∧ State.reset.dv.power.stage ≠ 0 ∧ (sPow 0 0 none).dv.power.bandAt = none ∧
    (sPow 1 8 (some 9)).dv.power.bandAt = some 9 ∧ (sPow 1 8 (some 9)).tick < 9 ∧ (9 ≤ 9 ∧ (sPow 1 9 (some 9)).dv.power.bandAt = some 9) ∧
    (sPow 1 9 (some 9)).dv.power.stage = 1 ∧ (sPow 1 9 (some 9)).dv.power.booted = true ∧ (sPow 2 (2 ^ 32) (some 9)).ilkMet = true ∧
    (sPow 2 9 (some 9)).ilkMet = false ∧ State.reset.parts = [] ∧ State.reset.dv.power.stage ≠ 2 ∧ (200 : Int) ≤ 200 ∧ 250 ≤ 250 ∧
    (sPow 2 (2 ^ 32) (some 9)).dv.power.flowFrom = some 0 ∧
    (sPow 2 (2 ^ 32) (some 9)).ticksOf 1000000000 ≤ (sPow 2 (2 ^ 32) (some 9)).tick - 0 := by decide +kernel
theorem witness_QuadAndPowerEvents_band : inBand (sPow 2 (2 ^ 32) (some 9)) ∧ (sPow 4 (2 ^ 32) none).dv.power.stage = railStep 1 ∧ 1 < 7 ∧
    ¬ inBand (sPow 4 (2 ^ 32) none) ∧
    (sPow 4 (2 ^ 32) none).ticksOf 10000000 ≤ (sPow 4 (2 ^ 32) none).tick - (sPow 4 (2 ^ 32) none).dv.power.stepAt :=
  ⟨⟨9, rfl, by decide⟩, by decide, by decide, fun ⟨_, h, _⟩ => (by cases h), by decide +kernel⟩
/-- Pages of the management bus, and a state in which no limit is exceeded. -/
theorem witness_BusAndTimeEvents : (6 < 7 ∨ 6 = 0xFF) ∧ ¬ (7 < 7 ∨ 7 = 0xFF) ∧ ((0xFF : Nat) < 7 ∨ 0xFF = 0xFF) ∧
    State.reset.dv.power.page < 7 ∧ (∀ n, n < 7 → (Tbl.get {} State.reset.dv.power.pmRails n).over (State.reset.railLimit n) = false) ∧
    State.reset.gov.ocap = none ∧ State.reset.answers = true ∧ (sRcy true true).answers = false ∧
    State.reset.gov.pkg = none ∧ State.reset.gov.dcap = false ∧ ({ page := 0xFF } : Power).page = 0xFF ∧ ({ page := 6 } : Power).page = 6 ∧
    (st c0).parts ≠ [] ∧ State.reset.parts = [] ∧ 11 ∉ State.reset.dv.portsDown ∧ 11 ≠ State.reset.dv.ptpPort ∧
    0 = State.reset.dv.ptpPort ∧ 1 ≠ State.reset.dv.cfg.ptpdom ∧ 7 ≤ ({ page := 7 } : Power).page := by decide +kernel
theorem witness_BusAndTimeEvents_addr : (⟨pmAddr, 0⟩ : PmPage).addr = pmAddr ∧ (⟨pmAddr + 1, 0⟩ : PmPage).addr ≠ pmAddr :=
  ⟨rfl, by simp⟩
/-! ### The hypotheses of the statements are met, clause by clause -/

/-- Vector accesses at an odd address, and at the last place that does not fit; transfers of each kind whose target lies
outside the code, or that a follower's leader did not come to. -/
theorem witness_WordTraps_vector : sSp.c.inWindow (sSp.vidx (.v 255) 0) = true ∧ sSp.c.inWindow (sSp.vidx (.v 255) 2) = true ∧
    addrV sSp (.s 7) 0 % 16 ≠ 0 ∧ addrV sSp (.s 5) 1 % 16 = 0 ∧ sSp.c.share < addrV sSp (.s 5) 1 + 128 := by decide
theorem test_stv_bounds : (traps (exec (.stv (.s 5) (.v 3) none 1) sSp)).map (·.1) = [0x0C] ∧
    (traps (exec (.ldv (.v 3) (.s 7) none 0) sSp)).map (·.1) = [0x0B] := by decide
theorem witness_WordTraps_targets : sK.cur.ent = some e5 ∧ noRep sK ∧ targetOf sK e5 (.br false 95) = some 100 ∧
    targetOf sK e5 (.call false 9 0x3FFFA) = some (-1) ∧ targetOf sK e5 (.loop false 3 95) = some 100 ∧
    targetOf sK e5 (.jmpi false 3 1) = some 100 ∧ targetOf sK e5 (.ret false 6) = some 0xFFFF ∧ (100 : Int) ≠ e5.pc + 1 ∧ (sK.c.words : Int) ≤ 100 := by
  unfold noRep; decide
theorem witness_WordTraps_leave : targetOf (inWord eF sSp) eF (.jmpi true 8 0) = some (99 : Nat) ∧ targetOf (inWord eF sSp) eF (.ret false 8) = some (99 : Nat) ∧
    transferDet (.jmpi true 8 0) = some true ∧ transferDet (.ret false 8) = some false ∧ (inWord eF sSp).cur.trapped = false := by decide
/-- Token 0 is known to complete on tick 9, which is still to come. -/
def sTok9 : State := st { c0 with k := [(0, .done 9)] }
theorem witness_SleepAndWaitt_known : sTok9.c.kind = .elastic ∧ noUi sTok9 ∧ sTok9.c.sleepHolds 1 sTok9.T = false ∧ sTok9.c.ui.going = none ∧
    sTok9.c.part.isSome = true ∧ (1 : BitVec 10).getLsbD 0 = true ∧ sTok9.c.tok 0 = .done 9 := by
  unfold noUi; decide
/-- A join cell of the layer is free, or all 256 are taken; 4,096 chunks are the most, and with one record too many rfork.q waits. -/
def sCells : State := { sK with cells := (List.range 256).map fun i => (i, ⟨1, 1, false⟩) }
theorem witness_Rfork_stall : sCells.freeCell (tileZ sCells.me) = none ∧ 0 < (sK.sreg 8).toNat ∧
    ((sK.sreg 8).toNat + 1 - 1) / 1 ≤ 4096 ∧ sK.recs.length + (2 - forkWidth sK 2) ≤ 65536 ∧ forkWidth sK 2 = 1 := by decide +kernel
theorem witness_Rfork_recruit : (st c0).holds ⟨0, ((st c0).region go0.region).part⟩ = true ∧
    ∃ n, (st c0).legTime [{ order := 0, src := some 1, dst := some 0 }] = .ok n := ⟨by decide, _, rfl⟩
/-- A store that has not issued stands before the trigger; none does. -/
def eSt : QEnt := { e0 with x := ⟨false, 0, 0, 0, 0, false, .stg .i32 (.s 1) (.s 2) 0⟩ }
theorem witness_SpawnTriggerStepdl_trigger : let s := inWord { e5 with seq := 7 } (st { c0 with q := [eSt] })
    noUi s ∧ s.c.trig = false ∧ s.c.part.isSome = true ∧ s.c.behind s.seqNow isBuffered = true ∧ (st c0).c.behind (st c0).seqNow isBuffered = false := by
  unfold noUi; decide
theorem witness_IssueEvents_joined : let w : Fwd := { pc := 5, bits := 0, outcome := none, j := 0, strides := 0, cnt := 0, joined := some true }
    w.joined = some true ∧ ({ w with joined := none } : Fwd).joined = none ∧ (sRep.ctx l0).fol.cur = none := by decide
/-- A request of another device that has come to its attach port; one that the host or a peer holds; every port down. -/
def peerReq (pa : Nat) : HomeReq := { hreq (.ldrm .i32 .none) with peer := some 3, pa := pa }
def sDown : State := { st c0 with dv := { portsDown := List.range 16 } }
theorem witness_HomeEvents_peer : (peerReq 0).peer = some 3 ∧ (peerReq 0).entered = false ∧ isHome (peerReq 0).pa = true ∧
    isHome (peerReq (2 ^ 47)).pa = false ∧ ({ peerReq 0 with entered := true } : HomeReq).entered = true := by decide
theorem witness_HomeEvents_legs : (∃ n, (st c0).legTime [{ order := 0, src := none, dst := some ((st c0).homeTile 0), bytes := homeBytes (.ldrm .i32 .none) }] = .ok n) ∧
    ∃ n, (st c0).legTime [{ order := 0, src := some ((st c0).homeTile (2 ^ 40)), dst := none },
      { order := 0, src := none, dst := some ((st c0).homeTile (2 ^ 40)), bytes := 128 }] = .ok n := ⟨⟨_, rfl⟩, _, rfl⟩
theorem witness_HomeEvents_spaces : spaceOf 0 = .vault ∧ spaceOf (2 ^ 40) = .hbm ∧ spaceOf (2 ^ 47) ≠ .peer ∧ isHome (2 ^ 47) = false ∧
    spaceOf (2 ^ 46) = .peer ∧ isHome (2 ^ 46) = false ∧ ((st c0).zheostPort ((st c0).peerDev (2 ^ 46) + 2 ^ 46 / 128)).isSome = true ∧
    isHome ((st c0).peerPa (2 ^ 46)) = true ∧ isHome ((st c0).peerPa (2 ^ 46 + 2 ^ 37)) = false ∧ spaceOf (2 ^ 46 + 2 ^ 37) = .peer ∧
    sDown.zheostPort (sDown.peerDev (2 ^ 46) + 2 ^ 46 / 128) = none := by decide +kernel
/-- A merge adds to what is stored, and a line that is poisoned stays so (R302, R311). -/
theorem test_merge : (sMem.serve (hreq (.merge .add .i32 [(0, 7), (31, 1)] 0))).mem = [(0, 12), (124, 1)] := by decide
theorem witness_ReplyAndErrorEvents_others : ({ hrep none with q := { hreq (.read 4 [] .none) with agent := some 8 } } : HomeRep).q.agent = some 8 ∧
    ({ hrep none with q := { hreq (.strm .i32 0) with peer := some 3 } } : HomeRep).q.peer = some 3 ∧ (hrep none).q.agent = none ∧
    (hrep none).q.peer = none ∧ ((st c0).zheostPort 0).isSome = true ∧ sDown.zheostPort 0 = none ∧ ErrPlace.engine ≠ .tagTable := by decide

/-- A run of the element of a local-to-global transfer: it has come to its source, and to its destination. -/
def run0 (lands : Bool) (dsts : Ends) : CopyRun := { q := 0, elem := 0, n := 1, srcs := [], dsts := dsts, lands := lands }
def xRun (read landed : Nat) (fly : List Flown) : Xfer :=
  { cp := cpLoc, id := 7, tok := 1, nt := false, region := 1, act := true, next := 1, read := read, landed := landed, out := 1, fly := fly }
def fly0 : Flown := { elem := 0, m := [(some 0, 0x1FFFFC, 7, false)] }
def sRun (x : Xfer) : State := st { c0 with cq := [(0, [x])] }
theorem witness_CopyAndStreamEvents_read : ((sRun (xRun 0 0 [])).ctx l0).queue (run0 false [some 0]).q = [xRun 0 0 []] ∧ 0 < (xRun 0 0 []).next ∧
    (run0 false [some 0]).lands = false ∧ (xRun 0 0 []).read = 0 ∧ (xRun 1 0 []).read ≠ 0 ∧
    (let e := State.moveElems l0 (xRun 0 0 []) false 0 1 { s := sRun (xRun 0 0 []), m := [] }
     e.n ≠ 0 ∧ e.held = none) := by decide +kernel
theorem witness_CopyAndStreamEvents_write : ((sRun (xRun 1 0 [fly0])).ctx l0).queue 0 = [xRun 1 0 [fly0]] ∧ (run0 true [some 0]).lands = true ∧
    (xRun 1 0 [fly0]).landed = (run0 true [some 0]).elem ∧ (xRun 1 1 [fly0]).landed ≠ (run0 true [some 0]).elem ∧
    bytesOf (xRun 1 0 [fly0]) (run0 true [some 0]) = fly0.m ∧ (∀ b ∈ fly0.m, ∀ t, b.1 = some t → (sRun (xRun 1 0 [fly0])).quadAwake t = true) ∧
    (∀ b ∈ fly0.m, b.1 = none → (sRun (xRun 1 0 [fly0])).mustWait b.2.1 = false) ∧ none ∉ (run0 true [some 0]).dsts ∧
    none ∈ (run0 true [none]).dsts ∧ (xRun 1 0 [fly0]).reported l0 [some 1] ≠ [] ∧
    ({ xRun 1 0 [fly0] with cp := { cpLoc with fmt := 0x884 } } : Xfer).reported l0 [some 0] = [] := by
  refine ⟨rfl, rfl, rfl, by decide, rfl, fun b hb t ht => ?_, fun b hb ht => ?_, by decide, by decide, by decide, by decide⟩
  · rcases List.mem_singleton.1 hb with rfl; cases ht; decide
  · rcases List.mem_singleton.1 hb with rfl; cases ht
theorem witness_CopyAndStreamEvents_line : isHome (128 * 2 ^ 33) = true ∧ ∀ b ∈ ([(none, 2 ^ 40 + 127, 7, false)] : Moved), b.1 = none ∧ b.2.1 / 128 = 2 ^ 33 := by decide
theorem witness_CopyAndStreamEvents_end : (xOut 1).pend = none ∧ (xOut 1).landed = (xOut 1).cp.total ∧ (xOut 2).solo = false ∧
    ({ xOut 1 with cancelled := true } : Xfer).cancelled = true ∧ xWait.gate ≤ 0 := by decide +kernel
/-- Two pushes of a slot that was configured anew between them: the later lands first. -/
theorem witness_CopyAndStreamEvents_pushes : let p : Push := { slot := 7, cfg := { st := .bound, dir := true }, idx := 0, q := 1, data := some (0, 0, allLanes), w := some 8 }
    let o : Push := { p with q := 64, w := some 1 }
    (∀ x ∈ [o], x.slot = 7 → ∀ n ∈ x.landsAt, ∀ m ∈ p.landsAt, m < n) ∧ (∀ x ∈ [p], x.slot = 7 → ∀ n ∈ x.landsAt, ∀ m ∈ p.landsAt, m ≤ n) ∧
      p.toks = [] ∧ p.w.isSome = true := by decide

/-- With both lanes' ends looked at, a lane's head can start, waits for its tick, or there is none. -/
theorem witness_ArrayOperationEvents_lanes : (let u := ((st c0).laneTurn l0 true).laneTurn l0 false
     (u.ctx l0).arr64.head true = none) ∧
    (let u := ((sOps [opRd none] 1).laneTurn l0 true).laneTurn l0 false
     (u.ctx l0).arr64.head false = some (opRd none) ∧ (u.ctx l0).arr64.startAt (opRd none) = some 1 ∧ (opRd none).notBefore ≤ u.tick) ∧
    (let u := ((sOps [{ opRd none with notBefore := 9 }] 1).laneTurn l0 true).laneTurn l0 false
     (u.ctx l0).arr64.head false = some { opRd none with notBefore := 9 } ∧ u.tick < 9) ∧
    (let u := (sG.laneTurn l0 true).laneTurn l0 false
     (u.ctx l0).arr64.head false = some opG ∧ u.gangStartAt (gangOf l0.tile) l0.part = some 1 ∧ opG.notBefore ≤ u.tick) := by decide +kernel
/-- A knot of x = 15 landed on this tick, or none; and a rotation in which all that is owed has come, or something is missing. -/
theorem witness_GangAndRotationEvents_knots : let s := { st c0 with gangs := [(0, { knAt := (0, 15) })] }
    ((s.gang (gangOf 0)).knAt.1 = s.tick ∧ tileX 0 < (s.gang (gangOf 0)).knAt.2) ∧ ((s.gang (gangOf 15)).knAt.2 ≤ tileX 15) ∧
      (({ s with tick := 1 } : State).gang 0).knAt.1 ≠ 1 ∧ gangOf 15 = 0 ∧ gangOf 0 = 0 ∧ tileX 0 < tileX 15 := by decide
theorem witness_GangAndRotationEvents_owed : let s := sRotate (opRot [0, 64] false) 0xB 2
    (∀ k ∈ (opRot [0, 64] false).owed (s.engNow l0), k ∈ (opRot [0, 64] false).got) ∧ s.inFg l0 = true ∧ (opRot [0, 64] false).noEx = false ∧
      (opRot [0, 64] false).bad = false ∧ ({ opRot [] false with noEx := true } : ArrOp).noEx = true := by decide +kernel
/-- A class-7 packet with a stop record, a message on its way out, one of another device that has not come to its tile. -/
def rec0 : StopRec := 
  { code := 4, kind := 2, prec := false, bank := 0, part := 0, tile := 0, region := 1, tnow := 0, ttick := 0, pc := 0, detail := 0, word := 0, xfer := 0
    seq := 0, cols := [], tick := 0 }
theorem witness_MessageEvents_stages : ({ msg 9 with stop := some rec0 } : Msg).stop = some rec0 ∧ (msg 9).stop = none ∧ (msg 9).leaving = false ∧
    ({ msg 9 with leaving := true } : Msg).leaving = true ∧ ({ msg 9 with srcDev := 3 } : Msg).srcDev ≠ (st c0).dv.cfg.devno ∧
    ({ msg 9 with srcDev := 3 } : Msg).entered = false ∧ ({ msg 9 with srcDev := 3, entered := true } : Msg).entered = true := by decide
theorem witness_MessageEvents_legs : (∃ n, (st c0).legTime [{ order := 0, src := none, dst := some 0, bytes := 16 }] = .ok n) ∧
    ∃ n, (st c0).legTime [{ order := 0, src := some 0, dst := none }] = .ok n := ⟨⟨_, rfl⟩, _, rfl⟩
theorem witness_TreeEvents_over : let s := st { c0 with trees := [(15, { kids := 1, up := 1, n := 2 })], treeOps := [(15, [tOp])] }
    ((s.ctx l0).tree 15).kids / 2 ^ portNo .xm % 2 = 1 ∧ 0 < ((s.ctx l0).tree 15).n ∧ (s.ctx l0).treeOp 15 0 = none ∧
      ((s.ctx l0).treeOp 15 1).isSome = true ∧ runs s l0 ∧
      ∃ n, s.legTime [{ order := 0, src := none, dst := some 0, bytes := kindBytes .xbar }] = .ok n := by
  refine ⟨by decide, by decide, by decide, by decide, by unfold runs; decide, _, rfl⟩
theorem witness_RouterEvents_recover : 0 ∈ (sFail 0 none).dv.failed ∧ (∀ e ∈ (sFail 0 none).parts, e.2.st = .halted) ∧
    (∃ e ∈ ({ sFail 0 none with parts := [(0, { root := 1, st := .halting })] } : State).parts, e.2.st ≠ .halted) ∧
    Tbl.wf 0 (sFail 0 none).hv = true ∧ ((sFail 0x13 none).part 0).code = 0x13 ∧ 9 < 4096 := by decide
/-- A device whose every tile is harvested has no route: whatever the plan puts into the tables, they are fit. -/
def sNone : State := { hv := (List.range 64).map fun n => (n, 0xFFFFFFFFFFFFFFFF), dv := { failed := [0] } }
theorem putTables_hv (s : State) (f : Nat → Nat → Word) : (s.putTables f).hv = s.hv := by
  unfold State.putTables
  suffices h : ∀ (l : List Nat) (s : State), (l.foldl (fun s t =>
      let k := s.core t
      s.setCore t { k with flt := (List.range 8).foldl (fun b i => Tbl.set 0 b i (f t i &&& 0xFF807FFF00000FFF)) [] }) s).hv = s.hv from h _ s
  intro l
  induction l with
  | nil => intro s; rfl
  | cons t l ih => intro s; rw [List.foldl_cons, ih]; rfl
theorem harvested_of_hv {s t : State} (h : s.hv = t.hv) (x : Nat) : s.harvested x = t.harvested x := by
  unfold State.harvested; rw [h]
theorem sNone_harvested : ∀ t ∈ List.range 4096, sNone.harvested t = true := by
  intro t ht
  have h : ∀ n < 64, Tbl.get 0 sNone.hv n = BitVec.allOnes 64 := by decide
  unfold State.harvested
  rw [h (t / 64) (by have := List.mem_range.1 ht; omega), BitVec.getLsbD_allOnes]
  exact decide_eq_true (Nat.mod_lt _ (by decide))
theorem harvested_tablesOk {s : State} (h : ∀ t ∈ List.range 4096, s.harvested t = true) : s.tablesOk = true := by
  have e : (List.range 4096).filter (fun t => !s.harvested t) = [] := by
    rw [List.filter_eq_nil_iff]; intro t ht; rw [h t ht]; decide
  unfold State.tablesOk
  rw [e]; rfl
theorem witness_RouterEvents_fit : sNone.harvestFailed.1.tablesOk = true := by
  apply harvested_tablesOk
  intro t ht
  unfold State.harvestFailed
  have e : (sNone.dv.failed ++ (Config.faultPlan sNone.fresh).1).filter (fun t => t < 4096 && !sNone.harvested t) = [] := by
    rw [List.filter_eq_nil_iff]
    intro x _ hx
    rw [Bool.and_eq_true, decide_eq_true_eq] at hx
    rw [sNone_harvested x (List.mem_range.2 hx.1)] at hx
    exact absurd hx.2 (by decide)
  simp only [e]
  rw [harvested_of_hv (putTables_hv _ _), ← sNone_harvested t ht]
  rfl

/-- What stands in the way may be swapped out, with room for the code or without; a ballast strand stands in a recruit's way. -/
theorem witness_PlacingEvents_way : (sTaken 2).canPreempt { dStart with lvl := 4 } [5] = true ∧ dStart ∈ sPlace.recs ∧
    (∃ x, ({ sRecruit with quads := [] } : State).quadAwake 0 = x ∧ x = false) ∧
    (let s : State := { sRecruit with cores := [(0, { fg := { c0 with part := some 5, region := 2 }, bg := { c0 with live := false, starting := true } })]
                                      parts := [(0, { root := 1 }), (5, { root := 2 })] }
     (s.ctx ⟨0, (s.region go0.region).part⟩).starting = true ∧ s.fgReady ⟨0, (s.region go0.region).part⟩ = false) := by decide +kernel
/-- An instruction store whose 192 KiB are taken by a role of the running context. -/
def sFullI : State :=
  { sTaken 2 with
    cores := [(0, { fg := { c0 with part := some 5, region := 2 }, roles := [(1, (0, 196608))] })]
    regions := [(1, { gQ with eff := { gQ.eff with prio := 3 } }), (2, { part := 5, st := .running, eff := { spad := 32, prio := 2, role := 1 } })] }
theorem witness_SwapEvents_room : ((sTaken 2).roleOf 1).map (fun ro => (sTaken 2).codeRoom [] ((sTaken 2).region 1) ro) = some true ∧
    ((sFullI.roleOf 1).map fun ro => sFullI.codeRoom [] (sFullI.region 1) ro).getD false = false ∧
    sFullI.canPreempt { dStart with lvl := 4 } [5] = true ∧ (sFullI.part 5).st = .active ∧ dRes.kind = .resume ∧
    (sOut true).canPreempt dRes [] = true ∧ (sNoBank.canPreempt dRes [5]) = false := by decide +kernel
theorem witness_SwapEvents_in : (sOut true).inTheWay 0 ((sOut true).recLevel ((sOut true).part 0).root) ((sOut true).strandTiles 0) = .go ∧
    ((sSwap c0).part 0).st = .swapping ∧ ((st c0).orderSwap 0 5).tick = 0 ∧
    ((sNoBank.swapIn 0).part 0).st = .swapped := by decide +kernel

/-- Partition 0 halts while swapped out; of its regions one runs, one is loaded with a link error and one without. -/
def sLink : State :=
  { st c0 with
    parts := [(0, { root := 1, st := .swapped })]
    regions := [(1, { gQ with st := .running }), (2, { gQ with rcbPa := 512, loading := 1, chunkErr := true }), (3, { gQ with rcbPa := 768, loading := 1 })] }
theorem witness_TrapsAndHalts_regions : (sLink.part 0).st = .swapped ∧ (sLink.part 0).haltAt ≤ sLink.tick ∧ (sLink.regions.map (·.1)).Nodup ∧
    (∀ r ∈ [1, 2, 3], Tbl.has sLink.regions r = true ∧ (sLink.region r).part = 0) ∧ (sLink.region 1).st = .running ∧
    (sLink.region 2).st = .queued ∧ (sLink.region 2).chunkErr = true ∧ (sLink.region 3).chunkErr = false ∧
    ((sHalting 24).regions.map (·.1)).Nodup := by decide
/-- A launch whose box holds a harvested tile is refused with BOX, and an alternate that the device does not refuse is taken. -/
def sHarv : State := { sLaunch 0xFFF with hv := [(0, 1)] }
theorem witness_ControllerEvents_alternate : (∃ t, sHarv.tryLaunch (launcher 0 5 false) ⟨0, 0⟩ 0x1000 0x1000 = .refused t 0x04 true) ∧
    ((effOf ((List.range 16).map fun i => sHarv.mem.nat (0x1000 + 8 * i) 8)).tilesOf.any sHarv.harvested) = true ∧
    ∃ t n, (sLaunch 0xFFF).tryLaunch (launcher 0 5 false) ⟨0, 0⟩ 0x1000 0x1000 = .ok t n :=
  ⟨isRefused_iff (by decide +kernel), by decide +kernel, isOk_iff (by decide +kernel)⟩

/-- A quad whose eight stages are still on; one that waits for its turn while another of its layer is awake at last. -/
theorem witness_QuadAndPowerEvents_turn : (Tbl.get {} (sQuad { stage := 8 } 1 0).quads 1023).stage = 8 ∧ (Tbl.get {} (sQuad { stage := 8 } 1 0).quads 1023).st ≠ 0 ∧
    (∀ y ∈ (sQuad { stage := 8 } 1 0).wakeQ, y / 64 ≠ 1023 / 64) ∧
    (let s : State := { sQuad { waking := true, stage := 7 } 1 0 with wakeQ := [960] }
     s.wakeQ = 960 :: [] ∧ 960 / 64 = 1023 / 64 ∧ 960 ≠ 1023 ∧ (Tbl.get {} s.quads 960).stage ≠ 8 ∧
       (s.quadUp 1023).wakingIn (1023 / 64) < max 1 s.pgWaves) ∧
    (let s := sQuad { waking := true, stage := 7 } 1 0
     let u : State := { s.unsched fun e => e == .wakeStage 960 with quads := Tbl.put s.quads 960 {} }
     max 1 s.pgWaves ≤ u.wakingIn (960 / 64) ∧ (Tbl.get {} s.quads 960).stage ≠ 8 ∧ ∀ y ∈ s.wakeQ, (Tbl.get {} s.quads y).stage ≠ 8) := by decide +kernel

/-! ### Words of whole rules -/

/-- sxt and zxt of 64 bits, bfx of the last bit and a field that ends at bit 63, and lea with its largest shift; a bfx
whose field passes bit 63 does not decode (R190 to R192). -/
theorem witness_DivideExtendAndFields :
    ((decode (BitVec.ofNat 96 (wordOf 0x1F 0 0 9 4 0 63 0))).map (·.instr) = some (.sxt 9 (.s 4) 63)) ∧
    ((decode (BitVec.ofNat 96 (wordOf 0x20 0 0 9 4 0 63 0))).map (·.instr) = some (.zxt 9 (.s 4) 63)) ∧
    ((decode (BitVec.ofNat 96 (wordOf 0x21 0 1 9 4 0 63 0))).map (·.instr) = some (.bfx true 9 (.s 4) 63 0)) ∧
    ((decode (BitVec.ofNat 96 (wordOf 0x21 0 0 9 4 0 (62 + 64) 0))).map (·.instr) = some (.bfx false 9 (.s 4) 62 1)) ∧
    decode (BitVec.ofNat 96 (wordOf 0x21 0 0 9 4 0 (63 + 64) 0)) = none ∧
    ((decode (BitVec.ofNat 96 (wordOf 0x23 0 0 9 4 5 (7 + 8 * 0x4000) 0))).map (·.instr) = some (.lea 9 (.s 4) (.s 5) 7 0x4000)) ∧
    (regs [(4, 0x0000000100000005)]).src (.s 4) = 0x0000000100000005 := by decide
/-- R191: a field of 8 bits at bit 4; R192: 5 + 3 * 128 - 16384. -/
theorem test_bfx : pend (exec (.bfx true 9 (.s 4) 4 7) (regs [(4, 0xF8F)])) = [(1, .s 9 0xFFFFFFFFFFFFFFF8)] := by decide
theorem test_lea : pend (exec (.lea 9 (.s 4) (.s 5) 7 0x4000) (regs [(4, 5), (5, 3)])) = [(1, .s 9 0xFFFFFFFFFFFFC185)] := by decide

/-! ### A signed image (R52 to R56, R83) -/

/-- Big-endian bytes of a number. -/
def bytesBe (n v : Nat) : List Byte := (leBytes n v).reverse
/-- FIPS 180-4: the digest of "abc". -/
theorem test_sha384 : sha384 [0x61, 0x62, 0x63] =
    0xcb00753f45a35e8bb5a03d699ac65007272c32ab0eded1631a8b605a43ff5bed8086072ba1e7cc2358baeca134c825a7 := by decide +kernel
/-- The bytes of "N16 image", a public point, and a signature made by another implementation of the standard. -/
def sigPoint : List Byte := bytesBe 96 0x7a69f5fab6c24cd14f13834aeb5afa857f2ba1e080d4411dcb0796027fefa4f3dbd52cb462b66de272fe2c4249b6168e0964813acc9b859ec5c99ad130ad183e4135a8ed355e7324e937070d655eec1086d1a59a4095ca4d05a0b1e465f77163
def sigBytes : List Byte := bytesBe 96 0x5928DAEABBC7BC5C5449D7C538C348523752D868A5B35126EB1244E5D2B3FC9E00C327D0C8378E980B44F4B70B9D73DC5D5D3275B2A47B4055711DC502EE19ADE78147155F4D2E04A3A88E9B63D4B059F03D6A0D7FBE1A28C021DC3A8D46D6C4
theorem test_signature : signatureOk sigPoint [0x4E, 0x31, 0x36, 0x20, 0x69, 0x6D, 0x61, 0x67, 0x65] sigBytes = true ∧
    signatureOk sigPoint [0x4E, 0x31, 0x36, 0x20, 0x69, 0x6D, 0x61, 0x67, 0x66] sigBytes = false := by decide +kernel
/-- A file of one role, whose code is one nop, signed under key 7 with security version 5. -/
def imgBytes : List Byte :=
  [3 * 2 ^ 48 + 2 ^ 32 + 0x31495253, 288, 7 * 2 ^ 32 + 5, 64, 1, 0, 0, 0, 1, 160, 12, 2 * 2 ^ 16, 6, 176, 8, 0, 0xFF * 2 ^ 16 + 15, 192, 96, 0,
    0x80000000, 0x1B800000, 0, 0].flatMap (leBytes 8) ++ bytesBe 96 0x320d5566351d60e741cb077d340e6f3078a78f3cf893d92de3a63cb81fdfe9da4669526c899636cfcb203e2b1f8d51526db1a1ac4972cf8013891ad5a0485f9e7bb3d0e2e3ff3b73689c0097720d3515ad9737dc99853879d521290dfb216977
def imgKey (floor : Nat) : CfgKey :=
  { keyid := 7, secfloor := floor
    point := bytesBe 48 0x291d46c532a03963007d7ceea88f14f4cefe1a9252369cd2be68dbdeea9fb383e81b5c79b93cd5b75635244b9811d8dc ++ bytesBe 48 0x7bed8632b3c391be7dccab51ef8e41b23e8de550f6e24da404e905656664fe58078542fb0c5e33633b5379325746c4a7 }
def sImg (floor : Nat) : State :=
  { mem := (addrBytes 0x10000 imgBytes).filter fun e => e.2 != 0, dv := { cfg := { keys := [imgKey floor] } } }
/-- The file verifies while its security version is not below its key's floor (R83). -/
theorem test_image : isVerified ((sImg 5).verifyImage 0x10000 ((sImg 5).fileAt 0x10000)) = true ∧
    isVerified ((sImg 6).verifyImage 0x10000 ((sImg 6).fileAt 0x10000)) = false := by decide +kernel

end Sys2Proof.Tests
end

/-! ### The end of a role's code (R117, R118, R120)

The decoder at that place, the choice of a step with nothing else due, and what a precise trap leaves in the foreground
bank of its tile. -/

namespace Sys2Proof.Machine

/-! #### The decoder -/

/-- Opcode 0 of column 0 is unassigned: no reader takes it (R117). -/
theorem decode_zero : decode 0 = none := by
  have hread : readInstr (unpackFields 0) = none := by decide
  simp only [decode, decodeFields, hread, ite_self]

/-- The decoder, free to pass a word, finds none left in the role (R120). -/
theorem passOne_endOfCode (k : Core) (n : Nat) (c : Ctx) (hfetched : c.pc < c.fpc) (hrun : c.fstop = .run)
    (hgoing : c.ui.going = none) (hend : c.words ≤ c.pc) :
    passOne k n c = some { c with fstop := .illegal c.pc 0 } := by
  simp [passOne, hfetched, hrun, hgoing, hend]

/-- A strand reissues nothing in a handler, or while none of its captures is closed. -/
theorem Ctx.reissues_eq_false (c : Ctx) (h : c.ui.inh = true ∨ ∀ r ∈ c.reps, r.left ≠ 0) : c.reissues = false := by
  obtain hinh | hopen := h
  · simp [Ctx.reissues, hinh]
  · simp only [Ctx.reissues, Bool.and_eq_false_iff]
    exact .inr (by simpa using hopen)

/-- With every earlier word issued, the illegal word is what the strand stands at (R118). -/
theorem Ctx.illegalNow_of_drained (c : Ctx) (pc : Nat) (bits : IWord) (hrun : c.running = true) (hq : c.q = [])
    (hre : c.reissues = false) (hstop : c.fstop = .illegal pc bits) : c.illegalNow = some (pc, bits) := by
  simp [Ctx.illegalNow, hrun, hq, hre, hstop]

/-! #### What is due -/

/-- With nothing of the agenda due, the words alone decide. -/
theorem dueNow_of_quiet (s : State) (h : Claim.quiet s) : dueNow s = dueWord s := by
  unfold dueNow
  split
  next d e r ha =>
    have hlater : s.tick < d := h (d, e) (by simp [ha])
    exact if_neg (by omega)
  next => rfl

/-- With no word to issue, an illegal word takes its trap. -/
theorem dueWord_of_pickIllegal (s : State) (tile pc : Nat) (bits : IWord) (hpick : s.pickTile s.clocked = none)
    (hill : pickIllegal s.clocked = some (tile, pc, bits)) : dueWord s = some (.next (s.illegalTrap tile pc bits)) := by
  simp [dueWord, hpick, hill]

/-- A step answers what is due once the tick's words are decoded. -/
theorem step_of_dueNow (s : State) (o : Out) (h : dueNow s.decodeAll = some o) : step s = o := by
  simp [step, h]

/-! #### A trap in the foreground bank -/

/-- A context lists a stop record (R452). -/
def State.listStop (s : State) (l : Loc) (r : StopRec) : State := s.updCtx l fun c => { c with stops := c.stops ++ [r] }

/-- A trap of a context whose clock runs lists its record and raises the halt line (R446, R447). -/
theorem State.raiseTrap_of_unfrozen (s : State) (l : Loc) (r : StopRec) (h : (s.ctx l).frozen = none) :
    s.raiseTrap l r = (s.listStop l r).raiseHalt l.part (s.tick, l.tile, r.kind, r.code) := by
  unfold State.raiseTrap
  rw [if_neg (by simp [h])]
  simp [State.listStop]

/-- Such a trap in the foreground bank of an active partition: the record is the bank's last, and the partition halts 24
ticks on (R446). -/
theorem State.raiseTrap_active (s : State) (l : Loc) (r : StopRec) (hfg : s.inFg l = true)
    (hrun : (s.ctx l).frozen = none) (hact : (s.part l.part).st = .active) :
    let t := s.raiseTrap l r
    (t.core l.tile).fg = { s.ctx l with stops := (s.ctx l).stops ++ [r] } ∧
      (t.part l.part).st = .halting ∧ (t.part l.part).haltAt = s.tick + 24 := by
  intro t
  have ht : t = (s.listStop l r).raiseHalt l.part (s.tick, l.tile, r.kind, r.code) := s.raiseTrap_of_unfrozen l r hrun
  have hfg' : (s.listStop l r).inFg l = true := s.inFg_updCtx l _ hfg (s.part_ctx l hfg)
  have hctx : (s.listStop l r).ctx l = { s.ctx l with stops := (s.ctx l).stops ++ [r] } :=
    s.ctx_updCtx l _ hfg (s.part_ctx l hfg)
  obtain ⟨-, -, hcores, -, hst, hat, -⟩ :=
    (s.listStop l r).raiseHalt_active l.part (s.tick, l.tile, r.kind, r.code) (by simpa [State.listStop] using hact)
  rw [← ht] at hcores hst hat
  refine ⟨?_, hst, by simpa [State.listStop] using hat⟩
  rw [← hctx, State.ctx_of_inFg _ l hfg']
  simp only [State.core, hcores]

/-- The strand in the foreground bank of a tile issues nothing more, outside any word (R10). -/
def State.stopStrand (s : State) (tile : Nat) : State :=
  ({ s with me := tile, cur := {} } : State).updC fun c => { c with stopped := true }

@[simp] theorem State.stopStrand_fg (s : State) (tile : Nat) :
    ((s.stopStrand tile).core tile).fg = { (s.core tile).fg with stopped := true } :=
  State.c_updC { s with me := tile, cur := {} } _

/-- The place of a word whose bank belongs to a partition. -/
theorem State.here_of_part (s : State) (p : Nat) (h : s.c.part = some p) : s.here = ⟨s.me, p⟩ := by
  simp [State.here, h]

/-- ILLEGAL_ENCODING by its parts: the strand of the partition in the bank stops, and its trap is raised (R118). -/
theorem State.illegalTrap_eq (s : State) (tile pc p : Nat) (bits : IWord) (hpart : (s.core tile).fg.part = some p) :
    s.illegalTrap tile pc bits = (s.stopStrand tile).raiseTrap ⟨tile, p⟩
      (s.mkStop ⟨tile, p⟩ 0 cIllegalEncoding true pc bits.toNat 0 0) := by
  have hhere := State.here_of_part { s with me := tile, cur := {} } p hpart
  unfold State.illegalTrap
  simp only [hhere]
  rfl

/-- A running strand of an active partition that takes it has stopped, its record is the bank's last, and the partition
halts 24 ticks on (R446). -/
theorem State.illegalTrap_active (s : State) (tile pc p : Nat) (bits : IWord) (hpart : (s.core tile).fg.part = some p)
    (hrun : (s.core tile).fg.frozen = none) (hact : (s.part p).st = .active) :
    let t := s.illegalTrap tile pc bits
    (t.core tile).fg = { (s.core tile).fg with
      stopped := true
      stops := (s.core tile).fg.stops ++ [s.mkStop ⟨tile, p⟩ 0 cIllegalEncoding true pc bits.toNat 0 0] } ∧
      (t.part p).st = .halting ∧ (t.part p).haltAt = s.tick + 24 := by
  have hin : (s.stopStrand tile).inFg ⟨tile, p⟩ = true := by simp [State.inFg, hpart]
  have hctx : (s.stopStrand tile).ctx ⟨tile, p⟩ = { (s.core tile).fg with stopped := true } :=
    (State.ctx_of_inFg _ _ hin).trans (s.stopStrand_fg tile)
  have htrap := (s.stopStrand tile).raiseTrap_active ⟨tile, p⟩
    (s.mkStop ⟨tile, p⟩ 0 cIllegalEncoding true pc bits.toNat 0 0) hin (by rw [hctx]; exact hrun) hact
  rw [← s.illegalTrap_eq tile pc p bits hpart, hctx] at htrap
  exact htrap

/-! #### The obligation -/

/-- Settles O5: the decoder's branch at the last word, the choice of a step with nothing else due, and the trap that is
taken there, whose record's program counter of 14 bits is the whole one. -/
theorem endOfCode : Obligations.EndOfCode := by
  refine ⟨decode_zero, passOne_endOfCode, ?now, ?step, ?trap⟩
  case now =>
    intro c pc bits hrun hq hreps hstop
    exact c.illegalNow_of_drained pc bits hrun hq (c.reissues_eq_false hreps) hstop
  case step =>
    intro s tile pc d hquiet hpick hill
    apply step_of_dueNow
    rw [dueNow_of_quiet d hquiet]
    exact dueWord_of_pickIllegal d tile pc 0 hpick hill
  case trap =>
    intro s tile pc p hpart hrun hact hpc t
    obtain ⟨hfg, hst, hat⟩ := s.illegalTrap_active tile pc p 0 hpart hrun hact
    rw [hfg]
    exact ⟨rfl, hst, hat, _, rfl, rfl, rfl, Nat.mod_eq_of_lt hpc, rfl⟩

end Sys2Proof.Machine

/-! ### Division, extension and field words (R183, R185, R189 to R192)

The bit-vector form of the common steps, the fields that a decoded word was read from, and the words of O60. -/

namespace Sys2Proof

/-! #### The parts of a joined field -/

/-- Bits of a joined field that lie within its low part. -/
theorem extractLsb'_cat_low {n m k : Nat} (x : BitVec n) (y : BitVec m) (s l : Nat) (hm : s + l ≤ m) (hk : s + l ≤ k) :
    (cat x y : BitVec k).extractLsb' s l = y.extractLsb' s l := by
  rw [cat, BitVec.extractLsb'_setWidth_of_le hk, BitVec.extractLsb'_append_eq_of_add_le hm]

/-- Bits of a joined field that lie within its high part. -/
theorem extractLsb'_cat_high {n m k : Nat} (x : BitVec n) (y : BitVec m) (s l : Nat) (hm : m ≤ s) (hk : s + l ≤ k) :
    (cat x y : BitVec k).extractLsb' s l = x.extractLsb' (s - m) l := by
  rw [cat, BitVec.extractLsb'_setWidth_of_le hk, BitVec.extractLsb'_append_eq_of_le hm]

/-- Bits of a field are bits of the word that it stands in. -/
theorem extractLsb'_extractLsb'_of_add_le {n : Nat} (w : BitVec n) (a b s l : Nat) (h : s + l ≤ b) :
    (w.extractLsb' a b).extractLsb' s l = w.extractLsb' (a + s) l := by
  ext i hi
  have hb : s + i < b := by omega
  simp [hb, Nat.add_assoc]

/-- Bits of the immediate are bits 49:32 of the word (R106). -/
theorem unpackFields_imm_extract (w : IWord) (s l : Nat) (h : s + l ≤ 18) :
    (unpackFields w).imm.extractLsb' s l = w.extractLsb' (32 + s) l :=
  extractLsb'_extractLsb'_of_add_le w 32 18 s l h

/-- The low bit of the variant is bit 80 of the word (R106). -/
theorem unpackFields_var_lsb (w : IWord) : (unpackFields w).var.getLsbD 0 = w.getLsbD 80 := by
  simp [unpackFields]

/-- A variant of which only bit 80 is named holds it in its low bit. -/
theorem var80_lsb (b : Bool) : (var80 b).getLsbD 0 = b := by
  cases b <;> decide

/-! #### A decoded word -/

/-- A decoded word holds a well-formed instruction whose fields are the word's own (R117). -/
theorem decode_eq_some {w : IWord} {x : Inst} (h : decode w = some x) :
    x.instr.wf = true ∧ fieldsOf x.instr = some (unpackFields w) := by
  unfold decode at h
  split at h
  next =>
    split at h
    next i hi =>
      obtain rfl : _ = x := Option.some.inj h
      unfold decodeFields at hi
      split at hi
      next j _ =>
        split at hi
        next hok =>
          obtain rfl : j = i := Option.some.inj hi
          simpa using hok
        next => cases hi
      next => cases hi
    next => cases h
  next => cases h

/-- The bits of a decoded word that hold its immediate. -/
theorem imm_of_decode {w : IWord} {x : Inst} {f : Fields} (h : decode w = some x) (hf : fieldsOf x.instr = some f)
    (s l : Nat) (hl : s + l ≤ 18) : f.imm.extractLsb' s l = w.extractLsb' (32 + s) l := by
  obtain ⟨-, hw⟩ := decode_eq_some h
  obtain rfl : f = unpackFields w := Option.some.inj (hf.symm.trans hw)
  exact unpackFields_imm_extract w s l hl

/-- Bit 80 of a decoded word is the low bit of its variant. -/
theorem var_of_decode {w : IWord} {x : Inst} {f : Fields} (h : decode w = some x) (hf : fieldsOf x.instr = some f) :
    f.var.getLsbD 0 = w.getLsbD 80 := by
  obtain ⟨-, hw⟩ := decode_eq_some h
  obtain rfl : f = unpackFields w := Option.some.inj (hf.symm.trans hw)
  exact unpackFields_var_lsb w

/-- An immediate of six bits: the number, and reserved bits that are zero. -/
theorem imm6_of_decode {w : IWord} {x : Inst} {f : Fields} {n : BitVec 6} (h : decode w = some x)
    (hf : fieldsOf x.instr = some f) (hn : f.imm = imm6 n) : n = w.extractLsb' 32 6 ∧ w.extractLsb' 38 12 = 0 := by
  have hlow := imm_of_decode h hf 0 6 (by decide)
  have hhigh := imm_of_decode h hf 6 12 (by decide)
  rw [hn, imm6, extractLsb'_cat_low _ _ _ _ (by decide) (by decide), BitVec.extractLsb'_eq_self] at hlow
  rw [hn, imm6, extractLsb'_cat_high _ _ _ _ (by decide) (by decide)] at hhigh
  exact ⟨hlow, hhigh.symm⟩

/-- sxt and zxt hold n - 1 in immediate bits 5:0, and the other bits are reserved (R189). -/
theorem extend_of_decode (w : IWord) (x : Inst) (d : BitVec 6) (a : Src) (n1 : BitVec 6) (h : decode w = some x)
    (hi : x.instr = .sxt d a n1 ∨ x.instr = .zxt d a n1) : n1 = w.extractLsb' 32 6 ∧ w.extractLsb' 38 12 = 0 := by
  rcases hi with hi | hi
  · exact imm6_of_decode h (congrArg fieldsOf hi) rfl
  · exact imm6_of_decode h (congrArg fieldsOf hi) rfl

/-- bfx holds pos, len - 1 and .s where R190 puts them, and its field ends at bit 63 at most. -/
theorem bfx_of_decode (w : IWord) (x : Inst) (h : decode w = some x) (sgn : Bool) (d : BitVec 6) (a : Src)
    (pos len1 : BitVec 6) (hi : x.instr = .bfx sgn d a pos len1) :
    sgn = w.getLsbD 80 ∧ pos = w.extractLsb' 32 6 ∧ len1 = w.extractLsb' 38 6 ∧ w.extractLsb' 44 6 = 0 ∧
      pos.toNat + (len1.toNat + 1) ≤ 64 := by
  have hf := congrArg fieldsOf hi
  have hsgn := var_of_decode h hf
  have hpos := imm_of_decode h hf 0 6 (by decide)
  have hlen := imm_of_decode h hf 6 6 (by decide)
  have hres := imm_of_decode h hf 12 6 (by decide)
  have hwf := (decode_eq_some h).1
  rw [var80_lsb] at hsgn
  rw [extractLsb'_cat_low _ _ _ _ (by decide) (by decide), extractLsb'_cat_low _ _ _ _ (by decide) (by decide),
    BitVec.extractLsb'_eq_self] at hpos
  rw [extractLsb'_cat_low _ _ _ _ (by decide) (by decide), extractLsb'_cat_high _ _ _ _ (by decide) (by decide),
    BitVec.extractLsb'_eq_self] at hlen
  rw [extractLsb'_cat_high _ _ _ _ (by decide) (by decide)] at hres
  rw [hi] at hwf
  exact ⟨hsgn, hpos, hlen, hres.symm, of_decide_eq_true hwf⟩

/-- lea holds its shift in immediate bits 2:0 and its displacement above (R192). -/
theorem lea_of_decode (w : IWord) (x : Inst) (h : decode w = some x) (d : BitVec 6) (a b : Src) (sh : BitVec 3)
    (disp : BitVec 15) (hi : x.instr = .lea d a b sh disp) :
    sh = w.extractLsb' 32 3 ∧ disp = w.extractLsb' 35 15 := by
  have hf := congrArg fieldsOf hi
  have hsh := imm_of_decode h hf 0 3 (by decide)
  have hdisp := imm_of_decode h hf 3 15 (by decide)
  rw [extractLsb'_cat_low _ _ _ _ (by decide) (by decide), BitVec.extractLsb'_eq_self] at hsh
  rw [extractLsb'_cat_high _ _ _ _ (by decide) (by decide), BitVec.extractLsb'_eq_self] at hdisp
  exact ⟨hsh, hdisp⟩

end Sys2Proof

namespace Sys2Proof.Machine

open Claim

/-! #### The common steps as bit vectors (R183) -/

/-- Sign extension of the low n bits, as a bit vector's signed value. -/
theorem sextN_eq_toInt (v n : Nat) : sextN v n = (BitVec.ofNat n v).toInt := by
  cases n with
  | zero => simp [sextN, Nat.mod_one, BitVec.of_length_zero]
  | succ n =>
    rw [BitVec.toInt_eq_toNat_cond, BitVec.toNat_ofNat]
    simp only [sextN, Nat.add_sub_cancel]
    have hpow : 2 ^ (n + 1) = 2 * 2 ^ n := by rw [Nat.pow_succ, Nat.mul_comm]
    split <;> split <;> omega

/-- No type is wider than a scalar. -/
theorem tyBits_le (t : Ty) : tyBits t ≤ 64 := by
  cases t <;> decide

/-- The number that a pattern holds: signed for the i types, unsigned for the others. -/
theorem tyVal_eq (t : Ty) (v : Nat) :
    tyVal t v = if t.isI then (BitVec.ofNat (tyBits t) v).toInt else ((BitVec.ofNat (tyBits t) v).toNat : Int) := by
  rw [← sextN_eq_toInt, BitVec.toNat_ofNat]
  cases hI : t.isI <;> simp [tyVal, sextN, hI]

/-- A number's pattern is the number modulo the type's width. -/
theorem ofNat_tyPat (t : Ty) (x : Int) : BitVec.ofNat (tyBits t) (tyPat t x) = BitVec.ofInt (tyBits t) x := by
  apply BitVec.eq_of_toNat_eq
  have hpos : (0 : Int) < ((2 ^ tyBits t : Nat) : Int) := Int.natCast_pos.mpr (Nat.two_pow_pos _)
  have hlt := Int.emod_lt_of_pos x hpos
  have hnn := Int.emod_nonneg x (Int.ne_of_gt hpos)
  rw [BitVec.toNat_ofNat, BitVec.toNat_ofInt, tyPat, Nat.mod_eq_of_lt (by omega)]

/-- A number wrapped at one width and cut to a smaller one is the number wrapped at that. -/
theorem setWidth_ofInt {v w : Nat} (h : v ≤ w) (x : Int) : (BitVec.ofInt w x).setWidth v = BitVec.ofInt v x := by
  have hdvd : ((2 ^ v : Nat) : Int) ∣ ((2 ^ w : Nat) : Int) := Int.natCast_dvd_natCast.mpr (Nat.pow_dvd_pow 2 h)
  have hpos : (0 : Int) < ((2 ^ w : Nat) : Int) := Int.natCast_pos.mpr (Nat.two_pow_pos _)
  have hnn := Int.emod_nonneg x (Int.ne_of_gt hpos)
  apply BitVec.eq_of_toNat_eq
  rw [BitVec.toNat_setWidth, BitVec.toNat_ofInt, BitVec.toNat_ofInt, ← Int.emod_emod_of_dvd x hdvd,
    Int.toNat_emod hnn (Int.natCast_nonneg _), Int.toNat_natCast]

/-- Without .sat, the common steps write the low bits of the result at the type's width, extended (R183). -/
theorem resWord_eq_written (t : Ty) (x : Int) : resWord t false x = written t x := by
  have hres : resWord t false x = BitVec.ofInt 64 (tyVal t (tyPat t x)) := rfl
  have hlow : (BitVec.ofInt 64 x).setWidth (tyBits t) = BitVec.ofInt (tyBits t) x := setWidth_ofInt (tyBits_le t) x
  rw [hres, tyVal_eq, ofNat_tyPat, written, widen, hlow]
  split
  · rfl
  · rw [BitVec.ofInt_natCast, BitVec.ofNat_toNat]

/-! #### Two-source words (R185) -/

/-- The number of patterns of a width, as an integer. -/
theorem natCast_two_pow (w : Nat) : ((2 ^ w : Nat) : Int) = 2 ^ w := Int.natCast_pow 2 w

/-- A two-source word completes with its result; its sources are those of mulh. -/
theorem intBin_eq (s : State) (lat : Nat) (o : Bin) (f : Int → Int → Int) :
    intBin s lat false o f = .next (((intSources (.mulh o)).foldl State.seen s).putS lat o.d
      (written o.t (f (s.val o.t o.a) (s.valB o.t o.b)))) := by
  have hseen : (intSources (.mulh o)).foldl State.seen s = (s.seen o.a).seenB o.b := by
    obtain ⟨t, d, a, b⟩ := o
    cases b with
    | reg r => rfl
    | imm v => rfl
  rw [hseen, ← resWord_eq_written]
  rfl

/-- The divisor 0 gives all ones (R185). -/
theorem divRes_eq (t : Ty) (a b : Int) : divRes t a b = if b = 0 then 2 ^ tyBits t - 1 else a.tdiv b := by
  rw [divRes, natCast_two_pow]

/-! #### Extensions, fields and addresses (R189 to R192) -/

/-- A field of a scalar: the low bits of the scalar shifted right. -/
theorem extractLsb'_eq_ofNat_div (x : Word) (pos n : Nat) : x.extractLsb' pos n = BitVec.ofNat n (x.toNat / 2 ^ pos) := by
  rw [BitVec.extractLsb', Nat.shiftRight_eq_div_pow]

/-- Sign extension of a field (R189, R190). -/
theorem ofInt_sextN_field (x : Word) (pos n : Nat) :
    BitVec.ofInt 64 (sextN (x.toNat / 2 ^ pos) n) = (x.extractLsb' pos n).signExtend 64 := by
  rw [sextN_eq_toInt, extractLsb'_eq_ofNat_div, BitVec.signExtend]

/-- Zero extension of a field (R189, R190). -/
theorem ofNat_mod_field (x : Word) (pos n : Nat) :
    BitVec.ofNat 64 (x.toNat / 2 ^ pos % 2 ^ n) = (x.extractLsb' pos n).setWidth 64 := by
  rw [extractLsb'_eq_ofNat_div, ← BitVec.ofNat_toNat, BitVec.toNat_ofNat]

/-- A bit of bfi: A's bit within the field, B's outside it (R191). -/
theorem bfiVal_getLsbD (a b c i : Nat) (hi : i < 64) :
    (bfiVal a b c).getLsbD i =
      if c % 64 ≤ i ∧ i - c % 64 < c / 64 % 64 + 1 then a.testBit (i - c % 64) else b.testBit i := by
  have hmask (m : Nat) : 2 ^ 64 - 1 - m % 2 ^ 64 = 2 ^ 64 - (m % 2 ^ 64 + 1) := by omega
  have hlt (m : Nat) : m % 2 ^ 64 < 2 ^ 64 := Nat.mod_lt m (by decide)
  simp only [bfiVal, hmask, BitVec.getLsbD_ofNat, Nat.testBit_or, Nat.testBit_and, Nat.testBit_two_pow_sub_succ (hlt _),
    Nat.testBit_mod_two_pow, Nat.testBit_mul_two_pow, Nat.testBit_two_pow_sub_one]
  obtain hbelow | hlow := Nat.lt_or_ge i (c % 64)
  · simp [Nat.not_le.mpr hbelow, hi]
  · obtain hwithin | habove := Nat.lt_or_ge (i - c % 64) (c / 64 % 64 + 1)
    · simp [hlow, hwithin, hi]
    · simp [hlow, Nat.not_lt.mpr habove, hi]

/-- The same bit, with the field's ends read from C and its bits above 63 dropped (R191). -/
theorem bfiVal_field (a b c : Word) (i : Nat) (hi : i < 64) :
    let p := (c.extractLsb' 0 6).toNat
    let len := (c.extractLsb' 6 6).toNat + 1
    (bfiVal a.toNat b.toNat c.toNat).getLsbD i =
      if p ≤ i ∧ i ≤ min (p + len - 1) 63 then a.getLsbD (i - p) else b.getLsbD i := by
  intro p len
  have hp : c.toNat % 64 = p := by simp [p]
  have hlen : c.toNat / 64 % 64 + 1 = len := by simp [len, Nat.shiftRight_eq_div_pow]
  have hin : (p ≤ i ∧ i - p < len) ↔ (p ≤ i ∧ i ≤ min (p + len - 1) 63) := by omega
  rw [bfiVal_getLsbD _ _ _ i hi, hp, hlen, BitVec.testBit_toNat, BitVec.testBit_toNat]
  simp only [hin]

/-- The address of lea as a sum of numbers modulo 2^64 (R192). -/
theorem leaVal_eq (a b : Word) (sh : Nat) (disp : BitVec 15) :
    a + (b <<< sh) + disp.signExtend 64 = BitVec.ofInt 64 (a.toNat + b.toNat * 2 ^ sh + disp.toInt) := by
  have hshift : b <<< sh = BitVec.ofNat 64 (b.toNat * 2 ^ sh) := by
    apply BitVec.eq_of_toNat_eq
    rw [BitVec.toNat_shiftLeft, BitVec.toNat_ofNat, Nat.shiftLeft_eq]
  have hsum : (a.toNat : Int) + b.toNat * 2 ^ sh = ((a.toNat + b.toNat * 2 ^ sh : Nat) : Int) := by
    rw [Int.natCast_add, Int.natCast_mul, natCast_two_pow]
  rw [hshift, hsum, BitVec.ofInt_add, BitVec.ofInt_natCast, BitVec.ofNat_add, BitVec.ofNat_toNat, BitVec.setWidth_eq,
    BitVec.signExtend]

/-! #### The obligation -/

/-- mulh to remn complete with what R185's pseudocode computes. -/
theorem divideWords_complete (s : State) (o : Bin) :
    let w := tyBits o.t
    let a := s.val o.t o.a
    let b := s.valB o.t o.b
    let q : Int := if b = 0 then 2 ^ w - 1 else a.tdiv b
    let m : Int := if b = 0 then a else a - a.tdiv b * b
    let t (i : Instr) (lat : Nat) (x : Int) : State := ((intSources i).foldl State.seen s).putS lat o.d (written o.t x)
    exec (.mulh o) s = .next (t (.mulh o) 3 (a * b / 2 ^ w)) ∧ exec (.mulhn o) s = .next (t (.mulhn o) 3 (a * b / 2 ^ w)) ∧
      exec (.div o) s = .next (t (.div o) 12 q) ∧ exec (.divn o) s = .next (t (.divn o) 12 q) ∧
      exec (.rem o) s = .next (t (.rem o) 12 m) ∧ exec (.remn o) s = .next (t (.remn o) 12 m) := by
  intro w a b q m t
  have hmul : intBin s 3 false o (fun a b => a * b / ((2 ^ tyBits o.t : Nat) : Int)) =
      .next (t (.mulh o) 3 (a * b / 2 ^ w)) := by
    rw [intBin_eq]
    simp only [natCast_two_pow, t, a, b, w]
  have hdiv : intBin s 12 false o (divRes o.t) = .next (t (.mulh o) 12 q) := by
    rw [intBin_eq, divRes_eq]
  have hrem : intBin s 12 false o remRes = .next (t (.mulh o) 12 m) := intBin_eq s 12 o remRes
  exact ⟨hmul, hmul, hdiv, hdiv, hrem, hrem⟩

/-- sxt and zxt extend the low n bits (R189). -/
theorem extendWords_complete (s : State) (d : BitVec 6) (a : Src) (n1 : BitVec 6) :
    exec (.sxt d a n1) s = .next ((s.seen a).putS 1 d (((s.src a).extractLsb' 0 (n1.toNat + 1)).signExtend 64)) ∧
    exec (.zxt d a n1) s = .next ((s.seen a).putS 1 d (((s.src a).extractLsb' 0 (n1.toNat + 1)).setWidth 64)) := by
  rw [← ofInt_sextN_field, ← ofNat_mod_field, Nat.pow_zero, Nat.div_one]
  exact ⟨rfl, rfl⟩

/-- bfx extends the field at pos, by its sign with .s (R190). -/
theorem bfxWords_complete (s : State) (d : BitVec 6) (a : Src) (pos len1 : BitVec 6) :
    let f := (s.src a).extractLsb' pos.toNat (len1.toNat + 1)
    exec (.bfx true d a pos len1) s = .next ((s.seen a).putS 1 d (f.signExtend 64)) ∧
    exec (.bfx false d a pos len1) s = .next ((s.seen a).putS 1 d (f.setWidth 64)) := by
  intro f
  rw [← ofInt_sextN_field, ← ofNat_mod_field]
  exact ⟨rfl, rfl⟩

/-- lea writes the address (R192). -/
theorem lea_completes (s : State) (d : BitVec 6) (a b : Src) (sh : BitVec 3) (disp : BitVec 15) :
    exec (.lea d a b sh disp) s = .next (((s.seen a).seen b).putS 1 d
      (BitVec.ofInt 64 ((s.src a).toNat + (s.src b).toNat * 2 ^ sh.toNat + disp.toInt))) := by
  rw [← leaVal_eq]
  rfl

/-- Settles O60: each word writes its rule's result in bit-vector form; its operands stand where the decoder read them;
and the fixed values evaluate. -/
theorem divideExtendAndFields : Obligations.DivideExtendAndFields := by
  refine ⟨divideWords_complete, extendWords_complete, extend_of_decode, ?words, ?encoding, by decide, ?narrow⟩
  case words =>
    intro s d a b c pos len1 sh disp
    exact ⟨bfxWords_complete s d a pos len1,
      ⟨bfiVal (s.src a).toNat (s.src b).toNat (s.src c).toNat, rfl, bfiVal_field (s.src a) (s.src b) (s.src c)⟩,
      lea_completes s d a b sh disp⟩
  case encoding =>
    intro w x h
    exact ⟨bfx_of_decode w x h, lea_of_decode w x h⟩
  case narrow =>
    intro s r h
    simp only [State.val, h]
    decide

end Sys2Proof.Machine

/-! ### Predicate, index and mask words (R193 to R195, R261, R276)

The result of each word in the form that its meaning computes; the words then complete by their definitions. -/

namespace Sys2Proof.Machine

open Claim

/-! #### Predicate words (R193, R194) -/

/-- The result of cmp is the condition on its operands as numbers of the type (R193). -/
theorem predResult_cmp (s : State) (cc : Cond) (t : Ty) (d : BitVec 4) (a : Src) (b : CmpB) :
    predResult s (.cmp cc t d a b) = some (d, cmpCond cc t (s.val t a) (s.valC t b)) := by
  cases cc with
  | ne => exact congrArg (fun r => some (d, r)) (decide_not (p := s.val t a = s.valC t b))
  | eq | lt | le | gt | ge | tst => rfl

/-- cmp completes with its condition, after the fraction of tm.now is latched for the sources that read it (R193, R198). -/
theorem cmp_completes (s : State) (cc : Cond) (t : Ty) (d : BitVec 4) (a : Src) (b : CmpB) :
    exec (.cmp cc t d a b) s = .next (((intSources (.cmp cc t d a b)).foldl State.seen s).putP 1 d
      (cmpCond cc t (s.val t a) (s.valC t b))) := by
  cases b with
  | reg r => rfl
  | imm v => rfl

/-- Every predicate word completes with its result. -/
theorem predWord_completes (s : State) (i : Instr) (d : BitVec 4) (b : Bool) (h : predResult s i = some (d, b)) :
    exec i s = .next (((intSources i).foldl State.seen s).putP 1 d b) := by
  unfold predResult at h
  split at h
  next cc t e a c =>
    obtain ⟨rfl, rfl⟩ := Prod.mk.inj (Option.some.inj ((predResult_cmp s cc t e a c).symm.trans h))
    exact cmp_completes s cc t e a c
  next => cases h; rfl
  next => cases h; rfl
  next => cases h; rfl
  next => cases h; rfl
  next => cases h

/-! #### setx (R195) -/

/-- Cutting a sign-extended number is sign-extending it to the smaller width. -/
theorem setWidth_signExtend_of_le {n v w : Nat} (h : v ≤ w) (x : BitVec n) :
    (x.signExtend w).setWidth v = x.signExtend v :=
  setWidth_ofInt h x.toInt

/-- The low bits of a sum with a sign-extended number are the sum at that number's own width. -/
theorem setWidth_signExtend_add {v w : Nat} (h : v ≤ w) (x : BitVec v) (y : BitVec w) :
    (x.signExtend w + y).setWidth v = x + y.setWidth v := by
  rw [BitVec.setWidth_add _ _ h, setWidth_signExtend_of_le h, BitVec.signExtend_eq]

/-- The low 16 bits of the immediate of setx do not depend on how it is extended (R195). -/
theorem setWidth_setxImm (v : BitVec 18) : (v.signExtend 64).setWidth 16 = v.setWidth 16 := by
  rw [setWidth_signExtend_of_le (by decide), BitVec.signExtend_eq_setWidth_of_le v (by decide)]

/-- The operand of setx as 64 bits: a source, or the immediate sign-extended (R195). -/
def State.setxArg (s : State) : SrcB → Word
  | .reg r => s.src r
  | .imm v => v.signExtend 64

/-- The number that setx computes at 64 bits: its operand, with .add on top of the register (R195). -/
def State.setxSum (s : State) (addm : Bool) (d : BitVec 2) (a : SrcB) : Word :=
  if addm then (s.c.xreg d.toNat).signExtend 64 + s.setxArg a else s.setxArg a

/-- The result of setx, computed at 16 bits, is the low 16 bits of the 64-bit sum (R195). -/
theorem indexResult_setx (s : State) (addm : Bool) (d : BitVec 2) (a : SrcB) :
    indexResult s (.setx addm d a) = some (d, (s.setxSum addm d a).setWidth 16) := by
  have hadd := setWidth_signExtend_add (w := 64) (by decide) (s.c.xreg d.toNat)
  cases a with
  | reg r => cases addm <;> simp [indexResult, State.setxSum, State.setxArg, hadd]
  | imm v => cases addm <;> simp [indexResult, State.setxSum, State.setxArg, hadd, setWidth_setxImm]

/-- setx completes with the low 16 bits of its 64-bit sum, after the fraction of tm.now is latched where its source reads
it (R195, R198). -/
theorem setx_completes (s : State) (addm : Bool) (d : BitVec 2) (a : SrcB) :
    exec (.setx addm d a) s = .next (((intSources (.setx addm d a)).foldl State.seen s).result 1
      (.x d.toNat ((s.setxSum addm d a).setWidth 16))) := by
  cases a with
  | reg r => rfl
  | imm v => rfl

/-- setx, the only word with an index result, completes with it. -/
theorem indexWord_completes (s : State) (i : Instr) (d : BitVec 2) (v : BitVec 16) (h : indexResult s i = some (d, v)) :
    exec i s = .next (((intSources i).foldl State.seen s).result 1 (.x d.toNat v)) := by
  unfold indexResult at h
  split at h
  next addm e a =>
    obtain ⟨rfl, rfl⟩ := Prod.mk.inj (Option.some.inj ((indexResult_setx s addm e a).symm.trans h))
    exact setx_completes s addm e a
  next => cases h

/-! #### Mask words (R261) -/

/-- A mask word of two operands completes with its function of them, in all 32 bits. -/
theorem mask3_eq (s : State) (z : Bool) (d a : BitVec 3) (b : MSrc) (f : Lane → Lane → Lane) :
    mask3 s z d a b f = .next ((maskSeen s b).result 1
      (.m d.toNat 0xFFFFFFFF (f (if z then 0 else s.c.mreg a.toNat) (s.maskSrc b)))) := by
  cases b with
  | m n => rfl
  | s x => rfl

/-! #### The obligation -/

/-- Settles O12: each predicate word, setx, mask word and frngk puts in flight the result that its rule gives. -/
theorem predicateIndexAndMaskWords : Obligations.PredicateIndexAndMaskWords := by
  refine ⟨⟨?pred, ?index⟩, ?mask⟩
  case pred => exact fun s i d b _ h => predWord_completes s i d b h
  case index => exact fun s i d v _ h => indexWord_completes s i d v h
  case mask =>
    intro s
    exact ⟨fun z d a b => mask3_eq s z d a b (· &&& ·), fun z d a b => mask3_eq s z d a b (· ||| ·),
      fun z d a b => mask3_eq s z d a b (· ^^^ ·), fun _ _ => rfl, fun _ _ => rfl⟩

end Sys2Proof.Machine

/-! ### Tag words and wsq (R322, R323)

What reading a source leaves of the tag table, the checks of tset, and then one completion theorem per word. -/

namespace Sys2Proof.Machine

/-! #### Changes of a context -/

/-- Reading a source leaves the tag table as it is (R198, R293). -/
@[simp] theorem State.tags_seen (s : State) (a : Src) : (s.seen a).c.tags = s.c.tags := by
  cases a with
  | s n => rfl
  | sp r =>
    cases r with
    | tmNow => simp [State.seen]
    | _ => rfl

/-- Two changes that agree on the context at hand leave the same state. -/
theorem State.updC_congr {s : State} {f g : Ctx → Ctx} (h : f s.c = g s.c) : s.updC f = s.updC g :=
  congrArg s.setC h

/-! #### Tag words (R322) -/

/-- The block number of an operand below 2^56 fills no more than its 44 bits (R322). -/
theorem tagBlock_eq_div {v : Nat} (h : v < 2 ^ 56) : v / 4096 % 2 ^ 44 = v / 4096 :=
  Nat.mod_eq_of_lt (by omega)

/-- No valid entry of another slot holds a block that only the named slot may hold (R322). -/
theorem tagDuplicate_eq_false {tags : Tbl TagEnt} {slot blk : Nat}
    (h : ∀ e ∈ tags, e.2.v = true → e.2.blk = blk → e.1 = slot) :
    (tags.any fun e => e.2.v && e.2.blk == blk && e.1 != slot) = false := by
  simpa [List.any_eq_false, -Prod.forall] using h

/-- tlook answers from the valid entry with the block of its operand (R322). -/
theorem tlook_completes (s : State) (d : BitVec 6) (a : Src) :
    exec (.tlook d a) s = .next ((s.seen a).putS 2 d (BitVec.ofNat 64
      (match s.c.tagFind ((s.src a).toNat / 4096 % 2 ^ 44) with
       | some x => x.1 + (if x.2.d then 65536 else 0)
       | none => 0xFFFF))) := by
  cases h : s.c.tagFind ((s.src a).toNat / 4096 % 2 ^ 44) with
  | none => simp only [exec, execTlook, h]; rfl
  | some x => simp only [exec, execTlook, h]; rfl

/-- tset passes its checks and lists the entry valid and clean (R322). -/
theorem tset_completes (s : State) (a b : Src) (hslot : (s.src a).toNat < 512) (halign : (s.src b).toNat % 4096 = 0)
    (hblk : (s.src b).toNat < 2 ^ 56)
    (hdup : ∀ e ∈ s.c.tags, e.2.v = true → e.2.blk = (s.src b).toNat / 4096 → e.1 = (s.src a).toNat)
    (hshare : 4096 * (s.src a).toNat + 4096 ≤ s.c.share) :
    exec (.tset a b) s = .next (((s.seen a).seen b).updC fun c =>
      { c with tags := Tbl.put c.tags (s.src a).toNat ⟨true, false, (s.src b).toNat / 4096⟩ }) := by
  simp only [exec, execTset, tagBlock_eq_div hblk, tagDuplicate_eq_false hdup]
  rw [guardT_go _ _ _ _ (by simpa [hslot, halign] using hblk), guardT_go _ _ _ _ (decide_eq_true hshare)]
  rfl

/-- tclr of a listed slot clears the dirty bit of its entry (R322). -/
theorem tclr_of_listed (s : State) (a : Src) (e : TagEnt) (hslot : (s.src a).toNat < 512)
    (hfind : Tbl.find s.c.tags (s.src a).toNat = some e) :
    exec (.tclr a) s = .next ((s.seen a).updC fun c =>
      { c with tags := Tbl.put c.tags (s.src a).toNat { e with d := false } }) := by
  simp only [exec, execTclr, guardT_go _ _ _ _ (decide_eq_true hslot)]
  exact congrArg Host.Outcome.next (State.updC_congr (by simp [hfind]))

/-- tclr of a slot that lists nothing leaves the context as its source's read left it (R322). -/
theorem tclr_of_unlisted (s : State) (a : Src) (hslot : (s.src a).toNat < 512)
    (hfind : Tbl.find s.c.tags (s.src a).toNat = none) :
    exec (.tclr a) s = .next ((s.seen a).updC id) := by
  simp only [exec, execTclr, guardT_go _ _ _ _ (decide_eq_true hslot)]
  exact congrArg Host.Outcome.next (State.updC_congr (by simp [hfind]))

/-- tinv of a slot drops what it lists (R322). -/
theorem tinv_completes (s : State) (a : Src) (hslot : (s.src a).toNat < 512) :
    exec (.tinv (some a)) s = .next ((s.seen a).updC fun c =>
      { c with tags := Tbl.del c.tags (s.src a).toNat }) :=
  guardT_go _ _ _ _ (decide_eq_true hslot)

/-! #### The obligation -/

/-- Settles O19: each tag word passes its checks and acts on the table; tinv.all and wsq, which check nothing, act by their
definitions. -/
theorem tagWords : Obligations.TagWords := by
  intro s
  refine ⟨?tlook, ?tset, ?tclrListed, ?tclrUnlisted, ?tinv, ?tinvAll, ?wsq⟩
  case tlook => exact tlook_completes s
  case tset => exact tset_completes s
  case tclrListed => exact tclr_of_listed s
  case tclrUnlisted => exact tclr_of_unlisted s
  case tinv => exact tinv_completes s
  case tinvAll => rfl
  case wsq => exact fun _ => rfl

end Sys2Proof.Machine

/-! ### The receive table's words and clsord (R398, R412, R414 to R416)

The checks of a buffer word, then one completion theorem per word and branch. -/

namespace Sys2Proof.Machine

open Claim

/-! #### The checks of a buffer word (R404) -/

/-- A buffer that fits, of a word with no part of its own in the checks: the word goes on. -/
theorem bufCheck_go (s : State) (w : Word) (off : Nat) (k : Out) (h : bufFits s w off) :
    bufCheck s w false false off k = k := by
  obtain ⟨hform, haddr, hoff, hown, hother⟩ := h
  rw [bufCheck, guardT_go _ _ _ _ (by simpa using hform), guardT_go _ _ _ _ (by simp [haddr, hoff]),
    guardT_go _ (!false) _ _ rfl, guardT_go _ _ _ _ (by simp [hown, hother])]

/-! #### rvcan (R412) -/

/-- rvcan of a handle that is not posted changes nothing. -/
theorem rvcan_of_not_posted (s : State) (a : Src) (hkind : s.c.kind = .elastic) (hlt : (s.src a).toNat < 64)
    (hst : (s.c.handle (s.src a).toNat).st ≠ .posted) : exec (.rvcan a) s = .next (s.seen a) :=
  (elastic_go _ _ hkind).trans <| (guardT_go _ _ _ _ (decide_eq_true hlt)).trans <| if_neg (by simpa using hst)

/-- rvcan cancels a posted handle, and its token, where it has one, completes on the next tick. -/
theorem rvcan_of_posted (s : State) (a : Src) (hkind : s.c.kind = .elastic) (hlt : (s.src a).toNat < 64)
    (hst : (s.c.handle (s.src a).toNat).st = .posted) :
    let hd := s.c.handle (s.src a).toNat
    let t := (s.seen a).updC fun c => c.setHandle (s.src a).toNat { hd with st := .cancelled }
    exec (.rvcan a) s = .next ((match hd.tok with
      | some k => t.tokDone s.here k (s.T + 1)
      | none => t).changed s.here) :=
  (elastic_go _ _ hkind).trans <| (guardT_go _ _ _ _ (decide_eq_true hlt)).trans <| if_pos (by simpa using hst)

/-! #### The overflow area (R414, R415) -/

/-- probe answers from the oldest message that meets the criteria. -/
theorem probe_completes (s : State) (tag : Bool) (d : BitVec 6) (a : Src) (hkind : s.c.kind = .elastic) :
    exec (.probe tag d a) s = .next ((s.seen a).putS 2 d (match s.c.ovf.find? (meets (s.src a)) with
      | some m => if tag then BitVec.ofNat 64 m.tag else statusWord true false 0 (msgSrc m) m.len
      | none => if tag then 0xFFFFFFFFFFFFFFFF else 0)) :=
  elastic_go _ _ hkind

/-- ovfpop of an empty overflow area answers 0. -/
theorem ovfpop_of_empty (s : State) (d : BitVec 6) (a : Src) (hkind : s.c.kind = .elastic)
    (hfits : bufFits s (s.src a) 0) (hovf : s.c.ovf = []) :
    exec (.ovfpop d a) s = .next ((s.seen a).putS 2 d 0) := by
  simp only [exec, execOvfpop, elastic_go _ _ hkind, bufCheck_go _ _ _ _ hfits, hovf]
  rfl

/-- ovfpop takes the oldest message out, its bytes go to the buffer, and held messages are offered again. -/
theorem ovfpop_of_cons (s : State) (d : BitVec 6) (a : Src) (hkind : s.c.kind = .elastic)
    (hfits : bufFits s (s.src a) 0) (m : Msg) (r : List Msg) (hovf : s.c.ovf = m :: r) :
    exec (.ovfpop d a) s =
      .next ((((s.seen a).updC fun c => Ctx.fillBuf { c with ovf := r } (s.src a) m (s.T + 2) 128).putS 2 d
        (statusWord true (bufLen (s.src a) < m.len) 2 (msgSrc m) m.len)).changed s.here) := by
  simp only [exec, execOvfpop, elastic_go _ _ hkind, bufCheck_go _ _ _ _ hfits, hovf]
  rfl

/-! #### clsord (R398) -/

/-- clsord sets the class's dimension order. -/
theorem clsord_completes (s : State) (c : BitVec 3) (ord : Order) :
    exec (.clsord c ord) s = .next (s.updC fun x => { x with orders := Tbl.set 0 x.orders c.toNat (orderNo ord) }) := by
  cases ord <;> rfl

/-! #### xstat (R412, R416) -/

/-- What an xstat of handle h makes of t, the state with its answer on the way to sD: with .rel, a handle that has finished
is free. -/
def State.xstatDone (s : State) (rel : Bool) (h : Nat) (t : State) : State :=
  if rel = true ∧ ((s.c.handle h).st = .complete ∨ (s.c.handle h).st = .cancelled) then
    (t.updC fun c => c.setHandle h {}).changed s.here
  else t

/-- Reading the tag of a cancelled handle takes a free value. -/
def State.xstatRead (s : State) (sel : XSel) (h : Nat) : State :=
  if sel = .tag ∧ (s.c.handle h).st = .cancelled then tookFree s else s

/-- Taking a free value changes no context. -/
@[simp] theorem State.xstatRead_c (s : State) (sel : XSel) (h : Nat) : (s.xstatRead sel h).c = s.c := by
  unfold State.xstatRead
  split <;> rfl

/-- Taking a free value leaves the word on its tile and in its partition. -/
@[simp] theorem State.xstatRead_here (s : State) (sel : XSel) (h : Nat) : (s.xstatRead sel h).here = s.here := by
  unfold State.xstatRead
  split <;> rfl

/-- An xstat whose handle has a number in range answers and frees what it may, in s or in the u that reading left. -/
theorem xstat_handle_go (s u : State) (rel : Bool) (d : BitVec 6) (a : Src) (h : Nat) (v w : Word) (hlt : h < 64)
    (hv : v = w) :
    guardT u (h < 64) cIllegalOperand
      (if rel && ((s.c.handle h).st == .complete || (s.c.handle h).st == .cancelled) then
        ok ((((u.seen a).putS 1 d v).updC fun c => c.setHandle h {}).changed s.here)
      else ok ((u.seen a).putS 1 d v)) = .next (s.xstatDone rel h ((u.seen a).putS 1 d w)) := by
  subst hv
  rw [guardT_go _ _ _ _ (decide_eq_true hlt), State.xstatDone]
  split
  next hrel => rw [if_pos (by simpa using hrel)]; rfl
  next hrel => rw [if_neg (by simpa using hrel)]; rfl

/-- xstat.status answers the handle's status word. -/
theorem xstat_status (s : State) (rel : Bool) (d : BitVec 6) (a : Src) (hlt : (s.src a).toNat < 64) :
    exec (.xstat rel d .status a) s = .next (s.xstatDone rel (s.src a).toNat
      ((s.seen a).putS 1 d (s.c.handle (s.src a).toNat).status)) :=
  xstat_handle_go s s rel d a _ _ _ hlt rfl

/-- xstat.tag answers the tag of the message that a complete handle holds, a free value for a cancelled one, else 0. -/
theorem xstat_tag (s : State) (rel : Bool) (d : BitVec 6) (a : Src) (hlt : (s.src a).toNat < 64) :
    exec (.xstat rel d .tag a) s = .next (s.xstatDone rel (s.src a).toNat
      (((s.xstatRead .tag (s.src a).toNat).seen a).putS 1 d (xstatH s (s.c.handle (s.src a).toNat) .tag))) := by
  have hread : (if (s.c.handle (s.src a).toNat).st == .cancelled then { s with fresh := s.fresh + 1 } else s) =
      s.xstatRead .tag (s.src a).toNat := by
    simp [State.xstatRead, tookFree]
  simp only [exec, execXstat, hread, State.xstatRead_c, State.xstatRead_here]
  refine xstat_handle_go s _ rel d a _ _ _ hlt ?_
  cases hst : (s.c.handle (s.src a).toNat).st <;> simp [xstatH, hst]

/-- xstat of no handle answers the overflow area's messages and bytes, the handles in use, or the orders. -/
theorem xstat_of_no_handle (s : State) (rel : Bool) (d : BitVec 6) (sel : XSel) (a : Src)
    (hsel : sel = .overflow ∨ sel = .handles ∨ sel = .orders) :
    exec (.xstat rel d sel a) s = .next (s.putS 1 d (BitVec.ofNat 64 (xstatOf s sel))) := by
  rcases hsel with rfl | rfl | rfl <;> rfl

/-! #### The obligation -/

/-- Settles O31: each word passes its checks and acts on the receive table or the overflow area; clsord and the xstat
selectors of no handle check nothing. The free value of a cancelled handle's tag (assumption 80) is never looked at. -/
theorem receiveTableWords : Obligations.ReceiveTableWords := by
  intro s
  refine ⟨fun hkind a => ⟨?rvcanIdle, ?rvcanPosted, ?probe, ?ovfpop⟩, ?clsord, ?xstatOther, ?xstatHandle⟩
  case rvcanIdle => rintro h rfl hlt hst; exact rvcan_of_not_posted s a hkind hlt hst
  case rvcanPosted => rintro h rfl hlt hst; exact rvcan_of_posted s a hkind hlt hst
  case probe => exact fun tag d => probe_completes s tag d a hkind
  case ovfpop =>
    exact fun hfits d => ⟨ovfpop_of_empty s d a hkind hfits,
      fun m r hovf => ⟨_, ovfpop_of_cons s d a hkind hfits m r hovf, rfl⟩⟩
  case clsord => exact clsord_completes s
  case xstatOther => exact xstat_of_no_handle s
  case xstatHandle =>
    rintro rel d sel a h (rfl | rfl) rfl hlt
    · exact xstat_status s rel d a hlt
    · exact xstat_tag s rel d a hlt

end Sys2Proof.Machine

/-! ### The encoding and its inverse (R106 to R117) -/

namespace Sys2Proof

/-! #### Joining the parts of a field -/

/-- Two neighbouring parts of a field, joined, are one part. -/
theorem cat_extractLsb' {n m k w p : Nat} (x : BitVec w) (s : Nat) (hp : p = s + m) (hk : k = n + m) :
    (cat (x.extractLsb' p n) (x.extractLsb' s m) : BitVec k) = x.extractLsb' s k := by
  subst hp hk
  ext i hi
  simp only [cat, BitVec.setWidth_eq, BitVec.getElem_append, BitVec.getElem_extractLsb', Nat.add_assoc]
  split
  · rfl
  · congr 2; omega

/-! #### Codes read back -/

@[simp] theorem rdBit_bitF (b : Bool) : rdBit (bitF b) = b := by cases b <;> rfl
@[simp] theorem rdBit_zero : rdBit 0#1 = false := rfl
@[simp] theorem rdBit_one : rdBit 1#1 = true := rfl
@[simp] theorem rdTy_tyF (t : Ty) : rdTy (tyF t) = some t := by cases t <;> rfl
@[simp] theorem rdRnd_rndF (r : Rnd) : rdRnd (rndF r) = some r := by cases r <;> rfl
@[simp] theorem rdCond_condF (c : Cond) : rdCond (condF c) = some c := by cases c <;> rfl
@[simp] theorem rdScope_scopeF (c : Scope) : rdScope (scopeF c) = some c := by cases c <;> rfl
@[simp] theorem rdPk_pkF (k : PKind) : rdPk (pkF k) = some k := by cases k <;> rfl
@[simp] theorem rdDir_dirF (d : Dir) : rdDir (dirF d) = some d := by cases d <;> rfl
@[simp] theorem rdOrder_orderF (o : Order) : rdOrder (orderF o) = some o := by cases o <;> rfl
@[simp] theorem rdRed_redF (o : RedOp) : rdRed (redF o) = some o := by cases o <;> rfl
@[simp] theorem rdAtom_atomF (o : AtomOp) : rdAtom (atomF o) = some o := by cases o <;> rfl
@[simp] theorem rdTree_treeF (o : TreeOp) : rdTree (treeF o) = some o := by cases o <;> rfl
@[simp] theorem rdBasis_basisF (k : BasisSel) : rdBasis (basisF k) = some k := by cases k <;> rfl
@[simp] theorem rdCp_cpF (r : CpReg) : rdCp (cpF r) = some r := by cases r <;> rfl
@[simp] theorem rdXsel_xselF (x : XSel) : rdXsel (xselF x) = some x := by cases x <;> rfl

/-- The code of an operation of upd reads back, but for the FP32 addition, which upd refuses. -/
theorem rdUpd_updF (o : UpdOp) (h : o ≠ .fadd) : rdUpd (updF o) = some o := by
  cases o with
  | fadd => exact absurd rfl h
  | _ => rfl

/-! #### Operand fields read back -/

@[simp] theorem rdS_sF (n : BitVec 6) : rdS (sF n) = n := by simp [rdS, sF, extractLsb'_cat_low]
@[simp] theorem rdP_pF (n : BitVec 4) : rdP (pF n) = n := by simp [rdP, pF, extractLsb'_cat_low]
@[simp] theorem rdM_mF (n : BitVec 3) : rdM (mF n) = n := by simp [rdM, mF, extractLsb'_cat_low]
@[simp] theorem rdX_xF (n : BitVec 2) : rdX (xF n) = n := by simp [rdX, xF, extractLsb'_cat_low]
@[simp] theorem rdM_aF (n : BitVec 3) : rdM (aF n) = n := by simp [rdM, aF, extractLsb'_cat_low]
@[simp] theorem rdM_kF (n : BitVec 3) : rdM (kF n) = n := by simp [rdM, kF, extractLsb'_cat_low]
@[simp] theorem rdM_strmF (n : BitVec 3) : rdM (strmF n) = n := by simp [rdM, strmF, extractLsb'_cat_low]
@[simp] theorem rdM_zero : rdM 0 = 0 := rfl
@[simp] theorem rdS_zero : rdS 0 = 0 := rfl

@[simp] theorem rdSpecial_specialF (r : Special) : rdSpecial (specialF r) = some r := by
  cases r with
  | p n => revert n; decide
  | m n => revert n; decide
  | x n => revert n; decide
  | _ => rfl

@[simp] theorem rdSrc_srcF (a : Src) : rdSrc (srcF a) = some a := by
  cases a with
  | s n => simp [rdSrc, srcF, sF, rdS, extractLsb'_cat_low, extractLsb'_cat_high]
  | sp r => simp [rdSrc, srcF, extractLsb'_cat_low, extractLsb'_cat_high]

@[simp] theorem rdV_vF (v : VOp) : rdV (vF v) = some v := by
  cases v <;> simp [rdV, vF, extractLsb'_cat_low, extractLsb'_cat_high]

@[simp] theorem rdMask_maskF (m : Mask) : rdMask (maskF m) = m := by
  cases m <;> simp [rdMask, maskF, extractLsb'_cat_low, extractLsb'_cat_high]

@[simp] theorem rdTokOpt_tokOptF (k : Option (BitVec 3)) : rdTokOpt (tokOptF k) = k := by
  cases k <;> simp [rdTokOpt, tokOptF, extractLsb'_cat_low, extractLsb'_cat_high]

end Sys2Proof

namespace Sys2Proof

/-! #### Shared forms read back -/

section
variable (opc : BitVec 6) (col : BitVec 3) (var : BitVec 7) (x : BitVec 14) (sat : Bool)

@[simp] theorem fBin_opc (o : Bin) : (fBin opc sat o).opc = opc := by unfold fBin; split <;> rfl
@[simp] theorem fBin_col (o : Bin) : (fBin opc sat o).col = 0 := by unfold fBin; split <;> rfl
/-- Bit 82 of a TS word with two sources is its .sat. -/
@[simp] theorem fBin_bit82 (o : Bin) : (fBin opc sat o).var.extractLsb' 2 1 = bitF sat := by
  unfold fBin
  split <;> simp [varT, three, extractLsb'_cat_low, extractLsb'_cat_high]
@[simp] theorem rdBin_fBin (o : Bin) : rdBin (fBin opc sat o) = some o := by
  obtain ⟨t, d, a, b⟩ := o
  cases b <;> simp [rdBin, fBin, Fields.ty, Fields.srcB, Fields.b81, varT, three, extractLsb'_cat_low, extractLsb'_cat_high]

@[simp] theorem rdUn_fUn (o : Un) : rdUn (fUn opc sat o) = some o := by
  simp [rdUn, fUn, Fields.ty, varT, extractLsb'_cat_high]

@[simp] theorem msk_fV3 (o : V3) : (fV3 col opc var x o).msk = o.msk := by
  simp [fV3, Fields.msk, immM, extractLsb'_cat_high]
@[simp] theorem rdV3_fV3 (o : V3) : rdV3 (fV3 col opc var x o) = some o := by
  simp only [rdV3, msk_fV3]
  simp [fV3]
@[simp] theorem msk_fV2 (o : V2) : (fV2 col opc var x o).msk = o.msk := by
  simp [fV2, Fields.msk, immM, extractLsb'_cat_high]
@[simp] theorem rdV2_fV2 (o : V2) : rdV2 (fV2 col opc var x o) = some o := by
  simp only [rdV2, msk_fV2]
  simp [fV2]
@[simp] theorem rdV4_fV4 (o : V4) : rdV4 (fV4 opc var o) = some o := by
  simp [rdV4, fV4, Fields.c, immC, extractLsb'_cat_low]

@[simp] theorem fMm_opc (b : Bool) (o : MmOp) : (fMm opc b o).opc = opc := by unfold fMm; split <;> rfl
@[simp] theorem fMm_col (b : Bool) (o : MmOp) : (fMm opc b o).col = 4 := by unfold fMm; split <;> rfl
/-- Bit 83 of an array word with an activation operand tells splev.g from splev. -/
@[simp] theorem fMm_bit83 (b : Bool) (o : MmOp) : (fMm opc b o).var.extractLsb' 3 1 = bitF b := by
  unfold fMm
  split <;> simp [var83K, extractLsb'_cat_low, extractLsb'_cat_high]
@[simp] theorem rdMm_fMm (b : Bool) (o : MmOp) : rdMm (fMm opc b o) = o := by
  obtain ⟨z, d, src, k, rows⟩ := o
  cases src <;> simp [rdMm, fMm, Fields.z, Fields.rows, Fields.lo3, rowsF, var83K, sF, strmF, rdS, rdM, aF, extractLsb'_cat_low,
    extractLsb'_cat_high]

@[simp] theorem fV3_opc (o : V3) : (fV3 col opc var x o).opc = opc := rfl
@[simp] theorem fV3_col (o : V3) : (fV3 col opc var x o).col = col := rfl
@[simp] theorem fV3_var (o : V3) : (fV3 col opc var x o).var = var := rfl
@[simp] theorem fV2_opc (o : V2) : (fV2 col opc var x o).opc = opc := rfl
@[simp] theorem fV2_col (o : V2) : (fV2 col opc var x o).col = col := rfl
@[simp] theorem fV2_var (o : V2) : (fV2 col opc var x o).var = var := rfl
@[simp] theorem fV4_opc (o : V4) : (fV4 opc var o).opc = opc := rfl
@[simp] theorem fV4_col (o : V4) : (fV4 opc var o).col = 2 := rfl
@[simp] theorem fV4_var (o : V4) : (fV4 opc var o).var = var := rfl
@[simp] theorem fUn_opc (o : Un) : (fUn opc sat o).opc = opc := rfl
@[simp] theorem fUn_col (o : Un) : (fUn opc sat o).col = 0 := rfl
@[simp] theorem fUn_var (o : Un) : (fUn opc sat o).var = varT o.t (three sat false false) := rfl

/-- Bits 45:32 of a word with D, A, B and a mask are the word's own. -/
theorem fV3_imm_low (o : V3) (s l : Nat) (h : s + l ≤ 14) : (fV3 col opc var x o).imm.extractLsb' s l = x.extractLsb' s l :=
  extractLsb'_cat_low _ _ s l h (by omega)
/-- Bits 45:32 of a word with D, A and a mask are the word's own. -/
theorem fV2_imm_low (o : V2) (s l : Nat) (h : s + l ≤ 14) : (fV2 col opc var x o).imm.extractLsb' s l = x.extractLsb' s l :=
  extractLsb'_cat_low _ _ s l h (by omega)

@[simp] theorem fVsh_opc (t : Ty) (d a : VOp) (b : VAmt) (m : Mask) : (fVsh opc t d a b m).opc = opc := by cases b <;> rfl
@[simp] theorem fVsh_col (t : Ty) (d a : VOp) (b : VAmt) (m : Mask) : (fVsh opc t d a b m).col = 2 := by cases b <;> rfl
@[simp] theorem rdVsh_fVsh (t : Ty) (d a : VOp) (b : VAmt) (m : Mask) :
    rdVsh (fVsh opc t d a b m) = some (t, d, a, b, m) := by
  cases b <;> simp [rdVsh, fVsh, Fields.ty, Fields.b81, Fields.msk, varT, three, immM, extractLsb'_cat_low,
    extractLsb'_cat_high]

@[simp] theorem fMask_opc (z : Bool) (d a : BitVec 3) (b : MSrc) : (fMask opc z d a b).opc = opc := by cases b <;> rfl
@[simp] theorem fMask_col (z : Bool) (d a : BitVec 3) (b : MSrc) : (fMask opc z d a b).col = 2 := by cases b <;> rfl
/-- A mask word reads back; one with .z has no operand A. -/
theorem rdMask3_fMask (z : Bool) (d a : BitVec 3) (b : MSrc) (h : z = true → a = 0) :
    rdMask3 (fMask opc z d a b) = some (z, d, a, b) := by
  cases b <;> cases z <;> simp_all [rdMask3, fMask, Fields.b80, Fields.b81, three, extractLsb'_cat_low, extractLsb'_cat_high]

@[simp] theorem fArr_opc (z : Bool) (o : ArrD) : (fArr opc z o).opc = opc := rfl
@[simp] theorem fArr_col (z : Bool) (o : ArrD) : (fArr opc z o).col = 4 := rfl
@[simp] theorem fArr_z (z : Bool) (o : ArrD) : (fArr opc z o).z = z := by
  simp [fArr, Fields.z, rowsF, extractLsb'_cat_low, extractLsb'_cat_high]
@[simp] theorem rdArr_fArr (z : Bool) (o : ArrD) : rdArr (fArr opc z o) = o := by
  simp [rdArr, fArr, Fields.lo3, Fields.rows, rowsF, varK, extractLsb'_cat_low, extractLsb'_cat_high]

@[simp] theorem fTree_opc (op : BitVec 3) (w : TreeW) : (fTree opc op w).opc = opc := rfl
@[simp] theorem fTree_col (op : BitVec 3) (w : TreeW) : (fTree opc op w).col = 5 := rfl
/-- The operation of a tree word stands in immediate bits 6:4. -/
@[simp] theorem fTree_op (op : BitVec 3) (w : TreeW) : (fTree opc op w).imm.extractLsb' 4 3 = op := by
  simp [fTree, extractLsb'_cat_low, extractLsb'_cat_high]
@[simp] theorem rdTreeW_fTree (op : BitVec 3) (w : TreeW) : rdTreeW (fTree opc op w) = some w := by
  simp [rdTreeW, fTree, Fields.ty, Fields.lo3, varT, extractLsb'_cat_low, extractLsb'_cat_high]
end

end Sys2Proof

namespace Sys2Proof
/-! #### Words read back

Three groups of columns, by the constructors' numbers: the reading of every word follows its column's form. -/

/-- The words of the K, I and L columns read back. -/
theorem readInstr_fieldsOf_KIL {i : Instr} {f : Fields} (hcol : decide (i.ctorIdx < 90) = true) (hf : fieldsOf i = some f)
    (hwf : i.wf = true) : readInstr f = some i := by
  cases i
  all_goals cases hcol
  case upd op t a b off =>
    cases hf
    have hop : op ≠ .fadd := by rintro rfl; simp [Instr.wf] at hwf
    simp [readInstr, readL, rdSt, Fields.ty, varT, rdUpd_updF op hop, extractLsb'_cat_low, extractLsb'_cat_high]
  case bar sc k => cases k <;> cases hf <;> simp [readInstr, readK, Fields.ty, Fields.b80, extractLsb'_cat_low, extractLsb'_cat_high]
  case waitt k a => cases k <;> cases hf <;> simp [readInstr, readK, Fields.b80]
  case rep a c l => cases c <;> cases hf <;> simp [readInstr, readK, Fields.b80, extractLsb'_cat_low, extractLsb'_cat_high]
  case tlbinv sc d r k => rcases r with _ | ⟨a, b⟩ <;> cases hf <;> simp [readInstr, readK, Fields.ty, Fields.lo3, extractLsb'_cat_low, extractLsb'_cat_high]
  case cmp cc t d a b =>  cases b <;> cases hf <;> simp [readInstr, readI, Fields.ty, Fields.lo3, varT, extractLsb'_cat_low, extractLsb'_cat_high]
  case setx ad d a => cases a <;> cases hf <;> simp [readInstr, readI, Fields.b80, Fields.b81, three, extractLsb'_cat_low, extractLsb'_cat_high]
  case tinv a => cases a <;> cases hf <;> simp [readInstr, readL, Fields.b80]
  case ldi hi t d v =>
    cases hf
    have hv : (cat (v.extractLsb' 28 10) (cat (v.extractLsb' 18 10) (v.extractLsb' 0 18) : BitVec 28) : BitVec 38) = v := by
      rw [cat_extractLsb' v 0 rfl rfl, cat_extractLsb' v 0 rfl rfl, BitVec.extractLsb'_eq_self]
    simp [readInstr, readI, Fields.ty, Fields.b80, Fields.imm38, varT, three, hv, extractLsb'_cat_low, extractLsb'_cat_high]
  all_goals cases hf
  all_goals simp [readInstr, readK, readI, readL, fXfer, Fields.ty, Fields.lo3, Fields.b80,
        Fields.b81, Fields.b82, Fields.b86, Fields.c, Fields.msk,
        rdLd, rdSt, rdLdv, rdStv, varT, var80, varK, three, immM, immC, imm6, csrF, 
         extractLsb'_cat_low, extractLsb'_cat_high]

/-- The words of the V and F columns read back. -/
theorem readInstr_fieldsOf_VF {i : Instr} {f : Fields} (hcol : decide (90 ≤ i.ctorIdx ∧ i.ctorIdx < 151) = true) (hf : fieldsOf i = some f)
    (hwf : i.wf = true) : readInstr f = some i := by
  cases i
  all_goals cases hcol
  case mand z d a b | mor z d a b | mxor z d a b => 
    cases hf
    have hz : z = true → a = 0 := fun hz => by simpa [Instr.wf, hz] using hwf
    simp [readInstr, readV, rdMask3_fMask _ _ _ _ _ hz] 
  case vext t d a i => cases i <;> cases hf <;> simp [readInstr, readV, Fields.ty, Fields.b81, varT, three, extractLsb'_cat_low, extractLsb'_cat_high]
  case vrot d a n m => cases n <;> cases hf <;> simp [readInstr, readV, Fields.b80, Fields.msk, immM, extractLsb'_cat_low, extractLsb'_cat_high]
  all_goals cases hf
  all_goals simp [readInstr, readV, readF, Fields.ty, Fields.lo3, Fields.b80,
        Fields.b81, Fields.b82, Fields.c, Fields.fsat, fF3, fF2, rdFm, 
        Fields.msk, varT, varTR, var80, three, immM, immC, satF, fV3_imm_low, fV2_imm_low,
         extractLsb'_cat_low, extractLsb'_cat_high]
/-- The words of the M, X and C columns read back. -/
theorem readInstr_fieldsOf_MXC {i : Instr} {f : Fields} (hcol : decide (151 ≤ i.ctorIdx) = true) (hf : fieldsOf i = some f) : readInstr f = some i := by
  cases i
  all_goals cases hcol
  case macrd t r sat o | macwr t o =>
    cases hf
    simp [readInstr, readM, Fields.ty, rdArr, Fields.lo3, Fields.rows, varT, rowsF, extractLsb'_cat_low, extractLsb'_cat_high]
  all_goals cases hf
  all_goals simp [readInstr, readM, readX, readC, Fields.ty, Fields.lo3, Fields.b80, 
        Fields.b83, Fields.b84, Fields.b85, varT, var80, varK, var83K, rowsF, Fields.rows,
         extractLsb'_cat_low, extractLsb'_cat_high]


/-- The instruction that fields encode is the one that they were written from (R106, R117). -/
theorem readInstr_fieldsOf {i : Instr} {f : Fields} (hf : fieldsOf i = some f) (hwf : i.wf = true) :
    readInstr f = some i := by
  by_cases hlow : i.ctorIdx < 90
  · exact readInstr_fieldsOf_KIL (decide_eq_true hlow) hf hwf
  · by_cases hmid : i.ctorIdx < 151
    · exact readInstr_fieldsOf_VF (decide_eq_true ⟨by omega, hmid⟩) hf hwf
    · exact readInstr_fieldsOf_MXC (decide_eq_true (by omega)) hf

/-- A word has fields; an event has none. -/
theorem fieldsOf_isSome (i : Instr) : (fieldsOf i).isSome = !i.isEvent := by
  cases i
  case bar sc k | waitt k a => cases k <;> rfl
  case rep a c l => cases c <;> rfl
  case tlbinv sc d r k => rcases r with _ | ⟨a, b⟩ <;> rfl
  case cmp cc t d a b => cases b <;> rfl
  case setx ad d a | tinv a => cases a <;> rfl
  case vext t d a n | vrot d a n m => cases n <;> rfl
  all_goals rfl

/-! #### Whole words -/

/-- The fields of a packed word are the ones it was packed from. -/
theorem unpackFields_packWord (f : Fields) (h : BitVec 32) : unpackFields (packWord f h) = f := by
  simp [unpackFields, packWord, extractLsb'_cat_low, extractLsb'_cat_high]

/-- The low 32 bits of a packed word are its guard and hints. -/
theorem packWord_extract_low (f : Fields) (h : BitVec 32) (s l : Nat) (hl : s + l ≤ 32) :
    (packWord f h).extractLsb' s l = h.extractLsb' s l := by
  unfold packWord
  iterate 7 rw [extractLsb'_cat_low _ _ _ _ (by omega) (by omega)]

/-- A word is packed from its fields and its low 32 bits. -/
theorem packWord_unpackFields (w : IWord) : packWord (unpackFields w) (w.extractLsb' 0 32) = w := by
  unfold packWord unpackFields
  iterate 7 rw [cat_extractLsb' w 0 rfl rfl]
  exact BitVec.extractLsb'_eq_self

/-- A bit reads and writes back. -/
@[simp] theorem bitF_rdBit (b : BitVec 1) : bitF (rdBit b) = b := by revert b; decide

/-- A word whose fields encode an instruction decodes to it, with the word's guard and hints (R106). -/
theorem decode_of_fields {w : IWord} {i : Instr} (hres : w.extractLsb' 0 2 = 0) (hf : fieldsOf i = some (unpackFields w))
    (hwf : i.wf = true) :
    decode w = some ⟨rdBit (w.extractLsb' 31 1), w.extractLsb' 27 4, w.extractLsb' 19 8, w.extractLsb' 11 8,
      w.extractLsb' 3 8, rdBit (w.extractLsb' 2 1), i⟩ := by
  have hread : decodeFields (unpackFields w) = some i := by simp [decodeFields, readInstr_fieldsOf hf hwf, hf, hwf]
  simp [decode, hres, hread]

/-- The guard and hints of a packed word, and its two reserved bits (R106). -/
theorem packWord_hints (f : Fields) (x : Inst) : let w := packWord f (hintsF x)
    w.extractLsb' 0 2 = 0 ∧ rdBit (w.extractLsb' 31 1) = x.gneg ∧ w.extractLsb' 27 4 = x.gpred ∧ w.extractLsb' 19 8 = x.dly ∧
      w.extractLsb' 11 8 = x.wmask ∧ w.extractLsb' 3 8 = x.stamp ∧ rdBit (w.extractLsb' 2 1) = x.eog := by
  simp [packWord_extract_low, hintsF, extractLsb'_cat_low, extractLsb'_cat_high]

/-- A decoded word holds its guard and hints where R106 puts them, and its two reserved bits are zero. -/
theorem hintsF_of_decode {w : IWord} {x : Inst} (h : decode w = some x) : hintsF x = w.extractLsb' 0 32 := by
  unfold decode at h
  split at h
  next hres =>
    split at h
    next i _ =>
      obtain rfl : _ = x := Option.some.inj h
      rw [beq_iff_eq] at hres
      unfold hintsF
      rw [← hres, bitF_rdBit, bitF_rdBit]
      iterate 6 rw [cat_extractLsb' w 0 rfl rfl]
    next => cases h
  next => cases h

/-! #### The obligations -/

/-- Settles O1: the word packed from the instruction's fields and hints unpacks to them, and its fields read back. -/
theorem encodeThenDecode : Obligations.EncodeThenDecode := by
  intro x hwf hword
  obtain ⟨f, hf⟩ := Option.isSome_iff_exists.mp ((fieldsOf_isSome x.instr).trans (by rw [hword]; rfl))
  obtain ⟨hres, hgneg, hgpred, hdly, hwmask, hstamp, heog⟩ := packWord_hints f x
  refine ⟨packWord f (hintsF x), by simp [encode, hf], ?_⟩
  rw [decode_of_fields hres (by rw [unpackFields_packWord, hf]) hwf, hgneg, hgpred, hdly, hwmask, hstamp, heog]

/-- Settles O2: the decoder checks the fields against the encoder's, and the hints fill the rest of the word. -/
theorem decodeThenEncode : Obligations.DecodeThenEncode := by
  intro w x h
  obtain ⟨hwf, hf⟩ := decode_eq_some h
  have hword : x.instr.isEvent = false := by simpa [hf] using fieldsOf_isSome x.instr
  refine ⟨?_, hwf, hword⟩
  rw [encode, hf, Option.map_some, hintsF_of_decode h, packWord_unpackFields]

end Sys2Proof

/-! ### Every meaning answers a next state and keeps the canonical form of memory -/

namespace Sys2Proof.Machine

/-- An answer is a next state, whose memory is canonical where the memory before was. -/
def Keeps (m : Mem) (o : Out) : Prop := ∃ t, o = .next t ∧ (Memory.wf m = true → Memory.wf t.mem = true)

/-! #### The answers and the checks of a word -/

@[simp] theorem keeps_next (m : Mem) (t : State) : Keeps m (.next t) ↔ (Memory.wf m = true → Memory.wf t.mem = true) :=
  ⟨fun ⟨_, ht, h⟩ => by cases ht; exact h, fun h => ⟨t, rfl, h⟩⟩
@[simp] theorem keeps_ok (m : Mem) (t : State) : Keeps m (ok t) ↔ (Memory.wf m = true → Memory.wf t.mem = true) :=
  keeps_next m t

theorem keeps_of_wf {m : Mem} {t : State} (h : Memory.wf m = true → Memory.wf t.mem = true) : Keeps m (ok t) :=
  (keeps_ok m t).mpr h
theorem keeps_next_of_wf {m : Mem} {t : State} (h : Memory.wf m = true → Memory.wf t.mem = true) : Keeps m (.next t) :=
  (keeps_next m t).mpr h

section
variable {m : Mem} {s : State} {k : Out}

@[simp] theorem keeps_trapO (code d : Nat) (hm : s.mem = m) : Keeps m (trapO s code d) := by
  simp [trapO, hm]
theorem keeps_guardT (b : Bool) (code : Nat) (hm : s.mem = m) (h : Keeps m k) : Keeps m (guardT s b code k) := by
  cases b <;> simp [guardT, hm, h]
theorem keeps_elastic (hm : s.mem = m) (h : Keeps m k) : Keeps m (elastic s k) := keeps_guardT _ _ hm h
theorem keeps_noHandler (hm : s.mem = m) (h : Keeps m k) : Keeps m (noHandler s k) := keeps_guardT _ _ hm h
theorem keeps_freeTok (n : Nat) (hm : s.mem = m) (h : Keeps m k) : Keeps m (freeTok s n k) := keeps_guardT _ _ hm h
theorem keeps_noCapture (hm : s.mem = m) (h : Keeps m k) : Keeps m (noCapture s k) := by
  unfold noCapture; split
  · exact h
  · exact keeps_trapO _ _ (by simpa using hm)
theorem keeps_fpCheck (fs : List (Nat × Flags)) (hm : s.mem = m) (h : Keeps m k) : Keeps m (fpCheck s fs k) := by
  unfold fpCheck; split
  · exact keeps_trapO _ _ hm
  · exact h
theorem keeps_vcheck (l : List (VOp × Nat)) (hm : s.mem = m) (h : Keeps m k) : Keeps m (vcheck s l k) := by
  induction l with
  | nil => exact h
  | cons o r ih =>
    unfold vcheck
    dsimp only
    split
    · exact ih
    · exact keeps_trapO _ _ hm
theorem keeps_withV (l : List Nat) (d : Option Nat) {f : List Vec → Out} (hm : s.mem = m) (h : ∀ vs, Keeps m (f vs)) :
    Keeps m (withV s l d f) := by
  unfold withV
  extract_lets c st
  repeat' split
  · exact keeps_trapO _ _ hm
  · simp [hm]
  · simp [State.poisoned, hm]
  · exact h _
theorem keeps_vecDone (l : List Nat) (lat n : Nat) (w : Lane) (v : Vec) (fs : List (Nat × Flags)) (sn : List Src)
    (pm : Option Lane) (hm : s.mem = m) : Keeps m (vecDone s l lat n w v fs sn pm) :=
  keeps_fpCheck _ hm (by simp [hm])
theorem keeps_regDone (l : List Nat) (lat : Nat) (w : Wr) (fs : List (Nat × Flags)) (sn : List Src) (pm : Lane)
    (hm : s.mem = m) : Keeps m (regDone s l lat w fs sn pm) :=
  keeps_fpCheck _ hm (by simp [hm])
theorem keeps_translate (va acc : Nat) {f : Nat → Out} (hm : s.mem = m) (h : ∀ pa, Keeps m (f pa)) :
    Keeps m (translate s va acc f) := by
  unfold translate
  dsimp only
  repeat' split
  all_goals simp [hm, h]
theorem keeps_localCheck (a z al : Nat) (hm : s.mem = m) (h : Keeps m k) : Keeps m (localCheck s a z al k) :=
  keeps_guardT _ _ hm (keeps_guardT _ _ hm h)
theorem keeps_globalStore (pa : Nat) (bs : List (Nat × Byte)) {f : State → Out} (hm : s.mem = m)
    (h : ∀ t, t.mem = m → Keeps m (f t)) : Keeps m (globalStore s pa bs f) := by
  unfold globalStore
  dsimp only
  split
  · exact keeps_trapO _ _ hm
  · exact h _ (by simpa using hm)
theorem keeps_remoteCheck (r : Nat) {f : Nat → Nat → Out} (hm : s.mem = m) (h : ∀ a b, Keeps m (f a b)) :
    Keeps m (remoteCheck s r f) :=
  keeps_guardT _ _ hm (keeps_guardT _ _ hm (keeps_guardT _ _ hm (keeps_guardT _ _ hm (h _ _))))
theorem keeps_homeWord (srcs : List Src) (t : Ty) (va acc : Nat) (n : BitVec 3) (op : HomeOp) (hm : s.mem = m) :
    Keeps m (homeWord s srcs t va acc n op) :=
  keeps_elastic hm (keeps_freeTok _ hm (keeps_guardT _ _ hm (keeps_translate _ _ hm fun pa => by simp [hm])))
theorem keeps_updWord (srcs : List Src) (op : UpdOp) (t : Ty) (va v : Nat) (hm : s.mem = m) :
    Keeps m (updWord s srcs op t va v) :=
  keeps_elastic hm (keeps_guardT _ _ hm (keeps_translate _ _ hm fun pa => by simp [hm]))
theorem keeps_behindHeld (t cls : Nat) (e : Ev) (hm : s.mem = m) (h : Keeps m k) : Keeps m (s.behindHeld t cls e k) := by
  unfold State.behindHeld; split
  · simp [hm]
  · exact h
theorem keeps_cpCheck (n : Nat) (hm : s.mem = m) (h : Keeps m k) : Keeps m (cpCheck s n k) := by
  unfold cpCheck
  exact keeps_freeTok _ hm (keeps_guardT _ _ hm (keeps_guardT _ _ hm (keeps_guardT _ _ hm (keeps_guardT _ _ hm
    (keeps_guardT _ _ hm h)))))
theorem keeps_mFirst (b : Bool) (n : Option Nat) (hm : s.mem = m) (h : Keeps m k) : Keeps m (mFirst s b n k) := by
  unfold mFirst
  refine keeps_guardT _ _ hm (keeps_guardT _ _ hm ?_)
  split
  · exact keeps_guardT _ _ hm h
  · exact h
theorem keeps_descCheck (a b : BitVec 6) (o : ArrOp) {f : ArrOp → Out} (hm : s.mem = m) (h : ∀ o, Keeps m (f o)) :
    Keeps m (descCheck s a b o f) :=
  keeps_guardT _ _ hm (keeps_guardT _ _ hm (keeps_guardT _ _ hm (h _)))
theorem keeps_aopCheck (src : AOp) (o : ArrOp) {f : ArrOp → Out} (hm : s.mem = m) (h : ∀ o, Keeps m (f o)) :
    Keeps m (aopCheck s src o f) := by
  cases src with
  | desc a b => exact keeps_descCheck _ _ _ hm h
  | strm n => exact keeps_vcheck _ hm (keeps_guardT _ _ hm (h _))
theorem keeps_gangCheck (src : AOp) (o : ArrOp) {f : ArrOp → Out} (hm : s.mem = m) (h : ∀ o, Keeps m (f o)) :
    Keeps m (gangCheck s src o f) := by
  refine keeps_guardT _ _ hm ?_
  split
  · exact keeps_aopCheck _ _ hm h
  · cases src with
    | desc a b => exact h _
    | strm n => exact keeps_vcheck _ hm (h _)
theorem keeps_mmFormat (o : ArrOp) {f : ArrOp → Out} (hm : s.mem = m) (h : ∀ o, Keeps m (f o)) :
    Keeps m (mmFormat s o f) := by
  unfold mmFormat; split
  · exact h _
  · exact keeps_trapO _ _ hm
theorem keeps_enqueue (o : ArrOp) {f : State → Out} (hm : s.mem = m) (h : ∀ t, t.mem = m → Keeps m (f t)) :
    Keeps m (enqueue s o f) := by
  unfold enqueue laneOpen; split
  · simp [hm]
  · exact h _ (by simpa using hm)
theorem keeps_enqueueO (o : ArrOp) (hm : s.mem = m) : Keeps m (enqueueO s o) :=
  keeps_enqueue (f := fun t => ok (t.arrKick s.here)) o hm fun t ht => by simp [ht]
theorem keeps_transfer (det : Bool) (tgt : Int) {f : State → State} (hm : s.mem = m) (h : ∀ t, (f t).mem = t.mem) :
    Keeps m (transfer s det tgt f) := by
  refine keeps_noCapture hm (keeps_guardT _ _ hm ?_)
  dsimp only
  repeat' split
  all_goals simp [hm, h]
theorem keeps_splFormat (t : Ty) {f : Bool → Bool → Out} (hm : s.mem = m) (h : ∀ a b, Keeps m (f a b)) :
    Keeps m (splFormat s t f) := keeps_guardT _ _ hm (h _ _)
theorem keeps_slotWord (v : BitVec 3) (pos : Nat) {f : Nat → Out} (hm : s.mem = m) (h : ∀ n, Keeps m (f n)) :
    Keeps m (slotWord s v pos f) := keeps_vcheck _ hm (keeps_guardT _ _ hm (h _))
theorem keeps_drainWord (n v : BitVec 3) (out : Bool) {f : State → Nat → Out} (hm : s.mem = m)
    (h : ∀ t n, t.mem = m → Keeps m (f t n)) : Keeps m (drainWord s n v out f) := by
  refine keeps_slotWord _ _ hm fun i => keeps_freeTok _ hm (keeps_guardT _ _ hm ?_)
  dsimp only
  split
  · simp [hm]
  · exact h _ _ (by simpa using hm)
theorem keeps_bufCheck (w : Word) (ill prot : Bool) (off : Nat) (hm : s.mem = m) (h : Keeps m k) :
    Keeps m (bufCheck s w ill prot off k) :=
  keeps_guardT _ _ hm (keeps_guardT _ _ hm (keeps_guardT _ _ hm (keeps_guardT _ _ hm h)))
theorem keeps_treeCheck (slot : BitVec 4) (tok : Option (BitVec 3)) (hm : s.mem = m) (h : Keeps m k) :
    Keeps m (treeCheck s slot tok k) := by
  have hgo : Keeps m (guardT s ((s.c.tree slot.toNat).up != 7) cIllegalOperand
      (if 4 ≤ ((s.c.treeList slot.toNat).filter (·.own)).length then ok s.stall else k)) := by
    refine keeps_guardT _ _ hm ?_
    split
    · simp [hm]
    · exact h
  unfold treeCheck
  dsimp only
  split
  · exact keeps_freeTok _ hm hgo
  · exact hgo
theorem keeps_answered (hm : s.mem = m) (h : Keeps m k) : Keeps m (answered s k) := by
  unfold answered; split
  · exact h
  · simp [hm]
theorem keeps_intBin (lat : Nat) (sat : Bool) (o : Bin) (f : Int → Int → Int) (hm : s.mem = m) :
    Keeps m (intBin s lat sat o f) := by simp [intBin, hm]
theorem keeps_intUn (lat : Nat) (sat : Bool) (o : Un) (f : Int → Int) (hm : s.mem = m) : Keeps m (intUn s lat sat o f) := by
  simp [intUn, hm]
end
end Sys2Proof.Machine

namespace Sys2Proof.Machine

/-! #### Memory under the operations of single words and events -/

/-- The state that a row was read from, or that its trap is taken in. -/
def RowIn.state? : RowIn → Option State
  | .row s _ _ => some s
  | .wait => none
  | .trap s _ => some s
/-- The state that a launch leaves. -/
def Launched.state? : Launched → Option State
  | .ok s _ => some s
  | .refused s _ _ => some s
  | .wait => none
/-- The state that an image check leaves. -/
def Verified.state? : Verified → Option State
  | .ok s _ => some s
  | .bad => none
  | .wait => none

@[simp] theorem State.fetchLine_mem (s : State) (pa : Nat) : (s.fetchLine pa).mem = s.mem := by
  unfold State.fetchLine
  dsimp only
  (repeat' split) <;> simp
@[simp] theorem State.enterReq_mem (s : State) (q : HomeReq) : (s.enterReq q).mem = s.mem := by
  simp [State.enterReq]
@[simp] theorem State.hostReq_mem (s : State) (pa o : Nat) (op : HomeOp) : (s.hostReq pa o op).mem = s.mem := by
  simp [State.hostReq]
@[simp] theorem State.leave_mem (s : State) (m : Msg) : (s.leave m).mem = s.mem := by
  unfold State.leave
  dsimp only
  (repeat' split) <;> simp
@[simp] theorem State.enter_mem (s : State) (m : Msg) : (s.enter m).mem = s.mem := by
  unfold State.enter
  dsimp only
  split <;> simp
@[simp] theorem State.putTables_mem (s : State) (f : Nat → Nat → Word) : (s.putTables f).mem = s.mem :=
  foldl_mem _ _ _ fun _ _ => rfl
@[simp] theorem State.harvestFailed_mem (s : State) : s.harvestFailed.1.mem = s.mem := by
  simp [State.harvestFailed]
@[simp] theorem State.clearWay_mem (s : State) (p lvl : Nat) (ts : List Nat) : (s.clearWay p lvl ts).mem = s.mem := by
  unfold State.clearWay
  split
  · split <;> simp
  · rfl
  · rfl
@[simp] theorem State.saveCells_mem (s : State) (p : Nat) : (s.saveCells p).mem = s.mem := rfl

section
variable {s : State} (h : Memory.wf s.mem = true)
include h

theorem State.recoverPart_wf (new : List Nat) (p : Nat) : Memory.wf (State.recoverPart new s p).mem = true := by
  unfold State.recoverPart
  dsimp only
  (repeat' split) <;> simp [h]
theorem State.mapLeaf_wf (va v fuel lvl table : Nat) : Memory.wf (s.mapLeaf va v fuel lvl table).mem = true := by
  induction fuel generalizing s lvl table with
  | zero => exact h
  | succ fuel ih =>
    unfold State.mapLeaf
    dsimp only
    repeat' split
    · simp [h]
    · exact ih h _ _
    · exact ih (by simp [h]) _ _
end

theorem State.imageRoom_mem (s t : State) (len fuel : Nat) (h : s.imageRoom len fuel = some t) : t.mem = s.mem := by
  induction fuel generalizing s with
  | zero => simp [State.imageRoom] at h
  | succ fuel ih =>
    unfold State.imageRoom at h
    dsimp only at h
    split at h
    · cases h; rfl
    · split at h
      · exact (ih _ h).trans rfl
      · cases h
theorem State.verifyImage_mem (s t : State) (pa : Nat) (rd : Nat → Nat → Option (List Byte))
    (h : (s.verifyImage pa rd).state? = some t) : t.mem = s.mem := by
  unfold State.verifyImage at h
  dsimp only at h
  repeat' split at h
  all_goals cases h
  · rfl
  next u hroom => exact (s.imageRoom_mem _ _ _ hroom : _)
theorem State.spRow_mem (s t : State) (l : Loc) (a len : Nat) (f : List Byte → List Nat)
    (h : (s.spRow l a len f).state? = some t) : t.mem = s.mem := by
  unfold State.spRow at h
  dsimp only at h
  split at h <;> cases h <;> simp
theorem State.strmRow_mem (s t : State) (l : Loc) (n count : Nat) (h : (s.strmRow l n count).state? = some t) :
    t.mem = s.mem := by
  unfold State.strmRow at h
  dsimp only at h
  repeat' split at h
  all_goals cases h
  all_goals simp
theorem State.rowRead_mem (s t : State) (l : Loc) (o : ArrOp) (row : Nat) (h : (s.rowRead l o row).state? = some t) :
    t.mem = s.mem := by
  have act (n : Nat) (u : State) (hu : RowIn.state? (match o.strm with
      | some v => s.strmRow l v n
      | none => s.spRow l (o.rowAddr row) o.rowLen (elemsOf (tySize o.aty) n)) = some u) : u.mem = s.mem := by
    split at hu
    · exact s.strmRow_mem _ _ _ _ hu
    · exact s.spRow_mem _ _ _ _ _ hu
  unfold State.rowRead at h
  dsimp only at h
  split at h
  · split at h <;> exact s.spRow_mem _ _ _ _ _ h
  · split at h <;> exact s.spRow_mem _ _ _ _ _ h
  · exact act _ _ h
  · exact act _ _ h
  · exact act _ _ h
  · exact act _ _ h
  · exact act _ _ h
  · split at h
    next u _ _ hu => cases h; exact act _ _ (congrArg RowIn.state? hu)
    next => exact act _ _ h
  · split at h
    next u _ _ hu => cases h; exact act _ _ (congrArg RowIn.state? hu)
    next => exact act _ _ h
  · cases h; rfl
  · exact s.spRow_mem _ _ _ _ _ h
  · cases h; rfl
  · cases h; rfl
/-- A launch leaves memory canonical, whatever its answer. -/
def Launched.Wf (x : Launched) : Prop := ∀ t, x.state? = some t → Memory.wf t.mem = true

theorem Launched.wf_ite {c : Prop} [Decidable c] {a b : Launched} (ha : a.Wf) (hb : b.Wf) : (if c then a else b).Wf := by
  split
  · exact ha
  · exact hb
theorem Launched.wf_ok {t : State} {r : Nat} (h : Memory.wf t.mem = true) : (Launched.ok t r).Wf := by
  rintro _ ⟨⟩
  exact h
theorem Launched.wf_refused {t : State} {c : Nat} {w : Bool} (h : Memory.wf t.mem = true) : (Launched.refused t c w).Wf := by
  rintro _ ⟨⟩
  exact h
theorem State.refuse_wf {s : State} (h : Memory.wf s.mem = true) (pa cause : Nat) : (s.refuse pa cause).Wf :=
  Launched.wf_refused (by simp [h])

/-- A launch stores its refusal, or the region's control words. -/
theorem State.tryLaunch_wf {s : State} (h : Memory.wf s.mem = true) (who : Launcher) (l : Loc) (rcb pa : Nat) :
    (s.tryLaunch who l rcb pa).Wf := by
  unfold State.tryLaunch
  refine Launched.wf_ite (Launched.wf_refused h) (Launched.wf_ite (Launched.wf_refused h) ?_)
  extract_lets w ovr named par format e file rest
  have hrest (u : State) (im : Option (Nat × Image)) (hu : Memory.wf u.mem = true) : (rest u im).Wf := by
    have hno (c : Nat) := u.refuse_wf hu pa c
    refine Launched.wf_ite (hno _) (Launched.wf_ite (hno _) (Launched.wf_ite (hno _) ?_))
    split
    · exact hno _
    · split
      · exact hno _
      · exact Launched.wf_ite (hno _) (Launched.wf_ok (State.accept_wf _ _ _ _ _ _ _ _ hu))
  have hfile (u : State) (id : Nat) (hu : file = .ok u id) : u.mem = s.mem := by
    simp only [file] at hu
    repeat' split at hu
    all_goals first | exact s.verifyImage_mem _ _ _ (congrArg Verified.state? hu) | (cases hu; rfl) | cases hu
  clear_value file rest
  have hno (c : Nat) := s.refuse_wf h pa c
  refine Launched.wf_ite (hno _) (Launched.wf_ite (hno _) (Launched.wf_ite (hno _) ?_))
  cases file with
  | wait => rintro _ ⟨⟩
  | bad => exact hrest _ _ h
  | ok u id =>
    have hu : Memory.wf u.mem = true := by rw [hfile u id rfl]; exact h
    exact Launched.wf_ite (u.refuse_wf hu _ _) (hrest _ _ hu)
theorem State.relaunchAlt_wf {s : State} (h : Memory.wf s.mem = true) (who : Launcher) (l : List Nat) :
    (s.relaunchAlt who l).Wf := by
  induction l generalizing s with
  | nil => exact Launched.wf_refused h
  | cons a r ih =>
    have ha := s.tryLaunch_wf h who ⟨0, 0⟩ a a
    unfold State.relaunchAlt
    split
    next u _ _ hu => exact ih (ha u (congrArg Launched.state? hu))
    next => exact ha
theorem State.relaunchAs_wf {s : State} (h : Memory.wf s.mem = true) (who : Launcher) (w : List Nat) :
    (s.relaunchAs who w).Wf := by
  have ha (a : Nat) := State.tryLaunch_wf (s := { s with dv := { s.dv with launches := s.dv.launches + 1 } }) h who ⟨0, 0⟩ a a
  unfold State.relaunchAs State.relaunch
  dsimp only
  split
  next u _ _ hu =>
    have hu := ha _ u (congrArg Launched.state? hu)
    exact Launched.wf_ite (u.relaunchAlt_wf hu _ _) (Launched.wf_refused hu)
  next => exact ha _
theorem State.restoreSpare_wf {s : State} (h : Memory.wf s.mem = true) (at_ : RestoreAt) (a b : Nat) :
    Memory.wf (s.restoreSpare at_ a b).mem = true := by
  unfold State.restoreSpare
  extract_lets x p r
  have hr : Memory.wf r.1.mem = true := by simpa [r, x] using h
  have hl (w : List Nat) := State.relaunchAs_wf (State.copyBack_wf r.1 w (some p) hr) {} w
  split
  · exact hr
  next w hw =>
    split
    · exact hr
    · split
      next t _ ht => exact hl w t (congrArg Launched.state? ht)
      · simp [hr]
      next t _ _ ht => exact hl w t (congrArg Launched.state? ht)
end Sys2Proof.Machine

namespace Sys2Proof.Machine

/-! #### Words and events that go through a list, and those that launch -/

theorem keeps_sleep (mask : BitVec 10) (s : State) : Keeps s.mem (execSleep mask s) := by
  refine keeps_elastic rfl (keeps_noHandler rfl ?_)
  split
  · simp
  · refine keeps_of_wf fun h => ?_
    rw [show ∀ (u : State) n e, (u.sched n e).mem = u.mem from fun _ _ _ => rfl, State.blockIn_mem, foldl_mem _ _ _ fun s i => ?_]
    · exact h
    · repeat' split
      all_goals simp

theorem keeps_rfork (q : Bool) (d a b : BitVec 6) (off : BitVec 18) (s : State) :
    Keeps s.mem (execRfork q d a b off s) := by
  refine keeps_elastic rfl (keeps_noHandler rfl (keeps_noCapture rfl (keeps_guardT _ _ rfl ?_)))
  extract_lets m pc tgt at_ go r g nearer slots avail k lo hi
  have hgo (u : State) (t : Nat) : (go u t).mem = u.mem := by
    simp only [go]
    repeat' split
    all_goals simp
  clear_value go
  split
  · simp [hgo]
  refine keeps_guardT _ _ rfl ?_
  split
  · simp
  split
  · simp
  extract_lets st u v w x
  have hv : v.mem = s.mem := (foldl_mem _ _ _ fun _ _ => by simp).trans rfl
  have hw : w.mem = s.mem := by
    simp only [w]
    split
    · exact (foldl_mem _ _ _ fun _ _ => by rfl).trans hv
    · exact hv
  have hx : x.mem = s.mem := by
    simp only [x]
    split <;> simp [hw]
  clear_value x
  simp [hgo, hx]

theorem keeps_follow (dir : Dir) (s : State) : Keeps s.mem (execFollow dir s) := by
  refine keeps_noHandler rfl (keeps_guardT _ _ rfl ?_)
  dsimp only
  split
  · refine keeps_trapO _ _ (foldl_mem _ _ _ fun s l => ?_)
    split <;> simp
  · simp

theorem keeps_boundaryRelease (region : Nat) (sc : Scope) (inst : Nat) (s : State) :
    Keeps s.mem (execBoundaryRelease region sc inst s) := by
  unfold execBoundaryRelease
  split
  · extract_lets ms step u v
    have hv : v.mem = s.mem := (foldl_mem _ _ _ fun s l => by split <;> simp).trans (by simp [u])
    clear_value v
    split
    · exact keeps_of_wf fun h => by simp [h, hv]
    · simp [hv]
  · simp

theorem keeps_barRelease (region : Nat) (sc : Scope) (inst : Nat) (s : State) :
    Keeps s.mem (execBarRelease region sc inst s) := by
  unfold execBarRelease
  split
  · refine keeps_of_wf fun h => ?_
    rw [State.examine_mem, foldl_mem _ _ _ fun s l => ?_]
    · exact h
    · dsimp only
      repeat' split
      all_goals simp
  · simp

theorem keeps_dramMissFill (pa : Nat) (s : State) : Keeps s.mem (execDramMissFill pa s) := by
  unfold execDramMissFill
  split
  · simp
  · exact keeps_of_wf fun h => foldl_wf _ _ _ (fun s q hs => s.serve_wf q hs) h

theorem keeps_copyTransferStart (l : Loc) (q : Nat) (s : State) : Keeps s.mem (execCopyTransferStart l q s) := by
  unfold execCopyTransferStart
  extract_lets u v
  have hu : u.mem = s.mem := by
    simp only [u]
    repeat' split
    all_goals simp
  refine keeps_of_wf fun h => ?_
  rw [foldl_mem _ _ _ fun s l => ?_]
  · simpa [v, hu] using h
  · dsimp only
    repeat' split
    all_goals simp

theorem keeps_arrayRowEntry (l : Loc) (op row : Nat) (s : State) : Keeps s.mem (execArrayRowEntry l op row s) := by
  unfold execArrayRowEntry
  split
  · simp
  next o _ =>
    have hread (t : State) (h : (s.rowRead l o row).state? = some t) := s.rowRead_mem t l o row h
    extract_lets n
    split
    · simp
    next t code ht => simp [hread t (congrArg RowIn.state? ht)]
    next t vals bytes ht =>
      have ht : t.mem = s.mem := hread t (congrArg RowIn.state? ht)
      split
      iterate 2
        · extract_lets u
          have hu : u.mem = s.mem := by simp [u, ht]
          clear_value u
          repeat' split
          all_goals simp [hu]
      extract_lets u v
      have hv : v.mem = s.mem := by
        simp only [v]
        split
        · exact (foldl_mem _ _ _ fun s m => by split <;> simp).trans (by simp [u, ht])
        · simp [u, ht]
      clear_value v
      split <;> simp [hv]

theorem keeps_messageArrival (m : Msg) (s : State) : Keeps s.mem (execMessageArrival m s) := by
  unfold execMessageArrival
  split
  · exact keeps_of_wf fun h => by simp [h]
  split
  · simp
  split
  · simp
  split
  · simp
  split
  · simp [execDeadPartitionPacket]
  extract_lets held l behind hold
  have hhold (u : State) : (hold u).mem = u.mem := rfl
  clear_value hold
  split
  · simp [hhold]
  split
  next t ht => simp [s.offer_mem t l m ht]
  · simp [hhold]

theorem keeps_routerFailure (tile : Nat) (lost : Losses) (s : State) : Keeps s.mem (execRouterFailure tile lost s) := by
  unfold execRouterFailure
  split
  · extract_lets u
    have hu : u.mem = s.mem := foldl_mem _ _ _ fun s e => by split <;> simp
    clear_value u
    split
    · simp [hu]
    · exact keeps_of_wf fun h => by simpa [hu] using h
  split
  · simp
  split
  · simp
  extract_lets x
  have hx : x.1.mem = s.mem := s.harvestFailed_mem
  clear_value x
  split
  · exact keeps_of_wf fun h => foldl_wf _ _ _ (fun s p hs => State.recoverPart_wf hs _ p) (hx ▸ h)
  · simp

theorem keeps_launchQueuePoll (q : Nat) (s : State) : Keeps s.mem (execLaunchQueuePoll q s) := by
  unfold execLaunchQueuePoll
  extract_lets x e n last
  clear_value last
  split
  · simp
  split
  next u bs hu =>
    replace hu : u.mem = s.mem := (congrArg (·.1.mem) hu).symm
    extract_lets v
    clear_value v e n
    split
    · simp [hu]
    split
    · simp [hu]
    split
    · simp [hu]
    · simp [hu]

theorem keeps_consumeEntry (q : Nat) (s : State) : Keeps s.mem (execConsumeEntry q s) := by
  unfold execConsumeEntry
  extract_lets x
  split
  · simp
  split
  · simp
  split
  next u bs hu =>
    replace hu : u.mem = s.mem := (congrArg (·.1.mem) hu).symm
    extract_lets w cookie v bad v'
    have hv : v.mem = s.mem := hu
    have hv' : v'.mem = s.mem := by
      simp only [v']
      clear_value v bad w cookie
      repeat' split
      all_goals simp [hv]
    clear_value v' v bad w cookie
    simp [hv']

end Sys2Proof.Machine

namespace Sys2Proof.Machine

/-! #### Launches, register writes, restores and power -/

theorem keeps_launch (q rcb : Nat) (cookie : Word) (priv : Bool) (s : State) :
    Keeps s.mem (execLaunch q rcb cookie priv s) := by
  unfold execLaunch
  split
  · simp
  extract_lets _ u
  have hl (h : Memory.wf s.mem = true) (who : Launcher) := State.tryLaunch_wf (s := u) h who ⟨0, 0⟩ rcb rcb
  clear_value u
  split
  next t _ ht => exact keeps_of_wf fun h => hl h _ t (congrArg Launched.state? ht)
  next t _ _ ht =>
    refine keeps_of_wf fun h => ?_
    have ht := hl h _ t (congrArg Launched.state? ht)
    split
    · exact ht
    · simpa using ht
  · simp

theorem keeps_imageVerify (file : Nat) (s : State) : Keeps s.mem (execImageVerify file s) := by
  unfold execImageVerify
  split
  next t _ ht => simp [s.verifyImage_mem t _ _ (congrArg Verified.state? ht)]
  · simp
  · simp

theorem keeps_registerWrite (mc : Bool) (r : RegAt) (v : Word) (s : State) :
    Keeps s.mem (execRegisterWrite mc r v s) := by
  unfold execRegisterWrite
  cases r with
  | bar0 off width =>
    refine keeps_answered rfl ?_
    repeat' split
    · simp
    · exact keeps_of_wf fun h => s.mcReg_wf off v h
    all_goals simp
  | pgate =>
    dsimp only
    split
    · generalize hw : (List.range 16).foldl State.startWakes _ = w
      replace hw : w.mem = s.mem := hw ▸ foldl_mem _ _ _ fun u i => u.startWakes_mem i
      have hx : (w.quads.foldl (fun s q => s.schedIn 1 (.quadIdleExpiry q.1)) w).mem = s.mem :=
        (foldl_mem _ _ _ fun _ _ => by rfl).trans hw
      split <;> simp [hw, hx]
    · simp
  | ptroot p =>
    dsimp only
    split <;> simp
  | flt t i =>
    dsimp only
    split
    · split <;> simp
    · simp

theorem keeps_mappingRequest (r : MapReq) (s : State) : Keeps s.mem (execMappingRequest r s) := by
  refine keeps_answered rfl ?_
  extract_lets pt e nv nh u x
  split
  · refine keeps_of_wf fun h => foldl_wf _ _ _ (fun u i hu => State.mapLeaf_wf hu _ _ _ _ _) ?_
    exact State.rootTable_wf _ _ h
  · simp

theorem keeps_childLaunch (l : Loc) (s : State) : Keeps s.mem (execChildLaunch l s) := by
  unfold execChildLaunch
  extract_lets c b i va who tr _ _ u res count
  have hu : u.mem = s.mem := s.xlate_mem l va accRead
  have hres (h : Memory.wf s.mem = true) : res.Wf := by
    have hu : Memory.wf u.mem = true := hu ▸ h
    simp only [res]
    split
    · exact Launched.wf_refused hu
    · exact State.tryLaunch_wf hu _ _ _ _
  have hcount (t : State) (f : Batch → Batch) (ht : Memory.wf t.mem = true) : Memory.wf (count t f).mem = true := by
    simp only [count, State.nextChild_mem, State.nextDelivery_mem]
    exact State.kidsBy_wf _ _ _ (by simpa using ht)
  clear_value res count
  split
  · simp
  split
  · simp
  split
  next t _ => exact keeps_of_wf fun h => hcount t _ (hres h t rfl)
  next t _ _ => exact keeps_of_wf fun h => hcount t _ (hres h t rfl)
  · simp

theorem keeps_paceEvaluation (s : State) : Keeps s.mem (execPaceEvaluation s) := by
  refine keeps_of_wf fun h => ?_
  simp only [State.schedIn_mem, State.applyDemand_mem]
  exact foldl_wf _ _ _ (fun u e hu => u.paceEntry_wf e.1 hu) h

theorem keeps_telemetrySample (watts : Nat) (rails : List RailSample) (s : State) :
    Keeps s.mem (execTelemetrySample watts rails s) := by
  unfold execTelemetrySample
  extract_lets u p read pr shown _ v g w x y
  have hu : u.mem = s.mem := foldl_mem _ _ _ fun u n => by split <;> simp
  have hx : x.mem = s.mem := by simp [x, w, v, hu]
  have hy : y.mem = s.mem := by
    simp only [y]
    split <;> simp [hx]
  clear_value y
  simp [hy]

theorem keeps_restore (at_ : RestoreAt) (s : State) : Keeps s.mem (execRestore at_ s) := by
  unfold execRestore
  extract_lets part grp x u pt g name find v gone who
  split
  · exact keeps_of_wf fun h => State.restoreSpare_wf h _ _ _
  split
  · simp
  split
  · simp
  have hu : u.mem = s.mem := by
    simp only [u]
    split <;> simp [x]
  have hv : v.mem = s.mem := by
    simp only [v, find]
    split <;> simp [hu]
  have hgone : gone.mem = s.mem := by
    simp only [gone]
    split <;> simp [hv]
  clear_value gone find v u
  split
  · exact keeps_of_wf fun h => State.endPart_wf _ _ _ _ (hgone ▸ h)
  next w rep _ =>
    have hl (h : Memory.wf s.mem = true) :=
      State.relaunchAs_wf ((v.resetPart part).copyBack_wf w rep (v.resetPart_wf part (hv ▸ h))) who w
    split
    next t _ ht => exact keeps_of_wf fun h => by simpa using hl h t (congrArg Launched.state? ht)
    · simp [hv]
    next t _ _ ht =>
      have ht (h : Memory.wf s.mem = true) := hl h t (congrArg Launched.state? ht)
      split <;> exact keeps_of_wf fun h => by simpa using ht h

theorem keeps_reloadComplete (part : Nat) (s : State) : Keeps s.mem (execReloadComplete part s) := by
  unfold execReloadComplete
  extract_lets ls ts lvl others u v
  split
  · simp
  split
  · rw [show ∀ u : State, ok u = .next u from fun _ => rfl]
    simp [foldl_mem]
  have hu : u.mem = s.mem := foldl_mem _ _ _ fun u l => by
    split
    · dsimp only
      split <;> simp
    · rfl
  clear_value u
  simp [v, hu]

theorem keeps_powerCycle (m : Mem) (s : State) (p : Power) : Keeps m (ok (s.powerCycle p)) :=
  keeps_of_wf fun _ => rfl

theorem keeps_perstN (s : State) : Keeps s.mem (execPerstN s) := by
  unfold execPerstN
  extract_lets u polls v
  exact keeps_of_wf fun h => foldl_wf _ _ _ (fun u p hu => u.endPart_wf p _ _ hu) h

end Sys2Proof.Machine

namespace Sys2Proof.Machine

/-- Words of the K column. -/
theorem exec_keeps_kCol (i : Instr) (s : State) (hcol : (decide (i.ctorIdx < 28)) = true) :
    Keeps s.mem (exec i s) := by
  cases i
  all_goals cases hcol
  case sleep => exact keeps_sleep _ _
  case rfork => exact keeps_rfork _ _ _ _ _ _
  case follow => exact keeps_follow _ _
  all_goals simp only [exec, execBr, execCall, execRet, execJmpi, execLoop, execNop, execTrap, execPhase, execBar, execJoin, execSpawn, execTrigger, execStepdl, execWaitt, execDetach, execRep, execUiret, execUien, execCsrr, execCsrw, execCsrs, execCsrc, execFence, execTlbinv, execHalt, csrWord]
  repeat' (first | with_reducible apply keeps_elastic | with_reducible apply keeps_noHandler | with_reducible apply keeps_noCapture | with_reducible apply keeps_guardT | with_reducible apply keeps_freeTok | with_reducible apply keeps_transfer | with_reducible apply keeps_trapO | with_reducible apply keeps_of_wf | split | intro _)
  all_goals simp [*]

/-- Words of the I column. -/
theorem exec_keeps_iCol (i : Instr) (s : State) (hcol : (decide (28 ≤ i.ctorIdx) && decide (i.ctorIdx < 69)) = true) :
    Keeps s.mem (exec i s) := by
  cases i
  all_goals cases hcol
  all_goals simp only [exec, execAdd, execSub, execMul, execMulh, execMulhn, execDiv, execDivn, execRem, execRemn, execAnd, execOr, execXor, execAndn, execShl, execShr, execSar, execRol, execClz, execCtz, execPopc, execMin, execMax, execMinn, execMaxn, execAbs, execNeg, execSel, execCmp, execLdi, execMov, execSxt, execZxt, execBfx, execBfi, execLea, execMadd, execPand, execPor, execPxor, execPnot, execSetx, bitBin, bitUn]
  repeat' (first | with_reducible apply keeps_intBin | with_reducible apply keeps_intUn | with_reducible apply keeps_fpCheck | with_reducible apply keeps_guardT | with_reducible apply keeps_regDone | with_reducible apply keeps_trapO | with_reducible apply keeps_of_wf | split | intro _)
  all_goals simp [*]

/-- Words of the L column. -/
theorem exec_keeps_lCol (i : Instr) (s : State) (hcol : (decide (69 ≤ i.ctorIdx) && decide (i.ctorIdx < 90)) = true) :
    Keeps s.mem (exec i s) := by
  cases i
  all_goals cases hcol
  all_goals simp only [exec, execLd, execSt, execLdv, execStv, execLdg, execStg, execLdgv, execStgv, execLdx, execStx, execLdrm, execStrm, execAtom, execCas, execUpd, execUpdf, execTlook, execTset, execTclr, execTinv, execWsq]
  repeat' (first | with_reducible apply keeps_fpCheck | with_reducible apply keeps_elastic | with_reducible apply keeps_noHandler | with_reducible apply keeps_freeTok | with_reducible apply keeps_vcheck | with_reducible apply keeps_withV | with_reducible apply keeps_vecDone | with_reducible apply keeps_translate | with_reducible apply keeps_localCheck | with_reducible apply keeps_globalStore | with_reducible apply keeps_remoteCheck | with_reducible apply keeps_homeWord | with_reducible apply keeps_updWord | with_reducible apply keeps_guardT | with_reducible apply keeps_trapO | with_reducible apply keeps_of_wf | split | intro _)
  all_goals simp [*]

/-- Words of the V column. -/
theorem exec_keeps_vCol (i : Instr) (s : State) (hcol : (decide (90 ≤ i.ctorIdx) && decide (i.ctorIdx < 135)) = true) :
    Keeps s.mem (exec i s) := by
  cases i
  all_goals cases hcol
  all_goals simp only [exec, execVadd, execVsub, execVmul, execVfma, execVfms, execVfnma, execVmin, execVminp, execVmax, execVmaxp, execVabs, execVneg, execVcmp, execVsel, execVand, execVor, execVxor, execVshl, execVshr, execVsar, execViadd, execVisub, execVimul, execVimin, execVimax, execVcvt, execVpack, execVunpack, execVbcast, execVext, execVperm, execVrot, execVredl, execVscan, execVdot2, execVclamp, execVround, execVmov, execMand, execMor, execMxor, execMnot, execVlane, execVsqz, execVkeep, vshift, vec2, vec3, vec4, raw3, raw2, vecFromS, mask3]
  repeat' (first | with_reducible apply keeps_vcheck | with_reducible apply keeps_withV | with_reducible apply keeps_vecDone | with_reducible apply keeps_fpCheck | with_reducible apply keeps_guardT | with_reducible apply keeps_regDone | with_reducible apply keeps_trapO | with_reducible apply keeps_of_wf | split | intro _)
  all_goals simp [*]

/-- Words of the F column. -/
theorem exec_keeps_fCol (i : Instr) (s : State) (hcol : (decide (135 ≤ i.ctorIdx) && decide (i.ctorIdx < 151)) = true) :
    Keeps s.mem (exec i s) := by
  cases i
  all_goals cases hcol
  all_goals simp only [exec, execFrcp, execFrsq, execFsqrt, execFdiv, execFexp2, execFlog2, execFsin, execFcos, execFtanh, execFsig, execFsilu, execFgelu, execFrng, execFrngk, execFbasis, execFldexp, vec2, vecTrans, raw2, vec3]
  repeat' (first | with_reducible apply keeps_vcheck | with_reducible apply keeps_withV | with_reducible apply keeps_vecDone | with_reducible apply keeps_fpCheck | with_reducible apply keeps_guardT | with_reducible apply keeps_regDone | with_reducible apply keeps_trapO | with_reducible apply keeps_of_wf | split | intro _)
  all_goals simp [*]

/-- Words of the M column. -/
theorem exec_keeps_mCol (i : Instr) (s : State) (hcol : (decide (151 ≤ i.ctorIdx) && decide (i.ctorIdx < 171)) = true) :
    Keeps s.mem (exec i s) := by
  cases i
  all_goals cases hcol
  all_goals simp only [exec, execMwld, execMfmt, execMm, execMmg, execMmrot, execMacrd, execMacwr, execMacclr, execMbank, execMmstat, execKnot, execSplld, execSplev, execSplevG, execSplbd, execSplgr, execSplgrd, execSplgclr, execGrefine, execSplst, laneOpen]
  repeat' (first | with_reducible apply keeps_mFirst | with_reducible apply keeps_descCheck | with_reducible apply keeps_aopCheck | with_reducible apply keeps_gangCheck | with_reducible apply keeps_mmFormat | with_reducible apply keeps_splFormat | with_reducible apply keeps_enqueue | with_reducible apply keeps_enqueueO | with_reducible apply keeps_noHandler | with_reducible apply keeps_freeTok | with_reducible apply keeps_guardT | with_reducible apply keeps_vcheck | with_reducible apply keeps_withV | with_reducible apply keeps_trapO | with_reducible apply keeps_of_wf | split | intro _)
  all_goals simp [*]

/-- Words of the X column. -/
theorem exec_keeps_xCol (i : Instr) (s : State) (hcol : (decide (171 ≤ i.ctorIdx) && decide (i.ctorIdx < 185)) = true) :
    Keeps s.mem (exec i s) := by
  cases i
  all_goals cases hcol
  all_goals simp only [exec, execSend, execRecv, execTsend, execPostrv, execRvcan, execProbe, execOvfpop, execReduce, execAllred, execBcast, execTreecfg, execXbar, execClsord, execXstat, treeWord]
  repeat' (first | with_reducible apply keeps_fpCheck | with_reducible apply keeps_elastic | with_reducible apply keeps_noHandler | with_reducible apply keeps_noCapture | with_reducible apply keeps_freeTok | with_reducible apply keeps_bufCheck | with_reducible apply keeps_treeCheck | with_reducible apply keeps_vcheck | with_reducible apply keeps_withV | with_reducible apply keeps_guardT | with_reducible apply keeps_trapO | with_reducible apply keeps_of_wf | split | intro _)
  all_goals simp [*]

/-- Words of the C column. -/
theorem exec_keeps_cCol (i : Instr) (s : State) (hcol : (decide (185 ≤ i.ctorIdx) && decide (i.ctorIdx < 197)) = true) :
    Keeps s.mem (exec i s) := by
  cases i
  all_goals cases hcol
  all_goals simp only [exec, execCset, execCget, execClaunch, execCstat, execCcancel, execQfence, execScfg, execSbind, execSunbind, execSdrain, execSdrainOut, execSstat]
  repeat' (first | with_reducible apply keeps_cpCheck | with_reducible apply keeps_slotWord | with_reducible apply keeps_drainWord | with_reducible apply keeps_noHandler | with_reducible apply keeps_freeTok | with_reducible apply keeps_guardT | with_reducible apply keeps_trapO | with_reducible apply keeps_of_wf | split | intro _)
  all_goals simp [*]

/-- Events of words under way, of homes, copies and streams. -/
theorem exec_keeps_accessEvents (i : Instr) (s : State) (hcol : (decide (197 ≤ i.ctorIdx) && decide (i.ctorIdx < 224)) = true) :
    Keeps s.mem (exec i s) := by
  cases i
  all_goals cases hcol
  case boundaryRelease => exact keeps_boundaryRelease _ _ _ _
  case barRelease => exact keeps_barRelease _ _ _ _
  case dramMissFill => exact keeps_dramMissFill _ _
  case copyTransferStart => exact keeps_copyTransferStart _ _ _
  all_goals simp only [exec, execTranslationWalk, execForwardedWordIssue, execRepReissue, execJoinCellDecrement, execJoinResult, execSleepWake, execWaittRelease, execRecruitStart, execHomeRequestServe, execHomeReplyArrival, execRemoteAccessServe, execRemoteAckArrival, execEccCorrected, execUncorrectableError, execScrub, execDramSensorReading, execCopySlotMove, execLocalCopyMove, execCopyWriteReport, execStreamFetch, execStreamVectorReady, execStreamWrite, execStreamWriteLand]
  repeat' (first | with_reducible apply keeps_guardT | with_reducible apply keeps_behindHeld | with_reducible apply keeps_answered | with_reducible apply keeps_of_wf | with_reducible apply keeps_trapO | split | intro _)
  all_goals simp [*]

/-- Events of the arrays and of the network. -/
theorem exec_keeps_networkEvents (i : Instr) (s : State) (hcol : (decide (224 ≤ i.ctorIdx) && decide (i.ctorIdx < 247)) = true) :
    Keeps s.mem (exec i s) := by
  cases i
  all_goals cases hcol
  case arrayRowEntry => exact keeps_arrayRowEntry _ _ _ _
  case messageArrival => exact keeps_messageArrival _ _
  case routerFailure => exact keeps_routerFailure _ _ _
  all_goals simp only [exec, execArrayOpStart, execArrayResultLand, execPlaneTakeEffect, execGangBarrierRelease, execMmrotShiftLand, execMmrotPlaneExchange, execKnotLand, execTimedPacketArrival, execHeldMessageReoffer, execMessageLand, execSendAckArrival, execTreeContributionArrival, execTreeResultArrival, execXbarRelease, execPeerTreeCombine, execDeadPartitionPacket, execDetourBlocked, execZheostCrcFail, execPtpMessage, execPpsIn]
  repeat' (first | with_reducible apply keeps_guardT | with_reducible apply keeps_behindHeld | with_reducible apply keeps_answered | with_reducible apply keeps_of_wf | with_reducible apply keeps_trapO | split | intro _)
  all_goals simp [*]

/-- Events of the queues, the host and the dispenser. -/
theorem exec_keeps_launchEvents (i : Instr) (s : State) (hcol : (decide (247 ≤ i.ctorIdx) && decide (i.ctorIdx < 278)) = true) :
    Keeps s.mem (exec i s) := by
  cases i
  all_goals cases hcol
  case launchQueuePoll => exact keeps_launchQueuePoll _ _
  case consumeEntry => exact keeps_consumeEntry _ _
  case launch => exact keeps_launch _ _ _ _ _
  case imageVerify => exact keeps_imageVerify _ _
  case registerWrite => exact keeps_registerWrite _ _ _ _
  case mappingRequest => exact keeps_mappingRequest _ _
  case childLaunch => exact keeps_childLaunch _ _
  all_goals simp only [exec, execNopEntry, execLqNextWrite, execLqStopClear, execCqHeadWrite, execUivecWrite, execTsRead, execHostBar2Write, execHostBar2Read, execIdeStateChange, execSpdmMeasurements, execIdeKm, execFirmwareDownload, execConfigBlobSubmit, execSgEntryWrite, execCheckpointRegister, execRecoveryGroupRegister, execStartRecordPlace, execTaskRecordPlace, execBallastDispatch, execPreemptDelayExpiry, execImageChunkSend, execImageChunkArrival, execLoadCompleteReport, execChildDelivery]
  repeat' (first | with_reducible apply keeps_guardT | with_reducible apply keeps_behindHeld | with_reducible apply keeps_answered | with_reducible apply keeps_of_wf | with_reducible apply keeps_trapO | split | intro _)
  all_goals simp [*]

/-- Events of pace, power, halts and the management bus. -/
theorem exec_keeps_controlEvents (i : Instr) (s : State) (hcol : (decide (278 ≤ i.ctorIdx)) = true) :
    Keeps s.mem (exec i s) := by
  cases i
  all_goals cases hcol
  case paceEvaluation => exact keeps_paceEvaluation _
  case telemetrySample => exact keeps_telemetrySample _ _ _
  case restore => exact keeps_restore _ _
  case reloadComplete => exact keeps_reloadComplete _ _
  case pwrenDeassert => exact keeps_powerCycle _ _ _
  case vinLoss => exact keeps_powerCycle _ _ _
  case perstN => exact keeps_perstN _
  all_goals simp only [exec, execDeadlineMiss, execPStateChange, execRailRampDone, execCanaryWindowEnd, execCanaryHoldExpiry, execLimiterSample, execOvercurrentTighten, execYgraceExpiry, execRegionPowerEstimate, execHeatWindowEnd, execSensorConversion, execGeyserHeartbeatMiss, execGeyserHeartbeatReturn, execQuadIdleExpiry, execQuadWake, execWakeStage, execHaltDelivery, execAllAsleep, execPhaseTimer, execResume, execEndRegion, execEndPartition, execRecoveryNotify, execBankExchange, execSpillComplete, execResumeRecordPlace, execUiDelivery, execRegionRetire, execVinApplied, execPwrenAssert, execRailBandTimeout, execMcRstN, execCoolReading, execPmPage, execReadVout, execReadIout, execReadTemperature1, execStatusWord, execClearFaults, execReadPin, execReadVin, execPmbusRefusedWrite, execPmbusUnsupported, execZheostPortRestore, execRailsReenable, execShootdownComplete, execFaultDomainRegister, execDebugAccess, State.pmAnswer, State.pmRead]
  repeat' (first | with_reducible apply keeps_guardT | with_reducible apply keeps_behindHeld | with_reducible apply keeps_answered | with_reducible apply keeps_of_wf | with_reducible apply keeps_trapO | split | intro _)
  all_goals simp [*]

end Sys2Proof.Machine

namespace Sys2Proof.Machine

theorem exec_keeps (i : Instr) (s : State) : Keeps s.mem (exec i s) := by
  rcases Nat.lt_or_ge i.ctorIdx 28 with h | h28
  · exact exec_keeps_kCol i s (by simp [h])
  rcases Nat.lt_or_ge i.ctorIdx 69 with h | h69
  · exact exec_keeps_iCol i s (by simp [h28, h])
  rcases Nat.lt_or_ge i.ctorIdx 90 with h | h90
  · exact exec_keeps_lCol i s (by simp [h69, h])
  rcases Nat.lt_or_ge i.ctorIdx 135 with h | h135
  · exact exec_keeps_vCol i s (by simp [h90, h])
  rcases Nat.lt_or_ge i.ctorIdx 151 with h | h151
  · exact exec_keeps_fCol i s (by simp [h135, h])
  rcases Nat.lt_or_ge i.ctorIdx 171 with h | h171
  · exact exec_keeps_mCol i s (by simp [h151, h])
  rcases Nat.lt_or_ge i.ctorIdx 185 with h | h185
  · exact exec_keeps_xCol i s (by simp [h171, h])
  rcases Nat.lt_or_ge i.ctorIdx 197 with h | h197
  · exact exec_keeps_cCol i s (by simp [h185, h])
  rcases Nat.lt_or_ge i.ctorIdx 224 with h | h224
  · exact exec_keeps_accessEvents i s (by simp [h197, h])
  rcases Nat.lt_or_ge i.ctorIdx 247 with h | h247
  · exact exec_keeps_networkEvents i s (by simp [h224, h])
  rcases Nat.lt_or_ge i.ctorIdx 278 with h | h278
  · exact exec_keeps_launchEvents i s (by simp [h247, h])
  · exact exec_keeps_controlEvents i s (by simp [h278])

/-! #### Steps -/

/-- Every event is one instruction. -/
theorem exists_names (e : Ev) : ∃ i, Claim.names e i := by
  cases e <;> exact ⟨_, rfl⟩

/-- An event runs as its instruction. -/
theorem runEv_eq_exec {e : Ev} {i : Instr} (h : Claim.names e i) (s : State) : runEv e s = exec i s := by
  cases e <;> cases h <;> rfl

theorem runEv_keeps (e : Ev) (s : State) : Keeps s.mem (runEv e s) := by
  obtain ⟨i, hi⟩ := exists_names e
  rw [runEv_eq_exec hi]
  exact exec_keeps i s

theorem dueEvent_keeps (s : State) (e : Ev) : Keeps s.mem (dueEvent s e) := by
  unfold dueEvent
  split
  · simp
  split
  · split
    · simp
    · exact runEv_keeps e s
  · exact runEv_keeps e s

theorem issueWord_keeps (s : State) (tile : Nat) (e : QEnt) : Keeps s.mem (issueWord s tile e) := by
  have hrun := exec_keeps e.x.instr (s.begin tile e)
  rw [State.begin_mem] at hrun
  unfold issueWord
  extract_lets b
  split
  · obtain ⟨t, ht, hm⟩ := hrun
    simpa [b, ht] using hm
  · simp [b]

theorem dueWord_keeps {s : State} {o : Out} (h : dueWord s = some o) : Keeps s.mem o := by
  unfold dueWord at h
  split at h
  · cases h; exact issueWord_keeps s _ _
  · cases h; simp
  all_goals
    split at h
    · cases h; simp
    · cases h

theorem dueNow_keeps {s : State} {o : Out} (h : dueNow s = some o) : Keeps s.mem o := by
  unfold dueNow at h
  split at h
  · split at h
    · cases h; exact dueEvent_keeps _ _
    · exact dueWord_keeps h
  · exact dueWord_keeps h

theorem step_keeps (s : State) : Keeps s.mem (step s) := by
  unfold step
  extract_lets u v
  have hu : u.mem = s.mem := s.decodeAll_mem
  have hv : v.mem = s.mem := by simp [v, hu]
  split
  next o ho => exact hu ▸ dueNow_keeps ho
  · split
    next o ho => exact hv ▸ dueNow_keeps ho
    · simp [hv]

/-! #### The obligations -/

/-- Settles O6: every meaning answers a next state, and with it every step. -/
theorem neverStops : Obligations.NeverStops :=
  ⟨fun i s => let ⟨t, ht, _⟩ := exec_keeps i s; ⟨t, ht⟩, fun s => let ⟨t, ht, _⟩ := step_keeps s; ⟨t, ht⟩⟩

/-- Settles O7: every meaning stores by the operations that keep the canonical form. -/
theorem memoryStaysCanonical : Obligations.MemoryStaysCanonical := by
  intro s t hwf hstep
  obtain ⟨u, hu, hm⟩ := step_keeps s
  cases hu.symm.trans hstep
  exact hm hwf

end Sys2Proof.Machine

/-! ### What a step does (R114, R119, R132) -/

namespace Sys2Proof.Machine

/-! #### Bytes of a number -/

/-- A number of n bytes is below 256^n. -/
theorem leNat_lt (bs : List Byte) : leNat bs < 2 ^ (8 * bs.length) := by
  induction bs with
  | nil => simp [leNat]
  | cons b bs ih =>
    have hb := b.isLt
    have hpow : 2 ^ (8 * (bs.length + 1)) = 256 * 2 ^ (8 * bs.length) := by rw [Nat.mul_add, Nat.pow_add]; omega
    simp only [leNat, List.foldr_cons, List.length_cons] at ih ⊢
    omega

/-- The bytes of a number, from the lowest. -/
theorem leNat_byte (bs : List Byte) (i : Nat) : leNat bs / 2 ^ (8 * i) % 2 ^ 8 = (bs.getD i 0).toNat := by
  induction bs generalizing i with
  | nil => simp [leNat]
  | cons b bs ih =>
    have hb := b.isLt
    cases i with
    | zero => simp only [leNat, List.foldr_cons, List.getD_cons_zero]; omega
    | succ i =>
      have hpow : 2 ^ (8 * (i + 1)) = 2 ^ 8 * 2 ^ (8 * i) := by rw [Nat.mul_add, Nat.pow_add]; omega
      have hdiv : leNat (b :: bs) / 2 ^ 8 = leNat bs := by simp only [leNat, List.foldr_cons]; omega
      rw [hpow, ← Nat.div_div_eq_div_mul, hdiv, ih, List.getD_cons_succ]

/-- The bytes of a word read from n bytes. -/
theorem extractLsb'_leNat (bs : List Byte) (i : Nat) (n : Nat) (hn : n = 8 * bs.length) (hi : i < bs.length) :
    (BitVec.ofNat n (leNat bs)).extractLsb' (8 * i) 8 = bs[i] := by
  apply BitVec.eq_of_toNat_eq
  rw [BitVec.extractLsb'_toNat, BitVec.toNat_ofNat, hn, Nat.mod_eq_of_lt (leNat_lt bs), Nat.shiftRight_eq_div_pow,
    leNat_byte, List.getD_eq_getElem?_getD, List.getElem?_eq_getElem hi, Option.getD_some]

/-- The bytes of an instruction word are those of the instruction store (R119). -/
theorem Core.wordAt_byte (k : Core) (c : Ctx) (pc i : Nat) (hi : i < 12) :
    (k.wordAt c pc).extractLsb' (8 * i) 8 = k.istore.byte (c.cbase + 12 * pc + i) := by
  rw [Core.wordAt, Mem.nat, extractLsb'_leNat _ _ _ (by simp [Mem.bytes]) (by simpa [Mem.bytes] using hi)]
  simp [Mem.bytes]

/-! #### The decoder -/

/-- A queue with an entry set in holds it, and what it held. -/
theorem mem_insEnt (e y : QEnt) (q : List QEnt) : y ∈ insEnt e q ↔ y = e ∨ y ∈ q := by
  induction q with
  | nil => simp [insEnt]
  | cons x r ih =>
    unfold insEnt
    split
    · simp
    · rw [List.mem_cons, List.mem_cons, ih]
      exact or_left_comm

/-- The decoder queues the word at its program counter, ready on the next tick, where its queue has room (R119, R132). -/
theorem passOne_queues (k : Core) (n : Nat) (c : Ctx) (x : Inst) (hpc : c.pc < c.fpc) (hrun : c.fstop = .run)
    (hgoing : c.ui.going = none) (hwords : c.pc < c.words) (hx : decode (k.wordAt c c.pc) = some x)
    (hpad : x.isPadding = false)
    (hroom : c.depth (colOf (k.wordAt c c.pc)) +
      (if Tbl.get 0 c.freed (colOf (k.wordAt c c.pc)) = n + 1 then 1 else 0) < 16) :
    ∃ d e, passOne k n c = some d ∧ e ∈ d.q ∧ e.x = x ∧ e.pc = c.pc ∧ e.bits = k.wordAt c c.pc ∧ e.avail = n + 1 ∧
      d.pc = c.pc + 1 ∧ ∀ y ∈ c.q, y ∈ d.q := by
  unfold passOne
  rw [if_pos (by simp [hpc, hrun, hgoing]), if_neg (by omega)]
  simp only [hx, hpad, Bool.false_eq_true, if_false, beq_iff_eq]
  rw [if_neg (by omega)]
  exact ⟨_, _, rfl, (mem_insEnt _ _ _).mpr (.inl rfl), rfl, rfl, rfl, rfl, rfl,
    fun y hy => (mem_insEnt _ _ _).mpr (.inr hy)⟩

/-! #### What is due -/

/-- With nothing of the agenda due, the word that the queues choose issues. -/
theorem dueNow_of_pickTile (s : State) (tile : Nat) (e : QEnt) (h : Claim.quiet s)
    (hpick : s.pickTile s.clocked = some (tile, .issue e)) : dueNow s = some (Claim.issued s tile e) := by
  rw [dueNow_of_quiet s h, dueWord, hpick]
  rfl

/-- With nothing of the agenda due, no word to issue and none illegal, nothing is due. -/
theorem dueNow_eq_none (s : State) (h : Claim.quiet s) (hpick : s.pickTile s.clocked = none)
    (hill : pickIllegal s.clocked = none) : dueNow s = none := by
  simp [dueNow_of_quiet s h, dueWord, hpick, hill]

/-- With nothing due, a tick passes, and what is due then is answered. -/
theorem step_of_advance (s : State) (h : dueNow s.decodeAll = none) :
    step s = (dueNow s.decodeAll.advance.decodeAll).getD (.next s.decodeAll.advance.decodeAll) := by
  simp only [step, h]
  cases dueNow s.decodeAll.advance.decodeAll <;> rfl

/-- An event that is due, not put off and not held is its own instruction. -/
theorem dueNow_of_agenda (s : State) (n : Nat) (ev : Ev) (r : List (Nat × Ev)) (i : Instr) (ha : s.agenda = (n, ev) :: r)
    (hn : n ≤ s.tick) (hfrozen : State.evFrozen { s with agenda := r } 0 ev = false)
    (hclock : ∀ l, evLoc ev = some l → State.clockStopped { s with agenda := r } l.tile = false) (hi : Claim.names ev i) :
    dueNow s = some (exec i { s with agenda := r }) := by
  have hev : dueEvent { s with agenda := r } ev = runEv ev { s with agenda := r } := by
    rw [dueEvent, hfrozen]
    cases hl : evLoc ev with
    | none => rfl
    | some l => simp [hclock l hl]
  rw [dueNow, ha]
  simp only [hn, if_true, hev, runEv_eq_exec hi]

/-- Settles O4: each kind of what is due, the decoder's queueing, and the bytes of the word. -/
theorem stepRunsDecoded : Obligations.StepRunsDecoded := by
  refine ⟨fun s => ?step, passOne_queues, fun k c pc i hi => k.wordAt_byte c pc i hi⟩
  intro d
  refine ⟨fun tile e hq hpick => ?issue, fun hq hpick hill => ?tick, fun n ev r ha hn hfrozen hclock i hi => ?event⟩
  case issue => exact step_of_dueNow s _ (dueNow_of_pickTile d tile e hq hpick)
  case tick =>
    have hstep := step_of_advance s (dueNow_eq_none d hq hpick hill)
    refine ⟨fun tile e hqa hpicka => ?_, fun hqa hpicka hilla => ?_⟩
    · rw [hstep, dueNow_of_pickTile _ tile e hqa hpicka, Option.getD_some]
    · rw [hstep, dueNow_eq_none _ hqa hpicka hilla, Option.getD_none]
  case event => exact step_of_dueNow s _ (dueNow_of_agenda d n ev r i ha hn hfrozen hclock hi)

/-! #### Sample words, and the machine after reset -/

/-- Settles O3: the decoder evaluated at each word. -/
theorem decodeSamples : Obligations.DecodeSamples := by
  unfold Obligations.DecodeSamples
  decide

/-- Settles O8: nothing is listed after reset, and each register reads its reset value. -/
theorem resetState : Obligations.ResetState := by
  unfold Obligations.ResetState
  intro
  refine ⟨rfl, rfl, rfl, rfl, rfl, fun _ => ⟨rfl, rfl, rfl⟩, fun _ => ⟨rfl, rfl, rfl, rfl, rfl⟩, ?_, ?_, ?_, ?_, ?_⟩
  all_goals decide

end Sys2Proof.Machine

/-! ### Results landing (R109, R173, R175, R248) -/

namespace Sys2Proof.Machine

/-! #### The results that a tick lands -/

theorem settled_put (c : Ctx) (w : Wr) : Claim.settled (c.put w) = (Claim.settled c).put w := by
  cases w with
  | s n x =>
    simp only [Ctx.put]
    split
    · rfl
    · split <;> rfl
  | p n b =>
    simp only [Ctx.put]
    split
    · rfl
    · split <;> rfl
  | _ => rfl

/-- What lands on a tick are the results at the front that are due by then, in their order. -/
theorem settled_landList (n : Nat) (q : List (Nat × Nat × Wr)) (c : Ctx) :
    Claim.settled (landList n q c) = (q.takeWhile (·.1 ≤ n)).foldl (fun c e => c.put e.2.2) (Claim.settled c) := by
  induction q generalizing c with
  | nil => rfl
  | cons e r ih =>
    by_cases he : e.1 ≤ n
    · simp [landList, he, ih, settled_put]
    · simp [landList, he, Claim.settled]

theorem settled_landRegs (n : Nat) (c : Ctx) :
    Claim.settled (c.landRegs n) = (c.pend.takeWhile (·.1 ≤ n)).foldl (fun c e => c.put e.2.2) (Claim.settled c) :=
  settled_landList n c.pend c

/-- A result due later than a tick changes nothing of what that tick lands. -/
theorem takeWhile_insPend_of_lt {n t : Nat} (h : n < t) (no : Nat) (w : Wr) (q : List (Nat × Nat × Wr)) :
    (insPend t no w q).takeWhile (·.1 ≤ n) = q.takeWhile (·.1 ≤ n) := by
  induction q with
  | nil => simp [insPend, h]
  | cons e r ih =>
    unfold insPend
    split
    next hlt =>
      have he : n < e.1 := by
        simp only [Bool.or_eq_true, decide_eq_true_eq, Bool.and_eq_true, beq_iff_eq] at hlt
        omega
      simp [h, he]
    · rw [List.takeWhile_cons, List.takeWhile_cons, ih]

/-- A result lands behind those of its tick whose words issued no later. -/
theorem takeWhile_insPend_self (t no : Nat) (w : Wr) (q : List (Nat × Nat × Wr))
    (hno : ∀ e ∈ q, e.1 = t → e.2.1 ≤ no) :
    (insPend t no w q).takeWhile (·.1 ≤ t) = q.takeWhile (·.1 ≤ t) ++ [(t, no, w)] := by
  induction q with
  | nil => simp [insPend]
  | cons e r ih =>
    have hr := ih fun x hx => hno x (List.mem_cons_of_mem _ hx)
    have he := hno e List.mem_cons_self
    unfold insPend
    by_cases hlt : t < e.1
    · simp [hlt]
    · have hle : e.1 ≤ t := by omega
      have hkeep : ¬ (e.1 = t ∧ no < e.2.1) := fun ⟨h, hn⟩ => by have := he h; omega
      rw [if_neg (by simp only [Bool.or_eq_true, decide_eq_true_eq, Bool.and_eq_true, beq_iff_eq]; omega)]
      simp [hle, hr]

/-! #### Two results of one tick -/

theorem insPend_order (n a b : Nat) (w u : Wr) (h : a < b) :
    insPend n a w (insPend n b u []) = [(n, a, w), (n, b, u)] ∧
      insPend n b u (insPend n a w []) = [(n, a, w), (n, b, u)] := by
  simp [insPend, h, Nat.lt_asymm h]

theorem settled_landRegs_two (c : Ctx) (n a b : Nat) (w u : Wr) :
    Claim.settled ({ c with pend := [(n, a, w), (n, b, u)] }.landRegs n) = Claim.settled ((c.put w).put u) := by
  rw [settled_landRegs, settled_put, settled_put]
  simp [Claim.settled]

/-! #### Lanes of a vector -/

theorem getLsbD_laneMask (m : Lane) (k : Nat) (hk : k < 1024) : (laneMask m).getLsbD k = m.getLsbD (k / 32) := by
  have hfold (n : Nat) : ((List.range n).foldl (fun acc i => if m.getLsbD i then acc ||| (0xFFFFFFFF#1024 <<< (32 * i))
      else acc) 0#1024).getLsbD k = (decide (k / 32 < n) && m.getLsbD (k / 32)) := by
    induction n with
    | zero => simp
    | succ n ih =>
      have hones : (0xFFFFFFFF#1024 <<< (32 * n)).getLsbD k = decide (k / 32 = n) := by
        have h32 (j : Nat) : (0xFFFFFFFF#1024).getLsbD j = decide (j < 32) := by
          have : (0xFFFFFFFF : Nat) = 2 ^ 32 - 1 := rfl
          rw [BitVec.getLsbD_ofNat, this, Nat.testBit_two_pow_sub_one, ← Bool.decide_and, decide_eq_decide]
          omega
        rw [BitVec.getLsbD_shiftLeft, h32]
        simp only [hk, decide_true, Bool.true_and, ← decide_not, ← Bool.decide_and, decide_eq_decide]
        omega
      rw [List.range_succ, List.foldl_append, List.foldl_cons, List.foldl_nil]
      by_cases hkn : k / 32 = n
      · subst hkn
        split
        next hm => simp [ih, hones, hm]
        next hm => simp [ih, hm]
      · have hlt : (k / 32 < n + 1) ↔ (k / 32 < n) := by omega
        split <;> simp [ih, hones, hkn, hlt]
  exact (hfold 32).trans (by rw [decide_eq_true (by omega), Bool.true_and])

theorem elem_eq (w j : Nat) (v : Vec) : elem w j v = (v.extractLsb' (w * j) w).toNat := by
  rw [elem, BitVec.extractLsb'_toNat, Nat.shiftRight_eq_div_pow]

/-- A vector result reaches the lanes of its mask alone (R248). -/
theorem elem_mergeLanes (m : Lane) (x y : Vec) (i : Nat) (hi : i < 32) :
    elem 32 i (mergeLanes m x y) = if m.getLsbD i then elem 32 i x else elem 32 i y := by
  rw [elem_eq, elem_eq, elem_eq, ← apply_ite BitVec.toNat]
  congr 1
  ext k hk
  have hlt : 32 * i + k < 1024 := by omega
  have hlane : (laneMask m)[32 * i + k] = m.getLsbD i := by
    rw [← BitVec.getLsbD_eq_getElem, getLsbD_laneMask m _ hlt, show (32 * i + k) / 32 = i by omega]
  cases hm : m.getLsbD i <;> simp [mergeLanes, hlane, hm, hlt]

/-! #### The obligation -/

/-- Settles O9: what lands on a tick is the front of the results in flight, where a result stands behind those issued before. -/
theorem resultsLand : Obligations.ResultsLand := by
  refine ⟨fun s lat w => ?later, fun c n a b w u h => ?both, fun c n x b => ⟨?zeroS, ?zeroP⟩, fun c => ⟨rfl, rfl⟩,
    elem_mergeLanes⟩
  case later =>
    intro t
    have hc : t.c = s.c.pendW (s.T + lat) w := s.c_updC _
    refine ⟨fun n hn => ?_, fun hno => ?_⟩
    · rw [hc, settled_landRegs, settled_landRegs, Ctx.pendW, takeWhile_insPend_of_lt hn]
      rfl
    · rw [hc, settled_put, settled_landRegs, settled_landRegs, Ctx.pendW, takeWhile_insPend_self _ _ _ _ hno,
        List.foldl_append]
      rfl
  case both =>
    obtain ⟨hab, hba⟩ := insPend_order n a b w u h
    rw [hab, hba]
    exact ⟨settled_landRegs_two c n a b w u, settled_landRegs_two c n a b w u⟩
  case zeroS => exact fun h => if_pos h
  case zeroP => exact fun h => if_pos h

end Sys2Proof.Machine

/-! ### The frame of register words (R173, R248, R446, R452) -/

namespace Sys2Proof.Machine

/-! #### What a register word leaves as it was -/

theorem sameRegisters_refl (c : Ctx) : Claim.sameRegisters c c :=
  ⟨rfl, rfl, rfl, rfl, rfl, rfl, rfl, rfl, rfl, rfl, rfl, rfl, rfl, rfl, rfl, rfl⟩

theorem sameRegisters_trans {a b c : Ctx} (h : Claim.sameRegisters a b) (g : Claim.sameRegisters b c) :
    Claim.sameRegisters a c := by
  simp only [Claim.sameRegisters] at *
  simp [h, g]

/-- The frame of a register word: it changes its own tile alone, and there no register. -/
structure Framed (s t : State) : Prop where
  regs : Claim.sameRegisters s.c t.c
  me : t.me = s.me
  mem : t.mem = s.mem
  poison : t.poison = s.poison
  outside : t.outside = s.outside
  regions : t.regions = s.regions
  gangs : t.gangs = s.gangs
  tick : t.tick = s.tick
  tm : t.tm = s.tm
  gov : t.gov = s.gov
  dv : t.dv = s.dv
  core : ∀ u, u ≠ s.me → t.core u = s.core u

theorem Framed.refl (s : State) : Framed s s :=
  ⟨sameRegisters_refl _, rfl, rfl, rfl, rfl, rfl, rfl, rfl, rfl, rfl, rfl, fun _ _ => rfl⟩

theorem Framed.trans {s t u : State} (h : Framed s t) (g : Framed t u) : Framed s u :=
  ⟨sameRegisters_trans h.regs g.regs, g.me.trans h.me, g.mem.trans h.mem, g.poison.trans h.poison,
    g.outside.trans h.outside, g.regions.trans h.regions, g.gangs.trans h.gangs, g.tick.trans h.tick, g.tm.trans h.tm,
    g.gov.trans h.gov, g.dv.trans h.dv, fun n hn => (g.core n (h.me ▸ hn)).trans (h.core n hn)⟩

theorem Framed.foldl {α : Type} (f : State → α → State) (l : List α) (hf : ∀ s x, Framed s (f s x)) (s : State) :
    Framed s (l.foldl f s) := by
  induction l generalizing s with
  | nil => exact .refl s
  | cons x r ih => exact (hf s x).trans (ih _)

/-! #### The operations of a register word -/

theorem framed_updC (s : State) (f : Ctx → Ctx) (hf : Claim.sameRegisters s.c (f s.c)) : Framed s (s.updC f) :=
  ⟨by rw [State.c_updC]; exact hf, rfl, rfl, rfl, rfl, rfl, rfl, rfl, rfl, rfl, rfl, fun u hu => s.core_updC_other f u hu⟩

/-- A change of a context of the tile reaches the strand's own where it is the one in the foreground. -/
theorem framed_updCtx (s : State) (l : Loc) (f : Ctx → Ctx) (hl : l.tile = s.me) (hf : ∀ c, Claim.sameRegisters c (f c)) :
    Framed s (s.updCtx l f) := by
  refine ⟨?_, by simp, by simp, by simp, by simp, by simp, by simp, by simp, by simp, by simp, by simp,
    fun u hu => s.core_updCtx_other l f u (hl ▸ hu)⟩
  have hcore (k : Core) : ((s.setCore l.tile k).c) = k.fg := by simp [State.c, hl]
  unfold State.updCtx State.setCtx
  split
  next h => rw [hcore, s.ctx_of_inFg l h, hl]; exact hf _
  split
  next => rw [hcore, hl]; exact sameRegisters_refl _
  split
  · rw [hcore, hl]; exact sameRegisters_refl _
  · exact sameRegisters_refl _

theorem framed_updPart (s : State) (p : Nat) (f : Part → Part) : Framed s (s.updPart p f) :=
  ⟨sameRegisters_refl _, rfl, rfl, rfl, rfl, rfl, rfl, rfl, rfl, rfl, rfl, fun _ _ => rfl⟩

theorem framed_sched (s : State) (n : Nat) (e : Ev) : Framed s (s.sched n e) :=
  ⟨sameRegisters_refl _, rfl, rfl, rfl, rfl, rfl, rfl, rfl, rfl, rfl, rfl, fun _ _ => rfl⟩

theorem framed_schedAt (s : State) (l : Loc) (n : Nat) (e : Ev) : Framed s (s.schedAt l n e) := framed_sched s _ e

theorem framed_cur (s : State) (x : Cur) : Framed s { s with cur := x } :=
  ⟨sameRegisters_refl _, rfl, rfl, rfl, rfl, rfl, rfl, rfl, rfl, rfl, rfl, fun _ _ => rfl⟩

theorem framed_raiseHalt (s : State) (p : Nat) (cause : Nat × Nat × Nat × Nat) : Framed s (s.raiseHalt p cause) := by
  unfold State.raiseHalt
  extract_lets pt u
  have hu : Framed s u := framed_updPart s p _
  clear_value u
  split
  iterate 3 exact hu.trans ((framed_updPart u p _).trans (framed_sched _ _ _))
  iterate 4 exact hu

theorem framed_raiseTrap (s : State) (l : Loc) (r : StopRec) (hl : l.tile = s.me) : Framed s (s.raiseTrap l r) := by
  unfold State.raiseTrap
  split
  · exact framed_updPart s _ _
  · extract_lets u
    have hu : Framed s u := framed_updCtx s l _ hl fun c => by exact sameRegisters_refl c
    exact hu.trans (framed_raiseHalt u _ _)

theorem framed_unissue (s : State) : Framed s s.unissue := by
  unfold State.unissue
  split
  · exact framed_updC s _ (sameRegisters_refl _)
  · exact .refl s

theorem framed_trapWord (s : State) (code d : Nat) : Framed s (s.trapWord code d) := by
  unfold State.trapWord
  extract_lets u r v w
  have hv : Framed s v := (framed_unissue s).trans (framed_updC u _ (sameRegisters_refl _))
  exact (hv.trans (framed_raiseTrap v v.here r rfl)).trans (framed_cur w _)

theorem framed_stall (s : State) : Framed s s.stall := by
  unfold State.stall State.stallUntil
  split
  · exact framed_trapWord s _ _
  · extract_lets u
    refine Framed.trans ?_ (framed_cur u _)
    simp only [u]
    split
    · exact framed_updC s _ (sameRegisters_refl _)
    · exact .refl s

theorem framed_poisoned (s : State) : Framed s s.poisoned := by
  unfold State.poisoned
  extract_lets r
  exact (framed_updC s _ (sameRegisters_refl s.c)).trans (framed_raiseTrap _ _ _ rfl)

theorem framed_seen (s : State) (a : Src) : Framed s (s.seen a) := by
  unfold State.seen
  split
  · exact framed_updC s _ (sameRegisters_refl _)
  · exact .refl s
  · exact .refl s

theorem framed_seenB (s : State) (b : SrcB) : Framed s (s.seenB b) := by
  cases b with
  | reg r => exact framed_seen s r
  | imm _ => exact .refl s

theorem framed_result (s : State) (lat : Nat) (w : Wr) : Framed s (s.result lat w) :=
  framed_updC s _ (sameRegisters_refl _)

theorem framed_popOne (s : State) (n : Nat) : Framed s (s.popOne n) := by
  unfold State.popOne
  extract_lets c x waits f u
  split
  · have hu : Framed s u := framed_updC s _ (sameRegisters_refl s.c)
    split
    · exact hu.trans (framed_schedAt u _ _ _)
    · exact hu
  · exact .refl s

theorem framed_pump (s : State) (l : Loc) (n : Nat) (hl : l.tile = s.me) : Framed s (s.pump l n) := by
  unfold State.pump
  extract_lets x u
  refine Framed.trans (t := u) (framed_updCtx s l _ hl fun c => ?_) (Framed.foldl _ _ (fun v e => ?_) u)
  · dsimp only
    split <;> exact sameRegisters_refl c
  · exact (framed_schedAt v _ _ _).trans (framed_schedAt _ _ _ _)

theorem framed_putV (s : State) (lat n : Nat) (m : Lane) (v : Vec) : Framed s (s.putV lat n m v) := by
  unfold State.putV State.pushV
  split
  · extract_lets u
    have hu : Framed s u := framed_updCtx s s.here _ rfl fun c => by exact sameRegisters_refl c
    exact hu.trans (framed_pump u _ _ hu.me.symm)
  · exact framed_result s _ _

theorem framed_putFlags (s : State) (lat : Nat) (fs : List (Nat × Flags)) : Framed s (s.putFlags lat fs) := by
  unfold State.putFlags
  split
  · exact .refl s
  · exact framed_result s _ _

/-! #### The answers of register words -/

/-- Whatever state an answer leaves is framed. -/
def FramedO (s : State) (o : Out) : Prop := ∀ t, o = .next t → Framed s t

theorem framedO_next {s t : State} (h : Framed s t) : FramedO s (.next t) := by
  rintro _ ⟨⟩
  exact h

theorem framedO_ok {s t : State} (h : Framed s t) : FramedO s (ok t) := framedO_next h

theorem framedO_trapO (s : State) (code d : Nat) : FramedO s (trapO s code d) := framedO_next (framed_trapWord s code d)

theorem framedO_fpCheck {s : State} {k : Out} (fs : List (Nat × Flags)) (h : FramedO s k) : FramedO s (fpCheck s fs k) := by
  unfold fpCheck
  split
  · exact framedO_trapO s _ _
  · exact h

theorem framedO_vcheck {s : State} {k : Out} (ops : List (VOp × Nat)) (h : FramedO s k) : FramedO s (vcheck s ops k) := by
  induction ops with
  | nil => exact h
  | cons o r ih =>
    unfold vcheck
    dsimp only
    split
    · exact ih
    · exact framedO_trapO s _ _

theorem framedO_withV {s : State} {k : List Vec → Out} (srcs : List Nat) (dst : Option Nat)
    (h : ∀ vs, FramedO s (k vs)) : FramedO s (withV s srcs dst k) := by
  unfold withV
  extract_lets c st
  split
  · exact framedO_trapO s _ _
  split
  · exact framedO_next (framed_stall s)
  split
  · exact framedO_next (framed_poisoned s)
  · exact h _

theorem framedO_vecDone (s : State) (srcs : List Nat) (lat n : Nat) (m : Lane) (v : Vec) (fs : List (Nat × Flags))
    (sn : List Src) (pm : Option Lane) : FramedO s (vecDone s srcs lat n m v fs sn pm) := by
  refine framedO_fpCheck _ (framedO_ok ?_)
  exact (((Framed.foldl _ sn framed_seen s).trans (Framed.foldl _ _ framed_popOne _)).trans
    (framed_putV _ _ _ _ _)).trans (framed_putFlags _ _ _)

theorem framedO_regDone (s : State) (srcs : List Nat) (lat : Nat) (w : Wr) (fs : List (Nat × Flags)) (sn : List Src)
    (pm : Lane) : FramedO s (regDone s srcs lat w fs sn pm) := by
  refine framedO_fpCheck _ (framedO_ok ?_)
  exact (((Framed.foldl _ sn framed_seen s).trans (Framed.foldl _ _ framed_popOne _)).trans
    (framed_result _ _ _)).trans (framed_putFlags _ _ _)

/-! #### The columns of register words -/

theorem Framed.seen {s t : State} (h : Framed s t) (a : Src) : Framed s (t.seen a) := h.trans (framed_seen t a)
theorem Framed.seenB {s t : State} (h : Framed s t) (b : SrcB) : Framed s (t.seenB b) := h.trans (framed_seenB t b)
theorem Framed.result {s t : State} (h : Framed s t) (lat : Nat) (w : Wr) : Framed s (t.result lat w) :=
  h.trans (framed_result t lat w)
theorem Framed.putS {s t : State} (h : Framed s t) (lat : Nat) (d : BitVec 6) (v : Word) : Framed s (t.putS lat d v) :=
  h.result lat _
theorem Framed.putP {s t : State} (h : Framed s t) (lat : Nat) (d : BitVec 4) (b : Bool) : Framed s (t.putP lat d b) :=
  h.result lat _

theorem framedO_intBin (s : State) (lat : Nat) (sat : Bool) (o : Bin) (f : Int → Int → Int) :
    FramedO s (intBin s lat sat o f) :=
  framedO_ok ((((Framed.refl s).seen _).seenB _).putS _ _ _)

theorem framedO_intUn (s : State) (lat : Nat) (sat : Bool) (o : Un) (f : Int → Int) : FramedO s (intUn s lat sat o f) :=
  framedO_ok (((Framed.refl s).seen _).putS _ _ _)

/-- Words of the I column put their result in flight, and latch what they read. -/
theorem exec_framed_iCol (i : Instr) (s : State) (hcol : (decide (28 ≤ i.ctorIdx) && decide (i.ctorIdx < 69)) = true) :
    FramedO s (exec i s) := by
  cases i
  all_goals cases hcol
  all_goals simp only [exec, execAdd, execSub, execMul, execMulh, execMulhn, execDiv, execDivn, execRem, execRemn, execAnd, execOr, execXor,
    execAndn, execShl, execShr, execSar, execRol, execClz, execCtz, execPopc, execMin, execMax, execMinn, execMaxn,
    execAbs, execNeg, execSel, execCmp, execLdi, execMov, execSxt, execZxt, execBfx, execBfi, execLea, execMadd,
    execPand, execPor, execPxor, execPnot, execSetx, bitBin, bitUn]
  all_goals repeat' (first | with_reducible apply framedO_intBin | with_reducible apply framedO_intUn |
    with_reducible apply framedO_ok | with_reducible apply Framed.putS | with_reducible apply Framed.putP |
    with_reducible apply Framed.result | with_reducible apply Framed.seen | with_reducible apply Framed.seenB |
    with_reducible apply Framed.refl | split)

/-- Words of the V column check their operands, and put their result in flight. -/
theorem exec_framed_vCol (i : Instr) (s : State) (hcol : (decide (90 ≤ i.ctorIdx) && decide (i.ctorIdx < 135)) = true) :
    FramedO s (exec i s) := by
  cases i
  all_goals cases hcol
  all_goals simp only [exec, execVadd, execVsub, execVmul, execVfma, execVfms, execVfnma, execVmin, execVminp, execVmax, execVmaxp, execVabs,
    execVneg, execVcmp, execVsel, execVand, execVor, execVxor, execVshl, execVshr, execVsar, execViadd, execVisub,
    execVimul, execVimin, execVimax, execVcvt, execVpack, execVunpack, execVbcast, execVext, execVperm, execVrot,
    execVredl, execVscan, execVdot2, execVclamp, execVround, execVmov, execMand, execMor, execMxor, execMnot,
    execVlane, execVsqz, execVkeep, vshift, vec2, vec3, vec4, raw3, raw2, vecFromS, mask3]
  all_goals repeat' (first | with_reducible apply framedO_vcheck | with_reducible refine framedO_withV _ _ fun _ => ?_ |
    with_reducible apply framedO_vecDone | with_reducible apply framedO_regDone | with_reducible apply framedO_ok |
    with_reducible apply Framed.result | with_reducible apply Framed.seen | with_reducible apply Framed.refl | split)

/-- Words of the F column check their operands, and put their result in flight. -/
theorem exec_framed_fCol (i : Instr) (s : State) (hcol : (decide (135 ≤ i.ctorIdx) && decide (i.ctorIdx < 151)) = true) :
    FramedO s (exec i s) := by
  cases i
  all_goals cases hcol
  all_goals simp only [exec, execFrcp, execFrsq, execFsqrt, execFdiv, execFexp2, execFlog2, execFsin, execFcos, execFtanh, execFsig,
    execFsilu, execFgelu, execFrng, execFrngk, execFbasis, execFldexp, vec2, vecTrans, raw2, vec3]
  all_goals repeat' (first | with_reducible apply framedO_vcheck | with_reducible refine framedO_withV _ _ fun _ => ?_ |
    with_reducible apply framedO_vecDone | with_reducible apply framedO_ok | with_reducible apply Framed.result |
    with_reducible apply Framed.seen | with_reducible apply Framed.refl)

/-- The constructors of the I, V and F columns. -/
def isRegColumn (i : Instr) : Bool :=
  (decide (28 ≤ i.ctorIdx) && decide (i.ctorIdx < 69)) || (decide (90 ≤ i.ctorIdx) && decide (i.ctorIdx < 135)) ||
    (decide (135 ≤ i.ctorIdx) && decide (i.ctorIdx < 151))

/-- A word of another column has no result in a register. -/
theorem no_result_of_not_isRegColumn (s : State) {i : Instr} (hcol : isRegColumn i = false) :
    Claim.intResult s i = none ∧ Claim.predResult s i = none ∧ Claim.indexResult s i = none ∧ Claim.vecWord s i = none := by
  cases i
  all_goals cases hcol
  all_goals exact ⟨rfl, rfl, rfl, rfl⟩

theorem isRegColumn_of_isRegisterWord {s : State} {i : Instr} (h : Claim.isRegisterWord s i) : isRegColumn i = true := by
  refine Decidable.byContradiction fun hcol => ?_
  obtain ⟨hint, hpred, hindex, hvec⟩ := no_result_of_not_isRegColumn s (Bool.not_eq_true _ ▸ hcol)
  rcases h with h | h | h | h | ⟨_, _, _, _, rfl | rfl | rfl⟩ | ⟨_, _, rfl⟩ | ⟨_, _, rfl⟩
  · simp [hint] at h
  · simp [hpred] at h
  · simp [hindex] at h
  · simp [hvec] at h
  all_goals exact hcol rfl

theorem exec_framed {s : State} {i : Instr} (h : Claim.isRegisterWord s i) : FramedO s (exec i s) := by
  have hcol := isRegColumn_of_isRegisterWord h
  simp only [isRegColumn, Bool.or_eq_true] at hcol
  rcases hcol with (hcol | hcol) | hcol
  · exact exec_framed_iCol i s hcol
  · exact exec_framed_vCol i s hcol
  · exact exec_framed_fCol i s hcol

/-! #### The obligation -/

/-- Settles O10: whatever a register word answers is framed; a landing write of the scratchpad stores its bytes alone. -/
theorem registerWordFrame : Obligations.RegisterWordFrame := by
  refine ⟨fun s t i hi ht => ?word, fun c bs pz hwf => ⟨?wf, fun a ha => ?other, sameRegisters_refl _⟩⟩
  case word =>
    have h := exec_framed hi t ht
    exact ⟨h.regs, h.mem, h.poison, h.outside, h.regions, h.gangs, h.tick, h.tm, h.gov, h.dv, h.core⟩
  case wf => exact Mem.setMany_wf _ _ hwf
  case other => exact Mem.byte_setMany_other _ _ _ hwf fun b hb => (ha b hb).symm

end Sys2Proof.Machine

/-! ### Scalar words of the I column (R183 to R192) -/

namespace Sys2Proof.Machine

open Claim

/-! #### Operands and results at a type's width -/

/-- A written number is any word with its low bits, extended. -/
theorem written_eq_widen {t : Ty} {x : Int} {y : Word} (h : BitVec.ofInt (tyBits t) x = y.setWidth (tyBits t)) :
    written t x = widen t y := by
  have hx : (BitVec.ofInt 64 x).setWidth (tyBits t) = y.setWidth (tyBits t) := (setWidth_ofInt (tyBits_le t) x).trans h
  rw [written, widen, widen, hx]

theorem ofInt_tyVal (t : Ty) (v : Nat) : BitVec.ofInt (tyBits t) (tyVal t v) = BitVec.ofNat (tyBits t) v := by
  rw [tyVal_eq]
  split
  · exact BitVec.ofInt_toInt
  · rw [BitVec.ofInt_natCast, BitVec.ofNat_toNat, BitVec.setWidth_eq]

theorem ofInt_val (s : State) (t : Ty) (a : Src) :
    BitVec.ofInt (tyBits t) (s.val t a) = (s.src a).setWidth (tyBits t) := by
  rw [State.val, ofInt_tyVal, BitVec.ofNat_toNat]

theorem valB_eq (s : State) (t : Ty) (b : SrcB) : s.valB t b = tyVal t (operandB s t b).toNat := by
  cases b with
  | reg r => rfl
  | imm v => simp only [State.valB, operandB]; split <;> rfl

theorem ofInt_valB (s : State) (t : Ty) (b : SrcB) :
    BitVec.ofInt (tyBits t) (s.valB t b) = (operandB s t b).setWidth (tyBits t) := by
  rw [valB_eq, ofInt_tyVal, BitVec.ofNat_toNat]

theorem tyPat_lt (t : Ty) (x : Int) : tyPat t x < 2 ^ tyBits t := by
  have hpos : (0 : Int) < ((2 ^ tyBits t : Nat) : Int) := by exact_mod_cast Nat.two_pow_pos _
  have := Int.emod_lt_of_pos x hpos
  have := Int.emod_nonneg x (Int.ne_of_gt hpos)
  rw [tyPat]
  omega

/-- The pattern of a number is that of its low bits. -/
theorem tyPat_of_ofInt {t : Ty} {x : Int} {y : BitVec (tyBits t)} (h : BitVec.ofInt (tyBits t) x = y) :
    tyPat t x = y.toNat := by
  rw [← h, ← ofNat_tyPat, BitVec.toNat_ofNat, Nat.mod_eq_of_lt (tyPat_lt t x)]

/-- A shift count read at a type's width is the same modulo it. -/
theorem toNat_setWidth_mod_tyBits (t : Ty) (x : Word) : (x.setWidth (tyBits t)).toNat % tyBits t = x.toNat % tyBits t := by
  rw [BitVec.toNat_setWidth]
  exact Nat.mod_mod_of_dvd _ (by cases t <;> decide)

/-! #### Patterns as bit vectors -/

theorem ofNat_shlPat {w : Nat} (a b : BitVec w) : BitVec.ofNat w (shlPat w a.toNat b.toNat) = a <<< (b.toNat % w) := by
  apply BitVec.eq_of_toNat_eq
  rw [shlPat, BitVec.toNat_ofNat, Nat.mod_mod, BitVec.toNat_shiftLeft, Nat.shiftLeft_eq]

theorem ofNat_shrPat {w : Nat} (a b : BitVec w) : BitVec.ofNat w (shrPat w a.toNat b.toNat) = a >>> (b.toNat % w) := by
  apply BitVec.eq_of_toNat_eq
  rw [shrPat, BitVec.toNat_ofNat, BitVec.toNat_ushiftRight, Nat.shiftRight_eq_div_pow]
  exact Nat.mod_eq_of_lt (Nat.lt_of_le_of_lt (Nat.div_le_self _ _) a.isLt)

theorem ofNat_sarPat {w : Nat} (a b : BitVec w) :
    BitVec.ofNat w (sarPat w a.toNat b.toNat) = a.sshiftRight (b.toNat % w) := by
  have hval : (if 2 ^ (w - 1) ≤ a.toNat then (a.toNat : Int) - ((2 ^ w : Nat) : Int) else (a.toNat : Int)) = a.toInt := by
    have h := sextN_eq_toInt a.toNat w
    rw [BitVec.ofNat_toNat, BitVec.setWidth_eq] at h
    rw [← h, sextN, Nat.mod_eq_of_lt a.isLt]
  have hpos : ((2 ^ w : Nat) : Int) ≠ 0 := by exact_mod_cast Nat.ne_of_gt (Nat.two_pow_pos w)
  rw [sarPat, hval, BitVec.sshiftRight, Int.shiftRight_eq_div_pow, ← BitVec.ofInt_natCast,
    Int.toNat_of_nonneg (Int.emod_nonneg _ hpos)]
  apply BitVec.eq_of_toInt_eq
  rw [BitVec.toInt_ofInt, BitVec.toInt_ofInt, Int.emod_bmod]

theorem ofNat_rolPat {w : Nat} (a b : BitVec w) : BitVec.ofNat w (rolPat w a.toNat b.toNat) = a.rotateLeft (b.toNat % w) := by
  rw [rolPat, BitVec.ofNat_or, BitVec.rotateLeft, BitVec.rotateLeftAux, Nat.mod_mod]
  congr 1
  · exact ofNat_shlPat a b
  · apply BitVec.eq_of_toNat_eq
    rw [BitVec.toNat_ofNat, BitVec.toNat_ushiftRight, Nat.shiftRight_eq_div_pow]
    exact Nat.mod_eq_of_lt (Nat.lt_of_le_of_lt (Nat.div_le_self _ _) a.isLt)

/-! #### The words of each form -/

/-- A two-source word whose number's low bits are a word's writes that word, extended. -/
theorem intBin_widen {s : State} {lat : Nat} {o : Bin} {f : Int → Int → Int} {y : Word}
    (h : BitVec.ofInt (tyBits o.t) (f (s.val o.t o.a) (s.valB o.t o.b)) = y.setWidth (tyBits o.t)) :
    intBin s lat false o f = .next (((intSources (.mulh o)).foldl State.seen s).putS lat o.d (widen o.t y)) := by
  rw [intBin_eq, written_eq_widen h]

/-- With .sat the word writes the common steps' result. -/
theorem intBin_sat (s : State) (lat : Nat) (sat : Bool) (o : Bin) (f : Int → Int → Int) :
    intBin s lat sat o f = .next (((intSources (.mulh o)).foldl State.seen s).putS lat o.d
      (resWord o.t sat (f (s.val o.t o.a) (s.valB o.t o.b)))) := by
  obtain ⟨t, d, a, b⟩ := o
  cases b <;> rfl

/-- add, sub and mul: saturated, or the low bits of the operation on the words. -/
theorem intBin_arith (s : State) (lat : Nat) (sat : Bool) (o : Bin) (f : Int → Int → Int) (g : Word → Word → Word)
    (hg : ∀ x y : Int, ∀ a b : Word, BitVec.ofInt (tyBits o.t) x = a.setWidth (tyBits o.t) →
      BitVec.ofInt (tyBits o.t) y = b.setWidth (tyBits o.t) →
        BitVec.ofInt (tyBits o.t) (f x y) = (g a b).setWidth (tyBits o.t)) :
    intBin s lat sat o f = .next (((intSources (.mulh o)).foldl State.seen s).putS lat o.d
      (if sat then resWord o.t true (f (s.val o.t o.a) (s.valB o.t o.b)) else widen o.t (g (s.src o.a) (operandB s o.t o.b)))) := by
  cases sat
  · exact intBin_widen (hg _ _ _ _ (ofInt_val s o.t o.a) (ofInt_valB s o.t o.b))
  · exact intBin_sat s lat true o f

/-- A bitwise word works on the operands' low bits. -/
theorem bitBin_eq (s : State) (o : Bin) (f : Nat → Nat → Nat → Nat) (y : Word)
    (h : BitVec.ofNat (tyBits o.t) (f (tyBits o.t) ((s.src o.a).setWidth (tyBits o.t)).toNat
      ((operandB s o.t o.b).setWidth (tyBits o.t)).toNat) = y.setWidth (tyBits o.t)) :
    bitBin s o f = .next (((intSources (.mulh o)).foldl State.seen s).putS 1 o.d (widen o.t y)) := by
  refine intBin_widen ?_
  rw [tyPat_of_ofInt (ofInt_val s o.t o.a), tyPat_of_ofInt (ofInt_valB s o.t o.b), BitVec.ofInt_natCast]
  exact h

/-- A result computed at the type's width is the low bits of itself, extended. -/
theorem setWidth_setWidth_tyBits (t : Ty) (x : BitVec (tyBits t)) : x = (x.setWidth 64).setWidth (tyBits t) := by
  rw [BitVec.setWidth_setWidth_of_le _ (tyBits_le t), BitVec.setWidth_eq]

theorem addWord_completes (s : State) (sat : Bool) (o : Bin) : exec (.add sat o) s =
    .next (((intSources (.add sat o)).foldl State.seen s).putS 1 o.d
      (if sat then resWord o.t true (s.val o.t o.a + s.valB o.t o.b) else widen o.t (s.src o.a + operandB s o.t o.b))) :=
  intBin_arith s 1 sat o (· + ·) (· + ·) fun x y a b hx hy => by
    rw [BitVec.ofInt_add, hx, hy, BitVec.setWidth_add _ _ (tyBits_le o.t)]

theorem subWord_completes (s : State) (sat : Bool) (o : Bin) : exec (.sub sat o) s =
    .next (((intSources (.sub sat o)).foldl State.seen s).putS 1 o.d
      (if sat then resWord o.t true (s.val o.t o.a - s.valB o.t o.b) else widen o.t (s.src o.a - operandB s o.t o.b))) :=
  intBin_arith s 1 sat o (· - ·) (· - ·) fun x y a b hx hy => by
    rw [Int.sub_eq_add_neg, BitVec.sub_eq_add_neg, BitVec.ofInt_add, BitVec.ofInt_neg, hx, hy,
      BitVec.setWidth_add _ _ (tyBits_le o.t), BitVec.setWidth_neg_of_le (tyBits_le o.t)]

theorem mulWord_completes (s : State) (sat : Bool) (o : Bin) : exec (.mul sat o) s =
    .next (((intSources (.mul sat o)).foldl State.seen s).putS 3 o.d
      (if sat then resWord o.t true (s.val o.t o.a * s.valB o.t o.b) else widen o.t (s.src o.a * operandB s o.t o.b))) :=
  intBin_arith s 3 sat o (· * ·) (· * ·) fun x y a b hx hy => by
    rw [BitVec.ofInt_mul, hx, hy, BitVec.setWidth_mul _ _ (tyBits_le o.t)]

/-- A word of one source completes with its result. -/
theorem intUn_go (s : State) (lat : Nat) (sat : Bool) (o : Un) (f : Int → Int) :
    intUn s lat sat o f = .next ((s.seen o.a).putS lat o.d (resWord o.t sat (f (s.val o.t o.a)))) := rfl

theorem resWord_val (s : State) (t : Ty) (a : Src) : resWord t false (s.val t a) = widen t (s.src a) := by
  rw [resWord_eq_written, written_eq_widen (ofInt_val s t a)]

theorem and_completes (s : State) (o : Bin) : exec (.and o) s = .next (((intSources (.mulh o)).foldl State.seen s).putS 1
    o.d (widen o.t (s.src o.a &&& operandB s o.t o.b))) :=
  bitBin_eq s o (fun _ x y => x &&& y) _ (by
    rw [BitVec.ofNat_and, BitVec.ofNat_toNat, BitVec.ofNat_toNat, BitVec.setWidth_eq, BitVec.setWidth_eq, BitVec.setWidth_and])

theorem or_completes (s : State) (o : Bin) : exec (.or o) s = .next (((intSources (.mulh o)).foldl State.seen s).putS 1
    o.d (widen o.t (s.src o.a ||| operandB s o.t o.b))) :=
  bitBin_eq s o (fun _ x y => x ||| y) _ (by
    rw [BitVec.ofNat_or, BitVec.ofNat_toNat, BitVec.ofNat_toNat, BitVec.setWidth_eq, BitVec.setWidth_eq, BitVec.setWidth_or])

theorem xor_completes (s : State) (o : Bin) : exec (.xor o) s = .next (((intSources (.mulh o)).foldl State.seen s).putS 1
    o.d (widen o.t (s.src o.a ^^^ operandB s o.t o.b))) :=
  bitBin_eq s o (fun _ x y => x ^^^ y) _ (by
    rw [BitVec.ofNat_xor, BitVec.ofNat_toNat, BitVec.ofNat_toNat, BitVec.setWidth_eq, BitVec.setWidth_eq, BitVec.setWidth_xor])

theorem andn_completes (s : State) (o : Bin) : exec (.andn o) s = .next (((intSources (.mulh o)).foldl State.seen s).putS 1
    o.d (widen o.t (s.src o.a &&& ~~~ operandB s o.t o.b))) :=
  bitBin_eq s o (fun w x y => x &&& (2 ^ w - 1 - y)) _ (by
    rw [← BitVec.toNat_not, BitVec.ofNat_and, BitVec.ofNat_toNat, BitVec.ofNat_toNat, BitVec.setWidth_eq, BitVec.setWidth_eq,
      BitVec.setWidth_and, BitVec.setWidth_not (tyBits_le o.t)])

theorem shl_completes (s : State) (o : Bin) : exec (.shl o) s = .next (((intSources (.mulh o)).foldl State.seen s).putS 1
    o.d (widen o.t (s.src o.a <<< ((operandB s o.t o.b).toNat % tyBits o.t)))) :=
  bitBin_eq s o shlPat _ (by
    rw [ofNat_shlPat, toNat_setWidth_mod_tyBits, BitVec.setWidth_shiftLeft_of_le (tyBits_le o.t)])

theorem shr_completes (s : State) (o : Bin) : exec (.shr o) s = .next (((intSources (.mulh o)).foldl State.seen s).putS 1
    o.d (widen o.t (((s.src o.a).setWidth (tyBits o.t) >>> ((operandB s o.t o.b).toNat % tyBits o.t)).setWidth 64))) :=
  bitBin_eq s o shrPat _ (by rw [ofNat_shrPat, toNat_setWidth_mod_tyBits, ← setWidth_setWidth_tyBits])

theorem sar_completes (s : State) (o : Bin) : exec (.sar o) s = .next (((intSources (.mulh o)).foldl State.seen s).putS 1
    o.d (widen o.t ((((s.src o.a).setWidth (tyBits o.t)).sshiftRight ((operandB s o.t o.b).toNat % tyBits o.t)).setWidth 64))) :=
  bitBin_eq s o sarPat _ (by rw [ofNat_sarPat, toNat_setWidth_mod_tyBits, ← setWidth_setWidth_tyBits])

theorem rol_completes (s : State) (o : Bin) : exec (.rol o) s = .next (((intSources (.mulh o)).foldl State.seen s).putS 1
    o.d (widen o.t ((((s.src o.a).setWidth (tyBits o.t)).rotateLeft ((operandB s o.t o.b).toNat % tyBits o.t)).setWidth 64))) :=
  bitBin_eq s o rolPat _ (by rw [ofNat_rolPat, toNat_setWidth_mod_tyBits, ← setWidth_setWidth_tyBits])

theorem natAbs_eq_ite (x : Int) : ((x.natAbs : Nat) : Int) = if x < 0 then -x else x := by
  split <;> omega

theorem max_eq_ite (x y : Int) : max x y = if x ≥ y then x else y := by
  split <;> omega

/-- The divisor 0 gives all ones at the type's width (R185). -/
theorem ofInt_two_pow_sub_one (t : Ty) :
    BitVec.ofInt (tyBits t) (((2 ^ tyBits t : Nat) : Int) - 1) = (BitVec.allOnes 64).setWidth (tyBits t) := by
  cases t <;> decide

theorem div_completes (s : State) (o : Bin) : intBin s 12 false o (divRes o.t) =
    .next (((intSources (.mulh o)).foldl State.seen s).putS 12 o.d
      (if s.valB o.t o.b = 0 then widen o.t (BitVec.allOnes 64)
        else resWord o.t false ((s.val o.t o.a).tdiv (s.valB o.t o.b)))) := by
  rw [intBin_sat]
  congr 2
  by_cases h : s.valB o.t o.b = 0
  · rw [if_pos h, divRes, if_pos h, resWord_eq_written]
    refine written_eq_widen ?_
    exact ofInt_two_pow_sub_one o.t
  · rw [if_neg h, divRes, if_neg h]

theorem rem_completes (s : State) (o : Bin) : intBin s 12 false o remRes =
    .next (((intSources (.mulh o)).foldl State.seen s).putS 12 o.d
      (if s.valB o.t o.b = 0 then widen o.t (s.src o.a)
        else resWord o.t false ((s.val o.t o.a).tmod (s.valB o.t o.b)))) := by
  rw [intBin_sat]
  congr 2
  by_cases h : s.valB o.t o.b = 0
  · rw [if_pos h, remRes, if_pos h, resWord_val]
  · rw [if_neg h, remRes, if_neg h, Int.tmod_def, Int.mul_comm]

theorem ldi_completes (s : State) (hi : Bool) (t : Ty) (d : BitVec 6) (imm : BitVec 38) : exec (.ldi hi t d imm) s =
    .next (s.putS 1 d (if hi then (imm.extractLsb' 0 26 ++ (s.sreg d).extractLsb' 0 38 : BitVec 64)
      else widen t (if t.isI then imm.signExtend 64 else imm.setWidth 64))) := by
  have himm (x : Word) : resWord t false (tyVal t x.toNat) = widen t x := by
    rw [resWord_eq_written, written_eq_widen (y := x) (by rw [ofInt_tyVal, BitVec.ofNat_toNat])]
  have hval : ldiVal hi t (s.sreg d) imm = if hi then (imm.extractLsb' 0 26 ++ (s.sreg d).extractLsb' 0 38 : BitVec 64)
      else widen t (if t.isI then imm.signExtend 64 else imm.setWidth 64) := by
    rw [ldiVal, cat, BitVec.setWidth_eq, ← apply_ite BitVec.toNat, himm]
  rw [← hval]
  rfl

theorem sel_completes (s : State) (t : Ty) (d : BitVec 6) (a b : Src) (c : BitVec 4) : exec (.sel t d a b c) s =
    .next (((s.seen a).seen b).putS 1 d (widen t (if s.c.preg c.toNat then s.src a else s.src b))) := by
  have hval : resWord t false (if s.c.preg c.toNat then s.val t a else s.val t b) =
      widen t (if s.c.preg c.toNat then s.src a else s.src b) := by
    split <;> exact resWord_val s t _
  rw [← hval]
  rfl

theorem neg_completes (s : State) (sat : Bool) (o : Un) : exec (.neg sat o) s = .next ((s.seen o.a).putS 1 o.d
    (if sat then resWord o.t true (-(s.val o.t o.a)) else widen o.t (-(s.src o.a)))) := by
  have hval : resWord o.t sat (-(s.val o.t o.a)) =
      if sat then resWord o.t true (-(s.val o.t o.a)) else widen o.t (-(s.src o.a)) := by
    cases sat
    · rw [resWord_eq_written, written_eq_widen (y := -(s.src o.a))]
      · rfl
      · rw [BitVec.ofInt_neg, ofInt_val, BitVec.setWidth_neg_of_le (tyBits_le o.t)]
    · rfl
  rw [← hval]
  rfl

theorem madd_completes (s : State) (sat : Bool) (t : Ty) (d : BitVec 6) (a b c : Src) : exec (.madd sat t d a b c) s =
    .next ((((s.seen a).seen b).seen c).putS 3 d (if sat then resWord t true (s.val t a * s.val t b + s.val t c)
      else widen t (s.src a * s.src b + s.src c))) := by
  have hval : resWord t sat (s.val t a * s.val t b + s.val t c) = if sat then
      resWord t true (s.val t a * s.val t b + s.val t c) else widen t (s.src a * s.src b + s.src c) := by
    cases sat
    · rw [resWord_eq_written, written_eq_widen (y := s.src a * s.src b + s.src c)]
      · rfl
      · rw [BitVec.ofInt_add, BitVec.ofInt_mul, ofInt_val, ofInt_val, ofInt_val, BitVec.setWidth_add _ _ (tyBits_le t),
          BitVec.setWidth_mul _ _ (tyBits_le t)]
    · rfl
  rw [← hval]
  rfl

/-- bfi writes a field of A over B (R191). -/
theorem bfiVal_eq (a b c : Word) :
    let pos := c.toNat % 64
    let field : Word := ((BitVec.allOnes (c.toNat / 64 % 64 + 1)).setWidth 64) <<< pos
    bfiVal a.toNat b.toNat c.toNat = (b &&& ~~~ field) ||| ((a <<< pos) &&& field) := by
  intro pos field
  apply BitVec.eq_of_getLsbD_eq
  intro i hi
  have hfield : field.getLsbD i = decide (pos ≤ i ∧ i - pos < c.toNat / 64 % 64 + 1) := by
    simp only [field, BitVec.getLsbD_shiftLeft, BitVec.getLsbD_setWidth, BitVec.getLsbD_allOnes, hi]
    by_cases hp : pos ≤ i
    · simp [hp, show i - pos < 64 by omega]
    · simp [hp]
  rw [bfiVal_getLsbD _ _ _ i hi, BitVec.getLsbD_or, BitVec.getLsbD_and, BitVec.getLsbD_and, BitVec.getLsbD_not,
    hfield, BitVec.getLsbD_shiftLeft, BitVec.testBit_toNat, BitVec.testBit_toNat, show c.toNat % 64 = pos from rfl]
  by_cases h : pos ≤ i ∧ i - pos < c.toNat / 64 % 64 + 1
  · simp only [if_pos h, decide_eq_true h]
    simp [hi, Nat.not_lt.mpr h.1]
  · simp only [if_neg h, decide_eq_false h]
    simp [hi]

/-! #### The obligation -/

theorem extractLsb'_zero_eq_setWidth (x : Word) (n : Nat) : x.extractLsb' 0 n = x.setWidth n := by
  apply BitVec.eq_of_toNat_eq
  simp

/-- A scalar word of the I column completes with its result. -/
theorem integerWord_completes (s : State) (i : Instr) (r : Nat × BitVec 6 × Word) (h : intResult s i = some r) :
    exec i s = .next (((intSources i).foldl State.seen s).putS r.1 r.2.1 r.2.2) := by
  cases i
  all_goals cases h
  case add sat o => exact addWord_completes s sat o
  case sub sat o => exact subWord_completes s sat o
  case mul sat o => exact mulWord_completes s sat o
  case mulh o => exact intBin_sat s 3 false o fun a b => a * b / ((2 ^ tyBits o.t : Nat) : Int)
  case mulhn o => exact intBin_sat s 3 false o fun a b => a * b / ((2 ^ tyBits o.t : Nat) : Int)
  case div o => exact div_completes s o
  case divn o => exact div_completes s o
  case rem o => exact rem_completes s o
  case remn o => exact rem_completes s o
  case and o => exact and_completes s o
  case or o => exact or_completes s o
  case xor o => exact xor_completes s o
  case andn o => exact andn_completes s o
  case shl o => exact shl_completes s o
  case shr o => exact shr_completes s o
  case sar o => exact sar_completes s o
  case rol o => exact rol_completes s o
  case clz o => exact intUn_go s 1 false o fun a => ((clzPat (tyBits o.t) (tyPat o.t a) : Nat) : Int)
  case ctz o => exact intUn_go s 1 false o fun a => ((ctzFrom (tyPat o.t a) (tyBits o.t) 0 : Nat) : Int)
  case popc o => exact intUn_go s 1 false o fun a => ((popPat (tyBits o.t) (tyPat o.t a) : Nat) : Int)
  case min o => exact intBin_sat s 1 false o fun a b => if a ≤ b then a else b
  case minn o => exact intBin_sat s 1 false o fun a b => if a ≤ b then a else b
  case max o => rw [max_eq_ite]; exact intBin_sat s 1 false o fun a b => if a ≥ b then a else b
  case maxn o => rw [max_eq_ite]; exact intBin_sat s 1 false o fun a b => if a ≥ b then a else b
  case abs sat o => rw [natAbs_eq_ite]; exact intUn_go s 1 sat o fun a => if a < 0 then -a else a
  case neg sat o => exact neg_completes s sat o
  case sel t d a b c => exact sel_completes s t d a b c
  case ldi hi t d imm => exact ldi_completes s hi t d imm
  case mov o => rw [← resWord_val]; exact intUn_go s 1 false o fun a => a
  case sxt d a n1 => rw [← extractLsb'_zero_eq_setWidth]; exact (extendWords_complete s d a n1).1
  case zxt d a n1 => rw [← extractLsb'_zero_eq_setWidth]; exact (extendWords_complete s d a n1).2
  case bfx sgn d a pos len1 =>
    cases sgn
    · exact (bfxWords_complete s d a pos len1).2
    · exact (bfxWords_complete s d a pos len1).1
  case bfi d a b c => rw [← bfiVal_eq]; rfl
  case lea d a b sh disp => rfl
  case madd sat t d a b c => exact madd_completes s sat t d a b c

/-- Settles O11: each word's number, computed modulo its type, is the low bits of the word computed on words. -/
theorem integerWords : Obligations.IntegerWords := fun s i lat d v _ h => integerWord_completes s i (lat, d, v) h

end Sys2Proof.Machine

/-! ### Vector words (R178, R238, R248 to R277, R283 to R285) -/

namespace Sys2Proof.Machine

open Claim

/-- The answer of a vector word: its operands are checked, its sources read, and what it writes is put in flight with the
flags that it raises. -/
def vecAnswer (s : State) (w : VecWord) : Out :=
  vcheck s w.ops <| withV s (numsOf s w.srcs) (w.dst.map fun d => s.vnum d 0) fun vs =>
    match w.out vs, w.dst with
    | .vec m v fl, some d => vecDone s (numsOf s w.srcs) w.lat (s.vnum d 0) m v fl w.seen (some w.en)
    | .vec _ _ fl, none =>
      let all := maskFlags w.en (s.c.popFlags (numsOf s w.srcs)) ++ fl
      fpCheck s all (ok (((w.seen.foldl State.seen s).popAll (numsOf s w.srcs)).putFlags w.lat all))
    | .reg r fl, _ => regDone s (numsOf s w.srcs) w.lat r fl w.seen w.en

/-- Every vector word answers so. -/
theorem exec_eq_vecAnswer (s : State) (i : Instr) (w : VecWord) (h : vecWord s i = some w) : exec i s = vecAnswer s w := by
  cases i
  all_goals cases h
  case vshl t d a b msk => cases b <;> rfl
  case vshr t d a b msk => cases b <;> rfl
  case vsar t d a b msk => cases b <;> rfl
  all_goals rfl

/-- With its operands in the window and its streams ready, the flags that it raises decide. -/
theorem vecAnswer_of_ready (s : State) (w : VecWord) (hwin : inWindow s w.ops) (hready : streamsReady s w) :
    vecAnswer s w = fpCheck s (raised s w) (.next (vecNext s w)) := by
  obtain ⟨hread, hwrite⟩ := hready
  have hdst (n : Nat) (hn : (w.dst.map fun d => s.vnum d 0) = some n) : s.c.canWrite n = .go := by
    obtain ⟨d, hd, rfl⟩ := Option.map_eq_some_iff.mp hn
    exact hwrite d hd
  rw [vecAnswer, vcheck_go _ _ _ hwin, withV_go _ _ _ _ hread hdst]
  rw [vecNext, raised]
  cases w.out ((numsOf s w.srcs).map s.c.readV) with
  | vec m v fl => cases w.dst <;> rfl
  | reg r fl => rfl

/-- A flag enabled to trap: FP_TRAP, and nothing else (R238). -/
theorem fpCheck_stop (s : State) (fs : List (Nat × Flags)) (k : Out) (h : orFlags fs &&& s.c.fpEnable ≠ 0) :
    fpCheck s fs k = .next (s.trapWord cFpTrap (fpDetail s.c.fpEnable fs)) := by
  exact if_pos (by simpa using h)

/-- Settles O13: the word's checks pass, and it leaves its result and flags in flight. -/
theorem vectorWords : Obligations.VectorWords := by
  intro s i w hw hwin hready hflags
  rw [exec_eq_vecAnswer s i w hw, vecAnswer_of_ready s w hwin hready, fpCheck_go _ _ _ hflags]

/-- Settles O14: the operands are checked in their order, D first, and the flags last. -/
theorem vectorTraps : Obligations.VectorTraps := by
  refine ⟨fun s i w pre post o hw hops hpre ho => ?bounds, fun s i w hw hwin hready hflags => ?flags⟩
  case bounds => rw [exec_eq_vecAnswer s i w hw, vecAnswer, hops, vcheck_stop s pre post o _ hpre ho]; rfl
  case flags =>
    rw [exec_eq_vecAnswer s i w hw, vecAnswer_of_ready s w hwin hready, fpCheck_stop _ _ _ hflags]
    rfl

end Sys2Proof.Machine

/-! ### Words of the L column (R292, R313 to R323) -/

namespace Sys2Proof.Machine

open Claim

/-! #### Addresses (R313) -/

theorem addr_eq_addrS (s : State) (a : Src) (off : BitVec 18) : s.addr a off.toInt = addrS s a off := rfl

/-- An offset that counts units of n bytes. -/
theorem ofInt_mul_toInt (n : Nat) (off : BitVec 14) :
    BitVec.ofInt 64 (n * off.toInt) = off.signExtend 64 * BitVec.ofNat 64 n := by
  rw [BitVec.ofInt_mul, BitVec.ofInt_natCast, BitVec.mul_comm]
  rfl

theorem addr_eq_addrV (s : State) (a : Src) (off : BitVec 14) : s.addr a (16 * off.toInt) = addrV s a off :=
  congrArg (fun x => (s.src a + x).toNat) (ofInt_mul_toInt 16 off)

theorem addr_eq_addrG (s : State) (a : Src) (off : BitVec 14) : s.addr a (128 * off.toInt) = addrG s a off :=
  congrArg (fun x => (s.src a + x).toNat) (ofInt_mul_toInt 128 off)

theorem addr_zero (s : State) (a : Src) : s.addr a 0 = (s.src a).toNat := by
  simp [State.addr]

/-! #### The checks of a memory word -/

section
variable (s : State) (k : Out)

theorem localCheck_go (a z al : Nat) (hal : a % al = 0) (hfit : a + z ≤ s.c.share) : localCheck s a z al k = k := by
  rw [localCheck, guardT_go _ _ _ _ (by simpa using hal), guardT_go _ _ _ _ (by simpa using hfit)]

theorem localCheck_unaligned (a z al : Nat) (hal : a % al ≠ 0) : localCheck s a z al k = .next (s.trapWord 0x0B) := by
  rw [localCheck, guardT_stop _ _ _ _ (by simpa using hal)]
  rfl

theorem localCheck_outside (a z al : Nat) (hal : a % al = 0) (hfit : s.c.share < a + z) :
    localCheck s a z al k = .next (s.trapWord 0x0C) := by
  rw [localCheck, guardT_go _ _ _ _ (by simpa using hal), guardT_stop _ _ _ _ (by simpa using hfit)]
  rfl

end

/-- The translation in hand gives the physical address (R304, R305). -/
theorem translate_go (s : State) (va acc pa : Nat) (k : Nat → Out) (h : inHand s va acc pa) : translate s va acc k = k pa := by
  obtain ⟨hva, e, hfind, hent⟩ := h
  unfold translate
  simp only [Nat.not_le.mpr hva, if_false, hfind, hent]

theorem remoteCheck_go (s : State) (r : Nat) (k : Nat → Nat → Out) (h : remoteOk s r) :
    remoteCheck s r k = k (r / 2 ^ 24 % 4096) (r % 2 ^ 21) := by
  obtain ⟨hzero, hhigh, hharv, halign, hbox, hfit⟩ := h
  unfold remoteCheck
  rw [guardT_go _ _ _ _ (by rw [hzero, hhigh, hharv]; rfl), guardT_go _ _ _ _ (by simpa using halign),
    guardT_go _ _ _ _ hbox, guardT_go _ _ _ _ (by simpa using hfit)]

theorem globalStore_go {s : State} {pa : Nat} {bs : List (Nat × Byte)} {u : State} (k : State → Out)
    (h : buffered s pa bs u) : globalStore s pa bs k = k u := by
  obtain ⟨c, hc, rfl⟩ := h
  simp only [globalStore, hc]

theorem freeTok_free (s : State) (k : BitVec 3) (o : Out) (h : tokFree s k) : freeTok s k.toNat o = o :=
  freeTok_go s k.toNat o h

/-- A word that acts at the home of its line: the line is pushed, and the request sent. -/
theorem homeWord_go (s : State) (srcs : List Src) (t : Ty) (va acc pa : Nat) (k : BitVec 3) (op : HomeOp)
    (hkind : s.c.kind = .elastic) (htok : tokFree s k) (hal : va % tySize t = 0) (hxl : inHand s va acc pa) :
    homeWord s srcs t va acc k op =
      .next (((srcs.foldl State.seen s).pushLine s.here (pa / 128)).request k va pa op) := by
  rw [homeWord, elastic_go _ _ hkind, freeTok_free _ _ _ htok, guardT_go _ _ _ _ (by simpa using hal),
    translate_go _ _ _ _ _ hxl]
  rfl

theorem updWord_go (s : State) (srcs : List Src) (op : UpdOp) (t : Ty) (va pa v : Nat) (hkind : s.c.kind = .elastic)
    (hal : va % tySize t = 0) (hxl : inHand s va accUpd pa) :
    updWord s srcs op t va v = .next ((srcs.foldl State.seen s).update op t pa v) := by
  rw [updWord, elastic_go _ _ hkind, guardT_go _ _ _ _ (by simpa using hal), translate_go _ _ _ _ _ hxl]
  rfl

/-- A vector source that can be read is read. -/
theorem withV_readable (s : State) (o : VOp) (pos : Nat) (m : Lane) (k : List Vec → Out) (h : readable s o pos m) :
    withV s [s.vnum o pos] none k = k [s.c.readV (s.vnum o pos)] := by
  obtain ⟨-, hread, hpoison, -⟩ := h
  exact withV_go s _ none k (by simp [hread, hpoison]) (by simp)

/-- A vector destination that takes a result now. -/
theorem withV_writable (s : State) (o : VOp) (k : List Vec → Out) (h : writable s o) :
    withV s [] (some (s.vnum o 0)) k = k [] :=
  withV_go s [] _ k (by simp) (by rintro _ ⟨⟩; exact h.2)

theorem vcheck_one (s : State) (o : VOp) (pos : Nat) (k : Out) (h : s.c.inWindow (s.vidx o pos) = true) :
    vcheck s [(o, pos)] k = k := vcheck_go s _ k (by simpa using h)

/-! #### Scratchpad words (R292, R314, R316) -/

/-- Settles O15: the address is checked, then what a load reads or a store's operand, and the word completes. -/
theorem scratchpadWords : Obligations.ScratchpadWords := by
  intro s
  refine ⟨fun t d a off _ hal hfit hclean => ?ld, fun t a b off _ hal hfit => ?st,
    fun d a msk off hd hal hfit hclean hflags => ?ldv, fun a b msk off hb hal hfit => ?stv⟩
  case ld =>
    refine (localCheck_go s _ _ _ _ hal hfit).trans (guardT_go _ _ _ _ ?_)
    rw [addr_eq_addrS, hclean]
    rfl
  case st => exact localCheck_go s _ _ _ _ hal hfit
  case ldv =>
    have hgood : (!(List.range 32).any fun i => (s.lanes msk).getLsbD i && s.c.spBad (addrV s a off + 4 * i) 4) = true := by
      simpa using hclean
    simp only [exec, execLdv, addr_eq_addrV]
    rw [vcheck_one s d 0 _ hd.1, localCheck_go s _ _ _ _ hal hfit, guardT_go _ _ _ _ hgood, withV_writable s d _ hd]
    exact fpCheck_go s _ _ hflags
  case stv =>
    simp only [exec, execStv, addr_eq_addrV]
    rw [vcheck_one s b 2 _ hb.1, localCheck_go s _ _ _ _ hal hfit, withV_readable s b 2 _ _ hb,
      fpCheck_go s _ _ hb.2.2.2]
    rfl

/-! #### Global and remote words (R298 to R301, R314 to R321) -/

/-- Settles O17: in an elastic phase, the token, the address and the translation pass, and the request leaves. -/
theorem homeWords : Obligations.HomeWords := by
  intro s k pa hkind htok
  refine ⟨fun t d a off hal hxl => ?ldg, fun d a msk off hd hal hxl => ?ldgv, fun t d a off hal hxl => ?ldrm,
    fun t a b off hal hxl => ?strm, fun op t d a b off hal hxl => ?atom, fun t d a b c hal hxl => ?cas⟩
  case ldg =>
    simp only [exec, execLdg, addr_eq_addrS]
    rw [elastic_go _ _ hkind, freeTok_free _ _ _ htok, guardT_go _ _ _ _ (by simpa using hal), translate_go _ _ _ _ _ hxl]
    rfl
  case ldgv =>
    simp only [exec, execLdgv, addr_eq_addrG]
    rw [elastic_go _ _ hkind, vcheck_one s d 0 _ hd.1, freeTok_free _ _ _ htok, guardT_go _ _ _ _ (by simpa using hal),
      translate_go _ _ _ _ _ hxl, withV_writable s d _ hd]
    rfl
  case ldrm => exact homeWord_go s [a] t _ _ pa k _ hkind htok hal hxl
  case strm => exact homeWord_go s [a, b] t _ _ pa k _ hkind htok hal hxl
  case atom => exact homeWord_go s [a, b] t _ _ pa k _ hkind htok hal hxl
  case cas =>
    rw [← addr_zero] at hal hxl ⊢
    exact homeWord_go s [a, b, c] t _ _ pa k _ hkind htok hal hxl

/-- Settles O18: a store enters the write-set, an update the update buffer, and a remote access leaves in class 0. -/
theorem bufferedAndRemoteWords : Obligations.BufferedAndRemoteWords := by
  refine ⟨fun s pa hkind => ⟨fun t a b off u hal hxl hbuf => ?stg, fun a b msk off u hb hal hxl hm hbuf => ?stgv,
    fun a b msk off hb hal hxl hm => ?stgvNone, fun op t a b off hal hxl => ?upd, fun a b off hal hxl => ?updf⟩,
    fun s k hkind htok => ⟨fun d a msk off hd hok => ?ldx, fun a b msk off hb hok => ?stx⟩⟩
  case stg =>
    simp only [exec, execStg, addr_eq_addrS]
    rw [elastic_go _ _ hkind, guardT_go _ _ _ _ (by simpa using hal), translate_go _ _ _ _ _ hxl, globalStore_go _ hbuf]
    rfl
  case stgv =>
    simp only [exec, execStgv, addr_eq_addrG]
    rw [elastic_go _ _ hkind, vcheck_one s b 2 _ hb.1, guardT_go _ _ _ _ (by simpa using hal), translate_go _ _ _ _ _ hxl,
      withV_readable s b 2 _ _ hb, fpCheck_go s _ _ hb.2.2.2, if_neg hm]
    exact globalStore_go _ hbuf
  case stgvNone =>
    simp only [exec, execStgv, addr_eq_addrG]
    rw [elastic_go _ _ hkind, vcheck_one s b 2 _ hb.1, guardT_go _ _ _ _ (by simpa using hal), translate_go _ _ _ _ _ hxl,
      withV_readable s b 2 _ _ hb, fpCheck_go s _ _ hb.2.2.2, if_pos hm]
    rfl
  case upd => exact updWord_go s [a, b] op t _ pa _ hkind hal hxl
  case updf => exact updWord_go s [a, b] .fadd .f32 _ pa _ hkind hal hxl
  case ldx =>
    simp only [exec, execLdx, addr_eq_addrV]
    rw [elastic_go _ _ hkind, vcheck_one s d 0 _ hd.1, freeTok_free _ _ _ htok, remoteCheck_go _ _ _ hok,
      withV_writable s d _ hd]
    rfl
  case stx =>
    simp only [exec, execStx, addr_eq_addrV]
    rw [elastic_go _ _ hkind, vcheck_one s b 2 _ hb.1, freeTok_free _ _ _ htok, remoteCheck_go _ _ _ hok,
      withV_readable s b 2 _ _ hb, fpCheck_go s _ _ hb.2.2.2]
    rfl

end Sys2Proof.Machine

/-! ### Transfers and the traps of words (R125, R135, R142, R143, R314, R450) -/

namespace Sys2Proof.Machine

open Claim

/-! #### Transfers of a strand's own stream -/

theorem noCapture_noRep (s : State) (k : Out) (h : noRep s) : noCapture s k = k :=
  noCapture_go s k (by rw [h])

theorem pcNow_of_ent {s : State} {e : QEnt} (h : s.cur.ent = some e) : s.pcNow = e.pc := by
  simp [State.pcNow, h]

/-- A target that may be fetched passes the check of a transfer (R143). -/
theorem target_ok {s : State} {e : QEnt} {tgt : Nat} (hent : s.cur.ent = some e) (hcode : inCode s e tgt) :
    (((tgt : Int) == (s.pcNow : Int) + 1) || (decide (0 ≤ (tgt : Int)) && decide ((tgt : Int) < (s.c.words : Int)))) = true := by
  rw [pcNow_of_ent hent]
  simp only [Bool.or_eq_true, beq_iff_eq, Bool.and_eq_true, decide_eq_true_eq]
  rcases hcode with h | h <;> omega

/-- Where a strand's own word goes. -/
theorem goTo_own (s : State) (e : QEnt) (det : Bool) (tgt : Nat) (h : e.fwd = false) : s.goTo e det tgt = jumped s e tgt := by
  simp only [State.goTo, h, Bool.false_eq_true, if_false]
  rfl

/-- A transfer of the strand's own stream goes to its target. -/
theorem transfer_own {s : State} {e : QEnt} {tgt : Nat} (det : Bool) (w : State → State) (he : ownWord s e) (hrep : noRep s)
    (hcode : inCode s e tgt) : transfer s det tgt w = .next (w (jumped s e tgt)) := by
  obtain ⟨hent, hfwd, htrap⟩ := he
  have hgo : (jumped s e tgt).cur.trapped = false := htrap
  unfold transfer
  rw [noCapture_noRep _ _ hrep, guardT_go _ _ _ _ (target_ok hent hcode), hent]
  simp [goTo_own s e det tgt hfwd, hgo]

/-- A target outside the code is refused (R143). -/
theorem transfer_outside {s : State} {e : QEnt} {tgt : Int} (det : Bool) (w : State → State) (hent : s.cur.ent = some e)
    (hrep : noRep s) (hnext : tgt ≠ e.pc + 1) (hout : tgt < 0 ∨ (s.c.words : Int) ≤ tgt) :
    transfer s det tgt w = .next (s.trapWord 0x02) := by
  unfold transfer
  rw [noCapture_noRep _ _ hrep, guardT_stop _ _ _ _ ?_]
  · rfl
  · rw [pcNow_of_ent hent]
    simp only [Bool.or_eq_false_iff, beq_eq_false_iff_ne, Bool.and_eq_false_iff, decide_eq_false_iff_not]
    exact ⟨hnext, by omega⟩

/-- The operand of a loop: its counter reaches 0 where it is 1. -/
theorem sub_one_eq_zero_iff (x : Word) : x - 1 = 0 ↔ x = 1 := by
  constructor <;> intro h <;> bv_omega

/-- Each transfer is the common one, to its target. -/
theorem exec_eq_transfer {s : State} {e : QEnt} {i : Instr} {tgt : Int} (hent : s.cur.ent = some e)
    (h : targetOf s e i = some tgt) : ∃ det w, transferDet i = some det ∧ exec i s = transfer s det tgt w ∧
      ∀ u : State, ∃ l, (w u).c = { u.c with pend := l } := by
  have hpc := pcNow_of_ent hent
  have hput (n : Nat) (d : BitVec 6) (v : Word) (u : State) : ∃ l, (u.putS n d v).c = { u.c with pend := l } :=
    ⟨_, by rw [State.putS, State.c_result]; rfl⟩
  cases i
  all_goals cases h
  case br det off => exact ⟨det, id, rfl, by simp only [exec, execBr, hpc], fun u => ⟨u.c.pend, rfl⟩⟩
  case call det d off => exact ⟨det, fun u => u.putS 1 d (BitVec.ofNat 64 (e.pc + 1)), rfl, by simp only [exec, execCall, hpc], hput 1 d _⟩
  case ret det a => exact ⟨det, id, rfl, rfl, fun u => ⟨u.c.pend, rfl⟩⟩
  case jmpi det a off => exact ⟨det, id, rfl, rfl, fun u => ⟨u.c.pend, rfl⟩⟩
  case loop det d off => 
    exact ⟨det, fun u => u.putS 1 d (s.sreg d - 1), rfl, by simp only [exec, execLoop, hpc, sub_one_eq_zero_iff], hput 1 d _⟩

/-! #### Transfers of a follower (R125) -/

theorem goTo_diverges (s : State) (e : QEnt) (tgt : Nat) (hfwd : e.fwd = true) (hout : e.outcome ≠ some tgt) :
    s.goTo e false tgt = (outcomeIs s tgt).trapWord 0x07 := by
  simp [State.goTo, hfwd, hout, outcomeIs, cFollowDiverge]

theorem goTo_leaves (s : State) (e : QEnt) (tgt : Nat) (hfwd : e.fwd = true) (hout : e.outcome ≠ some tgt) :
    s.goTo e true tgt = (outcomeIs s tgt).updC fun c => c.leaveLeader e.seq tgt s.T := by
  simp only [State.goTo, hfwd, if_true, beq_iff_eq, if_neg hout]
  rfl

/-! #### The obligations -/

theorem scratchWord_traps (s : State) (t : Ty) (d : BitVec 6) (a b : Src) (off : BitVec 18) :
    (addrS s a off % tySize t ≠ 0 →
      exec (.ld t d a off) s = .next (s.trapWord 0x0B) ∧ exec (.st t a b off) s = .next (s.trapWord 0x0B)) ∧
    (addrS s a off % tySize t = 0 → s.c.share < addrS s a off + tySize t →
      exec (.ld t d a off) s = .next (s.trapWord 0x0C) ∧ exec (.st t a b off) s = .next (s.trapWord 0x0C)) :=
  ⟨fun h => ⟨localCheck_unaligned s _ _ _ _ h, localCheck_unaligned s _ _ _ _ h⟩,
    fun h hout => ⟨localCheck_outside s _ _ _ _ h hout, localCheck_outside s _ _ _ _ h hout⟩⟩

theorem ldv_eq (s : State) (d : VOp) (a : Src) (msk : Mask) (off : BitVec 14) (hd : s.c.inWindow (s.vidx d 0) = true) :
    ∃ k, exec (.ldv d a msk off) s = localCheck s (addrV s a off) 128 16 k := by
  simp only [exec, execLdv, addr_eq_addrV, vcheck_one s d 0 _ hd]
  exact ⟨_, rfl⟩

theorem stv_eq (s : State) (a : Src) (b : VOp) (msk : Mask) (off : BitVec 14) (hb : s.c.inWindow (s.vidx b 2) = true) :
    ∃ k, exec (.stv a b msk off) s = localCheck s (addrV s a off) 128 16 k := by
  simp only [exec, execStv, addr_eq_addrV, vcheck_one s b 2 _ hb]
  exact ⟨_, rfl⟩

/-- Settles O16: the address checks come before all else but the window, and a transfer checks its target and outcome. -/
theorem wordTraps : Obligations.WordTraps := by
  refine ⟨fun s t _ d a b off => scratchWord_traps s t d a b off, fun s a msk off => ⟨fun d hd => ?ldv, fun b hb => ?stv⟩,
    fun s e i tgt hent hrep htgt hnext hout => ?outside, fun s e i tgt hent htrap hrep htgt hcode hfwd hout => ?follower⟩
  case ldv =>
    obtain ⟨k, hk⟩ := ldv_eq s d a msk off hd
    exact ⟨fun h => hk.trans (localCheck_unaligned s k _ _ _ h), fun h hout => hk.trans (localCheck_outside s k _ _ _ h hout)⟩
  case stv =>
    obtain ⟨k, hk⟩ := stv_eq s a b msk off hb
    exact ⟨fun h => hk.trans (localCheck_unaligned s k _ _ _ h), fun h hout => hk.trans (localCheck_outside s k _ _ _ h hout)⟩
  case outside =>
    obtain ⟨det, w, -, hexec, -⟩ := exec_eq_transfer hent htgt
    rw [hexec, transfer_outside det w hent hrep hnext hout]
  case follower =>
    obtain ⟨det, w, hdet, hexec, hw⟩ := exec_eq_transfer hent htgt
    have hgo : exec i s = if (s.goTo e det tgt).cur.trapped then .next (s.goTo e det tgt) else .next (w (s.goTo e det tgt)) := by
      rw [hexec, transfer, noCapture_noRep _ _ hrep, guardT_go _ _ _ _ (target_ok hent hcode), hent]
      rfl
    rw [hgo, hdet]
    refine ⟨?_, ?_⟩ <;> rintro ⟨⟩
    · rw [goTo_diverges s e tgt hfwd hout]
      exact if_pos rfl
    · rw [goTo_leaves s e tgt hfwd hout, if_neg (by simp [outcomeIs, htrap])]
      obtain ⟨l, hl⟩ := hw ((outcomeIs s tgt).updC fun c => c.leaveLeader e.seq tgt s.T)
      refine ⟨_, rfl, ?_⟩
      rw [hl, State.c_updC]
      exact ⟨rfl, rfl, rfl⟩

/-- Settles O20: a transfer of the strand's own stream passes its checks; the decoder resolves as its rule says. -/
theorem transfers : Obligations.Transfers := by
  refine ⟨fun s e tgt he hrep hcode => ?words, fun c pc tgt n => ⟨fun h => ?taken, ?untaken⟩⟩
  case words =>
    have hpc := pcNow_of_ent he.1
    refine ⟨fun det off h => ?br, fun det d off h => ?call, fun det a h => ?ret, fun det a off h => ?jmpi,
      fun det d off hd h => ?loop, fun det d off hd h => ?last⟩
    case br => simp only [exec, execBr, hpc, h, transfer_own det id he hrep hcode, id]
    case call => simp only [exec, execCall, hpc, h, transfer_own det _ he hrep hcode]
    case ret => simp only [exec, execRet, h, transfer_own det id he hrep hcode, id]
    case jmpi => simp only [exec, execJmpi, h, transfer_own det id he hrep hcode, id]
    case loop => simp only [exec, execLoop, hpc, sub_one_eq_zero_iff, if_neg hd, h, transfer_own det _ he hrep hcode]
    case last =>
      have htgt : (e.pc : Int) + 1 = (tgt : Int) := by omega
      have hcount : s.sreg d - 1 = 0 := (sub_one_eq_zero_iff _).mpr hd
      simp only [exec, execLoop, hpc, hcount, htgt, transfer_own det _ he hrep hcode, if_true]
  case taken => simp [Ctx.resolve, h]
  case untaken => simp [Ctx.resolve]

end Sys2Proof.Machine

/-! ### nop, trap, join and halt (R140, R157, R450 to R453, R471) -/

namespace Sys2Proof.Machine

open Claim

/-! #### The word's own place -/

/-- A bank that belongs to a partition holds the strand of its place. -/
theorem State.inFg_here {s : State} (h : s.c.part.isSome) : s.inFg s.here = true := by
  obtain ⟨p, hp⟩ := Option.isSome_iff_exists.mp h
  have hfg : (s.core s.me).fg.part = some p := hp
  simp [State.inFg, State.here_of_part s p hp, hfg]

theorem State.ctx_here {s : State} (h : s.c.part.isSome) : s.ctx s.here = s.c := s.ctx_of_inFg s.here (State.inFg_here h)

/-- A change of the strand at its place is a change of the strand. -/
theorem State.updCtx_here {s : State} (f : Ctx → Ctx) (h : s.c.part.isSome) : s.updCtx s.here f = s.updC f := by
  rw [State.updCtx, State.setCtx, if_pos (State.inFg_here h), State.ctx_here h]
  rfl

theorem State.here_updC (s : State) (f : Ctx → Ctx) (h : (f s.c).part = s.c.part) : (s.updC f).here = s.here := by
  rw [State.here, State.c_updC, h]
  rfl

/-! #### trap -/

/-- What taking a trap of a strand in its place does (R446, R447): its record is listed and its partition halts 24 ticks on. -/
theorem State.raiseTrap_here (s : State) (r : StopRec) (hpart : s.c.part.isSome) (hrun : s.c.frozen = none)
    (hact : (s.part s.here.part).st = .active) :
    let t := s.raiseTrap s.here r
    t.c = { s.c with stops := s.c.stops ++ [r] } ∧ t.me = s.me ∧ t.mem = s.mem ∧ t.tick = s.tick ∧
      (t.part s.here.part).st = .halting ∧ (t.part s.here.part).haltAt = s.tick + 24 ∧
      t.agenda = insEv (s.tick + 24) (.haltDelivery s.here.part) s.agenda := by
  intro t
  have ht : t = (s.listStop s.here r).raiseHalt s.here.part (s.tick, s.here.tile, r.kind, r.code) :=
    s.raiseTrap_of_unfrozen s.here r (by rw [State.ctx_here hpart]; exact hrun)
  have hlist : s.listStop s.here r = s.updC fun c => { c with stops := c.stops ++ [r] } := State.updCtx_here _ hpart
  have hframe := framed_raiseHalt (s.listStop s.here r) s.here.part (s.tick, s.here.tile, r.kind, r.code)
  obtain ⟨htick, hmem, hcores, -, hst, hat, hagenda⟩ := (s.listStop s.here r).raiseHalt_active s.here.part
    (s.tick, s.here.tile, r.kind, r.code) (by rw [hlist]; exact hact)
  rw [← ht] at hframe htick hmem hcores hst hat hagenda
  rw [hlist] at hframe htick hmem hcores hat hagenda
  refine ⟨?_, hframe.me, hmem, htick, hst, hat, hagenda⟩
  rw [State.c, State.core, hframe.me, hcores]
  exact State.c_updC s _

theorem trap_completes (s : State) (code : BitVec 18) (hact : (s.part s.here.part).st = .active) (hpart : s.c.part.isSome)
    (hrun : s.c.frozen = none) :
    ∃ t r, exec (.trap code) s = .next t ∧ t.c.stopped = true ∧ t.c.stops = s.c.stops ++ [r] ∧ r.code = 0x0D ∧
      r.prec = true ∧ r.detail = code.toNat ∧ r.pc = s.pcNow % 2 ^ 14 ∧ (t.part s.here.part).st = .halting ∧
      (t.part s.here.part).haltAt = s.tick + 24 ∧ (s.tick + 24, .haltDelivery s.here.part) ∈ t.agenda ∧ t.mem = s.mem := by
  let u := s.updC fun c => { c with stopped := true }
  have hu : u.c = { s.c with stopped := true } := s.c_updC _
  have hhere : u.here = s.here := State.here_updC s _ rfl
  obtain ⟨hc, -, hmem, -, hst, hat, hagenda⟩ := u.raiseTrap_here
    (s.mkStop s.here 0 0x0D true s.pcNow s.bitsNow code.toNat 0) (by rw [hu]; exact hpart) (by rw [hu]; exact hrun)
    (by rw [hhere]; exact hact)
  rw [hhere] at hc hmem hst hat hagenda
  refine ⟨u.raiseTrap s.here _, s.mkStop s.here 0 0x0D true s.pcNow s.bitsNow code.toNat 0, ?_, ?_, ?_, rfl, rfl, rfl, rfl,
    hst, hat, ?_, hmem⟩
  · exact congrArg (fun l => Host.Outcome.next (u.raiseTrap l _)) hhere
  · rw [hc, hu]
  · rw [hc, hu]
  · rw [hagenda]
    exact (mem_insEv _ _ _ _).mpr (.inl rfl)

/-! #### join and halt -/

/-- A join of no cell goes on at the next word and tells the followers (R157). -/
theorem joinNop_own {s : State} {e : QEnt} (he : ownWord s e) :
    s.joinNop e = (jumped s e (e.pc + 1)).tellJoin s.here true := by
  simp only [State.joinNop, he.2.1, Bool.false_eq_true, if_false, goTo_own s e false _ he.2.1]

theorem join_none_completes {s : State} {e : QEnt} {a : BitVec 6} (he : ownWord s e) (hkind : s.c.kind = .elastic)
    (hui : noUi s) (hrep : noRep s) (hno : (s.sreg a).toNat % 65536 = 0xFFFF) :
    exec (.join a) s = .next ((jumped s e (e.pc + 1)).tellJoin s.here true) := by
  simp only [exec, execJoin]
  rw [elastic_go _ _ hkind, noHandler_go _ _ hui, noCapture_noRep _ _ hrep, if_pos hno, he.1]
  simp only [joinNop_own he]
  rfl

/-- Without followers nobody is told. -/
theorem tellJoin_nobody (s : State) (l : Loc) (cont : Bool) (h : s.followers l.tile l.part = []) : s.tellJoin l cont = s := by
  unfold State.tellJoin
  rw [h]
  split <;> rfl

/-- A change of the strand in the foreground, seen at any tile. -/
theorem State.core_updC (s : State) (f : Ctx → Ctx) (n : Nat) :
    (s.updC f).core n = if n = s.me then { s.core s.me with fg := f s.c } else s.core n := by
  split
  next h => rw [h]; exact s.core_setCore_same _ _
  next h => exact s.core_updC_other f n h

/-- Who follows a strand depends on no change that keeps what every strand follows and belongs to. -/
theorem followers_updC (s : State) (f : Ctx → Ctx) (t p : Nat) (hpart : (f s.c).part = s.c.part)
    (hfol : (f s.c).fol = s.c.fol) (hlive : (f s.c).live = s.c.live) (hregion : (f s.c).region = s.c.region) :
    (s.updC f).followers t p = s.followers t p := by
  have hfg (n : Nat) : ((s.updC f).core n).fg.part = (s.core n).fg.part ∧ ((s.updC f).core n).fg.fol = (s.core n).fg.fol ∧
      ((s.updC f).core n).fg.live = (s.core n).fg.live ∧ ((s.updC f).core n).fg.region = (s.core n).fg.region ∧
      ((s.updC f).core n).bg = (s.core n).bg ∧ ((s.updC f).core n).spill = (s.core n).spill := by
    rw [s.core_updC f n]
    split
    next h => subst h; exact ⟨hpart, hfol, hlive, hregion, rfl, rfl⟩
    next => exact ⟨rfl, rfl, rfl, rfl, rfl, rfl⟩
  have hctx (l : Loc) : ((s.updC f).ctx l).region = (s.ctx l).region := by
    obtain ⟨h1, -, -, h4, h5, h6⟩ := hfg l.tile
    have hin : (s.updC f).inFg l = s.inFg l := by rw [State.inFg, h1, State.inFg]
    have hspill : (s.updC f).spilled l = s.spilled l := by rw [State.spilled, h6, State.spilled]
    rw [State.ctx, hin, h5, hspill, State.ctx]
    by_cases hfg : s.inFg l = true
    · rw [if_pos hfg, if_pos hfg, h4]
    · rw [if_neg hfg, if_neg hfg]
  unfold State.followers
  simp only [fun n => (hfg n).1, fun n => (hfg n).2.1, fun n => (hfg n).2.2.1, fun n => (hfg n).2.2.2.1, hctx]

theorem followers_jumped (s : State) (e : QEnt) (tgt t p : Nat) : (jumped s e tgt).followers t p = s.followers t p := by
  have hres (c : Ctx) (n : Nat) : (c.resolve e.pc tgt n).part = c.part ∧ (c.resolve e.pc tgt n).fol = c.fol ∧
      (c.resolve e.pc tgt n).live = c.live ∧ (c.resolve e.pc tgt n).region = c.region := by
    unfold Ctx.resolve
    split <;> exact ⟨rfl, rfl, rfl, rfl⟩
  obtain ⟨hpart, hfol, hlive, hregion⟩ := hres s.c s.T
  exact followers_updC { s with cur := { s.cur with outcome := some tgt } } _ t p hpart hfol hlive hregion

theorem join_cell_completes {s : State} {e : QEnt} {a : BitVec 6} (he : ownWord s e) (hkind : s.c.kind = .elastic)
    (hui : noUi s) (hrep : noRep s) {h : Nat} {c : Cell} (hh : (s.sreg a).toNat % 65536 = h) (hno : h ≠ 0xFFFF)
    (hcell : Tbl.find s.cells h = some c) (hregion : c.region = s.c.region) :
    exec (.join a) s = .next (((s.updC fun c => { c with fol := { c.fol with join := some (e, some h, none) } }).blockIn
      (.leave (some h) 0 0 s.pcNow)).leaveStep s.here) := by
  simp only [exec, execJoin]
  rw [elastic_go _ _ hkind, noHandler_go _ _ hui, noCapture_noRep _ _ hrep, hh, if_neg hno, guardT_go _ _ _ _ (by simp [hcell, hregion]), he.1]
  rfl

/-! #### The obligation -/

/-- Settles O21: nop and trap check nothing; join and halt pass their checks, and the strand goes on or is on its way out. -/
theorem nopTrapJoinHalt : Obligations.NopTrapJoinHalt := by
  refine ⟨fun s => ⟨rfl, trap_completes s⟩, fun s hui => ⟨fun e a he hkind hrep => ⟨fun hno => ?none, ?cell⟩, ?halt⟩⟩
  case none =>
    have hjoin := join_none_completes he hkind hui hrep hno
    refine ⟨hjoin, fun hnobody => hjoin.trans (congrArg Host.Outcome.next (tellJoin_nobody _ _ _ ?_))⟩
    rw [followers_jumped]
    exact hnobody
  case cell => exact fun h c hh hno hcell hregion => join_cell_completes he hkind hui hrep hh hno hcell hregion
  case halt => exact noHandler_go _ _ hui

end Sys2Proof.Machine

/-! ### Words that wait: sleep and waitt (R146, R200) -/

namespace Sys2Proof.Machine

open Claim

/-! #### Putting events on the agenda -/

/-- The second state is the first with more events on its agenda. -/
def MoreEvents (s t : State) : Prop := ∃ ag, t = { s with agenda := ag } ∧ s.agenda ⊆ ag

theorem MoreEvents.refl (s : State) : MoreEvents s s := ⟨s.agenda, rfl, List.Subset.refl _⟩

theorem MoreEvents.trans {s t u : State} (h₁ : MoreEvents s t) (h₂ : MoreEvents t u) : MoreEvents s u := by
  obtain ⟨a, rfl, ha⟩ := h₁
  obtain ⟨b, rfl, hb⟩ := h₂
  exact ⟨b, rfl, List.Subset.trans ha hb⟩

theorem MoreEvents.sched (s : State) (n : Nat) (ev : Ev) : MoreEvents s (s.sched n ev) :=
  ⟨_, rfl, fun x hx => s.mem_sched_of_mem n ev x hx⟩

theorem MoreEvents.schedAt (s : State) (l : Loc) (n : Nat) (ev : Ev) : MoreEvents s (s.schedAt l n ev) :=
  MoreEvents.sched s _ _

theorem MoreEvents.foldl {α : Type} {f : State → α → State} (hf : ∀ s x, MoreEvents s (f s x)) :
    ∀ (xs : List α) (s : State), MoreEvents s (xs.foldl f s)
  | [], s => MoreEvents.refl s
  | x :: xs, s => (hf s x).trans (MoreEvents.foldl hf xs _)

/-- What a step of the loop schedules stays on the agenda, and it is the same event as from the start: the agenda alone
differs. -/
theorem MoreEvents.mem_foldl {α : Type} {f : State → α → State} (hf : ∀ s x, MoreEvents s (f s x)) {s : State} {xs : List α}
    {x : α} {ev : Nat × Ev} (hx : x ∈ xs) (hev : ∀ t, MoreEvents s t → ev ∈ (f t x).agenda) :
    ev ∈ (xs.foldl f s).agenda := by
  obtain ⟨as, bs, rfl⟩ := List.append_of_mem hx
  obtain ⟨ag, hag, hsub⟩ := MoreEvents.foldl hf bs (f (as.foldl f s) x)
  rw [List.foldl_append, List.foldl_cons, hag]
  exact hsub (hev _ (MoreEvents.foldl hf as s))

/-- Events on the agenda leave the strand at hand and its word as they are. -/
theorem MoreEvents.same {s t : State} (h : MoreEvents s t) :
    t.c = s.c ∧ t.here = s.here ∧ t.tick = s.tick ∧ t.mem = s.mem ∧ t.pcNow = s.pcNow ∧ t.seqNow = s.seqNow := by
  obtain ⟨ag, rfl, -⟩ := h
  exact ⟨rfl, rfl, rfl, rfl, rfl, rfl⟩

/-! #### Blocking a strand -/

/-- With no delivery begun, blocking a strand is all that `blockIn` does. -/
theorem State.blockIn_quiet {s : State} (b : Block) (h : s.c.ui.going = none) :
    s.blockIn b = s.updC fun c => { c with block := b, blockSeq := s.seqNow } := by
  rw [State.blockIn, if_neg]
  rw [State.c_updC, h]
  exact Bool.false_ne_true

/-- A source's read latches tm.now's fraction at most. -/
theorem State.c_seen (s : State) (a : Src) : (s.seen a).c = { s.c with tmfrac := (s.seen a).c.tmfrac } := by
  unfold State.seen
  split
  · rw [State.c_updC]
  · rfl
  · rfl

theorem State.seen_frame (s : State) (a : Src) :
    (s.seen a).tick = s.tick ∧ (s.seen a).me = s.me ∧ (s.seen a).cur = s.cur ∧ (s.seen a).agenda = s.agenda := by
  unfold State.seen
  split <;> exact ⟨rfl, rfl, rfl, rfl⟩

theorem State.here_seen (s : State) (a : Src) : (s.seen a).here = s.here := by
  unfold State.seen
  split
  · exact State.here_updC s _ rfl
  · rfl
  · rfl

/-! #### sleep -/

/-- What sleep schedules for a token: a wake at the tick at which its completion is known. -/
def State.wakeFor (mask : BitVec 10) (s : State) (i : Nat) : State :=
  match s.c.tok i with
  | .done x => if mask.getLsbD i then s.schedAt s.here x (.sleepWake s.here) else s
  | .unbound | .pending => s

theorem moreEvents_wakeFor (mask : BitVec 10) (s : State) (i : Nat) : MoreEvents s (s.wakeFor mask i) := by
  unfold State.wakeFor
  split
  · split
    · exact MoreEvents.schedAt _ _ _ _
    · exact MoreEvents.refl s
  · exact MoreEvents.refl s
  · exact MoreEvents.refl s

theorem mem_wakeFor {mask : BitVec 10} {s : State} {i x : Nat} (hpart : s.c.part.isSome) (hmask : mask.getLsbD i = true)
    (htok : s.c.tok i = .done x) : (s.tick + (x - s.T), .sleepWake s.here) ∈ (s.wakeFor mask i).agenda := by
  simp only [State.wakeFor, htok, hmask, if_true, State.schedAt, State.ctx_here hpart]
  exact s.mem_sched _ _ (Nat.le_add_right _ _)

theorem execSleep_blocks {s : State} {mask : BitVec 10} (hkind : s.c.kind = .elastic) (hui : noUi s)
    (hawake : s.c.sleepHolds mask s.T = false) :
    let u := (List.range 8).foldl (State.wakeFor mask) s
    exec (.sleep mask) s = .next ((u.blockIn (.sleep mask u.pcNow)).sched u.tick (.sleepWake u.here)) := by
  intro u
  simp only [exec, execSleep]
  rw [elastic_go _ _ hkind, noHandler_go _ _ hui, if_neg (by rw [hawake]; exact Bool.false_ne_true)]
  rfl

theorem sleep_blocks {s : State} {mask : BitVec 10} (hkind : s.c.kind = .elastic) (hui : noUi s)
    (hawake : s.c.sleepHolds mask s.T = false) (hgoing : s.c.ui.going = none) :
    ∃ t : State, exec (.sleep mask) s = .next t ∧ t.c.block = .sleep mask s.pcNow ∧ t.c.pend = s.c.pend ∧ t.mem = s.mem ∧
      (s.tick, .sleepWake s.here) ∈ t.agenda ∧
      ∀ i x, s.c.part.isSome → i < 8 → mask.getLsbD i = true → s.c.tok i = .done x →
        (s.tick + (x - s.T), .sleepWake s.here) ∈ t.agenda := by
  have hexec := execSleep_blocks hkind hui hawake
  have hmore := MoreEvents.foldl (moreEvents_wakeFor mask) (List.range 8) s
  have hwake (i x : Nat) (hpart : s.c.part.isSome) (hi : i < 8) (hmask : mask.getLsbD i = true) (htok : s.c.tok i = .done x) :
      (s.tick + (x - s.T), .sleepWake s.here) ∈ ((List.range 8).foldl (State.wakeFor mask) s).agenda := by
    refine MoreEvents.mem_foldl (moreEvents_wakeFor mask) (List.mem_range.mpr hi) ?_
    rintro t ⟨ag', rfl, -⟩
    exact mem_wakeFor (s := { s with agenda := ag' }) hpart hmask htok
  generalize (List.range 8).foldl (State.wakeFor mask) s = u at hexec hmore hwake
  obtain ⟨hc, hhere, htick, hmem, hpc, -⟩ := hmore.same
  let b := u.updC fun c => { c with block := .sleep mask s.pcNow, blockSeq := u.seqNow }
  have hb : b.c = { s.c with block := .sleep mask s.pcNow, blockSeq := u.seqNow } := by rw [State.c_updC, hc]
  refine ⟨b.sched s.tick (.sleepWake s.here), ?_, congrArg Ctx.block hb, (congrArg Ctx.pend hb :), hmem,
    State.mem_sched _ _ _ (Nat.le_of_eq htick), fun i x hpart hi hmask htok =>
      State.mem_sched_of_mem _ _ _ _ (hwake i x hpart hi hmask htok)⟩
  rw [hexec, State.blockIn_quiet _ (by rw [hc]; exact hgoing), hhere, htick, hpc]

theorem sleep_ends {s : State} {mask : BitVec 10} (hkind : s.c.kind = .elastic) (hui : noUi s)
    (hhold : s.c.sleepHolds mask s.T = true) : exec (.sleep mask) s = .next (s.updC (·.sleepSeen mask)) := by
  simp only [exec, execSleep]
  rw [elastic_go _ _ hkind, noHandler_go _ _ hui, if_pos hhold]
  rfl

/-! #### waitt -/

theorem Ctx.tok_setTok_pending (c : Ctx) (n : Nat) : (c.setTok n .pending).tok n = .pending :=
  Tbl.get_set_same_ne _ _ _ _ (by decide)

theorem Ctx.tok_bind (c : Ctx) (n : Nat) : (c.bind n).tok n = .pending := c.tok_setTok_pending n

theorem waitt_blocks {s : State} {a : Src} (hkind : s.c.kind = .elastic) (hfar : (s.src a).toNat ≤ s.tmNow + 2 ^ 36)
    (hui : noUi s) (hgoing : s.c.ui.going = none) :
    ∃ t : State, exec (.waitt none a) s = .next t ∧ t.c.block = .waitt (s.src a).toNat s.pcNow ∧
      ((s.src a).toNat ≤ s.tmNow → (s.tick, .waittRelease s.here none) ∈ t.agenda) := by
  obtain ⟨htick, -, hcur, -⟩ := s.seen_frame a
  let u := (s.seen a).updC fun c => { c with block := .waitt (s.src a).toNat s.pcNow, blockSeq := (s.seen a).seqNow }
  have hblock : (s.seen a).blockIn (.waitt (s.src a).toNat s.pcNow) = u :=
    State.blockIn_quiet _ (by rw [State.c_seen]; exact hgoing)
  have hc : u.c.block = .waitt (s.src a).toNat s.pcNow := congrArg Ctx.block (State.c_updC _ _)
  have hexec : exec (.waitt none a) s = if (s.src a).toNat ≤ s.tmNow then .next (u.sched s.tick (.waittRelease s.here none))
      else .next u := by
    simp only [exec, execWaitt]
    rw [elastic_go _ _ hkind, guardT_go _ _ _ _ (decide_eq_true hfar), noHandler_go _ _ hui, hblock]
    rfl
  by_cases hnow : (s.src a).toNat ≤ s.tmNow
  · exact ⟨_, hexec.trans (if_pos hnow), hc, fun _ => State.mem_sched _ _ _ (Nat.le_of_eq htick)⟩
  · exact ⟨_, hexec.trans (if_neg hnow), hc, fun h => absurd h hnow⟩

theorem waitt_split {s : State} {a : Src} {k : BitVec 3} (hkind : s.c.kind = .elastic)
    (hfar : (s.src a).toNat ≤ s.tmNow + 2 ^ 36) (hk : tokFree s k) :
    ∃ t : State, exec (.waitt (some k) a) s = .next t ∧ t.c.tok k.toNat = .pending ∧ t.c.block = s.c.block ∧
      ((s.src a).toNat ≤ s.tmNow → (s.tick, .waittRelease s.here (some k.toNat)) ∈ t.agenda) ∧
      (s.tmNow < (s.src a).toNat → (k.toNat, (s.src a).toNat) ∈ t.c.waits) := by
  obtain ⟨htick, -, -, -⟩ := s.seen_frame a
  let u := (s.seen a).updC fun c => c.bind k.toNat
  let v := u.updC fun c => { c with waits := c.waits ++ [(k.toNat, (s.src a).toNat)] }
  have hu : u.c = (s.seen a).c.bind k.toNat := State.c_updC _ _
  have hv : v.c = { u.c with waits := u.c.waits ++ [(k.toNat, (s.src a).toNat)] } := State.c_updC _ _
  have htok : u.c.tok k.toNat = .pending := by rw [hu, Ctx.tok_bind]
  have hblock : u.c.block = s.c.block := by
    rw [hu, State.c_seen]
    rfl
  have hexec : exec (.waitt (some k) a) s = if (s.src a).toNat ≤ s.tmNow then
      .next (u.sched s.tick (.waittRelease s.here (some k.toNat))) else .next v := by
    simp only [exec, execWaitt]
    rw [elastic_go _ _ hkind, guardT_go _ _ _ _ (decide_eq_true hfar), freeTok_free _ _ _ hk]
    rfl
  by_cases hnow : (s.src a).toNat ≤ s.tmNow
  · exact ⟨_, hexec.trans (if_pos hnow), htok, hblock, fun _ => State.mem_sched _ _ _ (Nat.le_of_eq htick),
      fun h => absurd hnow (Nat.not_le.mpr h)⟩
  · refine ⟨_, hexec.trans (if_neg hnow), ?_, ?_, fun h => absurd h hnow, fun _ => ?_⟩
    · rw [hv]
      exact htok
    · rw [hv]
      exact hblock
    · rw [hv]
      exact List.mem_append_right _ (List.mem_singleton_self _)

/-- Settles O22: sleep and waitt, by whether what they wait for has come. -/
theorem sleepAndWaitt : Obligations.SleepAndWaitt :=
  ⟨fun _ _ hkind hui => ⟨sleep_ends hkind hui, sleep_blocks hkind hui⟩,
    fun _ _ hkind hfar => ⟨waitt_blocks hkind hfar, fun _ => waitt_split hkind hfar⟩⟩

end Sys2Proof.Machine

/-! ### phase and bar (R148 to R152, R164) -/

namespace Sys2Proof.Machine

open Claim

theorem phase_completes {s : State} {sc : Scope} {kind : PKind} {sync step : Bool} (hui : noUi s) (hrep : noRep s)
    (hstep : step = true → s.isSuperstep s.c.region sc s.me = true) (hsync : sync = true → s.c.noneBound s.T = true)
    (harmed : s.c.fol.armed = none) :
    exec (.phase sc kind sync step) s = .next
      ((((s.blockIn .boundary).updC fun c => { c with ui := { c.ui with going := none } }).updC fun c =>
        { c with arr := some (arrivalAt (s.blockIn .boundary) sc kind step) }).examine false s.c.region) := by
  have hok : (!step || s.isSuperstep s.c.region sc s.me) = true := by
    cases step
    · rfl
    · exact hstep rfl
  have hready : ¬ (sync && !s.c.noneBound s.T) = true := by
    cases sync
    · exact Bool.false_ne_true
    · rw [hsync rfl]
      exact Bool.false_ne_true
  simp only [exec, execPhase]
  rw [noHandler_go _ _ hui, noCapture_noRep _ _ hrep, guardT_go _ _ _ _ hok, if_neg hready]
  simp only [harmed]
  rfl

theorem bar_completes {s : State} {sc : Scope} (hui : noUi s) (hrep : noRep s) (hkind : s.c.kind = .elastic) :
    exec (.bar sc none) s = .next (((s.blockIn .bar).updC fun c =>
      { c with bars := c.bars ++ [barAt s sc none] }).examine true s.c.region) := by
  simp only [exec, execBar]
  rw [elastic_go _ _ hkind, noHandler_go _ _ hui, noCapture_noRep _ _ hrep]
  rfl

theorem bar_split_completes {s : State} {sc : Scope} {k : BitVec 3} (hui : noUi s) (hrep : noRep s)
    (hkind : s.c.kind = .elastic) (hk : tokFree s k) :
    exec (.bar sc (some k)) s = .next (((s.updC (·.bind k.toNat)).updC fun c =>
      { c with bars := c.bars ++ [barAt s sc (some k.toNat)] }).examine true s.c.region) := by
  simp only [exec, execBar]
  rw [elastic_go _ _ hkind, noHandler_go _ _ hui, noCapture_noRep _ _ hrep, freeTok_free _ _ _ hk]
  rfl

/-- Settles O23: phase and bar pass their checks and leave the strand's arrival to the examination of its sets. -/
theorem phaseAndBar : Obligations.PhaseAndBar := fun _ _ hui hrep =>
  ⟨fun _ _ _ hstep hsync harmed => phase_completes hui hrep hstep hsync harmed,
    fun hkind => ⟨bar_completes hui hrep hkind, fun _ hk => bar_split_completes hui hrep hkind hk⟩⟩

end Sys2Proof.Machine

/-! ### rfork (R153 to R156) -/

namespace Sys2Proof.Machine

open Claim

/-! #### The context at a place, in either bank -/

/-- A change of a strand that its tile holds, in whichever bank, is what the place holds after it. -/
theorem State.ctx_updCtx_held (s : State) (l : Loc) (f : Ctx → Ctx) (h : s.holds l = true)
    (hp : ∀ c, c.part = some l.part → (f c).part = some l.part) : (s.updCtx l f).ctx l = f (s.ctx l) := by
  by_cases hfg : s.inFg l = true
  · exact s.ctx_updCtx l f hfg (hp _ (s.part_ctx l hfg))
  · have hbg : (s.core l.tile).bg.part = some l.part := by
      simp only [State.holds, Bool.or_eq_true, beq_iff_eq] at h
      exact h.resolve_left (by simpa [State.inFg] using hfg)
    have hctx : s.ctx l = (s.core l.tile).bg := by rw [State.ctx, if_neg hfg, if_pos (by simpa using hbg)]
    have hupd : s.updCtx l f = s.setCore l.tile { s.core l.tile with bg := f (s.core l.tile).bg } := by
      rw [State.updCtx, State.setCtx, if_neg hfg, hctx, if_pos (by simpa using hbg)]
    have hcore : (s.updCtx l f).core l.tile = { s.core l.tile with bg := f (s.core l.tile).bg } := by
      rw [hupd]
      exact s.core_setCore_same _ _
    rw [hctx, State.ctx, State.inFg, hcore, if_neg (by simpa [State.inFg] using hfg),
      if_pos (by simpa using hp _ hbg)]

/-! #### Recruiting a strand -/

/-- Two states whose networks are alike: the fault-region tables, the harvest map and the bond groups out of service. -/
structure SameNet (s t : State) : Prop where
  flt : ∀ n, (t.core n).flt = (s.core n).flt
  hv : t.hv = s.hv
  bg : t.bg = s.bg

section SameNet

variable {s t : State} (h : SameNet s t)
include h

theorem SameNet.harvested (n : Nat) : t.harvested n = s.harvested n := by rw [State.harvested, h.hv, State.harvested]

theorem SameNet.blocker (n : Nat) (d : Dir) : t.blocker n d = s.blocker n d := by
  rw [State.blocker, h.flt, State.blocker]

theorem SameNet.hopOut (n : Nat) (d : Dir) : t.hopOut n d = s.hopOut n d := by
  rw [State.hopOut, h.harvested, h.harvested, h.bg, State.hopOut]

theorem SameNet.detour (d : Dir) : ∀ (n : Nat) (r : Route), t.detour d n r = s.detour d n r
  | 0, _ => rfl
  | n + 1, r => by rw [State.detour, h.blocker, h.hopOut, SameNet.detour d n, State.detour]

theorem SameNet.axisRun (d : Dir) : ∀ (n : Nat) (r : Route), t.axisRun d n r = s.axisRun d n r
  | 0, _ => rfl
  | n + 1, r => by
    rw [State.axisRun, State.axisRun, h.blocker, h.hopOut, SameNet.axisRun d n]
    simp only [h.detour]

theorem SameNet.route (order a b : Nat) : t.route order a b = s.route order a b := by
  simp only [State.route, h.axisRun]

theorem SameNet.legRoute (g : Leg) : t.legRoute g = s.legRoute g := by
  have hdoor (n : Nat) : t.doorOf n = s.doorOf n := by simp only [State.doorOf, h.harvested]
  simp only [State.legRoute, h.route, hdoor]

/-- The time of a packet's way is the network's. -/
theorem SameNet.legTime (legs : List Leg) : t.legTime legs = s.legTime legs := by
  simp only [State.legTime, h.legRoute]

end SameNet

theorem sameNet_updCtx (s : State) (l : Loc) (f : Ctx → Ctx) : SameNet s (s.updCtx l f) := by
  have hset (n : Nat) (k : Core) (hk : k.flt = (s.core n).flt) (m : Nat) : ((s.setCore n k).core m).flt = (s.core m).flt := by
    by_cases hm : m = n
    · rw [hm, s.core_setCore_same, hk]
    · rw [s.core_setCore_other _ _ _ hm]
  obtain ⟨x, hx⟩ := s.updCtx_eq l f
  refine ⟨fun n => ?_, by rw [hx], by rw [hx]⟩
  unfold State.updCtx State.setCtx
  split
  · exact hset _ _ (by rfl) n
  · split
    · exact hset _ _ (by rfl) n
    · split
      · exact hset _ _ (by rfl) n
      · rfl

/-- A packet whose way is open arrives no earlier than its way takes. -/
theorem State.packet_go (s : State) (p : Nat) (legs : List Leg) (ev : Ev) {n : Nat} (h : s.legTime legs = .ok n) :
    s.packet p legs ev = s.schedFree n ev := by
  rw [State.packet, h]

/-- An event with a free delay comes no earlier than its tick. -/
theorem State.mem_schedFree (s : State) (n : Nat) (ev : Ev) : ∃ w, s.tick + n ≤ w ∧ (w, ev) ∈ (s.schedFree n ev).agenda := by
  refine ⟨s.tick + (n + s.delay), by omega, ?_⟩
  exact s.mem_sched _ ev (by omega)

/-- A recruited strand is marked in its bank, and its start is sent; the join cell of its region may count one more. -/
theorem State.recruit_eq (s : State) (src : Option Nat) (t : Nat) (st : Start) :
    ∃ y, s.recruit src t st = State.packet { (s.claimBank t (s.region st.region).part).updCtx ⟨t, (s.region st.region).part⟩
        fun c => { c with starting := true, region := st.region } with cells := y } (s.region st.region).part
      [{ order := 0, src := src, dst := some t }] (.recruitStart t st) := by
  generalize hv : (s.claimBank t (s.region st.region).part).updCtx ⟨t, (s.region st.region).part⟩
    (fun c => { c with starting := true, region := st.region }) = v
  simp only [State.recruit, hv]
  split
  next => exact ⟨_, rfl⟩
  next => exact ⟨v.cells, rfl⟩

theorem recruit_arrives (s : State) (src : Option Nat) (t : Nat) (st : Start) (n : Nat)
    (hbank : s.holds ⟨t, (s.region st.region).part⟩ = true)
    (hroute : s.legTime [{ order := 0, src := src, dst := some t }] = .ok n) :
    ∃ u w, s.recruit src t st = u ∧ s.tick + n ≤ w ∧ (w, .recruitStart t st) ∈ u.agenda ∧
      (u.ctx ⟨t, (s.region st.region).part⟩).starting = true ∧ (u.ctx ⟨t, (s.region st.region).part⟩).region = st.region := by
  have hclaim : s.claimBank t (s.region st.region).part = s := by rw [State.claimBank, if_pos hbank]
  let mark (c : Ctx) : Ctx := { c with starting := true, region := st.region }
  let v := s.updCtx ⟨t, (s.region st.region).part⟩ mark
  have hctx : v.ctx ⟨t, (s.region st.region).part⟩ = mark (s.ctx ⟨t, (s.region st.region).part⟩) :=
    s.ctx_updCtx_held _ mark hbank fun _ h => h
  obtain ⟨y, hy⟩ := s.recruit_eq src t st
  rw [hclaim] at hy
  change _ = State.packet { v with cells := y } _ _ _ at hy
  have hnet : SameNet s { v with cells := y } := ⟨(sameNet_updCtx s _ mark).flt, (sameNet_updCtx s _ mark).hv,
    (sameNet_updCtx s _ mark).bg⟩
  have htime : State.legTime { v with cells := y } [{ order := 0, src := src, dst := some t }] = .ok n :=
    (hnet.legTime _).trans hroute
  rw [State.packet_go _ _ _ _ htime] at hy
  obtain ⟨w, hw, hmem⟩ := State.mem_schedFree { v with cells := y } n (.recruitStart t st)
  have htick : v.tick = s.tick := State.updCtx_tick s _ mark
  have hctx' : (State.schedFree { v with cells := y } n (.recruitStart t st)).ctx ⟨t, (s.region st.region).part⟩ = mark _ :=
    (State.ctx_congr _ _ _ rfl).trans hctx
  exact ⟨_, w, hy, by rw [← htick]; exact hw, hmem, by rw [hctx'], by rw [hctx']⟩

/-! #### What rfork does -/

theorem recruit_cur_me (s : State) (src : Option Nat) (t : Nat) (st : Start) :
    (s.recruit src t st).cur = s.cur ∧ (s.recruit src t st).me = s.me := by
  have hclaim (p : Nat) : (s.claimBank t p).cur = s.cur ∧ (s.claimBank t p).me = s.me := by
    have hsched : (if (s.core t).held.isEmpty = true then s else s.sched s.tick (.heldMessageReoffer t)).cur = s.cur ∧
        (if (s.core t).held.isEmpty = true then s else s.sched s.tick (.heldMessageReoffer t)).me = s.me := by
      split <;> exact ⟨rfl, rfl⟩
    unfold State.claimBank
    split
    · exact ⟨rfl, rfl⟩
    · dsimp only
      split
      · exact hsched
      · split <;> exact hsched
  have hpacket (u : State) (p : Nat) (legs : List Leg) (ev : Ev) :
      (u.packet p legs ev).cur = u.cur ∧ (u.packet p legs ev).me = u.me := by
    unfold State.packet
    split <;> exact ⟨rfl, rfl⟩
  obtain ⟨hcur, hme⟩ := hclaim (s.region st.region).part
  obtain ⟨y, hy⟩ := s.recruit_eq src t st
  generalize hv : (s.claimBank t (s.region st.region).part).updCtx ⟨t, (s.region st.region).part⟩
    (fun c => { c with starting := true, region := st.region }) = v at hy
  have hvcur : v.cur = s.cur := by rw [← hv, State.updCtx_cur, hcur]
  have hvme : v.me = s.me := by rw [← hv, State.updCtx_me, hme]
  rw [hy, (hpacket _ _ _ _).1, (hpacket _ _ _ _).2]
  exact ⟨hvcur, hvme⟩

/-- The state once an rfork has made its cell and recruited its strands. -/
def recruited (s : State) (f : Fork) : State :=
  ((List.range (f.k - 1)).zip (forkSlots s)).foldl (fun u x => u.recruit (some s.me) x.2 (f.start s (x.1 + 1)))
    { s with cells := Tbl.put s.cells f.h ⟨s.c.region, if f.q then f.m else f.k, false⟩ }

theorem foldl_recruit_cur (m : Nat) (st : Nat → Start) (xs : List (Nat × Nat)) : ∀ u : State,
    (xs.foldl (fun u x => u.recruit (some m) x.2 (st x.1)) u).cur = u.cur := by
  induction xs with
  | nil => exact fun _ => rfl
  | cons x xs ih =>
    intro u
    rw [List.foldl_cons, ih]
    exact (recruit_cur_me u _ _ _).1

theorem recruited_cur (s : State) (f : Fork) : (recruited s f).cur = s.cur :=
  foldl_recruit_cur s.me (fun j => f.start s (j + 1)) _ _

/-- Recruiting one strand after another, each from the tile at hand, is recruiting them all from the tile of the rfork. -/
theorem foldl_recruit_me (st : Nat → Start) (xs : List (Nat × Nat)) : ∀ (m : Nat) (u : State), u.me = m →
    xs.foldl (fun u x => u.recruit (some u.me) x.2 (st x.1)) u = xs.foldl (fun u x => u.recruit (some m) x.2 (st x.1)) u := by
  induction xs with
  | nil =>
    intro m u _
    rw [List.foldl_nil, List.foldl_nil]
  | cons x xs ih =>
    intro m u hu
    have hme : (u.recruit (some m) x.2 (st x.1)).me = m := (recruit_cur_me u (some m) x.2 (st x.1)).2.trans hu
    have hih := ih m _ hme
    rw [List.foldl_cons, hu, hih, List.foldl_cons]

theorem kick_cur (s : State) : s.kick.cur = s.cur :=
  List.foldlRecOn (motive := fun u : State => u.cur = s.cur) _ _ rfl fun _ hu _ _ => hu

theorem forked_cur (s : State) (f : Fork) : (forked s f).cur = s.cur := by
  change (if f.q then State.kick { recruited s f with recs := _, recSeq := _ } else recruited s f).cur = s.cur
  split
  · exact (kick_cur _).trans (recruited_cur s f)
  · exact recruited_cur s f

/-- A task record for each chunk that no strand takes, one after another. -/
def leaveTask (r p : Nat) (st : Nat → Start) (s : State) (i : Nat) : State :=
  { s with recs := s.recs ++ [⟨.task (st i), r, p, s.recLevel r, s.recSeq, false⟩], recSeq := s.recSeq + 1 }

theorem foldl_leaveTask (r p : Nat) (st : Nat → Start) (s : State) (n : Nat) :
    (List.range n).foldl (leaveTask r p st) s = { s with
      recs := s.recs ++ (List.range n).map fun i => ⟨.task (st i), r, p, s.recLevel r, s.recSeq + i, false⟩
      recSeq := s.recSeq + n } := by
  induction n with
  | zero => simp
  | succ n ih =>
    rw [List.range_succ, List.foldl_append, ih, List.map_append, ← List.append_assoc]
    rfl

/-- A word that goes on: a leader's or a follower's. -/
def goOn (s : State) (t : Nat) : State :=
  match s.cur.ent with
  | some e => if e.fwd then { s with cur := { s.cur with outcome := some t } } else s.goTo e false t
  | none => s

theorem goOn_eq_went {s : State} {e : QEnt} (h : s.cur.ent = some e) (t : Nat) : goOn s t = went s e t := by
  rw [goOn, h, went]
  dsimp only
  split
  · rfl
  next hfwd => exact goTo_own s e false t (by simpa using hfwd)

/-- What rfork puts into its registers as it goes on. -/
def forkEnds (s : State) (f : Fork) : State :=
  (((goOn s f.tgt).putS 1 1 (BitVec.ofNat 64 (f.lo 0))).putS 1 2 (BitVec.ofNat 64 (min (f.lo 1) f.n))).putS 1 f.d
    (BitVec.ofNat 64 f.h)

section Rfork

variable {s : State} {e : QEnt} {q : Bool} {d a b : BitVec 6} {off : BitVec 18}

/-- rfork with its checks passed, by its numbers of items, grain and chunks. -/
theorem execRfork_go (hkind : s.c.kind = .elastic) (hui : noUi s) (hrep : noRep s) (hd1 : d ≠ 1) (hd2 : d ≠ 2)
    (hg : (s.sreg b).toNat ≠ 0) {n g m : Nat} (hn : n = (s.sreg a).toNat) (hgd : g = (s.sreg b).toNat)
    (hm : m = (n + g - 1) / g) (hm0 : m ≠ 0) (hfit : q = true → m ≤ 4096) :
    exec (.rfork q d a b off) s = (s.freeCell (tileZ s.me)).elim (.next s.stall) fun h =>
      let f : Fork := ⟨q, d, n, g, m, forkWidth s m, h, (((s.pcNow : Int) + off.toInt) % 2 ^ 64).toNat⟩
      if q && 65536 < s.recs.length + (m - f.k) then .next s.stall else .next (forkEnds (forked s f) f) := by
  change elastic s (noHandler s (noCapture s _)) = _
  rw [elastic_go _ _ hkind, noHandler_go _ _ hui, noCapture_noRep _ _ hrep]
  extract_lets sa sb m' pc tgt at_ go r gg nearer slots avail k lo hi
  have hsa : sa = n := hn.symm
  have hsb : sb = g := hgd.symm
  have hm' : m' = m := by rw [hm, ← hsa, ← hsb]
  rw [guardT_go _ _ _ _ (by simpa using ⟨⟨hd1, hd2⟩, hg⟩), hm', if_neg hm0, guardT_go _ _ _ _ (by cases q <;> simp_all)]
  cases s.freeCell (tileZ s.me) with
  | none => rfl
  | some h =>
    let f : Fork := ⟨q, d, n, g, m, k, h, at_⟩
    have hslots : slots = forkSlots s := rfl
    have hk : k = forkWidth s m := by rw [forkWidth, ← hslots, ← hm']
    have hlo (j : Nat) : lo j = f.lo j := by
      change (if q then j * sb else j * m' / k * sb) = if q then j * g else j * m / k * g
      rw [hsb, hm']
    have hhi (j : Nat) : hi j = min (f.lo (j + 1)) n := by
      rw [← hlo]
      change (if q then min ((j + 1) * sb) sa else min ((j + 1) * m' / k * sb) sa) =
        min (if q then (j + 1) * sb else (j + 1) * m' / k * sb) n
      rw [hsa]
      split <;> rfl
    have hst (j : Nat) : ({ region := r, pc := at_, s1 := lo j, s2 := hi j, dreg := d.toNat, cell := h } : Start) =
        f.start s j := by
      rw [hlo, hhi]
      rfl
    rw [← hk]
    change _ = if (q && decide (65536 < s.recs.length + (m - k))) = true then _ else Host.Outcome.next (forkEnds (forked s f) f)
    simp only [hst]
    rw [hlo, hhi]
    clear_value lo hi
    have hgo (u : State) : go u at_ = goOn u f.tgt := rfl
    rw [hslots, hgo]
    clear_value go
    cases q with
    | false =>
      have hrec := foldl_recruit_me (fun j => f.start s (j + 1)) ((List.range (k - 1)).zip (forkSlots s)) s.me
        { s with cells := Tbl.put s.cells h ⟨r, k, false⟩ } rfl
      simp only [Bool.false_and, Bool.false_eq_true, if_false]
      rw [hrec]
      rfl
    | true =>
      have hrec := foldl_recruit_me (fun j => f.start s (j + 1)) ((List.range (k - 1)).zip (forkSlots s)) s.me
        { s with cells := Tbl.put s.cells h ⟨r, m, false⟩ } rfl
      have htask := foldl_leaveTask r gg.part (fun i => f.start s (k + i)) (recruited s f) (m - k)
      simp only [Bool.true_and, if_true]
      rw [hrec]
      split
      next => rfl
      next =>
        change Host.Outcome.next (forkEnds (State.kick ((List.range (m - k)).foldl
          (leaveTask r gg.part fun i => f.start s (k + i)) (recruited s f))) f) = _
        rw [htask]
        rfl

theorem rfork_none {e : QEnt} (hent : s.cur.ent = some e) (hkind : s.c.kind = .elastic) (hui : noUi s) (hrep : noRep s)
    (hd1 : d ≠ 1) (hd2 : d ≠ 2) (hg : (s.sreg b).toNat ≠ 0) (hn : (s.sreg a).toNat = 0) :
    exec (.rfork q d a b off) s = .next ((went s e (e.pc + 1)).putS 1 d 0xFFFF) := by
  have hm : ((s.sreg a).toNat + (s.sreg b).toNat - 1) / (s.sreg b).toNat = 0 := by
    rw [hn]
    exact Nat.div_eq_of_lt (by omega)
  change elastic s (noHandler s (noCapture s _)) = _
  rw [elastic_go _ _ hkind, noHandler_go _ _ hui, noCapture_noRep _ _ hrep]
  extract_lets sa sb m pc tgt at_ go
  rw [guardT_go _ _ _ _ (by simpa using ⟨⟨hd1, hd2⟩, hg⟩), if_pos hm]
  have hgo : go s (pc + 1) = went s e (e.pc + 1) := by
    rw [← pcNow_of_ent hent]
    exact goOn_eq_went hent _
  rw [hgo]
  rfl

end Rfork

/-- Settles O24: rfork by the number of its chunks and whether a cell and the records find room; and a recruit's start. -/
theorem rfork : Obligations.Rfork := by
  refine ⟨fun s e q d a b off hent hkind hui hrep hd1 hd2 hg => ?_, recruit_arrives⟩
  intro n g m k
  have hpos : 0 < n → m ≠ 0 := fun hn => Nat.ne_of_gt (Nat.div_pos (by omega) (Nat.pos_of_ne_zero hg))
  refine ⟨rfork_none hent hkind hui hrep hd1 hd2 hg, fun h hn hroom hcell => ?_, fun hn hfit hfull => ?_⟩
  · intro f
    rw [execRfork_go hkind hui hrep hd1 hd2 hg rfl rfl rfl (hpos hn) fun hq => (hroom hq).1, hcell, pcNow_of_ent hent,
      Option.elim_some]
    have hfits : ¬ (q && decide (65536 < s.recs.length + (m - k))) = true := by
      rw [Bool.and_eq_true, decide_eq_true_eq]
      exact fun hbad => absurd hbad.2 (Nat.not_lt.mpr (hroom hbad.1).2)
    refine (if_neg hfits).trans ?_
    change Host.Outcome.next (forkEnds (forked s f) f) = _
    rw [forkEnds, goOn_eq_went ((congrArg Cur.ent (forked_cur s f)).trans hent)]
  · rw [execRfork_go hkind hui hrep hd1 hd2 hg rfl rfl rfl (hpos hn) hfit]
    rcases hfull with hnone | ⟨hq, hover⟩
    · rw [hnone, Option.elim_none]
    · cases s.freeCell (tileZ s.me) with
      | none => rw [Option.elim_none]
      | some h => exact if_pos (by rw [hq]; exact decide_eq_true hover)

end Sys2Proof.Machine

/-! ### spawn, trigger, stepdl, follow, detach and rep (R158 to R169, R205) -/

namespace Sys2Proof.Machine

open Claim

/-! #### spawn -/

section Spawn

variable {s : State} {chain : Bool} {k : BitVec 3} {a b : BitVec 6} (hkind : s.c.kind = .elastic) (hui : noUi s)
  (hrep : noRep s) (hal : (s.sreg a).toNat % 256 = 0) (hk : tokFree s k)
include hkind hui hrep hal hk

theorem spawn_none (hn : (s.sreg b).toNat = 0) :
    exec (.spawn chain k a b) s = .next (s.updC fun c => c.complete k.toNat s.T) := by
  simp only [exec, execSpawn]
  rw [elastic_go _ _ hkind, noHandler_go _ _ hui, noCapture_noRep _ _ hrep, guardT_go _ _ _ _ (by simpa using hal),
    guardT_go _ _ _ _ (by simp [hn]), freeTok_free _ _ _ hk, if_pos hn]
  rfl

theorem spawn_completes (hn : 0 < (s.sreg b).toNat) (hmax : (s.sreg b).toNat < 2 ^ 32) (hidle : s.c.batch.active = false) :
    exec (.spawn chain k a b) s = .next ((s.updC fun c => { c.bind k.toNat with
      batch := { n := (s.sreg b).toNat, arr := (s.sreg a).toNat, chain := chain, tok := k.toNat, active := true } }).packet
        s.here.part [s.c.leg 6 (some s.me) none] (.childLaunch s.here)) := by
  simp only [exec, execSpawn]
  rw [elastic_go _ _ hkind, noHandler_go _ _ hui, noCapture_noRep _ _ hrep, guardT_go _ _ _ _ (by simpa using hal),
    guardT_go _ _ _ _ (decide_eq_true hmax), freeTok_free _ _ _ hk, if_neg (Nat.ne_of_gt hn),
    if_neg (by rw [hidle]; exact Bool.false_ne_true)]
  rfl

end Spawn

/-! #### trigger -/

theorem trigger_again {s : State} (hui : noUi s) (htrig : s.c.trig = true) : exec .trigger s = .next s := by
  simp only [exec, execTrigger]
  rw [noHandler_go _ _ hui, if_pos htrig]
  rfl

theorem trigger_completes {s : State} (hui : noUi s) (htrig : s.c.trig = false) :
    exec .trigger s = .next ((s.updC fun c => { c with trig := true, trigSeq := some s.seqNow }).trigStep s.here) := by
  simp only [exec, execTrigger]
  rw [noHandler_go _ _ hui, if_neg (by rw [htrig]; exact Bool.false_ne_true)]
  rfl

/-- What a trigger waits for: the earlier stores that have not issued. -/
theorem State.trigStep_of_seq {s : State} {l : Loc} {n : Nat} (h : (s.ctx l).trigSeq = some n) :
    s.trigStep l = if (s.ctx l).behind n isBuffered then s
      else ((s.publish l).updCtx l fun c => { c with trigSeq := none, trigPend := some c.pubSeq }).progress l := by
  rw [State.trigStep, h]

theorem trigger_steps {s : State} (hui : noUi s) (htrig : s.c.trig = false) :
    let u := s.updC fun c => { c with trig := true, trigSeq := some s.seqNow }
    exec .trigger s = .next (u.trigStep s.here) ∧
    (s.c.part.isSome → s.c.behind s.seqNow isBuffered = true → exec .trigger s = .next u) ∧
    (s.c.part.isSome → s.c.behind s.seqNow isBuffered = false →
      exec .trigger s = .next (((u.publish s.here).updCtx s.here fun c =>
        { c with trigSeq := none, trigPend := some c.pubSeq }).progress s.here)) := by
  intro u
  have hexec : exec .trigger s = .next (u.trigStep s.here) := trigger_completes hui htrig
  have hctx (hpart : s.c.part.isSome) : u.ctx s.here = { s.c with trig := true, trigSeq := some s.seqNow } := by
    have hu : u.c = { s.c with trig := true, trigSeq := some s.seqNow } := s.c_updC _
    have hhere : u.here = s.here := State.here_updC s _ rfl
    rw [← hhere, State.ctx_here (by rw [hu]; exact hpart), hu]
  have hseq (hpart : s.c.part.isSome) : (u.ctx s.here).trigSeq = some s.seqNow := by rw [hctx hpart]
  have hbehind (hpart : s.c.part.isSome) : (u.ctx s.here).behind s.seqNow isBuffered = s.c.behind s.seqNow isBuffered := by
    rw [hctx hpart]
    rfl
  refine ⟨hexec, fun hpart hwait => ?_, fun hpart hgo => ?_⟩
  · rw [hexec, State.trigStep_of_seq (hseq hpart), hbehind hpart, if_pos hwait]
  · rw [hexec, State.trigStep_of_seq (hseq hpart), hbehind hpart, if_neg (by rw [hgo]; exact Bool.false_ne_true)]

/-! #### stepdl -/

theorem stepdl_completes {s : State} {a b : Src} {extra : BitVec 18}
    (hphases : (s.src b).toNat / 65536 % 65536 = 0 ∨
      ((s.src b).toNat / 2 ^ 32 ≠ 0 ∧ (s.src b).toNat % 65536 + (s.src b).toNat / 65536 % 65536 ≤ s.roleRecs.length ∧
        ∀ p ∈ recsUsed s (s.src b), p.kind = 2 → p.ticks ≠ 0))
    (hbudget : budgetOf s (s.src b) extra < 2 ^ 48) :
    exec (.stepdl a b extra) s = .next
      (let u := ((s.seen a).seen b).updRegion s.c.region fun g => { g with paceStep := s.idStep }
       if (s.region s.c.region).eff.dlmode = 0 then u
       else u.declare s.c.region (s.src a).toNat (budgetOf s (s.src b) extra)) := by
  have hlegal : ((s.src b).toNat / 65536 % 65536 == 0 || ((s.src b).toNat / 2 ^ 32 != 0 &&
      (s.src b).toNat % 65536 + (s.src b).toNat / 65536 % 65536 ≤ s.roleRecs.length &&
        !(recsUsed s (s.src b)).any fun p => p.kind == 2 && p.ticks == 0)) = true := by
    rcases hphases with h | ⟨hrf, hlen, hticks⟩
    · simp [h]
    · have hany : ((recsUsed s (s.src b)).any fun p => p.kind == 2 && p.ticks == 0) = false := by simpa using hticks
      rw [hany, decide_eq_true hlen, bne_iff_ne.mpr hrf]
      exact Bool.or_true _
  refine (guardT_go _ _ _ _ hlegal).trans ((guardT_go _ _ _ _ (decide_eq_true hbudget)).trans ?_)
  exact (apply_ite Host.Outcome.next _ _ _).symm

/-- Settles O25: spawn, trigger and stepdl pass their checks; a trigger publishes once no earlier store is still to issue. -/
theorem spawnTriggerStepdl : Obligations.SpawnTriggerStepdl := fun _ =>
  ⟨fun _ _ _ _ hkind hui hrep hal hk => ⟨spawn_none hkind hui hrep hal hk, spawn_completes hkind hui hrep hal hk⟩,
    trigger_again, trigger_steps, fun _ _ _ => stepdl_completes⟩

/-! #### follow, detach and rep -/

theorem follow_completes {s : State} {dir : Dir} (hui : noUi s)
    (hbox : (s.region s.c.region).eff.inBox (neighbour s.me dir) = true) (hharv : s.harvested (neighbour s.me dir) = false)
    {t : State} (ht : t = s.updC fun c =>
      { c with fol := { c.fol with armed := some dir, armAt := s.cur.ent.map fun e => (s.tick, e) } })
    (hcyc : t.chainHas s.here.part s.me 17 s.me = false)
    (hmany : t.followedBy s.here.part s.c.region (neighbour s.me dir) ≤ 5)
    (hdeep : ∀ l ∈ t.strands s.c.region, t.chainHops s.here.part 17 l.tile ≤ 15) : exec (.follow dir) s = .next t := by
  have hok : ¬ (t.chainHas s.here.part s.me 17 s.me ||
      ((t.strands s.c.region).any fun l => 15 < t.chainHops s.here.part 17 l.tile) ||
      5 < t.followedBy s.here.part s.c.region (neighbour s.me dir)) = true := by
    simpa [hcyc, hmany] using hdeep
  subst ht
  change noHandler s (guardT s _ _ (if _ then _ else _)) = _
  rw [noHandler_go _ _ hui, guardT_go _ _ _ _ (by simp [hbox, hharv])]
  exact if_neg hok

theorem detach_completes {s : State} (hui : noUi s) :
    ∃ t : State, exec .detach s = .next t ∧ t.c.fol.armed = none ∧ t.c.fol.cur = none ∧
      (s.c.fol.cur = none → t = s.updC fun c => { c with fol := { c.fol with armed := none, armAt := none } }) ∧
      (s.c.fol.cur ≠ none → t.c.pc = s.pcNow + 1 ∧ t.c.fstop = .run ∧ t.c.fetchAt = s.T + 3) := by
  let free (c : Ctx) : Ctx := { c with fol := { c.fol with armed := none, armAt := none } }
  let off (c : Ctx) : Ctx := if (free c).fol.cur.isSome then (free c).leaveLeader s.seqNow (s.pcNow + 1) s.T else free c
  have hexec : exec .detach s = .next (s.updC off) := noHandler_go _ _ hui
  have hc : (s.updC off).c = off s.c := s.c_updC off
  refine ⟨_, hexec, ?_, ?_, fun hcur => ?_, fun hcur => ?_⟩
  · rw [hc]
    unfold off
    split <;> rfl
  · rw [hc]
    unfold off
    split
    · rfl
    next h => simpa using h
  · exact State.updC_congr (if_neg (by simp [free, hcur]))
  · have hoff : off s.c = (free s.c).leaveLeader s.seqNow (s.pcNow + 1) s.T :=
      if_pos (Option.isSome_iff_ne_none.mpr hcur)
    rw [hc, hoff]
    exact ⟨rfl, rfl, rfl⟩

theorem rep_completes {s : State} (hui : noUi s) (hrep : noRep s) (a : BitVec 6) (count : RepCount) (len1 : BitVec 4) (n : Nat)
    (hn : (match count with | .imm c => c.toNat | .reg b => (s.sreg b).toNat) = n) (hmax : n ≤ 4095) :
    ((s.cur.ent.map (·.fwd)).getD false = true → exec (.rep a count len1) s = .next s) ∧
    ((s.cur.ent.map (·.fwd)).getD false = false → ∃ r, exec (.rep a count len1) s = .next (s.updC fun c =>
        { c with repSeq := c.repSeq + 1, reps := c.reps ++ [r] }) ∧ r.count = n ∧ r.left = len1.toNat + 1 ∧
      r.strides = (s.sreg a).setWidth 32 ∧ r.caps = [] ∧ r.at_ = s.T ∧ r.seq = s.seqNow) := by
  have hexec : exec (.rep a count len1) s = if (s.cur.ent.map (·.fwd)).getD false then .next s
      else .next (s.updC fun c => { c with
        repSeq := c.repSeq + 1
        reps := c.reps ++ [{ rid := c.repSeq + 1, seq := s.seqNow, strides := (s.sreg a).setWidth 32, count := n, at_ := s.T,
                             left := len1.toNat + 1, caps := [], j := 0, slip := 0 }] }) := by
    subst hn
    change noHandler s (noCapture s _) = _
    rw [noHandler_go _ _ hui, noCapture_noRep _ _ hrep]
    cases count <;> exact (guardT_go _ _ _ _ (decide_eq_true hmax)).trans rfl
  refine ⟨fun hfwd => hexec.trans (if_pos hfwd), fun hfwd =>
    ⟨{ rid := s.c.repSeq + 1, seq := s.seqNow, strides := (s.sreg a).setWidth 32, count := n, at_ := s.T,
       left := len1.toNat + 1, caps := [], j := 0, slip := 0 }, ?_, rfl, rfl, rfl, rfl, rfl, rfl⟩⟩
  exact hexec.trans (if_neg (by rw [hfwd]; exact Bool.false_ne_true))

/-- Settles O26: follow arms, detach drops and rep opens, each past its checks. -/
theorem followDetachRep : Obligations.FollowDetachRep := fun _ hui =>
  ⟨fun _ hbox hharv hcyc hmany hdeep => follow_completes hui hbox hharv rfl hcyc hmany hdeep, detach_completes hui,
    rep_completes hui⟩

end Sys2Proof.Machine

/-! ### System words: uien, uiret, fence, tlbinv and the control registers (R303, R462 to R471) -/

namespace Sys2Proof.Machine

open Claim

/-! #### uiret and fence -/

theorem uiret_completes (s : State) (hkind : s.c.kind = .elastic) :
    (s.c.ui.inh = true → exec .uiret s = .next ((s.updC fun c =>
      { c.refetch c.ui.ret s.T with ui := { c.ui with inh := false } }).uiPoll s.here)) ∧
    (s.c.ui.inh = false → exec .uiret s = .next (s.trapWord 0x02)) :=
  ⟨fun hinh => (elastic_go _ _ hkind).trans (guardT_go _ _ _ _ hinh),
    fun hinh => (elastic_go _ _ hkind).trans (guardT_stop _ _ _ _ hinh)⟩

theorem fence_none {s : State} {sc : Scope} (h : s.c.kind ≠ .elastic ∨ sc = .strand) : exec (.fence sc) s = .next s :=
  if_pos (by simpa using h)

theorem fence_blocks {s : State} {sc : Scope} (hkind : s.c.kind = .elastic) (hsc : sc ≠ .strand) :
    exec (.fence sc) s = .next ((s.blockIn (.fence sc false)).fenceStep s.here) := by
  have h : ¬ (s.c.kind != .elastic || sc == .strand) = true := by simp [hkind, hsc]
  exact if_neg h

/-! #### tlbinv -/

/-- A table changed value by value holds the changed values, where the default is not changed. -/
theorem Tbl.get_map {α : Type} (d : α) (f : Nat × α → Nat × α) (hkey : ∀ x, (f x).1 = x.1) (n : Nat)
    (hd : (f (n, d)).2 = d) (t : Tbl α) : Tbl.get d (t.map f) n = (f (n, Tbl.get d t n)).2 := by
  induction t with
  | nil => exact hd.symm
  | cons x t ih =>
    obtain ⟨k, v⟩ := x
    have hf : f (k, v) = (k, (f (k, v)).2) := Prod.ext (hkey _) rfl
    rw [List.map_cons, hf, Tbl.get, Tbl.get, ih]
    split
    · exact hd.symm
    · split
      next h => rw [h]
      next => rfl

/-- The translations that a core keeps of a range that is dropped are none of the range (R303). -/
theorem tlbDrop_core (s : State) (l : Loc) (sc : Scope) (lo hi n : Nat) :
    ((s.tlbDrop l sc lo hi).core n) = if s.sameInst sc l n then
      { s.core n with tlb := (s.core n).tlb.filter fun e => !e.inRange l.part lo hi } else s.core n := by
  have hcores : (s.tlbDrop l sc lo hi).cores = s.cores.map fun k => if s.sameInst sc l k.1 then
      (k.1, { k.2 with tlb := k.2.tlb.filter fun e => !e.inRange l.part lo hi }) else k := by
    unfold State.tlbDrop
    cases sc <;> rfl
  rw [State.core, hcores, Tbl.get_map]
  · dsimp only
    split <;> rfl
  · intro x
    split <;> rfl
  · split <;> rfl

theorem tlbDrop_same (s : State) (l : Loc) (sc : Scope) (lo hi : Nat) :
    (s.tlbDrop l sc lo hi).tick = s.tick ∧ (s.tlbDrop l sc lo hi).me = s.me := by
  unfold State.tlbDrop
  cases sc <;> exact ⟨rfl, rfl⟩

/-- What tlbinv does once its operands are good, and what then stands. -/
theorem tlbinv_ends (s : State) (l : Loc) (sc : Scope) (dn hi lo : Nat) (k : BitVec 3) :
    let u := (s.tlbDrop l sc lo hi).updC fun c => c.bind k.toNat
    let t := u.schedFree 1 (.shootdownComplete l dn k.toNat sc lo hi)
    ∃ n, t.c.tok k.toNat = .pending ∧ s.tick < n ∧ (n, .shootdownComplete l dn k.toNat sc lo hi) ∈ t.agenda ∧
      ∀ e ∈ (t.core s.me).tlb, s.sameInst sc l s.me = true → e.inRange l.part lo hi = false := by
  intro u t
  obtain ⟨htick, hme⟩ := tlbDrop_same s l sc lo hi
  obtain ⟨n, hn, hmem⟩ := u.mem_schedFree 1 (.shootdownComplete l dn k.toNat sc lo hi)
  have hun : u.tick = s.tick := htick
  have htok : u.c.tok k.toNat = .pending := by
    rw [State.c_updC]
    exact Ctx.tok_bind _ _
  refine ⟨n, htok, by omega, hmem, fun e he hin => ?_⟩
  have htlb : (u.core s.me).tlb = ((s.tlbDrop l sc lo hi).core s.me).tlb := by
    rw [State.core_updC, hme, if_pos rfl]
  change e ∈ (u.core s.me).tlb at he
  rw [htlb, tlbDrop_core, if_pos hin] at he
  simpa using (List.mem_filter.mp he).2

theorem tlbinv_all {s : State} {sc : Scope} {d : BitVec 6} {k : BitVec 3} (hkind : s.c.kind = .elastic) (hk : tokFree s k) :
    ∃ t n, exec (.tlbinv sc d none k) s = .next t ∧ t.c.tok k.toNat = .pending ∧ s.tick < n ∧
      (n, .shootdownComplete s.here (s.c.sdst d.toNat) k.toNat sc 0 (2 ^ 56)) ∈ t.agenda ∧
      (∀ e ∈ (t.core s.me).tlb, s.sameInst sc s.here s.me = true → e.part ≠ s.here.part ∨ 2 ^ 56 ≤ e.va ∨ e.va + e.size = 0) := by
  obtain ⟨n, htok, hn, hmem, hdrop⟩ := tlbinv_ends s s.here sc (s.c.sdst d.toNat) (2 ^ 56) 0 k
  refine ⟨_, n, ?_, htok, hn, hmem, fun e he hin => ?_⟩
  · simp only [exec, execTlbinv]
    rw [elastic_go _ _ hkind, freeTok_free _ _ _ hk, guardT_go _ _ _ _ (by simp)]
    rfl
  · have hout := hdrop e he hin
    simp only [TlbEnt.inRange, Bool.and_eq_false_iff, beq_eq_false_iff_ne, decide_eq_false_iff_not] at hout
    omega

theorem tlbinv_range {s : State} {sc : Scope} {d : BitVec 6} {a b : Src} {k : BitVec 3} (hkind : s.c.kind = .elastic)
    (hk : tokFree s k) (hal : (s.src a).toNat % 65536 = 0) (hlo : (s.src a).toNat < 2 ^ 56) (hn0 : (s.src b).toNat ≠ 0)
    (hn : (s.src b).toNat ≤ 2 ^ 40) :
    ∃ t n, exec (.tlbinv sc d (some (a, b)) k) s = .next t ∧ t.c.tok k.toNat = .pending ∧ s.tick < n ∧
      (n, .shootdownComplete s.here (s.c.sdst d.toNat) k.toNat sc (s.src a).toNat
        ((s.src a).toNat + (s.src b).toNat * 65536)) ∈ t.agenda := by
  have htick : ((s.seen a).seen b).tick = s.tick := ((s.seen a).seen_frame b).1.trans (s.seen_frame a).1
  obtain ⟨n, htok, hn', hmem, -⟩ := tlbinv_ends ((s.seen a).seen b) s.here sc (s.c.sdst d.toNat)
    ((s.src a).toNat + (s.src b).toNat * 65536) (s.src a).toNat k
  refine ⟨_, n, ?_, htok, htick ▸ hn', hmem⟩
  simp only [exec, execTlbinv]
  rw [elastic_go _ _ hkind, freeTok_free _ _ _ hk, guardT_go _ _ _ _ (by simp_all)]
  rfl

/-! #### The words of the control registers -/

theorem csrWord_refused {s : State} {o : CsrOp} {d : BitVec 6} {a : Src} {n : Nat} (hdev : csrDevice n = true)
    (hpriv : (s.part s.here.part).priv = false) : csrWord o d a n s = .next (s.trapWord 0x03) :=
  guardT_stop _ _ _ _ (by rw [hdev, hpriv]; rfl)

theorem csrWord_writes {s : State} {o : CsrOp} {d : BitVec 6} {a : Src} {n : BitVec 12}
    (hpriv : csrDevice n.toNat = false ∨ (s.part s.here.part).priv = true)
    (hok : n ≠ 0x009 ∨ s.c.uivecOk (o.rw (BitVec.ofNat 64 (s.csr n.toNat)) (s.src a)) = true) :
    csrWord o d a n.toNat s = .next (((if d = 0 then s.seen a else (s.seen a).csrSeen n.toNat).csrPut n.toNat o
      (BitVec.ofNat 64 (s.csr n.toNat)) (s.src a)).putS 1 d (BitVec.ofNat 64 (s.csr n.toNat))) := by
  have hp : (!csrDevice n.toNat || (s.part s.here.part).priv) = true := by simpa using hpriv
  have hn : (n.toNat != 0x009 || s.c.uivecOk (o.rw (BitVec.ofNat 64 (s.csr n.toNat)) (s.src a))) = true := by
    have hne : n ≠ 0x009 → n.toNat ≠ 0x009 := fun h he => h (BitVec.eq_of_toNat_eq he)
    rcases hok with h | h
    · rw [bne_iff_ne.mpr (hne h), Bool.true_or]
    · rw [h, Bool.or_true]
  exact (guardT_go _ _ _ _ hp).trans (guardT_go _ _ _ _ hn)

/-- Settles O27: each system word past its checks; what is written of a control register is csrWord's, for each of the three
words. -/
theorem systemWords : Obligations.SystemWords := by
  refine ⟨⟨fun s => ⟨fun _ => rfl, fun hkind => (uiret_completes s hkind).1, fun hkind => (uiret_completes s hkind).2⟩, fun s =>
    ⟨fun _ => fence_none, fun _ => fence_blocks, fun _ _ _ => tlbinv_all, fun _ _ _ _ _ => tlbinv_range⟩⟩, fun s n d =>
    ⟨rfl, fun a => ?_⟩⟩
  intro old next
  exact ⟨fun ⟨hdev, hpriv⟩ => ⟨csrWord_refused hdev hpriv, csrWord_refused hdev hpriv, csrWord_refused hdev hpriv⟩,
    fun hpriv => ⟨fun hok => csrWord_writes (o := .w) hpriv hok, fun hok => csrWord_writes (o := .s) hpriv hok,
      fun hok => csrWord_writes (o := .c) hpriv hok⟩⟩

end Sys2Proof.Machine

/-! ### The M column and the spline words (R344 to R393) -/

namespace Sys2Proof.Machine

open Claim

/-! #### The checks of an array word -/

theorem mFirst_go {s : State} {kindOk : Bool} {k : Option Nat} (kont : Out) (hui : noUi s) (hkind : kindOk = true)
    (hk : ∀ n, k = some n → (s.c.tok n).bound s.T = false) : mFirst s kindOk k kont = kont := by
  refine (guardT_go _ _ _ _ (by rw [hui]; rfl)).trans ((guardT_go _ _ _ _ hkind).trans ?_)
  cases k with
  | none => rfl
  | some n => exact guardT_go _ _ _ _ (by rw [hk n rfl]; exact Bool.or_true _)

theorem descCheck_go {s : State} {a b : BitVec 6} {o : ArrOp} (k : ArrOp → Out) (h : descOk s a b o) :
    descCheck s a b o k = k (s.descOf a b o) := by
  obtain ⟨ha, hb, hrot, hal, hrows⟩ := h
  have hwords : ((s.sreg a).toNat / 2 ^ 48 == 0 && (s.sreg b).toNat / 2 ^ 28 == 0 && (s.descOf a b o).rot ≤ 5) = true := by
    rw [ha, hb, decide_eq_true hrot]
    rfl
  exact (guardT_go _ _ _ _ hwords).trans ((guardT_go _ _ _ _ (beq_iff_eq.mpr hal)).trans
    (guardT_go _ _ _ _ (by simpa using hrows)))

theorem aopCheck_go {s : State} {src : AOp} {o : ArrOp} (k : ArrOp → Out) (h : operandOk s src o) :
    aopCheck s src o k = k (operand s src o) := by
  cases src with
  | desc a b => exact descCheck_go k h
  | strm n =>
    obtain ⟨hwin, hbound, hdir⟩ := h
    exact (vcheck_one s _ _ _ hwin).trans (guardT_go _ _ _ _ (by rw [hbound, hdir]; rfl))

theorem gangCheck_go {s : State} {src : AOp} {o : ArrOp} (k : ArrOp → Out) (h : gangOperandOk s src o) :
    gangCheck s src o k = k (gangOperand s src o) := by
  obtain ⟨hbox, hfirst, hstrm⟩ := h
  refine (guardT_go _ _ _ _ (beq_iff_eq.mpr hbox)).trans ?_
  rw [gangOperand]
  by_cases hx : tileX s.me = 0
  · rw [if_pos hx, if_pos hx, aopCheck_go k (hfirst hx)]
  · rw [if_neg hx, if_neg hx]
    cases src with
    | desc a b => rfl
    | strm n => exact vcheck_one s _ _ _ (hstrm n rfl)

theorem mmFormat_go {s : State} {o : ArrOp} (k : ArrOp → Out) (h : (mmRp s.front o.aty).isSome) :
    mmFormat s o k = k { o with rp2 := (mmRp s.front o.aty).getD 2 } := by
  obtain ⟨rp, hrp⟩ := Option.isSome_iff_exists.mp h
  rw [mmFormat, hrp]
  rfl

theorem splFormat_go {s : State} {t : Ty} (k : Bool → Bool → Out) (h : splineOk s t) :
    splFormat s t k = k (spl8 s) s.front.2.2 := by
  obtain ⟨hplane, hty, hlo, hhi⟩ := h
  exact guardT_go _ _ _ _ (by simpa using ⟨⟨⟨hplane, hty⟩, hlo⟩, hhi⟩)

theorem enqueueO_go {s : State} {o : ArrOp} (h : s.c.arr64.held o.load < 8) :
    enqueueO s o = .next ((s.enqueued o).arrKick s.here) :=
  enqueue_go s o (fun u => .next (u.arrKick s.here)) h

theorem gangWord_go {s : State} {o : ArrOp} (h : s.c.arr64.held o.load < 8) :
    enqueue s o (fun u => ok u.gangArrive) = .next (s.enqueued o).gangArrive :=
  enqueue_go s o _ h

/-- The address of a scale vector, where the plane has one, is aligned and in the share. -/
theorem scaleCheck_go {s : State} {t : Ty} {n len : Nat} (kont : Out)
    (h : t = .t8 → n % 16 = 0 ∧ n + len ≤ s.c.share) :
    guardT s (t != .t8 || n % 16 == 0) cAlignment (guardT s (t != .t8 || n + len ≤ s.c.share) cScratchBounds kont) = kont := by
  by_cases ht : t = .t8
  · obtain ⟨hal, hfit⟩ := h ht
    rw [guardT_go _ _ _ _ (by simp [hal]), guardT_go _ _ _ _ (by simp [hfit])]
  · rw [guardT_go _ _ _ _ (by simp [ht]), guardT_go _ _ _ _ (by simp [ht])]

theorem operand_tok (s : State) (src : AOp) (o : ArrOp) : (operand s src o).tok = o.tok := by
  cases src <;> rfl

theorem gangOperand_tok (s : State) (src : AOp) (o : ArrOp) : (gangOperand s src o).tok = o.tok := by
  unfold gangOperand
  split
  · exact operand_tok s src o
  · rfl

/-! #### The words -/

/-- A word that enters its lane, where its operands and planes are good, its token free and the lane not full. -/
def Enters (s : State) (i : Instr) (w : ArrWord) : Prop :=
  w.good → (∀ k, w.o.tok = some k → (s.c.tok k).bound s.T = false) → s.c.arr64.held w.o.load < 8 →
    exec i s = .next (if w.gang then (s.enqueued w.o).gangArrive else (s.enqueued w.o).arrKick s.here)

section Words

variable {s : State} {w : ArrWord} (hui : noUi s)
include hui

theorem enters_mwld {t back cmp sc a b k} (h : arrWord s (.mwld t back cmp sc a b k) = some w) : Enters s (.mwld t back cmp sc a b k) w := by
  cases h
  intro hgood hk hroom
  exact (mFirst_go _ hui rfl hk).trans ((descCheck_go _ hgood.1).trans ((scaleCheck_go _ hgood.2).trans (enqueueO_go hroom)))

theorem enters_mm {o} (h : arrWord s (.mm o) = some w) : Enters s (.mm o) w := by
  cases h
  intro hgood hk hroom
  refine (mFirst_go _ hui rfl fun n hn => hk n ((operand_tok _ _ _).trans hn)).trans ?_
  refine (aopCheck_go _ hgood.1).trans ?_
  refine (mmFormat_go _ hgood.2).trans ?_
  exact enqueueO_go hroom

theorem enters_mmg {o} (h : arrWord s (.mmg o) = some w) : Enters s (.mmg o) w := by
  cases h
  intro hgood hk hroom
  refine (mFirst_go _ hui rfl fun n hn => hk n ((gangOperand_tok _ _ _).trans hn)).trans ?_
  refine (gangCheck_go _ hgood.1).trans ?_
  refine (mmFormat_go _ hgood.2).trans ?_
  exact (gangWord_go hroom).trans (congrArg Host.Outcome.next (if_pos rfl).symm)

theorem enters_mmrot {z o} (h : arrWord s (.mmrot z o) = some w) : Enters s (.mmrot z o) w := by
  cases h
  intro hgood hk hroom
  obtain ⟨⟨hkind, hdesc⟩, hfmt⟩ := hgood
  exact (mFirst_go _ hui (beq_iff_eq.mpr hkind) hk).trans ((descCheck_go _ hdesc).trans ((mmFormat_go _ hfmt).trans (enqueueO_go hroom)))

theorem enters_macrd {t r sat o} (h : arrWord s (.macrd t r sat o) = some w) : Enters s (.macrd t r sat o) w := by
  cases h
  intro hgood hk hroom
  exact (mFirst_go _ hui rfl hk).trans ((descCheck_go _ hgood).trans (enqueueO_go hroom))

theorem enters_macwr {t o} (h : arrWord s (.macwr t o) = some w) : Enters s (.macwr t o) w := by
  cases h
  intro hgood hk hroom
  exact (mFirst_go _ hui rfl hk).trans ((descCheck_go _ hgood).trans (enqueueO_go hroom))

theorem enters_macclr {d rows} (h : arrWord s (.macclr d rows) = some w) : Enters s (.macclr d rows) w := by
  cases h
  intro hgood hk hroom
  exact (mFirst_go _ hui rfl hk).trans (enqueueO_go hroom)

theorem enters_mbank (h : arrWord s (.mbank) = some w) : Enters s (.mbank) w := by
  cases h
  intro hgood hk hroom
  exact (mFirst_go _ hui rfl hk).trans (enqueueO_go hroom)

theorem enters_splgclr (h : arrWord s (.splgclr) = some w) : Enters s (.splgclr) w := by
  cases h
  intro hgood hk hroom
  exact (mFirst_go _ hui rfl hk).trans (enqueueO_go hroom)

theorem enters_mmstat {clr d k} (h : arrWord s (.mmstat clr d k) = some w) : Enters s (.mmstat clr d k) w := by
  cases h
  intro hgood hk hroom
  exact (mFirst_go _ hui rfl hk).trans (enqueueO_go hroom)

theorem enters_splld {t back wide sc a b k} (h : arrWord s (.splld t back wide sc a b k) = some w) : Enters s (.splld t back wide sc a b k) w := by
  cases h
  intro hgood hk hroom
  exact (mFirst_go _ hui rfl hk).trans ((descCheck_go _ hgood.1).trans ((scaleCheck_go _ hgood.2).trans (enqueueO_go hroom)))

theorem enters_splev {o} (h : arrWord s (.splev o) = some w) : Enters s (.splev o) w := by
  cases h
  intro hgood hk hroom
  refine (mFirst_go _ hui rfl fun n hn => hk n ((operand_tok _ _ _).trans hn)).trans ?_
  refine (aopCheck_go _ hgood.1).trans ?_
  refine (splFormat_go _ hgood.2).trans ?_
  exact enqueueO_go hroom

theorem enters_splevG {o} (h : arrWord s (.splevG o) = some w) : Enters s (.splevG o) w := by
  cases h
  intro hgood hk hroom
  refine (mFirst_go _ hui rfl fun n hn => hk n ((gangOperand_tok _ _ _).trans hn)).trans ?_
  refine (gangCheck_go _ hgood.1).trans ?_
  refine (splFormat_go _ hgood.2).trans ?_
  exact (gangWord_go hroom).trans (congrArg Host.Outcome.next (if_pos rfl).symm)

theorem enters_splbd {z o} (h : arrWord s (.splbd z o) = some w) : Enters s (.splbd z o) w := by
  cases h
  intro hgood hk hroom
  refine (mFirst_go _ hui rfl hk).trans ?_
  refine (descCheck_go _ hgood.1).trans ?_
  refine (splFormat_go _ hgood.2).trans ?_
  exact enqueueO_go hroom

theorem enters_splgr {o} (h : arrWord s (.splgr o) = some w) : Enters s (.splgr o) w := by
  cases h
  intro hgood hk hroom
  simp only [spline, ite_self] at hgood hk hroom ⊢
  refine (mFirst_go _ hui rfl hk).trans ?_
  refine (descCheck_go _ hgood.1).trans ?_
  refine (splFormat_go _ hgood.2).trans ?_
  exact enqueueO_go hroom

theorem enters_splgrd {a b k rows} (h : arrWord s (.splgrd a b k rows) = some w) : Enters s (.splgrd a b k rows) w := by
  cases h
  intro hgood hk hroom
  exact (mFirst_go _ hui rfl hk).trans ((descCheck_go _ hgood).trans (enqueueO_go hroom))

theorem enters_grefine {k} (h : arrWord s (.grefine k) = some w) : Enters s (.grefine k) w := by
  cases h
  intro hgood hk hroom
  obtain ⟨hfmt, hg⟩ := hgood
  exact (mFirst_go _ hui rfl hk).trans ((splFormat_go _ hfmt).trans ((if_neg (Nat.not_le.mpr hroom)).trans
    ((guardT_go _ _ _ _ (decide_eq_true hg)).trans (enqueueO_go hroom))))

theorem enters_splst {clr d a k} (h : arrWord s (.splst clr d a k) = some w) : Enters s (.splst clr d a k) w := by
  cases h
  intro hgood hk hroom
  exact (mFirst_go _ hui rfl hk).trans ((guardT_go _ _ _ _ (beq_iff_eq.mpr hgood.1)).trans
    ((guardT_go _ _ _ _ (decide_eq_true hgood.2)).trans (enqueueO_go hroom)))

end Words

theorem arrWord_completes {s : State} {i : Instr} {w : ArrWord} (h : arrWord s i = some w) (hui : noUi s) : Enters s i w := by
  cases i
  case mwld => exact enters_mwld hui h
  case mm => exact enters_mm hui h
  case mmg => exact enters_mmg hui h
  case mmrot => exact enters_mmrot hui h
  case macrd => exact enters_macrd hui h
  case macwr => exact enters_macwr hui h
  case macclr => exact enters_macclr hui h
  case mbank => exact enters_mbank hui h
  case splgclr => exact enters_splgclr hui h
  case mmstat => exact enters_mmstat hui h
  case splld => exact enters_splld hui h
  case splev => exact enters_splev hui h
  case splevG => exact enters_splevG hui h
  case splbd => exact enters_splbd hui h
  case splgr => exact enters_splgr hui h
  case splgrd => exact enters_splgrd hui h
  case grefine => exact enters_grefine hui h
  case splst => exact enters_splst hui h
  all_goals cases h

/-! #### mfmt and knot -/

theorem knot_completes {s : State} (hui : noUi s) (a b : BitVec 6) (lo inv g mode : Nat)
    (ha : (s.sreg a).toNat = lo + 2 ^ 32 * inv) (hb : (s.sreg b).toNat = g + 256 * mode) (hlo : lo < 2 ^ 32)
    (hfin : lo / 2 ^ 23 % 256 ≠ 255) (hinv0 : 0 < inv) (hinv : inv < 255 * 2 ^ 23) (hg1 : 1 ≤ g) (hg : g ≤ 29) (hmode : mode ≤ 2) :
    exec (.knot a b) s = .next (s.schedAt s.here (s.T + 2)
      (.knotLand s.here (BitVec.ofNat 32 lo) (BitVec.ofNat 32 inv) (BitVec.ofNat 8 g) (BitVec.ofNat 8 mode))) := by
  have hxlo : (s.sreg a).toNat % 2 ^ 32 = lo := by omega
  have hxinv : (s.sreg a).toNat / 2 ^ 32 = inv := by omega
  have hyg : (s.sreg b).toNat % 256 = g := by omega
  have hymode : (s.sreg b).toNat / 256 % 256 = mode := by omega
  have hy0 : (s.sreg b).toNat / 65536 = 0 := by omega
  have hfin' : inv / 2 ^ 23 % 256 ≠ 255 := by omega
  simp only [exec, execKnot]
  rw [hxlo, hxinv, hyg, hymode, hy0, guardT_go _ _ _ _ (by rw [hui]; rfl), guardT_go]
  · rfl
  · simp only [Bool.and_eq_true, bne_iff_ne, decide_eq_true_eq, beq_iff_eq]
    exact ⟨⟨⟨⟨⟨⟨⟨hfin, hfin'⟩, by omega⟩, by omega⟩, hg1⟩, hg⟩, hmode⟩, trivial⟩

theorem mfmt_completes {s : State} (hui : noUi s) (t : Ty) :
    exec (.mfmt t) s = .next (s.updC fun c => { c with arr64 := { c.arr64 with aty := t } }) :=
  mFirst_go (k := none) _ hui rfl (by simp)

/-- Settles O28: an array word passes the checks of its kind, one after another, and enters its lane. -/
theorem arrayWords : Obligations.ArrayWords :=
  ⟨fun _ _ _ h hui => arrWord_completes h hui, fun _ hui => ⟨mfmt_completes hui, knot_completes hui⟩⟩

end Sys2Proof.Machine

/-! ### send, postrv and recv (R408 to R412) -/

namespace Sys2Proof.Machine

open Claim

/-! #### Posting a handle (R410) -/

/-- The search of the overflow area finds the first message that meets the criteria and leaves the others in their order. -/
theorem pick_append (hd : Handle) (m : Msg) (post : List Msg) (hm : meets hd.crit m = true) : ∀ pre : List Msg,
    (∀ x ∈ pre, meets hd.crit x = false) → State.post.pick hd (pre ++ m :: post) = some (m, pre ++ post)
  | [], _ => by rw [List.nil_append, State.post.pick, if_pos hm, List.nil_append]
  | x :: pre, hpre => by
    rw [List.cons_append, State.post.pick, if_neg (by rw [hpre x List.mem_cons_self]; exact Bool.false_ne_true),
      pick_append hd m post hm pre fun y hy => hpre y (List.mem_cons_of_mem _ hy)]
    rfl

theorem pick_none (hd : Handle) : ∀ pre : List Msg, (∀ x ∈ pre, meets hd.crit x = false) → State.post.pick hd pre = none
  | [], _ => rfl
  | x :: pre, hpre => by
    rw [State.post.pick, if_neg (by rw [hpre x List.mem_cons_self]; exact Bool.false_ne_true),
      pick_none hd pre fun y hy => hpre y (List.mem_cons_of_mem _ hy)]
    rfl

/-- What goes to a buffer changes the scratchpad's pending writes alone. -/
theorem fillBuf_frame (c : Ctx) (buf : Word) (m : Msg) (t per : Nat) :
    (c.fillBuf buf m t per).recvT = c.recvT ∧ (c.fillBuf buf m t per).ovf = c.ovf := by
  unfold Ctx.fillBuf
  exact List.foldlRecOn (motive := fun d : Ctx => d.recvT = c.recvT ∧ d.ovf = c.ovf) _ _ ⟨rfl, rfl⟩ fun d hd _ _ => hd

/-- A handle that is not free is what was set. -/
theorem handle_setHandle (c : Ctx) (h : Nat) (x : Handle) (hx : x.st ≠ .free) : (c.setHandle h x).handle h = x :=
  Tbl.get_set_same_ne _ _ _ _ fun he => hx (by rw [he])

/-- Offering held messages again is an event on the agenda. -/
theorem State.c_changed (s : State) (l : Loc) : (s.changed l).c = s.c := by
  unfold State.changed
  split <;> rfl

/-- The strand once a handle is posted, before the search. -/
def listed (c : Ctx) (h : Nat) (hd : Handle) : Ctx :=
  { c.setHandle h { hd with st := .posted, order := c.postSeq } with postSeq := c.postSeq + 1 }

theorem post_stays {s : State} {h : Nat} {hd : Handle} (hovf : ∀ x ∈ s.c.ovf, meets hd.crit x = false) :
    (s.post h hd).c = listed s.c h hd := by
  have hc : (s.updC fun c => listed c h hd).c = listed s.c h hd := s.c_updC _
  have hpick : State.post.pick hd (s.updC fun c => listed c h hd).c.ovf = none := by
    rw [hc]
    exact pick_none hd _ hovf
  unfold State.post
  rw [State.c_changed]
  change (match State.post.pick hd (s.updC fun c => listed c h hd).c.ovf with
    | some (m, r) => ((s.updC fun c => listed c h hd).updC fun c => { c with ovf := r }).takeMsg s.here h m true
    | none => s.updC fun c => listed c h hd).c = _
  rw [hpick]
  exact hc

theorem post_takes {s : State} {h : Nat} {hd : Handle} {pre post : List Msg} {m : Msg} (hpart : s.c.part.isSome)
    (hpre : ∀ x ∈ pre, meets hd.crit x = false) (hovf : s.c.ovf = pre ++ m :: post) (hm : meets hd.crit m = true) :
    ((s.post h hd).c.handle h).st = .landing ∧ ((s.post h hd).c.handle h).tag = m.tag ∧ (s.post h hd).c.ovf = pre ++ post := by
  let u := s.updC fun c => listed c h hd
  let v := u.updC fun c => { c with ovf := pre ++ post }
  have hu : u.c = listed s.c h hd := s.c_updC _
  have hv : v.c = { u.c with ovf := pre ++ post } := u.c_updC _
  have hvpart : v.c.part.isSome := by
    rw [hv, hu]
    exact hpart
  have hhere : v.here = s.here := (State.here_updC u _ rfl).trans (State.here_updC s _ rfl)
  have hpick : State.post.pick hd u.c.ovf = some (m, pre ++ post) := by
    rw [hu]
    exact (congrArg (State.post.pick hd) hovf).trans (pick_append hd m post hm pre hpre)
  have hpost : s.post h hd = (v.takeMsg v.here h m true).changed s.here := by
    unfold State.post
    change (match State.post.pick hd u.c.ovf with
      | some (m, r) => (u.updC fun c => { c with ovf := r }).takeMsg s.here h m true
      | none => u).changed s.here = _
    rw [hpick, hhere]
  let x : Handle := { (v.ctx v.here).handle h with st := .landing, len := m.len, src := msgSrc m, tag := m.tag }
  have hc : (s.post h hd).c = (v.c.setHandle h x).fillBuf ((v.ctx v.here).handle h).buf m ((v.ctx v.here).now v.tick + 2) 128 := by
    rw [hpost, State.c_changed]
    change (v.updCtx v.here fun c =>
      (c.setHandle h x).fillBuf ((v.ctx v.here).handle h).buf m ((v.ctx v.here).now v.tick + 2) 128).c = _
    rw [State.updCtx_here _ hvpart]
    exact State.c_updC _ _
  obtain ⟨hrecv, hovf'⟩ := fillBuf_frame (v.c.setHandle h x) ((v.ctx v.here).handle h).buf m ((v.ctx v.here).now v.tick + 2) 128
  have hhandle : (s.post h hd).c.handle h = x := by
    rw [hc, Ctx.handle, hrecv]
    exact handle_setHandle v.c h x nofun
  refine ⟨by rw [hhandle], by rw [hhandle], ?_⟩
  rw [hc, hovf']
  change v.c.ovf = _
  rw [hv]

/-! #### The words -/

theorem send_completes {s : State} {a b : Src} {cls : BitVec 2} {k : BitVec 3} (hkind : s.c.kind = .elastic)
    (hbuf : bufFits s (s.src b) 0) (hk : tokFree s k) (hdest : destOk s (s.src a)) :
    exec (.send cls k a b) s = .next ((((s.seen a).seen b).updC fun c => c.bind k.toNat).schedIn 1
      (.messageArrival (msgOf s cls k (s.src a) (s.src b)))) := by
  obtain ⟨h31, h30, hdev, hbox, hown⟩ := hdest
  have hill : ((s.src a).getLsbD 31 || (s.src a).getLsbD 30 || s.dv.cfg.sysdev ≤ destDev (s.src a) ||
      (destDev (s.src a) == s.dv.cfg.devno && s.harvested (destTile (s.src a)))) = false := by
    rw [h31, h30, decide_eq_false (Nat.not_le.mpr hdev)]
    by_cases ho : destDev (s.src a) = s.dv.cfg.devno
    · rw [(hown ho).1]
      exact Bool.and_false _
    · rw [beq_eq_false_iff_ne.mpr ho]
      rfl
  have hprot : ((destDev (s.src a) == s.dv.cfg.devno && destPart (s.src a) != s.here.part) ||
      !(s.region (s.part s.here.part).root).eff.inBox (destTile (s.src a))) = false := by
    rw [hbox]
    by_cases ho : destDev (s.src a) = s.dv.cfg.devno
    · rw [(hown ho).2]
      simp
    · rw [beq_eq_false_iff_ne.mpr ho]
      rfl
  refine (elastic_go _ _ hkind).trans ((freeTok_free _ _ _ hk).trans ?_)
  change bufCheck s (s.src b) (_ || _ || decide (s.dv.cfg.sysdev ≤ destDev (s.src a)) ||
    (destDev (s.src a) == s.dv.cfg.devno && s.harvested (destTile (s.src a))))
    ((destDev (s.src a) == s.dv.cfg.devno && destPart (s.src a) != s.here.part) ||
      !(s.region (s.part s.here.part).root).eff.inBox (destTile (s.src a))) 0 _ = _
  rw [hill, hprot, bufCheck_go _ _ _ _ hbuf]
  rfl

section Posting

variable {s : State} {a b : Src} {h : Nat} (hkind : s.c.kind = .elastic) (hbuf : bufFits s (s.src b) 0)
  (hfree : s.c.freeHandle = some h)
include hkind hbuf hfree

theorem postrv_completes (nt : Bool) (d : BitVec 6) :
    exec (.postrv nt none d a b) s = .next ((((s.seen a).seen b).post h
      { crit := s.src a, buf := s.src b, nt := nt, tok := none }).putS 1 d (BitVec.ofNat 64 h)) := by
  simp only [exec, execPostrv]
  rw [elastic_go _ _ hkind, bufCheck_go _ _ _ _ hbuf, hfree]
  rfl

theorem postrv_split_completes (nt : Bool) (k : BitVec 3) (d : BitVec 6) (hk : tokFree s k) :
    exec (.postrv nt (some k) d a b) s = .next (((((s.updC fun c => c.bind k.toNat).seen a).seen b).post h
      { crit := s.src a, buf := s.src b, nt := nt, tok := some k.toNat }).putS 1 d (BitVec.ofNat 64 h)) := by
  simp only [exec, execPostrv]
  rw [elastic_go _ _ hkind, freeTok_free _ _ _ hk, bufCheck_go _ _ _ _ hbuf, hfree]
  rfl

theorem recv_completes (d : BitVec 6) (hui : noUi s) (hnone : ∀ e ∈ s.c.recvT, e.2.hidden = false) :
    exec (.recv d a b) s = .next ((((s.seen a).seen b).post h
      { crit := s.src a, buf := s.src b, hidden := true, no := s.c.issueNo }).blockIn
        (.recv h d s.pcNow ((s.src a).getLsbD 30 || ((s.src a).extractLsb' 12 12).toNat != s.dv.cfg.devno))) := by
  have hfind : s.c.recvT.find? (fun e => e.2.hidden) = none :=
    List.find?_eq_none.mpr fun e he => by rw [hnone e he]; exact Bool.false_ne_true
  simp only [exec, execRecv]
  rw [elastic_go _ _ hkind, noHandler_go _ _ hui, hfind, bufCheck_go _ _ _ _ hbuf, hfree]
  rfl

end Posting

/-- Settles O29: the words past their checks, and what the search of the overflow area finds for a handle. -/
theorem sendAndReceive : Obligations.SendAndReceive := by
  refine ⟨fun s a b hkind hbuf => ⟨fun cls k hk hdest => send_completes hkind hbuf hk hdest, fun h hfree =>
    ⟨postrv_completes hkind hbuf hfree, fun nt k d hk => postrv_split_completes hkind hbuf hfree nt k d hk,
      recv_completes hkind hbuf hfree⟩⟩, fun s h hd pre post m _ hpre hpart =>
    ⟨fun hovf hm => post_takes hpart hpre hovf hm, fun hovf => ?_⟩⟩
  have hc : (s.post h hd).c = listed s.c h hd := post_stays (by rw [hovf]; exact hpre)
  rw [hc]
  refine ⟨?_, hovf⟩
  have hh : (listed s.c h hd).handle h = { hd with st := .posted, order := s.c.postSeq } := handle_setHandle _ _ _ nofun
  rw [hh]

end Sys2Proof.Machine

/-! ### tsend and its packet (R404 to R406, R478) -/

namespace Sys2Proof.Machine

open Claim

theorem tsend_completes (s : State) (c3 : Bool) (a b : Src) (lat : BitVec 18) :
    let r := (s.src a).toNat
    let tile := r / 2 ^ 24 % 4096
    let rt := s.route (s.c.orderOf (if c3 then 3 else 2)) s.me tile
    let run := ((s.seen a).seen b).timedRun c3 rt (bufLen (s.src b))
    s.c.kind = .exchange → bufFits s (s.src b) (r % 2 ^ 21) → r / 2 ^ 21 % 8 = 0 → r / 2 ^ 36 = 0 → s.harvested tile = false →
    (s.region s.c.region).eff.inBox tile = true → rt.bad = none →
    exec (.tsend c3 a b lat) s = .next (run.1.schedIn 1 (.timedPacketArrival
      { src := s.me, dst := tile, part := s.here.part, addr := bufAddr (s.src b), off := r % 2 ^ 21, len := bufLen (s.src b)
        bytes := [], pz := [], due := (s.c.tt s.tick + lat.toNat) % 2 ^ 32, head := run.2.1, land := run.2.2, stage := 0
        inj := s.tick + 1 })) := by
  intro r tile rt run hkind hbuf h21 h36 hharv hbox hroute
  have hill : (r / 2 ^ 21 % 8 != 0 || r / 2 ^ 36 != 0 || s.harvested tile) = false := by
    rw [h21, h36, hharv]
    rfl
  have hprot : (!(s.region s.c.region).eff.inBox tile) = false := by rw [hbox]; rfl
  refine (guardT_go _ _ _ _ (beq_iff_eq.mpr hkind)).trans ?_
  change bufCheck s (s.src b) (r / 2 ^ 21 % 8 != 0 || r / 2 ^ 36 != 0 || s.harvested tile)
    (!(s.region s.c.region).eff.inBox tile) (r % 2 ^ 21) (match rt.bad with
      | some t => ok (((s.seen a).seen b).schedIn 1 (.detourBlocked t s.here.part))
      | none => _) = _
  rw [hill, hprot, bufCheck_go _ _ _ _ hbuf, hroute]
  have htick : ((s.seen a).seen b).tick = s.tick := ((s.seen a).seen_frame b).1.trans (s.seen_frame a).1
  dsimp only
  rw [htick]
  rfl

section Packet

variable {s : State} {p : TPkt} (hlive : s.partLive p.part = true)
include hlive

theorem packetReads_completes (hstage : p.stage = 0) : let u := s.landAt ⟨p.src, p.part⟩
    exec (.timedPacketArrival p) s = .next (u.sched p.head (.timedPacketArrival
      { p with bytes := (u.ctx ⟨p.src, p.part⟩).sp.bytes p.addr p.len, pz := (u.ctx ⟨p.src, p.part⟩).poisonIn p.addr p.len
               stage := 1 })) := by
  simp only [exec, execTimedPacketArrival, hlive, hstage, Bool.not_true, Bool.false_eq_true, if_false]
  rfl

theorem packetHeader_completes (hstage : p.stage = 1) (hl : (s.ctx ⟨p.dst, p.part⟩).live = true)
    (hkind : (s.ctx ⟨p.dst, p.part⟩).kind = .exchange) :
    exec (.timedPacketArrival p) s = .next (s.sched p.land (.timedPacketArrival { p with stage := 2 })) := by
  simp only [exec, execTimedPacketArrival, hlive, hstage, hl, hkind, Bool.not_true, Bool.false_eq_true, if_false]
  rfl

theorem packetHeader_late (hstage : p.stage = 1)
    (hbad : (s.ctx ⟨p.dst, p.part⟩).live = false ∨ (s.ctx ⟨p.dst, p.part⟩).kind ≠ .exchange) :
    exec (.timedPacketArrival p) s =
      .next (s.lateTrap ⟨p.dst, p.part⟩ p.src 1 p.due ((s.ctx ⟨p.dst, p.part⟩).tt s.tick)) := by
  have hno : ¬ ((s.ctx ⟨p.dst, p.part⟩).live && (s.ctx ⟨p.dst, p.part⟩).kind == .exchange) = true := by
    rcases hbad with h | h <;> simp [h]
  simp only [exec, execTimedPacketArrival, hlive, hstage, Bool.not_true, Bool.false_eq_true, if_false]
  exact if_neg hno

theorem packetLands_completes (hstage : p.stage = 2) (hdue : (s.ctx ⟨p.dst, p.part⟩).tt s.tick ≤ p.due) :
    exec (.timedPacketArrival p) s = .next
      (s.engWrite ⟨p.dst, p.part⟩ 0 4 (addrBytes p.off p.bytes) (poisonAt p.off p.len p.pz)) := by
  simp only [exec, execTimedPacketArrival, hlive, hstage, Bool.not_true, Bool.false_eq_true, if_false]
  exact if_neg (Nat.not_lt.mpr hdue)

theorem packetLands_late (hstage : p.stage = 2) (hdue : p.due < (s.ctx ⟨p.dst, p.part⟩).tt s.tick) :
    exec (.timedPacketArrival p) s =
      .next (s.lateTrap ⟨p.dst, p.part⟩ p.src 0 p.due ((s.ctx ⟨p.dst, p.part⟩).tt s.tick)) := by
  simp only [exec, execTimedPacketArrival, hlive, hstage, Bool.not_true, Bool.false_eq_true, if_false]
  exact if_pos hdue

end Packet

/-- Settles O30: tsend past its checks, and its packet by its stage. -/
theorem timedSend : Obligations.TimedSend := by
  refine ⟨tsend_completes, fun s p hdead => ?_, fun s p hlive => ⟨packetReads_completes hlive, packetHeader_completes hlive,
    packetHeader_late hlive, packetLands_completes hlive, packetLands_late hlive⟩⟩
  exact if_pos (by rw [hdead]; rfl)

end Sys2Proof.Machine

/-! ### Trees (R417 to R422) -/

namespace Sys2Proof.Machine

open Claim

/-! #### reduce, allred, bcast and xbar -/

theorem treeCheck_go {s : State} {slot : BitVec 4} {tok : Option (BitVec 3)} (k : Out) (hfree : treeFree s slot)
    (htok : ∀ t, tok = some t → tokFree s t) : treeCheck s slot tok k = k := by
  obtain ⟨hmember, hroom⟩ := hfree
  have hgo : guardT s ((s.c.tree slot.toNat).up != 7) cIllegalOperand
      (if 4 ≤ ((s.c.treeList slot.toNat).filter (·.own)).length then ok s.stall else k) = k :=
    (guardT_go _ _ _ _ (bne_iff_ne.mpr hmember)).trans (if_neg (Nat.not_le.mpr hroom))
  cases tok with
  | none => exact hgo
  | some t => exact (freeTok_free _ _ _ (htok t rfl)).trans hgo

theorem treeWord_go {s : State} {w : TreeW} {kind : TreeKind} (hkind : s.c.kind = .elastic) (hfree : treeFree s w.slot)
    (hk : tokFree s w.k) (hready : treeReady s w kind) : treeWord s w kind = .next (treeNext s w kind) := by
  obtain ⟨hd, ha, hread, hflags, hwrite⟩ := hready
  have hreads : (if isBcast kind && !s.treeRoot w.slot.toNat then [] else [s.vnum w.a 1]) = treeReads s w kind := by
    simp [treeReads]
  unfold treeWord
  rw [elastic_go _ _ hkind, vcheck_go _ _ _ (by simp [hd, ha])]
  dsimp only
  rw [hreads, treeCheck_go _ hfree (by rintro _ ⟨⟩; exact hk), withV_go, fpCheck_go _ _ _ hflags]
  · rfl
  · exact hread
  · intro n hn
    by_cases hw : treeWrites s w kind = true
    · have hn' : s.vnum w.d 0 = n := by simpa [show (!isReduce kind || s.treeRoot w.slot.toNat) = true from hw] using hn
      rw [← hn']
      exact hwrite hw
    · have hw' : (!isReduce kind || s.treeRoot w.slot.toNat) = false := by simpa [treeWrites] using hw
      rw [if_neg (by rw [hw']; exact Bool.false_ne_true)] at hn
      cases hn

theorem xbar_completes {s : State} {slot : BitVec 4} (hkind : s.c.kind = .elastic) (hfree : treeFree s slot) (hui : noUi s) :
    exec (.xbar none slot) s = .next (treeIssue s slot.toNat { k := 0, tok := none, pc := s.pcNow } true) := by
  refine (elastic_go _ _ hkind).trans ((if_pos rfl).trans ((noHandler_go _ _ hui).trans ?_))
  exact treeCheck_go _ hfree nofun

theorem xbar_split_completes {s : State} {slot : BitVec 4} {k : BitVec 3} (hkind : s.c.kind = .elastic)
    (hfree : treeFree s slot) (hk : tokFree s k) :
    exec (.xbar (some k) slot) s = .next (treeIssue s slot.toNat { k := 0, tok := some k.toNat, pc := s.pcNow } false) := by
  refine (elastic_go _ _ hkind).trans ((if_neg Bool.false_ne_true).trans ?_)
  exact treeCheck_go _ hfree (by rintro _ ⟨⟩; exact hk)

/-! #### treecfg -/

theorem mem_kidPorts {kids : Nat} {d : Dir} (h : d ∈ kidPorts kids) : kids / 2 ^ portNo d % 2 = 1 := by
  simpa using (List.mem_filter.mp h).2

theorem portNo_portOf {n : Nat} (h : n < 6) : portNo (portOf n) = n := by
  revert n
  decide

theorem treecfg_completes (s : State) (slot : BitVec 4) (a : Src) (kids up : Nat) (ha : (s.src a).toNat = up + 256 * kids)
    (hkids : kids < 64) (hup : up < 8) (hnone : up = 7 → kids = 0) (hidle : ∀ o ∈ s.c.treeList slot.toNat, o.own = false)
    (hupkid : up < 6 → kids / 2 ^ up % 2 = 0)
    (hedge : ∀ d : Dir, (portNo d = up ∨ kids / 2 ^ portNo d % 2 = 1) →
      (s.region s.c.region).eff.inBox (neighbour s.me d) = true ∧ s.harvested (neighbour s.me d) = false)
    (hpeer : up = 6 → (Tbl.get 0 s.dv.ptree slot.toNat).getLsbD 63 = true →
      ptF (Tbl.get 0 s.dv.ptree slot.toNat) 1 12 = s.me) :
    exec (.treecfg slot a) s = .next ((s.seen a).updC fun c =>
      { c with trees := Tbl.set {} c.trees slot.toNat { kids := kids, up := up, n := (c.tree slot.toNat).n } }) := by
  have hvup : (s.src a).toNat % 8 = up := by omega
  have hvkids : (s.src a).toNat / 256 % 64 = kids := by omega
  have hmid : (s.src a).toNat / 8 % 32 = 0 := by omega
  have htop : (s.src a).toNat / 2 ^ 14 = 0 := by omega
  let bad (d : Dir) : Bool := !(s.region s.c.region).eff.inBox (neighbour s.me d) || s.harvested (neighbour s.me d)
  have hgood (d : Dir) (h : portNo d = up ∨ kids / 2 ^ portNo d % 2 = 1) : bad d = false := by
    obtain ⟨hbox, hharv⟩ := hedge d h
    simp [bad, hbox, hharv]
  have hparent : (up < 6 && (kids / 2 ^ up % 2 = 1 || bad (portOf up))) = false := by
    by_cases h6 : up < 6
    · rw [hupkid h6, hgood _ (.inl (portNo_portOf h6))]
      simp
    · simp [h6]
  have hchildren : (kidPorts kids).any bad = false :=
    List.any_eq_false.mpr fun d hd => by rw [hgood d (.inr (mem_kidPorts hd))]; exact Bool.false_ne_true
  have hseven : (up = 7 && kids != 0) = false := by
    by_cases h7 : up = 7
    · simp [hnone h7]
    · simp [h7]
  have hbusy : (s.c.treeList slot.toNat).any (·.own) = false :=
    List.any_eq_false.mpr fun o ho => by rw [hidle o ho]; exact Bool.false_ne_true
  have hroot : (up = 6 && (Tbl.get 0 s.dv.ptree slot.toNat).getLsbD 63 &&
      ptF (Tbl.get 0 s.dv.ptree slot.toNat) 1 12 != s.me) = false := by
    by_cases h6 : up = 6
    · cases h63 : (Tbl.get 0 s.dv.ptree slot.toNat).getLsbD 63
      · simp
      · rw [hpeer h6 h63]
        simp
    · simp [h6]
  change guardT s (!((s.src a).toNat / 8 % 32 != 0 || (s.src a).toNat / 2 ^ 14 != 0) &&
    !(((s.src a).toNat % 8 < 6 && ((s.src a).toNat / 256 % 64 / 2 ^ ((s.src a).toNat % 8) % 2 = 1 || bad (portOf ((s.src a).toNat % 8)))) ||
      (kidPorts ((s.src a).toNat / 256 % 64)).any bad) &&
    !((s.src a).toNat % 8 = 7 && (s.src a).toNat / 256 % 64 != 0) && !(s.c.treeList slot.toNat).any (·.own) &&
    !((s.src a).toNat % 8 = 6 && (Tbl.get 0 s.dv.ptree slot.toNat).getLsbD 63 &&
      ptF (Tbl.get 0 s.dv.ptree slot.toNat) 1 12 != s.me)) cIllegalOperand (.next ((s.seen a).updC fun c =>
      { c with
        trees := Tbl.set {} c.trees slot.toNat
          ⟨(s.src a).toNat / 256 % 64, (s.src a).toNat % 8, (c.tree slot.toNat).n⟩ })) = _
  rw [hvup, hvkids, hmid, htop]
  exact guardT_go _ _ _ _ (by rw [hparent, hchildren, hseven, hbusy, hroot]; rfl)

/-! #### What issuing a tree operation leaves (R418) -/

/-- The strand with an operation of a slot listed: its token bound, the member's count moved on. -/
def treeListed (c : Ctx) (slot : Nat) (o : TreeOpSt) (k : Nat) : Ctx :=
  let c := match o.tok with
    | some t => c.bind t
    | none => c
  let c := c.updTree slot k fun x =>
    { x with own := true, kind := o.kind, v := o.v, nf := o.nf, tok := o.tok, d := o.d, e := o.e, pc := o.pc }
  { c with trees := Tbl.set {} c.trees slot { c.tree slot with n := k + 1 } }

/-- The operation as it is listed. -/
def ownOp (o : TreeOpSt) (k : Nat) : TreeOpSt :=
  { o with k := k, own := true, kidsIn := [], peersIn := [], res := none, sent := false, dev := none }

theorem treeListed_tree (c : Ctx) (slot : Nat) (o : TreeOpSt) (k : Nat) :
    (treeListed c slot o k).tree slot = { c.tree slot with n := k + 1 } := by
  have hne : ({ c.tree slot with n := k + 1 } : TreeCfg) ≠ {} := fun h => Nat.succ_ne_zero k (congrArg TreeCfg.n h)
  unfold treeListed
  cases o.tok <;> exact Tbl.get_set_same_ne _ c.trees slot _ hne

theorem treeListed_part (c : Ctx) (slot : Nat) (o : TreeOpSt) (k : Nat) : (treeListed c slot o k).part = c.part := by
  unfold treeListed
  cases o.tok <;> rfl

theorem treeListed_tok (c : Ctx) (slot : Nat) (o : TreeOpSt) (k t : Nat) (h : o.tok = some t) :
    (treeListed c slot o k).tok t = .pending := by
  unfold treeListed
  rw [h]
  exact Ctx.tok_bind c t

/-- On a slot without an operation, it is the only one. -/
theorem treeListed_list {c : Ctx} {slot : Nat} (o : TreeOpSt) (k : Nat) (h : c.treeList slot = []) :
    (treeListed c slot o k).treeList slot = [ownOp o k] := by
  have hbind : (match o.tok with | some t => c.bind t | none => c).treeList slot = [] := by
    cases o.tok <;> exact h
  have hop : (treeListed c slot o k).treeList slot = Tbl.get [] (Tbl.set [] (match o.tok with | some t => c.bind t | none => c).treeOps
      slot [ownOp o k]) slot := by
    unfold treeListed
    simp only [Ctx.updTree, hbind]
    rfl
  rw [hop]
  exact Tbl.get_set_same_ne _ _ _ _ (List.cons_ne_nil _ _)

/-- An operation of a tile whose children have not contributed waits (R419). -/
theorem treeStep_waits {s : State} {l : Loc} {slot k : Nat} {o : TreeOpSt} (hop : (s.ctx l).treeOp slot k = some o)
    (hbcast : isBcast o.kind = false) (hkids : kidPorts ((s.ctx l).tree slot).kids ≠ []) (hnone : o.kidsIn = []) :
    s.treeStep l slot k = s := by
  have hall : ((kidPorts ((s.ctx l).tree slot).kids).all fun d => o.kidsIn.any fun x => x.1 == portNo d) = false := by
    rw [hnone]
    cases h : kidPorts ((s.ctx l).tree slot).kids with
    | nil => exact absurd h hkids
    | cons d ds => rfl
  unfold State.treeStep
  rw [hop]
  dsimp only
  rw [hbcast, if_neg Bool.false_ne_true, hall]
  exact if_pos (Bool.or_true _)

theorem treeIssue_leaves {s : State} {slot : Nat} {o : TreeOpSt} (hpart : s.c.part.isSome)
    (hkids : kidPorts (s.c.tree slot).kids ≠ []) (hbcast : isBcast o.kind = false) (hempty : s.c.treeList slot = []) :
    treeIssue s slot o false = s.updC fun c => treeListed c slot o (s.c.tree slot).n := by
  let u := s.updC fun c => treeListed c slot o (s.c.tree slot).n
  have hu : u.c = treeListed s.c slot o (s.c.tree slot).n := s.c_updC _
  have hpart' := treeListed_part s.c slot o (s.c.tree slot).n
  have hhere : u.here = s.here := State.here_updC s _ hpart'
  have hctx : u.ctx s.here = treeListed s.c slot o (s.c.tree slot).n := by
    rw [← hhere, State.ctx_here (by rw [hu, hpart']; exact hpart), hu]
  have hop : (u.ctx s.here).treeOp slot (s.c.tree slot).n = some (ownOp o (s.c.tree slot).n) := by
    rw [hctx, Ctx.treeOp, treeListed_list o _ hempty]
    exact List.find?_cons_of_pos (by simp [ownOp])
  have hstep : u.treeStep s.here slot (s.c.tree slot).n = u :=
    treeStep_waits hop hbcast (by rw [hctx, treeListed_tree]; exact hkids) rfl
  unfold treeIssue
  change (match o.kind with
    | .bcast _ => _
    | _ => u.treeStep s.here slot (s.c.tree slot).n) = u
  split
  next h => rw [h] at hbcast; cases hbcast
  next => exact hstep

/-- Settles O32: the tree words past their checks, and what a word lists where the tree does not take it further. -/
theorem treeWords : Obligations.TreeWords := by
  refine ⟨fun s => ⟨fun hkind => ⟨fun w hfree hk => ⟨fun _ => treeWord_go hkind hfree hk, fun _ => treeWord_go hkind hfree hk,
    treeWord_go hkind hfree hk⟩, fun slot hfree => ⟨xbar_completes hkind hfree, fun _ => xbar_split_completes hkind hfree⟩⟩,
    treecfg_completes s⟩, fun s slot o hpart hkids hbcast hempty => ?_⟩
  intro t
  have ht : t = s.updC fun c => treeListed c slot o (s.c.tree slot).n := treeIssue_leaves hpart hkids hbcast hempty
  have hc : t.c = treeListed s.c slot o (s.c.tree slot).n := by rw [ht, State.c_updC]
  rw [hc]
  exact ⟨by rw [treeListed_tree], fun k hk => treeListed_tok _ _ _ _ k hk, treeListed_list o _ hempty, by rw [ht]; rfl, by rw [ht]; rfl⟩

end Sys2Proof.Machine

/-! ### The C column and the stream words (R278 to R286, R332 to R343) -/

namespace Sys2Proof.Machine

open Claim

/-! #### The C column -/

theorem claunch_completes {s : State} {nt : Bool} {d : BitVec 6} {k : BitVec 3} {q : BitVec 2} (hok : copyOk s)
    (hk : tokFree s k) (hroom : ((s.c.queue q.toNat).filter Xfer.stands).length < 8) :
    let ctr := (s.core s.me).launchCtr
    let id := s.me * 65536 + ctr
    exec (.claunch nt d k q) s = .next (((((s.setCore s.me { s.core s.me with launchCtr := (ctr + 1) % 65536 }).updC fun c =>
        { (c.bind k.toNat).setQueue q.toNat (c.queue q.toNat ++ [
            { cp := s.c.cp, id := id, tok := k.toNat, nt := nt, region := s.c.region, seq := s.c.xferCtr
              order := s.c.orderOf 5, rorder := s.c.orderOf 1 }]) with
          xferCtr := c.xferCtr + 1 }).schedIn 1 (.copyTransferStart s.here q.toNat)).putS 1 d (BitVec.ofNat 64 id))) := by
  obtain ⟨hpriv, hlegal, hsa, hda, hsb, hdb, hss, hds⟩ := hok
  have hp : (!s.c.cp.affine || (s.part s.here.part).priv) = true := by
    cases ha : s.c.cp.affine
    · rfl
    · rw [hpriv ha]
      rfl
  refine (freeTok_free _ _ _ hk).trans ((guardT_go _ _ _ _ hp).trans ((guardT_go _ _ _ _ hlegal).trans ?_))
  refine (guardT_go _ _ _ _ (by rw [hsa, hda]; rfl)).trans ((guardT_go _ _ _ _ (by rw [hsb, hdb]; rfl)).trans ?_)
  exact (guardT_go _ _ _ _ (by rw [hss, hds]; rfl)).trans (if_neg (Nat.not_le.mpr hroom))

theorem cstat_completes {s : State} (d : BitVec 6) (a : Src) (hown : (s.src a).toNat / 65536 = s.me) :
    exec (.cstat d a) s = .next ((s.seen a).putS 2 d (BitVec.ofNat 64 (match s.c.findXfer (s.src a).toNat with
      | some x => x.2.landed * 2 ^ 32 + (if x.2.cancelled then 3 else if x.2.act then 2 else 1)
      | none => 0))) :=
  guardT_go _ _ _ _ (beq_iff_eq.mpr hown)

section Cancel

variable {s : State} {a : Src} (hown : (s.src a).toNat / 65536 = s.me)
include hown

theorem ccancel_none (hfind : s.c.findXfer (s.src a).toNat = none) : exec (.ccancel a) s = .next (s.seen a) := by
  simp only [exec, execCcancel]
  rw [guardT_go _ _ _ _ (beq_iff_eq.mpr hown), hfind]
  rfl

theorem ccancel_active {q : Nat} {x : Xfer} (hfind : s.c.findXfer (s.src a).toNat = some (q, x)) (hact : x.act = true)
    (hlive : x.cancelled = false) : exec (.ccancel a) s =
      if x.out = 0 then .next (((s.seen a).updC fun c =>
          c.updHead q fun x => { x with cancelled := true, next := x.read, pend := none }).copyDone s.here q)
      else .next ((s.seen a).updC fun c => c.updHead q fun x => { x with cancelled := true, next := x.read, pend := none }) := by
  simp only [exec, execCcancel]
  rw [guardT_go _ _ _ _ (beq_iff_eq.mpr hown), hfind]
  dsimp only
  rw [if_pos hact, if_neg (by rw [hlive]; exact Bool.false_ne_true)]
  rfl

theorem ccancel_queued {q : Nat} {x : Xfer} (hfind : s.c.findXfer (s.src a).toNat = some (q, x)) (hact : x.act = false) :
    exec (.ccancel a) s = .next (((((s.seen a).updC fun c =>
      c.setQueue q (((c.queue q).filter fun y => y.seq != x.seq).map fun y =>
        if x.seq < y.seq then { y with gate := s.tick + 2 } else y)).tokDone s.here x.tok (s.T + 1)).schedIn 2
        (.copyTransferStart s.here q))) := by
  simp only [exec, execCcancel]
  rw [guardT_go _ _ _ _ (beq_iff_eq.mpr hown), hfind]
  dsimp only
  rw [if_neg (by rw [hact]; exact Bool.false_ne_true)]
  rfl

end Cancel

/-- Settles O33: the words of the C column past their checks. -/
theorem copyWords : Obligations.CopyWords := by
  refine ⟨fun s nt d k q => claunch_completes, fun s => ⟨fun _ _ => rfl, fun _ _ => rfl, cstat_completes, fun a hown =>
    ⟨ccancel_none hown, fun q x hfind hact hlive hout => ?_, fun q x hfind hact hlive hout => ?_, fun q x =>
      ccancel_queued hown⟩, fun mask => ?_⟩⟩
  · exact (ccancel_active hown hfind hact hlive).trans (if_neg hout)
  · exact (ccancel_active hown hfind hact hlive).trans (if_pos hout)
  · intro n
    exact ⟨fun hn => if_pos hn, fun hn => if_neg (by omega)⟩

/-! #### The stream words -/

/-- A word that names a slot goes on with it. -/
theorem slotWord_go {s : State} {v : BitVec 3} {pos n : Nat} (k : Nat → Out) (h : slotAt s v pos n) :
    slotWord s v pos k = k n := by
  obtain ⟨hwin, rfl, hn⟩ := h
  exact (vcheck_one s _ _ _ hwin).trans (guardT_go _ _ _ _ (decide_eq_true hn))

theorem scfg_completes {s : State} {v : BitVec 3} {n : Nat} (hslot : slotAt s v 0 n) (a : Src) (ad : Nat)
    (had : (s.src a).toNat = ad) (hal : ad % 64 = 0) (hfit : ad + 64 ≤ s.c.share) (hfree : s.c.bound n = false)
    (hlegal : slotLegal (fun i => s.c.sp.nat (ad + i) 8) = true)
    (haligned : (slotOf fun i => s.c.sp.nat (ad + i) 8).aligned = true)
    (hshare : (slotOf fun i => s.c.sp.nat (ad + i) 8).inShare s.c.share = true) :
    exec (.scfg v a) s = .next ((s.seen a).updC fun c => c.setSlot n (slotOf fun i => s.c.sp.nat (ad + i) 8)) := by
  subst had
  simp only [exec, execScfg]
  rw [slotWord_go _ hslot]
  refine (guardT_go _ _ _ _ (beq_iff_eq.mpr hal)).trans ?_
  refine (guardT_go _ _ _ _ (decide_eq_true hfit)).trans ((guardT_go _ _ _ _ (by rw [hfree, hlegal]; rfl)).trans ?_)
  exact (guardT_go _ _ _ _ haligned).trans (guardT_go _ _ _ _ hshare)

theorem sunbind_completes {s : State} {v : BitVec 3} {n : Nat} (hslot : slotAt s v 0 n) : exec (.sunbind v) s =
    if (s.c.slot n).st = .bound then
      if (s.c.slot n).dir then .next (s.updC fun c => c.updSlot n fun x => { x with st := .ready })
      else .next ((s.dropFetches s.here n).updC fun c => c.updSlot n fun x =>
        { x with st := .ready, buf := [], fly := [], moved := x.pos })
    else .next s := by
  simp only [exec, execSunbind]
  rw [slotWord_go _ hslot]
  by_cases hst : (s.c.slot n).st = .bound
  · rw [if_pos hst]
    exact if_pos (beq_iff_eq.mpr hst)
  · rw [if_neg hst]
    exact if_neg (by simpa using hst)

theorem sstat_completes {s : State} {v : BitVec 3} {n : Nat} (hslot : slotAt s v 1 n) (d : BitVec 6) :
    exec (.sstat d v) s = .next (s.putS 1 d (BitVec.ofNat 64 ((s.c.slot n).st.code +
      (if (s.c.slot n).dir then 8 + 16 * min (s.c.unlanded n) 8 else 16 * min (s.c.slot n).buf.length 8) +
      2 ^ 32 * (s.c.slot n).pos))) := by
  simp only [exec, execSstat]
  rw [slotWord_go _ hslot]
  cases (s.c.slot n).dir with
  | true => simp only [if_true, Nat.add_assoc]; rfl
  | false => simp only [Bool.false_eq_true, if_false, Nat.add_zero]; rfl

/-- A drain binds its token, and ends at once on a slot that is DONE. -/
theorem drainWord_go {s : State} {k v : BitVec 3} {n : Nat} {out : Bool} (go : State → Nat → Out) (hslot : slotAt s v 1 n)
    (hk : tokFree s k) (hst : (s.c.slot n).st ≠ .unconf) (hdir : (s.c.slot n).dir = out) : drainWord s k v out go =
      if (s.c.slot n).st = .done then .next ((s.updC fun c => c.bind k.toNat).tokDone s.here k.toNat s.T)
      else go (s.updC fun c => c.bind k.toNat) n := by
  have hhere : (s.updC fun c => c.bind k.toNat).here = s.here := State.here_updC s _ rfl
  refine (slotWord_go _ hslot).trans ((freeTok_free _ _ _ hk).trans ((guardT_go _ _ _ _ (by simp [hst, hdir])).trans ?_))
  by_cases hdone : (s.c.slot n).st = .done
  · rw [if_pos hdone]
    exact if_pos (beq_iff_eq.mpr hdone)
  · rw [if_neg hdone]
    exact if_neg (by simpa using hdone)

/-- The latest of the values of the elements that a test picks, and of a first one. -/
def latest {α : Type} (p : α → Bool) (f : α → Nat) (t : Nat) (xs : List α) : Nat :=
  xs.foldl (fun m e => if p e then max m (f e) else m) t

theorem latest_spec {α : Type} (p : α → Bool) (f : α → Nat) (xs : List α) : ∀ t : Nat,
    t ≤ latest p f t xs ∧ (∀ e ∈ xs, p e = true → f e ≤ latest p f t xs) ∧
      (latest p f t xs = t ∨ ∃ e ∈ xs, p e = true ∧ latest p f t xs = f e) := by
  induction xs with
  | nil => exact fun t => ⟨Nat.le_refl t, nofun, .inl rfl⟩
  | cons x xs ih =>
    intro t
    have hcons : latest p f t (x :: xs) = latest p f (if p x then max t (f x) else t) xs := rfl
    obtain ⟨hle, hall, hex⟩ := ih (if p x then max t (f x) else t)
    rw [hcons]
    by_cases hx : p x = true
    · rw [if_pos hx] at hle hall hex ⊢
      refine ⟨by omega, ?_, ?_⟩
      · rintro e (_ | ⟨_, he⟩) hp
        · omega
        · exact hall e he hp
      · rcases hex with h | ⟨e, he, hp, h⟩
        · rcases Nat.le_total (f x) t with htx | htx
          · exact .inl (by omega)
          · exact .inr ⟨x, List.mem_cons_self, hx, by omega⟩
        · exact .inr ⟨e, List.mem_cons_of_mem _ he, hp, h⟩
    · rw [if_neg hx] at hle hall hex ⊢
      refine ⟨hle, ?_, ?_⟩
      · rintro e (_ | ⟨_, he⟩) hp
        · exact absurd hp hx
        · exact hall e he hp
      · rcases hex with h | ⟨e, he, hp, h⟩
        · exact .inl h
        · exact .inr ⟨e, List.mem_cons_of_mem _ he, hp, h⟩

section Drain

variable {s : State} {k v : BitVec 3} {n : Nat} (hslot : slotAt s v 1 n) (hk : tokFree s k)
include hslot hk

theorem drain_done (hst : (s.c.slot n).st = .done) :
    ((s.c.slot n).dir = false →
      exec (.sdrain k v) s = .next ((s.updC fun c => c.bind k.toNat).tokDone s.here k.toNat s.T)) ∧
    ((s.c.slot n).dir = true →
      exec (.sdrainOut k v) s = .next ((s.updC fun c => c.bind k.toNat).tokDone s.here k.toNat s.T)) := by
  have hne : (s.c.slot n).st ≠ .unconf := by rw [hst]; exact nofun
  simp only [exec, execSdrain, execSdrainOut]
  exact ⟨fun hdir => (drainWord_go _ hslot hk hne hdir).trans (if_pos hst),
    fun hdir => (drainWord_go _ hslot hk hne hdir).trans (if_pos hst)⟩

variable (hst : (s.c.slot n).st = .ready ∨ (s.c.slot n).st = .bound)
include hst

theorem sdrain_completes (hdir : (s.c.slot n).dir = false) : ∃ x : Nat,
    exec (.sdrain k v) s = .next ((((s.updC fun c => c.bind k.toNat).dropFetches s.here n).updC fun c => c.updSlot n fun x =>
      { x with st := .done, buf := [], fly := [] }).tokDone s.here k.toNat x) ∧
    (∀ e ∈ s.agenda, e.2 = .streamVectorReady s.here n → s.T + (e.1 - s.tick) + 1 ≤ x) ∧
    (x = s.T ∨ ∃ e ∈ s.agenda, e.2 = .streamVectorReady s.here n ∧ x = s.T + (e.1 - s.tick) + 1) := by
  have hne : (s.c.slot n).st ≠ .unconf := by rcases hst with h | h <;> rw [h] <;> exact nofun
  have hndone : (s.c.slot n).st ≠ .done := by rcases hst with h | h <;> rw [h] <;> exact nofun
  obtain ⟨-, hall, hex⟩ := latest_spec (fun e : Nat × Ev => e.2 == .streamVectorReady s.here n)
    (fun e => s.T + (e.1 - s.tick) + 1) s.agenda s.T
  refine ⟨latest (fun e : Nat × Ev => e.2 == .streamVectorReady s.here n) (fun e => s.T + (e.1 - s.tick) + 1) s.T s.agenda,
    ?_, ?_, ?_⟩
  · simp only [exec, execSdrain]
    exact (drainWord_go _ hslot hk hne hdir).trans (if_neg hndone)
  · exact fun e he hev => hall e he (beq_iff_eq.mpr hev)
  · rcases hex with h | ⟨e, he, hev, h⟩
    · exact .inl h
    · exact .inr ⟨e, he, beq_iff_eq.mp hev, h⟩

theorem sdrainOut_completes (hdir : (s.c.slot n).dir = true) : exec (.sdrainOut k v) s =
    if s.c.unlanded n = 0 then
      .next (((s.updC fun c => c.bind k.toNat).updC fun c => c.updSlot n fun x => { x with st := .done }).tokDone s.here k.toNat s.T)
    else .next ((s.updC fun c => c.bind k.toNat).updC fun c => { c with pushes := drainPush n k.toNat c.pushes }) := by
  have hne : (s.c.slot n).st ≠ .unconf := by rcases hst with h | h <;> rw [h] <;> exact nofun
  have hndone : (s.c.slot n).st ≠ .done := by rcases hst with h | h <;> rw [h] <;> exact nofun
  simp only [exec, execSdrainOut]
  exact ((drainWord_go _ hslot hk hne hdir).trans (if_neg hndone)).trans rfl

end Drain

/-- Settles O34: a stream word names its slot, and does what the slot's state and direction admit. -/
theorem streamWords : Obligations.StreamWords := by
  intro s v n
  refine ⟨fun hslot => ⟨scfg_completes hslot, fun hst => ?bind, fun hst => ?idle, fun hst hdir => ?input, fun hst hdir => ?output⟩,
    fun hslot => ⟨sstat_completes hslot, fun k hk hst => drain_done hslot hk hst, fun k hk hst =>
      ⟨sdrain_completes hslot hk hst, fun hdir hland => ?landed, fun hdir hland => ?waits⟩⟩⟩
  case bind =>
    simp only [exec, execSbind]
    rw [slotWord_go _ hslot]
    exact guardT_go _ _ _ _ (beq_iff_eq.mpr hst)
  case idle => exact (sunbind_completes hslot).trans (if_neg hst)
  case input =>
    exact (sunbind_completes hslot).trans ((if_pos hst).trans (if_neg (by rw [hdir]; exact Bool.false_ne_true)))
  case output => exact (sunbind_completes hslot).trans ((if_pos hst).trans (if_pos hdir))
  case landed => exact (sdrainOut_completes hslot hk hst hdir).trans (if_pos hland)
  case waits => exact (sdrainOut_completes hslot hk hst hdir).trans (if_neg hland)

end Sys2Proof.Machine

/-! ### Forwarded words, reissues and the start of a handler (R123, R125, R168, R169, R463, R464) -/

namespace Sys2Proof.Machine

open Claim

/-! #### Forwarded words -/

section Forwarded

variable {s : State} {l : Loc} {w : Fwd}

theorem forwarded_joined {b : Bool} (hfol : (s.ctx l).fol.cur.isSome) (hlive : (s.ctx l).live = true) (hj : w.joined = some b) :
    exec (.forwardedWordIssue l w) s = .next
      ((s.updCtx l fun c => { c with fol := { c.fol with joined := c.fol.joined ++ [b] } }).joinSettle l) := by
  simp only [exec, execForwardedWordIssue, hfol, hlive, hj, Bool.and_self, if_true]
  rfl

theorem forwarded_loose (h : (s.ctx l).fol.cur = none ∨ (s.ctx l).live = false) :
    exec (.forwardedWordIssue l w) s = .next s := by
  have hno : ¬ ((s.ctx l).fol.cur.isSome && (s.ctx l).live) = true := by
    rcases h with h | h <;> simp [h]
  exact if_neg hno

theorem forwarded_enters {x : Inst} (hfol : (s.ctx l).fol.cur.isSome) (hlive : (s.ctx l).live = true) (hj : w.joined = none)
    (hx : decode w.bits = some x) : exec (.forwardedWordIssue l w) s = .next (s.updCtx l fun c =>
      { c with q := insEnt (fwdEnt (s.ctx l) w x ((s.ctx l).now s.tick)) c.q, seq := c.seq + 1, prev := .pending }) := by
  simp only [exec, execForwardedWordIssue, hfol, hlive, hj, hx, Bool.and_self, if_true]
  rfl

end Forwarded

/-! #### The sequencer of rep -/

section Sequencer

variable {s : State} {l : Loc} {rid : Nat} {r : Rep} (hrep : ((s.ctx l).reps.find? fun r => r.rid == rid) = some r)
include hrep

theorem repReissue_completes (hui : (s.ctx l).ui.inh = false) :
    let u := s.updCtx l fun c =>
      { c.setRep { r with j := r.j + 1 } with q := (reissues r).foldl (fun q e => insEnt e q) c.q }
    exec (.repReissue l rid) s = .next
      (if r.j + 1 < r.count then u.schedAt l (r.firstT + (r.j + 1 + 1) * r.period + r.slip) (.repReissue l rid) else u) := by
  intro u
  have hrid : r.rid = rid := beq_iff_eq.mp (List.find?_some (p := fun x : Rep => x.rid == rid) hrep)
  subst hrid
  simp only [exec, execRepReissue, hrep, hui, Bool.false_eq_true, if_false]
  rw [apply_ite Host.Outcome.next]
  rfl

theorem repReissue_waits (hui : (s.ctx l).ui.inh = true) : exec (.repReissue l rid) s = .next
    ((s.updCtx l fun c => c.setRep { r with slip := r.slip + 1 }).schedIn 1 (.repReissue l rid)) := by
  simp only [exec, execRepReissue, hrep, hui, if_true]
  rfl

end Sequencer

/-! #### The start of a handler -/

/-- The strand as its handler begins. -/
def inHandler (c : Ctx) (ev : Nat × Nat) (n : Nat) : Ctx :=
  let c := { c with ui := { c.ui.take ev.1 with going := none, inh := true, ret := c.pc } }
  let c := (c.put (.s 65 (BitVec.ofNat 64 ev.1))).put (.s 66 (BitVec.ofNat 64 ev.2))
  c.refetch c.ui.entry n

theorem uiDelivery_completes {s : State} {l : Loc} {ev : Nat × Nat} (hgoing : (s.ctx l).ui.going = some ev)
    (hrun : (s.ctx l).running = true) (hq : (s.ctx l).q = []) (hkind : (s.ctx l).kind = .elastic)
    (hblock : (s.ctx l).block = .none) :
    exec (.uiDelivery l) s = .next (s.updCtx l fun c => inHandler c ev (c.now s.tick)) := by
  have hawaits : (s.ctx l).awaits = false := by rw [Ctx.awaits, hblock]
  simp only [exec, execUiDelivery, hgoing]
  exact if_pos (by rw [hrun, hq, hawaits, hkind, hblock]; rfl)

/-- What the handler finds: the event taken from its store, its code and payload, and the interrupted index. -/
theorem inHandler_ui (c : Ctx) (ev : Nat × Nat) (n : Nat) : (inHandler c ev n).ui =
    { c.ui.take ev.1 with
      going := none
      inh := true
      ret := c.pc
      hs := Tbl.set 0 (Tbl.set 0 (c.ui.take ev.1).hs 1 (BitVec.ofNat 64 ev.1)) 2 (BitVec.ofNat 64 ev.2) } := rfl

/-- It fetches from its entry, and the strand's own registers are as they were. -/
theorem inHandler_frame (c : Ctx) (ev : Nat × Nat) (n : Nat) : (inHandler c ev n).pc = (c.ui.take ev.1).entry ∧
    (inHandler c ev n).fstop = .run ∧ (inHandler c ev n).fetchAt = n + 3 ∧ (inHandler c ev n).s = c.s ∧
      (inHandler c ev n).p = c.p ∧ (inHandler c ev n).part = c.part := by
  simp [inHandler, Ctx.put, Ctx.refetch]

theorem ui_take_hs (u : UI) (code : Nat) : (u.take code).hs = u.hs ∧ (u.take code).entry = u.entry := by
  unfold UI.take
  repeat' split
  all_goals exact ⟨rfl, rfl⟩

/-- The event's code and payload stand in the shadow registers (R464). -/
theorem inHandler_sreg {c : Ctx} (ev : Nat × Nat) (n : Nat) (hwf : Tbl.wf 0 c.ui.hs = true) :
    (inHandler c ev n).sreg 1 = BitVec.ofNat 64 ev.1 ∧ (inHandler c ev n).sreg 2 = BitVec.ofNat 64 ev.2 := by
  have hhs : (inHandler c ev n).ui.hs = Tbl.set 0 (Tbl.set 0 c.ui.hs 1 (BitVec.ofNat 64 ev.1)) 2 (BitVec.ofNat 64 ev.2) := by
    rw [inHandler_ui, (ui_take_hs c.ui ev.1).1]
  have hwf' := Tbl.set_wf 0 c.ui.hs 1 (BitVec.ofNat 64 ev.1) hwf
  have hsreg (m : Nat) (hm : m ≠ 0) : (inHandler c ev n).sreg m = Tbl.get 0 (inHandler c ev n).ui.hs m :=
    (if_neg hm).trans (if_pos (by rw [inHandler_ui]))
  rw [hsreg 1 (by decide), hsreg 2 (by decide), hhs]
  refine ⟨?_, Tbl.get_set_same _ _ _ _ hwf'⟩
  rw [Tbl.get_set_other _ _ _ _ _ hwf' (by decide), Tbl.get_set_same _ _ _ _ hwf]

/-- Settles O35: a forwarded word, a reissue and a delivery, each by the strand's state. -/
theorem issueEvents : Obligations.IssueEvents := by
  refine fun s l => ⟨fun _ _ => forwarded_joined, fun _ => forwarded_loose, fun _ _ => forwarded_enters, fun _ _ =>
    repReissue_completes, fun _ _ => repReissue_waits, ?_⟩
  intro code pay hfg hgoing hrun hq hkind hblock hwf
  let t := s.updCtx l fun c => inHandler c (code, pay) (c.now s.tick)
  obtain ⟨hpc, hstop, hfetch, hs, hp, hpart⟩ := inHandler_frame (s.ctx l) (code, pay) ((s.ctx l).now s.tick)
  have hc : t.ctx l = inHandler (s.ctx l) (code, pay) ((s.ctx l).now s.tick) :=
    s.ctx_updCtx l (fun c => inHandler c (code, pay) (c.now s.tick)) hfg (hpart.trans (s.part_ctx l hfg))
  obtain ⟨hs1, hs2⟩ := inHandler_sreg (code, pay) ((s.ctx l).now s.tick) hwf
  refine ⟨t, uiDelivery_completes hgoing hrun hq hkind hblock, ?_⟩
  rw [hc, hpc, hstop, hfetch, hs, hp, hs1, hs2, inHandler_ui]
  exact ⟨rfl, rfl, rfl, (ui_take_hs (s.ctx l).ui code).2, rfl, rfl, rfl, rfl, rfl, rfl, rfl, State.updCtx_mem s l _⟩

end Sys2Proof.Machine

/-! ### Boundary and barrier releases (R148 to R152, R164) -/

namespace Sys2Proof.Machine

open Claim

/-! #### The strand at a place, across what is raised, polled and completed -/

theorem raiseHalt_same (s : State) (p : Nat) (cause : Nat × Nat × Nat × Nat) :
    (s.raiseHalt p cause).cores = s.cores ∧ (s.raiseHalt p cause).mem = s.mem := by
  unfold State.raiseHalt
  dsimp only
  split <;> exact ⟨rfl, rfl⟩

/-- A trap of a strand whose clock runs lists its record (R446). -/
theorem raiseTrap_ctx {s : State} {l : Loc} (r : StopRec) (hfg : s.inFg l = true) (hrun : (s.ctx l).frozen = none) :
    (s.raiseTrap l r).ctx l = { s.ctx l with stops := (s.ctx l).stops ++ [r] } := by
  rw [s.raiseTrap_of_unfrozen l r hrun, State.ctx_congr _ _ _ (raiseHalt_same _ _ _).1]
  exact s.ctx_updCtx l _ hfg (s.part_ctx l hfg)

/-- A completed token stands in the context. -/
theorem tokDone_ctx {s : State} {l : Loc} (k x : Nat) (hfg : s.inFg l = true) :
    (s.tokDone l k x).ctx l = (s.ctx l).complete k x := by
  have hu : (s.updCtx l fun c => c.complete k x).ctx l = (s.ctx l).complete k x := s.ctx_updCtx l _ hfg (s.part_ctx l hfg)
  unfold State.tokDone
  dsimp only
  split
  · split <;> exact hu
  · exact hu
  · split <;> exact hu

theorem Ctx.tok_complete (c : Ctx) (k x : Nat) : (c.complete k x).tok k = .done x := Tbl.get_set_same_ne _ _ _ _ nofun

/-- A poll leaves the strand as it is or turns it to its handler. -/
theorem uiPoll_ctx {s : State} {l : Loc} (hfg : s.inFg l = true) : (s.uiPoll l).ctx l = s.ctx l ∨
    ∃ ev, (s.ctx l).ui.next = some ev ∧ (s.uiPoll l).ctx l = (s.ctx l).toHandler ev ((s.ctx l).now s.tick) := by
  rcases s.uiPoll_cases l with h | h | ⟨ev, ag, -, hnext, -, h⟩
  · exact .inl (by rw [h])
  · exact .inl (by rw [h]; rfl)
  · refine .inr ⟨ev, hnext, ?_⟩
    rw [h]
    change (s.updCtx l fun c => c.toHandler ev (c.now s.tick)).ctx l = _
    exact s.ctx_updCtx l _ hfg (((s.ctx l).toHandler_frame ev _).1.trans (s.part_ctx l hfg))

/-- With no event enabled none is next. -/
theorem ui_next_disabled {u : UI} (h : u.en = 0) : u.next = none := by
  have hbit (i : Nat) : u.en.getLsbD i = false := by rw [h]; simp
  have harr : UI.next.arr u = none := by
    unfold UI.next.arr
    rw [hbit]
    split <;> rfl
  have hrest : UI.next.rest u = none := by
    unfold UI.next.rest
    simp only [hbit, Bool.and_false, Bool.false_eq_true, if_false, harr]
    split <;> rfl
  unfold UI.next
  simp only [hbit, Bool.false_eq_true, if_false, hrest]
  split <;> rfl

/-! #### Sets that pass, and sets that may not -/

theorem mayRelease_followPcBad {s : State} {r : Nat} {sc : Scope} {inst : Nat}
    (h : ∃ l ∈ s.members r sc inst, s.followPcBad l = true) : s.mayRelease false r sc inst = false := by
  have hany : (s.members r sc inst).any s.followPcBad = true := List.any_eq_true.mpr h
  unfold State.mayRelease
  simp [hany]

/-- An arrival that is taken back: the word stands in its queue again, and its trap is listed (R164, R450). -/
theorem phaseBack_ctx {s : State} {l : Loc} {a : Arr} {e : QEnt} (hfg : s.inFg l = true) (hrun : (s.ctx l).frozen = none)
    (harr : (s.ctx l).arr = some a) (hent : a.ent = some e) (hown : e.fwd = false) :
    ∃ r, (s.phaseBack l).ctx l = { s.ctx l with
      arr := none, block := .none, stopped := true
      q := insEnt { e with fixed := some ((s.ctx l).now s.tick) } (s.ctx l).q
      stops := (s.ctx l).stops ++ [r] } ∧
      r.code = 0x07 ∧ r.prec = true ∧ r.pc = a.pc % 2 ^ 14 ∧ r.word = e.bits.toNat := by
  let back (c : Ctx) : Ctx := { c with arr := none, block := .none, q := insEnt { e with fixed := some (c.now s.tick) } c.q }
  let stop (c : Ctx) : Ctx := { c with stopped := true }
  let u := s.updCtx l back
  let v := u.updCtx l stop
  let r := u.mkStop l 0 cFollowDiverge true a.pc e.bits.toNat 0 0
  have hfgu : u.inFg l = true := s.inFg_updCtx l back hfg (s.part_ctx l hfg)
  have hu : u.ctx l = back (s.ctx l) := s.ctx_updCtx l back hfg (s.part_ctx l hfg)
  have hfgv : v.inFg l = true := u.inFg_updCtx l stop hfgu (u.part_ctx l hfgu)
  have hv : v.ctx l = stop (back (s.ctx l)) := by rw [← hu]; exact u.ctx_updCtx l stop hfgu (u.part_ctx l hfgu)
  have hback : s.phaseBack l = v.raiseTrap l r := by
    unfold State.phaseBack
    rw [harr]
    simp only [hent, if_neg (show ¬ e.fwd = true by rw [hown]; exact Bool.false_ne_true)]
    rfl
  refine ⟨r, ?_, rfl, rfl, rfl, rfl⟩
  rw [hback, raiseTrap_ctx r hfgv (by rw [hv]; exact hrun), hv]

/-- The strand as it passes a boundary: a phase of the kind that it named begins (R139, R149). -/
def passed (a : Arr) (hops tick : Nat) (c : Ctx) : Ctx :=
  let reset (p : Prev) : Prev := match p with
    | .pending => .pending
    | .none | .at .. => .none
  { c with
    kind := a.kind, ph0 := c.now tick + 3 * hops, base := [], loose := false, arr := none, block := .none
    q := c.q.map fun e => { e with prev := reset e.prev }, prev := reset c.prev
    fol := { c.fol with lag := 0 } }

/-- In a partition that is not privileged and with no event enabled it does nothing else. -/
theorem passBoundary_ctx {s : State} {l : Loc} (a : Arr) (hfg : s.inFg l = true) (hpriv : (s.part l.part).priv = false)
    (hen : (s.ctx l).ui.en = 0) : (s.passBoundary l a).ctx l = passed a (s.ctx l).fol.hops s.tick (s.ctx l) := by
  let u := s.updCtx l (passed a (s.ctx l).fol.hops s.tick)
  have hfgu : u.inFg l = true := s.inFg_updCtx l _ hfg (s.part_ctx l hfg)
  have hu : u.ctx l = passed a (s.ctx l).fol.hops s.tick (s.ctx l) := s.ctx_updCtx l _ hfg (s.part_ctx l hfg)
  have hpass : s.passBoundary l a = (u.startTimer l (a.pc + 1)).uiPoll l := rfl
  have htimer : u.startTimer l (a.pc + 1) = u.unsched fun e => e == .phaseTimer l := by
    have hp : (u.unsched fun e => e == .phaseTimer l).part l.part = s.part l.part :=
      congrArg (fun t => Tbl.get _ t l.part) (State.updCtx_parts s l _)
    unfold State.startTimer
    dsimp only
    rw [hp, hpriv]
    exact if_neg Bool.false_ne_true
  rw [hpass, htimer]
  rcases uiPoll_ctx (s := u.unsched fun e => e == .phaseTimer l) (l := l) hfgu with h | ⟨ev, hnext, -⟩
  · rw [h]
    exact hu
  · have hnone : (u.ctx l).ui.next = none := ui_next_disabled (by rw [hu]; exact hen)
    exact absurd (hnext.symm.trans hnone) nofun

/-! #### Bars -/

theorem passBar_plain {s : State} {l : Loc} {a : Arr} {r : List Arr} (hfg : s.inFg l = true)
    (hbars : (s.ctx l).bars = a :: r) (htok : a.tok = none) :
    ((passBar s l).ctx l).bars = r ∧ ((passBar s l).ctx l).block = .none := by
  let u := s.updCtx l fun c => { c with bars := r }
  let v := u.updCtx l fun c => { c with block := .none }
  have hfgu : u.inFg l = true := s.inFg_updCtx l _ hfg (s.part_ctx l hfg)
  have hu : u.ctx l = { s.ctx l with bars := r } := s.ctx_updCtx l _ hfg (s.part_ctx l hfg)
  have hfgv : v.inFg l = true := u.inFg_updCtx l _ hfgu (u.part_ctx l hfgu)
  have hv : v.ctx l = { s.ctx l with bars := r, block := .none } := by
    rw [u.ctx_updCtx l _ hfgu (u.part_ctx l hfgu), hu]
  have hpass : passBar s l = v.uiPoll l := by
    rw [passBar, hbars]
    dsimp only
    rw [htok]
  rw [hpass]
  rcases uiPoll_ctx hfgv with h | ⟨ev, -, h⟩
  · rw [h, hv]
    exact ⟨rfl, rfl⟩
  · obtain ⟨-, -, -, -, -, -, -, -, -, -, -, hb, -, -, hn⟩ := (v.ctx l).toHandler_frame ev ((v.ctx l).now v.tick)
    rw [h, hb, hn (by rw [hv]), hv]
    exact ⟨rfl, rfl⟩

theorem passBar_split {s : State} {l : Loc} {a : Arr} {r : List Arr} {k : Nat} (hfg : s.inFg l = true)
    (hbars : (s.ctx l).bars = a :: r) (htok : a.tok = some k) :
    ((passBar s l).ctx l).bars = r ∧ ((passBar s l).ctx l).tok k = .done ((s.ctx l).now s.tick) ∧
      ((passBar s l).ctx l).block = (s.ctx l).block := by
  let u := s.updCtx l fun c => { c with bars := r }
  have hfgu : u.inFg l = true := s.inFg_updCtx l _ hfg (s.part_ctx l hfg)
  have hu : u.ctx l = { s.ctx l with bars := r } := s.ctx_updCtx l _ hfg (s.part_ctx l hfg)
  have hut : u.tick = s.tick := State.updCtx_tick s l _
  have hpass : passBar s l = u.tokDone l k ((u.ctx l).now u.tick) := by
    rw [passBar, hbars]
    dsimp only
    rw [htok]
  rw [hpass, tokDone_ctx _ _ hfgu, Ctx.tok_complete, hu, hut]
  exact ⟨rfl, rfl, rfl⟩

/-- Settles O36: releases by whether their set may go, and what passing leaves of a strand. -/
theorem releaseEvents : Obligations.ReleaseEvents := by
  refine ⟨fun s r sc inst => ⟨fun h => ?pass, mayRelease_followPcBad, fun h => ?stay, fun h => ?passBar, fun h => ?stayBar⟩,
    fun s l a e hfg hrun harr hent hown => ?back, fun s l a hfg hpriv hen => ?kept, fun s l a r hfg hbars =>
      ⟨passBar_plain hfg hbars, fun k => passBar_split hfg hbars⟩⟩
  case pass => exact if_pos h
  case stay => exact if_neg (by rw [h]; exact Bool.false_ne_true)
  case passBar => exact if_pos h
  case stayBar => exact if_neg (by rw [h]; exact Bool.false_ne_true)
  case back =>
    obtain ⟨r, hc, hcode, hprec, hpc, hword⟩ := phaseBack_ctx hfg hrun harr hent hown
    intro t
    rw [show t.ctx l = _ from hc]
    exact ⟨rfl, rfl, rfl, (mem_insEnt _ _ _).mpr (.inl rfl), r, rfl, hcode, hprec, hpc, hword⟩
  case kept =>
    intro t
    have hmem : t.mem = s.mem := State.passBoundary_mem s l a
    rw [show t.ctx l = _ from passBoundary_ctx a hfg hpriv hen, hmem]
    exact ⟨rfl, rfl, rfl, rfl, rfl, rfl, rfl, rfl, rfl, rfl, rfl⟩

end Sys2Proof.Machine

/-! ### Join cells, the ends of waits and the phase timer (R146, R157, R162, R200, R457) -/

namespace Sys2Proof.Machine

open Claim

/-! #### Who follows a strand -/

/-- A change of a strand in the foreground, seen at any tile. -/
theorem State.core_updCtx {s : State} {l : Loc} (f : Ctx → Ctx) (n : Nat) (hfg : s.inFg l = true) :
    (s.updCtx l f).core n = if n = l.tile then { s.core l.tile with fg := f (s.ctx l) } else s.core n := by
  rw [State.updCtx, State.setCtx, if_pos hfg]
  split
  next h => rw [h]; exact s.core_setCore_same _ _
  next h => exact s.core_setCore_other _ _ _ h

/-- Who follows a strand depends on no change that keeps whom every strand follows and where it belongs. -/
theorem followers_updCtx {s : State} {l : Loc} (f : Ctx → Ctx) (t p : Nat) (hfg : s.inFg l = true)
    (hpart : (f (s.ctx l)).part = (s.ctx l).part) (hcur : (f (s.ctx l)).fol.cur = (s.ctx l).fol.cur)
    (hlive : (f (s.ctx l)).live = (s.ctx l).live) (hregion : (f (s.ctx l)).region = (s.ctx l).region) :
    (s.updCtx l f).followers t p = s.followers t p := by
  have hown : s.ctx l = (s.core l.tile).fg := by rw [State.ctx, if_pos hfg]
  have hcore (n : Nat) : ((s.updCtx l f).core n).fg.part = (s.core n).fg.part ∧
      ((s.updCtx l f).core n).fg.fol.cur = (s.core n).fg.fol.cur ∧ ((s.updCtx l f).core n).fg.live = (s.core n).fg.live ∧
      ((s.updCtx l f).core n).fg.region = (s.core n).fg.region ∧ ((s.updCtx l f).core n).bg = (s.core n).bg ∧
      ((s.updCtx l f).core n).spill = (s.core n).spill := by
    rw [State.core_updCtx f n hfg]
    split
    next h => subst h; rw [← hown]; exact ⟨hpart, hcur, hlive, hregion, rfl, rfl⟩
    next => exact ⟨rfl, rfl, rfl, rfl, rfl, rfl⟩
  have hctx (x : Loc) : ((s.updCtx l f).ctx x).region = (s.ctx x).region := by
    obtain ⟨hp, -, -, hr, hb, hs⟩ := hcore x.tile
    have hin : (s.updCtx l f).inFg x = s.inFg x := by rw [State.inFg, hp, State.inFg]
    have hspill : (s.updCtx l f).spilled x = s.spilled x := by rw [State.spilled, hs, State.spilled]
    rw [State.ctx, hin, hb, hspill, State.ctx]
    by_cases hx : s.inFg x = true
    · rw [if_pos hx, if_pos hx, hr]
    · rw [if_neg hx, if_neg hx]
  unfold State.followers
  simp only [fun n => (hcore n).1, fun n => (hcore n).2.1, fun n => (hcore n).2.2.1, fun n => (hcore n).2.2.2.1, hctx]

/-- A strand that follows none and waits for nothing turns to its handler by noting the event alone. -/
theorem toHandler_idle {c : Ctx} (ev : Nat × Nat) (n : Nat) (hblock : c.block = .none) (hcur : c.fol.cur = none) :
    c.toHandler ev n = { c with ui := { c.ui with going := some ev } } := by
  unfold Ctx.toHandler
  simp [hblock, hcur]

/-! #### Decrements of join cells (R157, R162) -/

theorem joinCellDecrement_first {s : State} {l : Loc} {h : Nat} {c : Cell} (hc : Tbl.find s.cells h = some c)
    (hfirst : s.firstArrival l h = l) :
    exec (.joinCellDecrement l h false) s = .next
      (State.packet (
        let s' := if c.count - 1 == 0 && !c.trig && (s.ctx l).fol.cur.isNone then State.kick { s with cells := Tbl.del s.cells h }
          else { s with cells := Tbl.put s.cells h { c with count := c.count - 1 } }
        if c.count - 1 == 0 && c.trig && !(s.region c.region).fired then s'.fire c.region else s')
        l.part [(s.ctx l).leg 6 (some (joinTile h)) (some l.tile)] (.joinResult l h (c.count - 1 == 0))) := by
  simp only [exec, execJoinCellDecrement, hc, hfirst, Bool.false_eq_true, if_false, beq_self_eq_true, if_true]
  rfl

theorem joinCellDecrement_trigger {s : State} {l : Loc} {h : Nat} {c : Cell} (hc : Tbl.find s.cells h = some c)
    (hcell : c.count - 1 = 0 → c.trig = true) :
    exec (.joinCellDecrement l h true) s = .next (
      let s' := { s with cells := Tbl.put s.cells h { c with count := c.count - 1 } }
      if c.count - 1 == 0 && c.trig && !(s.region c.region).fired then s'.fire c.region else s') := by
  have hstays : ¬ ((c.count - 1 == 0 && !c.trig && (s.ctx l).fol.cur.isNone) = true) := by
    intro h0
    simp only [Bool.and_eq_true, beq_iff_eq, Bool.not_eq_true'] at h0
    rw [hcell h0.1.1] at h0
    exact Bool.noConfusion h0.1.2
  simp only [exec, execJoinCellDecrement, hc, if_true, if_neg hstays]
  rfl

/-! #### The result of a join (R157) -/

/-- The strand with its join's outcome noted: one that follows nobody compares with itself. -/
def joinNoted (h pc : Nat) (last : Bool) (c : Ctx) : Ctx :=
  { c with
    block := .leave (some h) 3 0 pc
    fol := { c.fol with
      join := c.fol.join.map fun x => (x.1, some h, some last)
      joined := if c.fol.cur.isSome then c.fol.joined else [last] } }

/-- The strand once its join is settled, before it goes on or ends. -/
def joinTaken (h pc : Nat) (last : Bool) (c : Ctx) : Ctx :=
  { joinNoted h pc last c with fol := { (joinNoted h pc last c).fol with joined := [] } }

/-- The strand that its join lets go on, at the next word. -/
def joinOn (h pc : Nat) (e : QEnt) (n : Nat) (c : Ctx) : Ctx :=
  { joinTaken h pc true c with
    block := .none
    fol := { (joinTaken h pc true c).fol with join := none } }.resolve e.pc (e.pc + 1) n

theorem joinResult_settles {s : State} {l : Loc} {h p pc : Nat} {e : QEnt} {x : Option Nat} {o : Option Bool} (last : Bool)
    (hfg : s.inFg l = true) (hblock : (s.ctx l).block = .leave (some h) 2 p pc) (hjoin : (s.ctx l).fol.join = some (e, x, o))
    (hcur : (s.ctx l).fol.cur = none) (hnobody : s.followers l.tile l.part = []) :
    ∃ u : State, exec (.joinResult l h last) s = .next (u.joinEnd l e.pc (some h) last) ∧
      (∃ cs, u = { s with cores := cs }) ∧ u.inFg l = true ∧ u.ctx l = joinTaken h pc last (s.ctx l) := by
  let v := s.updCtx l (joinNoted h pc last)
  have hv : v.ctx l = joinNoted h pc last (s.ctx l) := s.ctx_updCtx l _ hfg (s.part_ctx l hfg)
  have hfgv : v.inFg l = true := State.inFg_updCtx s l _ hfg (s.part_ctx l hfg)
  let drop (c : Ctx) : Ctx := { c with fol := { c.fol with joined := [] } }
  let u := v.updCtx l drop
  have hu : u.ctx l = joinTaken h pc last (s.ctx l) := (v.ctx_updCtx l drop hfgv (v.part_ctx l hfgv)).trans (congrArg drop hv)
  have hfolv : v.followers l.tile l.part = [] :=
    (followers_updCtx _ _ _ hfg rfl rfl rfl rfl).trans hnobody
  have hfolu : u.followers l.tile l.part = [] :=
    (followers_updCtx drop _ _ hfgv rfl rfl rfl rfl).trans hfolv
  have hjoinv : (v.ctx l).fol.join = some (e, some h, some last) := by rw [hv]; simp [joinNoted, hjoin]
  have hjoinedv : (v.ctx l).fol.joined = [last] := by rw [hv]; simp [joinNoted, hcur]
  have hsettle : v.joinSettle l = (u.tellJoin l last).joinEnd l e.pc (some h) last := by
    unfold State.joinSettle
    simp only [hjoinv, hjoinedv, beq_self_eq_true, if_true]
    rfl
  refine ⟨u, ?_, ?_, State.inFg_updCtx v l drop hfgv (v.part_ctx l hfgv), hu⟩
  · have hstep : exec (.joinResult l h last) s = .next (v.joinSettle l) := by
      simp only [exec, execJoinResult, hblock, bne_self_eq_false, Bool.false_eq_true, if_false]
      rfl
    rw [hstep, hsettle, tellJoin_nobody u l last hfolu]
  · obtain ⟨a, ha⟩ := s.updCtx_eq l (joinNoted h pc last)
    obtain ⟨b, hb⟩ := v.updCtx_eq l drop
    exact ⟨b, hb.trans (by rw [show v = _ from ha])⟩

/-- What a poll keeps of the strand, and what it does where no event may be delivered. -/
theorem uiPoll_off {s : State} {l : Loc} (hgoing : (s.ctx l).ui.going = none) (hv : (s.ctx l).ui.v = false) : s.uiPoll l = s := by
  unfold State.uiPoll
  simp [hgoing, hv]

theorem uiPoll_cells (s : State) (l : Loc) : (s.uiPoll l).cells = s.cells := by
  rcases s.uiPoll_cases l with h | h | ⟨ev, ag, -, -, -, h⟩
  · rw [h]
  · rw [h]; rfl
  · rw [h]
    change (s.updCtx l fun c => c.toHandler ev (c.now s.tick)).cells = s.cells
    obtain ⟨cs, hcs⟩ := s.updCtx_eq l fun c => c.toHandler ev (c.now s.tick)
    rw [hcs]

/-- A poll of a strand that follows none and waits for nothing changes its event store alone. -/
theorem uiPoll_keeps {α : Type} {s : State} {l : Loc} (f : Ctx → α) (hf : ∀ c u, f { c with ui := u } = f c)
    (hfg : s.inFg l = true) (hblock : (s.ctx l).block = .none) (hcur : (s.ctx l).fol.cur = none) :
    f ((s.uiPoll l).ctx l) = f (s.ctx l) := by
  rcases uiPoll_ctx hfg with h | ⟨ev, -, h⟩
  · rw [h]
  · rw [h, toHandler_idle ev _ hblock hcur, hf]

theorem joinOn_eq (h pc : Nat) (e : QEnt) (n : Nat) (c : Ctx) :
    joinOn h pc e n c = { joinTaken h pc true c with
      block := .none
      fol := { (joinTaken h pc true c).fol with join := none }
      fstop := .run
      fdone := n } := by
  simp only [joinOn, Ctx.resolve, if_true]

theorem joinEnd_last {u : State} {l : Loc} {c : Ctx} {h pc : Nat} {e : QEnt} (hfg : u.inFg l = true)
    (hu : u.ctx l = joinTaken h pc true c) (hcur : c.fol.cur = none) :
    ∃ v : State, u.joinEnd l e.pc (some h) true = v.uiPoll l ∧ v.inFg l = true ∧ (∃ cs, v = { u with cores := cs }) ∧
      v.ctx l = joinOn h pc e (c.now u.tick) c := by
  let on (d : Ctx) : Ctx :=
    { d with
      block := .none
      fol := { d.fol with join := none } }.resolve e.pc (e.pc + 1) (d.now u.tick)
  have hon : on (u.ctx l) = joinOn h pc e (c.now u.tick) c := by rw [hu]; rfl
  have hpart : (on (u.ctx l)).part = some l.part := by
    rw [hon, joinOn_eq, ← u.part_ctx l hfg, hu]
  refine ⟨u.updCtx l on, ?_, State.inFg_updCtx u l on hfg hpart, u.updCtx_eq l on, (u.ctx_updCtx l on hfg hpart).trans hon⟩
  have hfollows : (u.ctx l).fol.cur.isSome = false := by rw [hu]; exact congrArg Option.isSome hcur
  unfold State.joinEnd
  simp only [hfollows, if_true, Bool.false_eq_true, if_false, Option.filter]
  rfl

theorem joinResult_last {s : State} {l : Loc} {h p pc : Nat} {e : QEnt} {x : Option Nat} {o : Option Bool}
    (hfg : s.inFg l = true) (hblock : (s.ctx l).block = .leave (some h) 2 p pc) (hjoin : (s.ctx l).fol.join = some (e, x, o))
    (hcur : (s.ctx l).fol.cur = none) (hnobody : s.followers l.tile l.part = []) :
    ∃ t : State, exec (.joinResult l h true) s = .next t ∧ (t.ctx l).block = .none ∧ (t.ctx l).fol.join = none ∧
      t.cells = s.cells ∧ t.mem = s.mem ∧ (t.ctx l).s = (s.ctx l).s ∧ (t.ctx l).k = (s.ctx l).k ∧
      ((s.ctx l).ui.going = none → (s.ctx l).ui.v = false → (t.ctx l).pc = (s.ctx l).pc ∧ (t.ctx l).fstop = .run ∧
        (t.ctx l).fdone = (s.ctx l).now s.tick) := by
  obtain ⟨u, hexec, ⟨cs, hsame⟩, hfgu, hu⟩ := joinResult_settles true hfg hblock hjoin hcur hnobody
  obtain ⟨v, hend, hfgv, ⟨ds, hsamev⟩, hv⟩ := joinEnd_last (e := e) hfgu hu hcur
  have htick : u.tick = s.tick := by rw [hsame]
  rw [htick, joinOn_eq] at hv
  have hcells : v.cells = s.cells := by rw [hsamev, hsame]
  have hmem : v.mem = s.mem := by rw [hsamev, hsame]
  refine ⟨v.uiPoll l, hexec.trans (congrArg Host.Outcome.next hend), ?_⟩
  rw [uiPoll_cells, State.uiPoll_mem]
  have hblockv : (v.ctx l).block = .none := by rw [hv]
  have hcurv : (v.ctx l).fol.cur = none := by rw [hv]; exact hcur
  refine ⟨?blocked, ?join, hcells, hmem, ?scalars, ?counters, fun hgoing hoff => ?on⟩
  case on =>
    rw [uiPoll_off (by rw [hv]; exact hgoing) (by rw [hv]; exact hoff), hv]
    exact ⟨rfl, rfl, rfl⟩
  case blocked => exact (uiPoll_keeps Ctx.block (fun _ _ => rfl) hfgv hblockv hcurv).trans hblockv
  case join => exact (uiPoll_keeps (fun c => c.fol.join) (fun _ _ => rfl) hfgv hblockv hcurv).trans (by rw [hv])
  case scalars => exact (uiPoll_keeps Ctx.s (fun _ _ => rfl) hfgv hblockv hcurv).trans (by rw [hv]; rfl)
  case counters => exact (uiPoll_keeps Ctx.k (fun _ _ => rfl) hfgv hblockv hcurv).trans (by rw [hv]; rfl)

theorem joinResult_parks {s : State} {l : Loc} {h p pc : Nat} {e : QEnt} {x : Option Nat} {o : Option Bool}
    (hfg : s.inFg l = true) (hblock : (s.ctx l).block = .leave (some h) 2 p pc) (hjoin : (s.ctx l).fol.join = some (e, x, o))
    (hcur : (s.ctx l).fol.cur = none) (hnobody : s.followers l.tile l.part = []) (htrig : (s.ctx l).trig = true) :
    ∃ u : State, exec (.joinResult l h false) s = .next (u.endStrand l) ∧ u.cells = s.cells ∧
      u.mem = s.mem ∧ u.agenda = s.agenda ∧ (u.ctx l).region = (s.ctx l).region := by
  obtain ⟨u, hexec, ⟨cs, hsame⟩, -, hu⟩ := joinResult_settles false hfg hblock hjoin hcur hnobody
  have hend : u.joinEnd l e.pc (some h) false = u.endStrand l := by
    have ht : (u.ctx l).trig = true := by rw [hu]; exact htrig
    unfold State.joinEnd
    rw [if_neg Bool.false_ne_true, if_pos ht]
  refine ⟨u, hexec.trans (congrArg Host.Outcome.next hend), ?_, ?_, ?_, by rw [hu]; rfl⟩ <;> rw [hsame]

/-! #### The phase timer (R457) -/

theorem phaseTimer_expires {s : State} {l : Loc} (hrun : runs s l) (hlive : (s.ctx l).live = true) :
    ∃ t : State, exec (.phaseTimer l) s = .next t ∧ trapped s t l 8 0x12 ∧ t.mem = s.mem ∧
      (s.tick + 24 + (s.ctx l).timer + 1, .phaseTimer l) ∈ t.agenda := by
  obtain ⟨hfg, hclock, hactive⟩ := hrun
  obtain ⟨hctx, htick, hmem, -, hst, hat, hag⟩ := s.trapEngine_active l 8 cPhaseTimer (s.ctx l).pc 0 0 hfg hclock hactive
  generalize hu : s.trapEngine l 8 cPhaseTimer (s.ctx l).pc 0 0 = u at hctx htick hmem hst hat hag
  refine ⟨u.schedIn ((u.part l.part).haltAt - u.tick + (s.ctx l).timer + 1) (.phaseTimer l), ?_, ?_, hmem, ?_⟩
  · simp only [exec, execPhaseTimer, if_pos hlive, hu]
    rfl
  · refine ⟨s.mkStop l 8 cPhaseTimer false (s.ctx l).pc 0 0 0, ?_, rfl, rfl, rfl, rfl, hst, hat, ?_⟩
    · exact congrArg Ctx.stops hctx
    · exact State.mem_sched_of_mem _ _ _ _ (by rw [hag]; exact (mem_insEv _ _ _ _).mpr (.inl rfl))
  · have hdue : u.tick + ((u.part l.part).haltAt - u.tick + (s.ctx l).timer + 1) = s.tick + 24 + (s.ctx l).timer + 1 := by
      rw [hat, htick]; omega
    rw [State.schedIn, hdue]
    exact State.mem_sched _ _ _ (by omega)

/-! #### The obligation -/

/-- Settles O37: a decrement counts its cell down, its result settles the strand's join, and a wait ends where it may. -/
theorem joinAndWaitEvents : Obligations.JoinAndWaitEvents := by
  refine ⟨fun s l h => ⟨?first, ?counts, ?fires, ?result⟩,
    fun s l => ⟨?wakes, ?sleeps, ?leaves, ?released, fun k => rfl, phaseTimer_expires, ?dead⟩⟩
  case first =>
    intro c hc hfirst
    have hstep := joinCellDecrement_first hc hfirst
    refine ⟨fun hmore => hstep.trans ?_, fun hone hcell hcur => hstep.trans ?_, fun hone hcell hfired => hstep.trans ?_⟩
    · have h0 : (c.count - 1 == 0) = false := beq_false_of_ne (by omega)
      simp only [h0, Bool.false_and, Bool.false_eq_true, if_false]
    · simp only [hone, hcell, hcur, Nat.sub_self, beq_self_eq_true, Bool.not_false, Option.isNone_none, Bool.and_self, Bool.and_false,
        Bool.false_and, Bool.false_eq_true, if_true, if_false]
    · simp only [hone, hcell, hfired, Nat.sub_self, beq_self_eq_true, Bool.not_true, Bool.not_false, Bool.and_self, Bool.and_false,
        Bool.false_and, Bool.false_eq_true, if_true, if_false]
  case counts =>
    intro c hc hne hpos
    refine (joinCellDecrement_trigger hc (by omega)).trans ?_
    have h0 : (c.count - 1 == 0) = false := beq_false_of_ne (by omega)
    simp only [h0, Bool.false_and, Bool.false_eq_true, if_false]
  case fires =>
    intro c hc hone hcell hfired
    refine (joinCellDecrement_trigger hc fun _ => hcell).trans ?_
    simp only [hone, hcell, hfired, Nat.sub_self, beq_self_eq_true, Bool.not_false, Bool.and_self, if_true]
  case result =>
    intro p pc e x o hfg hblock hjoin hcur hnobody
    exact ⟨joinResult_last hfg hblock hjoin hcur hnobody, joinResult_parks hfg hblock hjoin hcur hnobody⟩
  case wakes =>
    intro m pc hblock hholds
    simp only [exec, execSleepWake, hblock, if_pos hholds]
    rfl
  case sleeps =>
    intro m pc hblock hholds
    simp only [exec, execSleepWake, hblock, hholds, Bool.false_eq_true, if_false]
    rfl
  case leaves =>
    intro c p pc hblock
    simp only [exec, execSleepWake, hblock]
    rfl
  case released =>
    intro g pc hblock
    simp only [exec, execWaittRelease, hblock]
    rfl
  case dead =>
    intro hlive
    simp only [exec, execPhaseTimer, hlive, Bool.false_eq_true, if_false]
    rfl

end Sys2Proof.Machine

/-! ### Events at the homes of lines (R294, R298, R302, R311, R424, R425) -/

namespace Sys2Proof.Machine

open Claim

/-! #### What waits and what is put back -/

/-- What is put back comes again on the next tick, and nothing but the agenda changes. -/
theorem putBack_again (s : State) (mine : Ev → Bool) (e : Ev) :
    ∃ ag, s.putBack mine e = { s with agenda := ag } ∧ (s.tick + 1, e) ∈ ag := by
  let hit (x : Nat × Ev) : Bool := x.1 ≤ s.tick + 1 && mine x.2
  let u : State := { s with agenda := s.agenda.filter fun x => !hit x }
  have hmore (v : State) (x : Ev) : MoreEvents v (v.schedIn 1 x) := MoreEvents.sched v _ _
  obtain ⟨ag, hag, -⟩ := MoreEvents.foldl hmore (e :: (s.agenda.filter hit).map (·.2)) u
  have hput : s.putBack mine e = { u with agenda := ag } := hag
  refine ⟨ag, hput, ?_⟩
  have hmem : (s.tick + 1, e) ∈ (s.putBack mine e).agenda := by
    refine MoreEvents.mem_foldl (s := u) hmore (List.mem_cons_self (a := e)) fun v hv => ?_
    have htick : v.tick = s.tick := by obtain ⟨_, rfl, -⟩ := hv; rfl
    rw [← htick]
    exact State.mem_sched _ _ _ (by omega)
  rw [hput] at hmem
  exact hmem

theorem behindHeld_go {s : State} {t cls : Nat} (e : Ev) (k : Out) (h : s.classHeld t cls = false) : s.behindHeld t cls e k = k := by
  unfold State.behindHeld
  rw [h]
  rfl

/-! #### What a home does with a request -/

theorem lineWrite_mem (s : State) (bs : List (Nat × Byte)) (pz : Bool) : (s.lineWrite bs pz).mem = s.mem.setMany bs := by
  cases bs <;> rfl

theorem homeWrite_mem (s : State) (bs : List (Nat × Byte)) (pz : Bool) : (s.homeWrite bs pz).mem = s.mem.setMany bs := by
  cases bs with
  | nil => rfl
  | cons b r =>
    rw [show s.homeWrite (b :: r) pz = ((s.stamp b.1).1.lineWrite (b :: r) pz).sliceTouch b.1 from rfl, State.sliceTouch_mem,
      lineWrite_mem, State.stamp_mem]

/-- A merge's write leaves the line's poison as it was (R311). -/
theorem lineWrite_keeps_poison (s : State) (b : Nat × Byte) (r : List (Nat × Byte)) :
    (s.lineWrite (b :: r) (s.linePoison b.1)).linePoison b.1 = s.linePoison b.1 := by
  let line := b.1 / 128
  have hkept (keep : List Nat) (h : keep ⊆ s.poison) :
      (if s.linePoison b.1 && !keep.contains line then line :: keep else keep).contains line = s.linePoison b.1 := by
    cases hp : s.linePoison b.1 with
    | true =>
      rw [Bool.true_and]
      split
      · simp
      · simp_all
    | false =>
      rw [Bool.false_and, if_neg Bool.false_ne_true]
      refine Decidable.byContradiction fun hc => ?_
      have : line ∈ s.poison := h (by simpa using hc)
      rw [State.linePoison] at hp
      simp_all [line]
  refine hkept _ ?_
  split
  · exact fun x hx => (List.mem_filter.mp hx).1
  · exact List.Subset.refl _

theorem serve_strm {s : State} {q : HomeReq} {t : Ty} {v : Nat} (hop : q.op = .strm t v) : (s.serve q).mem = s.mem.setNat q.pa (tySize t) v := by
  simp only [State.serve, hop, State.didServe_mem, State.reply_mem, lineWrite_mem, State.stamp_mem, State.sliceTouch_mem]
  rfl

section
variable {s : State} {q : HomeReq} (hclean : s.linePoison q.pa = false)
include hclean

theorem linePoison_touched : (s.sliceTouch q.pa).linePoison q.pa = false := hclean

theorem serve_atom {op : AtomOp} {t : Ty} {b : Nat} {d : LdDest} (hop : q.op = .atom op t b d) :
    (s.serve q).mem = s.mem.setNat q.pa (tySize t) (atomNew op t (s.mem.nat q.pa (tySize t)) b) := by
  simp only [State.serve, hop, linePoison_touched hclean, Bool.false_eq_true, if_false, State.didServe_mem, State.reply_mem,
    lineWrite_mem, State.stamp_mem, State.sliceTouch_mem]
  rfl

theorem serve_cas {t : Ty} {cmp new : Nat} {d : LdDest} (hop : q.op = .cas t cmp new d) (heq : s.mem.nat q.pa (tySize t) = cmp) :
    (s.serve q).mem = s.mem.setNat q.pa (tySize t) new := by
  simp only [State.serve, hop, linePoison_touched hclean, Bool.false_eq_true, if_false, State.sliceTouch_mem, heq, if_true,
    State.didServe_mem, State.reply_mem, lineWrite_mem, State.stamp_mem]
  rfl

theorem serve_cas_fails {t : Ty} {cmp new : Nat} {d : LdDest} (hop : q.op = .cas t cmp new d)
    (hne : s.mem.nat q.pa (tySize t) ≠ cmp) : (s.serve q).mem = s.mem := by
  simp only [State.serve, hop, linePoison_touched hclean, Bool.false_eq_true, if_false, State.sliceTouch_mem, if_neg hne,
    State.didServe_mem, State.reply_mem]

end

theorem serve_read {s : State} {q : HomeReq} {size : Nat} {own : List (Nat × Byte)} {d : LdDest} (hop : q.op = .read size own d) :
    (s.serve q).mem = s.mem := by
  simp only [State.serve, hop]
  split <;> simp

theorem serve_ldrm {s : State} {q : HomeReq} {t : Ty} {d : LdDest} (hop : q.op = .ldrm t d) : (s.serve q).mem = s.mem := by
  simp only [State.serve, hop]
  split <;> simp

theorem serve_write {s : State} {q : HomeReq} {bs : List (Nat × Byte)} {pub : Nat} (hop : q.op = .write bs pub) :
    (s.serve q).mem = s.mem.setMany bs := by
  simp only [State.serve, hop, State.didAccept_mem, homeWrite_mem, State.sliceTouch_mem]

theorem serve_merge {s : State} {q : HomeReq} {op : UpdOp} {t : Ty} {es : List (Nat × Nat)} {pub : Nat}
    (hop : q.op = .merge op t es pub) :
    (s.serve q).mem = s.mem.setMany (es.flatMap fun e => addrBytes (q.pa + tySize t * e.1)
      (leBytes (tySize t) (combine op t (s.mem.nat (q.pa + tySize t * e.1) (tySize t)) e.2))) := by
  simp only [State.serve, hop, State.didAccept_mem, lineWrite_mem, State.stamp_mem, State.sliceTouch_mem]
  rfl

/-! #### Host memory and peers -/

theorem serveOutside_cas {s : State} {q : HomeReq} {t : Ty} {cmp new : Nat} {d : LdDest} (hop : q.op = .cas t cmp new d) :
    let o := s.outsideRead q.pa (tySize t)
    let u := (o.1.outsideWrite (addrBytes q.pa (leBytes (tySize t) new))).outsideRead q.pa 4
    s.serveOutside q = (if leNat o.2 = cmp then
        (u.1.reply q (destWrite d o.2) (some (true, 0x7FF, leNat u.2)) false).didServe q
      else (o.1.reply q (destWrite d o.2) (some (false, 0x7FF, 0)) false).didServe q) := by
  intro o u
  simp only [State.serveOutside, hop]
  by_cases h : leNat o.2 = cmp
  · rw [if_pos h, if_pos h]
  · rw [if_neg h, if_neg h]

/-- With every port down the request waits for one (R424). -/
theorem homeRequest_waits {s : State} {q : HomeReq} (hpeer : q.peer = none) (hout : isHome q.pa = false)
    (hspace : spaceOf q.pa = .peer) (hdown : s.zheostPort (s.peerDev q.pa + q.pa / 128) = none) :
    ∃ t : State, exec (.homeRequestServe q) s = .next t ∧ (s.tick + 1, .homeRequestServe q) ∈ t.agenda ∧ t.mem = s.mem ∧
      t.outside = s.outside := by
  obtain ⟨ag, hput, hag⟩ := putBack_again s (fun e => match e with
    | .homeRequestServe r => r.loc == q.loc && r.pa / 128 == q.pa / 128
    | _ => false) (.homeRequestServe q)
  refine ⟨{ s with agenda := ag }, ?_, hag, rfl, rfl⟩
  rw [← hput]
  simp only [exec, execHomeRequestServe, hpeer, hout, hspace, hdown, Option.isSome_none, Option.isNone_none, Bool.and_false,
    Bool.false_and, Bool.false_eq_true, if_false, beq_self_eq_true, if_true]
  rfl

/-! #### The obligation -/

/-- Settles O38: a home performs a request, fetches its line or lets it wait, and stores what the request writes. -/
theorem homeEvents : Obligations.HomeEvents := by
  refine ⟨fun s q pa => ⟨?serves, ?fills, ?blocked, ?vault, ?hbm⟩, fun s q hclean => ⟨fun t v => serve_strm,
      fun op t b d => serve_atom hclean, fun t cmp new d => serve_cas hclean, fun t cmp new d => serve_cas_fails hclean,
      fun size own d => serve_read, fun t d => serve_ldrm, fun bs pub b r hop _ => serve_write hop⟩,
    fun s q op t es pub => serve_merge, lineWrite_keeps_poison, fun s q => ⟨?enters, ?refused, ?outside⟩,
    fun s q => ⟨s.serveOutside_mem q, ?owrite, ?omerge, ?oread, ?ostrm, ?oatom, fun t cmp new d => serveOutside_cas⟩,
    fun _ _ => rfl⟩
  case serves =>
    intro hhere hfree
    have hin : (q.peer.isSome && !q.entered && isHome q.pa) = false := by
      rcases hhere with h | h <;> simp [h]
    have hstep (hhome : isHome q.pa = true) : exec (.homeRequestServe q) s =
        if s.sliceHit q.pa && !s.lineWaits q.pa then .next (s.serve q)
        else if !s.lineWaits q.pa && !s.dramBlocked q.pa then .next (State.fetchLine { s with missQ := s.missQ ++ [q] } q.pa)
          else .next { s with missQ := s.missQ ++ [q] } := by
      simp only [exec, execHomeRequestServe, hin, if_pos hhome, Bool.false_eq_true, if_false]
      exact behindHeld_go _ _ hfree
    refine ⟨fun ⟨hhome, hhit, hno⟩ => (hstep hhome).trans ?_, fun hhome hmiss hno hopen => (hstep hhome).trans ?_,
      fun hhome hmiss hno hopen => (hstep hhome).trans ?_, fun hhome hwait => (hstep hhome).trans ?_⟩
    · simp [hhit, hno]
    · simp [hmiss, hno, hopen]
    · simp [hmiss, hno, hopen]
    · simp [hwait]
  case fills =>
    intro hopen
    simp only [exec, execDramMissFill, hopen, Bool.false_eq_true, if_false]
    rfl
  case blocked =>
    intro hblocked
    simp only [exec, execDramMissFill, if_pos hblocked]
    rfl
  case vault =>
    intro hspace
    unfold State.fetchLine
    rw [hspace]
    rfl
  case hbm =>
    intro n hspace hlegs
    unfold State.fetchLine
    rw [hspace]
    simp only [hlegs]
    rfl
  case enters =>
    intro d n hpeer hent hhome hlegs
    have hend : s.endOf q.pa = some (s.homeTile q.pa) := if_pos hhome
    have hfar : (q.peer.isSome && !q.entered && isHome q.pa) = true := by simp [hpeer, hent, hhome]
    simp only [exec, execHomeRequestServe, if_pos hfar]
    rw [State.enterReq, hend, State.packet_go _ _ _ _ hlegs]
    rfl
  case refused =>
    intro d hpeer hout
    simp only [exec, execHomeRequestServe, hpeer, hout, Option.isSome_some, Bool.and_false, Bool.false_eq_true, if_false, if_true]
    rfl
  case outside =>
    intro hpeer hout
    have hstep : exec (.homeRequestServe q) s = if spaceOf q.pa == .peer then
        if (s.zheostPort (s.peerDev q.pa + q.pa / 128)).isNone then
          .next (s.putBack (fun e => match e with
            | .homeRequestServe r => r.loc == q.loc && r.pa / 128 == q.pa / 128
            | _ => false) (.homeRequestServe q))
        else if isHome (s.peerPa q.pa) then .next (s.serveOutside q)
        else .next (s.sendReply { q := q, wr := [], lastseq := none, poisoned := false, err := true })
      else .next (s.serveOutside q) := by
      simp only [exec, execHomeRequestServe, hpeer, hout, Option.isSome_none, Bool.and_false, Bool.false_and, Bool.false_eq_true,
        if_false]
      rfl
    refine ⟨fun hspace => hstep.trans (if_neg (by simpa using hspace)), fun hspace hport hpa => hstep.trans ?_,
      fun hspace hport hpa => hstep.trans ?_, homeRequest_waits hpeer hout⟩
    · rw [hspace, Option.isNone_eq_false_iff.mpr hport, hpa]; rfl
    · rw [hspace, Option.isNone_eq_false_iff.mpr hport, hpa]; rfl
  case owrite => intro bs pub hop; simp only [State.serveOutside, hop]
  case omerge => intro op t es pub hop; simp only [State.serveOutside, hop]
  case oread => intro size own d hop; simp only [State.serveOutside, hop]
  case ostrm => intro t v hop; simp only [State.serveOutside, hop]
  case oatom => intro op t b d hop; simp only [State.serveOutside, hop]

end Sys2Proof.Machine

/-! ### Replies, remote accesses, walks and errors (R298, R304, R310 to R312, R314, R317, R318, R425) -/

namespace Sys2Proof.Machine

open Claim

/-! #### Replies -/

theorem homeReply_delivered {s : State} {r : HomeRep} (hagent : r.q.agent = none) (hpeer : r.q.peer = none)
    (hheld : s.classHeld r.q.loc.tile 1 = false) :
    exec (.homeReplyArrival r) s =
      if r.err then .next ((s.trapEngine r.q.loc 0 0x0A r.q.pc (xlDetail 3 0 (homeAcc r.q.op) r.q.va) 0).again r.q.loc
        (.homeRequestServe r.q))
      else .next (State.tokenReply (match r.lastseq with
        | some (wr, sl, n) =>
          s.updCtx r.q.loc fun c => { c with lastWr := wr, lastSlice := sl, lastSeq := if wr then n else c.lastSeq }
        | none => s) r.q.loc r.q.tok r.wr r.poisoned r.q.pc (.homeRequestServe r.q)) := by
  simp only [exec, execHomeReplyArrival, hagent, hpeer]
  exact behindHeld_go _ _ hheld

/-- A reply that is not poisoned puts its write in flight for the next tick, on which its token completes. -/
theorem tokenReply_lands {s : State} {l : Loc} {k : Nat} {w : Wr} (pc : Nat) (redo : Ev) (hfg : s.inFg l = true)
    (hland : s.landWr l (some k) ((s.ctx l).now s.tick) w = s.updCtx l fun c => c.pendK (some k) ((s.ctx l).now s.tick + 1) w) :
    let t := s.tokenReply l (some k) [w] false pc redo
    (t.ctx l).tok k = .done ((s.ctx l).now s.tick + 1) ∧ t.mem = s.mem ∧
      (t.ctx l).pend = insPend ((s.ctx l).now s.tick + 1) (Tbl.get 0 (s.ctx l).kNo k) w (s.ctx l).pend := by
  intro t
  let f (c : Ctx) : Ctx := c.pendK (some k) ((s.ctx l).now s.tick + 1) w
  let u := s.updCtx l f
  have hu : u.ctx l = f (s.ctx l) := s.ctx_updCtx l f hfg (s.part_ctx l hfg)
  have hfgu : u.inFg l = true := s.inFg_updCtx l f hfg (s.part_ctx l hfg)
  have ht : t = u.tokDone l k ((s.ctx l).now s.tick + 1) := by
    show s.tokenReply l (some k) [w] false pc redo = _
    simp only [State.tokenReply, Bool.false_eq_true, if_false, List.foldl_cons, List.foldl_nil, hland]
    rfl
  have hctx : (u.tokDone l k ((s.ctx l).now s.tick + 1)).ctx l = (f (s.ctx l)).complete k ((s.ctx l).now s.tick + 1) := by
    rw [tokDone_ctx k _ hfgu, hu]
  rw [ht, hctx, State.tokDone_mem, State.updCtx_mem]
  exact ⟨Ctx.tok_complete _ _ _, rfl, rfl⟩

theorem landWr_scalar (s : State) (l : Loc) (tok : Option Nat) (t n : Nat) (x : Word) :
    s.landWr l tok t (.s n x) = s.updCtx l fun c => c.pendK tok (t + 1) (.s n x) := rfl

theorem landWr_unbound {s : State} {l : Loc} (tok : Option Nat) (t n : Nat) (m : Lane) (x : Vec) (h : (s.ctx l).pushes = []) :
    s.landWr l tok t (.v n m x) = s.updCtx l fun c => c.pendK tok (t + 1) (.v n m x) := by
  unfold State.landWr
  rw [h]
  rfl

/-! #### Walks (R304, R305) -/

theorem mem_keepLast {n : Nat} (es : List TlbEnt) (e : TlbEnt) (h : 0 < n) : e ∈ keepLast n (es ++ [e]) := by
  have hone : (keepLast n (es ++ [e])).getLast? = some e := by
    unfold keepLast
    rw [List.getLast?_drop]
    simp
    omega
  exact List.mem_of_getLast? hone

theorem foldl_sliceTouch_cores (as : List Nat) (s : State) : (as.foldl State.sliceTouch s).cores = s.cores := by
  induction as generalizing s with
  | nil => rfl
  | cons a as ih => exact ih (s.sliceTouch a)

/-- A walk changes of its tile the translations alone, and keeps the one that it has found. -/
theorem walk_core (s : State) (l : Loc) (va : Nat) :
    ∃ tlb, (s.walk l va).1.core l.tile = { s.core l.tile with tlb := tlb } ∧ ∀ e, (s.walk l va).2 = .ok e → e ∈ tlb := by
  have hread (u : State) (as : List Nat) (hu : u.cores = s.cores) : (as.foldl State.sliceTouch u).core l.tile = s.core l.tile := by
    unfold State.core
    rw [foldl_sliceTouch_cores, hu]
  have hsame (u : State) (c v : Nat) (hu : u.core l.tile = s.core l.tile) :
      ∃ tlb, (u, Walked.bad c v).1.core l.tile = { s.core l.tile with tlb := tlb } ∧
        ∀ e, (u, Walked.bad c v).2 = Walked.ok e → e ∈ tlb :=
    ⟨(s.core l.tile).tlb, hu, nofun⟩
  unfold State.walk
  split
  · exact hsame s 0 0 rfl
  · dsimp only
    split
    · refine hsame _ _ _ (hread _ _ ?_)
      split <;> rfl
    next e _ =>
      generalize hu : ((s.walkReads l.part va).filter isHome).foldl State.sliceTouch
        (if (s.walkReads l.part va).all isHome then s else { s with fresh := s.fresh + 1 }) = u
      have hk : u.core l.tile = s.core l.tile := by
        rw [← hu]
        refine hread _ _ ?_
        split <;> rfl
      refine ⟨keepLast 64 ((u.core l.tile).tlb ++ [e]), ?_, ?_⟩
      · rw [State.core_setCore_same, ← hk]
        rfl
      · intro e' he'
        cases he'
        exact mem_keepLast _ _ (by omega)

theorem translationWalk_ends {s : State} {l : Loc} {va acc : Nat} (hready : s.xlWaits l va = false) (hfg : s.inFg l = true)
    (hwalk : (s.ctx l).walk = some (va, none)) :
    ∃ t : State, exec (.translationWalk l va acc) s = .next t ∧ t.mem = s.mem ∧
      (t.ctx l).walk = (match s.checkWalk (s.walk l va).2 va acc with
        | .ok _ => none
        | .error x => some (va, some x)) ∧
      ∀ e, (s.walk l va).2 = .ok e → e ∈ (t.core l.tile).tlb := by
  obtain ⟨tlb, hcore, hfound⟩ := walk_core s l va
  let u := (s.walk l va).1
  have hfgu : u.inFg l = true := by rw [State.inFg, hcore]; exact hfg
  have hctx : u.ctx l = s.ctx l := by rw [State.ctx_of_inFg _ _ hfgu, hcore, State.ctx_of_inFg _ _ hfg]
  let f (c : Ctx) : Ctx := match c.walk with
    | some (a, none) => if a == va then { c with walk := match s.checkWalk (s.walk l va).2 va acc with
        | .ok _ => none
        | .error x => some (va, some x) } else c
    | _ => c
  have hf : f (s.ctx l) = { s.ctx l with walk := match s.checkWalk (s.walk l va).2 va acc with
      | .ok _ => none
      | .error x => some (va, some x) } := by
    simp only [f, hwalk, beq_self_eq_true, if_true]
  have hpart : (f (u.ctx l)).part = some l.part := by rw [hctx, hf]; exact s.part_ctx l hfg
  refine ⟨u.updCtx l f, ?_, ?_, ?_, fun e he => ?_⟩
  · simp only [exec, execTranslationWalk, hready, Bool.false_eq_true, if_false]
    rfl
  · rw [State.updCtx_mem]
    exact s.walk_mem l va
  · rw [u.ctx_updCtx l f hfgu hpart, hctx, hf]
  · rw [State.core_updCtx f _ hfgu, if_pos rfl, hcore]
    exact hfound e he

/-! #### Errors (R310 to R312) -/

theorem poisonLine_eq (s : State) (pa : Nat) :
    (if s.poison.contains (pa / 128) then s else { s with poison := (pa / 128) :: s.poison }) =
      { s with poison := if s.poison.contains (pa / 128) then s.poison else pa / 128 :: s.poison } := by
  split <;> rfl

/-! #### The obligation -/

/-- Settles O39: a reply reaches the word or the device that asked, a walk keeps what it found, and an error is counted and poisons. -/
theorem replyAndErrorEvents : Obligations.ReplyAndErrorEvents := by
  refine ⟨fun s => ⟨?bar2, ?sent, ?delivered, ?served, ?acked, fun l k n x pc redo hfg => tokenReply_lands pc redo hfg rfl,
      fun l k n m x pc redo hfg hp => tokenReply_lands pc redo hfg (landWr_unbound _ _ _ _ _ hp), fun _ _ _ _ _ => rfl⟩,
    fun s l a pa => ⟨fun va acc => translationWalk_ends, ?walks, rfl, rfl, rfl, rfl, ?core, ?dram, ?slice, rfl, fun x => rfl,
      rfl, rfl, rfl, rfl, rfl, rfl, fun n => rfl⟩⟩
  case bar2 =>
    intro r o n own d g m v hagent hop hwr
    simp only [exec, execHomeReplyArrival, hagent, hop, hwr, List.flatMap_cons, List.flatMap_nil, List.append_nil]
    rfl
  case sent =>
    intro r d hagent hpeer
    have hstep : exec (.homeReplyArrival r) s = if (s.zheostPort 0).isNone then .next (s.schedIn 1 (.homeReplyArrival r))
        else .next { s with dv := { s.dv with sentReps := (d, r) :: s.dv.sentReps } } := by
      simp only [exec, execHomeReplyArrival, hagent, hpeer]
      rfl
    exact ⟨fun hup => hstep.trans (if_neg (by simpa using Option.isSome_iff_ne_none.mp hup)),
      fun hdown => hstep.trans (if_pos (by rw [hdown]; rfl))⟩
  case delivered =>
    intro r hagent hpeer hheld
    have hstep := homeReply_delivered hagent hpeer hheld
    refine ⟨fun herr hnone => ?_, fun wr sl n herr hsome => ?_, fun herr => hstep.trans (if_pos herr)⟩
    · rw [hstep, herr, hnone]; rfl
    · rw [hstep, herr, hsome]; rfl
  case served =>
    intro q hheld tl u
    have hstep (hawake : s.quadAwake q.target = true) : exec (.remoteAccessServe q) s = (match q.store with
        | some v => .next (((u.engWrite tl 0 3 (laneBytes q.mask q.off v)).performed q.loc).packet q.loc.part
          [{ order := q.rorder, src := some q.target, dst := some q.loc.tile, bytes := 0 }] (.remoteAckArrival q [] false))
        | none => .next ((u.performed q.loc).packet q.loc.part
          [{ order := q.rorder, src := some q.target, dst := some q.loc.tile, bytes := 128 }]
          (.remoteAckArrival q [.v q.dest q.mask (vecBytes ((u.ctx tl).sp.bytes q.off 128))]
            ((List.range 32).any fun i => q.mask.getLsbD i && (u.ctx tl).spBad (q.off + 4 * i) 4)))) := by
      simp only [exec, execRemoteAccessServe, hawake, Bool.not_true, Bool.false_eq_true, if_false]
      exact behindHeld_go _ _ hheld
    refine ⟨fun hasleep => ?_, fun v hawake hstore => ?_, fun hawake hstore => ?_⟩
    · simp only [exec, execRemoteAccessServe, hasleep, Bool.not_false, if_true]
      exact behindHeld_go _ _ hheld
    · rw [hstep hawake, hstore]
    · rw [hstep hawake, hstore]
  case acked =>
    intro q wr pz hheld
    exact behindHeld_go _ _ hheld
  case walks =>
    intro va acc hwait
    simp only [exec, execTranslationWalk, if_pos hwait]
    rfl
  case core =>
    intro x hx
    cases x with
    | tagTable => exact absurd rfl hx
    | _ => rfl
  case dram => exact congrArg Host.Outcome.next (poisonLine_eq _ pa)
  case slice => exact congrArg (fun u : State => Host.Outcome.next (u.railError 2)) (poisonLine_eq _ pa)

end Sys2Proof.Machine

/-! ### Sensors and the rails that they switch (R221, R222, R308) -/

namespace Sys2Proof.Machine

open Claim

/-- A poll of what waits to be placed changes the agenda alone. -/
theorem kick_eq (s : State) : ∃ ag, s.kick = { s with agenda := ag } := by
  obtain ⟨ag, hag, -⟩ := MoreEvents.foldl (f := fun (s : State) (r : DRec) => s.schedIn 1 r.ev) (fun s r => MoreEvents.sched s _ _)
    (sortBy (fun a b => b.lvl < a.lvl || (a.lvl == b.lvl && a.seq ≤ b.seq)) s.toPlace)
    { s with agenda := s.agenda.filter fun e => !(e.1 == s.tick + 1 && evDispatch e.2) }
  exact ⟨ag, hag⟩

theorem kick_pnow (s : State) : s.kick.pnow = s.pnow := by
  obtain ⟨ag, h⟩ := kick_eq s
  rw [h]

theorem kick_cores (s : State) : s.kick.cores = s.cores := by
  obtain ⟨ag, h⟩ := kick_eq s
  rw [h]

/-! #### What leaves the power state of the device as it is -/

theorem foldl_power {α : Type} (f : State → α → State) (xs : List α) (s : State)
    (h : ∀ s x, (f s x).dv.power = s.dv.power) : (xs.foldl f s).dv.power = s.dv.power := by
  induction xs generalizing s with
  | nil => rfl
  | cons x xs ih => rw [List.foldl_cons, ih, h]

@[simp] theorem State.setCtx_power (s : State) (l : Loc) (c : Ctx) : (s.setCtx l c).dv.power = s.dv.power := by
  unfold State.setCtx
  (repeat' split) <;> rfl

@[simp] theorem State.updCtx_power (s : State) (l : Loc) (f : Ctx → Ctx) : (s.updCtx l f).dv.power = s.dv.power :=
  s.setCtx_power l _

@[simp] theorem State.sched_power (s : State) (n : Nat) (e : Ev) : (s.sched n e).dv.power = s.dv.power := rfl

@[simp] theorem State.updRegion_power (s : State) (r : Nat) (f : Region → Region) : (s.updRegion r f).dv.power = s.dv.power := rfl

@[simp] theorem State.updPart_power (s : State) (p : Nat) (f : Part → Part) : (s.updPart p f).dv.power = s.dv.power := rfl

@[simp] theorem State.setCore_power (s : State) (t : Nat) (k : Core) : (s.setCore t k).dv.power = s.dv.power := rfl

@[simp] theorem State.kick_power (s : State) : s.kick.dv.power = s.dv.power := by
  obtain ⟨ag, h⟩ := kick_eq s
  rw [h]

@[simp] theorem State.changed_power (s : State) (l : Loc) : (s.changed l).dv.power = s.dv.power := by
  unfold State.changed
  split <;> rfl

@[simp] theorem State.quadRest_power (s : State) (t : Nat) : (s.quadRest t).dv.power = s.dv.power := by
  unfold State.quadRest
  dsimp only
  (repeat' split) <;> rfl

@[simp] theorem State.quadUp_power (s : State) (q : Nat) : (s.quadUp q).dv.power = s.dv.power := by
  unfold State.quadUp
  dsimp only
  rw [State.kick_power, State.quadRest_power]
  split <;> rfl

@[simp] theorem State.startWakes_power (s : State) (layer : Nat) : (s.startWakes layer).dv.power = s.dv.power := by
  have hgo (n : Nat) : ∀ s : State, (State.startWakes.go layer n s).dv.power = s.dv.power := by
    induction n with
    | zero => exact fun s => rfl
    | succ n ih =>
      intro s
      unfold State.startWakes.go
      split
      · rfl
      · dsimp only
        split
        · rw [ih, State.quadUp_power]
        · split
          · rw [ih]; rfl
          · rfl
  exact hgo _ s

@[simp] theorem State.quadSink_power (s : State) (q st : Nat) : (s.quadSink q st).dv.power = s.dv.power := by
  unfold State.quadSink
  dsimp only
  split <;> rfl

@[simp] theorem State.quadOff_power (s : State) (q : Nat) : (s.quadOff q).dv.power = s.dv.power := by
  unfold State.quadOff
  dsimp only
  split
  · rw [State.startWakes_power, State.quadSink_power]
  · rw [State.quadSink_power]

@[simp] theorem State.raiseHalt_power (s : State) (p : Nat) (cause : Nat × Nat × Nat × Nat) :
    (s.raiseHalt p cause).dv.power = s.dv.power := by
  unfold State.raiseHalt
  dsimp only
  split <;> rfl

@[simp] theorem State.raiseTrap_power (s : State) (l : Loc) (r : StopRec) : (s.raiseTrap l r).dv.power = s.dv.power := by
  unfold State.raiseTrap
  split
  · rfl
  · rw [State.raiseHalt_power, State.updCtx_power]

@[simp] theorem State.gangLeft_power (s : State) (l : Loc) : (s.gangLeft l).dv.power = s.dv.power := by
  unfold State.gangLeft
  split
  · unfold State.gangMismatch
    dsimp only
    rw [foldl_power]
    · rfl
    · intro s x
      split
      · rw [State.raiseTrap_power, State.updCtx_power]
      · rfl
  · rfl

@[simp] theorem State.devWrite_power (s : State) (bs : List (Nat × Byte)) : (s.devWrite bs).dv.power = s.dv.power := by
  unfold State.devWrite
  split
  · rfl
  · split <;> rfl

@[simp] theorem State.setRSt_power (s : State) (n : Nat) (st : RSt) (cause : Nat) : (s.setRSt n st cause).dv.power = s.dv.power :=
  State.devWrite_power _ _

@[simp] theorem State.postOwed_power (s : State) (q status cause region part : Nat) (cookie : Word) (tend : Nat) :
    (s.postOwed q status cause region part cookie tend).dv.power = s.dv.power := by
  unfold State.postOwed State.completion
  dsimp only [State.updQp]
  split <;> rfl

@[simp] theorem State.nextDelivery_power (s : State) (l : Loc) : (s.nextDelivery l).dv.power = s.dv.power := by
  unfold State.nextDelivery
  dsimp only
  split <;> rfl

@[simp] theorem State.discard_power (s : State) (r : Nat) : (s.discard r).dv.power = s.dv.power := by
  unfold State.discard
  dsimp only
  rw [foldl_power]
  · rfl
  · intro s l
    rw [State.quadRest_power, State.updCtx_power, State.gangLeft_power]

@[simp] theorem State.partEnd_power (s : State) (p : Nat) : (s.partEnd p).dv.power = s.dv.power := by
  unfold State.partEnd
  dsimp only
  rw [State.kick_power]
  refine (foldl_power _ _ _ ?quads).trans ?rested
  case quads => exact fun s q => State.quadOff_power _ q
  case rested =>
    refine (foldl_power _ _ _ fun s l => ?_).trans rfl
    split <;> exact s.setCtx_power l _

@[simp] theorem State.endAs_power (s : State) (r : Nat) (st : RSt) (cause : Nat) (post : Bool) :
    (s.endAs r st cause post).dv.power = s.dv.power := by
  unfold State.endAs
  dsimp only
  have hleft (u : State) (ls : List Loc) : (ls.foldl (fun s l =>
      (s.updCtx l fun c => { c with recvT := [], ovf := [], trees := [], treeOps := [] }).changed l) u).dv.power = u.dv.power := by
    rw [foldl_power]
    intro s l
    rw [State.changed_power, State.updCtx_power]
  split
  · rw [State.partEnd_power]
    (repeat' split) <;> simp [hleft, State.rcbWord]
  · rw [State.kick_power, State.sched_power]
    (repeat' split) <;> simp [hleft, State.rcbWord]

theorem State.endPart_power (s : State) (p cause : Nat) (post : Bool) : (s.endPart p cause post).dv.power = s.dv.power := by
  have hfamily : (s.endFamily (s.part p).root cause post).dv.power = s.dv.power := by
    unfold State.endFamily
    rw [foldl_power]
    intro s x
    rw [State.endAs_power, State.discard_power]
  unfold State.endPart
  dsimp only
  split
  · rw [State.partEnd_power, hfamily]
  · exact hfamily

/-! #### What leaves the registers of the sensors as they are -/

theorem foldl_ts {α : Type} (f : State → α → State) (xs : List α) (s : State) (h : ∀ s x, (f s x).ts = s.ts) :
    (xs.foldl f s).ts = s.ts := by
  induction xs generalizing s with
  | nil => rfl
  | cons x xs ih => rw [List.foldl_cons, ih, h]

theorem kick_ts (s : State) : s.kick.ts = s.ts := by
  obtain ⟨ag, h⟩ := kick_eq s
  rw [h]

theorem applyCaps_ts (s : State) : s.applyCaps.ts = s.ts := by
  have halert : s.capAlert.ts = s.ts := by
    unfold State.capAlert
    split <;> rfl
  unfold State.applyCaps
  dsimp only
  split
  · exact halert
  · split
    · exact halert
    · exact halert

theorem raiseHalt_ts (s : State) (p : Nat) (cause : Nat × Nat × Nat × Nat) : (s.raiseHalt p cause).ts = s.ts := by
  unfold State.raiseHalt
  dsimp only
  split <;> rfl

theorem updCtx_ts (s : State) (l : Loc) (f : Ctx → Ctx) : (s.updCtx l f).ts = s.ts := by
  obtain ⟨cs, h⟩ := s.updCtx_eq l f
  rw [h]

theorem tripCell_ts (s : State) (cell : Nat) : (s.tripCell cell).ts = s.ts := by
  refine foldl_ts _ _ _ fun s p => ?_
  unfold State.trapPart
  split
  · rfl
  · rfl
  · rw [raiseHalt_ts, updCtx_ts]
  · rw [raiseHalt_ts]; rfl

theorem setTs_ts (s : State) (k : Nat) (t : TsReg) : (s.setTs k t).ts = Tbl.put s.ts k t := by
  unfold State.setTs
  dsimp only
  split
  · rfl
  · split
    · rfl
    · refine (foldl_ts _ _ _ fun s e => ?_).trans rfl
      split
      · split <;> rfl
      · rfl

/-- The machine after a conversion of reading `r`, which counts as `q` quarter degrees. -/
def converted (s : State) (cell : Nat) (r : Reading) (q : Int) : State :=
  let old := s.tsReg cell
  let new := old.convert r
  let s := s.setTs cell new
  let s := { s with hotCells := s.hotCells.filter (· != cell) ++ (if new.hot then [cell] else []) }
  let s := if 464 ≤ q && !(old.trip && 464 ≤ old.temp) then s.tripCell cell else s
  let s := if 500 ≤ q then s.railsOff else s
  let s := if old.hot && !new.hot then s.kick else s
  if old.cap == new.cap then s else s.applyCaps

theorem converted_register (s : State) (cell : Nat) (r : Reading) {q : Int} (hq : q < 500) :
    (converted s cell r q).tsReg cell = (s.tsReg cell).convert r := by
  have hts : (converted s cell r q).ts = Tbl.put s.ts cell ((s.tsReg cell).convert r) := by
    refine Eq.trans ?_ (setTs_ts s cell _)
    unfold converted
    dsimp only
    rw [if_neg (show ¬ 500 ≤ q by omega)]
    (repeat' split) <;> simp [applyCaps_ts, kick_ts, tripCell_ts]
  rw [State.tsReg, hts]
  exact Tbl.get_put_same _ _ _ _

theorem sensorConversion_register {s : State} {cell : Nat} {r : Reading} (hsafe : ∀ q, r = .temp q → q < 500) :
    ∃ t : State, exec (.sensorConversion cell r) s = .next t ∧ t.tsReg cell = (s.tsReg cell).convert r := by
  cases r with
  | temp q => exact ⟨_, rfl, converted_register s cell (.temp q) (hsafe q rfl)⟩
  | fail => exact ⟨_, rfl, converted_register s cell .fail (q := 432) (by decide)⟩
  | masked => exact ⟨_, rfl, converted_register s cell .masked (q := 432) (by decide)⟩

/-! #### DRAM sensors -/

/-- The refresh state rises to what a reading demands and falls to what it still holds. -/
theorem refreshNext_eq {st : Nat} (q : Int) (hst : st ≤ 3) : refreshNext st q =
    max (if 420 < q then 3 else if 380 ≤ q then 2 else if 340 ≤ q then 1 else 0)
      (min st (if q < 332 then 0 else if q < 372 then 1 else if q < 412 then 2 else 3)) := by
  unfold refreshNext
  dsimp only
  congr 1
  repeat' split
  all_goals omega

theorem applyCaps_dts (s : State) : s.applyCaps.dts = s.dts := by
  have halert : s.capAlert.dts = s.dts := by
    unfold State.capAlert
    split <;> rfl
  unfold State.applyCaps
  dsimp only
  split
  · exact halert
  · split <;> exact halert

theorem fetchLine_dts (s : State) (pa : Nat) : (s.fetchLine pa).dts = s.dts := by
  unfold State.fetchLine
  split
  · rfl
  · dsimp only
    split <;> rfl

theorem foldl_fetchLine (lines : List Nat) (s : State) :
    (lines.foldl (fun s line => s.fetchLine (128 * line)) s).dts = s.dts ∧
      (lines.foldl (fun s line => s.fetchLine (128 * line)) s).mem = s.mem := by
  induction lines generalizing s with
  | nil => exact ⟨rfl, rfl⟩
  | cons a lines ih =>
    obtain ⟨hdts, hmem⟩ := ih (s.fetchLine (128 * a))
    exact ⟨hdts.trans (fetchLine_dts _ _), hmem.trans (State.fetchLine_mem _ _)⟩

theorem dramReading_register (s : State) (n : Nat) (q : Int) :
    ∃ t : State, exec (.dramSensorReading n (.temp q)) s = .next t ∧ t.mem = s.mem ∧
      Tbl.get {} t.dts n = { temp := q, fail := false, st := refreshNext (Tbl.get {} s.dts n).st q, valid := true } := by
  simp only [exec, execDramSensorReading]
  refine ⟨_, rfl, ?_, ?_⟩
  · rw [State.applyCaps_mem]
    split
    · exact (foldl_fetchLine _ _).2
    · rfl
  · rw [applyCaps_dts]
    split
    · rw [(foldl_fetchLine _ _).1]
      exact Tbl.get_put_same _ _ _ _
    · exact Tbl.get_put_same _ _ _ _

/-! #### Rails -/

theorem railsOff_power (s : State) : s.railsOff.dv.power = { s.dv.power with
    on := s.dv.power.on.filter (fun r => r == 6)
    pgood := false
    thermtrip := true } := by
  unfold State.railsOff
  dsimp only
  rw [foldl_power _ _ _ fun s p => State.endPart_power s p cThermalTrip true]

/-- The rails come back where every sensor that is not masked reads below 90 degrees. -/
theorem railsReenable_on {s : State} (htrip : s.dv.power.thermtrip = true)
    (hcool : ∀ e ∈ s.ts, e.2.masked = true ∨ (e.2.fail = false ∧ e.2.temp < 360)) :
    ∃ t : State, exec .railsReenable s = .next t ∧ t.pnow = 7 ∧ t.dv.power.coresOn = true ∧ t.dv.power.pgood = true ∧
      4 ∈ t.dv.power.on ∧ 5 ∈ t.dv.power.on ∧ t.dv.power.thermtrip = false ∧ t.cores = s.cores := by
  have hall : (s.ts.all fun e => e.2.masked || (!e.2.fail && e.2.temp < 360)) = true := by
    rw [List.all_eq_true]
    intro e he
    rcases hcool e he with h | ⟨hf, ht⟩
    · simp [h]
    · simp [hf, ht]
  simp only [exec, execRailsReenable, htrip, hall, Bool.and_self, if_true]
  refine ⟨_, rfl, ?_⟩
  rw [kick_pnow, State.kick_power, kick_cores]
  refine ⟨rfl, ?_, rfl, ?_, ?_, rfl, rfl⟩ <;> simp [Power.coresOn, List.range, List.range.loop]

theorem railsReenable_off {s : State} (hstays : s.dv.power.thermtrip = false ∨ ∃ e ∈ s.ts, e.2.masked = false ∧ 360 ≤ e.2.temp) :
    exec .railsReenable s = .next s := by
  refine if_neg ?_
  rw [Bool.and_eq_true, List.all_eq_true]
  rintro ⟨htrip, hcool⟩
  rcases hstays with h | ⟨e, he, hm, ht⟩
  · rw [h] at htrip
    exact Bool.noConfusion htrip
  · have := hcool e he
    simp only [hm, Bool.false_or, Bool.and_eq_true, decide_eq_true_eq] at this
    omega

/-! #### Registers of sensors -/

/-- A register settles by letting its clocks run again, where it may. -/
theorem settle_eq (t : TsReg) : t.settle = { t with
    stop := if !t.trip && (t.masked || (t.temp < 400 && !t.fail)) then false else t.stop } := by
  unfold TsReg.settle
  split <;> rfl

/-- A point that sets at `up` and clears below `down`. -/
theorem hysteresis_iff (q up down : Int) (b : Bool) :
    (if up ≤ q then true else if q < down then false else b) = true ↔ up ≤ q ∨ (down ≤ q ∧ b = true) := by
  by_cases hset : up ≤ q
  · simp [hset]
  · by_cases hclear : q < down
    · simp [hset, hclear, Int.not_le.mpr hclear]
    · simp [hset, hclear, Int.not_lt.mp hclear]

/-! #### The obligation -/

/-- Settles O40: a reading sets its sensor's register and its points, and what is too hot switches the rails off. -/
theorem sensorEvents : Obligations.SensorEvents := by
  refine ⟨⟨dramReading_register, fun st q hst => ?refresh⟩, fun s cell r => sensorConversion_register, fun t q => ?reads,
    fun t hm => ?fails, fun t hf => ?masked, fun s => ?off, fun s => railsReenable_on, fun s => railsReenable_off⟩
  case refresh =>
    rw [refreshNext_eq q hst]
    refine ⟨?_, ?_, ?_, ?_, ?_, ?_, ?_⟩
    all_goals intros
    all_goals repeat' split
    all_goals omega
  case reads =>
    intro u
    have hu : u = TsReg.settle _ := rfl
    rw [settle_eq] at hu
    rw [hu]
    refine ⟨rfl, rfl, rfl, hysteresis_iff q 412 400 t.hot, hysteresis_iff q 432 420 t.cap, ?_, fun hq => ?_⟩
    · simp [or_comm]
    · simp [hq]
  case fails =>
    simp [TsReg.convert, settle_eq, hm]
  case masked =>
    simp [TsReg.convert, settle_eq, hf]
  case off =>
    rw [railsOff_power]
    refine ⟨rfl, rfl, ?_, fun r => ?_⟩
    · simp [Power.coresOn, List.range, List.range.loop]
    · rw [List.mem_filter, beq_iff_eq]
      exact ⟨fun ⟨h, h6⟩ => ⟨h6, h6 ▸ h⟩, fun ⟨h6, h⟩ => ⟨h6 ▸ h, h6⟩⟩

end Sys2Proof.Machine

/-! ### Events of copies and streams (R284, R285, R324, R325, R328, R329, R333, R335, R339) -/

namespace Sys2Proof.Machine

open Claim

/-! #### Queues of transfers -/

theorem Tbl.get_single {α : Type} (d : α) (q i : Nat) (x : α) : Tbl.get d [(q, x)] i = if i = q then x else d := by
  unfold Tbl.get
  split
  next h => rw [if_neg (by omega)]
  next h => rfl

theorem Tbl.put_put {α : Type} (t : Tbl α) (n : Nat) (x y : α) : Tbl.put (Tbl.put t n x) n y = Tbl.put t n y := by
  induction t with
  | nil => simp [Tbl.put]
  | cons e r ih =>
    obtain ⟨k, v⟩ := e
    simp only [Tbl.put]
    split
    · simp [Tbl.put]
    · split
      · simp [Tbl.put]
      next hlt hne => simp only [Tbl.put, if_neg hlt, if_neg hne, ih]

theorem updHead_eq {c : Ctx} {q : Nat} {x : Xfer} {r : List Xfer} (f : Xfer → Xfer) (h : c.queue q = x :: r) :
    c.updHead q f = c.setQueue q (f x :: r) := by
  unfold Ctx.updHead
  rw [h]

theorem queue_setQueue (c : Ctx) (q : Nat) (x : Xfer) (r : List Xfer) : (c.setQueue q (x :: r)).queue q = x :: r :=
  Tbl.get_set_same_ne _ _ _ _ nofun

theorem setQueue_setQueue (c : Ctx) (q : Nat) (x y : Xfer) (r : List Xfer) :
    (c.setQueue q (x :: r)).setQueue q (y :: r) = c.setQueue q (y :: r) := by
  have hput (t : Tbl (List Xfer)) (z : Xfer) : Tbl.set [] t q (z :: r) = Tbl.put t q (z :: r) := Tbl.set_eq_put _ _ _ _ (by simp)
  have hset : Tbl.set [] (Tbl.set [] c.cq q (x :: r)) q (y :: r) = Tbl.set [] c.cq q (y :: r) := by
    rw [hput, hput, hput, Tbl.put_put]
  exact congrArg (fun t => { c with cq := t }) hset

theorem queue_updHead {c : Ctx} {q : Nat} {x : Xfer} {r : List Xfer} (f : Xfer → Xfer) (h : c.queue q = x :: r) :
    (c.updHead q f).queue q = f x :: r := by
  rw [updHead_eq f h, queue_setQueue]

theorem updHead_part (c : Ctx) (q : Nat) (f : Xfer → Xfer) : (c.updHead q f).part = c.part := by
  unfold Ctx.updHead
  split <;> rfl

/-- A change of the head of a queue, seen in the context. -/
theorem updXfer_ctx {s : State} {l : Loc} (q : Nat) (f : Xfer → Xfer) (hfg : s.inFg l = true) :
    (s.updXfer l q f).ctx l = (s.ctx l).updHead q f :=
  s.ctx_updCtx l _ hfg ((updHead_part _ _ _).trans (s.part_ctx l hfg))

theorem updXfer_inFg {s : State} {l : Loc} (q : Nat) (f : Xfer → Xfer) (hfg : s.inFg l = true) :
    (s.updXfer l q f).inFg l = true :=
  s.inFg_updCtx l _ hfg ((updHead_part _ _ _).trans (s.part_ctx l hfg))

/-- A change of the head that another change overtakes leaves no trace. -/
theorem updXfer_updXfer {s : State} {l : Loc} {q : Nat} {x : Xfer} {r : List Xfer} (f g : Xfer → Xfer) (hfg : s.inFg l = true)
    (h : (s.ctx l).queue q = x :: r) : (s.updXfer l q f).updXfer l q g = s.updXfer l q fun y => g (f y) := by
  have hown : ∀ u : State, u.inFg l = true → ∀ c, u.setCtx l c = u.setCore l.tile { u.core l.tile with fg := c } :=
    fun u hu c => if_pos hu
  have hset : ((s.ctx l).updHead q f).updHead q g = (s.ctx l).updHead q fun y => g (f y) := by
    rw [updHead_eq f h, updHead_eq g (queue_setQueue _ _ _ _), updHead_eq _ h, setQueue_setQueue]
  have hcore : (s.updXfer l q f).core l.tile = { s.core l.tile with fg := (s.ctx l).updHead q f } := by
    rw [State.updXfer, State.core_updCtx _ _ hfg, if_pos rfl]
  have h1 : (s.updXfer l q f).updXfer l q g =
      (s.updXfer l q f).setCore l.tile { (s.updXfer l q f).core l.tile with fg := ((s.updXfer l q f).ctx l).updHead q g } :=
    hown _ (updXfer_inFg q f hfg) _
  have h2 (k : Ctx → Ctx) : s.updCtx l k = s.setCore l.tile { s.core l.tile with fg := k (s.ctx l) } := hown s hfg _
  rw [h1, updXfer_ctx q f hfg, hset, hcore, State.updXfer, State.updXfer, h2, h2]
  unfold State.setCore
  dsimp only
  rw [Tbl.put_put]

/-! #### The start of a transfer (R324, R333, R335) -/

/-- What the head of a queue does when transfers are started. -/
def startHead (l : Loc) (s : State) (q : Nat) : State :=
  match (s.ctx l).queue q with
  | x :: _ =>
    if !(s.ctx l).mayStart s.tick q x then s
    else
      let s := s.updCtx l fun c => c.updHead q fun x => { x with act := true }
      if x.cp.isLocal then s.schedIn 0 (.localCopyMove l q) else s.slotAt l s.tick
  | [] => s

theorem startHead_empty {s : State} {l : Loc} {q : Nat} (h : (s.ctx l).queue q = []) : startHead l s q = s := by
  unfold startHead
  rw [h]

/-- With one queue in use, only its head can start. -/
theorem foldl_startHead {s t : State} {l : Loc} {q : Nat} (hq : q < 4) (hothers : ∀ i, i ≠ q → (s.ctx l).queue i = [])
    (hstep : startHead l s q = t) (hafter : ∀ i, i ≠ q → (t.ctx l).queue i = []) : (List.range 4).foldl (startHead l) s = t := by
  have hidle (u : State) (is : List Nat) (h : ∀ i ∈ is, (u.ctx l).queue i = []) : is.foldl (startHead l) u = u := by
    induction is with
    | nil => rfl
    | cons i is ih =>
      rw [List.foldl_cons, startHead_empty (h i List.mem_cons_self)]
      exact ih fun j hj => h j (List.mem_cons_of_mem _ hj)
  obtain ⟨pre, post, hsplit⟩ := List.append_of_mem (List.mem_range.mpr hq)
  have hnodup : (pre ++ q :: post).Nodup := hsplit ▸ List.nodup_range
  obtain ⟨-, htail, hapart⟩ := List.nodup_append.mp hnodup
  have hne (i : Nat) (hi : i ∈ pre ++ post) : i ≠ q := by
    rcases List.mem_append.mp hi with hi | hi
    · exact hapart i hi q List.mem_cons_self
    · exact fun h => (List.nodup_cons.mp htail).1 (h ▸ hi)
  rw [hsplit, List.foldl_append, hidle s pre fun i hi => hothers i (hne i (List.mem_append_left _ hi)), List.foldl_cons, hstep,
    hidle t post fun i hi => hafter i (hne i (List.mem_append_right _ hi))]

theorem slotAt_more (s : State) (l : Loc) (n : Nat) : MoreEvents s (s.slotAt l n) := by
  unfold State.slotAt
  dsimp only
  split
  · exact MoreEvents.refl s
  · exact MoreEvents.sched s _ _

/-- A slot of the tile stands on the agenda. -/
theorem slotAt_due (s : State) (l : Loc) : ∃ e ∈ (s.slotAt l s.tick).agenda, ∃ err, e.2 = .copySlotMove ⟨l, err, none⟩ := by
  unfold State.slotAt
  dsimp only
  split
  next h =>
    obtain ⟨⟨n, ev⟩, he, hslot⟩ := List.any_eq_true.mp h
    refine ⟨_, he, ?_⟩
    dsimp only at hslot
    split at hslot
    next m =>
      obtain ⟨ml, err, run⟩ := m
      simp only [Bool.and_eq_true, beq_iff_eq, Option.isNone_iff_eq_none] at hslot
      obtain ⟨rfl, rfl⟩ := hslot
      exact ⟨err, rfl⟩
    next => exact Bool.noConfusion hslot
  next => exact ⟨_, State.mem_sched _ _ _ (by unfold nextSlot; omega), false, rfl⟩

theorem fencesLeft_none {c : Ctx} (h : c.qfence = []) (now : Nat) : c.fencesLeft now = c := by
  cases c
  cases h
  rfl

section
variable {s : State} {l : Loc} {q : Nat} {x : Xfer} (hfg : s.inFg l = true) (hcq : (s.ctx l).cq = [(q, [x])])
  (hfence : (s.ctx l).qfence = [])
include hfg hcq hfence

theorem transferStart_step (hgone : x.gone s.tick = false) :
    ∃ u : State, u.tick = s.tick ∧ u.mem = s.mem ∧ u.inFg l = true ∧ u.ctx l = s.ctx l ∧
      exec (.copyTransferStart l q) s = .next ((List.range 4).foldl (startHead l) u) := by
  have hqueue : (s.ctx l).queue q = [x] := by rw [Ctx.queue, hcq, Tbl.get_single, if_pos rfl]
  let f (c : Ctx) : Ctx := c.fencesLeft s.tick
  have hf : f (s.ctx l) = s.ctx l := fencesLeft_none hfence s.tick
  refine ⟨s.updCtx l f, s.updCtx_tick l f, s.updCtx_mem l f, s.inFg_updCtx l f hfg (by rw [hf]; exact s.part_ctx l hfg),
    (s.ctx_updCtx l f hfg (by rw [hf]; exact s.part_ctx l hfg)).trans hf, ?_⟩
  simp only [exec, execCopyTransferStart, hqueue, hgone, Bool.false_eq_true, if_false]
  rfl

theorem transfer_starts (hq : q < 4) (hfin : x.fin = none) (hact : x.act = false) (hgate : x.gate ≤ s.tick) :
    ∃ t : State, exec (.copyTransferStart l q) s = .next t ∧ (t.ctx l).queue q = [{ x with act := true }] ∧ t.mem = s.mem ∧
      (x.cp.isLocal = true → (s.tick, .localCopyMove l q) ∈ t.agenda) ∧
      (x.cp.isLocal = false → ∃ e ∈ t.agenda, ∃ err, e.2 = .copySlotMove ⟨l, err, none⟩) := by
  have hgone : x.gone s.tick = false := by unfold Xfer.gone; rw [hfin]; rfl
  obtain ⟨u, htick, hmem, hfgu, hctx, hstep⟩ := transferStart_step hfg hcq hfence hgone
  have hqueue (i : Nat) : (u.ctx l).queue i = if i = q then [x] else [] := by rw [Ctx.queue, hctx, hcq, Tbl.get_single]
  have hhead : (u.ctx l).queue q = [x] := (hqueue q).trans (if_pos rfl)
  have hlocal : (u.ctx l).localBefore u.tick x = false := by
    unfold Ctx.localBefore
    rw [List.any_eq_false]
    intro i _
    rw [hqueue]
    split <;> simp
  have hmay : (u.ctx l).mayStart u.tick q x = true := by
    have hfree (n : Nat) : (u.ctx l).fenced n q x = false := by unfold Ctx.fenced; rw [hctx, hfence]; rfl
    simp [Ctx.mayStart, hact, hfin, htick, hgate, hfree, htick ▸ hlocal]
  let v := u.updXfer l q fun x => { x with act := true }
  have hv : v.ctx l = (u.ctx l).updHead q fun x => { x with act := true } := updXfer_ctx q _ hfgu
  have hvq : (v.ctx l).queue q = [{ x with act := true }] := by rw [hv, queue_updHead _ hhead]
  have hvtick : v.tick = s.tick := (u.updCtx_tick l _).trans htick
  have hvmem : v.mem = s.mem := (u.updCtx_mem l _).trans hmem
  have hvothers (i : Nat) (hi : i ≠ q) : (v.ctx l).queue i = [] := by
    have hcqu : (u.ctx l).cq = [(q, [x])] := by rw [hctx, hcq]
    have hset : (v.ctx l).cq = [(q, [{ x with act := true }])] := by
      rw [hv, updHead_eq _ hhead]
      simp [Ctx.setQueue, hcqu, Tbl.set]
    rw [Ctx.queue, hset, Tbl.get_single, if_neg hi]
  let t : State := if x.cp.isLocal then v.schedIn 0 (.localCopyMove l q) else v.slotAt l v.tick
  have hmore : MoreEvents v t := by
    show MoreEvents v (if _ then _ else _)
    split
    · exact MoreEvents.sched v _ _
    · exact slotAt_more v l _
  have hstart : startHead l u q = t := by
    unfold startHead
    rw [hhead]
    simp only [hmay, Bool.not_true, Bool.false_eq_true, if_false]
    rfl
  have htctx : t.ctx l = v.ctx l := by obtain ⟨ag, h, -⟩ := hmore; rw [h]; rfl
  refine ⟨t, hstep.trans (congrArg Host.Outcome.next (foldl_startHead hq (fun i hi => (hqueue i).trans (if_neg hi)) hstart
    fun i hi => by rw [htctx, hvothers i hi])), by rw [htctx, hvq], ?_, fun hloc => ?_, fun hloc => ?_⟩
  · obtain ⟨ag, h, -⟩ := hmore
    rw [h]
    exact hvmem
  · rw [show t = v.schedIn 0 (.localCopyMove l q) from if_pos hloc, ← hvtick]
    exact State.mem_sched _ _ _ (by omega)
  · rw [show t = v.slotAt l v.tick from if_neg (by simp [hloc])]
    exact slotAt_due v l

end

theorem transfer_leaves {s : State} {l : Loc} {q : Nat} {x : Xfer} {n : Nat} (hfg : s.inFg l = true) (hq : q < 4)
    (hcq : (s.ctx l).cq = [(q, [x])]) (hfin : x.fin = some n) (hn : n ≤ s.tick) (hnt : x.nt = false) :
    ∃ t : State, exec (.copyTransferStart l q) s = .next t ∧ (t.ctx l).queue q = [] ∧ t.mem = s.mem := by
  have hqueue : (s.ctx l).queue q = [x] := by rw [Ctx.queue, hcq, Tbl.get_single, if_pos rfl]
  have hgone : x.gone s.tick = true := by unfold Xfer.gone; rw [hfin]; simp [hn]
  let v := s.updCtx l fun c => c.setQueue q []
  have hfgv : v.inFg l = true := s.inFg_updCtx l _ hfg (s.part_ctx l hfg)
  have hv : v.ctx l = (s.ctx l).setQueue q [] := s.ctx_updCtx l _ hfg (s.part_ctx l hfg)
  let u := v.updCtx l fun c => c.fencesLeft v.tick
  have hu : u.ctx l = ((s.ctx l).setQueue q []).fencesLeft v.tick :=
    (v.ctx_updCtx l _ hfgv (v.part_ctx l hfgv)).trans (by rw [hv])
  have hempty (i : Nat) : (u.ctx l).queue i = [] := by
    have hcqu : (u.ctx l).cq = [] := by
      rw [hu]
      show Tbl.set [] (s.ctx l).cq q [] = []
      rw [hcq]
      simp [Tbl.set]
    rw [Ctx.queue, hcqu]
    rfl
  have hfold : (List.range 4).foldl (startHead l) u = u :=
    foldl_startHead hq (fun i _ => hempty i) (startHead_empty (hempty q)) fun i _ => hempty i
  refine ⟨u, ?_, hempty q, (v.updCtx_mem l _).trans (s.updCtx_mem l _)⟩
  have hstep : exec (.copyTransferStart l q) s = .next ((List.range 4).foldl (startHead l) u) := by
    simp only [exec, execCopyTransferStart, hqueue, hgone, hnt, Bool.false_and, Bool.false_eq_true, if_false, if_true]
    rfl
  rw [hstep, hfold]


/-! #### What a slot takes (R325) -/

/-- What a slot has taken so far: runs of the queue, from the transfer's next element on, with all the elements counted. -/
structure TakenRuns (x : Xfer) (q most : Nat) (t : Taken) : Prop where
  count : t.n ≤ most
  sum : (t.runs.map (·.n)).sum = t.n
  own : ∀ r ∈ t.runs, r.q = q ∧ r.lands = false ∧ x.next ≤ r.elem

/-- One more element lengthens the last run or begins another. -/
theorem TakenRuns.more {x : Xfer} {q most : Nat} {t : Taken} (h : TakenRuns x q most t) (u : State) (a b : Ends) (same : Bool) :
    TakenRuns x q (most + 1) {
      s := u
      n := t.n + 1
      runs := match t.runs.getLast? with
        | some r => if same then t.runs.dropLast ++ [{ r with n := r.n + 1 }]
            else t.runs ++ [{ q := q, elem := x.next + t.n, n := 1, srcs := a, dsts := b }]
        | none => [{ q := q, elem := x.next + t.n, n := 1, srcs := a, dsts := b }] } := by
  obtain ⟨hcount, hsum, hown⟩ := h
  have hnew : x.next ≤ x.next + t.n := Nat.le_add_right _ _
  cases hl : t.runs.getLast? with
  | none =>
    have hnil : t.runs = [] := List.getLast?_eq_none_iff.mp hl
    have hzero : t.n = 0 := by rw [← hsum, hnil]; rfl
    refine ⟨Nat.succ_le_succ hcount, by simp [hzero], fun r hr => ?_⟩
    rw [List.mem_singleton.mp hr]
    exact ⟨rfl, rfl, hnew⟩
  | some r =>
    obtain ⟨pre, hpre⟩ := List.getLast?_eq_some_iff.mp hl
    have hsum' : (pre.map (·.n)).sum + r.n = t.n := by rw [← hsum, hpre]; simp
    cases same with
    | true =>
      refine ⟨Nat.succ_le_succ hcount, ?_, fun z hz => ?_⟩
      · simp only [if_true, hpre, List.dropLast_concat, List.map_append, List.map_cons, List.map_nil, List.sum_append,
          List.sum_cons, List.sum_nil]
        omega
      · simp only [if_true, hpre, List.dropLast_concat, List.mem_append, List.mem_singleton] at hz
        rcases hz with hz | rfl
        · exact hown z (by rw [hpre]; exact List.mem_append_left _ hz)
        · exact hown r (by rw [hpre]; simp)
    | false =>
      refine ⟨Nat.succ_le_succ hcount, by simp [hsum], fun z hz => ?_⟩
      simp only [Bool.false_eq_true, if_false, List.mem_append, List.mem_singleton] at hz
      rcases hz with hz | rfl
      · exact hown z hz
      · exact ⟨rfl, rfl, hnew⟩

theorem TakenRuns.held {x : Xfer} {q m m' : Nat} {t u : Taken} (h : TakenRuns x q m t) (hm : m ≤ m') (hn : u.n = t.n) (hr : u.runs = t.runs) :
    TakenRuns x q m' u := ⟨by rw [hn]; exact Nat.le_trans h.count hm, by rw [hr, hn]; exact h.sum, by rw [hr]; exact h.own⟩

theorem takeElems_runs (l : Loc) (x : Xfer) (q fuel : Nat) : ∀ (m : Nat) (t : Taken), TakenRuns x q m t →
    TakenRuns x q (m + fuel) (State.takeElems l x q fuel t) := by
  induction fuel with
  | zero => exact fun m t h => h
  | succ fuel ih =>
    intro m t h
    unfold State.takeElems
    dsimp only
    split
    · exact h.held (Nat.le_add_right _ _) rfl rfl
    · split
      · exact h.held (Nat.le_add_right _ _) rfl rfl
      · split
        · exact h.held (Nat.le_add_right _ _) rfl rfl
        · split
          · exact h.held (Nat.le_add_right _ _) rfl rfl
          · rw [show m + (fuel + 1) = m + 1 + fuel by omega]
            exact ih _ _ (h.more _ _ _ _)

/-! #### Runs at their source and their destination (R328, R329, R339) -/

theorem readRun_waits {s : State} {l : Loc} {r : CopyRun} {x : Xfer} {rest : List Xfer} {err : Bool}
    (hq : (s.ctx l).queue r.q = x :: rest) (hnext : r.elem < x.next) (hturn : x.read ≠ r.elem) :
    s.readRun l r err = s.schedIn 1 (.copySlotMove ⟨l, false, some r⟩) := by
  unfold State.readRun
  simp only [hq, if_neg (Nat.not_le.mpr hnext), bne_iff_ne.mpr hturn, if_true]

theorem readRun_reads {s : State} {l : Loc} {r : CopyRun} {x : Xfer} {rest : List Xfer} {err : Bool}
    (hq : (s.ctx l).queue r.q = x :: rest) (hnext : r.elem < x.next) (hturn : x.read = r.elem) :
    let e := State.moveElems l x err r.elem r.n { s := s, m := x.fly.flatMap (·.m) }
    let u := e.s.updXfer l r.q fun y => { y with read := y.read + e.n, out := y.out + 1, fly := inFlight s l x r e :: y.fly }
    e.n ≠ 0 → e.held = none → s.readRun l r err =
      (u.packet l.part (u.farthest (x.dataLegs l true r.srcs (e.n * x.cp.ssz)) ++
          u.farthest (x.dataLegs l false r.dsts (e.n * x.cp.dsz)))
        (.copySlotMove ⟨l, false, some { r with n := e.n, lands := true }⟩)).runOver l r.q := by
  intro e u hn hheld
  unfold State.readRun
  simp only [hq, if_neg (Nat.not_le.mpr hnext), hturn, bne_self_eq_false, Bool.false_eq_true, if_false]
  rw [show (State.moveElems l x err r.elem r.n { s := s, m := x.fly.flatMap (·.m) }).held = none from hheld, if_neg hn]
  rfl

section
variable {s : State} {l : Loc} {r : CopyRun} {x : Xfer} {rest : List Xfer} {err : Bool}
  (hq : (s.ctx l).queue r.q = x :: rest) (hnext : r.elem < x.next)
include hq hnext

theorem landRun_waits (hturn : x.landed ≠ r.elem) : s.landRun l r err = s.schedIn 1 (.copySlotMove ⟨l, false, some r⟩) := by
  unfold State.landRun
  simp only [hq, if_neg (Nat.not_le.mpr hnext), bne_iff_ne.mpr hturn, if_true]

/-- A run whose turn it is, at tiles that are awake and lines that nothing waits for, is written and reported. -/
theorem landRun_lands (hturn : x.landed = r.elem)
    (hawake : ∀ b ∈ bytesOf x r, ∀ t, b.1 = some t → s.quadAwake t = true)
    (hlines : ∀ b ∈ bytesOf x r, b.1 = none → s.mustWait b.2.1 = false) :
    let gone (y : Xfer) : Xfer := { y with fly := y.fly.filter fun f => f.elem != r.elem }
    let u := (s.landMoved l (bytesOf x r)).updXfer l r.q fun y => { gone y with landed := y.landed + r.n }
    s.landRun l r err =
      if err && r.dsts.contains none then (s.updXfer l r.q fun y => (gone y).stopAt r.elem (0x0E, 3)).runOver l r.q
      else match x.reported l r.dsts with
        | [] => u.runOver l r.q
        | es => u.packet l.part (u.farthest (es.map fun e => [({ order := x.rorder, src := e, dst := some l.tile } : Leg)]))
          (.copyWriteReport l r.q r.elem false) := by
  intro gone u
  have hasleep : (((bytesOf x r).filterMap (·.1)).eraseDups.filter fun t => !s.quadAwake t) = [] := by
    rw [List.filter_eq_nil_iff]
    intro t ht
    obtain ⟨b, hb, hbt⟩ := List.mem_filterMap.mp (List.mem_eraseDups.mp ht)
    simp [hawake b hb t hbt]
  have hfree : ((bytesOf x r).any fun b => b.1 == none && s.mustWait b.2.1) = false := by
    rw [List.any_eq_false]
    intro b hb h
    rw [Bool.and_eq_true, beq_iff_eq] at h
    rw [hlines b hb h.1] at h
    exact Bool.noConfusion h.2
  unfold bytesOf at hasleep hfree
  unfold State.landRun
  simp only [hq, if_neg (Nat.not_le.mpr hnext), hturn, bne_self_eq_false, Bool.false_eq_true, if_false, hasleep, hfree,
    List.isEmpty_nil, Bool.not_true]
  rfl

end

/-- Bytes of one line are one group. -/
theorem byLine_line {bs : List (Nat × Byte)} {line : Nat} (hne : bs ≠ []) (hline : ∀ b ∈ bs, b.1 / 128 = line) :
    byLine bs = [bs] := by
  have hall : bs.filter (fun b => b.1 / 128 == line) = bs :=
    List.filter_eq_self.mpr fun b hb => by simp [hline b hb]
  obtain ⟨b, r, rfl⟩ := List.exists_cons_of_ne_nil hne
  have hrest : (r.map fun b => b.1 / 128).filter (fun n => !n == line) = [] := by
    rw [List.filter_eq_nil_iff]
    intro n hn
    obtain ⟨b', hb', rfl⟩ := List.mem_map.mp hn
    simp [hline b' (List.mem_cons_of_mem _ hb')]
  unfold byLine
  rw [List.map_cons, hline b List.mem_cons_self, List.eraseDups_cons, hrest, List.eraseDups_nil, List.map_cons, List.map_nil, hall]

theorem isHome_line (pa : Nat) : isHome (128 * (pa / 128)) = isHome pa := by
  have hlow (n : Nat) : 128 * (pa / 128) < 128 * n ↔ pa < 128 * n := by omega
  have hhigh (n : Nat) : 128 * n ≤ 128 * (pa / 128) ↔ 128 * n ≤ pa := by omega
  have hspace : spaceOf (128 * (pa / 128)) = spaceOf pa := by
    unfold spaceOf
    simp only [show 2 ^ 37 = 128 * 2 ^ 30 from rfl, show 2 ^ 40 = 128 * 2 ^ 33 from rfl, show 2 ^ 41 = 128 * 2 ^ 34 from rfl,
      show 2 ^ 46 = 128 * 2 ^ 39 from rfl, show 2 ^ 47 = 128 * 2 ^ 40 from rfl, show 2 ^ 48 = 128 * 2 ^ 41 from rfl, hlow, hhigh]
  rw [isHome, hspace, isHome]

theorem physWrite_mem {s : State} {bs : List (Nat × Byte)} (pz : Bool) (hhome : ∀ b ∈ bs, isHome b.1 = true) :
    (s.physWrite bs pz).mem = s.mem.setMany bs := by
  cases bs with
  | nil => rfl
  | cons b r =>
    rw [show s.physWrite (b :: r) pz = s.homeWrite (b :: r) pz from if_pos (hhome b List.mem_cons_self), homeWrite_mem]

/-- Bytes of one line of memory land as one write (R328). -/
theorem landMoved_line {s : State} {l : Loc} {m : Moved} {line : Nat} (hhome : isHome (128 * line) = true)
    (hline : ∀ b ∈ m, b.1 = none ∧ b.2.1 / 128 = line) :
    (s.landMoved l m).mem = s.mem.setMany (m.reverse.map fun b => (b.2.1, b.2.2.1)) := by
  have hphys : (m.filter fun x => x.1 == none).reverse = m.reverse := by
    rw [List.filter_eq_self.mpr]
    intro b hb
    simp [(hline b hb).1]
  have htiles : (m.filterMap (·.1)).eraseDups = [] := by
    rw [List.filterMap_eq_nil_iff.mpr fun b hb => (hline b hb).1]
    rfl
  unfold State.landMoved
  simp only [hphys, htiles, List.foldl_nil]
  by_cases hnil : m = []
  · rw [hnil]
    rfl
  · have hsame : ∀ b ∈ m.reverse.map (fun b => (b.2.1, b.2.2.1)), b.1 / 128 = line := by
      intro b hb
      obtain ⟨b', hb', rfl⟩ := List.mem_map.mp hb
      exact (hline b' (List.mem_reverse.mp hb')).2
    rw [byLine_line (by simpa using hnil) hsame, List.foldl_cons, List.foldl_nil]
    refine physWrite_mem _ fun b hb => ?_
    rw [← isHome_line, hsame b hb, hhome]

/-- A trap changes of a context its list of stops alone. -/
theorem raiseTrap_keeps {α : Type} {s : State} {l : Loc} (r : StopRec) (f : Ctx → α) (hf : ∀ c xs, f { c with stops := xs } = f c)
    (hfg : s.inFg l = true) : f ((s.raiseTrap l r).ctx l) = f (s.ctx l) := by
  unfold State.raiseTrap
  split
  · rfl
  · dsimp only
    rw [State.ctx_congr _ _ _ (raiseHalt_same _ _ _).1, s.ctx_updCtx l _ hfg (s.part_ctx l hfg), hf]

/-! #### Local transfers and reports (R329, R335, R339, R342) -/

theorem runOver_settled {s : State} {l : Loc} {q : Nat} (hidle : ∀ x ∈ (((s.updXfer l q fun x => { x with out := x.out - 1 }).copySettle l q).ctx l).queue q
      |>.head?, (x.solo && x.moving) = false) :
    s.runOver l q = (s.updXfer l q fun x => { x with out := x.out - 1 }).copySettle l q := by
  unfold State.runOver
  refine if_neg ?_
  rw [Option.any_eq_true_iff_get]
  rintro ⟨h, hx⟩
  rw [hidle _ (Option.get_mem h)] at hx
  exact Bool.noConfusion hx

/-- What is done about a transfer of which nothing is on its way. -/
theorem copySettle_over {s : State} {l : Loc} {q : Nat} {x : Xfer} {r : List Xfer} (hq : (s.ctx l).queue q = x :: r)
    (hout : x.out = 0) (hstands : x.stands = true) :
    s.copySettle l q = if x.cancelled then s.copyDone l q
      else match x.pend with
        | some f => s.copyTrap l x q f.1 f.2 x.next
        | none => if x.landed == x.cp.total then s.copyDone l q else s := by
  unfold State.copySettle
  simp only [hq, hout, hstands, bne_self_eq_false, Bool.not_true, Bool.or_self, Bool.false_eq_true, if_false]
    <;> rfl

section
variable {s : State} {l : Loc} {q : Nat} {x : Xfer} {r : List Xfer} (hfg : s.inFg l = true) (hq : (s.ctx l).queue q = x :: r)
include hfg hq

theorem queue_updXfer (f : Xfer → Xfer) : ((s.updXfer l q f).ctx l).queue q = f x :: r := by
  rw [updXfer_ctx q f hfg, queue_updHead f hq]

theorem runOver_going (hout : x.out ≠ 1) (hpos : 0 < x.out) (hsolo : x.solo = false) :
    s.runOver l q = s.updXfer l q fun x => { x with out := x.out - 1 } := by
  have hhead := queue_updXfer hfg hq fun x => { x with out := x.out - 1 }
  have hsettle : (s.updXfer l q fun x => { x with out := x.out - 1 }).copySettle l q =
      s.updXfer l q fun x => { x with out := x.out - 1 } := by
    unfold State.copySettle
    rw [hhead]
    exact if_pos (by simp; omega)
  rw [runOver_settled, hsettle]
  rw [hsettle, hhead]
  rintro y ⟨⟩
  simp [hsolo]

/-- What is over stands in its queue as complete. -/
theorem copyDone_head : ∃ n, ((s.copyDone l q).ctx l).queue q = { x with fin := some n } :: r := by
  let d := if x.cancelled then 2 else 1
  let u := s.updXfer l q fun x => { x with fin := some (s.tick + d) }
  have hu : u.inFg l = true := updXfer_inFg q _ hfg
  have hdone : s.copyDone l q = (u.tokDone l x.tok ((u.ctx l).now u.tick + 1)).schedIn d (.copyTransferStart l q) := by
    unfold State.copyDone
    rw [hq]
    rfl
  refine ⟨s.tick + d, ?_⟩
  have hctx : ((s.copyDone l q).ctx l) = (u.ctx l).complete x.tok ((u.ctx l).now u.tick + 1) := by
    rw [hdone]
    exact tokDone_ctx _ _ hu
  rw [hctx]
  exact queue_updXfer hfg hq _

theorem copyTrap_head (y : Xfer) (code cause elem : Nat) :
    ((s.copyTrap l y q code cause elem).ctx l).queue q = { x with fault := some elem, pend := none } :: r := by
  let u := s.updXfer l q fun x => { x with fault := some elem, pend := none }
  have hu : u.inFg l = true := updXfer_inFg q _ hfg
  exact (raiseTrap_keeps _ (fun c => c.queue q) (fun _ _ => rfl) hu).trans (queue_updXfer hfg hq _)

/-- The report that ends a transfer: nothing more of it is on its way. -/
theorem runOver_ends (hout : x.out = 1) (hstands : x.stands = true)
    (hall : x.cancelled = true ∨ (x.pend = none ∧ x.landed = x.cp.total)) :
    s.runOver l q = (s.updXfer l q fun x => { x with out := x.out - 1 }).copyDone l q := by
  have hhead := queue_updXfer hfg hq fun x => { x with out := x.out - 1 }
  have hfgu : (s.updXfer l q fun x => { x with out := x.out - 1 }).inFg l = true := updXfer_inFg q _ hfg
  have hsettle : (s.updXfer l q fun x => { x with out := x.out - 1 }).copySettle l q =
      (s.updXfer l q fun x => { x with out := x.out - 1 }).copyDone l q := by
    rw [copySettle_over hhead (by simp [hout]) hstands]
    rcases hall with hc | ⟨hp, hl⟩
    · exact if_pos hc
    · simp [hp, hl]
  rw [runOver_settled, hsettle]
  obtain ⟨n, hdone⟩ := copyDone_head hfgu hhead
  rw [hsettle, hdone]
  rintro y ⟨⟩
  simp [Xfer.moving, Xfer.stands]

/-- The report of an error that ends a transfer raises its fault (R339). -/
theorem runOver_traps (hc : x.cancelled = false) (hout : x.out = 1) (hstands : x.stands = true) {f : Nat × Nat}
    (hpend : x.pend = some f) :
    let u := s.updXfer l q fun x => { x with out := x.out - 1 }
    s.runOver l q = u.copyTrap l { x with out := x.out - 1 } q f.1 f.2 x.next := by
  intro u
  have hhead := queue_updXfer hfg hq fun x => { x with out := x.out - 1 }
  have hsettle : u.copySettle l q = u.copyTrap l { x with out := x.out - 1 } q f.1 f.2 x.next := by
    rw [copySettle_over hhead (by simp [hout]) hstands, if_neg (by simp [hc])]
    split
    next g hg =>
      obtain rfl : f = g := Option.some.inj (hpend.symm.trans hg)
      rfl
    next hnone => exact absurd (hpend.symm.trans hnone) nofun
  rw [runOver_settled, hsettle]
  rw [hsettle, copyTrap_head (updXfer_inFg q _ hfg) hhead]
  rintro y ⟨⟩
  simp [Xfer.moving, Xfer.stands]

theorem writeReport_cancelled {elem : Nat} (hc : x.cancelled = true) :
    exec (.copyWriteReport l q elem true) s = exec (.copyWriteReport l q elem false) s := by
  let stop (x : Xfer) : Xfer := x.stopAt (min elem x.next) (cCopyFault, 3)
  have hover (g : Xfer → Xfer) : (s.updXfer l q stop).updXfer l q g = s.updXfer l q g := by
    rw [updXfer_updXfer stop g hfg hq, State.updXfer, State.updXfer, State.updCtx, State.updCtx, updHead_eq _ hq, updHead_eq _ hq]
    rw [show stop x = x from if_pos hc]
  have hrun : (s.updXfer l q stop).runOver l q = s.runOver l q := by
    unfold State.runOver
    rw [hover]
  exact congrArg Host.Outcome.next hrun

theorem writeReport_traps {elem : Nat} (hc : x.cancelled = false) (helem : elem ≤ x.next) (hout : x.out = 1)
    (hstands : x.stands = true) : ∃ (u : State) (y : Xfer),
      exec (.copyWriteReport l q elem true) s = .next (u.copyTrap l y q 0x0E 3 elem) ∧
      (u.ctx l).queue q = y :: r ∧ y = { x with
        out := 0, next := elem, read := min x.read elem, landed := min x.landed elem, pend := some (0x0E, 3) } ∧
      u.mem = s.mem ∧ u.agenda = s.agenda := by
  let stop (x : Xfer) : Xfer := x.stopAt (min elem x.next) (cCopyFault, 3)
  have hstop : stop x = { x with
      next := elem, read := min x.read elem, landed := min x.landed elem, pend := some (0x0E, 3) } := by
    show x.stopAt (min elem x.next) (cCopyFault, 3) = _
    rw [Nat.min_eq_left helem]
    exact if_neg (by simp [hc])
  have hfgv : (s.updXfer l q stop).inFg l = true := updXfer_inFg q stop hfg
  have hv : ((s.updXfer l q stop).ctx l).queue q = { x with
      next := elem, read := min x.read elem, landed := min x.landed elem, pend := some (0x0E, 3) } :: r := by
    rw [queue_updXfer hfg hq, hstop]
  have hrun := runOver_traps hfgv hv hc hout hstands rfl
  refine ⟨_, _, congrArg Host.Outcome.next hrun, queue_updXfer hfgv hv _, by simp [hout], ?_, ?_⟩
  · exact (State.updCtx_mem _ _ _).trans (State.updCtx_mem _ _ _)
  · exact (State.updCtx_agenda _ _ _).trans (State.updCtx_agenda _ _ _)

end

/-! #### Streams (R284, R285) -/

/-- The push of a stream that lands first is taken. -/
theorem takePush_first {v : Nat} {pre post : List Push} {p : Push} (hslot : p.slot = v) (hw : p.w.isSome)
    (hpre : ∀ x ∈ pre, x.slot = v → ∀ n ∈ x.landsAt, ∀ m ∈ p.landsAt, m < n)
    (hpost : ∀ x ∈ post, x.slot = v → ∀ n ∈ x.landsAt, ∀ m ∈ p.landsAt, m ≤ n) :
    takePush v (pre ++ p :: post) = (some p, pre ++ post) := by
  obtain ⟨w, hw⟩ := Option.isSome_iff_exists.mp hw
  have hlands : p.landsAt = some (w + p.q + 2) := by unfold Push.landsAt; rw [hw]; rfl
  generalize w + p.q + 2 = t at hlands
  let on (x : Push) : Bool := x.slot == v && x.w.isSome
  have hon : on p = true := by simp [on, hslot, hw]
  have hmin : (((pre ++ p :: post).filter on).filterMap Push.landsAt).min? = some t := by
    rw [List.min?_eq_some_iff]
    refine ⟨List.mem_filterMap.mpr ⟨p, List.mem_filter.mpr ⟨by simp, hon⟩, hlands⟩, fun n hn => ?_⟩
    obtain ⟨x, hx, hxn⟩ := List.mem_filterMap.mp hn
    obtain ⟨hmem, hxon⟩ := List.mem_filter.mp hx
    have hxv : x.slot = v := by simp only [on, Bool.and_eq_true, beq_iff_eq] at hxon; exact hxon.1
    rcases List.mem_append.mp hmem with h | h
    · exact Nat.le_of_lt (hpre x h hxv n hxn t hlands)
    · rcases List.mem_cons.mp h with rfl | h
      · rw [hlands] at hxn
        exact Nat.le_of_eq (Option.some.inj hxn)
      · exact hpost x h hxv n hxn t hlands
  let hit (x : Push) : Bool := on x && x.landsAt == some t
  have hhit : hit p = true := by simp only [hit, hon, hlands, beq_self_eq_true, Bool.and_self]
  have hmiss : ∀ x ∈ pre, ¬ hit x = true := by
    intro x hx h
    simp only [hit, on, Bool.and_eq_true, beq_iff_eq] at h
    exact absurd (hpre x hx h.1.1 t h.2 t hlands) (Nat.lt_irrefl t)
  unfold takePush
  simp only [show (((pre ++ p :: post).filter fun p => p.slot == v && p.w.isSome).filterMap Push.landsAt).min? = some t from hmin]
  refine Prod.ext ?_ ?_
  · show (pre ++ p :: post).find? hit = some p
    rw [List.find?_append, List.find?_eq_none.mpr hmiss, List.find?_cons_of_pos hhit]
    rfl
  · show (pre ++ p :: post).eraseP hit = pre ++ post
    rw [List.eraseP_append_right _ hmiss, List.eraseP_cons_of_pos hhit]

/-- Settles O41: transfers start, move their elements in runs and end, and streams fetch and write their vectors. -/
theorem copyAndStreamEvents : Obligations.CopyAndStreamEvents := by
  refine ⟨fun s l q x hfg hq hcq hfence => ⟨transfer_starts hfg hcq hfence hq, fun n => transfer_leaves hfg hq hcq⟩,
    fun s l err => ⟨?wait, ?none, ?turn, ?takes⟩, fun s l r x rest err hq hnext => ⟨?reads, ?lwait, ?lands⟩,
    fun s l m line => landMoved_line, fun s l q x r hq => ⟨?moves, fun hfg elem => ⟨?going, ?ends, writeReport_cancelled hfg hq,
      writeReport_traps hfg hq⟩⟩, fun s l v => ⟨?fetch, rfl, rfl, ?write⟩⟩
  case wait =>
    intro hother
    simp only [exec, execCopySlotMove, bne_iff_ne.mpr hother, if_true]
    rfl
  case none =>
    intro hown hnone
    have hfind : ((List.range 4).map fun i => ((s.ctx l).cpTurn + 1 + i) % 4).find? (ableAt s l) = none := hnone
    unfold ableAt at hfind
    simp only [exec, execCopySlotMove, hown, bne_self_eq_false, Bool.false_eq_true, if_false, hfind]
    rfl
  case turn =>
    intro q x r hown hturn hq u
    have hfind : ((List.range 4).map fun i => ((s.ctx l).cpTurn + 1 + i) % 4).find? (ableAt s l) = some q := hturn
    unfold ableAt at hfind
    simp only [exec, execCopySlotMove, hown, bne_self_eq_false, Bool.false_eq_true, if_false, hfind, hq, List.head?_cons, Option.map_some,
      Option.getD_some]
    exact (apply_ite Host.Outcome.next _ _ _).symm
  case takes =>
    intro x q most t
    obtain ⟨hcount, hsum, hown⟩ := takeElems_runs l x q most 0 { s := s } ⟨Nat.le_refl 0, rfl, nofun⟩
    exact ⟨by simpa using hcount, hsum, hown⟩
  case reads =>
    intro hread
    have hstep : exec (.copySlotMove ⟨l, err, some r⟩) s = .next (s.readRun l r err) := by
      simp only [exec, execCopySlotMove, hread, Bool.false_eq_true, if_false]
      rfl
    refine ⟨fun hturn => hstep.trans (congrArg Host.Outcome.next (readRun_waits hq hnext hturn)), ?_⟩
    intro hturn e u hn hheld
    exact hstep.trans (congrArg Host.Outcome.next (readRun_reads hq hnext hturn hn hheld))
  case lwait =>
    intro hland hturn
    simp only [exec, execCopySlotMove, hland, if_true]
    exact congrArg Host.Outcome.next (landRun_waits hq hnext hturn)
  case lands =>
    intro hland hturn m gone hawake hlines u
    have hstep : exec (.copySlotMove ⟨l, err, some r⟩) s = .next (s.landRun l r err) := by
      simp only [exec, execCopySlotMove, hland, if_true]
      rfl
    have hrun := landRun_lands (err := err) hq hnext hturn hawake hlines
    have hquiet (h : err = false ∨ none ∉ r.dsts) : ¬ (err && r.dsts.contains none) = true := by
      rcases h with h | h <;> simp [h]
    refine ⟨fun hok hrep => ?_, fun hok hrep => ?_, fun herr hnone => ?_⟩
    · rw [hstep, hrun, if_neg (hquiet hok), hrep]
    · rw [hstep, hrun, if_neg (hquiet hok)]
      split
      next hnil => exact absurd hnil hrep
      next => rfl
    · rw [hstep, hrun, if_pos (by simp [herr, hnone])]
  case moves =>
    intro hmoving u
    simp only [exec, execLocalCopyMove, hq, hmoving, if_true]
    exact (apply_ite Host.Outcome.next _ _ _).symm
  case going =>
    intro hout hpos hsolo
    exact congrArg Host.Outcome.next (runOver_going hfg hq hout hpos hsolo)
  case ends =>
    intro hout hstands hall
    exact congrArg Host.Outcome.next (runOver_ends hfg hq hout hstands hall)
  case fetch =>
    intro u x n q hst hdir hmoved w
    have hgo : (x.st == .bound && !x.dir && decide (x.moved < x.total)) = true := by simp [hst, hdir, hmoved]
    have hstep : exec (.streamFetch l v) s =
        if decide (x.moved + 1 < x.total) && decide (x.moved + 1 < x.pos + 8) then .next (w.schedAt l (n + q) (.streamFetch l v))
        else .next w := by
      simp only [exec, execStreamFetch]
      exact if_pos hgo
    rw [hstep, ← apply_ite Host.Outcome.next]
    simp only [Bool.and_eq_true, decide_eq_true_eq]
  case write =>
    intro pre post p d hpushes hslot hw hdata hpre hpost u
    have hbytes : p.bytes = (p.cfg.outElems d.2.2 d.2.1).flatMap fun e =>
        addrBytes (p.cfg.elemAddr p.idx e.1).toNat (leBytes (tySize p.cfg.mfmt) e.2.bits) := by
      unfold Push.bytes
      rw [hdata]
    have hstep : exec (.streamWriteLand l v) s = .next ((p.toks.foldl (fun t k => t.tokDone l k ((s.ctx l).now s.tick))
        (if p.cur && !p.toks.isEmpty then u.updCtx l fun c => c.updSlot v fun x => { x with st := .done } else u)).quadRest l.tile) := by
      simp only [exec, execStreamWriteLand, hpushes, takePush_first hslot hw hpre hpost, hbytes]
      rfl
    refine ⟨fun hnil => ?_, fun k hk hcur => ?_⟩
    · rw [hstep, hnil, List.isEmpty_nil, Bool.not_true, Bool.and_false]
      rfl
    · rw [hstep, hk, hcur]
      rfl

end Sys2Proof.Machine

/-! ### Events of the array slice (R346, R351, R352, R354, R355, R359 to R364, R369, R370, R386) -/

namespace Sys2Proof.Machine

open Claim

/-! #### Operations start (R346, R354, R364) -/

/-- What heads a lane starts where it may. -/
def startHeadOp (l : Loc) (load : Bool) (n : Nat) (s : State) : State :=
  match (s.ctx l).arr64.head load with
  | some o =>
    if isGang o.i then
      match s.gangStartAt (gangOf l.tile) l.part with
      | some t => if t ≤ n && tileX l.tile == 0 && o.notBefore ≤ s.tick then s.gangStart (gangOf l.tile) l.part n else s
      | none => s
    else match (s.ctx l).arr64.startAt o with
      | some t => if t ≤ n && o.notBefore ≤ s.tick then s.opStart l o n else s
      | none => s
  | none => s

theorem arrayOpStart_eq (s : State) (l : Loc) (load : Bool) : exec (.arrayOpStart l load) s =
    .next ((startHeadOp l load ((s.ctx l).now s.tick) ((s.laneTurn l true).laneTurn l false)).arrKick l) := by
  simp only [exec, execArrayOpStart, startHeadOp]
  rfl

theorem startHeadOp_own {u : State} {l : Loc} {load : Bool} {n : Nat} {o : ArrOp} (hhead : (u.ctx l).arr64.head load = some o)
    (hown : isGang o.i = false) : startHeadOp l load n u = match (u.ctx l).arr64.startAt o with
      | some t => if t ≤ n && o.notBefore ≤ u.tick then u.opStart l o n else u
      | none => u := by
  unfold startHeadOp
  rw [hhead]
  simp only [hown, Bool.false_eq_true, if_false]

/-- An operation with rows keeps the front plane as it starts, and its first row enters on its tick (R355). -/
theorem opStart_rows {s : State} {l : Loc} {o : ArrOp} {n : Nat} (hfg : s.inFg l = true) (hops : (s.ctx l).arr64.ops = [o])
    (hact : actsAtOnce o.i = false) (hrot : isRot o.i = false) (hspl : isSpline o.i = false) :
    ((s.opStart l o n).ctx l).arr64.ops = [{ o with start := some n, plane := (s.ctx l).arr64.front, kn := s.knots l.tile }] ∧
      (s.tick + (n - (s.ctx l).now s.tick), .arrayRowEntry l o.id 0) ∈ (s.opStart l o n).agenda := by
  let keep (x : ArrOp) : ArrOp :=
    { x with
      start := some n
      plane := (s.ctx l).arr64.front
      kn := if actsAtOnce x.i then x.kn else s.knots l.tile }
  let f (c : Ctx) : Ctx := { c with arr64 := c.arr64.updOp o.id keep }
  let u := s.updCtx l f
  have hu : u.ctx l = f (s.ctx l) := s.ctx_updCtx l f hfg (s.part_ctx l hfg)
  have hutick : u.tick = s.tick := s.updCtx_tick l f
  have hstart : s.opStart l o n = u.schedAt l n (.arrayRowEntry l o.id 0) := by
    unfold State.opStart
    simp only [hspl, Bool.false_and, Bool.false_eq_true, if_false, hact, hrot]
    rfl
  have hkeep : keep o = { o with start := some n, plane := (s.ctx l).arr64.front, kn := s.knots l.tile } := by
    show ({ o with start := _, plane := _, kn := _ } : ArrOp) = _
    rw [if_neg (by simp [hact])]
  rw [hstart]
  refine ⟨?_, ?_⟩
  · have hlist : (u.ctx l).arr64.ops = [keep o] := by
      rw [hu]
      show (s.ctx l).arr64.ops.map _ = _
      rw [hops]
      simp
    exact hlist.trans (by rw [hkeep])
  · have hnow : (u.ctx l).now u.tick = (s.ctx l).now s.tick := by rw [hutick, hu]; rfl
    rw [State.schedAt, hnow, hutick]
    exact State.mem_sched u _ _ (by rw [hutick]; omega)

/-! #### Rows enter (R351, R352, R354) -/

theorem rowEntry_waits {s : State} {l : Loc} {op row : Nat} {o : ArrOp} (hop : (s.ctx l).arr64.op op = some o)
    (hread : s.rowRead l o row = .wait) : exec (.arrayRowEntry l op row) s = .next (s.schedIn 1 (.arrayRowEntry l op row)) := by
  simp only [exec, execArrayRowEntry, hop, hread]
  rfl

theorem rowEntry_traps {s u : State} {l : Loc} {op row code : Nat} {o : ArrOp} (hop : (s.ctx l).arr64.op op = some o)
    (hread : s.rowRead l o row = .trap u code) :
    exec (.arrayRowEntry l op row) s = .next (u.sliceTrap l o code (.arrayRowEntry l op row)) := by
  simp only [exec, execArrayRowEntry, hop, hread]
  rfl

theorem rowEntry_computes {s u : State} {l : Loc} {op row : Nat} {o : ArrOp} {vals : List Nat} {bytes : List Byte}
    (hop : (s.ctx l).arr64.op op = some o) (hread : s.rowRead l o row = .row u vals bytes)
    (hno : ∀ t b c sc x y k, o.i ≠ .mwld t b c sc x y k ∧ o.i ≠ .splld t b c sc x y k) :
    let v := u.rowSide l o row ((s.ctx l).now s.tick) vals bytes
    let w := if isGang o.i = true then (gangLocs (gangOf l.tile) l.part).foldl (fun s' m =>
        match ((s'.ctx m).arr64.ops.find? fun y => isGang y.i && y.start == o.start) with
        | some y => s'.rowGo m y.id row ((s.ctx l).now s.tick) (tileX m.tile) vals
        | none => s') v
      else v.rowGo l op row ((s.ctx l).now s.tick) 0 vals
    exec (.arrayRowEntry l op row) s = .next
      (if row + 1 < o.rows then w.schedIn (o.off (row + 1) - o.off row) (.arrayRowEntry l op (row + 1)) else w) := by
  intro v w
  simp only [exec, execArrayRowEntry, hop, hread]
  split
  next h => exact absurd h (hno _ _ _ _ _ _ _).1
  next h => exact absurd h (hno _ _ _ _ _ _ _).2
  next => exact (apply_ite Host.Outcome.next _ _ _).symm

theorem rowEntry_loads {s u : State} {l : Loc} {op row : Nat} {o : ArrOp} {vals : List Nat} {bytes : List Byte} {t : Ty} {b c : Bool}
    {sc x y : BitVec 6} {k : BitVec 3} (hop : (s.ctx l).arr64.op op = some o) (hread : s.rowRead l o row = .row u vals bytes)
    (hload : o.i = .mwld t b c sc x y k ∨ o.i = .splld t b c sc x y k) (hmore : row + 1 < o.rows) :
    exec (.arrayRowEntry l op row) s = .next ((u.updArr l fun a => a.updOp op fun o =>
      { o with rowsIn := Tbl.put o.rowsIn row vals, landed := if row < o.rows then row :: o.landed else o.landed }).schedIn
        (o.off (row + 1) - o.off row) (.arrayRowEntry l op (row + 1))) := by
  simp only [exec, execArrayRowEntry, hop, hread]
  rcases hload with h | h <;> simp only [h, if_pos hmore] <;> rfl

theorem rowRead_mm {s : State} {l : Loc} {o : ArrOp} {row : Nat} {w : MmOp} (hi : o.i = .mm w) (hs : o.strm = none) :
    let u := s.landAt l
    (u.ctx l).spBad (o.rowAddr row) (64 * tySize o.aty) = false → s.rowRead l o row = .row u
      (elemsOf (tySize o.aty) 64 ((u.ctx l).sp.bytes (o.rowAddr row) (64 * tySize o.aty)))
      ((u.ctx l).sp.bytes (o.rowAddr row) (64 * tySize o.aty)) := by
  intro u hgood
  have hlen : o.rowLen = 64 * tySize o.aty := by unfold ArrOp.rowLen; rw [hi]
  have hread : s.rowRead l o row = s.spRow l (o.rowAddr row) o.rowLen (elemsOf (tySize o.aty) 64) := by
    unfold State.rowRead
    simp only [hi, hs]
  rw [hread, hlen]
  exact if_neg (by rw [show ((s.landAt l).ctx l).spBad _ _ = false from hgood]; exact Bool.false_ne_true)

/-! #### Results land (R355, R361, R369) -/

theorem op_only {s : State} {l : Loc} {op : Nat} {o : ArrOp} (h : onlyOp s l op o) : (s.ctx l).arr64.op op = some o := by
  obtain ⟨hops, hid⟩ := h
  unfold Arr64.op
  rw [hops, List.find?_cons_of_pos (by simp [hid])]

theorem resultLand_completes {s : State} {l : Loc} {op row : Nat} {o : ArrOp} (hop : onlyOp s l op o) (hrow : row ∉ o.landed) :
    exec (.arrayResultLand l op row) s = .next
      ((s.rowLand l o row).updArr l fun a => a.prune ((s.ctx l).now s.tick)) := by
  have hearly : ((s.ctx l).arr64.ops.filter fun x =>
      o.sums && x.sums && x.id < o.id && x.d == o.d && x.r0 ≤ o.r0 + row && Tbl.has x.rowsIn (o.r0 + row - x.r0) &&
        !x.landed.contains (o.r0 + row - x.r0)) = [] := by
    rw [hop.1]
    simp
  simp only [exec, execArrayResultLand, op_only hop]
  rw [if_neg (by simpa using hrow), hearly]
  rfl

/-- A row that lands marks its operation, behind the change of the accumulators or the scratchpad that `f` makes. -/
theorem rowLand_by {s : State} {l : Loc} {o : ArrOp} {row : Nat} (f : Ctx → Ctx) (hfg : s.inFg l = true)
    (hf : s.rowLand l o row = (s.updCtx l f).updArr l fun a => a.updOp o.id fun x => { x with landed := row :: x.landed })
    (hpart : (f (s.ctx l)).part = (s.ctx l).part) :
    ((s.rowLand l o row).ctx l) = { f (s.ctx l) with
      arr64 := (f (s.ctx l)).arr64.updOp o.id fun x => { x with landed := row :: x.landed } } := by
  have hp : (f (s.ctx l)).part = some l.part := hpart.trans (s.part_ctx l hfg)
  let mark (c : Ctx) : Ctx := { c with arr64 := c.arr64.updOp o.id fun x => { x with landed := row :: x.landed } }
  have hu : (s.updCtx l f).ctx l = f (s.ctx l) := s.ctx_updCtx l f hfg hp
  have hfgu : (s.updCtx l f).inFg l = true := s.inFg_updCtx l f hfg hp
  rw [hf]
  exact ((s.updCtx l f).ctx_updCtx l mark hfgu (by rw [hu]; exact hp)).trans (congrArg mark hu)

/-- Marking a row as landed changes the operations alone. -/
def rowMark (o : ArrOp) (row : Nat) (c : Ctx) : Ctx :=
  { c with arr64 := c.arr64.updOp o.id fun x => { x with landed := row :: x.landed } }

theorem rowMark_keeps {s u : State} {l : Loc} (o : ArrOp) (row : Nat) (hu : u.inFg l = true) (hv : (u.ctx l).v = (s.ctx l).v) (hs : (u.ctx l).s = (s.ctx l).s)
    (hm : u.mem = s.mem) : let t := u.updCtx l (rowMark o row)
    (t.ctx l).v = (s.ctx l).v ∧ (t.ctx l).s = (s.ctx l).s ∧ t.mem = s.mem := by
  intro t
  have ht : t.ctx l = rowMark o row (u.ctx l) := u.ctx_updCtx l (rowMark o row) hu (u.part_ctx l hu)
  rw [ht]
  exact ⟨hv, hs, (u.updCtx_mem l _).trans hm⟩

section
variable {s : State} {l : Loc} (o : ArrOp) (row : Nat) (hfg : s.inFg l = true)
include hfg

theorem rowMark_updCtx_keeps (f : Ctx → Ctx) (hp : (f (s.ctx l)).part = (s.ctx l).part) (hv : (f (s.ctx l)).v = (s.ctx l).v)
    (hs : (f (s.ctx l)).s = (s.ctx l).s) : let t := (s.updCtx l f).updCtx l (rowMark o row)
    (t.ctx l).v = (s.ctx l).v ∧ (t.ctx l).s = (s.ctx l).s ∧ t.mem = s.mem := by
  have hpart : (f (s.ctx l)).part = some l.part := hp.trans (s.part_ctx l hfg)
  have hu : (s.updCtx l f).ctx l = f (s.ctx l) := s.ctx_updCtx l f hfg hpart
  exact rowMark_keeps o row (s.inFg_updCtx l f hfg hpart) (by rw [hu, hv]) (by rw [hu, hs]) (s.updCtx_mem l f)

/-- A row that lands leaves the vector and scalar registers and memory as they were. -/
theorem rowLand_frame : let t := s.rowLand l o row
    (t.ctx l).v = (s.ctx l).v ∧ (t.ctx l).s = (s.ctx l).s ∧ t.mem = s.mem := by
  unfold State.rowLand
  dsimp only
  split
  case h_11 => exact rowMark_keeps o row hfg rfl rfl rfl
  all_goals exact rowMark_updCtx_keeps o row hfg _ rfl rfl rfl

end

/-! #### Planes (R354, R360) -/

theorem planeTakeEffect_due {s : State} {l : Loc} {op : Nat}
    (h : ∀ o, (s.ctx l).arr64.op op = some o → isRefine o.i = false ∨ o.taken = true) :
    exec (.planeTakeEffect l op) s = .next (s.updArr l fun a => a.takeDue ((s.ctx l).now s.tick)) := by
  simp only [exec, execPlaneTakeEffect, State.updArr, State.updCtx]
  cases hop : (s.ctx l).arr64.op op with
  | none => rfl
  | some o =>
    have hno : ¬ (isRefine o.i && !o.taken) = true := by
      rcases h o hop with h | h <;> simp [h]
    simp only [if_neg hno]
    rfl

theorem planeTakeEffect_refines {s : State} {l : Loc} {op : Nat} {o : ArrOp} (hop : (s.ctx l).arr64.op op = some o)
    (hr : isRefine o.i = true) (ht : o.taken = false) :
    exec (.planeTakeEffect l op) s = .next (s.updArr l fun a => (a.take o).takeDue ((s.ctx l).now s.tick)) := by
  simp only [exec, execPlaneTakeEffect, State.updArr, State.updCtx, hop, hr, ht, Bool.not_false, Bool.and_self, if_true]
  rfl

/-- A plane whose load has ended takes effect. -/
theorem takeDue_load {a : Arr64} {o : ArrOp} {f n : Nat} {ty : Ty} {back cmp : Bool} {sc x y : BitVec 6} {k : BitVec 3}
    (hops : a.ops = [o]) (htaken : o.taken = false) (hfree : o.free = some f) (hf : f ≤ n) (hi : o.i = .mwld ty back cmp sc x y k) :
    (a.takeDue n).back = (if back then o.latched.1 else a.back) ∧ (a.takeDue n).front = (if back then a.front else o.latched.1) := by
  have hdue : a.takeDue n = a.take o := by
    unfold Arr64.takeDue
    rw [hops, List.filter_cons_of_pos (by simp [htaken, hi, hfree, hf])]
    rfl
  rw [hdue]
  unfold Arr64.take
  simp only [hi]
  cases back <;> exact ⟨rfl, rfl⟩

/-! #### The obligation -/

/-- Settles O42: operations start, their rows enter and land, and planes take effect. -/
theorem arrayOperationEvents : Obligations.ArrayOperationEvents := by
  refine ⟨fun s l => ⟨fun load => ?starts, fun op row o hop => ⟨rowEntry_waits hop, fun u code => rowEntry_traps hop,
      fun u vals bytes => rowEntry_computes hop, fun u vals bytes t b c sc x y k => rowEntry_loads hop⟩,
      fun op row o => resultLand_completes, fun op => planeTakeEffect_due, fun op o => planeTakeEffect_refines⟩,
    fun s l o n hfg hops hact hrot hspl _ => opStart_rows hfg hops hact hrot hspl, fun s l o row w => rowRead_mm,
    fun s l o row hfg hops => ?lands, fun a o f n ty back cmp sc x y k => takeDue_load⟩
  case starts =>
    intro u n
    have hstep : exec (.arrayOpStart l load) s = .next ((startHeadOp l load n u).arrKick l) := arrayOpStart_eq s l load
    refine ⟨fun hnone => ?_, fun o hhead hown => ⟨fun t hstart ht hbefore => ?_, fun hwait => ?_⟩,
      fun o t hhead hgang hstart ht hzero hbefore => ?_⟩
    · rw [hstep, startHeadOp, hnone]
    · rw [hstep, startHeadOp_own hhead hown, hstart]
      simp only [decide_eq_true ht, decide_eq_true hbefore, Bool.and_self, if_true]
    · rw [hstep, startHeadOp_own hhead hown]
      split
      next t hstart =>
        rw [if_neg (by simp only [Bool.and_eq_true, decide_eq_true_eq]; have := hwait t hstart; omega)]
      next => rfl
    · rw [hstep, startHeadOp, hhead]
      simp only [hgang, hstart, if_true, decide_eq_true ht, hzero, decide_eq_true hbefore, beq_self_eq_true, Bool.and_self]
  case lands =>
    intro t vals acc
    refine ⟨fun w z d hi => ?_, fun w hi => ?_, fun ty w hi => ?_, fun ty r sat w hi => ?_, rowLand_frame o row hfg⟩
    · have hf : s.rowLand l o row = (s.updCtx l fun c => c.setAccRow o.d (o.r0 + row) (mmRow o.plane o.aty vals acc)).updArr l
          fun a => a.updOp o.id fun x => { x with landed := row :: x.landed } := by
        unfold State.rowLand
        rcases hi with h | h | h <;> simp only [h] <;> rfl
      have hctx := rowLand_by _ hfg hf rfl
      exact (congrArg Ctx.a hctx :)
    · have hf : s.rowLand l o row = (s.updCtx l fun c => c.setAccRow o.d (o.r0 + row)
          ((splRow o.plane o.aty o.kn vals acc).take o.plane.outs)).updArr l
            fun a => a.updOp o.id fun x => { x with landed := row :: x.landed } := by
        unfold State.rowLand
        rcases hi with h | h <;> simp only [h] <;> rfl
      have hctx := rowLand_by _ hfg hf rfl
      exact (congrArg Ctx.a hctx :)
    · have hf : s.rowLand l o row = (s.updCtx l fun c => c.setAccRow o.d (o.r0 + row) vals).updArr l
          fun a => a.updOp o.id fun x => { x with landed := row :: x.landed } := by
        unfold State.rowLand
        simp only [hi]
        rfl
      have hctx := rowLand_by _ hfg hf rfl
      exact (congrArg Ctx.a hctx :)
    · have hf : s.rowLand l o row = (s.updCtx l fun c => c.spWrite (s.engNow l) 1
          (addrBytes (o.rowAddr row) (vals.flatMap fun v => leBytes (tySize ty) v))).updArr l
            fun a => a.updOp o.id fun x => { x with landed := row :: x.landed } := by
        unfold State.rowLand
        simp only [hi]
        rfl
      have hctx := rowLand_by _ hfg hf rfl
      exact ⟨(congrArg Ctx.a hctx :), (congrArg Ctx.spw hctx :)⟩

end Sys2Proof.Machine

/-! ### The gang's barrier, knot's landing and the rotation of mmrot (R364 to R367, R384) -/

namespace Sys2Proof.Machine

open Claim

/-! #### knot lands (R384) -/

/-- What a knot set's landing makes of its gang: of two on one tick that of the higher x stands. -/
def knotLanded (tick x : Nat) (lo inv : Lane) (gg mode : BitVec 8) (y : Gang) : Gang :=
  if y.knAt.1 == tick && x < y.knAt.2 then y else { y with lo := lo, inv := inv, g := gg, mode := mode, knAt := (tick, x) }

theorem knotLand_eq (s : State) (l : Loc) (lo inv : Lane) (gg mode : BitVec 8) :
    exec (.knotLand l lo inv gg mode) s = .next (s.updGang (gangOf l.tile) (knotLanded s.tick (tileX l.tile) lo inv gg mode)) := rfl

theorem knotLanded_stands {tick x : Nat} (lo inv : Lane) (gg mode : BitVec 8) {y : Gang} (h : y.knAt.1 ≠ tick ∨ y.knAt.2 ≤ x) :
    knotLanded tick x lo inv gg mode y = { y with lo := lo, inv := inv, g := gg, mode := mode, knAt := (tick, x) } := by
  refine if_neg ?_
  simp only [Bool.and_eq_true, beq_iff_eq, decide_eq_true_eq]
  omega

theorem knotLanded_late {tick x : Nat} (lo inv : Lane) (gg mode : BitVec 8) {y : Gang} (ht : y.knAt.1 = tick) (hx : x < y.knAt.2) :
    knotLanded tick x lo inv gg mode y = y :=
  if_pos (by simp [ht, hx])

theorem updGang_congr {s : State} {g : Nat} {f f' : Gang → Gang} (h : f (s.gang g) = f' (s.gang g)) : s.updGang g f = s.updGang g f' := by
  unfold State.updGang
  rw [h]

/-- Of two knot sets that land on one tick that of the higher x stands, in whichever order they come. -/
theorem knotLand_order {s : State} {g : Nat} {l m : Loc} (lo inv : Lane) (gg mode : BitVec 8) (lo' inv' : Lane) (gg' mode' : BitVec 8)
    (hl : gangOf l.tile = g) (hm : gangOf m.tile = g) (hx : tileX m.tile < tileX l.tile) (hnew : (s.gang g).knAt.1 ≠ s.tick) :
    ∃ t u v w : State, exec (.knotLand l lo inv gg mode) s = .next t ∧ exec (.knotLand m lo' inv' gg' mode') t = .next u ∧
      exec (.knotLand m lo' inv' gg' mode') s = .next v ∧ exec (.knotLand l lo inv gg mode) v = .next w ∧
      ((u.gang g).lo, (u.gang g).inv, (u.gang g).g, (u.gang g).mode) = (lo, inv, gg, mode) ∧
      ((w.gang g).lo, (w.gang g).inv, (w.gang g).g, (w.gang g).mode) = (lo, inv, gg, mode) := by
  refine ⟨_, _, _, _, knotLand_eq s l lo inv gg mode, knotLand_eq _ m lo' inv' gg' mode', knotLand_eq s m lo' inv' gg' mode',
    knotLand_eq _ l lo inv gg mode, ?_, ?_⟩
  all_goals simp only [show ∀ f, (s.updGang g f).tick = s.tick from fun _ => rfl, hl, hm]
  · have hlate := knotLanded_late (tick := s.tick) lo' inv' gg' mode'
      (y := { s.gang g with lo := lo, inv := inv, g := gg, mode := mode, knAt := (s.tick, tileX l.tile) }) rfl hx
    rw [State.gang_updGang_same, State.gang_updGang_same, knotLanded_stands lo inv gg mode (.inl hnew), hlate]
  · rw [State.gang_updGang_same, State.gang_updGang_same, knotLanded_stands lo' inv' gg' mode' (.inl hnew),
      knotLanded_stands _ _ _ _ (.inr (Nat.le_of_lt hx))]

/-! #### The barrier (R364, R365) -/

theorem toHandler_arr64 (c : Ctx) (ev : Nat × Nat) (n : Nat) : (c.toHandler ev n).arr64 = c.arr64 := by
  unfold Ctx.toHandler Ctx.leaveLeader Ctx.refetch Ctx.cutAt
  dsimp only
  (repeat' split) <;> rfl

theorem passGang_releases {s : State} {l : Loc} {o : ArrOp} (n : Nat) (hfg : s.inFg l = true) (hops : (s.ctx l).arr64.ops = [o])
    (hgang : isGang o.i = true) (hlane : o.inLane = true) (hstart : o.start = none) (hrel : o.rel = none)
    (hblock : (s.ctx l).block = .mmg) :
    ((passGang n s l).ctx l).arr64.ops = [{ o with rel := some n }] ∧ ((passGang n s l).ctx l).block = .none := by
  let f (c : Ctx) : Ctx := { c with
    arr64 := { c.arr64 with ops := c.arr64.ops.map (released n) }
    block := if c.block == .mmg then .none else c.block }
  let u := s.updCtx l f
  have hu : u.ctx l = f (s.ctx l) := s.ctx_updCtx l f hfg (s.part_ctx l hfg)
  have hfgu : u.inFg l = true := s.inFg_updCtx l f hfg (s.part_ctx l hfg)
  have hrelo : released n o = { o with rel := some n } := if_pos (by simp [hgang, hlane, hstart, hrel])
  have hopsu : (u.ctx l).arr64.ops = [{ o with rel := some n }] := by
    rw [hu]
    show (s.ctx l).arr64.ops.map (released n) = _
    rw [hops, List.map_cons, List.map_nil, hrelo]
  have hblocku : (u.ctx l).block = .none := by
    rw [hu]
    exact if_pos (by rw [hblock]; rfl)
  show ((u.uiPoll l).ctx l).arr64.ops = _ ∧ ((u.uiPoll l).ctx l).block = _
  rcases uiPoll_ctx hfgu with h | ⟨ev, -, h⟩
  · rw [h]
    exact ⟨hopsu, hblocku⟩
  · obtain ⟨-, -, -, -, -, -, -, -, -, -, -, -, -, -, hn⟩ := (u.ctx l).toHandler_frame ev ((u.ctx l).now u.tick)
    rw [h, toHandler_arr64]
    exact ⟨hopsu, hn hblocku⟩

/-! #### What is missing of a rotation (R366, R367) -/

theorem rotMissing_none {s : State} {l : Loc} {o : ArrOp} {n : Nat} (h : ∀ k ∈ o.owed n, k ∈ o.got) : s.rotMissing l o n = none := by
  unfold State.rotMissing
  rw [List.find?_eq_none.mpr fun k hk => by simp [h k hk]]
  rfl

theorem rotMissing_some {s : State} {l : Loc} {o : ArrOp} {n : Nat} (h : ∃ k ∈ o.owed n, k ∉ o.got) :
    ∃ t, s.rotMissing l o n = some t := by
  obtain ⟨k, hk, hgot⟩ := h
  have hfound : ((o.owed n).find? fun k => !o.got.contains k).isSome :=
    List.find?_isSome.mpr ⟨k, hk, by simp [hgot]⟩
  obtain ⟨j, hj⟩ := Option.isSome_iff_exists.mp hfound
  exact ⟨_, by unfold State.rotMissing; rw [hj]; rfl⟩

/-- A trap of an engine, taken where the context runs. -/
theorem trapEngine_trapped {s : State} {l : Loc} {kind code pc detail xfer : Nat} (hrun : runs s l) :
    trapped s (s.trapEngine l kind code pc detail xfer) l kind code ∧ (s.trapEngine l kind code pc detail xfer).mem = s.mem ∧
      ((s.trapEngine l kind code pc detail xfer).ctx l).spw = (s.ctx l).spw := by
  obtain ⟨hfg, hclock, hactive⟩ := hrun
  obtain ⟨hctx, htick, hmem, -, hst, hat, hag⟩ := s.trapEngine_active l kind code pc detail xfer hfg hclock hactive
  refine ⟨⟨s.mkStop l kind code false pc 0 detail xfer, congrArg Ctx.stops hctx, rfl, rfl, rfl, rfl, hst, hat, ?_⟩, hmem,
    (congrArg Ctx.spw hctx :)⟩
  rw [hag]
  exact (mem_insEv _ _ _ _).mpr (.inl rfl)

/-- More events on the agenda leave a trap as it was raised. -/
theorem trapped_more {s t u : State} {l : Loc} {kind code : Nat} (hmore : MoreEvents t u) (h : trapped s t l kind code) :
    trapped s u l kind code := by
  obtain ⟨ag, rfl, hsub⟩ := hmore
  obtain ⟨r, hstops, hkind, hcode, hprec, htile, hst, hat, hag⟩ := h
  exact ⟨r, hstops, hkind, hcode, hprec, htile, hst, hat, hsub hag⟩

/-- A receiver that has not trapped yet traps with EXCHANGE_LATE. -/
theorem rotLate_trapped {s : State} {l : Loc} {o : ArrOp} (src : Nat) (hrot : (s.ctx l).arr64.rot = some o) (hbad : o.bad = false)
    (hrun : runs s l) : trapped s (s.rotLate l src) l 2 0x06 ∧ (s.rotLate l src).mem = s.mem := by
  obtain ⟨hfg, hclock, hactive⟩ := hrun
  let f (c : Ctx) : Ctx := { c with arr64 := c.arr64.updOp o.id fun x => { x with bad := true } }
  let u := s.updCtx l f
  have hu : u.ctx l = f (s.ctx l) := s.ctx_updCtx l f hfg (s.part_ctx l hfg)
  have hpart (p : Nat) : u.part p = s.part p := by rw [State.part, State.updCtx_parts, State.part]
  have hrunu : runs u l := ⟨s.inFg_updCtx l f hfg (s.part_ctx l hfg), by rw [hu]; exact hclock, by rw [hpart]; exact hactive⟩
  let due := (s.ctx l).tt s.tick % 65536
  have hlate : ∃ detail, s.rotLate l src = u.trapEngine l 2 0x06 o.pc detail 0 := by
    refine ⟨src * 2 ^ 52 + 2 * 2 ^ 50 + due * 65536 + due, ?_⟩
    unfold State.rotLate
    simp only [hrot, hbad, Bool.false_eq_true, if_false]
    rfl
  obtain ⟨detail, hlate⟩ := hlate
  obtain ⟨⟨r, hstops, hkind, hcode, hprec, htile, hst, hat, hag⟩, hmem, -⟩ := trapEngine_trapped (kind := 2) (code := 0x06) (pc := o.pc)
    (detail := detail) (xfer := 0) hrunu
  have htick : u.tick = s.tick := s.updCtx_tick l f
  rw [hlate]
  refine ⟨⟨r, by rw [hstops, hu], hkind, hcode, hprec, htile, hst, by rw [hat, htick], by rw [← htick]; exact hag⟩, ?_⟩
  rw [hmem]
  exact s.updCtx_mem l f

theorem raiseTrap_inFg {s : State} {l : Loc} (r : StopRec) (hfg : s.inFg l = true) : (s.raiseTrap l r).inFg l = true := by
  unfold State.raiseTrap
  split
  · exact hfg
  · dsimp only
    have hu := s.inFg_updCtx l (fun c => { c with stops := c.stops ++ [r] }) hfg (s.part_ctx l hfg)
    rwa [State.inFg, State.core, (raiseHalt_same _ _ _).1]

/-- A late rotation leaves the planes as they were. -/
theorem rotLate_planes {s : State} {l : Loc} (src : Nat) (hfg : s.inFg l = true) :
    (s.rotLate l src).inFg l = true ∧ ((s.rotLate l src).ctx l).arr64.front = (s.ctx l).arr64.front ∧
      ((s.rotLate l src).ctx l).arr64.back = (s.ctx l).arr64.back ∧ (s.rotLate l src).mem = s.mem := by
  have htrap (u : State) (r : StopRec) (hu : u.inFg l = true) (hf : (u.ctx l).arr64.front = (s.ctx l).arr64.front)
      (hb : (u.ctx l).arr64.back = (s.ctx l).arr64.back) (hm : u.mem = s.mem) : (u.raiseTrap l r).inFg l = true ∧
      ((u.raiseTrap l r).ctx l).arr64.front = (s.ctx l).arr64.front ∧
      ((u.raiseTrap l r).ctx l).arr64.back = (s.ctx l).arr64.back ∧ (u.raiseTrap l r).mem = s.mem :=
    ⟨raiseTrap_inFg r hu, (raiseTrap_keeps r (fun c => c.arr64.front) (fun _ _ => rfl) hu).trans hf,
      (raiseTrap_keeps r (fun c => c.arr64.back) (fun _ _ => rfl) hu).trans hb, (State.raiseTrap_mem u l r).trans hm⟩
  unfold State.rotLate
  dsimp only
  split
  next o _ =>
    split
    · exact ⟨hfg, rfl, rfl, rfl⟩
    · let f (c : Ctx) : Ctx := { c with arr64 := c.arr64.updOp o.id fun x => { x with bad := true } }
      have hu : (s.updCtx l f).ctx l = f (s.ctx l) := s.ctx_updCtx l f hfg (s.part_ctx l hfg)
      exact htrap (s.updCtx l f) _ (s.inFg_updCtx l f hfg (s.part_ctx l hfg)) (by rw [hu]; rfl) (by rw [hu]; rfl) (s.updCtx_mem l f)
  · split
    · exact htrap s _ hfg rfl rfl rfl
    · exact ⟨hfg, rfl, rfl, rfl⟩

theorem planeExchange_missing {s : State} {l : Loc} {op : Nat} {o : ArrOp} (hop : (s.ctx l).arr64.op op = some o)
    (hmiss : ∃ k ∈ o.owed (s.engNow l), k ∉ o.got) (hfg : s.inFg l = true) :
    ∃ t : State, exec (.mmrotPlaneExchange l op) s = .next t ∧ (t.ctx l).arr64.front = (s.ctx l).arr64.front ∧
      (t.ctx l).arr64.back = (s.ctx l).arr64.back ∧ t.mem = s.mem := by
  obtain ⟨src, hsrc⟩ := rotMissing_some (s := s) (l := l) hmiss
  obtain ⟨hfgu, hfront, hback, hmem⟩ := rotLate_planes src hfg
  let f (c : Ctx) : Ctx := { c with arr64 := c.arr64.updOp op fun x => { x with taken := true } }
  have hctx : ((s.rotLate l src).updCtx l f).ctx l = f ((s.rotLate l src).ctx l) :=
    (s.rotLate l src).ctx_updCtx l f hfgu ((s.rotLate l src).part_ctx l hfgu)
  refine ⟨(s.rotLate l src).updCtx l f, ?_, by rw [hctx]; exact hfront, by rw [hctx]; exact hback,
    ((s.rotLate l src).updCtx_mem l f).trans hmem⟩
  simp only [exec, execMmrotPlaneExchange, hop, hsrc, Option.isSome_some, Bool.or_true, if_true]
  rfl

/-! #### The obligation -/

/-- Settles O43: the gang passes its barrier together, the higher knot set stands, and a rotation exchanges its planes where nothing is
missing. -/
theorem gangAndRotationEvents : Obligations.GangAndRotationEvents := by
  refine ⟨fun s g p => ⟨fun l lo inv gg mode => ?knot, fun l m lo inv gg mode lo' inv' gg' mode' hl hm hx hnew =>
      knotLand_order lo inv gg mode lo' inv' gg' mode' hl hm hx hnew, fun a r harrs hfew hkind => ?timed,
      fun a r harrs hfew hkind => ?elastic, fun a r harrs hall hlast => ?passes, fun n l o => passGang_releases n⟩,
    fun s l src => ⟨fun o hrot => ?rotates, fun hrot hlive hrun row bs pz => ?early, fun hrot => ?idle⟩,
    fun s l op o hop => ⟨fun hall => ?exchange, planeExchange_missing hop⟩⟩
  case knot =>
    refine ⟨fun h => ?_, fun ht hx => ?_⟩
    · exact (knotLand_eq s l lo inv gg mode).trans (congrArg Host.Outcome.next (updGang_congr (f' := fun x =>
        { x with lo := lo, inv := inv, g := gg, mode := mode, knAt := (s.tick, tileX l.tile) }) (knotLanded_stands lo inv gg mode h)))
    · rw [knotLand_eq, updGang_congr (f' := id) (knotLanded_late lo inv gg mode ht hx)]
  case timed =>
    simp only [exec, execGangBarrierRelease, harrs, List.head?_cons, List.length_cons, if_pos (show r.length + 1 < 16 by omega),
      beq_eq_false_iff_ne.mpr hkind, Bool.false_eq_true, if_false]
    rfl
  case elastic =>
    simp only [exec, execGangBarrierRelease, harrs, List.head?_cons, List.length_cons, if_pos (show r.length + 1 < 16 by omega),
      hkind, beq_self_eq_true, if_true]
    rfl
  case passes =>
    simp only [exec, execGangBarrierRelease, harrs, List.head?_cons, List.length_cons,
      if_neg (show ¬ r.length + 1 < 16 by omega), if_neg (Nat.not_lt.mpr hlast)]
    rfl
  case rotates =>
    intro mark
    have hmiss (h : ∀ k ∈ o.owed (s.engNow l), k ∈ o.got) : s.rotMissing l o (s.engNow l) = none := rotMissing_none h
    refine ⟨fun row bs pz hnew => ?_, fun k codes hnew => ?_, fun ty spl cmp scl hnew => ?_, fun h => ?_, fun h hbad hrun => ?_⟩
    · simp only [exec, execMmrotShiftLand, hrot, if_neg (show ¬ o.got.contains row = true by simpa using hnew)]
      rfl
    · simp only [exec, execMmrotShiftLand, hrot, if_neg (show ¬ o.got.contains (64 + k) = true by simpa using hnew)]
      rfl
    · simp only [exec, execMmrotShiftLand, hrot, if_neg (show ¬ o.got.contains 128 = true by simpa using hnew)]
      rfl
    · simp only [exec, execMmrotShiftLand, hrot, hmiss h]
      exact (apply_ite Host.Outcome.next _ _ _).symm
    · obtain ⟨t, ht⟩ := rotMissing_some (s := s) (l := l) h
      obtain ⟨htrap, hmem⟩ := rotLate_trapped t hrot hbad hrun
      refine ⟨if (o.owed (s.engNow l + 4096)).all (o.owed (s.engNow l)).contains = true then s.rotLate l t
        else (s.rotLate l t).schedIn 1 (.mmrotShiftLand l l.tile .due), ?_, ?_, ?_⟩
      · simp only [exec, execMmrotShiftLand, hrot, ht]
        exact (apply_ite Host.Outcome.next _ _ _).symm
      · split
        · exact htrap
        · exact trapped_more (MoreEvents.sched _ _ _) htrap
      · split <;> exact hmem
  case early =>
    let due := (s.ctx l).tt s.tick % 65536
    obtain ⟨ht, -, hspw⟩ := trapEngine_trapped (kind := 2) (code := 0x06) (pc := 0)
      (detail := src * 2 ^ 52 + 2 * 2 ^ 50 + due * 65536 + due) (xfer := 0) hrun
    refine ⟨_, ?_, ht, hspw⟩
    simp only [exec, execMmrotShiftLand, hrot]
    refine congrArg Host.Outcome.next ?_
    unfold State.rotLate
    simp only [hrot, if_pos hlive]
    rfl
  case idle =>
    simp only [exec, execMmrotShiftLand, hrot]
    rfl
  case exchange =>
    have hmiss : s.rotMissing l o (s.engNow l) = none := rotMissing_none hall
    refine ⟨fun hbad hno hfmt => ?_, fun hbad hno hfmt => ?_, fun h => ?_⟩
    · simp only [exec, execMmrotPlaneExchange, hop, hmiss, hbad, hno, hfmt, Option.isSome_none, Bool.or_self, Bool.false_eq_true, if_false,
        bne_self_eq_false]
      rfl
    · simp only [exec, execMmrotPlaneExchange, hop, hmiss, hbad, hno, bne_iff_ne.mpr hfmt, Option.isSome_none, Bool.or_self,
        Bool.false_eq_true, if_false, if_true]
      rfl
    · simp only [exec, execMmrotPlaneExchange, hop, hmiss]
      exact if_pos (by rcases h with h | h <;> simp [h])

end Sys2Proof.Machine

/-! ### Messages arrive, land and are acknowledged (R408 to R413, R424, R478) -/

namespace Sys2Proof.Machine

open Claim

/-! #### Arrivals -/

/-- One leg that no blocked hop interrupts takes its route's time. -/
theorem legTime_one {s : State} {g : Leg} {n : Nat} (h : s.legTime [g] = .ok n) :
    (s.legRoute g).bad = none ∧ n = (s.legRoute g).latency g.bytes := by
  unfold State.legTime at h
  simp only [List.foldl_cons, List.foldl_nil] at h
  cases hbad : (s.legRoute g).bad with
  | some t => rw [hbad] at h; exact absurd h nofun
  | none =>
    rw [hbad] at h
    injection h with h
    exact ⟨rfl, by omega⟩

theorem packet_dv (s : State) (p : Nat) (legs : List Leg) (ev : Ev) : (s.packet p legs ev).dv = s.dv := by
  unfold State.packet
  split <;> rfl

/-- A message that leaves by a port of the device is sent there. -/
theorem leave_sends {s : State} {m : Msg} {port : Nat} (hport : s.zheostPort (m.srcTile ^^^ m.tile) = some port) :
    (if m.srcDev = s.dv.cfg.devno then m.dev else m.srcDev, { m with port := port }) ∈ (s.leave m).dv.sent ∧
      (s.leave m).mem = s.mem := by
  have hto : (if m.srcDev = s.dv.cfg.devno then m.dev else m.srcDev) = if m.srcDev == s.dv.cfg.devno then m.dev else m.srcDev := by
    simp only [beq_iff_eq]
  rw [hto]
  unfold State.leave
  simp only [hport]
  split
  · rw [packet_dv, State.packet_mem]
    exact ⟨List.mem_cons_self, rfl⟩
  · exact ⟨List.mem_cons_self, rfl⟩

/-- A message of another device goes by its route from the attach port to its tile. -/
theorem enter_goes {s : State} {m : Msg} {n : Nat} (hent : m.entered = false)
    (htime : s.legTime [{ order := m.order, src := none, dst := some m.tile, bytes := m.len }] = .ok n) :
    ∃ w u, s.tick + n ≤ w ∧ (w, .messageArrival u) ∈ (s.enter m).agenda ∧ u.entered = true ∧
      { u with entered := false, detour := m.detour } = m ∧ (s.enter m).mem = s.mem := by
  obtain ⟨hbad, hn⟩ := legTime_one htime
  let rt := s.legRoute { order := m.order, src := none, dst := some m.tile, bytes := m.len }
  let w := max (s.tick + rt.latency m.len + s.delay) (s.afterLane m (·.entered))
  have hw : s.tick + n ≤ w := by
    have : s.tick + n ≤ s.tick + rt.latency m.len + s.delay := by rw [hn]; exact Nat.le_add_right _ _
    exact Nat.le_trans this (Nat.le_max_left _ _)
  let u : Msg := { m with entered := true, detour := rt.det }
  have henter : s.enter m = (s.sched w (.messageArrival u)).tookDelay := by
    unfold State.enter
    simp only [hbad]
    rfl
  have hback : { u with entered := false, detour := m.detour } = m := by
    obtain ⟨⟩ := m
    cases hent
    rfl
  refine ⟨w, u, hw, ?_, rfl, hback, ?_⟩
  · rw [henter]
    exact State.mem_sched s w _ (by omega)
  · rw [henter]
    rfl

/-- The acknowledgement of another device's message goes to its port, in class 1 and in the request's order, with its error. -/
theorem ackMsg_leaves {s : State} {m : Msg} {n : Nat} (hdev : m.srcDev ≠ s.dv.cfg.devno) (err : Bool)
    (htime : s.legTime [{ order := m.rorder, src := some m.tile, dst := none }] = .ok n) :
    ∃ w u, (w, .messageArrival u) ∈ (s.ackMsg m err).agenda ∧ s.tick + n ≤ w ∧ u.leaving = true ∧ u.cls = 1 ∧
      u.order = m.rorder ∧ u.err = err ∧ u.srcDev = m.srcDev ∧ u.tok = m.tok := by
  obtain ⟨hbad, hn⟩ := legTime_one htime
  let rt := s.legRoute { order := m.rorder, src := some m.tile, dst := none }
  let a : Msg := { m with cls := 1, order := m.rorder, bytes := [], len := 0, err := err }
  let w := max (s.tick + rt.latency 0 - (0 + 127) / 128 + s.delay) (s.afterLane a (·.leaving))
  have hw : s.tick + n ≤ w := by
    have : s.tick + n ≤ s.tick + rt.latency 0 - (0 + 127) / 128 + s.delay := by rw [hn]; exact Nat.le_add_right _ _
    exact Nat.le_trans this (Nat.le_max_left _ _)
  have hack : s.ackMsg m err = (s.sched w (.messageArrival { a with leaving := true, detour := rt.det })).tookDelay := by
    unfold State.ackMsg
    rw [if_neg (by simpa using hdev)]
    unfold State.toPort
    simp only [hbad]
    rfl
  refine ⟨w, { a with leaving := true, detour := rt.det }, ?_, hw, rfl, rfl, rfl, rfl, rfl, rfl⟩
  rw [hack]
  exact State.mem_sched s w _ (by omega)

section
variable {s : State} {m : Msg} (hstop : m.stop = none) (hleave : m.leaving = false)
include hstop hleave

theorem messageArrival_reads (hmore : m.bytes.length < m.len) (hdev : m.srcDev = s.dv.cfg.devno) :
    exec (.messageArrival m) s = .next (s.readPiece m) := by
  simp only [exec, execMessageArrival, hstop, hleave, Bool.false_eq_true, if_false]
  exact if_pos (by simp [atSource, hmore, hdev])

theorem messageArrival_enters (hdev : m.srcDev ≠ s.dv.cfg.devno) (hent : m.entered = false) :
    exec (.messageArrival m) s = .next (s.enter m) := by
  simp only [exec, execMessageArrival, hstop, hleave, Bool.false_eq_true, if_false]
  rw [if_neg (by simp [hdev]), if_pos (by simp [hdev, hent])]
  rfl

/-- A message that has come to its destination. -/
theorem messageArrival_here (hown : m.srcDev = s.dv.cfg.devno → m.bytes.length = m.len)
    (hother : m.srcDev ≠ s.dv.cfg.devno → m.entered = true) : exec (.messageArrival m) s =
      if !s.partLive m.part then .next (s.ackMsg m true)
      else if ((s.core m.tile).held.any fun x => x.cls == m.cls && (sameLane x m || !s.holds ⟨m.tile, x.part⟩)) ||
          !s.receives ⟨m.tile, m.part⟩ then
        .next (s.setCore m.tile { s.core m.tile with held := (s.core m.tile).held ++ [m] })
      else match s.offer ⟨m.tile, m.part⟩ m with
        | some u => .next u
        | none => let u := s.trapEngine ⟨m.tile, m.part⟩ 4 cRecvOverflow 0 0 0
          .next (u.setCore m.tile { u.core m.tile with held := (u.core m.tile).held ++ [m] }) := by
  have hread : ¬ (atSource m && m.srcDev == s.dv.cfg.devno) = true := by
    simp only [atSource, Bool.and_eq_true, decide_eq_true_eq, beq_iff_eq]
    rintro ⟨hlt, hdev⟩
    exact absurd (hown hdev) (Nat.ne_of_lt hlt)
  have henter : ¬ (m.srcDev != s.dv.cfg.devno && !m.entered) = true := by
    simp only [Bool.and_eq_true, bne_iff_ne, Bool.not_eq_true']
    rintro ⟨hdev, hno⟩
    exact absurd ((hother hdev).symm.trans hno) nofun
  simp only [exec, execMessageArrival, hstop, hleave, Bool.false_eq_true, if_false]
  rw [if_neg hread, if_neg henter]
  rfl

end

/-! #### Offers (R409, R412) -/

theorem offer_posted {s : State} {l : Loc} {m : Msg} {e : Nat × Handle}
    (h : ((s.ctx l).recvT.filter fun e => e.2.st == .posted && meets e.2.crit m) = [e]) :
    s.offer l m = some ((s.takeMsg l e.1 m false).ackMsg m false) := by
  unfold State.offer
  simp only [h, List.foldl_cons, List.foldl_nil]

theorem offer_overflow {s : State} {l : Loc} {m : Msg}
    (h : ((s.ctx l).recvT.filter fun e => e.2.st == .posted && meets e.2.crit m) = []) :
    s.offer l m = if (s.ctx l).ovf.length < 16 && (s.ctx l).ovfBytes + ovfSize m ≤ 32768 then
      some ((s.updCtx l fun c => { c with ovf := c.ovf ++ [m] }).ackMsg m false) else none := by
  unfold State.offer
  simp only [h, List.foldl_nil]

/-! #### Landings and held messages (R411, R413) -/

theorem messageLand_lands {s : State} {l : Loc} {h : Nat} (hst : ((s.ctx l).handle h).st = .landing)
    (hnt : ((s.ctx l).handle h).nt = false) (hhid : ((s.ctx l).handle h).hidden = false) :
    let u := s.updCtx l fun c => c.setHandle h { (s.ctx l).handle h with st := .complete }
    exec (.messageLand l h) s = .next (State.changed (match ((s.ctx l).handle h).tok with
      | some k => u.tokDone l k ((s.ctx l).now s.tick)
      | none => u) l) := by
  intro u
  have hquiet : ¬ (((s.ctx l).handle h).nt && (s.ctx l).live) = true := by simp [hnt]
  have hshown : ¬ ((s.ctx l).handle h).hidden = true := by simp [hhid]
  simp only [exec, execMessageLand, hst, if_neg hquiet, if_neg hshown]
  rfl

theorem offerHeld_one {s u : State} {l : Loc} {m : Msg} (hpart : m.part = l.part) (hlive : s.partLive l.part = true)
    (hrecv : s.receives l = true) (hoffer : s.offer l m = some u) :
    s.offerHeld l.tile [m] [] = u.setCore l.tile { u.core l.tile with held := [] } := by
  unfold State.offerHeld
  simp only [hpart, hlive, hrecv, hoffer, List.any_nil, Bool.not_true, Bool.or_self, Bool.false_eq_true, if_false]
  rfl

/-! #### The obligation -/

/-- Settles O44: a message is read, leaves, enters, is placed or held at its destination, and is acknowledged. -/
theorem messageEvents : Obligations.MessageEvents := by
  refine ⟨fun s m => ?arrives, fun s l => ⟨fun h hst htok hnt hhid => ?plain, fun h k hst htok hnt hhid => ?token,
    fun h d pc dev hst hhid hblock => ?received, fun hheld => ?none, fun m u hheld hpart hlive hrecv hoffer => ?held,
    fun hclass k pc => behindHeld_go _ _ hclass, fun hclass k pc => behindHeld_go _ _ hclass⟩⟩
  case arrives =>
    intro l
    refine ⟨fun hstop hleave => messageArrival_reads hstop hleave, fun r hstop => ?_, ?_⟩
    · simp only [exec, execMessageArrival, hstop]
      rfl
    intro here
    refine ⟨fun hstop hleave port hport => ?_, fun hstop hleave hdev hent n htime => ?_, fun hdev err n => ackMsg_leaves hdev err,
      fun hhere hdead => ?_, rfl, fun hhere hlive hheld hrecv => ?_, fun e => offer_posted, fun hnone => ?_⟩
    · obtain ⟨hsent, hmem⟩ := leave_sends hport
      refine ⟨s.leave m, ?_, hsent, hmem⟩
      simp only [exec, execMessageArrival, hstop, hleave, if_true]
      rfl
    · obtain ⟨w, u, hw, hag, hentered, hback, hmem⟩ := enter_goes hent htime
      exact ⟨s.enter m, w, u, messageArrival_enters hstop hleave hdev hent, hw, hag, hentered, hback, hmem⟩
    · obtain ⟨hstop, hleave, hown, hother⟩ := hhere
      rw [messageArrival_here hstop hleave hown hother, hdead]
      rfl
    · obtain ⟨hstop, hleave, hown, hother⟩ := hhere
      have hstep := messageArrival_here hstop hleave hown hother
      rw [hlive, hheld, show s.receives ⟨m.tile, m.part⟩ = true from hrecv] at hstep
      refine ⟨fun u hu => hstep.trans ?_, fun hu => hstep.trans ?_⟩
      · rw [show s.offer ⟨m.tile, m.part⟩ m = some u from hu]
        rfl
      · rw [show s.offer ⟨m.tile, m.part⟩ m = none from hu]
        rfl
    · refine ⟨fun hlen hbytes => ?_, fun hfull => ?_⟩
      · rw [offer_overflow hnone, if_pos (by simp [hlen, hbytes])]
      · rw [offer_overflow hnone, if_neg (by simp only [Bool.and_eq_true, decide_eq_true_eq]; omega)]
  case plain =>
    rw [messageLand_lands hst hnt hhid, htok]
  case token =>
    rw [messageLand_lands hst hnt hhid, htok]
  case received =>
    simp only [exec, execMessageLand, hst, hhid, hblock, beq_self_eq_true, Bool.and_self, if_true]
    rfl
  case none =>
    simp only [exec, execHeldMessageReoffer, hheld]
    rfl
  case held =>
    simp only [exec, execHeldMessageReoffer, hheld]
    exact congrArg Host.Outcome.next (offerHeld_one hpart hlive hrecv hoffer)

end Sys2Proof.Machine

/-! ### Contributions, results and releases of trees (R418 to R420, R425) -/

namespace Sys2Proof.Machine

open Claim

theorem raiseTrap_tick (s : State) (l : Loc) (r : StopRec) : (s.raiseTrap l r).tick = s.tick := by
  unfold State.raiseTrap
  split
  · rfl
  · dsimp only
    rw [← s.updCtx_tick l fun c => { c with stops := c.stops ++ [r] }]
    unfold State.raiseHalt
    dsimp only
    split <;> rfl

/-- A context whose tree operations differ halts, and what differed comes again (R418). -/
theorem treeDiffer_again (s : State) (l : Loc) (pc : Nat) (redo : Ev) : (s.treeDiffer l pc redo).mem = s.mem ∧
    (runs s l → trapped s (s.treeDiffer l pc redo) l 4 0x02) ∧ ∃ n, s.tick < n ∧ (n, redo) ∈ (s.treeDiffer l pc redo).agenda := by
  let u := s.treeTrap l pc
  have htick : u.tick = s.tick := raiseTrap_tick s l _
  have hagain : s.treeDiffer l pc redo = u.sched (max (u.tick + 1) (u.part l.part).haltAt) redo := rfl
  rw [hagain]
  refine ⟨State.raiseTrap_mem s l _, fun hrun => trapped_more (MoreEvents.sched _ _ _) (trapEngine_trapped hrun).1, _, ?_,
    State.mem_sched _ _ _ (by omega)⟩
  omega

theorem treeOp_k {c : Ctx} {slot k : Nat} {o : TreeOpSt} (h : c.treeOp slot k = some o) : o.k = k := by
  unfold Ctx.treeOp at h
  simpa using List.find?_some h

section
variable {s : State} {l : Loc} {slot k : Nat} (port : Dir) (kind : TreeKind) (v : Vec) (nf : Bool)

theorem contribution_noted (hmember : ((s.ctx l).tree slot).up ≠ 7) (hchild : ((s.ctx l).tree slot).kids / 2 ^ portNo port % 2 = 1)
    (hopen : k < ((s.ctx l).tree slot).n → ((s.ctx l).treeOp slot k).isSome) :
    exec (.treeContributionArrival l slot k port kind v nf) s = .next
      ((s.updCtx l (·.updTree slot k fun o => { o with kidsIn := o.kidsIn ++ [(portNo port, kind, v, nf)] })).treeStep l slot k) := by
  have hgood : ¬ (((s.ctx l).tree slot).up = 7 || ((s.ctx l).tree slot).kids / 2 ^ portNo port % 2 = 0) = true := by
    simp [hmember, hchild]
  have hon : ¬ (k < ((s.ctx l).tree slot).n && ((s.ctx l).treeOp slot k).isNone) = true := by
    simp only [Bool.and_eq_true, decide_eq_true_eq, Option.isNone_iff_eq_none]
    rintro ⟨hk, hnone⟩
    have := hopen hk
    rw [hnone] at this
    exact Bool.noConfusion this
  simp only [exec, execTreeContributionArrival]
  rw [if_neg hgood, if_neg hon]
  rfl

theorem contribution_traps (hbad : ((s.ctx l).tree slot).up = 7 ∨ ((s.ctx l).tree slot).kids / 2 ^ portNo port % 2 = 0) :
    exec (.treeContributionArrival l slot k port kind v nf) s = .next (s.treeTrap l (s.ctx l).pc) := by
  simp only [exec, execTreeContributionArrival]
  exact if_pos (by simpa using hbad)

/-- A contribution to a bcast that is over at this tile halts the context. -/
theorem contribution_late (hmember : ((s.ctx l).tree slot).up ≠ 7)
    (hchild : ((s.ctx l).tree slot).kids / 2 ^ portNo port % 2 = 1) (hk : k < ((s.ctx l).tree slot).n)
    (hover : (s.ctx l).treeOp slot k = none) (hrun : runs s l) :
    ∃ t : State, exec (.treeContributionArrival l slot k port kind v nf) s = .next t ∧ trapped s t l 4 0x02 ∧ t.mem = s.mem := by
  have hgood : ¬ (((s.ctx l).tree slot).up = 7 || ((s.ctx l).tree slot).kids / 2 ^ portNo port % 2 = 0) = true := by
    simp [hmember, hchild]
  obtain ⟨hmem, htrap, -⟩ := treeDiffer_again s l (s.ctx l).pc (.treeContributionArrival l slot k port kind v nf)
  refine ⟨_, ?_, htrap hrun, hmem⟩
  simp only [exec, execTreeContributionArrival]
  rw [if_neg hgood, if_pos (by simp [hk, hover])]
  rfl

variable {o : TreeOpSt} (hown : Claim.ownOp s l slot k o)
include hown

theorem result_applied : exec (.treeResultArrival l slot k kind v nf) s = .next (s.treeApply l slot o kind v nf) := by
  simp only [exec, execTreeResultArrival, hown.1]
  exact if_pos hown.2

theorem result_differs (hkind : kind ≠ o.kind) :
    ∃ t : State, exec (.treeResultArrival l slot k kind v nf) s = .next t ∧ t.mem = s.mem ∧
      (runs s l → trapped s t l 4 0x02) ∧ ∃ n, s.tick < n ∧
        (n, if isXbar o.kind = true then .xbarRelease l slot k else .treeResultArrival l slot k o.kind v nf) ∈ t.agenda := by
  have hdiffer : s.treeApply l slot o kind v nf = s.treeDiffer l o.pc
      (if isXbar o.kind then .xbarRelease l slot k else .treeResultArrival l slot k o.kind v nf) := by
    unfold State.treeApply
    rw [if_pos (bne_iff_ne.mpr hkind), treeOp_k hown.1]
  exact ⟨_, (result_applied kind v nf hown).trans (congrArg Host.Outcome.next hdiffer), treeDiffer_again s l _ _⟩

theorem release_applied : exec (.xbarRelease l slot k) s = .next (s.treeApply l slot o .xbar 0 false) := by
  simp only [exec, execXbarRelease, hown.1]
  exact if_pos hown.2

end

/-- What a child device sends is combined into the first operation that has nothing of it yet. -/
theorem peer_combined {s : State} {l : Loc} {slot child : Nat} {o : TreeOpSt} {r : List TreeOpSt} (kind : TreeKind) (v : Vec) (nf : Bool)
    (hlist : (s.ctx l).treeList slot = o :: r) (hkind : isBcast o.kind = false) (hnew : ∀ x ∈ o.peersIn, x.1 ≠ child) :
    exec (.peerTreeCombine l slot ⟨child, true⟩ kind v nf) s = .next
      ((s.updCtx l (·.updTree slot o.k fun o => { o with peersIn := o.peersIn ++ [(child, kind, v, nf)] })).treePeers l slot o.k) := by
  have hany : (o.peersIn.any fun x => x.1 == child) = false := by
    rw [List.any_eq_false]
    intro x hx h
    exact hnew x hx (beq_iff_eq.mp h)
  have hfind : (o :: r).find? (fun o => !isBcast o.kind && !o.peersIn.any fun x => x.1 == child) = some o :=
    List.find?_cons_of_pos (by rw [hkind, hany]; rfl)
  simp only [exec, execPeerTreeCombine, Bool.not_true, Bool.false_eq_true, if_false, hlist, hfind]
  rfl

/-- Settles O45: a contribution is noted at its operation, a result or release is applied to its own, and one that differs halts. -/
theorem treeEvents : Obligations.TreeEvents := by
  refine fun s l slot k => ⟨fun port kind v nf => contribution_noted port kind v nf,
    fun port kind v nf => contribution_traps port kind v nf, fun port kind v nf => contribution_late port kind v nf,
    fun o v nf => result_applied o.kind v nf, fun o kind v nf => result_differs kind v nf, fun kind v nf hnone => ?before,
    fun o => release_applied, fun child kind v nf o r => peer_combined kind v nf, fun child kind v nf n htime => ?enters⟩
  case before =>
    simp only [exec, execTreeResultArrival, hnone]
    rfl
  case enters =>
    simp only [exec, execPeerTreeCombine, Bool.not_false, if_true]
    rw [State.packet_go _ _ _ _ htime]
    rfl

end Sys2Proof.Machine

/-! ### Routers and ports fail and are recovered (R93, R97, R424, R480) -/

namespace Sys2Proof.Machine

open Claim

/-! #### Halts of partitions -/

/-- Partition `p`, which was active in `s`, halts with code `k`. -/
structure Halts (s : State) (p k : Nat) (t : State) : Prop where
  tick : t.tick = s.tick
  halting : (t.part p).st = .halting
  due : (t.part p).haltAt = s.tick + 24
  code : (s.part p).cause = none → (t.part p).cause.map (·.2.2.2) = some k

theorem raiseHalt_tick (s : State) (p : Nat) (cause : Nat × Nat × Nat × Nat) : (s.raiseHalt p cause).tick = s.tick := by
  unfold State.raiseHalt
  dsimp only
  split <;> rfl

theorem raiseHalt_dv (s : State) (p : Nat) (cause : Nat × Nat × Nat × Nat) : (s.raiseHalt p cause).dv = s.dv := by
  unfold State.raiseHalt
  dsimp only
  split <;> rfl

theorem raiseHalt_other {s : State} {p q : Nat} (cause : Nat × Nat × Nat × Nat) (h : p ≠ q) :
    (s.raiseHalt q cause).part p = s.part p := by
  have hsched (u : State) (n : Nat) (e : Ev) : (u.sched n e).part p = u.part p := rfl
  unfold State.raiseHalt
  dsimp only
  split
  all_goals simp only [hsched, State.part_updPart_other _ _ _ _ h]

/-- A halt of an active partition is delivered 24 ticks later. -/
theorem raiseHalt_halts {s : State} {p : Nat} (cause : Nat × Nat × Nat × Nat) (hst : (s.part p).st = .active) :
    Halts s p cause.2.2.2 (s.raiseHalt p cause) := by
  obtain ⟨htick, -, -, -, hhalt, hat, -⟩ := s.raiseHalt_active p cause hst
  refine ⟨htick, hhalt, hat, fun hnone => ?_⟩
  have hsched (u : State) (n : Nat) (e : Ev) : (u.sched n e).part p = u.part p := rfl
  unfold State.raiseHalt
  simp only [hst, hnone, hsched, State.part_updPart_same]
  rfl

/-- Another trap of a partition that halts with the same code leaves the halt as it is. -/
theorem raiseHalt_again {s t : State} {p k : Nat} (cause : Nat × Nat × Nat × Nat) (hk : cause.2.2.2 = k) (h : Halts s p k t) :
    Halts s p k (t.raiseHalt p cause) := by
  obtain ⟨htick, hst, hat, hcode⟩ := h
  have heq : t.raiseHalt p cause = t.updPart p fun q => { q with cause := match q.cause with
      | some c => if trapBefore cause c then some cause else some c
      | none => some cause } := by
    unfold State.raiseHalt
    simp only [hst] <;> rfl
  rw [heq]
  refine ⟨htick, by rw [State.part_updPart_same]; exact hst, by rw [State.part_updPart_same]; exact hat, fun hnone => ?_⟩
  rw [State.part_updPart_same]
  have := hcode hnone
  cases hc : (t.part p).cause with
  | none => rw [hc] at this; exact absurd this nofun
  | some c =>
    rw [hc] at this
    dsimp only
    split
    · exact congrArg some hk
    · exact this

/-- What halts partitions one after another: each leaves the others as they were, and halts its own. -/
theorem foldl_halts {f : State → Nat → State} {p k : Nat} (htick : ∀ s q, (f s q).tick = s.tick)
    (hother : ∀ s q, p ≠ q → (f s q).part p = s.part p) (hown : ∀ s, (s.part p).st = .active → Halts s p k (f s p))
    (hagain : ∀ s t, Halts s p k t → Halts s p k (f t p)) :
    ∀ (qs : List Nat) (s : State), p ∈ qs → (s.part p).st = .active → Halts s p k (qs.foldl f s) := by
  have hkeep (s : State) (qs : List Nat) : ∀ t, Halts s p k t → Halts s p k (qs.foldl f t) := by
    induction qs with
    | nil => exact fun t h => h
    | cons q qs ih =>
      intro t h
      refine ih _ ?_
      by_cases hq : p = q
      · exact hq ▸ hagain s t h
      · obtain ⟨ht, hst, hat, hcode⟩ := h
        exact ⟨(htick t q).trans ht, by rw [hother t q hq]; exact hst, by rw [hother t q hq]; exact hat, by rw [hother t q hq]; exact hcode⟩
  intro qs
  induction qs with
  | nil => exact fun s h => absurd h List.not_mem_nil
  | cons q qs ih =>
    intro s hmem hst
    by_cases hq : p = q
    · exact hq ▸ hkeep s qs _ (hown s hst)
    · obtain ⟨ht, h1, h2, h3⟩ := ih (f s q) ((List.mem_cons.mp hmem).resolve_left hq) (by rw [hother s q hq]; exact hst)
      exact ⟨ht.trans (htick s q), h1, h2.trans (by rw [htick]), fun hnone => h3 (by rw [hother s q hq]; exact hnone)⟩

/-! #### Stops of partitions -/

/-- A partition's stop record is listed, with the context or loose, or held where the partition has halted; else its halt is raised. -/
theorem trapPart_cases (s : State) (p : Nat) (r : StopRec) :
    (s.trapPart p r = s.updPart p (fun q => { q with held := q.held ++ [r] }) ∧
      ((s.part p).st = .halted ∨ (s.part p).st = .swapped)) ∨
    ∃ u : State, s.trapPart p r = u.raiseHalt p (s.tick, r.tile, r.kind, r.code) ∧ u.tick = s.tick ∧ u.dv = s.dv ∧ u.mem = s.mem ∧
      (∀ q, q ≠ p → u.part q = s.part q) ∧ (u.part p).st = (s.part p).st ∧ (u.part p).haltAt = (s.part p).haltAt ∧
      (u.part p).cause = (s.part p).cause := by
  unfold State.trapPart
  split
  next h => exact .inl ⟨rfl, .inl h⟩
  next h => exact .inl ⟨rfl, .inr h⟩
  next l _ _ _ =>
    obtain ⟨cs, hcs⟩ := s.updCtx_eq l fun c => { c with stops := c.stops ++ [r] }
    exact .inr ⟨_, rfl, by rw [hcs], by rw [hcs], by rw [hcs], fun q _ => by rw [hcs]; rfl, by rw [hcs]; rfl, by rw [hcs]; rfl,
      by rw [hcs]; rfl⟩
  next =>
    exact .inr ⟨_, rfl, rfl, rfl, rfl, fun q hq => State.part_updPart_other _ _ _ _ hq, by rw [State.part_updPart_same],
      by rw [State.part_updPart_same], by rw [State.part_updPart_same]⟩

theorem trapPart_frame (s : State) (p : Nat) (r : StopRec) :
    (s.trapPart p r).tick = s.tick ∧ (s.trapPart p r).dv = s.dv ∧ (s.trapPart p r).mem = s.mem ∧
      ∀ q, q ≠ p → (s.trapPart p r).part q = s.part q := by
  rcases trapPart_cases s p r with ⟨h, -⟩ | ⟨u, h, htick, hdv, hmem, hother, -⟩
  · rw [h]
    exact ⟨rfl, rfl, rfl, fun q hq => State.part_updPart_other _ _ _ _ hq⟩
  · rw [h, raiseHalt_tick, raiseHalt_dv, State.raiseHalt_mem]
    exact ⟨htick, hdv, hmem, fun q hq => (raiseHalt_other _ hq).trans (hother q hq)⟩

theorem trapPart_halts {s : State} {p : Nat} (r : StopRec) (hst : (s.part p).st = .active) : Halts s p r.code (s.trapPart p r) := by
  rcases trapPart_cases s p r with ⟨-, h | h⟩ | ⟨u, h, htick, -, -, -, hust, -, hcause⟩
  · exact absurd (hst.symm.trans h) nofun
  · exact absurd (hst.symm.trans h) nofun
  · obtain ⟨h1, h2, h3, h4⟩ := raiseHalt_halts (s := u) (s.tick, r.tile, r.kind, r.code) (hust.trans hst)
    rw [h]
    exact ⟨h1.trans htick, h2, by rw [h3, htick], fun hnone => h4 (by rw [hcause]; exact hnone)⟩

theorem trapPart_again {s t : State} {p k : Nat} (r : StopRec) (hk : r.code = k) (h : Halts s p k t) : Halts s p k (t.trapPart p r) := by
  rcases trapPart_cases t p r with ⟨-, hst | hst⟩ | ⟨u, heq, htick, -, -, -, hust, hat, hcause⟩
  · exact absurd (h.halting.symm.trans hst) nofun
  · exact absurd (h.halting.symm.trans hst) nofun
  · rw [heq]
    exact raiseHalt_again _ hk ⟨htick.trans h.tick, hust.trans h.halting, hat.trans h.due, fun hnone => by rw [hcause]; exact h.code hnone⟩

theorem haltQuiet_frame (s : State) (p : Nat) :
    (s.haltQuiet p).tick = s.tick ∧ (s.haltQuiet p).dv = s.dv ∧ (s.haltQuiet p).mem = s.mem ∧
      ∀ q, q ≠ p → (s.haltQuiet p).part q = s.part q := by
  have hraise (c : Nat × Nat × Nat × Nat) : (s.raiseHalt p c).tick = s.tick ∧ (s.raiseHalt p c).dv = s.dv ∧
      (s.raiseHalt p c).mem = s.mem ∧ ∀ q, q ≠ p → (s.raiseHalt p c).part q = s.part q :=
    ⟨raiseHalt_tick _ _ _, raiseHalt_dv _ _ _, State.raiseHalt_mem _ _ _, fun q hq => raiseHalt_other _ hq⟩
  unfold State.haltQuiet State.haltWith
  split
  · exact hraise _
  · exact hraise _
  · exact hraise _
  · exact ⟨rfl, rfl, rfl, fun _ _ => rfl⟩
  · exact ⟨rfl, rfl, rfl, fun _ _ => rfl⟩

theorem haltQuiet_halts {s : State} {p : Nat} (hst : (s.part p).st = .active) : Halts s p 0 (s.haltQuiet p) := by
  have h : s.haltQuiet p = s.raiseHalt p (s.tick, 0xFFFF, 0xF, 0) := by
    unfold State.haltQuiet State.haltWith
    simp only [hst]
  rw [h]
  exact raiseHalt_halts (s.tick, 0xFFFF, 0xF, 0) hst

theorem haltQuiet_again {s t : State} {p k : Nat} (h : Halts s p k t) : Halts s p k (t.haltQuiet p) := by
  have heq : t.haltQuiet p = t := by
    unfold State.haltQuiet State.haltWith
    simp only [h.halting]
  rwa [heq]

/-! #### The failure of a router (R480) -/

/-- What a router's failure does to a partition: it halts with UNCORRECTABLE where it lost a packet, and else with cause 0. -/
def failHalt (tile : Nat) (ps : List Nat) (s : State) (p : Nat) : State :=
  if ps.contains p then s.trapPart p (s.partStop p 5 cUncorrectable tile) else s.haltQuiet p

theorem failHalt_frame (tile : Nat) (ps : List Nat) (s : State) (p : Nat) :
    (failHalt tile ps s p).tick = s.tick ∧ (failHalt tile ps s p).dv = s.dv ∧ (failHalt tile ps s p).mem = s.mem ∧
      ∀ q, q ≠ p → (failHalt tile ps s p).part q = s.part q := by
  unfold failHalt
  split
  · exact trapPart_frame s p _
  · exact haltQuiet_frame s p

theorem foldl_frame {f : State → Nat → State} (h : ∀ s q, (f s q).tick = s.tick ∧ (f s q).dv = s.dv ∧ (f s q).mem = s.mem) (qs : List Nat) :
    ∀ s : State, (qs.foldl f s).tick = s.tick ∧ (qs.foldl f s).dv = s.dv ∧ (qs.foldl f s).mem = s.mem := by
  induction qs with
  | nil => exact fun s => ⟨rfl, rfl, rfl⟩
  | cons q qs ih =>
    intro s
    obtain ⟨h1, h2, h3⟩ := ih (f s q)
    obtain ⟨k1, k2, k3⟩ := h s q
    exact ⟨h1.trans k1, h2.trans k2, h3.trans k3⟩

theorem failHalt_halts {tile : Nat} {ps qs : List Nat} {s : State} {p : Nat} (hmem : p ∈ qs) (hst : (s.part p).st = .active) :
    Halts s p (if p ∈ ps then 0x13 else 0) (qs.foldl (failHalt tile ps) s) := by
  refine foldl_halts (fun s q => (failHalt_frame tile ps s q).1) (fun s q hq => (failHalt_frame tile ps s q).2.2.2 p hq)
    (fun s hst => ?_) (fun s t h => ?_) qs s hmem hst
  all_goals unfold failHalt
  · by_cases hp : p ∈ ps
    · rw [if_pos hp, if_pos (by simpa using hp)]
      exact trapPart_halts (s.partStop p 5 cUncorrectable tile) hst
    · rw [if_neg hp, if_neg (by simpa using hp)]
      exact haltQuiet_halts hst
  · by_cases hp : p ∈ ps
    · rw [if_pos hp] at h ⊢
      rw [if_pos (by simpa using hp)]
      exact trapPart_again _ rfl h
    · rw [if_neg hp] at h ⊢
      rw [if_neg (by simpa using hp)]
      exact haltQuiet_again h

theorem routerFailure_halts (s : State) (tile : Nat) (ps : List Nat) : ∃ t : State,
    exec (.routerFailure tile { parts := ps }) s = .next t ∧ tile ∈ t.dv.failed ∧ t.mem = s.mem ∧
      (tile ∉ s.dv.failed → ∃ n, s.tick < n ∧ (n, .routerFailure tile { recover := true }) ∈ t.agenda) ∧
      ∀ e ∈ s.parts, (s.part e.1).st = .active → (t.part e.1).st = .halting ∧ (t.part e.1).haltAt = s.tick + 24 ∧
        ((s.part e.1).cause = none → (t.part e.1).cause.map (·.2.2.2) = some (if e.1 ∈ ps then 0x13 else 0)) := by
  let u := (s.parts.map (·.1)).foldl (failHalt tile ps) s
  obtain ⟨htick, hdv, hmem⟩ := foldl_frame (fun s q => ⟨(failHalt_frame tile ps s q).1, (failHalt_frame tile ps s q).2.1,
    (failHalt_frame tile ps s q).2.2.1⟩) (s.parts.map (·.1)) s
  have hstep : exec (.routerFailure tile { parts := ps }) s = if s.dv.failed.contains tile then .next u
      else .next (State.schedFree { u with dv := { u.dv with failed := tile :: u.dv.failed } } 25
        (.routerFailure tile { recover := true })) := by
    have hu : u = s.parts.foldl (fun s e =>
        if ps.contains e.1 then s.trapPart e.1 (s.partStop e.1 5 cUncorrectable tile) else s.haltQuiet e.1) s := List.foldl_map
    rw [hu, ← show u.dv = s.dv from hdv, hu]
    rfl
  have hparts (t : State) (ht : t.parts = u.parts) : ∀ e ∈ s.parts, (s.part e.1).st = .active → (t.part e.1).st = .halting ∧
      (t.part e.1).haltAt = s.tick + 24 ∧
      ((s.part e.1).cause = none → (t.part e.1).cause.map (·.2.2.2) = some (if e.1 ∈ ps then 0x13 else 0)) := by
    intro e he hst
    obtain ⟨-, h1, h2, h3⟩ := failHalt_halts (tile := tile) (ps := ps) (List.mem_map_of_mem he) hst
    have hp : t.part e.1 = u.part e.1 := by rw [State.part, ht, State.part]
    rw [hp]
    exact ⟨h1, h2, h3⟩
  by_cases hf : tile ∈ s.dv.failed
  · exact ⟨u, hstep.trans (if_pos (by simpa using hf)), by rw [show u.dv = s.dv from hdv]; exact hf, hmem, fun h => absurd hf h,
      hparts u rfl⟩
  · obtain ⟨w, hw, hag⟩ := State.mem_schedFree { u with dv := { u.dv with failed := tile :: u.dv.failed } } 25
      (.routerFailure tile { recover := true })
    refine ⟨_, hstep.trans (if_neg (by simpa using hf)), List.mem_cons_self, hmem, fun _ => ⟨w, ?_, hag⟩, hparts _ rfl⟩
    have : u.tick + 25 ≤ w := hw
    rw [show u.tick = s.tick from htick] at this
    omega

theorem routerFailure_waits {s : State} {tile : Nat} (hf : tile ∈ s.dv.failed) (hrun : ∃ e ∈ s.parts, e.2.st ≠ .halted) :
    ∃ (t : State) (n : Nat), exec (.routerFailure tile { recover := true }) s = .next t ∧ t.mem = s.mem ∧ t.dv.failed = s.dv.failed ∧
      s.tick < n ∧ (n, .routerFailure tile { recover := true }) ∈ t.agenda := by
  let u := (s.parts.map (·.1)).foldl State.haltQuiet s
  obtain ⟨htick, hdv, hmem⟩ := foldl_frame (fun s q => ⟨(haltQuiet_frame s q).1, (haltQuiet_frame s q).2.1,
    (haltQuiet_frame s q).2.2.1⟩) (s.parts.map (·.1)) s
  have hany : (s.parts.any fun e => e.2.st != .halted) = true := by
    obtain ⟨e, he, hst⟩ := hrun
    exact List.any_eq_true.mpr ⟨e, he, bne_iff_ne.mpr hst⟩
  have hu : u = s.parts.foldl (fun s e => s.haltQuiet e.1) s := List.foldl_map
  obtain ⟨w, hw, hag⟩ := State.mem_schedFree u 25 (.routerFailure tile { recover := true })
  have hstep : exec (.routerFailure tile { recover := true }) s = .next (u.schedFree 25 (.routerFailure tile { recover := true })) := by
    simp only [exec, execRouterFailure, Bool.not_true, Bool.false_eq_true, if_false, List.contains_eq_mem, hf, decide_true, hany, if_true,
      hu]
    rfl
  refine ⟨_, w, hstep, hmem, (show u.dv.failed = s.dv.failed by rw [show u.dv = s.dv from hdv]), ?_, hag⟩
  have : u.tick + 25 ≤ w := hw
  rw [show u.tick = s.tick from htick] at this
  omega

theorem routerFailure_recovers {s : State} {tile : Nat} (hf : tile ∈ s.dv.failed) (hhalted : ∀ e ∈ s.parts, e.2.st = .halted) :
    let x := s.harvestFailed
    exec (.routerFailure tile { recover := true }) s = .next
      (if x.1.tablesOk = true then
        (x.1.parts.map (·.1)).foldl (State.recoverPart x.2) { x.1 with dv := { x.1.dv with failed := [] } }
      else State.schedFree (tookFree s) 1 (.routerFailure tile { recover := true })) := by
  intro x
  have hany : (s.parts.any fun e => e.2.st != .halted) = false := by
    rw [List.any_eq_false]
    intro e he
    simp [hhalted e he]
  simp only [exec, execRouterFailure, Bool.not_true, Bool.false_eq_true, if_false, List.contains_eq_mem, hf, decide_true, hany]
  by_cases hfit : x.1.tablesOk = true
  · rw [if_pos hfit, if_pos hfit, List.foldl_map]
    rfl
  · rw [if_neg hfit, if_neg hfit]
    rfl

/-! #### The harvest map (R93, R480) -/

theorem getLsbD_setBit (x : Word) (i : Nat) (hi : i < 64) : (x ||| ((1 : Word) <<< i)).getLsbD i = true := by
  simp [hi]

/-- What is harvested once stays so, and the listed tiles are harvested too. -/
theorem harvestMore_bit (ts : List Nat) : ∀ hv : Tbl Word, Tbl.wf 0 hv = true → ∀ t, t < 4096 →
    (t ∈ ts ∨ (Tbl.get 0 hv (t / 64)).getLsbD (t % 64) = true) →
    (Tbl.get 0 (harvestMore hv ts) (t / 64)).getLsbD (t % 64) = true := by
  induction ts with
  | nil => exact fun hv _ t _ h => h.resolve_left List.not_mem_nil
  | cons a ts ih =>
    intro hv hwf t ht h
    let hv' := if a < 4096 then Tbl.set 0 hv (a / 64) (Tbl.get 0 hv (a / 64) ||| (1 <<< (a % 64))) else hv
    have hwf' : Tbl.wf 0 hv' = true := by
      show Tbl.wf 0 (if a < 4096 then Tbl.set 0 hv (a / 64) (Tbl.get 0 hv (a / 64) ||| (1 <<< (a % 64))) else hv) = true
      split
      · exact Tbl.set_wf _ _ _ _ hwf
      · exact hwf
    refine ih hv' hwf' t ht ?_
    by_cases hat : t = a
    · subst hat
      refine .inr ?_
      rw [show hv' = Tbl.set 0 hv (t / 64) (Tbl.get 0 hv (t / 64) ||| (1 <<< (t % 64))) from if_pos ht, Tbl.get_set_same _ _ _ _ hwf]
      exact getLsbD_setBit _ _ (Nat.mod_lt _ (by omega))
    · rcases h with h | h
      · exact .inl ((List.mem_cons.mp h).resolve_left hat)
      · refine .inr ?_
        by_cases ha : a < 4096
        · rw [show hv' = Tbl.set 0 hv (a / 64) (Tbl.get 0 hv (a / 64) ||| (1 <<< (a % 64))) from if_pos ha]
          by_cases hword : t / 64 = a / 64
          · rw [hword, Tbl.get_set_same _ _ _ _ hwf, BitVec.getLsbD_or, ← hword, h, Bool.true_or]
          · rw [Tbl.get_set_other _ _ _ _ _ hwf hword]
            exact h
        · rw [show hv' = hv from if_neg ha]
          exact h

theorem putTables_hv (s : State) (f : Nat → Nat → Word) : (s.putTables f).hv = s.hv := by
  unfold State.putTables
  exact List.foldlRecOn (motive := fun u : State => u.hv = s.hv) _ _ rfl fun _ hu _ _ => hu

theorem harvestFailed_bit {s : State} (hwf : Tbl.wf 0 s.hv = true) (t : Nat) (hf : t ∈ s.dv.failed) (ht : t < 4096) :
    (Tbl.get 0 s.harvestFailed.1.hv (t / 64)).getLsbD (t % 64) = true := by
  unfold State.harvestFailed
  dsimp only
  rw [putTables_hv]
  refine harvestMore_bit _ _ hwf t ht ?_
  cases hh : s.harvested t with
  | true => exact .inr hh
  | false => exact .inl (List.mem_filter.mpr ⟨List.mem_append_left _ hf, by simp [ht, hh]⟩)

/-! #### Partitions after a failure (R480) -/

theorem recoverPart_cases (s : State) (p : Nat) (new : List Nat) :
    let hit := (∃ t ∈ new, (s.region (s.part p).root).eff.inBox t = true) ∨ (s.part p).code = 0x13
    (hit → State.recoverPart new s p = s.strike p) ∧
    (¬ hit → (s.part p).st = .halted → (s.part p).code = 0 → State.recoverPart new s p = s.resumePart p) ∧
    (¬ hit → (s.part p).st ≠ .halted ∨ (s.part p).code ≠ 0 → State.recoverPart new s p = s) := by
  intro hit
  have hbool : (new.any (s.region (s.part p).root).eff.inBox || (s.part p).code == cUncorrectable) = true ↔ hit := by
    rw [Bool.or_eq_true, List.any_eq_true, beq_iff_eq]
    rfl
  unfold State.recoverPart
  refine ⟨fun h => if_pos (hbool.mpr h), fun h hst hcode => ?_, fun h hother => ?_⟩
  · exact (if_neg (mt hbool.mp h)).trans (if_pos (by simp [hst, hcode]))
  · refine (if_neg (mt hbool.mp h)).trans (if_neg ?_)
    rw [Bool.and_eq_true, beq_iff_eq, beq_iff_eq]
    rintro ⟨hst, hcode⟩
    rcases hother with h | h
    · exact h hst
    · exact h hcode

theorem strike_cases (s : State) (p : Nat) : ((s.part p).ckpt ≠ none → s.strike p = s.sched s.tick (.restore ⟨p, none⟩)) ∧
    ((s.part p).ckpt = none → (s.part p).st = .halted → s.strike p = s.sched s.tick (.endPartition p)) ∧
    ((s.part p).ckpt = none → (s.part p).st ≠ .halted → ∃ n, s.tick < n ∧ (n, .endPartition p) ∈ (s.strike p).agenda) := by
  unfold State.strike
  refine ⟨fun h => if_pos (Option.isSome_iff_ne_none.mpr h), fun h hst => ?_, fun h hst => ?_⟩
  · rw [h, hst]
    rfl
  · rw [h, if_neg (by simp), if_neg (by simpa using hst)]
    obtain ⟨w, hw, hag⟩ := State.mem_schedFree (s.haltQuiet p) 25 (.endPartition p)
    rw [(haltQuiet_frame s p).1] at hw
    exact ⟨w, by omega, hag⟩

/-! #### Ports (R424) -/

theorem crcFail_downs (s : State) (port : Nat) (lost : List Nat) : ∃ t : State, exec (.zheostCrcFail port true lost) s = .next t ∧
    t.mem = s.mem ∧ t.dv.portsDown = (if port ∈ s.dv.portsDown then s.dv.portsDown else port :: s.dv.portsDown) ∧
    ∀ p ∈ lost, Tbl.has s.parts p = true → (s.part p).st = .active → (t.part p).st = .halting ∧ (t.part p).haltAt = s.tick + 24 ∧
      ((s.part p).cause = none → (t.part p).cause.map (·.2.2.2) = some 0x13) := by
  let u : State := { s with dv := { s.dv with
    portsDown := if s.dv.portsDown.contains port then s.dv.portsDown else port :: s.dv.portsDown } }
  let f (s : State) (p : Nat) : State := s.trapPart p (s.partStop p 5 cUncorrectable 0)
  let hit := (lost.filter fun p => Tbl.has s.parts p).eraseDups
  have hframe (s : State) (q : Nat) := trapPart_frame s q (s.partStop q 5 cUncorrectable 0)
  obtain ⟨htick, hdv, hmem⟩ := foldl_frame (f := f) (fun s q => ⟨(hframe s q).1, (hframe s q).2.1, (hframe s q).2.2.1⟩) hit u
  refine ⟨hit.foldl f u, rfl, hmem, ?_, fun p hp hhas hst => ?_⟩
  · rw [hdv]
    simp [u]
  · have hin : p ∈ hit := List.mem_eraseDups.mpr (List.mem_filter.mpr ⟨hp, hhas⟩)
    obtain ⟨-, h1, h2, h3⟩ := foldl_halts (f := f) (k := 0x13) (fun s q => (hframe s q).1) (fun s q hq => (hframe s q).2.2.2 p hq)
      (fun s hst => trapPart_halts (s.partStop p 5 cUncorrectable 0) hst) (fun s t h => trapPart_again _ rfl h) hit u hin hst
    exact ⟨h1, h2, h3⟩

/-- Settles O46: a router's failure halts every partition, harvests its tile and strikes, and a port goes down and comes back. -/
theorem routerEvents : Obligations.RouterEvents :=
  fun s => ⟨fun _ _ => rfl, routerFailure_halts s, fun _ => routerFailure_waits, fun _ => routerFailure_recovers, harvestFailed_bit,
    recoverPart_cases s, strike_cases s, fun _ _ => rfl, crcFail_downs s, fun _ => rfl⟩

end Sys2Proof.Machine

/-! ### The dispenser places records (R22, R85 to R88, R154, R155) -/

namespace Sys2Proof.Machine

open Claim

/-! #### Start records (R85 to R88) -/

/-- What the dispenser does with a start record. -/
theorem tryStart_cases {s : State} {r : Nat} {d : DRec} (hd : s.startRec r = some d) :
    (s.startReady d = .wait → s.tryStart r = s) ∧ (s.startReady d = .go → s.tryStart r = s.placeStart d) ∧
    (∀ ps, s.startReady d = .pre ps true → s.tryStart r = s.preempt d ps) ∧
    (∀ ps, s.startReady d = .pre ps false → s.tryStart r = if (s.agenda.any fun e => e.2 == .preemptDelayExpiry r) = true then s
      else s.schedIn ((s.dv.pdelay * 504 + tickUnits s.pnow - 1) / tickUnits s.pnow) (.preemptDelayExpiry r)) := by
  unfold State.tryStart
  simp only [hd]
  refine ⟨fun h => ?_, fun h => ?_, fun ps h => ?_, fun ps h => ?_⟩
  all_goals simp only [h]

theorem any_event_false {s : State} {e : Ev} (h : ∀ x ∈ s.agenda, x.2 ≠ e) : (s.agenda.any fun x => x.2 == e) = false :=
  List.any_eq_false.mpr fun x hx => by simpa using h x hx

theorem startRecord_cases {s : State} {r : Nat} {d : DRec} (hd : s.startRec r = some d) :
    (s.startReady d = .wait → exec (.startRecordPlace r) s = .next s) ∧
    (s.startReady d = .go → exec (.startRecordPlace r) s = .next (s.placeStart d)) ∧
    (s.startReady d = .go → s.gov.gate = true → s.dv.cfg.balen = true → exec (.ballastDispatch r) s = .next (s.placeStart d)) ∧
    (∀ ps, s.startReady d = .pre ps true → exec (.startRecordPlace r) s = .next (s.preempt d ps)) ∧
    (∀ ps, s.startReady d = .pre ps false → (∀ e ∈ s.agenda, e.2 ≠ .preemptDelayExpiry r) →
      exec (.startRecordPlace r) s = .next (s.schedIn
        ((s.dv.pdelay * 504 + tickUnits s.pnow - 1) / tickUnits s.pnow) (.preemptDelayExpiry r))) ∧
    (∀ ps, s.startReady d = .pre ps false → (∃ e ∈ s.agenda, e.2 = .preemptDelayExpiry r) →
      exec (.startRecordPlace r) s = .next s) := by
  obtain ⟨hwait, hgo, hball, hdelay⟩ := tryStart_cases hd
  refine ⟨fun h => congrArg Host.Outcome.next (hwait h), fun h => congrArg Host.Outcome.next (hgo h), fun h hgate hbal => ?_,
    fun ps h => congrArg Host.Outcome.next (hball ps h), fun ps h hno => congrArg Host.Outcome.next ((hdelay ps h).trans (if_neg ?_)),
    fun ps h hin => congrArg Host.Outcome.next ((hdelay ps h).trans (if_pos ?_))⟩
  · have hopen : s.ballastOpen = true := by rw [State.ballastOpen, hgate, hbal]; rfl
    exact (if_pos hopen).trans (congrArg Host.Outcome.next (hgo h))
  · rw [any_event_false hno]
    nofun
  · obtain ⟨e, he, heq⟩ := hin
    exact List.any_eq_true.mpr ⟨e, he, by simp [heq]⟩

theorem ballast_shut {s : State} (r : Nat) (h : s.gov.gate = false ∨ s.dv.cfg.balen = false) :
    exec (.ballastDispatch r) s = .next s := by
  have hshut : s.ballastOpen = false := by
    rw [State.ballastOpen]
    rcases h with h | h <;> simp [h]
  exact if_neg (by rw [hshut]; nofun)

/-! #### Placing: the record stays, marked (R16, R63, R84) -/

theorem updCtx_recs (s : State) (l : Loc) (f : Ctx → Ctx) : (s.updCtx l f).recs = s.recs := by
  obtain ⟨cs, h⟩ := s.updCtx_eq l f
  rw [h]

theorem claimBank_recs (s : State) (t p : Nat) : (s.claimBank t p).recs = s.recs := by
  unfold State.claimBank
  split
  · rfl
  · dsimp only
    (repeat' split) <;> rfl

theorem wakeQuad_recs (s : State) (t : Nat) : (s.wakeQuad t).recs = s.recs := by
  unfold State.wakeQuad
  dsimp only
  split <;> rfl

theorem takeFg_recs (s : State) (l : Loc) : (s.takeFg l).recs = s.recs := by
  unfold State.takeFg
  dsimp only
  split <;> rfl

theorem foldl_recs {α : Type} {f : State → α → State} (h : ∀ s x, (f s x).recs = s.recs) (xs : List α) (s : State) :
    (xs.foldl f s).recs = s.recs :=
  List.foldlRecOn (motive := fun u : State => u.recs = s.recs) xs f rfl fun u hu x _ => (h u x).trans hu

theorem placeStart_recs (s : State) (d : DRec) : (s.placeStart d).recs = (s.mark d).recs := by
  unfold State.placeStart
  extract_lets g s1 s2 s3 s4 s5 seeds
  have h2 : s2.recs = s1.recs := by
    simp only [s2]
    split <;> rfl
  have h3 : s3.recs = s2.recs := foldl_recs (fun u t => by
    have hu : ((u.claimBank t d.part).wakeQuad t).recs = u.recs := (wakeQuad_recs _ _).trans (claimBank_recs _ _ _)
    dsimp only
    split <;> exact hu) _ _
  have h4 : s4.recs = s3.recs := foldl_recs (fun u t => (takeFg_recs _ _).trans (updCtx_recs _ _ _)) _ _
  calc (seeds.foldl (fun s t => s.schedFree 1 (.imageChunkSend d.region t 0)) s5).recs
      _ = s4.recs := foldl_recs (f := fun (s : State) t => s.schedFree 1 (.imageChunkSend d.region t 0)) (fun _ _ => rfl) seeds s5
      _ = s1.recs := h4.trans (h3.trans h2)

theorem foldl_regions {α : Type} {f : State → α → State} (h : ∀ s x, (f s x).regions = s.regions) (xs : List α) (s : State) :
    (xs.foldl f s).regions = s.regions :=
  List.foldlRecOn (motive := fun u : State => u.regions = s.regions) xs f rfl fun u hu x _ => (h u x).trans hu

theorem placeStart_loading (s : State) (d : DRec) : ((s.placeStart d).region d.region).loading = 1 ∧
    ((s.placeStart d).region d.region).loaded = [] := by
  unfold State.placeStart
  extract_lets g s1 s2 s3 s4 s5 seeds
  have h : (seeds.foldl (fun s t => s.schedFree 1 (.imageChunkSend d.region t 0)) s5).region d.region =
      { s4.region d.region with loading := 1, loaded := [] } := by
    rw [State.region, foldl_regions (f := fun (s : State) t => s.schedFree 1 (.imageChunkSend d.region t 0)) (fun _ _ => rfl)]
    exact State.region_updRegion_same s4 d.region fun g => { g with loading := 1, loaded := [] }
  exact ⟨congrArg Region.loading h, congrArg Region.loaded h⟩

theorem placeStart_marks (s : State) (d : DRec) : let u := s.placeStart d
    (d ∈ s.recs → { d with placed := true } ∈ u.recs) ∧ u.recs.length = s.recs.length ∧ d ∉ u.toPlace ∧
      (u.region d.region).loading = 1 ∧ (u.region d.region).loaded = [] := by
  intro u
  have hrecs : u.recs = s.recs.map fun x => if x == d then { x with placed := true } else x := placeStart_recs s d
  refine ⟨fun h => ?_, by rw [hrecs, List.length_map], fun h => ?_, placeStart_loading s d⟩
  · rw [hrecs]
    exact List.mem_map.mpr ⟨d, h, by simp⟩
  · obtain ⟨hmem, hplaced⟩ := List.mem_filter.mp h
    rw [hrecs] at hmem
    obtain ⟨x, -, hx⟩ := List.mem_map.mp hmem
    by_cases hxd : x = d
    · rw [if_pos (by simpa using hxd)] at hx
      rw [← hx] at hplaced
      exact absurd hplaced nofun
    · rw [if_neg (by simpa using hxd)] at hx
      exact hxd hx

/-! #### Tasks and recruits (R22, R102, R154, R155) -/

theorem taskRecord_placed {s : State} {r t : Nat} {d : DRec} {st : Start} {rest : List Nat}
    (hfind : (s.recs.find? fun d => d.region == r && isTask d) = some d) (hkind : d.kind = .task st) (hr : d.region = r)
    (hst : (s.part d.part).st = .active) (hlvl : d.lvl ≠ 0 ∨ s.ballastOpen = true)
    (hbusy : (s.busySlots r).length < (s.region r).eff.tiles) (hslots : taskSlots s d = t :: rest) :
    exec (.taskRecordPlace r) s = .next ((dropRec s d).recruit none t st).kick := by
  subst hr
  have hgo : ((s.part d.part).st == .active && (d.lvl != 0 || s.ballastOpen) &&
      decide ((s.busySlots d.region).length < (s.region d.region).eff.tiles)) = true := by
    rw [Bool.and_eq_true, Bool.and_eq_true, Bool.or_eq_true, beq_iff_eq, bne_iff_ne]
    exact ⟨⟨hst, hlvl⟩, decide_eq_true hbusy⟩
  show execTaskRecordPlace d.region s = _
  unfold execTaskRecordPlace
  have hfind' : (s.recs.find? fun x => x.region == d.region && (match x.kind with
    | .task _ => true
    | .start | .resume => false)) = some d := hfind
  split
  next x hx =>
    obtain rfl : d = x := Option.some.inj (hfind'.symm.trans hx)
    refine (if_pos hgo).trans ?_
    split
    next t' st' ht hk =>
      obtain rfl : t = t' := Option.some.inj ((congrArg List.head? hslots).symm.trans ht)
      obtain rfl := RKind.task.inj (hkind.symm.trans hk)
      rfl
    next hno => exact (hno t st (congrArg List.head? hslots) hkind).elim
  next hx => exact absurd (hfind'.symm.trans hx) nofun

/-- The bank of a partition that is in the foreground stays there. -/
theorem takeFg_here {s : State} {l : Loc} (h : s.inFg l = true) : s.takeFg l = s := by
  unfold State.takeFg
  rw [h]
  rfl

theorem devWrite_cores (s : State) (bs : List (Nat × Byte)) : (s.devWrite bs).cores = s.cores := by
  unfold State.devWrite
  split
  · rfl
  · split <;> rfl

/-- A strand of partition `p` that has just started at `pc`. -/
structure Started (p r pc : Nat) (kind : PKind) (c : Ctx) : Prop where
  part : c.part = some p
  live : c.live = true
  starting : c.starting = false
  kind : c.kind = kind
  pc : c.pc = pc
  region : c.region = r
  regs : c.s = []
  noHandler : c.ui.inh = false

theorem started_updCtx {s : State} {l : Loc} {r pc : Nat} {kind : PKind} {f : Ctx → Ctx} (hfg : s.inFg l = true)
    (hf : Started l.part r pc kind (f (s.ctx l))) : (s.updCtx l f).inFg l = true ∧ Started l.part r pc kind ((s.updCtx l f).ctx l) :=
  ⟨s.inFg_updCtx l f hfg hf.part, (s.ctx_updCtx l f hfg hf.part).symm ▸ hf⟩

theorem bindSlot_started {s : State} {l : Loc} {r pc : Nat} {kind : PKind} (n t : Nat) (hfg : s.inFg l = true)
    (h : Started l.part r pc kind (s.ctx l)) :
    (s.bindSlot l n t).inFg l = true ∧ Started l.part r pc kind ((s.bindSlot l n t).ctx l) := by
  have hu := started_updCtx (f := fun c => c.updSlot n fun x => { x with st := .bound, moved := x.pos, buf := [], fly := [] }) hfg
    ⟨h.part, h.live, h.starting, h.kind, h.pc, h.region, h.regs, h.noHandler⟩
  unfold State.bindSlot
  dsimp only
  split
  · exact hu
  · exact hu

theorem Started.setSlot {p r pc : Nat} {kind : PKind} {c : Ctx} (h : Started p r pc kind c) (n : Nat) (x : Slot) :
    Started p r pc kind (c.setSlot n x) :=
  ⟨h.part, h.live, h.starting, h.kind, h.pc, h.region, h.regs, h.noHandler⟩

theorem setSlot_started {s : State} {l : Loc} {r pc : Nat} {kind : PKind} (n : Nat) (x : Slot) (hfg : s.inFg l = true)
    (h : Started l.part r pc kind (s.ctx l)) :
    (s.updCtx l fun c => c.setSlot n x).inFg l = true ∧ Started l.part r pc kind ((s.updCtx l fun c => c.setSlot n x).ctx l) :=
  started_updCtx (f := fun c => c.setSlot n x) hfg (h.setSlot n x)

/-- A strand that starts stands at its first word, with no register set. -/
theorem startStrand_started {s : State} {l : Loc} (r pc : Nat) (kind : PKind) (first : Nat) (hfg : s.inFg l = true) :
    (s.startStrand l r pc kind first).inFg l = true ∧ Started l.part r pc kind ((s.startStrand l r pc kind first).ctx l) := by
  unfold State.startStrand
  extract_lets g words base s1 s2 s3
  have h1 : s1.inFg l = true ∧ Started l.part r pc kind (s1.ctx l) := by
    refine started_updCtx hfg ?_
    dsimp only
    exact ⟨s.part_ctx l hfg, rfl, rfl, rfl, rfl, rfl, rfl, rfl⟩
  have h2 : s2.inFg l = true ∧ Started l.part r pc kind (s2.ctx l) := by
    refine List.foldlRecOn (motive := fun u : State => u.inFg l = true ∧ Started l.part r pc kind (u.ctx l)) _ _ h1 fun u hu x _ => ?_
    obtain ⟨hfg', h'⟩ := setSlot_started x.1 x.2 hu.1 hu.2
    exact bindSlot_started _ _ hfg' h'
  by_cases hstarted : g.started = true
  · rw [if_pos hstarted]
    exact h2
  · rw [if_neg hstarted]
    have hcores : ((s3.setRSt r .running 0).rcbWord r 0x98 s3.tmNow).cores = s2.cores :=
      (devWrite_cores _ _).trans (devWrite_cores _ _)
    rw [State.ctx_congr _ _ _ hcores, State.inFg, State.core, hcores]
    exact h2

theorem put_started {c : Ctx} {p r pc : Nat} {kind : PKind} (n : Nat) (x : Word) (h : c.live = true ∧ c.starting = false ∧
    c.kind = kind ∧ c.pc = pc ∧ c.region = r ∧ c.part = some p) :
    let c' := c.put (.s n x)
    c'.live = true ∧ c'.starting = false ∧ c'.kind = kind ∧ c'.pc = pc ∧ c'.region = r ∧ c'.part = some p := by
  unfold Ctx.put
  dsimp only
  (repeat' split) <;> exact h

/-- Outside a handler the scalar registers are those of the table, in its canonical form. -/
def Plain (c : Ctx) : Prop := c.ui.inh = false ∧ Tbl.wf 0 c.s = true

theorem put_s (c : Ctx) (n : Nat) (x : Word) :
    (c.put (.s n x)).s = if n % 64 ≠ 0 ∧ n < 64 then Tbl.set 0 c.s n x else c.s := by
  unfold Ctx.put
  by_cases h0 : n % 64 = 0
  · rw [if_neg (fun h => h.1 h0)]
    exact congrArg Ctx.s (if_pos h0)
  · by_cases hn : n < 64
    · rw [if_pos ⟨h0, hn⟩]
      exact congrArg Ctx.s ((if_neg h0).trans (if_pos hn))
    · rw [if_neg fun h => hn h.2]
      exact (congrArg Ctx.s ((if_neg h0).trans (if_neg hn)) :)

theorem put_plain {c : Ctx} (n : Nat) (x : Word) (h : Plain c) : Plain (c.put (.s n x)) := by
  refine ⟨?_, ?_⟩
  · unfold Ctx.put
    dsimp only
    (repeat' split) <;> exact h.1
  · rw [put_s]
    split
    · exact Tbl.set_wf _ _ _ _ h.2
    · exact h.2

theorem Plain.sreg {c : Ctx} (h : Plain c) (n : Nat) : c.sreg n = if n = 0 then 0 else Tbl.get 0 c.s n := by
  unfold Ctx.sreg
  rw [h.1]
  rfl

theorem sreg_put_other {c : Ctx} {n m : Nat} (x : Word) (h : Plain c) (hne : m ≠ n) : (c.put (.s n x)).sreg m = c.sreg m := by
  rw [(put_plain n x h).sreg, h.sreg, put_s]
  by_cases hn : n % 64 ≠ 0 ∧ n < 64
  · rw [if_pos hn, Tbl.get_set_other _ _ _ _ _ h.2 hne]
  · rw [if_neg hn]

theorem sreg_put_same {c : Ctx} {n : Nat} (x : Word) (h : Plain c) (h0 : 0 < n) (hn : n < 64) : (c.put (.s n x)).sreg n = x := by
  rw [(put_plain n x h).sreg, put_s, if_neg (by omega), if_pos ⟨by omega, hn⟩, Tbl.get_set_same _ _ _ _ h.2]

theorem recruitStart_starts {s : State} {t : Nat} {st : Start} (hstart : (s.ctx ⟨t, (s.region st.region).part⟩).starting = true)
    (hq : s.quadAwake t = true) (hfg : s.inFg ⟨t, (s.region st.region).part⟩ = true) :
    let l : Loc := ⟨t, (s.region st.region).part⟩
    ∃ u : State, exec (.recruitStart t st) s = .next u ∧ (u.ctx l).live = true ∧ (u.ctx l).starting = false ∧
      (u.ctx l).kind = .elastic ∧ (u.ctx l).pc = st.pc ∧ (u.ctx l).region = st.region ∧
      (st.dreg ≠ 1 → st.dreg ≠ 2 → (u.ctx l).sreg 1 = BitVec.ofNat 64 st.s1 ∧ (u.ctx l).sreg 2 = BitVec.ofNat 64 st.s2) ∧
      (∀ n, n ≠ 1 → n ≠ 2 → n ≠ st.dreg → (u.ctx l).sreg n = 0) := by
  intro l
  let w := s.startStrand l st.region st.pc .elastic 1
  let f (c : Ctx) : Ctx := ((c.put (.s 1 (BitVec.ofNat 64 st.s1))).put (.s 2 (BitVec.ofNat 64 st.s2))).put
    (.s st.dreg (BitVec.ofNat 64 st.cell))
  obtain ⟨hwfg, h⟩ := startStrand_started st.region st.pc .elastic 1 hfg
  have hstep : exec (.recruitStart t st) s = .next (w.updCtx l f) := by
    have hready : s.fgReady l = true := by rw [State.fgReady, hfg]; rfl
    show execRecruitStart t st s = _
    unfold execRecruitStart
    dsimp only
    rw [if_neg (by rw [hstart]; nofun), if_pos (by rw [hq, hready]; rfl), takeFg_here hfg]
    rfl
  have hplain0 : Plain (w.ctx l) := ⟨h.noHandler, by rw [h.regs]; rfl⟩
  have hplain1 := put_plain 1 (BitVec.ofNat 64 st.s1) hplain0
  have hplain2 := put_plain 2 (BitVec.ofNat 64 st.s2) hplain1
  obtain ⟨hlive, hnot, hkind, hpc, hregion, hpart⟩ := put_started st.dreg (BitVec.ofNat 64 st.cell)
    (put_started 2 (BitVec.ofNat 64 st.s2) (put_started 1 (BitVec.ofNat 64 st.s1) ⟨h.live, h.starting, h.kind, h.pc, h.region, h.part⟩))
  have hctx : (w.updCtx l f).ctx l = f (w.ctx l) := w.ctx_updCtx l f hwfg hpart
  refine ⟨_, hstep, ?_⟩
  rw [hctx]
  refine ⟨hlive, hnot, hkind, hpc, hregion, fun h1 h2 => ⟨?_, ?_⟩, fun n h1 h2 hd => ?_⟩
  · rw [sreg_put_other _ hplain2 h1.symm, sreg_put_other _ hplain1 (by decide), sreg_put_same _ hplain0 (by decide) (by decide)]
  · rw [sreg_put_other _ hplain2 h2.symm, sreg_put_same _ hplain1 (by decide) (by decide)]
  · rw [sreg_put_other _ hplain2 hd, sreg_put_other _ hplain1 h2, sreg_put_other _ hplain0 h1, Ctx.sreg, h.noHandler, h.regs]
    split <;> rfl

theorem recruitStart_waits {s : State} {t : Nat} {st : Start} (hstart : (s.ctx ⟨t, (s.region st.region).part⟩).starting = true)
    (h : s.quadAwake t = false ∨ s.fgReady ⟨t, (s.region st.region).part⟩ = false) :
    exec (.recruitStart t st) s = .next (((recruitWay s t st).wakeQuad t).schedIn 1 (.recruitStart t st)) := by
  show execRecruitStart t st s = _
  unfold execRecruitStart recruitWay
  dsimp only
  rw [if_neg (by rw [hstart]; nofun), if_neg (by rcases h with h | h <;> simp [h])]
  cases s.taken t (s.region st.region).part with
  | none => rfl
  | some x =>
    dsimp only
    by_cases hway : x.2 = 0 ∧ s.recLevel st.region ≠ 0 ∧ s.canSwap x.1 (s.region st.region).part [t] = true
    · rw [if_pos hway, if_pos (by simpa [and_assoc] using hway)]
      rfl
    · rw [if_neg hway, if_neg (by simpa [and_assoc] using hway)]
      rfl

/-- Settles O47: start records, ballast and task records are placed, pre-empt or wait, and a recruit starts. -/
theorem placingEvents : Obligations.PlacingEvents :=
  fun s r => ⟨fun _ => startRecord_cases, ballast_shut r, placeStart_marks s, fun _ _ _ _ => taskRecord_placed,
    fun _ _ => recruitStart_starts, fun _ _ => recruitStart_waits, fun _ _ h => if_pos (by rw [h]; rfl)⟩

end Sys2Proof.Machine

/-! ### Contexts are swapped out and come back (R87, R88, R458 to R461) -/

namespace Sys2Proof.Machine

open Claim

/-! #### What keeps the tick, memory, the partitions and the records -/

/-- The tick, memory, the partitions and the records of the dispenser are as they were. -/
structure Steady (s t : State) : Prop where
  mem : t.mem = s.mem
  tick : t.tick = s.tick
  parts : t.parts = s.parts
  recs : t.recs = s.recs

theorem Steady.refl (s : State) : Steady s s := ⟨rfl, rfl, rfl, rfl⟩

theorem Steady.trans {s t u : State} (h : Steady s t) (h' : Steady t u) : Steady s u :=
  ⟨h'.mem.trans h.mem, h'.tick.trans h.tick, h'.parts.trans h.parts, h'.recs.trans h.recs⟩

theorem Steady.part {s t : State} (h : Steady s t) (p : Nat) : t.part p = s.part p := by rw [State.part, h.parts, State.part]

theorem Steady.foldl {α : Type} {f : State → α → State} (h : ∀ s x, Steady s (f s x)) (xs : List α) (s : State) :
    Steady s (xs.foldl f s) :=
  List.foldlRecOn (motive := Steady s) xs f (Steady.refl s) fun _ hu _ _ => hu.trans (h _ _)

theorem updCtx_steady (s : State) (l : Loc) (f : Ctx → Ctx) : Steady s (s.updCtx l f) := by
  obtain ⟨cs, h⟩ := s.updCtx_eq l f
  rw [h]
  exact ⟨rfl, rfl, rfl, rfl⟩

theorem packet_steady (s : State) (p : Nat) (legs : List Leg) (ev : Ev) : Steady s (s.packet p legs ev) := by
  unfold State.packet
  split
  · exact ⟨rfl, rfl, rfl, rfl⟩
  · exact ⟨rfl, rfl, rfl, rfl⟩

theorem sendHome_steady (s : State) (q : HomeReq) : Steady s (s.sendHome q) := by
  unfold State.sendHome
  dsimp only
  split
  · exact ⟨rfl, rfl, rfl, rfl⟩
  · exact ⟨rfl, rfl, rfl, rfl⟩

theorem kick_steady (s : State) : Steady s s.kick := by
  obtain ⟨ag, h⟩ := kick_eq s
  rw [h]
  exact ⟨rfl, rfl, rfl, rfl⟩

theorem uiPoll_steady (s : State) (l : Loc) : Steady s (s.uiPoll l) := by
  rcases s.uiPoll_cases l with h | h | ⟨ev, ag, -, -, -, h⟩
  · rw [h]
    exact Steady.refl s
  · rw [h]
    exact ⟨rfl, rfl, rfl, rfl⟩
  · rw [h]
    have hset := updCtx_steady s l fun c => c.toHandler ev (c.now s.tick)
    exact ⟨hset.mem, hset.tick, hset.parts, hset.recs⟩

theorem publish_steady (s : State) (l : Loc) : Steady s (s.publish l) := by
  unfold State.publish
  dsimp only
  refine ((updCtx_steady _ _ _).trans (Steady.foldl (fun u n => ?_) _ _)).trans (Steady.foldl (fun u n => ?_) _ _)
  · unfold State.pushUpd
    split
    · exact (updCtx_steady _ _ _).trans (sendHome_steady _ _)
    · exact Steady.refl u
  · unfold State.pushWs
    split
    · exact (updCtx_steady _ _ _).trans (sendHome_steady _ _)
    · exact Steady.refl u

theorem yieldAll_steady (s : State) (p : Nat) : Steady s (s.yieldAll p) := by
  unfold State.yieldAll
  refine Steady.foldl (fun u l => ?_) _ _
  split
  · exact (updCtx_steady _ _ _).trans (uiPoll_steady _ _)
  · exact Steady.refl u

theorem claimBank_steady (s : State) (t p : Nat) : Steady s (s.claimBank t p) := by
  unfold State.claimBank
  split
  · exact Steady.refl s
  · dsimp only
    (repeat' split) <;> exact ⟨rfl, rfl, rfl, rfl⟩

theorem freezeClock_steady (s : State) (p : Nat) : Steady s (s.freezeClock p) := by
  have h : Steady s ((s.placesOf p).foldl (fun s l => s.updCtx l fun c => { c with frozen := some (c.now s.tick) }) s) :=
    Steady.foldl (fun _ _ => updCtx_steady _ _ _) _ _
  exact ⟨h.mem, h.tick, h.parts, h.recs⟩

/-! #### The order of a swap (R458) -/

/-- A swap of a running partition has been ordered on the present tick. -/
structure Swapping (s : State) (p inc : Nat) (t : State) : Prop where
  st : (t.part p).st = .swapping
  incoming : (t.part p).incoming = some inc
  at_ : (t.part p).swapAt = s.tick
  due : (s.tick + 160, .bankExchange p inc) ∈ t.agenda

theorem freezeEvents_st (s : State) (p : Nat) : ((s.freezeEvents p).part p).st = (s.part p).st := by
  unfold State.freezeEvents
  dsimp only
  rw [State.part_updPart_same]
  rfl

theorem orderSwap_swapping {s : State} {p : Nat} (inc : Nat) (hst : (s.part p).st = .active) : Swapping s p inc (s.orderSwap p inc) := by
  let u := (s.placesOf p).foldl (fun s l => s.publish l) s
  let v := (u.freezeClock p).updPart p fun q => { q with st := .swapping }
  let w := v.freezeEvents p
  have htick : w.tick = s.tick :=
    (freezeClock_steady u p).tick.trans (Steady.foldl (fun s l => publish_steady s l) (s.placesOf p) s).tick
  have hwst : (w.part p).st = .swapping := by
    rw [freezeEvents_st, State.part_updPart_same]
  have heq : s.orderSwap p inc = (w.updPart p fun q => { q with swapAt := w.tick, incoming := some inc }).schedIn 160
      (.bankExchange p inc) := by
    unfold State.orderSwap
    rw [hst]
    rfl
  have hpart : (s.orderSwap p inc).part p = { w.part p with swapAt := w.tick, incoming := some inc } := by
    rw [heq]
    exact State.part_updPart_same w p fun q => { q with swapAt := w.tick, incoming := some inc }
  refine ⟨by rw [hpart]; exact hwst, by rw [hpart], by rw [hpart]; exact htick, ?_⟩
  rw [heq, ← htick]
  exact State.mem_sched _ _ _ (Nat.le_add_right _ _)

theorem orderSwap_tick (s : State) (p inc : Nat) : (s.orderSwap p inc).tick = s.tick := by
  unfold State.orderSwap
  dsimp only
  split
  · exact (freezeClock_steady _ p).tick.trans (Steady.foldl (fun s l => publish_steady s l) (s.placesOf p) s).tick
  · rfl

theorem swapOut_tick (s : State) (p inc : Nat) : (s.swapOut p inc).tick = s.tick :=
  (orderSwap_tick _ p inc).trans (yieldAll_steady s p).tick

theorem clearWay_tick (s : State) (p lvl : Nat) (ts : List Nat) : (s.clearWay p lvl ts).tick = s.tick := by
  unfold State.clearWay
  split
  · split
    · exact List.foldlRecOn (motive := fun u : State => u.tick = s.tick) _ _ rfl fun u hu q _ => (swapOut_tick u q p).trans hu
    · rfl
  · rfl
  · rfl

/-! #### Records that wait and pre-empt (R87) -/

theorem preemptDelay_cases {s : State} {r : Nat} {d : DRec} (ps : List Nat) (b : Bool)
    (hfind : (s.toPlace.find? fun d => d.region == r && (d.kind == .start || d.kind == .resume)) = some d) :
    let ready := if d.kind = .resume then s.resumeReady d else s.startReady d
    (ready = .pre ps b → s.canPreempt d ps = true → exec (.preemptDelayExpiry r) s = .next (s.preempt d ps)) ∧
    (ready = .pre ps b → s.canPreempt d ps = false →
      exec (.preemptDelayExpiry r) s = .next (s.schedIn 1 (.preemptDelayExpiry r))) ∧
    (ready = .go → exec (.preemptDelayExpiry r) s = .next s.kick) ∧
    (ready = .wait → exec (.preemptDelayExpiry r) s = .next s) := by
  intro ready
  have hready : (if (d.kind == .resume) = true then s.resumeReady d else s.startReady d) = ready := by
    simp only [beq_iff_eq]
    rfl
  refine ⟨fun h hcan => ?_, fun h hcan => ?_, fun h => ?_, fun h => ?_⟩
  all_goals
    have h' := hready.trans h
    simp only [exec, execPreemptDelayExpiry, hfind, h']
  · exact if_pos hcan
  · exact if_neg (by rw [hcan]; nofun)
  · rfl
  · rfl

theorem preempt_cases {s : State} {d : DRec} {ps : List Nat} (p : Nat) (hcan : s.canPreempt d ps = true) :
    let room := ((s.roleOf d.region).map fun ro => s.codeRoom [] (s.region d.region) ro).getD false
    let ts := (s.region d.region).eff.tilesOf
    (d.kind = .resume → s.preempt d ps = (s.mark d).schedFree 1 (.reloadComplete d.part)) ∧
    (d.kind = .start → room = true → s.preempt d ps = s.placeStart d) ∧
    (d.kind = .start → room = false → s.preempt d ps =
      ps.foldl (fun s p => s.swapOut p d.part) (ts.foldl (fun s t => s.claimBank t d.part) s)) ∧
    (d.kind = .start → room = false → ps = [p] → (s.part p).st = .active →
      let t := s.preempt d ps
      (t.part p).st = .swapping ∧ (t.part p).incoming = some d.part ∧ (s.tick + 160, .bankExchange p d.part) ∈ t.agenda) := by
  intro room ts
  have hresume (hk : d.kind = .resume) : s.preempt d ps = (s.mark d).schedFree 1 (.reloadComplete d.part) := by
    rw [State.preempt, if_pos hcan, hk]
  have hstart (hk : d.kind = .start) : s.preempt d ps = if room = true then s.placeStart d else
      ps.foldl (fun s p => s.swapOut p d.part) (ts.foldl (fun s t => s.claimBank t d.part) s) := by
    rw [State.preempt, if_pos hcan, hk]
  have hno (hk : d.kind = .start) (hroom : room = false) : s.preempt d ps =
      ps.foldl (fun s p => s.swapOut p d.part) (ts.foldl (fun s t => s.claimBank t d.part) s) :=
    (hstart hk).trans (if_neg (by rw [hroom]; nofun))
  refine ⟨hresume, fun hk hroom => (hstart hk).trans (if_pos hroom), hno, fun hk hroom hps hst => ?_⟩
  intro t
  let u := ts.foldl (fun s t => s.claimBank t d.part) s
  have hu : Steady s (u.yieldAll p) := (Steady.foldl (fun _ _ => claimBank_steady _ _ _) ts s).trans (yieldAll_steady u p)
  have ht : t = (u.yieldAll p).orderSwap p d.part := by
    rw [show t = _ from hno hk hroom, hps]
    rfl
  obtain ⟨h1, h2, -, h4⟩ := orderSwap_swapping d.part (by rw [hu.part]; exact hst : ((u.yieldAll p).part p).st = .active)
  rw [ht]
  exact ⟨h1, h2, hu.tick ▸ h4⟩

/-! #### The exchange of the banks (R458 to R460) -/

theorem bankExchange_waits {s : State} {p q : Nat} (hne : p ≠ q) (hst : (s.part p).st = .swapping) (hd : s.drained p = false) :
    exec (.bankExchange p q) s = .next (s.schedIn 1 (.bankExchange p q)) := by
  show execBankExchange p q s = _
  unfold execBankExchange
  rw [if_neg (by simpa using hne), if_pos (by rw [hst, hd]; rfl)]
  rfl

/-- A context that is not swapped out is not taken back. -/
theorem swapIn_active {s : State} {p : Nat} (h : (s.part p).st = .active) : s.swapIn p = s := by
  unfold State.swapIn
  rw [h]
  rfl

theorem landAt_steady (s : State) (l : Loc) : Steady s (s.landAt l) := by
  unfold State.landAt
  exact updCtx_steady _ _ _

theorem exchange_steady (s : State) (l : Loc) : Steady s (if s.inFg l = true then
    s.setCore l.tile { s.core l.tile with fg := (s.core l.tile).bg, bg := (s.core l.tile).fg } else s) := by
  split
  · exact ⟨rfl, rfl, rfl, rfl⟩
  · exact Steady.refl s

theorem saveCells_part (s : State) (p q : Nat) (h : q ≠ p) : (s.saveCells p).part q = s.part q := by
  unfold State.saveCells
  exact State.part_updPart_other _ _ _ _ h

theorem saveCells_st (s : State) (p : Nat) : ((s.saveCells p).part p).st = (s.part p).st := by
  unfold State.saveCells
  dsimp only
  rw [State.part_updPart_same]
  rfl

theorem freezeEvents_other (s : State) {p q : Nat} (h : q ≠ p) : (s.freezeEvents p).part q = s.part q := by
  unfold State.freezeEvents
  exact State.part_updPart_other _ _ _ _ h

theorem bankExchange_swaps {s : State} {p q : Nat} (hne : p ≠ q) (hst : (s.part p).st = .swapping) (hd : s.drained p = true)
    (hq : (s.part q).st = .active) : ∃ t : State, exec (.bankExchange p q) s = .next t ∧ (t.part p).st = .swapped ∧ t.mem = s.mem ∧
      ∃ d ∈ t.recs, d.kind = .resume ∧ d.part = p := by
  show ∃ t : State, execBankExchange p q s = .next t ∧ _
  unfold execBankExchange
  rw [if_neg (by simpa using hne), if_neg (by rw [hst, hd]; nofun)]
  extract_lets ls s1 s2 s3 s4 s5 s6
  have h1 : Steady s s1 := Steady.foldl landAt_steady ls s
  have h2 : Steady s s2 := h1.trans (Steady.foldl exchange_steady ls s1)
  have h3 : (s3.part p).st = .swapped ∧ s3.part q = s.part q := by
    refine ⟨?_, ?_⟩
    · rw [freezeEvents_st, State.part_updPart_same, h2.part, hst]
      rfl
    · rw [freezeEvents_other _ hne.symm, State.part_updPart_other _ _ _ _ hne.symm, h2.part]
  have h4 : (s4.part p).st = .swapped ∧ s4.part q = s.part q :=
    ⟨(saveCells_st s3 p).trans h3.1, (saveCells_part s3 p q hne.symm).trans h3.2⟩
  have h5 : s5 = s4.resumeRec p := if_pos (by rw [h4.1]; rfl)
  have h6 : Steady s5 s6 := Steady.foldl (fun _ _ => packet_steady _ _ _ _) ls s5
  have hin : s6.swapIn q = s6 := swapIn_active (by rw [h6.part, h5]; exact h4.2.symm ▸ hq)
  have hrec : ∃ d ∈ s5.recs, d.kind = .resume ∧ d.part = p := by
    rw [h5]
    exact ⟨_, List.mem_append_right _ (List.mem_singleton_self _), rfl, rfl⟩
  rw [hin]
  have hkick := h6.trans (kick_steady s6)
  refine ⟨_, rfl, ?_, ?_, ?_⟩
  · rw [hkick.part, h5]
    exact h4.1
  · rw [hkick.mem, h5]
    exact h2.mem
  · rw [hkick.recs]
    exact hrec

theorem bankExchange_returns (s : State) (p : Nat) :
    let u := s.swapIn p
    exec (.bankExchange p p) s = .next (if (u.part p).st = .swapped then
       (u.clearWay p (u.recLevel (u.part p).root) (u.strandTiles p)).schedIn 1 (.bankExchange p p) else u) := by
  intro u
  show execBankExchange p p s = _
  unfold execBankExchange
  rw [if_pos (by simp)]
  by_cases h : (u.part p).st = .swapped
  · rw [if_pos h]
    exact if_pos (by simpa using h)
  · rw [if_neg h]
    exact if_neg (by simpa using h)

theorem spillComplete_spills {s : State} {p t : Nat} (hbg : (s.core t).bg.part = some p) (hst : (s.part p).st = .swapped)
    (hspill : (s.core t).spill = none) :
    exec (.spillComplete t) s = .next (s.setCore t { s.core t with bg := {}, spill := some (s.core t).bg }).kick := by
  show execSpillComplete t s = _
  unfold execSpillComplete
  simp only [hbg]
  exact if_pos (by rw [hst, hspill]; rfl)

/-! #### The resume record and the reload (R461) -/

theorem resumeRecord_cases {s : State} {p : Nat} {d : DRec}
    (hfind : (s.toPlace.find? fun d => d.kind == RKind.resume && d.part == p) = some d) :
    (s.resumeReady d = .go → exec (.resumeRecordPlace p) s = .next
      (((s.placesOf p).foldl (fun s l => s.wakeQuad l.tile) (s.mark d)).schedFree 1 (.reloadComplete p))) ∧
    (s.resumeReady d = .wait → exec (.resumeRecordPlace p) s = .next s) ∧
    (∀ ps, s.resumeReady d = .pre ps true → exec (.resumeRecordPlace p) s = .next (s.preempt d ps)) ∧
    (∀ ps, s.resumeReady d = .pre ps false → (∀ e ∈ s.agenda, e.2 ≠ .preemptDelayExpiry d.region) →
      exec (.resumeRecordPlace p) s = .next (s.schedIn
        ((s.dv.pdelay * 504 + tickUnits s.pnow - 1) / tickUnits s.pnow) (.preemptDelayExpiry d.region))) := by
  refine ⟨fun h => ?_, fun h => ?_, fun ps h => ?_, fun ps h hno => ?_⟩
  all_goals simp only [exec, execResumeRecordPlace, hfind, h]
  · rfl
  · rfl
  · rfl
  · exact if_neg (by rw [any_event_false hno]; nofun)

/-- A spilled context of partition `p` finds a bank, and room for its code, on a tile. -/
def reloadRoom (s : State) (p : Nat) (l : Loc) : Prop := s.bankOk l.tile p = true ∧ (s.reloadCore p (giveWay s p) l.tile).isSome = true

theorem reload_noRoom {s : State} {p : Nat} (h : ∃ l ∈ s.placesOf p, (s.spilled l).isSome = true ∧ ¬ reloadRoom s p l) :
    exec (.reloadComplete p) s = .next (s.schedIn 1 (.reloadComplete p)) := by
  obtain ⟨l, hl, hspilled, hno⟩ := h
  show execReloadComplete p s = _
  unfold execReloadComplete
  refine if_pos ?_
  rw [Bool.not_eq_true', List.all_eq_false]
  exact ⟨l, hl, fun hall => hno (Bool.and_eq_true_iff.mp (of_decide_eq_true hall hspilled))⟩

theorem reload_asleep {s : State} {p : Nat} (hroom : ∀ l ∈ s.placesOf p, (s.spilled l).isSome = true → reloadRoom s p l)
    (h : ∃ l ∈ s.placesOf p, s.quadAwake l.tile = false) : exec (.reloadComplete p) s = .next
      (((s.placesOf p).foldl (fun s l => s.wakeQuad l.tile) s).schedIn (s.ticksOf 250) (.reloadComplete p)) := by
  obtain ⟨l, hl, hq⟩ := h
  show execReloadComplete p s = _
  unfold execReloadComplete
  refine (if_neg ?_).trans (if_pos ?_)
  · rw [Bool.not_eq_true', Bool.not_eq_false, List.all_eq_true]
    exact fun l hl => decide_eq_true fun hspilled => Bool.and_eq_true_iff.mpr (hroom l hl hspilled)
  · rw [Bool.not_eq_true', List.all_eq_false]
    exact ⟨l, hl, by rw [hq]; nofun⟩

/-- A spilled context is put back into a bank of its tile. -/
theorem reloadBank_tick (s : State) (l : Loc) (k : Core) (f : Ctx → Ctx) : (match s.spilled l with
    | some c => if k.fg.part.isNone = true then s.setCore l.tile { k with fg := f c, spill := none }
      else s.setCore l.tile { k with bg := f c, spill := none }
    | none => s).tick = s.tick := by
  split
  · split <;> rfl
  · rfl

theorem reload_goes {s : State} {p : Nat}
    (h : ∀ l ∈ s.placesOf p, ((s.spilled l).isSome = true → reloadRoom s p l) ∧ s.quadAwake l.tile = true) :
    ∃ t : State, exec (.reloadComplete p) s = .next t ∧ (s.tick + 160, .bankExchange p p) ∈ t.agenda := by
  show ∃ t : State, execReloadComplete p s = .next t ∧ _
  unfold execReloadComplete
  extract_lets ls ts lvl others s1 s2
  refine ⟨_, (if_neg ?_).trans (if_neg ?_), ?_⟩
  · rw [Bool.not_eq_true', Bool.not_eq_false, List.all_eq_true]
    exact fun l hl => decide_eq_true fun hspilled => Bool.and_eq_true_iff.mpr ((h l hl).1 hspilled)
  · rw [Bool.not_eq_true', Bool.not_eq_false, List.all_eq_true]
    exact fun l hl => (h l hl).2
  · have h1 : s1.tick = s.tick := List.foldlRecOn (motive := fun u : State => u.tick = s.tick) _ _ rfl fun u hu l _ =>
      (reloadBank_tick u l _ _).trans hu
    have h2 : s2.tick = s.tick := (clearWay_tick s1 p lvl ts).trans h1
    rw [← h2]
    exact State.mem_sched _ _ _ (Nat.le_add_right _ _)

/-- Settles O48: a record waits and pre-empts, a context is swapped out and leaves a resume record, and it is reloaded and goes on. -/
theorem swapEvents : Obligations.SwapEvents :=
  fun s p => ⟨fun _ _ ps b => preemptDelay_cases ps b, fun _ _ => preempt_cases p, fun _ _ h => if_neg (by rw [h]; nofun), fun _ => rfl,
    fun q h => ⟨(orderSwap_swapping q h).st, (orderSwap_swapping q h).incoming, (orderSwap_swapping q h).at_, (orderSwap_swapping q h).due⟩,
    fun _ => bankExchange_waits, fun _ => bankExchange_swaps, bankExchange_returns s p, fun _ => spillComplete_spills,
    fun _ => resumeRecord_cases, reload_noRoom, reload_asleep, reload_goes⟩

end Sys2Proof.Machine

/-! ### A region's image is loaded and the region starts (R62 to R64) -/

namespace Sys2Proof.Machine

open Claim

/-! #### The packets of the chunks (R63) -/

/-- What only sends packets changes the events to come and the free delays that have been taken. -/
structure OnlySends (s t : State) : Prop where
  tick : t.tick = s.tick
  mem : t.mem = s.mem
  cores : t.cores = s.cores
  hv : t.hv = s.hv
  bg : t.bg = s.bg
  events : s.agenda ⊆ t.agenda

theorem OnlySends.refl (s : State) : OnlySends s s := ⟨rfl, rfl, rfl, rfl, rfl, fun _ h => h⟩

theorem OnlySends.trans {s t u : State} (h : OnlySends s t) (h' : OnlySends t u) : OnlySends s u :=
  ⟨h'.tick.trans h.tick, h'.mem.trans h.mem, h'.cores.trans h.cores, h'.hv.trans h.hv, h'.bg.trans h.bg, fun _ hx => h'.events (h.events hx)⟩

theorem OnlySends.sched (s : State) (n : Nat) (e : Ev) : OnlySends s (s.sched n e) :=
  ⟨rfl, rfl, rfl, rfl, rfl, fun _ h => State.mem_sched_of_mem s n e _ h⟩

theorem OnlySends.tookDelay {s t : State} (h : OnlySends s t) : OnlySends s t.tookDelay :=
  ⟨h.tick, h.mem, h.cores, h.hv, h.bg, h.events⟩

theorem OnlySends.legRoute {s t : State} (h : OnlySends s t) (g : Leg) : t.legRoute g = s.legRoute g :=
  SameNet.legRoute ⟨fun n => by rw [State.core, h.cores, State.core], h.hv, h.bg⟩ g

theorem chunkTo_sends (s : State) (r : Nat) (src : Option Nat) (t chunk : Nat) : OnlySends s (s.chunkTo r src t chunk) := by
  unfold State.chunkTo
  dsimp only
  split
  · exact OnlySends.sched _ _ _
  · split
    · exact OnlySends.sched _ _ _
    · exact (OnlySends.sched _ _ _).tookDelay

/-- A chunk takes a tick at least to pass. -/
theorem pass_pos (r : Route) : 0 < 4 / r.rate := by
  unfold Route.rate
  split <;> decide

theorem chunkTo_arrives {s : State} (r : Nat) {src : Option Nat} {t : Nat} (chunk : Nat)
    (h : (s.legRoute { order := 0, src := src, dst := some t, bytes := 128 }).bad = none) :
    ∃ n, s.tick < n ∧ (n, .imageChunkArrival r t ⟨chunk, false⟩) ∈ (s.chunkTo r src t chunk).agenda := by
  have hpass := pass_pos (s.legRoute { order := 0, src := src, dst := some t, bytes := 128 })
  unfold State.chunkTo
  dsimp only
  rw [h]
  dsimp only
  split
  · refine ⟨_, ?_, State.mem_sched _ _ _ ?_⟩ <;> omega
  · refine ⟨_, ?_, State.mem_sched _ _ _ ?_⟩ <;> omega

/-- A tile forwards a chunk. -/
def forwardChunk (r tile chunk : Nat) (s : State) (d : Dir) : State := s.chunkTo r (some tile) (neighbour tile d) chunk

theorem forwards_sends (r tile chunk : Nat) (ds : List Dir) (s : State) : OnlySends s (ds.foldl (forwardChunk r tile chunk) s) :=
  List.foldlRecOn (motive := OnlySends s) ds _ (OnlySends.refl s) fun _ hu _ _ => hu.trans (chunkTo_sends _ _ _ _ _)

theorem forwards_arrive (r tile chunk : Nat) {d : Dir} (ds : List Dir) : ∀ s : State, d ∈ ds →
    (s.legRoute { order := 0, src := some tile, dst := some (neighbour tile d), bytes := 128 }).bad = none →
    ∃ n, s.tick < n ∧ (n, .imageChunkArrival r (neighbour tile d) ⟨chunk, false⟩) ∈ (ds.foldl (forwardChunk r tile chunk) s).agenda := by
  induction ds with
  | nil => exact fun s h => absurd h List.not_mem_nil
  | cons a ds ih =>
    intro s hd hgood
    have hsend : OnlySends s (forwardChunk r tile chunk s a) := chunkTo_sends _ _ _ _ _
    rcases List.mem_cons.mp hd with rfl | hd
    · obtain ⟨n, hn, hag⟩ := chunkTo_arrives r chunk hgood
      exact ⟨n, hn, (forwards_sends r tile chunk ds _).events hag⟩
    · obtain ⟨n, hn, hag⟩ := ih (forwardChunk r tile chunk s a) hd (by rw [hsend.legRoute]; exact hgood)
      exact ⟨n, hsend.tick ▸ hn, hag⟩

/-! #### What a strand's start leaves of the dispenser -/

theorem devWrite_recs (s : State) (bs : List (Nat × Byte)) : (s.devWrite bs).recs = s.recs := by
  unfold State.devWrite
  split
  · rfl
  · split <;> rfl

theorem bindSlot_recs (s : State) (l : Loc) (n t : Nat) : (s.bindSlot l n t).recs = s.recs := by
  unfold State.bindSlot
  dsimp only
  split
  · exact updCtx_recs _ _ _
  · exact updCtx_recs _ _ _

theorem startStrand_recs (s : State) (l : Loc) (r pc : Nat) (kind : PKind) (first : Nat) :
    (s.startStrand l r pc kind first).recs = s.recs := by
  unfold State.startStrand
  extract_lets g words base s1 s2 s3
  have h1 : s1.recs = s.recs := updCtx_recs _ _ _
  have h2 : s2.recs = s1.recs := foldl_recs (fun u x => (bindSlot_recs _ _ _ _).trans (updCtx_recs _ _ _)) _ _
  by_cases hstarted : g.started = true
  · rw [if_pos hstarted]
    exact h2.trans h1
  · rw [if_neg hstarted]
    exact (devWrite_recs _ _).trans ((devWrite_recs _ _).trans (h2.trans h1))

theorem startTimer_recs (s : State) (l : Loc) (pc : Nat) : (s.startTimer l pc).recs = s.recs := by
  unfold State.startTimer
  dsimp only
  split
  · split
    · split
      · rfl
      · exact updCtx_recs _ _ _
    · rfl
  · rfl

/-! The start leaves the region's record -/

theorem regionStart_recs {s : State} {r : Nat} {ro : Role} (hro : s.roleOf r = some ro) :
    (s.regionStart r).recs = s.recs.filter fun d => !(d.kind == RKind.start && d.region == r) := by
  unfold State.regionStart
  rw [hro]
  dsimp only
  show (List.foldl _ _ _ : State).recs = _
  rw [foldl_recs]
  · split <;> rfl
  · intro u t
    rw [startTimer_recs, startStrand_recs, takeFg_recs]

theorem regionStart_leaves {s : State} {r : Nat} {ro : Role} (hro : s.roleOf r = some ro) :
    ∀ d ∈ (s.regionStart r).recs, d ∈ s.recs ∧ ¬ (d.kind = .start ∧ d.region = r) := by
  intro d hd
  rw [regionStart_recs hro] at hd
  obtain ⟨hmem, hno⟩ := List.mem_filter.mp hd
  exact ⟨hmem, fun h => by simp [h.1, h.2] at hno⟩

/-! #### A region that is being loaded -/

/-- What an uncorrectable error of a rail changes is the rail's record alone. -/
theorem railError_eq (s : State) (n : Nat) : ∃ gov fresh, s.railError n = { s with
    gov := gov
    fresh := fresh } := by
  have hbelow : ∃ fresh, (s.railBelow n).1 = { s with fresh := fresh } := by
    unfold State.railBelow
    split
    · exact ⟨_, rfl⟩
    · exact ⟨s.fresh, rfl⟩
  obtain ⟨fresh, h⟩ := hbelow
  unfold State.railError
  dsimp only
  rw [h]
  split
  · exact ⟨s.gov, fresh, rfl⟩
  · exact ⟨_, fresh, rfl⟩

theorem railError_cores (s : State) (n : Nat) : (s.railError n).cores = s.cores := by
  obtain ⟨_, _, h⟩ := railError_eq s n
  rw [h]

theorem railError_parts (s : State) (n : Nat) : (s.railError n).parts = s.parts := by
  obtain ⟨_, _, h⟩ := railError_eq s n
  rw [h]

theorem railError_tick (s : State) (n : Nat) : (s.railError n).tick = s.tick := by
  obtain ⟨_, _, h⟩ := railError_eq s n
  rw [h]

section Loading

variable {s : State} {r : Nat} {ro : Role} (hro : s.roleOf r = some ro) (halive : (s.region r).alive = true)
  (hload : (s.region r).loading ≠ 0)
include halive hload

theorem loading_on : ¬ (!(s.region r).alive || (s.region r).loading == 0) = true := by
  rw [halive]
  simpa using hload

include hro

theorem chunkSend_cases (seed chunk : Nat) : exec (.imageChunkSend r seed chunk) s =
    if (chunk == 0 && !(s.region r).eff.tilesOf.all (s.boxTileFree r)) = true then
      .next (((s.region r).eff.tilesOf.foldl (fun u t => u.claimBank t (s.region r).part) s).schedIn 1 (.imageChunkSend r seed chunk))
    else if (!(s.region r).eff.tilesOf.all s.quadAwake) = true then
      .next (((s.region r).eff.tilesOf.foldl State.wakeQuad s).schedIn (s.ticksOf 250) (.imageChunkSend r seed chunk))
    else if chunk + 1 < ro.chunks then
      .next ((s.chunkTo r none seed chunk).schedFree 1 (.imageChunkSend r seed (chunk + 1)))
    else .next (s.chunkTo r none seed chunk) := by
  show execImageChunkSend r seed chunk s = _
  unfold execImageChunkSend
  rw [hro]
  exact if_neg (loading_on halive hload)

theorem chunkSend_waits (seed : Nat) (h : (s.region r).eff.tilesOf.all (s.boxTileFree r) = false) :
    exec (.imageChunkSend r seed 0) s = .next
      (((s.region r).eff.tilesOf.foldl (fun u t => u.claimBank t (s.region r).part) s).schedIn 1 (.imageChunkSend r seed 0)) :=
  (chunkSend_cases hro halive hload seed 0).trans (if_pos (by rw [h]; rfl))

theorem chunkSend_asleep (seed chunk : Nat) (hfree : chunk ≠ 0 ∨ (s.region r).eff.tilesOf.all (s.boxTileFree r) = true)
    (h : (s.region r).eff.tilesOf.all s.quadAwake = false) : exec (.imageChunkSend r seed chunk) s = .next
      (((s.region r).eff.tilesOf.foldl State.wakeQuad s).schedIn (s.ticksOf 250) (.imageChunkSend r seed chunk)) :=
  (chunkSend_cases hro halive hload seed chunk).trans ((if_neg (by rcases hfree with hc | hc <;> simp [hc])).trans
    (if_pos (by rw [h]; rfl)))

theorem chunkSend_sends (seed chunk : Nat) (hfree : chunk ≠ 0 ∨ (s.region r).eff.tilesOf.all (s.boxTileFree r) = true)
    (h : (s.region r).eff.tilesOf.all s.quadAwake = true)
    (hgood : (s.legRoute { order := 0, src := none, dst := some seed, bytes := 128 }).bad = none) :
    ∃ t : State, exec (.imageChunkSend r seed chunk) s = .next t ∧ t.mem = s.mem ∧ t.cores = s.cores ∧
      (∃ n, s.tick < n ∧ (n, .imageChunkArrival r seed ⟨chunk, false⟩) ∈ t.agenda) ∧
      (chunk + 1 < ro.chunks → ∃ n, s.tick < n ∧ (n, .imageChunkSend r seed (chunk + 1)) ∈ t.agenda) := by
  have hsend := chunkTo_sends s r none seed chunk
  obtain ⟨n, hn, hag⟩ := chunkTo_arrives r chunk hgood
  have hexec := (chunkSend_cases hro halive hload seed chunk).trans ((if_neg (by rcases hfree with hc | hc <;> simp [hc])).trans
    (if_neg (by rw [h]; nofun)))
  by_cases hlast : chunk + 1 < ro.chunks
  · obtain ⟨w, hw, hnext⟩ := State.mem_schedFree (s.chunkTo r none seed chunk) 1 (.imageChunkSend r seed (chunk + 1))
    rw [hsend.tick] at hw
    exact ⟨_, hexec.trans (if_pos hlast), hsend.mem, hsend.cores, ⟨n, hn, State.mem_sched_of_mem _ _ _ _ hag⟩,
      fun _ => ⟨w, hw, hnext⟩⟩
  · exact ⟨_, hexec.trans (if_neg hlast), hsend.mem, hsend.cores, ⟨n, hn, hag⟩, fun h => absurd h hlast⟩

/-! #### Chunks arrive (R64) -/

theorem chunkArrival_good (tile chunk : Nat) : exec (.imageChunkArrival r tile ⟨chunk, false⟩) s =
    let u := (ro.forwards (s.region r).eff tile).foldl (forwardChunk r tile chunk) s
    if (chunk + 1 == ro.chunks) = true then .next ((u.applyImage r tile).packet (s.region r).part
      [{ order := 0, src := some tile, dst := none }] (.loadCompleteReport r tile))
    else .next u := by
  simp only [exec, execImageChunkArrival, hro, if_neg (loading_on halive hload)]
  rfl

theorem chunkArrival_forwards (tile chunk : Nat) (h : chunk + 1 < ro.chunks) :
    ∃ t : State, exec (.imageChunkArrival r tile ⟨chunk, false⟩) s = .next t ∧ t.cores = s.cores ∧ t.mem = s.mem ∧
      ∀ d ∈ ro.forwards (s.region r).eff tile,
        (s.legRoute { order := 0, src := some tile, dst := some (neighbour tile d), bytes := 128 }).bad = none →
        ∃ n, s.tick < n ∧ (n, .imageChunkArrival r (neighbour tile d) ⟨chunk, false⟩) ∈ t.agenda := by
  have hsend := forwards_sends r tile chunk (ro.forwards (s.region r).eff tile) s
  exact ⟨_, (chunkArrival_good hro halive hload tile chunk).trans (if_neg (by simpa using Nat.ne_of_lt h)), hsend.cores, hsend.mem,
    fun d hd hgood => forwards_arrive r tile chunk _ s hd hgood⟩

theorem chunkArrival_last (tile chunk : Nat) (h : chunk + 1 = ro.chunks) (hno : ro.forwards (s.region r).eff tile = []) :
    exec (.imageChunkArrival r tile ⟨chunk, false⟩) s = .next ((s.applyImage r tile).packet (s.region r).part
      [{ order := 0, src := some tile, dst := none }] (.loadCompleteReport r tile)) := by
  refine (chunkArrival_good hro halive hload tile chunk).trans ((if_pos (by simpa using h)).trans ?_)
  rw [hno]
  rfl

/-- A link error halts the context, and the chunk comes again after the halt. -/
theorem chunkArrival_error (tile chunk : Nat) (hrun : runs s ⟨tile, (s.region r).part⟩) :
    ∃ t : State, exec (.imageChunkArrival r tile ⟨chunk, true⟩) s = .next t ∧ trapped s t ⟨tile, (s.region r).part⟩ 4 0x13 ∧
      (t.region r).chunkErr = true ∧ ∃ n, s.tick < n ∧ (n, .imageChunkArrival r tile ⟨chunk, false⟩) ∈ t.agenda := by
  let l : Loc := ⟨tile, (s.region r).part⟩
  let e := s.railError 3
  let u := e.updRegion r fun g => { g with chunkErr := true }
  let v := u.trapEngine l 4 cUncorrectable 0 0 0
  have hexec : exec (.imageChunkArrival r tile ⟨chunk, true⟩) s =
      .next (v.sched ((v.part l.part).haltAt + 1) (.imageChunkArrival r tile ⟨chunk, false⟩)) := by
    simp only [exec, execImageChunkArrival, hro, if_neg (loading_on halive hload)]
    rfl
  have hfg : u.inFg l = s.inFg l := by
    rw [State.inFg, State.core, show u.cores = s.cores from railError_cores s 3]
    rfl
  have hctx : u.ctx l = s.ctx l := State.ctx_congr s u l (railError_cores s 3)
  have hpart : (u.part l.part).st = (s.part l.part).st := by
    rw [State.part, show u.parts = s.parts from railError_parts s 3]
    rfl
  have htick : u.tick = s.tick := railError_tick s 3
  obtain ⟨h1, h2, h3⟩ := hrun
  have hrun' : runs u l := ⟨hfg.trans h1, hctx ▸ h2, hpart.trans h3⟩
  obtain ⟨-, hvtick, -, hregions, -, hat, -⟩ := u.trapEngine_active l 4 cUncorrectable 0 0 0 hrun'.1 hrun'.2.1 hrun'.2.2
  have htrap : trapped s v l 4 0x13 := by
    obtain ⟨x, hstops, hkind, hcode, hprec, htile, hst, hat, hag⟩ := (trapEngine_trapped (kind := 4) (code := cUncorrectable)
      (pc := 0) (detail := 0) (xfer := 0) hrun').1
    rw [hctx] at hstops
    rw [htick] at hat hag
    exact ⟨x, hstops, hkind, hcode, hprec, htile, hst, hat, hag⟩
  refine ⟨_, hexec, trapped_more (MoreEvents.sched _ _ _) htrap, ?_, (v.part l.part).haltAt + 1, ?_, State.mem_sched _ _ _ ?_⟩
  · have hregion : v.region r = { e.region r with chunkErr := true } := by
      rw [State.region, show v.regions = u.regions from hregions]
      exact State.region_updRegion_same e r fun g => { g with chunkErr := true }
    exact congrArg Region.chunkErr hregion
  · have : (v.part l.part).haltAt = u.tick + 24 := hat
    omega
  · have : (v.part l.part).haltAt = u.tick + 24 := hat
    have : v.tick = u.tick := hvtick
    omega

/-! #### Tiles report (R64) -/

omit hro in
theorem loadReport_cases (tile : Nat) (hnew : tile ∉ (s.region r).loaded) :
    let g := s.region r
    let u := s.updRegion r fun g => { g with loaded := tile :: g.loaded }
    let n := g.eff.ex * g.eff.ey * g.eff.ez
    let inHand := g.eff.tilesOf.all u.quadAwake = true ∧ (g.eff.startTiles.all fun t => u.fgReady ⟨t, g.part⟩) = true
    (g.loaded.length + 1 < n → exec (.loadCompleteReport r tile) s = .next u) ∧
    (n ≤ g.loaded.length + 1 → inHand → exec (.loadCompleteReport r tile) s = .next (u.regionStart r)) ∧
    (n ≤ g.loaded.length + 1 → ¬ inHand →
      exec (.loadCompleteReport r tile) s = .next
        ((u.clearWay g.part (u.recLevel r) g.eff.startTiles).schedIn 1 (.loadCompleteReport r tile))) := by
  intro g u n inHand
  have hu : (s.updRegion r fun g => { g with loaded := if g.loaded.contains tile then g.loaded else tile :: g.loaded }) = u := by
    have hl : (if (s.region r).loaded.contains tile = true then (s.region r).loaded else tile :: (s.region r).loaded) =
        tile :: (s.region r).loaded := if_neg (by simpa using hnew)
    exact congrArg (fun ls => ({ s with regions := Tbl.put s.regions r { s.region r with loaded := ls } } : State)) hl
  have hexec : exec (.loadCompleteReport r tile) s = if (u.region r).loaded.length < n then .next u
      else if (g.eff.tilesOf.all u.quadAwake && g.eff.startTiles.all fun t => u.fgReady ⟨t, g.part⟩) = true then .next (u.regionStart r)
      else .next ((u.clearWay g.part (u.recLevel r) g.eff.startTiles).schedIn 1 (.loadCompleteReport r tile)) := by
    show execLoadCompleteReport r tile s = _
    unfold execLoadCompleteReport
    refine (if_neg (loading_on halive hload)).trans ?_
    rw [hu]
    rfl
  have hlen : (u.region r).loaded.length = g.loaded.length + 1 := by
    rw [show u.region r = _ from State.region_updRegion_same s r fun g => { g with loaded := tile :: g.loaded }]
    rfl
  rw [hlen] at hexec
  refine ⟨fun h => hexec.trans (if_pos h), fun h hin => hexec.trans ((if_neg (by omega)).trans (if_pos (Bool.and_eq_true_iff.mpr hin))),
    fun h hnot => hexec.trans ((if_neg (by omega)).trans (if_neg (mt Bool.and_eq_true_iff.mp hnot)))⟩

end Loading

/-- Settles O49: chunks are sent, forwarded and reported, and the region starts. -/
theorem loadingEvents : Obligations.LoadingEvents :=
  fun _ _ _ hro halive hload => ⟨chunkSend_waits hro halive hload, chunkSend_asleep hro halive hload, chunkSend_sends hro halive hload,
    chunkArrival_forwards hro halive hload, chunkArrival_last hro halive hload, chunkArrival_error hro halive hload,
    regionStart_leaves hro, loadReport_cases halive hload⟩

end Sys2Proof.Machine

/-! ### Launch queues: polls, entries and completions (R69 to R77) -/

namespace Sys2Proof.Machine

open Claim

/-! #### Polls (R72) -/

theorem poll_off {s : State} {q : Nat} (h : s.polls q = false) :
    exec (.launchQueuePoll q) s = .next (s.updQp q fun x => { x with run := false, ready := false }) :=
  if_pos (by rw [h]; rfl)

theorem poll_reads {s : State} {q : Nat} (h : s.polls q = true) :
    let x := s.qp q
    let n := ringSize x.lsize
    let v := seqWord s q
    let last := BitVec.ofNat 64 (x.next + 2 ^ 64 - 1)
    exec (.launchQueuePoll q) s = .next
      (if v = x.next then ((polled s q).updQp q fun x => { x with ready := true }).schedFree 0 (.consumeEntry q)
       else if v = 0 ∨ v + n = x.next then (polled s q).schedIn (s.ticksOf x.pollNs) (.launchQueuePoll q)
       else if x.next < v ∧ (v - x.next) % n = 0 then
         ((polled s q).updQp q fun x => { x with ovr := true, run := false }).completion q 6 0 0 0 last s.tmNow
       else ((polled s q).updQp q fun x => { x with crpt := true, run := false }).completion q 7 0 0 0 last s.tmNow) := by
  intro x n v last
  show execLaunchQueuePoll q s = _
  unfold execLaunchQueuePoll
  refine (if_neg (by rw [h]; nofun)).trans ?_
  change (if v = x.next then _ else if v = 0 ∨ v + n = x.next then _ else if x.next < v ∧ (v - x.next) % n = 0 then _ else _) = _
  by_cases hready : v = x.next
  · rw [if_pos hready, if_pos hready]
    rfl
  · rw [if_neg hready, if_neg hready]
    by_cases hempty : v = 0 ∨ v + n = x.next
    · rw [if_pos hempty, if_pos hempty]
      rfl
    · rw [if_neg hempty, if_neg hempty]
      by_cases hover : x.next < v ∧ (v - x.next) % n = 0
      · rw [if_pos hover, if_pos hover]
        rfl
      · rw [if_neg hover, if_neg hover]
        rfl

/-! #### Entries (R73, R74) -/

section Entries

variable {s : State} {q : Nat} (hready : (s.qp q).ready = true) (hpolls : s.polls q = true)
include hready hpolls

theorem consume_on : ¬ (!(s.qp q).ready || !s.polls q) = true := by
  rw [hready, hpolls]
  nofun

theorem consume_waits (h : ringSize (s.qp q).clsize < ((s.qp q).tail - (s.qp q).head) + (s.qp q).owed + 2) :
    exec (.consumeEntry q) s = .next (s.schedIn 1 (.consumeEntry q)) := by
  show execConsumeEntry q s = _
  unfold execConsumeEntry
  exact (if_neg (consume_on hready hpolls)).trans (if_pos (by rw [Bool.or_eq_true]; exact .inl (decide_eq_true h)))

theorem consume_acts (h : ((s.qp q).tail - (s.qp q).head) + (s.qp q).owed + 2 ≤ ringSize (s.qp q).clsize) (hroom : s.recs.length < 65536) :
    let w := entryWord s q
    let cookie := BitVec.ofNat 64 (w 1)
    exec (.consumeEntry q) s = .next (State.schedIn
      (if 2 ^ 48 ≤ w 0 ∨ w 0 % 256 ≠ 0 ∨ 1 < w 2 ∨ w 3 ≠ 0 ∨ w 4 ≠ 0 ∨ w 5 ≠ 0 ∨ w 6 ≠ 0 then
         (consumed s q).postOwed q 5 0 0 0 cookie s.tmNow
       else if w 2 = 0 then (consumed s q).sched s.tick (.nopEntry q cookie)
       else (consumed s q).sched s.tick (.launch q (w 0) cookie false)) 1 (.launchQueuePoll q)) := by
  intro w cookie
  have hgo : ¬ (decide (ringSize (s.qp q).clsize < ((s.qp q).tail - (s.qp q).head) + (s.qp q).owed + 2) ||
      decide (65536 ≤ s.recs.length)) = true := by
    rw [Bool.or_eq_true, decide_eq_true_iff, decide_eq_true_iff]
    omega
  have hbad : (decide (2 ^ 48 ≤ w 0) || w 0 % 256 != 0 || decide (1 < w 2) || [3, 4, 5, 6].any fun i => w i != 0) = true ↔
      (2 ^ 48 ≤ w 0 ∨ w 0 % 256 ≠ 0 ∨ 1 < w 2 ∨ w 3 ≠ 0 ∨ w 4 ≠ 0 ∨ w 5 ≠ 0 ∨ w 6 ≠ 0) := by
    simp only [List.any_cons, List.any_nil, Bool.or_eq_true, bne_iff_ne, decide_eq_true_iff, Bool.or_false, or_assoc]
  show execConsumeEntry q s = _
  unfold execConsumeEntry
  refine (if_neg (consume_on hready hpolls)).trans ((if_neg hgo).trans ?_)
  change ok (State.schedIn (if (decide (2 ^ 48 ≤ w 0) || w 0 % 256 != 0 || decide (1 < w 2) || [3, 4, 5, 6].any fun i => w i != 0) = true
    then _ else if w 2 = 0 then _ else _) 1 (.launchQueuePoll q)) = _
  refine congrArg (fun u : State => Host.Outcome.next (u.schedIn 1 (.launchQueuePoll q))) ?_
  by_cases h1 : 2 ^ 48 ≤ w 0 ∨ w 0 % 256 ≠ 0 ∨ 1 < w 2 ∨ w 3 ≠ 0 ∨ w 4 ≠ 0 ∨ w 5 ≠ 0 ∨ w 6 ≠ 0
  · rw [if_pos h1, if_pos (hbad.mpr h1)]
    rfl
  · rw [if_neg h1, if_neg (mt hbad.mp h1)]
    by_cases h2 : w 2 = 0
    · rw [if_pos h2, if_pos h2]
      rfl
    · rw [if_neg h2, if_neg h2]
      rfl

end Entries

/-! #### Completions (R76) -/

theorem qp_updQp (s : State) (q : Nat) (f : QPair → QPair) : (s.updQp q f).qp q = f (s.qp q) := Tbl.get_put_same _ _ _ _

/-- Where it is wanted, a message to the host is added to those sent. -/
theorem announce_msix (s : State) (b : Bool) (v : Nat) :
    let t := if b = true then { s with dv := { s.dv with msix := v :: s.dv.msix } } else s
    t.dv.qps = s.dv.qps ∧ t.dv.msix = if b = true then v :: s.dv.msix else s.dv.msix := by
  cases b with
  | true => exact ⟨rfl, rfl⟩
  | false => exact ⟨rfl, rfl⟩

theorem outsideWrite_dv (s : State) (bs : List (Nat × Byte)) : (s.outsideWrite bs).dv = s.dv := rfl

/-- A completion is written, announced and counted. -/
theorem completion_eq (s : State) (q st cause r p : Nat) (cookie : Word) (tend : Nat) : ∃ u : State, u.dv = s.dv ∧
    s.completion q st cause r p cookie tend =
      State.updQp (if (s.qp q).ien = true then { u with dv := { u.dv with msix := min 63 (s.qp q).vec :: u.dv.msix } } else u) q
        fun x => { x with tail := ((s.qp q).tail + 1) % 2 ^ 64 } := by
  refine ⟨_, ?_, rfl⟩
  exact (outsideWrite_dv _ _).trans (outsideWrite_dv _ _)

/-- A completion moves cq.tail on and, where interrupts are enabled, sends a message. -/
theorem completion_posts (s : State) (q st cause r p : Nat) (cookie : Word) (tend : Nat) :
    (s.completion q st cause r p cookie tend).qp q = { s.qp q with tail := ((s.qp q).tail + 1) % 2 ^ 64 } ∧
      (s.completion q st cause r p cookie tend).dv.msix =
        (if (s.qp q).ien = true then min 63 (s.qp q).vec :: s.dv.msix else s.dv.msix) := by
  obtain ⟨u, hdv, heq⟩ := completion_eq s q st cause r p cookie tend
  obtain ⟨hqps, hmsix⟩ := announce_msix u (s.qp q).ien (min 63 (s.qp q).vec)
  rw [heq]
  generalize (if (s.qp q).ien = true then ({ u with dv := { u.dv with msix := min 63 (s.qp q).vec :: u.dv.msix } } : State) else u) = w
    at hqps hmsix ⊢
  rw [hdv] at hqps hmsix
  have hqp : w.qp q = s.qp q := by rw [State.qp, hqps, State.qp]
  exact ⟨(qp_updQp w q _).trans (by rw [hqp]), hmsix⟩

theorem postOwed_posts (s : State) (q st cause r p : Nat) (cookie : Word) (tend : Nat) :
    let t := s.postOwed q st cause r p cookie tend
    (t.qp q).tail = ((s.qp q).tail + 1) % 2 ^ 64 ∧ (t.qp q).owed = (s.qp q).owed - 1 ∧ (t.qp q).head = (s.qp q).head ∧
      t.mem = s.mem ∧ t.dv.msix = (if (s.qp q).ien then min 63 (s.qp q).vec :: s.dv.msix else s.dv.msix) := by
  obtain ⟨hqp, hmsix⟩ := completion_posts s q st cause r p cookie tend
  let u := s.completion q st cause r p cookie tend
  have h : (u.updQp q fun x => { x with owed := x.owed - 1 }).qp q =
      { s.qp q with
        tail := ((s.qp q).tail + 1) % 2 ^ 64
        owed := (s.qp q).owed - 1 } := by
    rw [qp_updQp, show u.qp q = _ from hqp]
  exact ⟨congrArg QPair.tail h, congrArg QPair.owed h, (congrArg QPair.head h :), State.completion_mem _ _ _ _ _ _ _ _, hmsix⟩

/-- Settles O50: a poll reads the sequence word, a ready entry is consumed and acted on, and completions are posted. -/
theorem queueEvents : Obligations.QueueEvents :=
  fun s q => ⟨poll_reads, poll_off, fun hready hpolls => ⟨consume_waits hready hpolls, consume_acts hready hpolls⟩, fun _ => rfl,
    postOwed_posts s q⟩

end Sys2Proof.Machine

/-! ### Launches, the children of a batch, and image files (R17, R18, R83, R158 to R161) -/

namespace Sys2Proof.Machine

open Claim

/-! #### Launches from a queue (R73, R83) -/

theorem launch_waits {s : State} (h : 65536 ≤ s.recs.length) (q rcb : Nat) (cookie : Word) (priv : Bool) :
    exec (.launch q rcb cookie priv) s = .next (s.schedIn 1 (.launch q rcb cookie priv)) := if_pos h

theorem launch_tried {s : State} (h : s.recs.length < 65536) (q rcb : Nat) (cookie : Word) (priv : Bool) :
    exec (.launch q rcb cookie priv) s = .next
      (match (counted s).tryLaunch (launcher q cookie priv) ⟨0, 0⟩ rcb rcb with
       | .ok t _ => t
       | .refused t cause _ => if priv then t else t.postOwed q 3 cause 0 0 cookie t.tmNow
       | .wait => s.schedIn 1 (.launch q rcb cookie priv)) := by
  show execLaunch q rcb cookie priv s = _
  unfold execLaunch
  refine (if_neg (by omega)).trans ?_
  change (match (counted s).tryLaunch (launcher q cookie priv) ⟨0, 0⟩ rcb rcb with
    | .ok t _ => ok t
    | .refused t cause _ => ok (if priv then t else t.postOwed q 3 cause 0 0 cookie t.tmNow)
    | .wait => ok (s.schedIn 1 (.launch q rcb cookie priv))) = _
  cases (counted s).tryLaunch (launcher q cookie priv) ⟨0, 0⟩ rcb rcb <;> rfl

theorem tryLaunch_busy (s : State) (who : Launcher) (l : Loc) (rcb pa : Nat) :
    (s.rcbBusy pa = true → s.tryLaunch who l rcb pa = .refused s 0x02 false) ∧
      (s.rcbBusy pa = false → isHome pa = false → s.tryLaunch who l rcb pa = .refused s 0x09 false) := by
  unfold State.tryLaunch
  refine ⟨fun h => if_pos h, fun h hpa => (if_neg (by rw [h]; nofun)).trans (if_pos (by rw [hpa]; rfl))⟩

/-! #### The children of a batch (R158 to R161) -/

section Child

variable {s : State} {l : Loc} (hactive : (s.ctx l).batch.active = true) (hmore : (s.ctx l).batch.launched < (s.ctx l).batch.n)
  (hwin : (s.ctx l).batch.launched < (s.ctx l).batch.base + 256) (hroom : s.recs.length < 65536)
  (hwalk : s.xlWaits l ((s.ctx l).batch.arr + 256 * (s.ctx l).batch.launched) = false)
include hactive hmore hwin hroom hwalk

/-- What a batch makes of its next child's launch. -/
theorem childLaunch_eq : let b := (s.ctx l).batch
    let va := b.arr + 256 * b.launched
    exec (.childLaunch l) s = match (match (s.xlate l va accRead).2 with
        | .error _ => Launched.refused (counted (s.xlate l va accRead).1) 0x09 false
        | .ok pa => (counted (s.xlate l va accRead).1).tryLaunch (childOf s l) l va pa) with
      | .ok t r => .next (childCounted t l (s.ctx l).region (b.launched + 1) fun c => { c with kids := Tbl.put c.kids b.launched r })
      | .refused t cause written => .next (childCounted t l (s.ctx l).region (b.launched + 1) fun c =>
          if written = true then { c with doneI := b.launched :: c.doneI }
          else { c with
            doneI := b.launched :: c.doneI
            nunw := min (c.nunw + 1) 0xFFFFFF
            fcause := if c.nunw = 0 then cause else c.fcause
            first := if c.nunw = 0 then b.launched else c.first })
      | .wait => .next (s.schedIn 1 (.childLaunch l)) := by
  intro b va
  show execChildLaunch l s = _
  unfold execChildLaunch
  refine (if_neg ?_).trans ((if_neg ?_).trans ?_)
  · simp [hactive, hmore, hwin]
  · simp [hroom, hwalk]
  · rfl

/-- What a child whose RCB cannot be read leaves in its batch: its entry is complete, and the first cause is kept. -/
theorem childLaunch_unread {c : Nat × Nat}
    (h : (s.xlate l ((s.ctx l).batch.arr + 256 * (s.ctx l).batch.launched) accRead).2 = .error c) :
    let b := (s.ctx l).batch
    exec (.childLaunch l) s = .next
      (childCounted (counted (s.xlate l (b.arr + 256 * b.launched) accRead).1) l (s.ctx l).region (b.launched + 1) fun b => { b with
        doneI := (s.ctx l).batch.launched :: b.doneI, nunw := min (b.nunw + 1) 0xFFFFFF
        fcause := if b.nunw = 0 then 0x09 else b.fcause
        first := if b.nunw = 0 then (s.ctx l).batch.launched else b.first }) := by
  intro b
  refine (childLaunch_eq hactive hmore hwin hroom hwalk).trans ?_
  rw [h]
  rfl

theorem childLaunch_enters {pa r : Nat} {t : State}
    (h : (s.xlate l ((s.ctx l).batch.arr + 256 * (s.ctx l).batch.launched) accRead).2 = .ok pa)
    (hok : (counted (s.xlate l ((s.ctx l).batch.arr + 256 * (s.ctx l).batch.launched) accRead).1).tryLaunch (childOf s l) l
      ((s.ctx l).batch.arr + 256 * (s.ctx l).batch.launched) pa = .ok t r) :
    let b := (s.ctx l).batch
    exec (.childLaunch l) s = .next (childCounted t l (s.ctx l).region (b.launched + 1) fun c =>
      { c with kids := Tbl.put c.kids b.launched r }) := by
  intro b
  refine (childLaunch_eq hactive hmore hwin hroom hwalk).trans ?_
  rw [h]
  dsimp only
  rw [hok]

theorem childLaunch_refused {pa cause : Nat} {t : State}
    (h : (s.xlate l ((s.ctx l).batch.arr + 256 * (s.ctx l).batch.launched) accRead).2 = .ok pa)
    (hno : (counted (s.xlate l ((s.ctx l).batch.arr + 256 * (s.ctx l).batch.launched) accRead).1).tryLaunch (childOf s l) l
      ((s.ctx l).batch.arr + 256 * (s.ctx l).batch.launched) pa = .refused t cause true) :
    let b := (s.ctx l).batch
    exec (.childLaunch l) s = .next (childCounted t l (s.ctx l).region (b.launched + 1) fun c =>
      { c with doneI := b.launched :: c.doneI }) := by
  intro b
  refine (childLaunch_eq hactive hmore hwin hroom hwalk).trans ?_
  rw [h]
  dsimp only
  rw [hno]
  rfl

end Child

/-- The child at the window base leaves the batch `b` of its strand. -/
def leaveBatch (b : Batch) (c : Ctx) : Ctx :=
  { c with batch := { c.batch with
      base := b.base + 1, doneI := c.batch.doneI.filter (· != b.base), kids := Tbl.del c.batch.kids b.base
      news := c.batch.news + 1, active := b.base + 1 != b.n } }

theorem childDelivery_counts {s : State} {l : Loc} (hactive : (s.ctx l).batch.active = true)
    (hdone : (s.ctx l).batch.base ∈ (s.ctx l).batch.doneI) :
    let b := (s.ctx l).batch
    exec (.childDelivery l) s = .next
      (let u := ((s.updCtx l fun c => { c with batch := { c.batch with
          base := b.base + 1, doneI := c.batch.doneI.filter (· != b.base), kids := Tbl.del c.batch.kids b.base
          news := c.batch.news + 1, active := b.base + 1 != b.n } }).kidsBy (s.ctx l).region (· - 1)).sched s.tick (.sleepWake l)
       (((if b.base + 1 = b.n then u.tokDone l b.tok ((u.ctx l).now u.tick) else u).nextDelivery l).nextChild l)) := by
  intro b
  show execChildDelivery l s = _
  unfold execChildDelivery
  refine (if_neg (by simp [hactive, hdone])).trans ?_
  rw [← State.updCtx_tick s l (leaveBatch b)]
  let u := (((s.updCtx l (leaveBatch b)).kidsBy (s.ctx l).region (· - 1)).sched (s.updCtx l (leaveBatch b)).tick (.sleepWake l))
  change Host.Outcome.next (((if (b.base + 1 == b.n) = true then u.tokDone l b.tok ((u.ctx l).now u.tick) else u).nextDelivery l).nextChild
    l) = Host.Outcome.next (((if b.base + 1 = b.n then u.tokDone l b.tok ((u.ctx l).now u.tick) else u).nextDelivery l).nextChild l)
  by_cases hlast : b.base + 1 = b.n
  · rw [if_pos hlast, if_pos (by simpa using hlast)]
  · rw [if_neg hlast, if_neg (by simpa using hlast)]

/-! #### Files of the image cache (R83) -/

theorem has_put_same {α : Type} (t : Tbl α) (n : Nat) (x : α) : Tbl.has (Tbl.put t n x) n = true := by
  induction t with
  | nil => simp [Tbl.put, Tbl.has]
  | cons e t ih =>
    unfold Tbl.put
    split
    · simp [Tbl.has]
    · split
      · simp [Tbl.has]
      · simp [Tbl.has, *]

theorem imageVerify_cases (s : State) (file : Nat) :
    exec (.imageVerify file) s = .next (match s.verifyImage file (s.fileAt file) with
        | .ok t _ => t
        | .bad => s
        | .wait => s.schedIn 1 (.imageVerify file)) := by
  show execImageVerify file s = _
  unfold execImageVerify
  cases s.verifyImage file (s.fileAt file) <;> rfl

/-- A file that passes its check is in the image cache. -/
theorem verifyImage_has {s t : State} {pa id : Nat} {rd : Nat → Nat → Option (List Byte)} (h : s.verifyImage pa rd = .ok t id) :
    Tbl.has t.images id = true := by
  unfold State.verifyImage at h
  dsimp only at h
  split at h
  · exact absurd h nofun
  · split at h
    · exact absurd h nofun
    · split at h
      · cases h
        exact has_put_same _ _ _
      · split at h
        · exact absurd h nofun
        · split at h
          · exact absurd h nofun
          · cases h
            exact has_put_same _ _ _

/-- Settles O51: launches enter their regions or are refused, the children of a batch are counted in and out, and files are checked. -/
theorem launchEvents : Obligations.LaunchEvents :=
  fun s => ⟨launch_waits, launch_tried, tryLaunch_busy s,
    fun _ hactive hmore hwin hroom hwalk => ⟨fun _ => childLaunch_unread hactive hmore hwin hroom hwalk,
      fun _ _ _ => childLaunch_enters hactive hmore hwin hroom hwalk, fun _ _ _ => childLaunch_refused hactive hmore hwin hroom hwalk⟩,
    fun _ => ⟨fun h => if_pos (by rw [h]; rfl), childDelivery_counts, fun h => if_pos (by rw [h]; rfl)⟩,
    fun file => ⟨imageVerify_cases s file, fun _ _ => verifyImage_has⟩⟩

end Sys2Proof.Machine

/-! ### Registers written and read from outside a strand (R69, R70, R95, R97, R222) -/

namespace Sys2Proof.Machine

open Claim

/-! #### The shootdown counter -/

theorem tlbDrop_keeps (s : State) (l : Loc) (sc : Scope) (lo hi : Nat) :
    (s.tlbDrop l sc lo hi).dv = s.dv ∧ (s.tlbDrop l sc lo hi).tick = s.tick := by
  unfold State.tlbDrop
  dsimp only
  split
  · exact ⟨rfl, rfl⟩
  · exact ⟨rfl, rfl⟩

/-- A shootdown is counted, and its count goes to the word that asked for it. -/
def countShot (s : State) (l : Loc) (d tok : Nat) : Out :=
  let v := (s.dv.shoot + 1) % 2 ^ 32
  let s := { s with dv := { s.dv with shoot := v, tlbseq := v } }
  let n := (s.ctx l).now s.tick
  .next ((s.updCtx l fun c => c.pendK (some tok) (n + 1) (.s d (BitVec.ofNat 64 v))).tokDone l tok (n + 1))

theorem shootdown_completes {s : State} {l : Loc} {d tok : Nat} {sc : Scope} {lo hi : Nat} (h : s.shotAt l sc lo hi = false) :
    let v := (s.dv.shoot + 1) % 2 ^ 32
    let u := s.tlbDrop l sc lo hi
    let w : State := { u with dv := { u.dv with shoot := v, tlbseq := v } }
    u.dv = s.dv ∧ exec (.shootdownComplete l d tok sc lo hi) s = .next ((w.updCtx l fun c =>
      c.pendK (some tok) ((w.ctx l).now s.tick + 1) (.s d (BitVec.ofNat 64 v))).tokDone l tok ((w.ctx l).now s.tick + 1)) := by
  obtain ⟨hdv, htick⟩ := tlbDrop_keeps s l sc lo hi
  have hexec : exec (.shootdownComplete l d tok sc lo hi) s = countShot (s.tlbDrop l sc lo hi) l d tok :=
    if_neg (by rw [h]; nofun)
  rw [hexec]
  generalize s.tlbDrop l sc lo hi = u at hdv htick ⊢
  refine ⟨hdv, ?_⟩
  rw [← htick, ← hdv]
  rfl

/-! #### ctl.uivec -/

theorem uivec_set {s : State} {l : Loc} {v : Word} (h : v.toNat % 2 ^ 14 < (s.ctx l).words) : exec (.uivecWrite l v) s = .next
    ((s.updCtx l fun c => { c with ui := { c.ui with v := v.getLsbD 63, entry := v.toNat % 2 ^ 14 } }).uiPoll l) :=
  if_pos (decide_eq_true h)

theorem uivec_traps {s : State} {l : Loc} {v : Word} (h : (s.ctx l).words ≤ v.toNat % 2 ^ 14) (hfg : s.inFg l = true)
    (hclock : (s.ctx l).frozen = none) :
    ∃ t : State, exec (.uivecWrite l v) s = .next t ∧ (t.ctx l).ui = (s.ctx l).ui ∧ (t.ctx l).stopped = true ∧
      ∃ r, (t.ctx l).stops = (s.ctx l).stops ++ [r] ∧ r.code = 0x02 ∧ r.prec = true := by
  let r := s.mkStop l 0 cIllegalOperand true (s.ctx l).pc 0 0 0
  let u := s.updCtx l fun c => { c with stopped := true }
  have hufg : u.inFg l = true := s.inFg_updCtx l (fun c => { c with stopped := true }) hfg (s.part_ctx l hfg)
  have hu : u.ctx l = { s.ctx l with stopped := true } :=
    s.ctx_updCtx l (fun c => { c with stopped := true }) hfg (s.part_ctx l hfg)
  have hctx : (u.raiseTrap l r).ctx l = { u.ctx l with stops := (u.ctx l).stops ++ [r] } :=
    raiseTrap_ctx r hufg (by rw [hu]; exact hclock)
  rw [hu] at hctx
  refine ⟨u.raiseTrap l r, if_neg fun hok => ?_, (congrArg Ctx.ui hctx :), (congrArg Ctx.stopped hctx :),
    r, (congrArg Ctx.stops hctx :), rfl, rfl⟩
  exact absurd (of_decide_eq_true hok) (by omega)

/-! #### Reads of BAR0 (R69, R222) -/

theorem bar0_silent {s : State} (off width : Nat) (h : s.answers = false) :
    exec (.tsRead ⟨off, width⟩) s = .next { s with dv := { s.dv with bar0 := none } } :=
  if_pos (by rw [h]; rfl)

theorem bar0_wrongWidth {s : State} (off width : Nat) (hans : s.answers = true) (h : width ≠ 8 ∨ off % 8 ≠ 0) :
    exec (.tsRead ⟨off, width⟩) s = .next { s with dv := { s.dv with bar0 := some 0xFFFFFFFFFFFFFFFF } } :=
  (if_neg (by rw [hans]; nofun)).trans (if_pos (by simpa using h))

/-- What a read of a register that is there gives. -/
theorem bar0_reads {s : State} {off v : Nat} (hans : s.answers = true) (hoff : off % 8 = 0) (h : s.bar0 off = some v) :
    exec (.tsRead ⟨off, 8⟩) s = .next (let u := s.csrSeen ((bar0Csr off).getD 0)
      { u with dv := { u.dv with bar0 := some (BitVec.ofNat 64 v) } }) := by
  show execTsRead ⟨off, 8⟩ s = _
  unfold execTsRead
  refine (if_neg (by rw [hans]; nofun)).trans ((if_neg (by simp [hoff])).trans ?_)
  rw [h]
  rfl

/-- A control register that is no sensor's, or none. -/
def NoSensor (o : Option Nat) : Prop := ∀ m, o = some m → m < 0x100 ∨ 0x200 ≤ m

theorem noSensor_ite {c : Prop} [Decidable c] {a : Nat} {o : Option Nat} (ha : c → a < 0x100 ∨ 0x200 ≤ a) (ho : NoSensor o) :
    NoSensor (if c then some a else o) := by
  split
  next hc => exact fun m hm => Option.some.inj hm ▸ ha hc
  next => exact ho

/-- The registers of BAR0 outside the sensors' are none of them. -/
theorem bar0Csr_noSensor {off : Nat} (h : off < 0x3000 ∨ 0x3800 ≤ off) : NoSensor (bar0Csr off) := by
  unfold bar0Csr
  repeat refine noSensor_ite (by omega) ?_
  exact fun m hm => absurd hm nofun

theorem csrSeen_noSensor (s : State) {off : Nat} (h : off < 0x3000 ∨ 0x3800 ≤ off) : s.csrSeen ((bar0Csr off).getD 0) = s := by
  refine if_neg ?_
  rw [Bool.and_eq_true, decide_eq_true_iff, decide_eq_true_iff]
  cases hm : bar0Csr off with
  | none => exact fun h => absurd h.1 (by decide)
  | some m =>
    have := bar0Csr_noSensor h m hm
    rw [Option.getD_some]
    omega

theorem bar0_register {s : State} {off v : Nat} (hans : s.answers = true) (hoff : off % 8 = 0) (hno : off < 0x3000 ∨ 0x3800 ≤ off)
    (h : s.bar0 off = some v) :
    exec (.tsRead ⟨off, 8⟩) s = .next { s with dv := { s.dv with bar0 := some (BitVec.ofNat 64 v) } } := by
  rw [bar0_reads hans hoff h, csrSeen_noSensor s hno]

/-- A sensor's register. -/
theorem csr_sensor (s : State) {n : Nat} (h : n < 256) : s.csr (0x100 + n) = (s.tsReg n).ctl := by
  unfold State.csr
  dsimp only
  split
  any_goals omega
  rw [if_neg (by omega), if_neg (by omega), if_neg (by omega), if_neg (by omega), if_neg (by omega), if_neg (by omega),
    if_neg (by omega), if_pos (by omega), Nat.add_sub_cancel_left]

theorem bar0Csr_sensor {n : Nat} (h : n < 256) : bar0Csr (0x3000 + 8 * n) = some (0x100 + n) := by
  unfold bar0Csr
  rw [if_neg (by omega), if_neg (by omega), if_pos (by omega)]
  congr 1
  omega

theorem bar0_sensor (s : State) {n : Nat} (h : n < 256) : s.bar0 (0x3000 + 8 * n) = some (s.tsReg n).ctl := by
  unfold State.bar0
  rw [if_neg (by omega), if_neg (by omega), if_neg (by omega), if_neg (by omega), if_neg (by omega), bar0Csr_sensor h, Option.map_some,
    csr_sensor s h]

/-- Reading a sensor's register makes its tmax the reading. -/
theorem csrSeen_sensor (s : State) {n : Nat} (h : n < 256) :
    let t := s.csrSeen (0x100 + n)
    (t.tsReg n).tmax = (s.tsReg n).temp ∧ (t.tsReg n).temp = (s.tsReg n).temp ∧ t.cores = s.cores ∧ t.mem = s.mem := by
  unfold State.csrSeen
  rw [if_pos (by simpa using (by omega : 256 + n < 512)), Nat.add_sub_cancel_left]
  dsimp only
  split
  next heq => exact ⟨heq, rfl, rfl, rfl⟩
  next =>
    have hreg : State.tsReg { s with ts := Tbl.put s.ts n { s.tsReg n with tmax := (s.tsReg n).temp } } n =
        { s.tsReg n with tmax := (s.tsReg n).temp } := Tbl.get_put_same _ _ _ _
    exact ⟨(congrArg TsReg.tmax hreg :), (congrArg TsReg.temp hreg :), rfl, rfl⟩

theorem sensor_read {s : State} {n : Nat} (hans : s.answers = true) (h : n < 256) :
    ∃ t : State, exec (.tsRead ⟨0x3000 + 8 * n, 8⟩) s = .next t ∧
      t.dv.bar0 = some (BitVec.ofNat 64 (s.tsReg n).ctl) ∧ (t.tsReg n).tmax = (s.tsReg n).temp ∧
      (t.tsReg n).temp = (s.tsReg n).temp ∧ t.cores = s.cores ∧ t.mem = s.mem := by
  have hread := bar0_reads hans (by omega) (bar0_sensor s h)
  rw [bar0Csr_sensor h] at hread
  exact ⟨_, hread, rfl, csrSeen_sensor s h⟩

/-! #### Writes of the host (R69, R70, R75) -/

section Host

variable {s : State} (hans : s.answers = true)
include hans

theorem answered_on (o : Out) : Machine.answered s o = o := if_pos hans

theorem lqNext_write (q : Nat) (v : Word) : ((s.qp q).en = true → exec (.lqNextWrite q v) s = .next s) ∧
    ((s.qp q).en = false → exec (.lqNextWrite q v) s = .next (s.updQp q fun x => { x with next := v.toNat })) := by
  have hexec : exec (.lqNextWrite q v) s = .next (if (s.qp q).en = true then s else s.updQp q fun x => { x with next := v.toNat }) :=
    answered_on hans _
  rw [hexec]
  exact ⟨fun h => by rw [if_pos h], fun h => by rw [if_neg (by rw [h]; nofun)]⟩

theorem cqHead_write (q : Nat) (v : Word) : ((s.qp q).head ≤ v.toNat → v.toNat ≤ (s.qp q).tail →
      exec (.cqHeadWrite q v) s = .next (s.updQp q fun x => { x with head := v.toNat })) ∧
    (v.toNat < (s.qp q).head → v.toNat ≤ (s.qp q).tail → exec (.cqHeadWrite q v) s = .next s) := by
  have hexec : exec (.cqHeadWrite q v) s = .next (if min v.toNat (s.qp q).tail < (s.qp q).head then s
      else s.updQp q fun x => { x with head := min v.toNat (s.qp q).tail }) := answered_on hans _
  rw [hexec]
  refine ⟨fun hhead htail => ?_, fun hhead htail => ?_⟩
  · rw [Nat.min_eq_left htail, if_neg (by omega)]
  · rw [Nat.min_eq_left htail, if_pos hhead]

theorem pdelay_write (v : Word) : exec (.registerWrite false (.bar0 0x0800 8) v) s = .next
    { s with dv := { s.dv with pdelay := v.toNat % 2 ^ 32 } } := answered_on hans _

end Host

theorem unanswered {s : State} (h : s.answers = false) (o : Out) : Machine.answered s o = .next s := if_neg (by rw [h]; nofun)

theorem answered_unchanged (s : State) : Machine.answered s (ok s) = .next s := by
  unfold Machine.answered
  split <;> rfl

theorem bar0Write_wrongWidth (s : State) (mc : Bool) (off width : Nat) (v : Word) (h : width ≠ 8 ∨ off % 8 ≠ 0) :
    exec (.registerWrite mc (.bar0 off width) v) s = .next s :=
  (congrArg (Machine.answered s) (if_pos (by simpa using h))).trans (answered_unchanged s)

theorem bar0Write_host (s : State) (off : Nat) (v : Word) (hoff : off % 8 = 0) (h : 0x2000 ≤ off) :
    exec (.registerWrite false (.bar0 off 8) v) s = .next s := by
  refine (congrArg (Machine.answered s) ((if_neg (by simp [hoff])).trans ((if_neg nofun).trans ((if_neg ?_).trans (if_neg ?_))))).trans
    (answered_unchanged s)
  · rw [Bool.and_eq_true, decide_eq_true_iff, decide_eq_true_iff]
    omega
  · omega

/-! #### Writes of the management controller (R95, R97, R303) -/

theorem flt_write (s : State) (t i : Nat) (v : Word) : let e := v &&& 0xFF807FFF00000FFF
    let u := s.setCore t { s.core t with flt := Tbl.set 0 (s.core t).flt (i % 8) e }
    (fltLegal t e = true → u.tablesOk = true ∨ s.tablesOk = false → exec (.registerWrite true (.flt t i) v) s = .next u) ∧
    (fltLegal t e = true → u.tablesOk = false → s.tablesOk = true → exec (.registerWrite true (.flt t i) v) s = .next s) ∧
    (fltLegal t e = false → exec (.registerWrite true (.flt t i) v) s = .next s) := by
  intro e u
  have hexec : exec (.registerWrite true (.flt t i) v) s = if fltLegal t e = true then
      .next (if (s.tablesOk && !u.tablesOk) = true then s else u) else .next s := rfl
  rw [hexec]
  generalize s.tablesOk = before
  generalize u.tablesOk = after
  refine ⟨fun hlegal h => ?_, fun hlegal hafter hbefore => ?_, fun h => if_neg (by rw [h]; nofun)⟩
  · rw [if_pos hlegal, if_neg (by rcases h with h | h <;> simp [h])]
  · rw [if_pos hlegal, if_pos (by simp [hafter, hbefore])]

/-! #### The harvest map (R97, R105) -/

/-- The tiles of a column that a write of the harvest map adds. -/
def addedTiles (old new : Word) (n : Nat) : List Nat :=
  ((List.range 64).filter fun i => (new &&& ~~~old).getLsbD i).map fun i => 64 * n + i

theorem mem_addedTiles (old new : Word) (n t : Nat) :
    t ∈ addedTiles old new n ↔ ∃ i, (i < 64 ∧ new.getLsbD i = true ∧ old.getLsbD i = false) ∧ 64 * n + i = t := by
  simp only [addedTiles, List.mem_map, List.mem_filter, List.mem_range, BitVec.getLsbD_and, BitVec.getLsbD_not, Bool.and_eq_true,
    decide_eq_true_iff, Bool.not_eq_true']
  constructor
  · rintro ⟨i, ⟨hi, hnew, -, hold⟩, ht⟩
    exact ⟨i, ⟨hi, hnew, hold⟩, ht⟩
  · rintro ⟨i, ⟨hi, hnew, hold⟩, ht⟩
    exact ⟨i, ⟨hi, hnew, hi, hold⟩, ht⟩

theorem harvest_write {s : State} {n : Nat} (v : Word) (hn : n < 64) (hans : s.answers = true) :
    exec (.registerWrite true (.bar0 (0x2000 + 8 * n) 8) v) s = .next (s.parts.foldl (fun u e =>
      if ((addedTiles (Tbl.get 0 s.hv n) v n).any (u.region e.2.root).eff.inBox) = true then u.strike e.1 else u)
      { s with hv := Tbl.set 0 s.hv n v }) := by
  have hindex : (0x2000 + 8 * n - 0x2000) / 8 = n := by omega
  have hreg : s.mcReg (0x2000 + 8 * n) v = s.harvestMap n v := by
    unfold State.mcReg
    refine (if_neg (by omega)).trans ((if_pos (by omega)).trans ?_)
    rw [hindex]
  have hexec : exec (.registerWrite true (.bar0 (0x2000 + 8 * n) 8) v) s = Machine.answered s (ok (s.mcReg (0x2000 + 8 * n) v)) :=
    congrArg (Machine.answered s) ((if_neg (by simp)).trans (if_pos rfl))
  rw [hexec, answered_on hans, hreg]
  rfl

theorem harvest_cases {s : State} {n : Nat} {v : Word} (hn : n < 64) (hans : s.answers = true) :
    let u : State := { s with hv := Tbl.set 0 s.hv n v }
    let adds (i : Nat) : Prop := i < 64 ∧ v.getLsbD i = true ∧ (Tbl.get 0 s.hv n).getLsbD i = false
    ((∀ e ∈ s.parts, ∀ i, adds i → (s.region e.2.root).eff.inBox (64 * n + i) = false) →
      exec (.registerWrite true (.bar0 (0x2000 + 8 * n) 8) v) s = .next u) ∧
    (∀ p x i, s.parts = [(p, x)] → adds i → (s.region x.root).eff.inBox (64 * n + i) = true →
      exec (.registerWrite true (.bar0 (0x2000 + 8 * n) 8) v) s = .next (u.strike p)) := by
  intro u adds
  rw [harvest_write v hn hans]
  refine ⟨fun h => congrArg Host.Outcome.next ?_, fun p x i hparts hadds hbox => congrArg Host.Outcome.next ?_⟩
  · refine List.foldlRecOn (motive := fun w : State => w = u) _ _ rfl fun w hw e he => ?_
    rw [hw]
    refine if_neg ?_
    rw [List.any_eq_true]
    rintro ⟨t, ht, hin⟩
    obtain ⟨i, hi, rfl⟩ := (mem_addedTiles _ _ _ _).mp ht
    exact absurd ((h e he i hi).symm.trans hin) nofun
  · refine (congrArg (List.foldl _ u) hparts).trans (if_pos ?_)
    rw [List.any_eq_true]
    exact ⟨64 * n + i, (mem_addedTiles _ _ _ _).mpr ⟨i, hadds, rfl⟩, hbox⟩

/-- Settles O52: registers are read and written field by field by those who may write them, and the harvest map strikes. -/
theorem registerEvents : Obligations.RegisterEvents :=
  fun s => ⟨fun _ _ _ _ _ _ h => if_pos h, fun _ _ _ _ _ _ => shootdown_completes, fun _ _ => uivec_set, fun _ _ => uivec_traps,
    ⟨bar0_silent, bar0_wrongWidth, fun _ _ => bar0_register, fun _ => sensor_read⟩,
    fun hans => ⟨lqNext_write hans, fun _ _ _ => answered_on hans _, cqHead_write hans, pdelay_write hans⟩,
    fun h _ _ _ _ _ _ _ => ⟨unanswered h _, unanswered h _, unanswered h _, unanswered h _⟩, bar0Write_wrongWidth s,
    fun _ _ _ _ => ⟨rfl, rfl, rfl⟩, bar0Write_host s, fun _ _ => rfl, flt_write s, fun _ _ => harvest_cases⟩

end Sys2Proof.Machine

/-! ### An update of the Geyser firmware tells ballast strands to yield (R219, R223) -/

namespace Sys2Proof.Machine

/-- A ballast strand runs on tile 0, and the gate is open. -/
def ballastRuns : State :=
  { cores := [(0, { fg := { part := some 0, region := 1, live := true } })]
    regions := [(1, { eff := { lvl := true } })]
    gov := { gate := true } }

/-- Whether the strand on tile 0 has been told to yield. -/
def yieldsAt0 (cores : Tbl Core) : Bool := (Tbl.get {} cores 0).fg.ui.yld

/-- Refutes O53: an image for Geyser's bank 2 shuts the gate of ballast, and the strand of `ballastRuns` is told to yield, so the
download does not leave the cores as they were. -/
theorem not_hostRequests : ¬ Obligations.HostRequests := by
  intro h
  obtain ⟨-, hfw, -⟩ := h ballastRuns
  obtain ⟨-, -, -, -, -, hcores, -⟩ := hfw 2 0 0 ⟨[], []⟩
  have hbefore : yieldsAt0 ballastRuns.cores = false := by decide
  rw [← hcores] at hbefore
  exact absurd hbefore (by decide)

end Sys2Proof.Machine

/-! ### Precise traps, and the delivery of a halt (R33, R446 to R453) -/

namespace Sys2Proof.Machine

open Claim

/-! #### A precise trap (R450) -/

/-- A word that traps stands in its queue again, and its strand stops, with the record of the trap. -/
theorem trapWord_traps {s : State} {e : QEnt} {p : Nat} (code detail : Nat) (hent : s.cur.ent = some e) (hpart : s.c.part = some p)
    (hclock : s.c.frozen = none) (hst : (s.part p).st = .active) :
    let t := s.trapWord code detail
    sameRegisters s.c t.c ∧ e ∈ t.c.q ∧ t.c.stopped = true ∧ t.mem = s.mem ∧ t.tick = s.tick ∧ t.cur.trapped = true ∧
      (t.part p).st = .halting ∧ (t.part p).haltAt = s.tick + 24 ∧ (s.tick + 24, .haltDelivery p) ∈ t.agenda ∧
      (∀ u, u ≠ s.me → t.core u = s.core u) ∧
      ∃ r, t.c.stops = s.c.stops ++ [r] ∧ r.code = code ∧ r.prec = true ∧ r.pc = e.pc % 2 ^ 14 ∧ r.word = e.bits.toNat ∧
        r.detail = detail ∧ r.tile = s.me ∧ r.part = p ∧ r.tnow = s.tmNow := by
  intro t
  have hframe := framed_trapWord s code detail
  let u := s.unissue
  have hueq : u = s.updC fun c => { c with q := insEnt e c.q } := by
    simp only [u, State.unissue, hent]
  have huc : u.c = { s.c with q := insEnt e s.c.q } := by rw [hueq, State.c_updC]
  let r := u.mkStop u.here 0 code true u.pcNow u.bitsNow detail 0
  let v := u.updC fun c => { c with stopped := true }
  have hvc : v.c = { s.c with
      q := insEnt e s.c.q
      stopped := true } := by rw [show v.c = _ from State.c_updC u _, huc]
  have hvp : v.here.part = p := by
    rw [State.here, hvc, hpart]
    rfl
  have hvpart : v.part p = s.part p := by
    show u.part p = s.part p
    rw [hueq]
    rfl
  obtain ⟨hc, -, -, -, hhalt, hat, hag⟩ := v.raiseTrap_here r (by rw [hvc, hpart]; rfl) (by rw [hvc]; exact hclock)
    (by rw [hvp, hvpart]; exact hst)
  rw [hvp] at hhalt hat hag
  have htc : t.c = { s.c with
      q := insEnt e s.c.q
      stopped := true
      stops := s.c.stops ++ [r] } := by
    refine (show t.c = _ from hc).trans ?_
    rw [hvc]
  have hvtick : v.tick = s.tick := by
    show u.tick = s.tick
    rw [hueq]
    rfl
  have hcur : u.cur = s.cur := by
    rw [hueq]
    rfl
  have hpc : u.pcNow = e.pc := by rw [State.pcNow, hcur, hent]; rfl
  have hbits : u.bitsNow = e.bits.toNat := by rw [State.bitsNow, hcur, hent]; rfl
  have hhere : u.here = ⟨s.me, p⟩ := by
    rw [State.here, huc, hpart, show u.me = s.me by rw [hueq]; rfl]
    rfl
  rw [hvtick] at hat hag
  refine ⟨hframe.regs, ?_, ?_, hframe.mem, hframe.tick, rfl, hhalt, hat, ?_, hframe.core, r, ?_, rfl, rfl, ?_, hbits, rfl,
    congrArg Loc.tile hhere, congrArg Loc.part hhere, ?_⟩
  · rw [htc]
    exact (mem_insEnt _ _ _).mpr (.inl rfl)
  · rw [htc]
  · rw [show t.agenda = _ from hag]
    exact (mem_insEv _ _ _ _).mpr (.inl rfl)
  · rw [htc]
  · exact congrArg (· % 2 ^ 14) hpc
  · show u.tmNow = s.tmNow
    rw [hueq]
    rfl

/-! #### Changes of a context's every place -/

/-- A tile whose foreground bank is a partition's is one of its places. -/
theorem mem_placesOf {s : State} {l : Loc} (h : s.inFg l = true) : l ∈ s.placesOf l.part := by
  have hmem (t : Tbl Core) (n : Nat) (hfg : (Tbl.get {} t n).fg.part = some l.part) : ∃ k, (n, k) ∈ t ∧ k.fg.part = some l.part := by
    induction t with
    | nil => exact absurd hfg nofun
    | cons e t ih =>
      unfold Tbl.get at hfg
      split at hfg
      · exact absurd hfg nofun
      · split at hfg
        next heq => exact ⟨e.2, by rw [heq]; exact List.mem_cons_self, hfg⟩
        next =>
          obtain ⟨k, hk, hpart⟩ := ih hfg
          exact ⟨k, List.mem_cons_of_mem _ hk, hpart⟩
  obtain ⟨k, hk, hpart⟩ := hmem s.cores l.tile (by simpa [State.inFg, State.core] using h)
  exact List.mem_filterMap.mpr ⟨(l.tile, k), hk, by simp [hpart]⟩

theorem part_placesOf {s : State} {l : Loc} {p : Nat} (h : l ∈ s.placesOf p) : l.part = p := by
  obtain ⟨e, -, he⟩ := List.mem_filterMap.mp h
  split at he
  · cases he
    rfl
  · exact absurd he nofun

theorem ctx_updCtx_tile (s : State) {l m : Loc} (f : Ctx → Ctx) (h : l.tile ≠ m.tile) :
    (s.updCtx m f).ctx l = s.ctx l ∧ (s.updCtx m f).inFg l = s.inFg l := by
  have hcore := s.core_updCtx_other m f l.tile h
  unfold State.ctx State.inFg State.spilled
  rw [hcore]
  exact ⟨rfl, rfl⟩

/-- A change that does nothing when it comes again, made at several places of a partition. -/
theorem foldl_updCtx {f : Ctx → Ctx} {p : Nat} (hpart : ∀ c, (f c).part = c.part) (hidem : ∀ c, f (f c) = f c) {l : Loc}
    (hl : l.part = p) (ls : List Loc) : ∀ s : State, (∀ m ∈ ls, m.part = p) → s.inFg l = true →
      let t := ls.foldl (fun s m => s.updCtx m f) s
      t.inFg l = true ∧ ((l ∈ ls ∨ s.ctx l = f (s.ctx l)) → t.ctx l = f (s.ctx l)) := by
  induction ls with
  | nil => exact fun s _ hfg => ⟨hfg, fun h => h.resolve_left List.not_mem_nil⟩
  | cons m ls ih =>
    intro s hls hfg
    have hm : m.part = p := hls m List.mem_cons_self
    by_cases htile : l.tile = m.tile
    · have hlm : m = l := by
        cases l
        cases m
        simp_all
      subst hlm
      have hkeep : (f (s.ctx m)).part = some m.part := (hpart _).trans (s.part_ctx m hfg)
      have hctx := s.ctx_updCtx m f hfg hkeep
      obtain ⟨h1, h2⟩ := ih (s.updCtx m f) (fun x hx => hls x (List.mem_cons_of_mem _ hx)) (s.inFg_updCtx m f hfg hkeep)
      refine ⟨h1, fun _ => ?_⟩
      rw [hctx, hidem] at h2
      exact h2 (.inr rfl)
    · obtain ⟨hctx, hfg'⟩ := ctx_updCtx_tile s f htile
      obtain ⟨h1, h2⟩ := ih (s.updCtx m f) (fun x hx => hls x (List.mem_cons_of_mem _ hx)) (hfg'.trans hfg)
      rw [hctx] at h2
      refine ⟨h1, fun h => h2 (h.imp (fun hin => (List.mem_cons.mp hin).resolve_left fun heq => htile (by rw [heq])) id)⟩

/-- Such changes keep the tick. -/
theorem foldl_updCtx_tick (g : Nat → Ctx → Ctx) (ls : List Loc) (s : State) :
    ls.foldl (fun u m => u.updCtx m (g u.tick)) s = ls.foldl (fun u m => u.updCtx m (g s.tick)) s := by
  have hgen (n : Nat) : ∀ u : State, u.tick = n →
      ls.foldl (fun u m => u.updCtx m (g u.tick)) u = ls.foldl (fun u m => u.updCtx m (g n)) u := by
    induction ls with
    | nil => exact fun u _ => rfl
    | cons m ls ih =>
      intro u hu
      simp only [List.foldl_cons, hu]
      exact ih _ ((u.updCtx_tick m _).trans hu)
  exact hgen s.tick s rfl

/-! #### The clock of a context (R446, R449) -/

/-- Its clock stands still from tick `n` on. -/
def Ctx.stopClock (n : Nat) (c : Ctx) : Ctx := { c with frozen := some (c.now n) }

theorem freezeClock_ctx {s : State} {l : Loc} (hfg : s.inFg l = true) :
    (s.freezeClock l.part).inFg l = true ∧ (s.freezeClock l.part).ctx l = (s.ctx l).stopClock s.tick := by
  have hfold := foldl_updCtx_tick Ctx.stopClock (s.placesOf l.part) s
  obtain ⟨h1, h2⟩ := foldl_updCtx (f := Ctx.stopClock s.tick) (l := l) (fun _ => rfl) (fun _ => rfl) rfl (s.placesOf l.part) s
    (fun _ hm => part_placesOf hm) hfg
  rw [← hfold] at h1 h2
  exact ⟨h1, h2 (.inl (mem_placesOf hfg))⟩

/-- The clock goes on where it stood. -/
def Ctx.startClock (n : Nat) (c : Ctx) : Ctx := match c.frozen with
  | some m => { c with frozen := none, off := n - m }
  | none => c

theorem startClock_idem (n : Nat) (c : Ctx) : (c.startClock n).startClock n = c.startClock n := by
  unfold Ctx.startClock
  cases h : c.frozen with
  | none => simp only [h]
  | some m => rfl

theorem startClock_part (n : Nat) (c : Ctx) : (c.startClock n).part = c.part := by
  unfold Ctx.startClock
  split <;> rfl

theorem thaw_cores (s : State) (p : Nat) : (s.thaw p).cores =
    (((s.placesOf p).filter fun l => !s.clockStopped l.tile).foldl (fun u m => u.updCtx m (Ctx.startClock u.tick)) s).cores := by
  have hsched (evs : List (Nat × Ev)) (u : State) : (evs.foldl (fun s e => s.schedIn e.1 e.2) u).cores = u.cores :=
    List.foldlRecOn (motive := fun w : State => w.cores = u.cores) evs _ rfl fun _ hw _ _ => hw
  exact hsched _ _

theorem thaw_ctx {s : State} {l : Loc} {n : Nat} (hfg : s.inFg l = true) (hclock : (s.ctx l).frozen = some n) (hn : n ≤ s.tick)
    (hon : s.clockStopped l.tile = false) :
    ((s.thaw l.part).ctx l).frozen = none ∧ ((s.thaw l.part).ctx l).now s.tick = n := by
  let ls := (s.placesOf l.part).filter fun l => !s.clockStopped l.tile
  obtain ⟨-, h2⟩ := foldl_updCtx (f := Ctx.startClock s.tick) (l := l) (startClock_part s.tick) (startClock_idem s.tick) rfl ls s
    (fun _ hm => part_placesOf (List.mem_filter.mp hm).1) hfg
  have hin : l ∈ ls := List.mem_filter.mpr ⟨mem_placesOf hfg, by rw [hon]; rfl⟩
  have hctx : (s.thaw l.part).ctx l = (s.ctx l).startClock s.tick := by
    rw [State.ctx_congr _ _ l (thaw_cores s l.part), foldl_updCtx_tick Ctx.startClock ls s]
    exact h2 (.inl hin)
  rw [hctx, Ctx.startClock, hclock]
  refine ⟨rfl, ?_⟩
  show s.tick - (s.tick - n) = n
  omega

/-! #### The events that freeze (R446) -/

/-- An event that no partition's context owns. -/
def Ownerless (e : Ev) : Prop := ∀ s : State, s.evPart e = none

theorem evPart_congr {s t : State} (h : ∀ r, (t.region r).part = (s.region r).part) (e : Ev) : t.evPart e = s.evPart e := by
  unfold State.evPart
  simp only [h]

/-- What comes to the agenda belongs to no partition. -/
def AddsOwnerless (s t : State) : Prop := ∀ x ∈ t.agenda, x ∈ s.agenda ∨ Ownerless x.2

theorem AddsOwnerless.trans {s t u : State} (h : AddsOwnerless s t) (h' : AddsOwnerless t u) : AddsOwnerless s u := fun x hx =>
  (h' x hx).elim (h x) .inr

theorem AddsOwnerless.foldl {α : Type} {f : State → α → State} (h : ∀ s x, AddsOwnerless s (f s x)) (xs : List α) (s : State) :
    AddsOwnerless s (xs.foldl f s) :=
  List.foldlRecOn (motive := AddsOwnerless s) xs f (fun _ hx => .inl hx) fun _ hu _ _ => hu.trans (h _ _)

theorem addsOwnerless_sched (s : State) (n : Nat) {e : Ev} (he : Ownerless e) : AddsOwnerless s (s.sched n e) := fun x hx => by
  rcases (mem_insEv _ _ _ _).mp hx with rfl | h
  · exact .inr he
  · exact .inl h

theorem ownerless_record (d : DRec) : Ownerless d.ev := by
  intro s
  unfold DRec.ev
  split
  · split <;> rfl
  · rfl
  · rfl

theorem kick_ownerless (s : State) : AddsOwnerless s s.kick := by
  unfold State.kick
  dsimp only
  refine AddsOwnerless.trans (t := { s with agenda := s.agenda.filter fun e => !(e.1 == s.tick + 1 && evDispatch e.2) })
    (fun x hx => .inl (List.mem_filter.mp hx).1) (AddsOwnerless.foldl (fun u d => ?_) _ _)
  exact addsOwnerless_sched _ _ (ownerless_record d)

theorem sendStop_ownerless (s : State) (r : StopRec) : AddsOwnerless s (s.sendStop r) := by
  unfold State.sendStop
  dsimp only
  split
  · exact addsOwnerless_sched _ _ fun _ => rfl
  · exact addsOwnerless_sched s _ (e := .messageArrival _) fun _ => rfl

/-! #### Regions are restated (R33, R447) -/

/-- Only memory, its lines and the regions differ. -/
structure OnlyRegions (s t : State) : Prop where
  tick : t.tick = s.tick
  parts : t.parts = s.parts
  cores : t.cores = s.cores
  agenda : t.agenda = s.agenda

theorem setRSt_only (s : State) (n : Nat) (st : RSt) (cause : Nat) : OnlyRegions s (s.setRSt n st cause) := by
  have h (u : State) (bs : List (Nat × Byte)) : OnlyRegions u (u.devWrite bs) := by
    unfold State.devWrite
    split
    · exact ⟨rfl, rfl, rfl, rfl⟩
    · split <;> exact ⟨rfl, rfl, rfl, rfl⟩
  obtain ⟨h1, h2, h3, h4⟩ := h (s.updRegion n fun r => { r with st := st, cause := cause })
    (addrBytes (((s.updRegion n fun r => { r with st := st, cause := cause }).region n).rcbPa + 0x80)
      (leBytes 8 ((s.updRegion n fun r => { r with st := st, cause := cause }).region n).w80))
  exact ⟨h1, h2, h3, h4⟩

theorem restateIf_only (s : State) (p : Nat) (f : Region → Bool) (st : RSt) (cause : Nat) :
    OnlyRegions s (s.restateIf p f st cause) := by
  refine List.foldlRecOn (motive := OnlyRegions s) _ _ ⟨rfl, rfl, rfl, rfl⟩ fun u hu g _ => ?_
  split
  · obtain ⟨h1, h2, h3, h4⟩ := setRSt_only u g.1 st cause
    exact ⟨h1.trans hu.tick, h2.trans hu.parts, h3.trans hu.cores, h4.trans hu.agenda⟩
  · exact hu

/-! #### The delivery of a halt (R446 to R448, R452) -/

/-- The context of a partition whose halt is delivered stands still. -/
def haltFrozen (s : State) (p : Nat) : State :=
  let u := (if (s.part p).st == .halting then s.freezeClock p else s).updPart p fun q =>
    { q with st := .halted, out := (s.part p).st == .swapped }
  { u.freezeEvents p with recs := u.recs.filter fun d => !(d.part == p && d.kind == RKind.resume) }

/-- Its regions are HALTED, with a cause. -/
def haltRestated (s : State) (p code : Nat) : State :=
  ((haltFrozen s p).restate p .running .halted code).restateIf p (fun g => g.st == .queued && g.chunkErr) .halted code

theorem haltDelivery_eq {s : State} {p : Nat} (hst : (s.part p).st = .halting ∨ (s.part p).st = .swapped)
    (hat : (s.part p).haltAt ≤ s.tick) : ∃ (code : Nat) (f : Part → Part) (rs : List StopRec),
      (∀ q, (f q).st = q.st ∧ (f q).out = q.out) ∧
      exec (.haltDelivery p) s = .next ((rs.foldl State.sendStop ((haltRestated s p code).updPart p f)).kick) := by
  show ∃ (code : Nat) (f : Part → Part) (rs : List StopRec), _ ∧ execHaltDelivery p s = _
  unfold execHaltDelivery
  have hno : ¬ s.tick < (s.part p).haltAt := by omega
  dsimp only
  split
  next h => rcases hst with hst | hst <;> exact absurd (hst.symm.trans h) nofun
  next h => rcases hst with hst | hst <;> exact absurd (hst.symm.trans h) nofun
  all_goals
    refine ⟨_, _, _, ?_, (if_neg hno).trans rfl⟩
    exact fun q => ⟨rfl, rfl⟩

theorem sendStop_steady (s : State) (r : StopRec) : Steady s (s.sendStop r) := by
  unfold State.sendStop
  dsimp only
  split <;> exact ⟨rfl, rfl, rfl, rfl⟩

theorem sendStop_cores (s : State) (r : StopRec) : (s.sendStop r).cores = s.cores ∧ (s.sendStop r).regions = s.regions := by
  unfold State.sendStop
  dsimp only
  split <;> exact ⟨rfl, rfl⟩

theorem freezeEvents_part (s : State) (p : Nat) : ∃ evs, (s.freezeEvents p).part p = { s.part p with frozen := evs } := by
  unfold State.freezeEvents
  dsimp only
  rw [State.part_updPart_same]
  exact ⟨_, rfl⟩

/-- A halted context's partition, and whether it was swapped out. -/
theorem haltFrozen_part (s : State) (p : Nat) :
    ((haltFrozen s p).part p).st = .halted ∧ ((haltFrozen s p).part p).out = ((s.part p).st == .swapped) := by
  let u := (if (s.part p).st == .halting then s.freezeClock p else s).updPart p fun q =>
    { q with st := .halted, out := (s.part p).st == .swapped }
  obtain ⟨evs, hevs⟩ := freezeEvents_part u p
  have hu : (haltFrozen s p).part p = { u.part p with frozen := evs } := hevs
  rw [hu, show u.part p = _ from State.part_updPart_same _ p _]
  exact ⟨rfl, rfl⟩

/-- A clock that stands still stops the step counts of its live regions. -/
theorem freezeClock_regions (s : State) (p : Nat) : ∃ f : Nat × Region → Nat × Region, (s.freezeClock p).regions = s.regions.map f ∧
    (∀ x, (f x).1 = x.1) ∧ (∀ r, (f (r, {})).2 = {}) ∧ ∀ x, ∃ pace, (f x).2 = { x.2 with pace := pace } := by
  let w := (s.placesOf p).foldl (fun s l => s.updCtx l fun c => { c with frozen := some (c.now s.tick) }) s
  have hw : w.regions = s.regions := foldl_regions (fun u l => by
    obtain ⟨cs, h⟩ := u.updCtx_eq l fun c => { c with frozen := some (c.now u.tick) }
    rw [h]) _ _
  let f (e : Nat × Region) : Nat × Region := if e.2.part == p && e.2.alive then
    (e.1, { e.2 with pace := e.2.pace.map fun x => { x with held := some (x.elapsed w.tick) } }) else e
  refine ⟨f, (show w.regions.map f = s.regions.map f by rw [hw]), fun x => ?_, fun r => ?_, fun x => ?_⟩
  all_goals
    simp only [f]
    split
  · rfl
  · rfl
  · rfl
  · rfl
  · exact ⟨_, rfl⟩
  · exact ⟨x.2.pace, rfl⟩

theorem freezeClock_region (s : State) (p r : Nat) : ∃ pace, (s.freezeClock p).region r = { s.region r with pace := pace } := by
  obtain ⟨f, hf, hkey, hd, hpace⟩ := freezeClock_regions s p
  obtain ⟨pace, h⟩ := hpace (r, s.region r)
  exact ⟨pace, by rw [State.region, hf, Tbl.get_map {} f hkey r (hd r), ← h, State.region]⟩

/-- A halted context's regions, as its halt finds them. -/
theorem haltFrozen_region (s : State) (p r : Nat) : ∃ pace, (haltFrozen s p).region r = { s.region r with pace := pace } := by
  have hregions : (haltFrozen s p).region r = (if (s.part p).st == .halting then s.freezeClock p else s).region r := rfl
  rw [hregions]
  split
  · exact freezeClock_region s p r
  · exact ⟨(s.region r).pace, rfl⟩

/-- No event of a halted context stays on the agenda. -/
theorem haltFrozen_agenda (s : State) (p : Nat) : ∀ e ∈ (haltFrozen s p).agenda, s.evPart e.2 ≠ some p := by
  let u := (if (s.part p).st == .halting then s.freezeClock p else s).updPart p fun q =>
    { q with st := .halted, out := (s.part p).st == .swapped }
  intro e he hpart
  have hev : u.evPart e.2 = some p := by
    rw [← hpart]
    refine evPart_congr (fun r => ?_) e.2
    obtain ⟨pace, h⟩ := haltFrozen_region s p r
    exact (congrArg Region.part h :)
  have hfrozen : u.evFrozen (e.1 - u.tick) e.2 = true := by
    unfold State.evFrozen
    rw [hev]
    dsimp only
    rw [show u.part p = _ from State.part_updPart_same _ p _]
  have hkeep := (List.mem_filter.mp (show e ∈ u.agenda.filter fun e => !(u.evPart e.2 == some p && u.evFrozen (e.1 - u.tick) e.2)
    from he)).2
  rw [hev, hfrozen] at hkeep
  simp at hkeep

theorem haltRestated_only (s : State) (p code : Nat) : OnlyRegions (haltFrozen s p) (haltRestated s p code) := by
  have h1 := restateIf_only (haltFrozen s p) p (·.st == .running) .halted code
  have h2 := restateIf_only ((haltFrozen s p).restate p .running .halted code) p (fun g => g.st == .queued && g.chunkErr) .halted code
  exact ⟨h2.tick.trans h1.tick, h2.parts.trans h1.parts, h2.cores.trans h1.cores, h2.agenda.trans h1.agenda⟩

/-- What the halt's delivery leaves beside the records that it sends. -/
structure HaltDone (s : State) (p code : Nat) (t : State) : Prop where
  tick : t.tick = (haltFrozen s p).tick
  st : (t.part p).st = .halted
  out : (t.part p).out = ((s.part p).st == .swapped)
  cores : t.cores = (haltFrozen s p).cores
  regions : t.regions = (haltRestated s p code).regions
  agenda : AddsOwnerless (haltFrozen s p) t

theorem haltDelivery_done {s : State} {p : Nat} (hst : (s.part p).st = .halting ∨ (s.part p).st = .swapped)
    (hat : (s.part p).haltAt ≤ s.tick) : ∃ (code : Nat) (t : State), exec (.haltDelivery p) s = .next t ∧ HaltDone s p code t := by
  obtain ⟨code, f, rs, hf, hexec⟩ := haltDelivery_eq hst hat
  let u := (haltRestated s p code).updPart p f
  let v := rs.foldl State.sendStop u
  have honly := haltRestated_only s p code
  have hv : Steady u v := Steady.foldl sendStop_steady rs u
  have hvk : Steady u v.kick := hv.trans (kick_steady v)
  have hcores : v.cores = u.cores ∧ v.regions = u.regions :=
    List.foldlRecOn (motive := fun w : State => w.cores = u.cores ∧ w.regions = u.regions) rs _ ⟨rfl, rfl⟩ fun w hw r _ =>
      ⟨(sendStop_cores w r).1.trans hw.1, (sendStop_cores w r).2.trans hw.2⟩
  obtain ⟨ag, hkick⟩ := kick_eq v
  have hpart : v.kick.part p = f ((haltFrozen s p).part p) := by
    rw [hvk.part, show u.part p = _ from State.part_updPart_same _ p f, State.part, honly.parts, State.part]
  obtain ⟨hst', hout⟩ := haltFrozen_part s p
  refine ⟨code, v.kick, hexec, hvk.tick.trans honly.tick, ?_, ?_, ?_, ?_, ?_⟩
  · rw [hpart, (hf _).1, hst']
  · rw [hpart, (hf _).2, hout]
  · rw [hkick]
    exact hcores.1.trans honly.cores
  · rw [hkick]
    exact hcores.2
  · have hadds : AddsOwnerless u v.kick := (AddsOwnerless.foldl sendStop_ownerless rs u).trans (kick_ownerless v)
    intro x hx
    refine (hadds x hx).imp (fun h => ?_) id
    rw [← honly.agenda]
    exact h

theorem haltDelivery_freezes {s : State} {p : Nat} (hst : (s.part p).st = .halting) (hat : (s.part p).haltAt ≤ s.tick) :
    ∃ t : State, exec (.haltDelivery p) s = .next t ∧ (t.part p).st = .halted ∧ t.tick = s.tick ∧
      (∀ l, l.part = p → s.inFg l = true → (t.ctx l).frozen = some ((s.ctx l).now s.tick) ∧
        (t.ctx l).s = (s.ctx l).s ∧ (t.ctx l).q = (s.ctx l).q ∧ (t.ctx l).pc = (s.ctx l).pc) ∧
      (∀ e ∈ t.agenda, s.evPart e.2 ≠ some p) := by
  obtain ⟨code, t, hexec, hdone⟩ := haltDelivery_done (.inl hst) hat
  have hclock : (haltFrozen s p).cores = (s.freezeClock p).cores ∧ (haltFrozen s p).tick = (s.freezeClock p).tick := by
    unfold haltFrozen
    rw [hst]
    exact ⟨rfl, rfl⟩
  refine ⟨t, hexec, hdone.st, ?_, fun l hl hfg => ?_, fun e he hpart => ?_⟩
  · rw [hdone.tick, hclock.2, (freezeClock_steady s p).tick]
  · subst hl
    have hctx : t.ctx l = (s.ctx l).stopClock s.tick :=
      (State.ctx_congr _ t l (hdone.cores.trans hclock.1)).trans (freezeClock_ctx hfg).2
    rw [hctx]
    exact ⟨rfl, rfl, rfl, rfl⟩
  · rcases hdone.agenda e he with h | h
    · exact haltFrozen_agenda s p e h hpart
    · exact absurd ((h s).symm.trans hpart) nofun

/-! #### A table that holds a key once -/

/-- A table finds a value under a key, and holds no other entry of that key. -/
inductive Found {α : Type} (n : Nat) (v : α) : Tbl α → Prop where
  | here {t : Tbl α} (h : ∀ e ∈ t, e.1 ≠ n) : Found n v ((n, v) :: t)
  | there {t : Tbl α} {e : Nat × α} (hlt : e.1 < n) (h : Found n v t) : Found n v (e :: t)

section Found

variable {α : Type} {n : Nat} {v : α} {t : Tbl α}

theorem found_of_has (d : α) (hnd : (t.map (·.1)).Nodup) (h : Tbl.has t n = true) : Found n (Tbl.get d t n) t := by
  induction t with
  | nil => exact absurd h nofun
  | cons e t ih =>
    obtain ⟨k, w⟩ := e
    rw [List.map_cons, List.nodup_cons] at hnd
    unfold Tbl.has at h
    unfold Tbl.get
    by_cases hlt : n < k
    · rw [if_pos hlt] at h
      exact absurd h nofun
    · rw [if_neg hlt] at h ⊢
      by_cases heq : n = k
      · rw [if_pos heq]
        subst heq
        exact .here fun e he hne => hnd.1 (List.mem_map.mpr ⟨e, he, hne⟩)
      · rw [if_neg heq] at h ⊢
        exact .there (by dsimp only; omega) (ih hnd.2 h)

theorem Found.get (h : Found n v t) (d : α) : Tbl.get d t n = v := by
  induction h with
  | here h => simp [Tbl.get]
  | there hlt h ih =>
    unfold Tbl.get
    rw [if_neg (by omega), if_neg (by omega)]
    exact ih

theorem Found.entry (h : Found n v t) : ∀ e ∈ t, e.1 = n → e.2 = v := by
  induction h with
  | here h =>
    intro e he hn
    rcases List.mem_cons.mp he with rfl | he
    · rfl
    · exact absurd hn (h e he)
  | there hlt h ih =>
    intro e he hn
    rcases List.mem_cons.mp he with rfl | he
    · omega
    · exact ih e he hn

theorem Found.mem (h : Found n v t) : (n, v) ∈ t := by
  induction h with
  | here h => exact List.mem_cons_self
  | there hlt h ih => exact List.mem_cons_of_mem _ ih

theorem Found.map (h : Found n v t) {f : Nat × α → Nat × α} (hkey : ∀ x, (f x).1 = x.1) : Found n (f (n, v)).2 (t.map f) := by
  induction h with
  | @here t h =>
    have heq : f (n, v) = (n, (f (n, v)).2) := Prod.ext (hkey _) rfl
    rw [List.map_cons, heq]
    refine .here fun e he => ?_
    obtain ⟨x, hx, rfl⟩ := List.mem_map.mp he
    rw [hkey]
    exact h x hx
  | there hlt h ih => exact .there (by rw [hkey]; exact hlt) ih

theorem Found.put_same (h : Found n v t) (x : α) : Found n x (Tbl.put t n x) := by
  induction h with
  | here h =>
    unfold Tbl.put
    rw [if_neg (by omega), if_pos rfl]
    exact .here h
  | @there t e hlt h ih =>
    unfold Tbl.put
    rw [if_neg (by omega), if_neg (by omega)]
    exact .there hlt ih

theorem Found.put_other (h : Found n v t) {m : Nat} (hne : m ≠ n) (x : α) : Found n v (Tbl.put t m x) := by
  have hput (t : Tbl α) (hno : ∀ e ∈ t, e.1 ≠ n) : ∀ e ∈ Tbl.put t m x, e.1 ≠ n := by
    induction t with
    | nil => exact fun e he => by rw [List.mem_singleton.mp he]; exact hne
    | cons a t ih =>
      intro e he
      unfold Tbl.put at he
      split at he
      · rcases List.mem_cons.mp he with rfl | he
        · exact hne
        · exact hno e he
      · split at he
        · rcases List.mem_cons.mp he with rfl | he
          · exact hne
          · exact hno e (List.mem_cons_of_mem _ he)
        · rcases List.mem_cons.mp he with rfl | he
          · exact hno _ List.mem_cons_self
          · exact ih (fun e he => hno e (List.mem_cons_of_mem _ he)) e he
  induction h with
  | here h =>
    unfold Tbl.put
    by_cases hlt : m < n
    · rw [if_pos hlt]
      exact .there hlt (.here h)
    · rw [if_neg hlt, if_neg hne]
      exact .here (hput _ h)
  | @there t e hlt h ih =>
    unfold Tbl.put
    split
    · exact .there (by dsimp only; omega) (.there hlt h)
    · split
      · exact .there (by dsimp only; omega) h
      · exact .there hlt ih

end Found

/-! #### The regions of a halted context (R33, R447) -/

theorem setRSt_regions (s : State) (n : Nat) (st : RSt) (cause : Nat) :
    (s.setRSt n st cause).regions = Tbl.put s.regions n { s.region n with st := st, cause := cause } := by
  have h (u : State) (bs : List (Nat × Byte)) : (u.devWrite bs).regions = u.regions := by
    unfold State.devWrite
    split
    · rfl
    · split <;> rfl
  exact h _ _

theorem setRSt_found {s : State} {r n : Nat} {g : Region} (st : RSt) (cause : Nat) (h : Found r g s.regions) :
    Found r (if n = r then { g with st := st, cause := cause } else g) (s.setRSt n st cause).regions := by
  rw [setRSt_regions]
  by_cases hn : n = r
  · subst hn
    rw [if_pos rfl, State.region, h.get]
    exact h.put_same _
  · rw [if_neg hn]
    exact h.put_other hn _

/-- Restating the regions of a partition that meet a condition restates the one that the table holds once, where it does. -/
theorem restateIf_found {s : State} {p r : Nat} {f : Region → Bool} {g : Region} (st : RSt) (cause : Nat) (h : Found r g s.regions) :
    Found r (if (g.part == p && f g) = true then { g with st := st, cause := cause } else g) (s.restateIf p f st cause).regions := by
  let step (u : State) (e : Nat × Region) : State := if (e.2.part == p && f e.2) = true then u.setRSt e.1 st cause else u
  have hdone (es : List (Nat × Region)) : ∀ u : State, Found r { g with st := st, cause := cause } u.regions →
      Found r { g with st := st, cause := cause } (es.foldl step u).regions := fun u hu =>
    List.foldlRecOn (motive := fun w : State => Found r { g with st := st, cause := cause } w.regions) es step hu fun w hw e _ => by
      simp only [step]
      split
      · have := setRSt_found (n := e.1) st cause hw
        rwa [ite_self] at this
      · exact hw
  have hfold (es : List (Nat × Region)) : ∀ u : State, (∀ e ∈ es, e.1 = r → e.2 = g) → Found r g u.regions →
      ((g.part == p && f g) = true → (∃ e ∈ es, e.1 = r) → Found r { g with st := st, cause := cause } (es.foldl step u).regions) ∧
      (¬ (g.part == p && f g) = true → Found r g (es.foldl step u).regions) := by
    induction es with
    | nil => exact fun u _ hu => ⟨fun _ ⟨_, he, _⟩ => absurd he List.not_mem_nil, fun _ => hu⟩
    | cons e es ih =>
      intro u hes hu
      have hes' : ∀ x ∈ es, x.1 = r → x.2 = g := fun x hx => hes x (List.mem_cons_of_mem _ hx)
      by_cases he : e.1 = r
      · have heg : e.2 = g := hes e List.mem_cons_self he
        refine ⟨fun hc _ => ?_, fun hc => ?_⟩
        · refine hdone es _ ?_
          simp only [step, heg, hc, if_true]
          have := setRSt_found (n := e.1) st cause hu
          rwa [if_pos he] at this
        · refine (ih _ hes' ?_).2 hc
          simp only [step, heg]
          rwa [if_neg hc]
      · have hstep : Found r g (step u e).regions := by
          simp only [step]
          split
          · have := setRSt_found (n := e.1) st cause hu
            rwa [if_neg he] at this
          · exact hu
        obtain ⟨h1, h2⟩ := ih _ hes' hstep
        exact ⟨fun hc ⟨x, hx, hxr⟩ => h1 hc ⟨x, (List.mem_cons.mp hx).resolve_left fun heq => he (heq ▸ hxr), hxr⟩, h2⟩
  obtain ⟨h1, h2⟩ := hfold s.regions s h.entry h
  split
  next hc => exact h1 hc ⟨_, h.mem, rfl⟩
  next hc => exact h2 hc

/-- A region that the table holds once, as the halt finds it. -/
theorem haltFrozen_found {s : State} {r : Nat} (p : Nat) (h : Found r (s.region r) s.regions) :
    ∃ pace, Found r { s.region r with pace := pace } (haltFrozen s p).regions := by
  obtain ⟨f, hf, hkey, -, hpace⟩ := freezeClock_regions s p
  have hregions : (haltFrozen s p).regions = (if (s.part p).st == .halting then s.freezeClock p else s).regions := rfl
  rw [hregions]
  split
  · obtain ⟨pace, hg⟩ := hpace (r, s.region r)
    rw [hf]
    exact ⟨pace, hg ▸ h.map hkey⟩
  · exact ⟨(s.region r).pace, h⟩

theorem haltDelivery_regions {s : State} {p : Nat} (hst : (s.part p).st = .halting ∨ (s.part p).st = .swapped)
    (hat : (s.part p).haltAt ≤ s.tick) (hnd : (s.regions.map (·.1)).Nodup) :
    ∃ t : State, exec (.haltDelivery p) s = .next t ∧ ((t.part p).out = true ↔ (s.part p).st = .swapped) ∧
      ∀ r, Tbl.has s.regions r = true → (s.region r).part = p → let g := s.region r
        (g.st = .running → (t.region r).st = .halted) ∧
        (g.st = .queued → g.chunkErr = true → (t.region r).st = .halted) ∧
        (g.st = .queued → g.chunkErr = false → (t.region r).st = .queued) := by
  obtain ⟨code, t, hexec, hdone⟩ := haltDelivery_done hst hat
  refine ⟨t, hexec, by rw [hdone.out, beq_iff_eq], fun r hhas hpart => ?_⟩
  have hsole : Found r (s.region r) s.regions := found_of_has ({} : Region) hnd hhas
  obtain ⟨pace, hfound⟩ := haltFrozen_found p hsole
  have h1 := restateIf_found (p := p) (f := (·.st == .running)) .halted code hfound
  have h2 := restateIf_found (p := p) (f := fun g => g.st == .queued && g.chunkErr) .halted code h1
  intro g
  rw [show t.region r = Tbl.get {} t.regions r from rfl, hdone.regions, haltRestated, State.restate, h2.get]
  refine ⟨fun h => ?_, fun h herr => ?_, fun h herr => ?_⟩
  · simp [show (s.region r).st = .running from h, hpart]
  · simp [show (s.region r).st = .queued from h, hpart, show (s.region r).chunkErr = true from herr]
  · simp [show (s.region r).st = .queued from h, hpart, show (s.region r).chunkErr = false from herr]

theorem haltDelivery_idle {s : State} {p : Nat} (h : (s.part p).st = .active ∨ (s.part p).st = .halted) :
    exec (.haltDelivery p) s = .next s := by
  show execHaltDelivery p s = _
  unfold execHaltDelivery
  dsimp only
  split
  · rfl
  · rfl
  all_goals next hst => rcases h with h | h <;> exact absurd (h.symm.trans hst) nofun

theorem haltDelivery_early {s : State} {p : Nat} (hst : (s.part p).st = .halting) (h : s.tick < (s.part p).haltAt) :
    exec (.haltDelivery p) s = .next s := by
  show execHaltDelivery p s = _
  unfold execHaltDelivery
  dsimp only
  split
  next h => exact absurd (hst.symm.trans h) nofun
  next h => exact absurd (hst.symm.trans h) nofun
  all_goals exact if_pos h

/-- Settles O54: a precise trap leaves its word as it was, and a halt's delivery freezes the context and halts its regions. -/
theorem trapsAndHalts : Obligations.TrapsAndHalts :=
  ⟨fun _ _ _ code detail => trapWord_traps code detail, fun _ _ => ⟨haltDelivery_idle, haltDelivery_early, haltDelivery_freezes,
    haltDelivery_regions, fun _ _ hl => hl ▸ thaw_ctx⟩⟩

end Sys2Proof.Machine

/-! ### What the management controller does: retirement, resumption, ends, recovery (R449, R450, R474 to R486) -/

namespace Sys2Proof.Machine

open Claim

/-! #### Regions and partitions end or go on (R449, R474, R477) -/

theorem regionRetire_later {s : State} {r : Nat} (h : s.canRetire r = false) : exec (.regionRetire r) s = .next s :=
  if_pos (by rw [h]; rfl)

theorem regionRetire_again {s : State} {r : Nat} (h : s.canRetire r = true) (hret : (s.region r).retiring ≠ 0) :
    (s.allPerformed r = true → exec (.regionRetire r) s = .next (s.endAs r .retired 0 true)) ∧
      (s.allPerformed r = false → exec (.regionRetire r) s = .next s) := by
  have hexec : exec (.regionRetire r) s = if s.allPerformed r = true then .next (s.endAs r .retired 0 true) else .next s := by
    show execRegionRetire r s = _
    unfold execRegionRetire
    refine (if_neg (by rw [h]; nofun)).trans ?_
    rw [if_neg (show ¬ ((s.region r).retiring == 0) = true by simpa using hret)]
    rfl
  rw [hexec]
  exact ⟨fun h => if_pos h, fun h => if_neg (by rw [h]; nofun)⟩

section Halted

variable {s : State} {p : Nat}

theorem resume_stands (hst : (s.part p).st = .halted) (hout : (s.part p).out = false) : exec (.resume p) s = .next (s.goOn p) := by
  refine congrArg Host.Outcome.next ?_
  unfold State.resumePart
  exact (if_neg (by rw [hst]; nofun)).trans (if_neg (by rw [hout]; nofun))

theorem resume_swapped (hst : (s.part p).st = .halted) (hout : (s.part p).out = true) : exec (.resume p) s = .next
    (((s.updPart p fun q => { q with st := .swapped, out := false, haltAt := 0 }).resumeRec p).kick) := by
  refine congrArg Host.Outcome.next ?_
  unfold State.resumePart
  exact (if_neg (by rw [hst]; nofun)).trans (if_pos hout)

theorem resume_end_off (hst : (s.part p).st ≠ .halted) : exec (.resume p) s = .next s ∧ exec (.endPartition p) s = .next s := by
  have hne : ((s.part p).st != .halted) = true := bne_iff_ne.mpr hst
  exact ⟨congrArg Host.Outcome.next (if_pos hne), if_pos hne⟩

theorem endPartition_ends (hst : (s.part p).st = .halted) :
    exec (.endPartition p) s = .next (s.endPart p (s.part p).code true) := if_neg (by rw [hst]; nofun)

theorem endRegion_cases {r : Nat} (hp : (s.region r).part = p) (hst : (s.part p).st = .halted) (halive : (s.region r).alive = true) :
    ((s.region r).parent = 0 → exec (.endRegion r) s = .next (s.endPart p (s.part p).code true)) ∧
      ((s.region r).parent ≠ 0 → exec (.endRegion r) s = .next ((s.endFamily r (s.part p).code true).resumePart p)) := by
  subst hp
  have hgo : ¬ ((s.part (s.region r).part).st != .halted || !(s.region r).alive) = true := by
    rw [hst, halive]
    nofun
  exact ⟨fun h => (if_neg hgo).trans (if_pos (by simpa using h)), fun h => (if_neg hgo).trans (if_neg (by simpa using h))⟩

theorem debugAccess_writes (l : Loc) (w : Wr) (hdbg : s.dv.cfg.dbg = true) (hst : (s.part l.part).st = .halted) :
    exec (.debugAccess l (.write w)) s = .next (s.updCtx l fun c => c.put w) := if_pos (by rw [hdbg, hst]; rfl)

theorem debugAccess_off (l : Loc) (op : DebugOp) (hdbg : s.dv.cfg.dbg = false) : exec (.debugAccess l op) s = .next s :=
  if_neg (by rw [hdbg]; nofun)

theorem allAsleep_traps (hst : (s.part p).st = .active) :
    exec (.allAsleep p) s = .next (s.trapPart p (s.partStop p 7 0x11 0xFFF)) := if_pos (by rw [hst]; rfl)

theorem allAsleep_off (hst : (s.part p).st ≠ .active) : exec (.allAsleep p) s = .next s := if_neg (by simpa using hst)

end Halted

/-! #### Recovery (R483 to R486) -/

theorem haltQuiet_active {s : State} {p : Nat} (hst : (s.part p).st = .active) :
    ((s.haltQuiet p).part p).st = .halting ∧ (s.tick + 24, .haltDelivery p) ∈ (s.haltQuiet p).agenda := by
  have h : s.haltQuiet p = s.raiseHalt p (s.tick, 0xFFFF, 0xF, 0) := by
    unfold State.haltQuiet State.haltWith
    rw [hst]
  obtain ⟨-, -, -, -, hhalt, -, hag⟩ := s.raiseHalt_active p (s.tick, 0xFFFF, 0xF, 0) hst
  rw [h, hag]
  exact ⟨hhalt, (mem_insEv _ _ _ _).mpr (.inl rfl)⟩

theorem recoveryNotify_halts {s : State} {p : Nat} (gen : Nat) (hhas : Tbl.has s.parts p = true) (hst : (s.part p).st = .active) :
    ∃ t : State, exec (.recoveryNotify p gen) s = .next t ∧
      (t.part p).st = .halting ∧ (t.part p).gen = some gen ∧ (s.tick + 24, .haltDelivery p) ∈ t.agenda ∧
      (∃ n, s.tick < n ∧ (n, .restore ⟨p, none⟩) ∈ t.agenda) ∧ t.mem = s.mem := by
  obtain ⟨hhalt, hag⟩ := haltQuiet_active hst
  obtain ⟨htick, -, hmem, -⟩ := haltQuiet_frame s p
  let u := (s.haltQuiet p).updPart p fun q => { q with gen := some gen }
  have hpart : u.part p = { (s.haltQuiet p).part p with gen := some gen } := State.part_updPart_same _ p fun q => { q with gen := some gen }
  obtain ⟨w, hw, hnext⟩ := State.mem_schedFree u 25 (.restore ⟨p, none⟩)
  have hutick : u.tick = s.tick := htick
  refine ⟨_, if_pos hhas, ?_, ?_, State.mem_sched_of_mem _ _ _ _ hag, ⟨w, by omega, hnext⟩, hmem⟩
  · exact (congrArg Part.st hpart).trans hhalt
  · exact (congrArg Part.gen hpart :)

theorem restore_waits {s : State} {p : Nat} (hhas : Tbl.has s.parts p = true) (hst : (s.part p).st ≠ .halted) :
    ∃ t : State, exec (.restore ⟨p, none⟩) s = .next t ∧ t.mem = s.mem ∧
      ((s.part p).st = .active → (t.part p).st = .halting ∧ (s.tick + 24, .haltDelivery p) ∈ t.agenda) ∧
      ∃ n, s.tick < n ∧ (n, .restore ⟨p, none⟩) ∈ t.agenda := by
  obtain ⟨htick, -, hmem, -⟩ := haltQuiet_frame s p
  obtain ⟨w, hw, hnext⟩ := State.mem_schedFree (s.haltQuiet p) 25 (.restore ⟨p, none⟩)
  refine ⟨_, (if_neg (by rw [hhas]; nofun)).trans (if_pos (bne_iff_ne.mpr hst)), hmem, fun hact => ?_, w, by omega, hnext⟩
  obtain ⟨hhalt, hag⟩ := haltQuiet_active hact
  exact ⟨hhalt, State.mem_sched_of_mem _ _ _ _ hag⟩

theorem deviceRead_parts (s : State) (dev pa n : Nat) : (s.deviceRead dev pa n).1.parts = s.parts := by
  unfold State.deviceRead
  split <;> rfl

/-- Reading a slot, or its replicas, leaves the partitions as they were. -/
theorem ckptFind_parts (s : State) (d : Nat) (gen : Option Nat) : (s.ckptFind d gen).1.parts = s.parts := by
  unfold State.ckptFind
  split
  · rfl
  · split
    · rfl
    · exact (deviceRead_parts _ _ _ _).trans (deviceRead_parts _ _ _ _)

section Restore

variable {s : State} {p : Nat} (hhas : Tbl.has s.parts p = true) (hst : (s.part p).st = .halted) (hgrp : s.groupOf p = [])
include hhas hst hgrp

/-- What is found for a halted partition of no group decides its restore. -/
theorem restore_found {find : State × Option (List Nat × Option Nat)}
    (hfind : (match (s.part p).ckpt with
      | some d => s.ckptFind d (s.part p).gen
      | none => (s, none)) = find) :
    exec (.restore ⟨p, none⟩) s = match find.2 with
      | none => .next (find.1.endPart p (s.part p).code true)
      | some (w, rep) =>
        let g := s.region (s.part p).root
        match ((find.1.resetPart p).copyBack w rep).relaunchAs { q := g.lqn, cookie := g.cookie, priv := (s.part p).priv } w with
        | .ok t r => .next (t.updPart (t.region r).part fun q => { q with ckpt := (s.part p).ckpt, name := some (s.partName p) })
        | .wait => .next (find.1.schedIn 1 (.restore ⟨p, none⟩))
        | .refused t _ _ => match g.lqn with
          | some q => .next (t.postOwed q 2 cUncorrectable (s.part p).root p g.cookie t.tmNow)
          | none => .next t := by
  subst hfind
  show execRestore ⟨p, none⟩ s = _
  unfold execRestore
  refine (if_neg (by rw [hhas]; nofun)).trans ((if_neg (by rw [hst]; nofun)).trans ?_)
  dsimp only
  rw [hgrp]
  rfl

theorem restore_noCheckpoint (hckpt : (s.part p).ckpt = none) :
    exec (.restore ⟨p, none⟩) s = .next (s.endPart p (s.part p).code true) :=
  restore_found hhas hst hgrp (find := (s, none)) (by rw [hckpt])

theorem restore_noSlot {d : Nat} {u : State} (hckpt : (s.part p).ckpt = some d) (hfind : s.ckptFind d (s.part p).gen = (u, none)) :
    exec (.restore ⟨p, none⟩) s = .next (u.endPart p (u.part p).code true) := by
  have hpart : u.part p = s.part p := by
    have h := ckptFind_parts s d (s.part p).gen
    rw [hfind] at h
    rw [State.part, h, State.part]
  rw [hpart]
  exact restore_found hhas hst hgrp (find := (u, none)) (by rw [hckpt]; exact hfind)

theorem restore_relaunches {d : Nat} {u : State} {w : List Nat} {rep : Option Nat} (hckpt : (s.part p).ckpt = some d)
    (hfind : s.ckptFind d (s.part p).gen = (u, some (w, rep))) :
    let x := (counted ((u.resetPart p).copyBack w rep)).tryLaunch
      { q := (s.region (s.part p).root).lqn, cookie := (s.region (s.part p).root).cookie, priv := (s.part p).priv } ⟨0, 0⟩
      (ckptWord w 0x10 % 2 ^ 48) (ckptWord w 0x10 % 2 ^ 48)
    ∀ t n, x = .ok t n → exec (.restore ⟨p, none⟩) s = .next
      (t.updPart (t.region n).part fun q => { q with ckpt := some d, name := some (s.partName p) }) := by
  intro x t n hx
  have hlaunch : ((u.resetPart p).copyBack w rep).relaunchAs { q := (s.region (s.part p).root).lqn
                                                               cookie := (s.region (s.part p).root).cookie
                                                               priv := (s.part p).priv } w = .ok t n := by
    unfold State.relaunchAs State.relaunch
    simp only [x, counted] at hx
    rw [hx]
  refine (restore_found hhas hst hgrp (find := (u, some (w, rep))) (by rw [hckpt]; exact hfind)).trans ?_
  dsimp only
  rw [hlaunch, hckpt]

end Restore

/-! #### The relaunch (R485) -/

theorem relaunch_cases {s t : State} {who : Launcher} {a : Nat} {alts : List Nat} {w : Bool}
    (h : s.tryLaunch who ⟨0, 0⟩ a a = .refused t 0x04 w) :
    let harv := (effOf ((List.range 16).map fun i => s.mem.nat (a + 8 * i) 8)).tilesOf.any s.harvested
    (harv = true → s.relaunch who a alts = t.relaunchAlt who alts) ∧ (harv = false → s.relaunch who a alts = .refused t 0x04 w) ∧
      (∀ b rest t' c w', s.tryLaunch who ⟨0, 0⟩ b b = .refused t' c w' →
        s.relaunchAlt who (b :: rest) = t'.relaunchAlt who rest) ∧
      ∀ b rest t' n, s.tryLaunch who ⟨0, 0⟩ b b = .ok t' n → s.relaunchAlt who (b :: rest) = .ok t' n := by
  intro harv
  have hexec : s.relaunch who a alts = if harv = true then t.relaunchAlt who alts else .refused t 0x04 w := by
    unfold State.relaunch
    rw [h]
    rfl
  refine ⟨fun hharv => hexec.trans (if_pos hharv), fun hharv => hexec.trans (if_neg (by rw [hharv]; nofun)),
    fun b rest t' c w' hb => ?_, fun b rest t' n hb => ?_⟩
  · rw [State.relaunchAlt, hb]
  · rw [State.relaunchAlt, hb]

/-! #### Slots (R483) -/

theorem ckptFind_local {s : State} {d : Nat} {gen : Option Nat} {w : List Nat}
    (hpick : pickSlot gen (s.slotWords d) (s.slotWords (d + 256)) = some w) (hread : s.readable d 512 = true)
    (hgood : s.localGood w = true) : s.ckptFind d gen = (s, some (w, none)) := by
  unfold State.ckptFind
  rw [hpick]
  exact if_pos (by rw [hread, hgood]; rfl)

theorem pickSlot_cases (n : Nat) (a b : List Nat) : (n ≠ 0 → ckptWord a 0 = n → pickSlot (some n) a b = some a) ∧
    (n ≠ 0 → ckptWord a 0 ≠ n → ckptWord b 0 = n → pickSlot (some n) a b = some b) ∧
    (ckptWord a 0 ≠ n → ckptWord b 0 ≠ n → pickSlot (some n) a b = none) ∧
    (ckptWord b 0 < ckptWord a 0 → pickSlot none a b = some a) ∧ (ckptWord a 0 < ckptWord b 0 → pickSlot none a b = some b) := by
  unfold pickSlot
  dsimp only
  refine ⟨fun hn ha => ?_, fun hn ha hb => ?_, fun ha hb => ?_, fun h => ?_, fun h => ?_⟩
  · rw [if_neg hn, if_pos ha]
  · rw [if_neg hn, if_neg ha, if_pos hb]
  · rw [if_neg ha, if_neg hb, ite_self]
  · rw [if_neg (by omega), if_pos h]
  · rw [if_neg (by omega), if_neg (by omega)]

/-- Settles O55: a region retires or ends, a context goes on, and a partition is restored from its checkpoint. -/
theorem controllerEvents : Obligations.ControllerEvents :=
  ⟨fun _ _ _ => ⟨regionRetire_later, regionRetire_again, resume_stands, resume_swapped, resume_end_off, endPartition_ends,
      endRegion_cases, debugAccess_writes, debugAccess_off, allAsleep_traps, allAsleep_off⟩,
    fun s p => ⟨recoveryNotify_halts, fun _ h => if_neg (by rw [h]; nofun), fun h => if_pos (by rw [h]; rfl), restore_waits,
      restore_noCheckpoint, fun _ _ hhas hst hgrp => restore_noSlot hhas hst hgrp, fun _ _ _ _ hhas hst hgrp hckpt hfind _ => restore_relaunches hhas hst hgrp hckpt hfind, fun _ _ _ _ _ => relaunch_cases,
      fun _ _ _ => ckptFind_local, pickSlot_cases⟩⟩

end Sys2Proof.Machine

/-! ### Pace: needs, misses, P-state changes and canaries (R201 to R203, R208, R212, R214) -/

namespace Sys2Proof.Machine

open Claim

/-! #### Needs, risk and demand (R208, R209, R211) -/

theorem devWrite_regions (s : State) (bs : List (Nat × Byte)) : (s.devWrite bs).regions = s.regions := by
  unfold State.devWrite
  split
  · rfl
  · split <;> rfl

theorem devWrite_agenda (s : State) (bs : List (Nat × Byte)) : (s.devWrite bs).agenda = s.agenda := by
  unfold State.devWrite
  split
  · rfl
  · split <;> rfl

theorem updCtx_regions (s : State) (l : Loc) (f : Ctx → Ctx) : (s.updCtx l f).regions = s.regions := by
  obtain ⟨cs, h⟩ := s.updCtx_eq l f
  rw [h]

theorem uiPoll_regions (s : State) (l : Loc) : (s.uiPoll l).regions = s.regions := by
  rcases s.uiPoll_cases l with h | h | ⟨ev, ag, -, -, -, h⟩
  · rw [h]
  · rw [h]; rfl
  · rw [h]
    exact updCtx_regions s l fun _ => (s.ctx l).toHandler ev ((s.ctx l).now s.tick)

theorem uiRaise_regions (s : State) (l : Loc) (code payload : Nat) : (s.uiRaise l code payload).regions = s.regions :=
  (uiPoll_regions _ l).trans (updCtx_regions s l _)

theorem raiseRisk_pace (s : State) (r : Nat) : ((s.raiseRisk r).region r).pace = (s.region r).pace := by
  have hstep (u v : State) (h : v.regions = (u.updRegion r fun g => { g with risk := true }).regions) :
      (v.region r).pace = (u.region r).pace := by
    calc (v.region r).pace
        = ((u.updRegion r fun g => { g with risk := true }).region r).pace := by rw [State.region, h]; rfl
      _ = (u.region r).pace := by rw [State.region_updRegion_same]
  unfold State.raiseRisk
  dsimp only
  split
  · exact hstep s _ ((uiRaise_regions _ _ _ _).trans (devWrite_regions _ _))
  · exact hstep s _ (devWrite_regions _ _)

theorem paceEntry_need {s : State} {r : Nat} {p : PaceEnt} {dl b : Nat} (hp : (s.region r).pace = some p) (hdl : p.dl = some dl)
    (hb : p.budget = some b) :
    ∃ q, ((s.paceEntry r).region r).pace = some q ∧ q.need = some (needFor ((b : Int) - (p.elapsed s.tick : Int))
      (((dl : Int) - ((s.region r).eff.dlguard : Int)) * 65536 - ((s.tmNow * 65536 + s.tmFrac : Nat) : Int))) := by
  unfold State.paceEntry
  simp only [hp, hdl, hb]
  split
  · rw [raiseRisk_pace, State.region_updRegion_same]
    exact ⟨_, rfl, rfl⟩
  · rw [State.region_updRegion_same]
    exact ⟨_, rfl, rfl⟩

theorem find?_reverse_range {f : Nat → Bool} {n q : Nat} (hq : q < n) (hf : f q = true) :
    ∃ p, (List.range n).reverse.find? f = some p ∧ q ≤ p := by
  induction n with
  | zero => exact absurd hq (Nat.not_lt_zero q)
  | succ n ih =>
    rw [List.range_succ, List.reverse_append, List.reverse_singleton, List.singleton_append, List.find?_cons]
    split
    · exact ⟨n, rfl, Nat.le_of_lt_succ hq⟩
    · next hn =>
      have hne : q ≠ n := fun h => by simp [← h, hf] at hn
      exact ih (by omega)

/-- The slowest P-state that fits is looked for from P7 on: those slower than what is found do not fit. -/
theorem needFor_slowest {rest avail : Int} (hrest : 0 < rest) :
    (needFor rest avail = 0 ∨ fits rest avail (needFor rest avail) = true) ∧
      ∀ q, needFor rest avail < q → q ≤ 7 → fits rest avail q = false := by
  rw [needFor, if_neg (by omega)]
  constructor
  · cases hfind : (List.range 8).reverse.find? (fits rest avail) with
    | none => exact .inl rfl
    | some p => exact .inr (List.find?_some hfind)
  · intro q hq hq7
    refine Decidable.byContradiction fun hfit => ?_
    obtain ⟨p, hfind, hqp⟩ := find?_reverse_range (n := 8) (by omega) (Bool.not_eq_false _ ▸ hfit)
    rw [hfind] at hq
    exact absurd hqp (Nat.not_le.mpr hq)

theorem demand_le (s : State) : s.demand ≤ 7 ∧ ∀ e ∈ s.regions, ∀ n, e.2.adds = some n → s.demand ≤ n := by
  have hmin (ns : List Nat) (m : Nat) : ns.foldl min m ≤ m ∧ ∀ n ∈ ns, ns.foldl min m ≤ n := by
    induction ns generalizing m with
    | nil => simp
    | cons x xs ih =>
      obtain ⟨hm, hxs⟩ := ih (min m x)
      refine ⟨Nat.le_trans hm (Nat.min_le_left m x), ?_⟩
      intro n hn
      rcases List.mem_cons.mp hn with rfl | hn
      · exact Nat.le_trans hm (Nat.min_le_right m n)
      · exact hxs n hn
  unfold State.demand
  refine ⟨(hmin _ 7).1, fun e he n hn => (hmin _ 7).2 n (List.mem_append_left _ ?_)⟩
  exact List.mem_filterMap.mpr ⟨e, he, hn⟩

/-! #### Missed deadlines (R31, R212) -/

theorem deadlineMiss_over {s : State} {r step : Nat} (h : (s.region r).alive = false) : exec (.deadlineMiss r step) s = .next s :=
  if_pos (by rw [h]; rfl)

/-- The region's entry as a missed deadline leaves it. -/
def missedRegion (s : State) (r step : Nat) (g : Region) : Region :=
  { g with
    misses := min 0xFFFF (g.misses + 1)
    pace := g.pace.map fun p => if (s.region r).step == step then { p with missed := true } else p }

/-- The state with the miss counted, in the RCB too. -/
def missCounted (s : State) (r step : Nat) : State := (s.updRegion r (missedRegion s r step)).rcb88 r

theorem missCounted_region (s : State) (r step : Nat) : (missCounted s r step).region r = missedRegion s r step (s.region r) := by
  have hregions : (missCounted s r step).regions = (s.updRegion r (missedRegion s r step)).regions := devWrite_regions _ _
  rw [State.region, hregions]
  exact s.region_updRegion_same r _

theorem deadlineMiss_counts {s : State} {r step : Nat} (halive : (s.region r).alive = true)
    (hmiss : (s.region r).eff.dlmiss = false) : ∃ t : State, exec (.deadlineMiss r step) s = .next t ∧
      (t.region r).misses = min 0xFFFF ((s.region r).misses + 1) ∧ t.cores = s.cores ∧ t.agenda = s.agenda := by
  have hkeep : ¬ ((missCounted s r step).region r).eff.dlmiss = true := by
    rw [missCounted_region]
    exact ne_true_of_eq_false hmiss
  refine ⟨missCounted s r step, ?_, ?_, devWrite_cores _ _, devWrite_agenda _ _⟩
  · exact (if_neg (by rw [halive]; exact Bool.false_ne_true)).trans (if_neg hkeep)
  · rw [missCounted_region]
    rfl

theorem deadlineMiss_ends {s : State} {r step : Nat} (halive : (s.region r).alive = true)
    (hmiss : (s.region r).eff.dlmiss = true) : ∃ u : State, exec (.deadlineMiss r step) s = .next (u.endFamily r 0x12 true) ∧
      (u.region r).misses = min 0xFFFF ((s.region r).misses + 1) := by
  have hend : ((missCounted s r step).region r).eff.dlmiss = true := by
    rw [missCounted_region]
    exact hmiss
  refine ⟨_, (if_neg (by rw [halive]; exact Bool.false_ne_true)).trans (if_pos hend), ?_⟩
  rw [State.region, (sendStop_cores _ _).2]
  exact congrArg Region.misses (missCounted_region s r step)

/-! #### P-state changes (R202, R203) -/

theorem foldl_sched_tick (es : List (Nat × Ev)) (s : State) :
    (es.foldl (fun (u : State) e => u.sched e.1 e.2) s).tick = s.tick ∧
      (es.foldl (fun (u : State) e => u.sched e.1 e.2) s).cores = s.cores ∧
      (es.foldl (fun (u : State) e => u.sched e.1 e.2) s).pnow = s.pnow := by
  induction es generalizing s with
  | nil => exact ⟨rfl, rfl, rfl⟩
  | cons e es ih => exact ih (s.sched e.1 e.2)

theorem retime_keeps (s : State) (old new : Nat) :
    (s.retime old new).tick = s.tick ∧ (s.retime old new).cores = s.cores ∧ (s.retime old new).pnow = s.pnow :=
  foldl_sched_tick _ _

/-- A ramp takes at most 25 µs, in ticks of the P-state in force (R202). -/
theorem rampTicks_le (s : State) : 1 + s.rampTicks ≤ s.ticksOf 25000 := by
  have h : 1 ≤ s.ticksOf 25000 := Nat.le_max_left _ _
  have h' : s.rampTicks ≤ s.ticksOf 25000 - 1 := Nat.min_le_right _ _
  omega

theorem pStateChange_steps {s : State} {p : Nat} (hp : p ≤ 7) : ∃ t : State, exec (.pStateChange p) s = .next t ∧ t.pnow = p ∧
    t.tick = s.tick ∧ t.cores = s.cores ∧
    (p ≤ s.pnow → (s.tick, .railRampDone) ∈ t.agenda) ∧
    (s.pnow < p → ∃ n, s.tick < n ∧ n ≤ s.tick + max 1 ((25000 * 504 + tickUnits p - 1) / tickUnits p) ∧
      (n, .railRampDone) ∈ t.agenda) := by
  have hmin : min 7 p = p := Nat.min_eq_right hp
  by_cases hslower : s.pnow < p
  · obtain ⟨htick, hcores, hpnow⟩ := retime_keeps { s.rampTo p with pnow := min 7 p } (tickUnits s.pnow) (tickUnits p)
    generalize hu : State.retime { s.rampTo p with pnow := min 7 p } (tickUnits s.pnow) (tickUnits p) = u at htick hcores hpnow
    have hrun : exec (.pStateChange p) s = .next (u.schedIn (1 + u.rampTicks) .railRampDone).tookDelay := by
      rw [← hu]
      show execPStateChange p s = _
      unfold execPStateChange
      simp only [if_pos hslower]
      rfl
    have hbound := rampTicks_le u
    rw [State.ticksOf, hpnow, hmin] at hbound
    refine ⟨_, hrun, hpnow.trans hmin, htick, hcores, fun h => absurd h (by omega), fun _ => ⟨u.tick + (1 + u.rampTicks), ?_, ?_, ?_⟩⟩
    · have htick' : u.tick = s.tick := htick
      omega
    · rw [htick]
      exact Nat.add_le_add_left hbound s.tick
    · exact u.mem_sched _ _ (by omega)
  · obtain ⟨htick, hcores, hpnow⟩ := retime_keeps { s with pnow := min 7 p } (tickUnits s.pnow) (tickUnits p)
    generalize hu : State.retime { s with pnow := min 7 p } (tickUnits s.pnow) (tickUnits p) = u at htick hcores hpnow
    have hrun : exec (.pStateChange p) s = .next (u.sched u.tick .railRampDone) := by
      rw [← hu]
      show execPStateChange p s = _
      unfold execPStateChange
      simp only [if_neg hslower]
      rfl
    refine ⟨_, hrun, hpnow.trans hmin, htick, hcores, fun _ => ?_, fun h => absurd h hslower⟩
    have h := u.mem_sched u.tick .railRampDone (Nat.le_refl _)
    rw [htick] at h
    exact htick ▸ h

theorem railRampDone_over {s : State} (h : s.gov.want = none) :
    exec .railRampDone s = .next (updGov s fun g => { g with ramp := none, want := none, band := none }) := by
  show execRailRampDone s = _
  unfold execRailRampDone
  rw [h]
  rfl

theorem railRampDone_goesOn {s : State} {p : Nat} (h : s.gov.want = some p) :
    exec .railRampDone s = .next
      ((updGov s fun g => { g with ramp := none, want := none, band := none }).requestP (max p s.capNow)) := by
  show execRailRampDone s = _
  unfold execRailRampDone
  rw [h]
  rfl

/-! #### Canaries (R214) -/

theorem canaryWindowEnd_off {s : State} {n errors : Nat}
    (h : s.gov.fwok = false ∨ (s.gov.rail n).frz = true ∨ s.pnow ∈ (s.gov.rail n).held) :
    exec (.canaryWindowEnd n errors) s = .next s := by
  refine if_pos ?_
  rcases h with h | h | h <;> simp [h]

/-- What a window does to a rail whose offset may move. -/
theorem canaryWindowEnd_moves {s : State} {n errors o off : Nat} {hold : Bool} (hfw : s.gov.fwok = true)
    (hfrz : (s.gov.rail n).frz = false) (hheld : s.pnow ∉ (s.gov.rail n).held) (ho : Tbl.get 0 (s.gov.rail n).off s.pnow = o)
    (hstep : canaryStep (s.gov.rail n) n s.pnow o errors = (off, hold)) :
    let u := s.updRail n fun r =>
      { r with off := Tbl.set 0 r.off s.pnow off, held := if hold then s.pnow :: r.held else r.held }
    exec (.canaryWindowEnd n errors) s =
      .next (if hold then u.schedIn (u.ticksOf 1000000000) (.canaryHoldExpiry ⟨n, u.pnow⟩) else u) := by
  refine (if_neg ?_).trans ?_
  · simp [hfw, hfrz, hheld]
  · rw [ho, hstep]
    rfl

theorem canaryStep_lowers {r : Rail} {n p o errors : Nat} (herr : errors ≤ r.gthr) (ho : o < 15) (hmv : 400 ≤ railMv n p - 5 * (o + 1)) :
    canaryStep r n p o errors = (o + 1, false) := by
  rw [canaryStep, if_pos herr, if_pos (by simp [ho, hmv])]

theorem canaryStep_stays {r : Rail} {n p o errors : Nat} (herr : errors ≤ r.gthr)
    (h : 15 ≤ o ∨ railMv n p - 5 * (o + 1) < 400) : canaryStep r n p o errors = (o, false) := by
  rw [canaryStep, if_pos herr, if_neg (by simp only [Bool.and_eq_true, decide_eq_true_eq]; omega)]

theorem canaryStep_raises {r : Rail} {n p o errors : Nat} (herr : r.gthr < errors) :
    canaryStep r n p o errors = (o - 2, true) := by
  rw [canaryStep, if_neg (by omega)]

/-- Settles O56: the evaluation, misses, P-state changes and canary windows, case by case. -/
theorem paceEvents : Obligations.PaceEvents := by
  unfold Obligations.PaceEvents
  intro s
  refine ⟨rfl, fun r p dl b hp hdl hb => paceEntry_need hp hdl hb, ?_, demand_le s, fun r step h => deadlineMiss_over h,
    fun r step halive h => deadlineMiss_counts halive h, fun r step halive h => deadlineMiss_ends halive h,
    fun p hp => pStateChange_steps hp, railRampDone_over, fun p h => railRampDone_goesOn h, fun n errors h => canaryWindowEnd_off h,
    ?_, fun n p => rfl⟩
  · intro rest avail hrest
    obtain ⟨hfits, hslowest⟩ := needFor_slowest (avail := avail) hrest
    refine ⟨hfits.imp_right of_decide_eq_true, fun q hq hq7 => ?_⟩
    exact Int.not_le.mp (of_decide_eq_false (hslowest q hq hq7))
  · intro n errors o hfw hfrz hheld ho
    exact ⟨fun herr ho15 hmv => canaryWindowEnd_moves hfw hfrz hheld ho (canaryStep_lowers herr ho15 hmv),
      fun herr hstay => canaryWindowEnd_moves hfw hfrz hheld ho (canaryStep_stays herr hstay),
      fun herr => canaryWindowEnd_moves hfw hfrz hheld ho (canaryStep_raises herr)⟩

end Sys2Proof.Machine

/-! ### Limits, telemetry, the heat contract and the firmware's heartbeat (R216 to R220, R223) -/

namespace Sys2Proof.Machine

open Claim

/-! #### What the caps and the gate leave as they are -/

/-- What a sample has written, and a change of a cap or of the gate leaves. -/
structure SameSample (s t : State) : Prop where
  pwr : t.gov.pwr = s.gov.pwr
  samples : t.gov.samples = s.gov.samples
  rails : t.gov.rails = s.gov.rails
  fwok : t.gov.fwok = s.gov.fwok
  fwCap : t.gov.fwCap = s.gov.fwCap
  mem : t.mem = s.mem
  banks : t.dv.banks = s.dv.banks
  pmVin : t.dv.power.pmVin = s.dv.power.pmVin
  pmRails : t.dv.power.pmRails = s.dv.power.pmRails

theorem SameSample.refl (s : State) : SameSample s s := ⟨rfl, rfl, rfl, rfl, rfl, rfl, rfl, rfl, rfl⟩

theorem SameSample.trans {s t u : State} (h : SameSample s t) (h' : SameSample t u) : SameSample s u :=
  ⟨h'.pwr.trans h.pwr, h'.samples.trans h.samples, h'.rails.trans h.rails, h'.fwok.trans h.fwok, h'.fwCap.trans h.fwCap,
    h'.mem.trans h.mem, h'.banks.trans h.banks, h'.pmVin.trans h.pmVin, h'.pmRails.trans h.pmRails⟩

theorem applyCaps_sample (s : State) : SameSample s s.applyCaps := by
  have halert : SameSample s s.capAlert := by
    unfold State.capAlert
    split <;> exact ⟨rfl, rfl, rfl, rfl, rfl, rfl, rfl, rfl, rfl⟩
  refine halert.trans ?_
  unfold State.applyCaps
  dsimp only
  split
  · exact ⟨rfl, rfl, rfl, rfl, rfl, rfl, rfl, rfl, rfl⟩
  · split <;> exact ⟨rfl, rfl, rfl, rfl, rfl, rfl, rfl, rfl, rfl⟩

theorem uiRaise_eq (s : State) (l : Loc) (code payload : Nat) :
    ∃ cs ag, s.uiRaise l code payload = { s with cores := cs, agenda := ag } := by
  have hctx (u : State) (f : Ctx → Ctx) : ∃ cs, u.updCtx l f = { u with cores := cs } := u.updCtx_eq l f
  have hpoll (u : State) : ∃ cs ag, u.uiPoll l = { u with cores := cs, agenda := ag } := by
    rcases u.uiPoll_cases l with h | h | ⟨ev, ag, -, -, -, h⟩
    · exact ⟨_, _, h⟩
    · exact ⟨_, _, h⟩
    · obtain ⟨cs, hcs⟩ := hctx u fun _ => (u.ctx l).toHandler ev ((u.ctx l).now u.tick)
      exact ⟨cs, ag, h.trans (congrArg (fun v : State => { v with agenda := ag }) hcs)⟩
  unfold State.uiRaise
  dsimp only
  obtain ⟨cs, ag, h⟩ := hpoll _
  obtain ⟨cs', h'⟩ := hctx s _
  exact ⟨cs, ag, h.trans (congrArg (fun v : State => { v with cores := cs, agenda := ag }) h')⟩

theorem foldl_uiRaise_eq (ls : List Loc) (code payload : Nat) (s : State) :
    ∃ cs ag, ls.foldl (fun s l => s.uiRaise l code payload) s = { s with cores := cs, agenda := ag } := by
  induction ls generalizing s with
  | nil => exact ⟨_, _, rfl⟩
  | cons l ls ih =>
    obtain ⟨cs, ag, h⟩ := uiRaise_eq s l code payload
    obtain ⟨cs', ag', h'⟩ := ih (s.uiRaise l code payload)
    exact ⟨cs', ag', h'.trans (congrArg (fun v : State => { v with cores := cs', agenda := ag' }) h)⟩

/-- The gate stands as its conditions do, and a gate that shuts tells strands to yield; nothing else changes. -/
theorem setGate_eq (s : State) : ∃ cs ag ys,
    s.setGate = { s with cores := cs, agenda := ag, gov := { s.gov with gate := s.gateOpen, yielding := ys } } := by
  unfold State.setGate
  dsimp only
  split
  · next h =>
    refine ⟨s.cores, s.agenda, s.gov.yielding, ?_⟩
    rw [beq_iff_eq.mp h]
  · split
    · obtain ⟨ag, h⟩ := kick_eq
        { s.unsched (· == .ygraceExpiry) with gov := { s.gov with gate := s.gateOpen, yielding := [] } }
      exact ⟨_, ag, _, h⟩
    · generalize State.ballastStrands _ = ls
      obtain ⟨cs, ag, h⟩ := foldl_uiRaise_eq ls 1 0
        { s.unsched (· == .ygraceExpiry) with gov := { s.gov with gate := s.gateOpen, yielding := [] } }
      split
      · exact ⟨cs, ag, _, congrArg (fun v : State =>
          { v with gov := { v.gov with yielding := ls.map fun (l : Loc) => (l.tile, l.part) } }) h⟩
      · exact ⟨cs, _, _, congrArg (fun v : State =>
          let w : State := { v with gov := { v.gov with yielding := ls.map fun (l : Loc) => (l.tile, l.part) } }
          w.schedIn (w.ticksOf (1000 * max 1 w.gov.ygrace)) .ygraceExpiry) h⟩

theorem setGate_sample (s : State) : SameSample s s.setGate := by
  obtain ⟨cs, ag, ys, h⟩ := setGate_eq s
  rw [h]
  exact ⟨rfl, rfl, rfl, rfl, rfl, rfl, rfl, rfl, rfl⟩

/-! #### The limiter and the caps (R216) -/

/-- Something exceeds its limit: the cap tightens, and comes to tighten again (R216). -/
def ocTightened (s : State) : State :=
  let u := s.unsched fun e => e == .overcurrentTighten
  State.schedIn { u with gov := { s.gov with overrun := true, ocap := tighten s.gov.ocap s.pnow } }
    (s.ticksOf 100000) .overcurrentTighten

theorem tightenOc_eq (s : State) : s.tightenOc = (ocTightened s).applyCaps := rfl

theorem applyCaps_ocap (s : State) : s.applyCaps.gov.ocap = s.gov.ocap := by
  have halert : s.capAlert.gov.ocap = s.gov.ocap := by
    unfold State.capAlert
    split <;> rfl
  rw [← halert]
  unfold State.applyCaps
  dsimp only
  split
  · rfl
  · split <;> rfl

/-- Only P-state changes and ends of ramps leave the agenda when the caps are applied. -/
theorem mem_applyCaps {s : State} {n : Nat} (h : (n, .overcurrentTighten) ∈ s.agenda) :
    (n, .overcurrentTighten) ∈ s.applyCaps.agenda := by
  have halert : (n, .overcurrentTighten) ∈ s.capAlert.agenda := by
    unfold State.capAlert
    split <;> exact h
  unfold State.applyCaps
  dsimp only
  split
  · exact State.mem_sched_of_mem _ _ _ _ (List.mem_filter.mpr ⟨halert, rfl⟩)
  · split
    · exact State.mem_sched_of_mem _ _ _ _ (List.mem_filter.mpr ⟨halert, rfl⟩)
    · exact halert

theorem tightenOc_tightens (s : State) : s.tightenOc.gov.ocap = tighten s.gov.ocap s.pnow ∧
    (s.tick + s.ticksOf 100000, .overcurrentTighten) ∈ s.tightenOc.agenda := by
  rw [tightenOc_eq]
  refine ⟨applyCaps_ocap _, mem_applyCaps ?_⟩
  exact State.mem_sched _ _ _ (Nat.le_add_right _ _)

theorem tightenOc_sample (s : State) : SameSample s s.tightenOc :=
  have hset : SameSample s (ocTightened s) := ⟨rfl, rfl, rfl, rfl, rfl, rfl, rfl, rfl, rfl⟩
  hset.trans (applyCaps_sample (ocTightened s))

theorem checkOver_sample (s : State) : SameSample s s.checkOver := by
  unfold State.checkOver
  split
  · exact ⟨rfl, rfl, rfl, rfl, rfl, rfl, rfl, rfl, rfl⟩
  · split
    · exact SameSample.refl s
    · exact tightenOc_sample s

theorem releaseOc_sample (s : State) : SameSample s s.releaseOc := ⟨rfl, rfl, rfl, rfl, rfl, rfl, rfl, rfl, rfl⟩

theorem packageCap_sample (s : State) : SameSample s s.packageCap := by
  unfold State.packageCap
  dsimp only
  split
  · exact ⟨rfl, rfl, rfl, rfl, rfl, rfl, rfl, rfl, rfl⟩
  · split <;> exact ⟨rfl, rfl, rfl, rfl, rfl, rfl, rfl, rfl, rfl⟩

theorem limiterSample_senses (s : State) (amps : Nat) :
    let u := updGov s fun g => { g with amps := amps }
    let w := updGov u fun g => { g with calm := if u.gov.calmNow then g.calm else 0 }
    (w.gov.exceeds = false → exec (.limiterSample amps) s = .next (updGov w fun g => { g with overrun := false })) ∧
    (w.gov.exceeds = true → s.gov.overrun = true → exec (.limiterSample amps) s = .next w) ∧
    (w.gov.exceeds = true → s.gov.overrun = false → exec (.limiterSample amps) s = .next w.tightenOc) := by
  intro u w
  have hrun : exec (.limiterSample amps) s = .next w.checkOver := rfl
  have hoverrun : w.gov.overrun = s.gov.overrun := rfl
  rw [hrun, State.checkOver]
  refine ⟨fun h => ?_, fun h hover => ?_, fun h hover => ?_⟩
  · rw [if_pos (by rw [h]; rfl)]
    rfl
  · rw [if_neg (by rw [h]; nofun), if_pos (hoverrun.trans hover)]
  · rw [if_neg (by rw [h]; nofun), if_neg (by rw [hoverrun, hover]; nofun)]

theorem overcurrentTighten_again {s : State} (h : s.gov.exceeds = true) : exec .overcurrentTighten s = .next s.tightenOc :=
  congrArg ok (if_pos h)

theorem overcurrentTighten_over {s : State} (h : s.gov.exceeds = false) :
    exec .overcurrentTighten s = .next (updGov s fun g => { g with overrun := false }) :=
  congrArg ok (if_neg (ne_true_of_eq_false h))

/-! #### Telemetry (R216 to R218, R516) -/

/-- What the step at `n` brings about, and no other step undoes, holds after the fold. -/
theorem foldl_establishes {σ : Type} {f : σ → Nat → σ} {P : σ → Prop} {n : Nat} (hset : ∀ s, P (f s n))
    (hkeep : ∀ s i, i ≠ n → P s → P (f s i)) {ns : List Nat} (hn : n ∈ ns) (s : σ) : P (ns.foldl f s) := by
  have hstep (t : σ) (i : Nat) (h : P t) : P (f t i) := by
    by_cases hi : i = n
    · exact hi ▸ hset t
    · exact hkeep t i hi h
  have hrest (is : List Nat) (t : σ) (h : P t) : P (is.foldl f t) := by
    induction is generalizing t with
    | nil => exact h
    | cons i is ih => exact ih _ (hstep t i h)
  obtain ⟨before, after, rfl⟩ := List.append_of_mem hn
  rw [List.foldl_append, List.foldl_cons]
  exact hrest after _ (hset _)

theorem rail_updRail (s : State) {n : Nat} (hn : n < 4) (i : Nat) (f : Rail → Rail) :
    (s.updRail i f).gov.rail n = if n = i then f (s.gov.rail i) else s.gov.rail n := by
  have hget : (s.updRail i f).gov.rail n = if n = i then f (s.gov.rail n) else s.gov.rail n := by
    simp [State.updRail, Gov.rail, List.getD_eq_getElem?_getD, hn]
  rw [hget]
  split
  · next h => rw [h]
  · rfl

/-- The core rails as a sample reads them. -/
def railsRead (s : State) (rails : List RailSample) : State :=
  (List.range 4).foldl (fun s n => match rails[n]? with
    | some x => s.updRail n fun r => { r with iamp := x.amps, vmv := x.mv, hist := (x.amps :: r.hist).take 2 }
    | none => s) s

theorem railsRead_eq (s : State) (rails : List RailSample) : ∃ rs, railsRead s rails = { s with gov := { s.gov with rails := rs } } := by
  unfold railsRead
  generalize List.range 4 = ns
  induction ns generalizing s with
  | nil => exact ⟨_, rfl⟩
  | cons n ns ih =>
    rw [List.foldl_cons]
    split
    · obtain ⟨rs, h⟩ := ih (s.updRail n _)
      exact ⟨rs, h⟩
    · exact ih s

theorem railsRead_rail {s : State} {rails : List RailSample} {n : Nat} {x : RailSample} (hn : n < 4) (hx : rails[n]? = some x) :
    ((railsRead s rails).gov.rail n).iamp = x.amps ∧ ((railsRead s rails).gov.rail n).vmv = x.mv := by
  refine foldl_establishes (P := fun t : State => (t.gov.rail n).iamp = x.amps ∧ (t.gov.rail n).vmv = x.mv) (n := n)
    (fun t => ?_) (fun t i hi h => ?_) (List.mem_range.mpr hn) s
  · simp only [hx]
    rw [rail_updRail t hn, if_pos rfl]
    exact ⟨rfl, rfl⟩
  · split
    · rw [rail_updRail t hn, if_neg hi.symm]
      exact h
    · exact h

/-- The rails as PMBus reads them after a sample. -/
def pmRead (rails : List RailSample) (t : Tbl PmRail) : Tbl PmRail :=
  (List.range 7).foldl (fun t n => match rails[n]? with
    | some x => Tbl.put t n { mv := x.mv, temp := x.temp, amps := (x.amps :: (Tbl.get {} t n).amps).take 2 }
    | none => t) t

theorem pmRead_rail {rails : List RailSample} {t : Tbl PmRail} {n : Nat} {x : RailSample} (hn : n < 7) (hx : rails[n]? = some x) :
    (Tbl.get {} (pmRead rails t) n).mv = x.mv ∧ (Tbl.get {} (pmRead rails t) n).temp = x.temp ∧
      (Tbl.get {} (pmRead rails t) n).amps.head? = some x.amps := by
  refine foldl_establishes (P := fun u : Tbl PmRail => (Tbl.get {} u n).mv = x.mv ∧ (Tbl.get {} u n).temp = x.temp ∧
    (Tbl.get {} u n).amps.head? = some x.amps) (n := n) (fun u => ?_) (fun u i hi h => ?_) (List.mem_range.mpr hn) t
  · simp [hx, Tbl.get_put_same]
  · split
    · rw [Tbl.get_put_other _ _ _ _ _ hi.symm]
      exact h
    · exact h

/-- What a sample writes, before the caps and the gate are set. -/
def sampled (s : State) (watts : Nat) (rails : List RailSample) (faults : Tbl Nat) (alert : Bool) : State :=
  { s with
    dv := { s.dv with power := { s.dv.power with
      pmRails := pmRead rails s.dv.power.pmRails, pmVin := s.dv.power.vinMv, faults := faults, alert := alert } }
    gov := { s.gov with
      pwr := watts, samples := (watts :: s.gov.samples).take 10, fwSamples := if s.gov.fwok then s.gov.fwSamples + 1 else 0
      winSum := s.gov.winSum + watts, winN := s.gov.winN + 1 } }

theorem telemetrySample_eq (s : State) (watts : Nat) (rails : List RailSample) : ∃ t faults alert,
    exec (.telemetrySample watts rails) s = .next t ∧ SameSample (sampled (railsRead s rails) watts rails faults alert) t := by
  let u := sampled (railsRead s rails) watts rails
    ((List.range 7).foldl (fun t n => if (Tbl.get {} (pmRead rails (railsRead s rails).dv.power.pmRails) n).over
      ((railsRead s rails).railLimit n) then Tbl.put t n 0x4010 else t) (railsRead s rails).dv.power.faults)
    ((railsRead s rails).dv.power.alert || !((List.range 7).foldl (fun t n =>
      if (Tbl.get {} (pmRead rails (railsRead s rails).dv.power.pmRails) n).over ((railsRead s rails).railLimit n)
      then Tbl.put t n 0x4010 else t) (railsRead s rails).dv.power.faults).isEmpty)
  let v := u.checkOver.releaseOc.packageCap
  let w := if 1000 ≤ v.gov.winN then v.sched v.tick .heatWindowEnd else v
  have huv : SameSample u v := (checkOver_sample u).trans ((releaseOc_sample _).trans (packageCap_sample _))
  have hvw : SameSample v w := by
    show SameSample v (if 1000 ≤ v.gov.winN then v.sched v.tick .heatWindowEnd else v)
    split
    · exact ⟨rfl, rfl, rfl, rfl, rfl, rfl, rfl, rfl, rfl⟩
    · exact SameSample.refl v
  exact ⟨w.applyCaps.setGate, _, _, rfl, (huv.trans hvw).trans ((applyCaps_sample w).trans (setGate_sample _))⟩

theorem telemetrySample_kept (s : State) (watts : Nat) (rails : List RailSample) :
    ∃ t : State, exec (.telemetrySample watts rails) s = .next t ∧ t.gov.pwr = watts ∧
      t.gov.samples = (watts :: s.gov.samples).take 10 ∧ t.mem = s.mem ∧
      t.dv.power.pmVin = s.dv.power.vinMv ∧ (∀ n x, n < 4 → rails[n]? = some x → (t.gov.rail n).iamp = x.amps ∧ (t.gov.rail n).vmv = x.mv) ∧
      ∀ n x, n < 7 → rails[n]? = some x → let r := Tbl.get {} t.dv.power.pmRails n
        r.mv = x.mv ∧ r.temp = x.temp ∧ r.amps.head? = some x.amps := by
  obtain ⟨t, faults, alert, hrun, hsame⟩ := telemetrySample_eq s watts rails
  obtain ⟨rs, hread⟩ := railsRead_eq s rails
  have hrail (n : Nat) : t.gov.rail n = (railsRead s rails).gov.rail n :=
    congrArg (fun rs : List Rail => rs.getD n {}) hsame.rails
  refine ⟨t, hrun, hsame.pwr, ?_, ?_, ?_, fun n x hn hx => ?_, fun n x hn hx => ?_⟩
  · rw [hsame.samples, hread]
    rfl
  · rw [hsame.mem, hread]
    rfl
  · rw [hsame.pmVin, hread]
    rfl
  · rw [hrail]
    exact railsRead_rail hn hx
  · rw [hsame.pmRails]
    exact pmRead_rail hn hx

/-! #### Power shares, heat windows and ballast (R217 to R220) -/

theorem regionPowerEstimate_off {s : State} {r w : Nat} (h : s.gov.fwok = false ∨ (s.region r).alive = false) :
    exec (.regionPowerEstimate r w) s = .next s := by
  refine if_pos ?_
  rcases h with h | h <;> simp [h]

theorem regionPowerEstimate_over {s : State} {r w : Nat} (hfw : s.gov.fwok = true) (halive : (s.region r).alive = true)
    (hten : (w :: (s.region r).watts).length = 10) (hshare : (s.region r).eff.power ≠ 0)
    (hover : (s.region r).eff.power * 10 < (w :: (s.region r).watts).foldl (· + ·) 0) :
    exec (.regionPowerEstimate r w) s = .next
      (s.updRegion r fun g => { g with watts := w :: (s.region r).watts, overb := true }) := by
  have hws : (w :: (s.region r).watts).take 10 = w :: (s.region r).watts := List.take_of_length_le (Nat.le_of_eq hten)
  have hcount : ¬ ((decide ((w :: (s.region r).watts).length < 10) || (s.region r).eff.power == 0) = true) := by
    simp [hten, hshare]
  show execRegionPowerEstimate r w s = _
  unfold execRegionPowerEstimate
  simp only [hws, if_neg hcount, if_pos hover, Bool.not_true, Bool.and_false]
  rw [if_neg (by rw [hfw, halive]; nofun)]
  rfl

theorem heatWindowEnd_empty {s : State} (h : s.gov.winN = 0) : exec .heatWindowEnd s = .next s := if_pos h

theorem heatWindowEnd_counts {s : State} (h : s.gov.winN ≠ 0) :
    let g := s.gov
    let sp := g.setptNow
    let out := sp ≠ 0 ∧ (g.winSum * 1000 < sp * g.winN * (1000 - g.cband) ∨ sp * g.winN * (1000 + g.cband) < g.winSum * 1000)
    ∃ t : State, exec .heatWindowEnd s = .next t ∧ t.gov.wavg = min 8191 (g.winSum / g.winN) ∧ t.gov.winN = 0 ∧
      (out → t.gov.wmiss = min 0xFFFF (g.wmiss + 1)) ∧ (¬ out → t.gov.wmiss = g.wmiss) ∧ t.cores = s.cores := by
  intro g sp out
  refine ⟨_, if_neg h, rfl, rfl, fun hout => ?_, fun hout => ?_, rfl⟩
  · obtain ⟨hsp, hband⟩ := hout
    have hset : s.gov.setptNow ≠ 0 := hsp
    exact if_pos (by simpa [hset] using hband)
  · refine if_neg fun hband => hout ?_
    simpa [out, sp, g] using hband

theorem ygraceExpiry_none {s : State} (h : s.gov.yielding = []) : exec .ygraceExpiry s = .next s := by
  have hsame : ({ s with gov := { s.gov with yielding := [] } } : State) = s := by rw [← h]
  show execYgraceExpiry s = _
  unfold execYgraceExpiry
  rw [h]
  exact congrArg ok hsame

/-- What was told to yield and still runs in the foreground. -/
def stillYielding (s : State) : List (Nat × Nat) :=
  s.gov.yielding.filter fun x =>
    let c := s.ctx ⟨x.1, x.2⟩
    c.live && (s.region c.region).eff.lvl && s.inFg ⟨x.1, x.2⟩ && (s.part x.2).st == .active

/-- The swaps that the end of the grace orders. -/
def graceSwaps (s : State) (still : List (Nat × Nat)) : State :=
  ((still.map (·.2)).eraseDups).foldl (fun s p => if s.canSwap p noPart (still.map (·.1)) then s.orderSwap p noPart else s) s

/-- What is not swapped out is looked at again. -/
def graceLeft (s : State) (still : List (Nat × Nat)) : State :=
  let left := still.filter fun x => (s.part x.2).st == .active
  let s := { s with gov := { s.gov with yielding := left } }
  if left.isEmpty then s else s.schedIn 1 .ygraceExpiry

theorem ygraceExpiry_eq (s : State) :
    exec .ygraceExpiry s = .next (graceLeft (graceSwaps s (stillYielding s)) (stillYielding s)) := rfl

theorem graceSwaps_one {s : State} {t p : Nat} (h : s.canSwap p noPart [t] = true) :
    graceSwaps s [(t, p)] = s.orderSwap p noPart := by
  have hone : ([(t, p)].map (·.2)).eraseDups = [p] := rfl
  rw [graceSwaps, hone]
  exact if_pos h

theorem graceLeft_none {s : State} {t p : Nat} (h : (s.part p).st = .swapping) :
    graceLeft s [(t, p)] = { s with gov := { s.gov with yielding := [] } } := by
  have hleft : ([(t, p)].filter fun x => (s.part x.2).st == .active) = [] := by simp [h]
  rw [graceLeft, hleft]
  rfl

theorem ygraceExpiry_swaps {s : State} {t p : Nat} (hy : s.gov.yielding = [(t, p)]) (hlive : (s.ctx ⟨t, p⟩).live = true)
    (hlvl : (s.region (s.ctx ⟨t, p⟩).region).eff.lvl = true) (hfg : s.inFg ⟨t, p⟩ = true) (hst : (s.part p).st = .active)
    (hswap : s.canSwap p noPart [t] = true) :
    ∃ u : State, exec .ygraceExpiry s = .next u ∧ (u.part p).st = .swapping ∧
      (s.tick + 160, .bankExchange p noPart) ∈ u.agenda := by
  have hswapping := orderSwap_swapping noPart hst
  have hstill : stillYielding s = [(t, p)] := by
    rw [stillYielding, hy]
    simp [hlive, hlvl, hfg, hst]
  rw [ygraceExpiry_eq, hstill, graceSwaps_one hswap, graceLeft_none hswapping.st]
  exact ⟨_, rfl, hswapping.st, hswapping.due⟩

/-! #### The firmware's heartbeat (R223) -/

theorem le_capNow {s : State} {n : Nat} (h : n ∈ s.caps) : n ≤ s.capNow := by
  have hmax (ns : List Nat) (m : Nat) : m ≤ ns.foldl max m ∧ ∀ n ∈ ns, n ≤ ns.foldl max m := by
    induction ns generalizing m with
    | nil => simp
    | cons x xs ih =>
      obtain ⟨hm, hxs⟩ := ih (max m x)
      refine ⟨Nat.le_trans (Nat.le_max_left m x) hm, ?_⟩
      intro n hn
      rcases List.mem_cons.mp hn with rfl | hn
      · exact Nat.le_trans (Nat.le_max_right m n) hm
      · exact hxs n hn
  exact (hmax s.caps 0).2 n h

theorem geyserOff_holds (s : State) : s.geyserOff.gov.fwok = false ∧ s.geyserOff.gov.gate = false ∧ 4 ≤ s.geyserOff.capNow ∧
    (∀ n, (s.geyserOff.gov.rail n).off = []) ∧ s.geyserOff.dv.banks = s.dv.banks := by
  let hold (e : Ev) : Bool := match e with
    | .canaryHoldExpiry .. => true
    | _ => false
  let u : State := { s.unsched hold with gov := { s.gov with
    fwok := false, fwCap := true, fwSamples := 0, rails := s.gov.rails.map fun (r : Rail) => { r with off := [], held := [] } } }
  have hoff : s.geyserOff = u.applyCaps.setGate := rfl
  have hsame : SameSample u s.geyserOff := hoff ▸ (applyCaps_sample u).trans (setGate_sample _)
  have hgate : s.geyserOff.gov.gate = false := by
    obtain ⟨cs, ag, ys, h⟩ := setGate_eq u.applyCaps
    rw [hoff, h]
    show u.applyCaps.gateOpen = false
    rw [State.gateOpen, (applyCaps_sample u).fwok]
    rfl
  have hcap : 4 ∈ s.geyserOff.caps := by
    unfold State.caps
    rw [hsame.fwCap]
    exact List.mem_append_right _ (List.mem_singleton_self 4)
  refine ⟨hsame.fwok, hgate, le_capNow hcap, fun n => ?_, hsame.banks⟩
  rw [Gov.rail, hsame.rails]
  show ((s.gov.rails.map fun (r : Rail) => { r with off := [], held := [] }).getD n {}).off = []
  rw [List.getD_eq_getElem?_getD, List.getElem?_map]
  cases s.gov.rails[n]? <;> rfl

theorem firmwareDownload_geyser {s : State} {bank v : Nat} (m : BitVec 384) (g : FwSig) (hrec : s.dv.power.recovery = false)
    (hbank : geyserBank bank = true) :
    ∃ t : State, exec (.firmwareDownload bank v m g) s = .next t ∧ t.gov.fwok = false ∧ t.gov.gate = false ∧ 4 ≤ t.capNow ∧
      (∀ n, (t.gov.rail n).off = []) ∧ Tbl.get {} t.dv.banks bank = { measure := m, secver := v, good := fwVerifies m g } := by
  let u : State := { s with dv := { s.dv with
    banks := Tbl.put s.dv.banks bank { measure := m, secver := v, good := fwVerifies m g } } }
  have hrun : exec (.firmwareDownload bank v m g) s = .next u.geyserOff :=
    (if_pos (by rw [hrec]; rfl)).trans (congrArg ok (if_pos hbank))
  obtain ⟨hfwok, hgate, hcap, hrails, hbanks⟩ := geyserOff_holds u
  refine ⟨_, hrun, hfwok, hgate, hcap, hrails, ?_⟩
  rw [hbanks]
  exact Tbl.get_put_same _ _ _ _

/-- Settles O57: limits, telemetry, heat windows, ballast and the heartbeat, case by case. -/
theorem limitEvents : Obligations.LimitEvents := by
  unfold Obligations.LimitEvents
  intro s
  refine ⟨limiterSample_senses s, overcurrentTighten_again, overcurrentTighten_over, tightenOc_tightens s, telemetrySample_kept s,
    fun r w h => regionPowerEstimate_off h,
    fun r w hfw halive hten hshare hover => regionPowerEstimate_over hfw halive hten hshare hover,
    heatWindowEnd_empty, heatWindowEnd_counts, ygraceExpiry_none,
    fun t p hy hlive hlvl hfg hst hswap => ygraceExpiry_swaps hy hlive hlvl hfg hst hswap, ?_,
    fun bank v m g hrec hbank => firmwareDownload_geyser m g hrec hbank, rfl⟩
  obtain ⟨hfwok, hgate, hcap, hrails, -⟩ := geyserOff_holds s
  exact ⟨_, rfl, hfwok, hgate, hcap, hrails⟩

end Sys2Proof.Machine

/-! ### The management bus and the time engine (R197, R198, R516) -/

namespace Sys2Proof.Machine

/-! #### PMBus (R516) -/

theorem pmAnswer_on {s : State} (h : s.answers = true) (v : PmAns) : s.pmAnswer v = .next (Claim.answered s v) := by
  unfold State.pmAnswer
  simp only [h]
  rfl

theorem pmAnswer_off {s : State} (h : s.answers = false) (v : PmAns) : s.pmAnswer v = .next (Claim.answered s .silent) := by
  unfold State.pmAnswer
  simp only [h]
  rfl

theorem pmPage_elsewhere {s : State} {x : PmPage} (h : x.addr ≠ pmAddr) : exec (.pmPage x) s = .next s :=
  if_pos (bne_iff_ne.mpr h)

theorem pmPage_here {s : State} {x : PmPage} (h : x.addr = pmAddr) : exec (.pmPage x) s =
    if (decide (x.page < 7) || x.page == 0xFF) && s.answers then (s.updPower fun p => { p with page := x.page }).pmAnswer (.value x.page)
    else s.pmAnswer .invalid :=
  if_neg (by simp [h])

theorem pmPage_off {s : State} {x : PmPage} (hans : s.answers = false) (h : x.addr = pmAddr) :
    exec (.pmPage x) s = .next (Claim.answered s .silent) := by
  rw [pmPage_here h, if_neg (by simp [hans]), pmAnswer_off hans]

theorem pmPage_taken {s : State} {n : Nat} (hans : s.answers = true) (hn : n < 7 ∨ n = 0xFF) :
    exec (.pmPage ⟨pmAddr, n⟩) s = .next (s.updPower fun p => { p with page := n, pmAns := .value n }) := by
  rw [pmPage_here rfl, if_pos (by simp [hans, hn])]
  exact pmAnswer_on (s := s.updPower fun p => { p with page := n }) hans _

theorem pmPage_invalid {s : State} {n : Nat} (hans : s.answers = true) (hn : ¬ (n < 7 ∨ n = 0xFF)) :
    exec (.pmPage ⟨pmAddr, n⟩) s = .next (Claim.answered s .invalid) := by
  rw [pmPage_here rfl, if_neg (by simp only [Bool.and_eq_true, Bool.or_eq_true, decide_eq_true_eq, beq_iff_eq]; exact fun h => hn h.1),
    pmAnswer_on hans]

theorem clearFaults_off {s : State} (h : s.answers = false) : exec .clearFaults s = .next s :=
  congrArg ok (if_neg (ne_true_of_eq_false h))

/-- Where no rail is over its limit and no cap is in force, no fault is left and ALERT_N is released. -/
theorem clearFaults_all {s : State} (hans : s.answers = true)
    (hover : ∀ n, n < 7 → (Tbl.get {} s.dv.power.pmRails n).over (s.railLimit n) = false) (hoc : s.gov.ocap = none)
    (hpkg : s.gov.pkg = none) (hd : s.gov.dcap = false) (hpage : s.dv.power.page = 0xFF) :
    exec .clearFaults s = .next (s.updPower fun p => { p with faults := [], alert := false }) := by
  have hfold (ns : List Nat) (hns : ∀ n ∈ ns, n < 7) (t : Tbl Nat) :
      ns.foldl (fun t n => if (Tbl.get {} s.dv.power.pmRails n).over (s.railLimit n) then Tbl.put t n 0x4010 else t) t = t := by
    induction ns with
    | nil => rfl
    | cons n ns ih =>
      rw [List.foldl_cons, if_neg (by rw [hover n (hns n List.mem_cons_self)]; nofun)]
      exact ih fun m hm => hns m (List.mem_cons_of_mem n hm)
  show execClearFaults s = _
  unfold execClearFaults
  simp only [hfold (List.range 7) (fun n hn => List.mem_range.mp hn), hans, hoc, hpkg, hd, hpage]
  rfl

/-- What a read of a page's rail gives, by whether the page is a rail's. -/
theorem pmRead_page {s : State} (hans : s.answers = true) (f : PmRail → Int) :
    (s.dv.power.page < 7 → s.pmRead f = .next (Claim.answered s (.value (f (Tbl.get {} s.dv.power.pmRails s.dv.power.page))))) ∧
    (7 ≤ s.dv.power.page → s.pmRead f = .next (Claim.answered s .unsupported)) :=
  ⟨fun h => by rw [← pmAnswer_on hans]; exact congrArg s.pmAnswer (if_pos h),
    fun h => by rw [← pmAnswer_on hans]; exact congrArg s.pmAnswer (if_neg (by omega))⟩

/-! #### The time engine (R197, R198) -/

theorem ptpMessage_passed {s : State} {dom port : Nat} (m : PtpMsg) (h : dom ≠ s.dv.cfg.ptpdom ∨ port ∈ s.dv.portsDown) :
    exec (.ptpMessage dom port m) s = .next s :=
  if_pos (by simpa using h)

section

variable {s : State} {port : Nat} (hup : port ∉ s.dv.portsDown)
include hup

theorem ptpHeeded : ¬ (s.dv.cfg.ptpdom != s.dv.cfg.ptpdom || s.dv.portsDown.contains port) = true := by simp [hup]

theorem ptpMessage_sync (t1 : Int) : ∃ t : State, exec (.ptpMessage s.dv.cfg.ptpdom port (.sync t1)) s = .next t ∧
    t.dv.ptpPort = port ∧ t.dv.ptpT1 = t1 ∧ t.dv.ptpT2 = s.tmNow ∧ t.dv.ptpT3 = s.tmNow ∧
    (port, (s.tmNow : Int)) ∈ t.dv.ptpSent ∧ t.tm = s.tm ∧
    ∀ x, x < 16 → x ∉ s.dv.portsDown → (x, (s.tmNow : Int)) ∈ t.dv.ptpSent := by
  let ports := port :: (List.range zheostPorts).filter fun p => p != port && !s.dv.portsDown.contains p
  have hsent {x : Nat} (hx : x ∈ ports) : (x, (s.tmNow : Int)) ∈ (ports.map fun p => (p, (s.tmNow : Int))) ++ s.dv.ptpSent :=
    List.mem_append_left _ (List.mem_map_of_mem hx)
  refine ⟨_, if_neg (ptpHeeded hup), rfl, rfl, rfl, rfl, hsent List.mem_cons_self, rfl, fun x hx hxup => hsent ?_⟩
  by_cases hxp : x = port
  · exact hxp ▸ List.mem_cons_self
  · exact List.mem_cons_of_mem _ (List.mem_filter.mpr ⟨List.mem_range.mpr hx, by simp [hxp, hxup]⟩)

theorem ptpMessage_delayReq : exec (.ptpMessage s.dv.cfg.ptpdom port .delayReq) s = .next
    { s with dv := { s.dv with ptpSent := (port, (s.tmNow : Int)) :: s.dv.ptpSent } } :=
  if_neg (ptpHeeded hup)

theorem ptpMessage_otherPort {t4 ppm : Int} {lock : Bool} (h : port ≠ s.dv.ptpPort) :
    exec (.ptpMessage s.dv.cfg.ptpdom port (.delayResp t4 lock ppm)) s = .next s :=
  (if_neg (ptpHeeded hup)).trans (if_pos (bne_iff_ne.mpr h))

theorem ptpMessage_answer {t4 ppm : Int} {lock : Bool} (h : port = s.dv.ptpPort) :
    let off : Int := ((s.dv.ptpT2 - s.dv.ptpT1) - (t4 - s.dv.ptpT3)) / 2
    ∃ t : State, exec (.ptpMessage s.dv.cfg.ptpdom port (.delayResp t4 lock ppm)) s = .next t ∧ t.dv.lock = lock ∧ t.dv.off = off ∧
      -500 ≤ t.slew ∧ t.slew ≤ 500 ∧ (-500 ≤ ppm → ppm ≤ 500 → t.slew = ppm) ∧ (s.parts ≠ [] → t.tm = s.tm) ∧
      (s.parts = [] → t.tm = ((s.tm : Int) - off * (tmUnit : Int)).toNat) := by
  intro off
  have hslew (x : Int) : -500 ≤ min 500 (max (-500) x) ∧ min 500 (max (-500) x) ≤ 500 ∧
      (-500 ≤ x → x ≤ 500 → min 500 (max (-500) x) = x) := by omega
  obtain ⟨hlow, hhigh, hsame⟩ := hslew ppm
  exact ⟨_, (if_neg (ptpHeeded hup)).trans (if_neg (by simp [h])), rfl, rfl, hlow, hhigh, hsame,
    fun hparts => if_neg (by simpa using hparts), fun hparts => if_pos (by simp [hparts])⟩

end

/-- Settles O59: every command of the management bus and every message of the time engine, case by case. -/
theorem busAndTimeEvents : Obligations.BusAndTimeEvents := by
  unfold Obligations.BusAndTimeEvents
  intro s page r
  refine ⟨fun x h => pmPage_elsewhere h, fun hans x hx c => ?_, fun hans => ?_, fun dom port m h => ptpMessage_passed m h,
    fun port hup => ⟨ptpMessage_sync hup, ptpMessage_delayReq hup, fun t4 lock ppm h => ptpMessage_otherPort hup h,
      fun t4 lock ppm h => ptpMessage_answer hup h⟩, rfl⟩
  · exact ⟨pmPage_off hans hx, pmAnswer_off hans _, pmAnswer_off hans _, pmAnswer_off hans _, pmAnswer_off hans _,
      pmAnswer_off hans _, pmAnswer_off hans _, pmAnswer_off hans _, pmAnswer_off hans _, clearFaults_off hans⟩
  · obtain ⟨hvout, hvout'⟩ := pmRead_page hans fun r => r.mv
    obtain ⟨hiout, hiout'⟩ := pmRead_page hans fun r => (r.amps.headD 0 : Nat)
    obtain ⟨htemp, htemp'⟩ := pmRead_page hans fun r => r.temp
    have hanswer (c : Bool) (v w : PmAns) : (c = true → s.pmAnswer (if c then v else w) = .next (Claim.answered s v)) ∧
        (c = false → s.pmAnswer (if c then v else w) = .next (Claim.answered s w)) :=
      ⟨fun h => by rw [if_pos h, pmAnswer_on hans], fun h => by rw [if_neg (ne_true_of_eq_false h), pmAnswer_on hans]⟩
    refine ⟨fun n hn => pmPage_taken hans hn, fun n hn => pmPage_invalid hans hn, fun h => ⟨hvout h, hiout h, htemp h, ?_⟩,
      fun h => ⟨hvout' h, hiout' h, htemp' h, ?_⟩, fun h => ⟨?_, ?_⟩, fun h => ⟨?_, ?_⟩,
      fun hover hoc hpkg hd hpage => clearFaults_all hans hover hoc hpkg hd hpage,
      fun c => ⟨pmAnswer_on hans _, pmAnswer_on hans _⟩⟩
    · rw [← pmAnswer_on hans]
      exact congrArg s.pmAnswer (if_pos h)
    · rw [← pmAnswer_on hans]
      exact congrArg s.pmAnswer (if_neg (Nat.not_lt.mpr h))
    · exact (hanswer _ _ _).1 (beq_iff_eq.mpr h)
    · exact (hanswer _ _ _).1 (beq_iff_eq.mpr h)
    · exact (hanswer _ _ _).2 (beq_eq_false_iff_ne.mpr h)
    · exact (hanswer _ _ _).2 (beq_eq_false_iff_ne.mpr h)

end Sys2Proof.Machine

/-! ### Quads, power-up and power-down, resets and coolant (R78, R101 to R103, R510 to R513) -/

namespace Sys2Proof.Machine

open Claim

/-! #### Quads that rest, wake and retain (R101 to R103) -/

theorem quadRest_eq (s : State) (t : Nat) : ∃ qs ag, s.quadRest t = { s with quads := qs, agenda := ag } ∧
    ∀ y, ∃ i, Tbl.get {} qs y = { Tbl.get {} s.quads y with idleFrom := i } := by
  have hput (y : Nat) : ∃ i, Tbl.get {} (Tbl.put s.quads (quadOf t) { Tbl.get {} s.quads (quadOf t) with idleFrom := some s.tm }) y =
      { Tbl.get {} s.quads y with idleFrom := i } := by
    by_cases hy : y = quadOf t
    · subst hy
      exact ⟨_, Tbl.get_put_same _ _ _ _⟩
    · exact ⟨_, Tbl.get_put_other _ _ _ _ _ hy⟩
  unfold State.quadRest
  dsimp only
  split
  · split
    · exact ⟨_, _, rfl, hput⟩
    · exact ⟨_, _, rfl, hput⟩
  · exact ⟨_, _, rfl, fun y => ⟨_, rfl⟩⟩

/-- A quad that is ACTIVE is so with all its stages; of the others at most the idle time is written again. -/
theorem quadUp_eq (s : State) (q : Nat) : ∃ cs qs ag, s.quadUp q = { s with cores := cs, quads := qs, agenda := ag } ∧
    ((Tbl.get {} s.quads q).st ≠ 2 → cs = s.cores) ∧
    (∃ i, Tbl.get {} qs q = { st := 0, stage := 8, idleFrom := i }) ∧
    ∀ y, y ≠ q → ∃ i, Tbl.get {} qs y = { Tbl.get {} s.quads y with idleFrom := i } := by
  have hrest (u : State) (hquads : u.quads = s.quads) : ∃ qs ag,
      (State.quadRest { u with quads := Tbl.put u.quads q { st := 0, stage := 8 } } ((quadTiles q).headD 0)).kick =
        { u with quads := qs, agenda := ag } ∧
      (∃ i, Tbl.get {} qs q = { st := 0, stage := 8, idleFrom := i }) ∧
      ∀ y, y ≠ q → ∃ i, Tbl.get {} qs y = { Tbl.get {} s.quads y with idleFrom := i } := by
    obtain ⟨qs, ag, h, hqs⟩ := quadRest_eq { u with quads := Tbl.put u.quads q { st := 0, stage := 8 } } ((quadTiles q).headD 0)
    obtain ⟨ag', h'⟩ := kick_eq (State.quadRest { u with quads := Tbl.put u.quads q { st := 0, stage := 8 } } ((quadTiles q).headD 0))
    refine ⟨qs, ag', h'.trans (congrArg (fun v : State => { v with agenda := ag' }) h), ?_, fun y hy => ?_⟩
    · obtain ⟨i, hi⟩ := hqs q
      exact ⟨i, hi.trans (congrArg (fun x : Quad => { x with idleFrom := i }) (Tbl.get_put_same _ _ _ _))⟩
    · obtain ⟨i, hi⟩ := hqs y
      refine ⟨i, hi.trans (congrArg (fun x : Quad => { x with idleFrom := i }) ?_)⟩
      exact (Tbl.get_put_other _ _ _ _ _ hy).trans (congrArg (fun t => Tbl.get {} t y) hquads)
  unfold State.quadUp
  dsimp only
  split
  · next h2 =>
    obtain ⟨qs, ag, h, hq, hother⟩ := hrest { s with cores := s.cores.map _ } rfl
    exact ⟨_, qs, ag, h, fun hne => absurd (beq_iff_eq.mp h2) hne, hq, hother⟩
  · obtain ⟨qs, ag, h, hq, hother⟩ := hrest s rfl
    exact ⟨_, qs, ag, h, fun _ => rfl, hq, hother⟩

theorem quadUp_mem (s : State) (q : Nat) : (s.quadUp q).mem = s.mem ∧ (s.quadUp q).wakeQ = s.wakeQ ∧
    (s.quadUp q).pgWaves = s.pgWaves := by
  obtain ⟨cs, qs, ag, h, -⟩ := quadUp_eq s q
  rw [h]
  exact ⟨rfl, rfl, rfl⟩

theorem quadUp_other (s : State) {q y : Nat} (h : y ≠ q) : (Tbl.get {} (s.quadUp q).quads y).waking = (Tbl.get {} s.quads y).waking ∧
    (Tbl.get {} (s.quadUp q).quads y).stage = (Tbl.get {} s.quads y).stage := by
  obtain ⟨cs, qs, ag, hup, -, -, hother⟩ := quadUp_eq s q
  obtain ⟨i, hi⟩ := hother y h
  rw [hup]
  exact ⟨(congrArg Quad.waking hi :), (congrArg Quad.stage hi :)⟩

theorem quadUp_self (s : State) (q : Nat) : (Tbl.get {} (s.quadUp q).quads q).st = 0 ∧
    (Tbl.get {} (s.quadUp q).quads q).waking = false ∧
    ((Tbl.get {} s.quads q).st ≠ 2 → (s.quadUp q).cores = s.cores) := by
  obtain ⟨cs, qs, ag, hup, hcores, ⟨i, hi⟩, -⟩ := quadUp_eq s q
  rw [hup]
  exact ⟨(congrArg Quad.st hi :), (congrArg Quad.waking hi :), hcores⟩

/-! #### The order in which wakes begin (R102, R103) -/

/-- A quad of the layer takes its turn in a wake: it leaves the queue, and its first stage comes. -/
def wakeBegun (s : State) (q : Nat) : State :=
  State.schedIn { s with
    wakeQ := s.wakeQ.filter (· != q)
    quads := Tbl.put s.quads q { Tbl.get {} s.quads q with waking := true } } (s.ticksOf 250) (.wakeStage q)

/-- What the next step of the wakes of a layer does. -/
theorem startWakes_go_succ (layer n : Nat) (s : State) {q : Nat} (h : (s.wakeQ.find? fun q => q / 64 == layer) = some q) :
    State.startWakes.go layer (n + 1) s =
      if (Tbl.get {} s.quads q).stage == 8 then
        State.startWakes.go layer n (State.quadUp { s with wakeQ := s.wakeQ.filter (· != q) } q)
      else if s.wakingIn layer < max 1 s.pgWaves then State.startWakes.go layer n (wakeBegun s q)
      else s := by
  rw [State.startWakes.go]
  simp only [h]
  rfl

section

variable {layer : Nat} {s : State} {q : Nat} (h : (s.wakeQ.find? fun q => q / 64 == layer) = some q)
include h

theorem startWakes_go_up (n : Nat) (hstage : (Tbl.get {} s.quads q).stage = 8) : State.startWakes.go layer (n + 1) s =
    State.startWakes.go layer n (State.quadUp { s with wakeQ := s.wakeQ.filter (· != q) } q) := by
  rw [startWakes_go_succ layer n s h, if_pos (beq_iff_eq.mpr hstage)]

theorem startWakes_go_begin (n : Nat) (hstage : (Tbl.get {} s.quads q).stage ≠ 8) (hroom : s.wakingIn layer < max 1 s.pgWaves) :
    State.startWakes.go layer (n + 1) s = State.startWakes.go layer n (wakeBegun s q) := by
  rw [startWakes_go_succ layer n s h, if_neg (by simpa using hstage), if_pos hroom]

theorem startWakes_go_full (n : Nat) (hstage : (Tbl.get {} s.quads q).stage ≠ 8) (hfull : max 1 s.pgWaves ≤ s.wakingIn layer) :
    State.startWakes.go layer (n + 1) s = s := by
  rw [startWakes_go_succ layer n s h, if_neg (by simpa using hstage), if_neg (Nat.not_lt.mpr hfull)]

end

theorem startWakes_go_done {layer : Nat} {s : State} (h : ∀ y ∈ s.wakeQ, y / 64 ≠ layer) (n : Nat) :
    State.startWakes.go layer n s = s := by
  cases n with
  | zero => rfl
  | succ n =>
    have hnone : (s.wakeQ.find? fun q => q / 64 == layer) = none :=
      List.find?_eq_none.mpr fun y hy => by simpa using h y hy
    rw [State.startWakes.go]
    simp only [hnone]

/-- Wakes change no memory; a quad in a wake that waits no more stays in it. -/
theorem startWakes_go_keeps (layer n : Nat) (s : State) : (State.startWakes.go layer n s).mem = s.mem ∧
    ∀ y, y ∉ s.wakeQ → (Tbl.get {} s.quads y).waking = true →
      (Tbl.get {} (State.startWakes.go layer n s).quads y).waking = true := by
  induction n generalizing s with
  | zero => exact ⟨rfl, fun y _ h => h⟩
  | succ n ih =>
    cases hfind : s.wakeQ.find? fun q => q / 64 == layer with
    | none =>
      rw [State.startWakes.go]
      simp only [hfind]
      exact ⟨trivial, fun y _ h => h⟩
    | some q =>
      have hin : q ∈ s.wakeQ := List.mem_of_find?_eq_some hfind
      have hgone {y : Nat} (hy : y ∉ s.wakeQ) : y ∉ s.wakeQ.filter (· != q) := fun h => hy (List.mem_filter.mp h).1
      rw [startWakes_go_succ layer n s hfind]
      split
      · obtain ⟨hmem, hq, -⟩ := quadUp_mem { s with wakeQ := s.wakeQ.filter (· != q) } q
        obtain ⟨ihmem, ihwaking⟩ := ih (State.quadUp { s with wakeQ := s.wakeQ.filter (· != q) } q)
        refine ⟨ihmem.trans hmem, fun y hy hwaking => ihwaking y (hq ▸ hgone hy) ?_⟩
        have hne : y ≠ q := fun h => hy (h ▸ hin)
        exact (quadUp_other _ hne).1.trans hwaking
      · split
        · obtain ⟨ihmem, ihwaking⟩ := ih (wakeBegun s q)
          refine ⟨ihmem, fun y hy hwaking => ihwaking y (hgone hy) ?_⟩
          have hne : y ≠ q := fun h => hy (h ▸ hin)
          exact (congrArg Quad.waking (Tbl.get_put_other _ _ _ _ _ hne) :).trans hwaking
        · exact ⟨rfl, fun y _ h => h⟩

/-! #### The idle time and the stages (R101, R102) -/

theorem quadIdleExpiry_none {s : State} {q : Nat} (h : (Tbl.get {} s.quads q).idleFrom = none) :
    exec (.quadIdleExpiry q) s = .next s := by
  show execQuadIdleExpiry q s = _
  unfold execQuadIdleExpiry
  simp only [h]
  rfl

theorem quadIdleExpiry_idle {s : State} {q t0 : Nat} (hidle : (Tbl.get {} s.quads q).idleFrom = some t0)
    (hst : (Tbl.get {} s.quads q).st = 0) (hen : s.pgEn = true) (hbusy : ∀ t ∈ quadTiles q, s.tileBusy t = false) :
    (t0 + 1000 * max 1 s.pgIdle * tmUnit ≤ s.tm → exec (.quadIdleExpiry q) s = .next (s.quadSink q 1)) ∧
    (s.tm < t0 + 1000 * max 1 s.pgIdle * tmUnit → ∃ n, 1 ≤ n ∧
      exec (.quadIdleExpiry q) s = .next (s.schedIn n (.quadIdleExpiry q))) := by
  have hrun : exec (.quadIdleExpiry q) s = if s.tm < t0 + 1000 * max 1 s.pgIdle * tmUnit then
      ok (s.schedIn (max 1 ((t0 + 1000 * max 1 s.pgIdle * tmUnit - s.tm + s.tmStep - 1) / s.tmStep)) (.quadIdleExpiry q))
    else ok (s.quadSink q 1) := by
    show execQuadIdleExpiry q s = _
    unfold execQuadIdleExpiry
    simp only [hidle]
    rw [if_neg (by simp [hst, hen]), if_neg (by simpa using hbusy)]
  rw [hrun]
  exact ⟨fun h => if_neg (Nat.not_lt.mpr h), fun h => ⟨_, Nat.le_max_left _ _, if_pos h⟩⟩

theorem quadSink_begins (s : State) (q st : Nat) :
    let x := Tbl.get {} s.quads q
    let t := s.quadSink q st
    (Tbl.get {} t.quads q).st = st ∧ (Tbl.get {} t.quads q).waking = false ∧ (Tbl.get {} t.quads q).stage = x.stage ∧
      ((Tbl.get {} t.quads q).sinking = true ↔ x.stage ≠ 0) ∧
      (x.stage ≠ 0 → ∃ n, s.tick < n ∧ (n, .wakeStage q) ∈ t.agenda) := by
  intro x t
  by_cases h0 : x.stage = 0
  · have ht : t = { s.unsched (fun e => e == .wakeStage q) with quads := Tbl.put s.quads q { st := st } } :=
      if_pos (beq_iff_eq.mpr h0)
    have hget : Tbl.get {} t.quads q = { st := st } := by
      rw [ht]
      exact Tbl.get_put_same _ _ _ _
    rw [hget]
    exact ⟨rfl, rfl, h0.symm, by simp [h0], fun h => absurd h0 h⟩
  · let u : State := { s.unsched (fun e => e == .wakeStage q) with
      quads := Tbl.put s.quads q { st := st, sinking := true, stage := x.stage } }
    have ht : t = u.schedFree 1 (.wakeStage q) := if_neg (by simpa using h0)
    have hget : Tbl.get {} t.quads q = { st := st, sinking := true, stage := x.stage } := by
      rw [ht]
      exact Tbl.get_put_same _ _ _ _
    rw [hget]
    refine ⟨rfl, rfl, rfl, by simp [h0], fun _ => ?_⟩
    obtain ⟨n, hn, hmem⟩ := u.mem_schedFree 1 (.wakeStage q)
    rw [ht]
    exact ⟨n, hn, hmem⟩

theorem quadWake_active {s : State} {q : Nat} (h : (Tbl.get {} s.quads q).st = 0) : exec (.quadWake q) s = .next s :=
  if_pos (by simp [h])

/-- The state in which a quad's switch-off in progress has stopped. -/
def sinkStopped (s : State) (q : Nat) : State :=
  { s.unsched fun e => e == .wakeStage q with quads := Tbl.put s.quads q { Tbl.get {} s.quads q with sinking := false } }

/-- The state in which the wake stands last in the queue. -/
def wakeAsked (s : State) (q : Nat) : State := { sinkStopped s q with wakeQ := s.wakeQ ++ [q] }

section

variable {s : State} {q : Nat} (hst : (Tbl.get {} s.quads q).st ≠ 0) (hwaking : (Tbl.get {} s.quads q).waking = false)
  (hq : q ∉ s.wakeQ)
include hst hwaking hq

theorem quadWake_queued : exec (.quadWake q) s =
    .next (State.startWakes.go (q / 64) (s.wakeQ ++ [q]).length (wakeAsked s q)) :=
  if_neg (by simp [hst, hwaking, hq])

omit hst hwaking in
theorem filter_wakeQ : (s.wakeQ ++ [q]).filter (· != q) = s.wakeQ := by
  have hkept : s.wakeQ.filter (· != q) = s.wakeQ :=
    List.filter_eq_self.mpr fun y hy => bne_iff_ne.mpr fun h => hq (h ▸ hy)
  rw [List.filter_append, hkept]
  simp

omit hst hwaking hq in
theorem find_wakeQ (hfirst : ∀ y ∈ s.wakeQ, y / 64 ≠ q / 64) : ((s.wakeQ ++ [q]).find? fun y => y / 64 == q / 64) = some q := by
  rw [List.find?_append, List.find?_eq_none.mpr fun y hy => by simpa using hfirst y hy]
  simp

omit hst hwaking hq in
theorem sinkStopped_get : Tbl.get {} (sinkStopped s q).quads q = { Tbl.get {} s.quads q with sinking := false } :=
  Tbl.get_put_same _ _ _ _

theorem quadWake_first_up (hfirst : ∀ y ∈ s.wakeQ, y / 64 ≠ q / 64) (hstage : (Tbl.get {} s.quads q).stage = 8) :
    exec (.quadWake q) s = .next ((sinkStopped s q).quadUp q) := by
  rw [quadWake_queued hst hwaking hq, List.length_append, List.length_singleton]
  rw [startWakes_go_up (s := wakeAsked s q) (find_wakeQ hfirst) _ ((congrArg Quad.stage sinkStopped_get).trans hstage)]
  have hback : ({ sinkStopped s q with wakeQ := (s.wakeQ ++ [q]).filter (· != q) } : State) = sinkStopped s q :=
    congrArg (fun ws => ({ sinkStopped s q with wakeQ := ws } : State)) (filter_wakeQ hq)
  refine congrArg ok ((congrArg (fun u : State => State.startWakes.go (q / 64) _ (u.quadUp q)) hback).trans ?_)
  refine startWakes_go_done (fun y hy => hfirst y ?_) _
  rw [(quadUp_mem _ _).2.1] at hy
  exact hy

theorem quadWake_first_begins (hfirst : ∀ y ∈ s.wakeQ, y / 64 ≠ q / 64) (hstage : (Tbl.get {} s.quads q).stage ≠ 8)
    (hroom : ¬ max 1 s.pgWaves ≤ (sinkStopped s q).wakingIn (q / 64)) :
    exec (.quadWake q) s = .next (State.schedIn
      { sinkStopped s q with quads := Tbl.put (sinkStopped s q).quads q { Tbl.get {} s.quads q with sinking := false, waking := true } }
      (s.ticksOf 250) (.wakeStage q)) := by
  rw [quadWake_queued hst hwaking hq, List.length_append, List.length_singleton]
  rw [startWakes_go_begin (s := wakeAsked s q) (find_wakeQ hfirst) _ (fun h => hstage ((congrArg Quad.stage sinkStopped_get).symm.trans h)) (Nat.not_le.mp hroom)]
  have hbegun : wakeBegun (wakeAsked s q) q = State.schedIn
      { sinkStopped s q with quads := Tbl.put (sinkStopped s q).quads q { Tbl.get {} s.quads q with sinking := false, waking := true } }
      (s.ticksOf 250) (.wakeStage q) := by
    unfold wakeBegun wakeAsked
    simp only [filter_wakeQ hq, sinkStopped_get]
    rfl
  rw [hbegun]
  refine congrArg ok (startWakes_go_done (fun y hy => ?_) _)
  exact hfirst y hy

theorem quadWake_full (hstage : (Tbl.get {} s.quads q).stage ≠ 8) (hstages : ∀ y ∈ s.wakeQ, (Tbl.get {} s.quads y).stage ≠ 8)
    (hfull : max 1 s.pgWaves ≤ (sinkStopped s q).wakingIn (q / 64)) :
    exec (.quadWake q) s = .next { sinkStopped s q with wakeQ := s.wakeQ ++ [q] } := by
  have hsome : ∃ y, ((s.wakeQ ++ [q]).find? fun y => y / 64 == q / 64) = some y :=
    Option.isSome_iff_exists.mp (List.find?_isSome.mpr ⟨q, by simp, by simp⟩)
  obtain ⟨y, hy⟩ := hsome
  have hystage : (Tbl.get {} (sinkStopped s q).quads y).stage ≠ 8 := by
    by_cases hyq : y = q
    · subst hyq
      rw [sinkStopped_get]
      exact hstage
    · have hin : y ∈ s.wakeQ := by simpa [hyq] using List.mem_of_find?_eq_some hy
      have hkept := congrArg Quad.stage (Tbl.get_put_other {} s.quads q y { Tbl.get {} s.quads q with sinking := false } hyq)
      exact fun h => hstages y hin (hkept.symm.trans h)
  rw [quadWake_queued hst hwaking hq, List.length_append, List.length_singleton]
  rw [startWakes_go_full (s := wakeAsked s q) hy _ hystage hfull]
  rfl

end

theorem wakeStage_sinks {s : State} {q : Nat} (h : (Tbl.get {} s.quads q).sinking = true) :
    exec (.wakeStage q) s = .next (State.quadSink
      { s with quads := Tbl.put s.quads q { Tbl.get {} s.quads q with stage := (Tbl.get {} s.quads q).stage - 1 } } q
      (Tbl.get {} s.quads q).st) :=
  if_pos h

theorem wakeStage_idle {s : State} {q : Nat} (hwaking : (Tbl.get {} s.quads q).waking = false)
    (hsink : (Tbl.get {} s.quads q).sinking = false) : exec (.wakeStage q) s = .next s :=
  (if_neg (ne_true_of_eq_false hsink)).trans (if_pos (by rw [hwaking]; rfl))

section

variable {s : State} {q : Nat} (hwaking : (Tbl.get {} s.quads q).waking = true) (hsink : (Tbl.get {} s.quads q).sinking = false)
include hwaking hsink

theorem wakeStage_next (hstage : (Tbl.get {} s.quads q).stage + 1 < 8) : exec (.wakeStage q) s = .next (State.schedIn
    { s with quads := Tbl.put s.quads q { Tbl.get {} s.quads q with stage := (Tbl.get {} s.quads q).stage + 1 } }
    (s.ticksOf 250) (.wakeStage q)) :=
  (if_neg (ne_true_of_eq_false hsink)).trans ((if_neg (by rw [hwaking]; nofun)).trans (if_pos hstage))

theorem wakeStage_last (hstage : 8 ≤ (Tbl.get {} s.quads q).stage + 1) : ∃ t : State, exec (.wakeStage q) s = .next t ∧
    t.mem = s.mem ∧
    ((∀ y ∈ s.wakeQ, y / 64 ≠ q / 64) → (Tbl.get {} t.quads q).st = 0 ∧ (Tbl.get {} t.quads q).waking = false ∧
      ((Tbl.get {} s.quads q).st ≠ 2 → t.cores = s.cores)) ∧
    ∀ y rest, s.wakeQ = y :: rest → y / 64 = q / 64 → y ≠ q → (Tbl.get {} s.quads y).stage ≠ 8 →
      (s.quadUp q).wakingIn (q / 64) < max 1 s.pgWaves → (Tbl.get {} t.quads y).waking = true := by
  obtain ⟨hmem, hwakeQ, hwaves⟩ := quadUp_mem s q
  refine ⟨(s.quadUp q).startWakes (q / 64), ?_, ?_, fun hnone => ?_, fun y rest hq hlayer hne hys hroom => ?_⟩
  · exact (if_neg (ne_true_of_eq_false hsink)).trans ((if_neg (by rw [hwaking]; nofun)).trans (if_neg (Nat.not_lt.mpr hstage)))
  · exact (startWakes_go_keeps _ _ _).1.trans hmem
  · rw [State.startWakes, startWakes_go_done (by rw [hwakeQ]; exact hnone)]
    exact quadUp_self s q
  · have hfind : ((s.quadUp q).wakeQ.find? fun z => z / 64 == q / 64) = some y := by
      rw [hwakeQ, hq]
      exact List.find?_cons_of_pos (by simpa using hlayer)
    have hstage8 : (Tbl.get {} (s.quadUp q).quads y).stage ≠ 8 := fun h => hys ((quadUp_other s hne).2.symm.trans h)
    have hlength : (s.quadUp q).wakeQ.length = rest.length + 1 := by rw [hwakeQ, hq]; rfl
    rw [State.startWakes, hlength, startWakes_go_begin hfind _ hstage8 (by rw [hwaves]; exact hroom)]
    refine (startWakes_go_keeps _ _ _).2 y ?_ ?_
    · show y ∉ (s.quadUp q).wakeQ.filter (· != y)
      simp
    · exact (congrArg Quad.waking (Tbl.get_put_same _ _ _ _) :)

end

/-! #### Power-up (R510, R512) -/

/-- A step of power-up begins on the tick of what brings it about: its rails are in band within 10 ms, or one of them is not by
then. -/
theorem beginStep_begun (s u : State) {n : Nat} (on : List Nat) (htick : u.tick = s.tick)
    (hpwren : u.dv.power.pwren = s.dv.power.pwren) (hrails : stepRails n ≠ []) :
    begun s (u.beginStep n on) n on ∧ (u.beginStep n on).pnow = u.pnow ∧
      (u.beginStep n on).dv.power.ilk = u.dv.power.ilk ∧ (u.beginStep n on).dv.power.thermtrip = u.dv.power.thermtrip ∧
      (u.beginStep n on).dv.power.booted = u.dv.power.booted ∧ (u.beginStep n on).dv.power.recovery = u.dv.power.recovery := by
  let v := u.updPower fun p => { p with stage := n, on := on, stepAt := u.tick }
  by_cases hdelay : v.delay < v.ticksOf 10000000
  · let w := v.updPower fun p => { p with bandAt := some (v.tick + 1 + v.delay) }
    have hbound : s.tick < v.tick + 1 + v.delay ∧ v.tick + 1 + v.delay ≤ s.tick + v.ticksOf 10000000 := by
      have hvtick : v.tick = s.tick := htick
      omega
    by_cases hup : u.dv.power.pwren = true
    · have ht : u.beginStep n on = (w.schedIn (1 + v.delay) .pwrenAssert).tookDelay :=
        (if_pos hdelay).trans (congrArg State.tookDelay (if_pos hup))
      rw [ht]
      refine ⟨⟨rfl, rfl, htick, .inl ⟨_, rfl, hbound.1, hbound.2, fun _ => ?_⟩⟩, rfl, rfl, rfl, rfl, rfl⟩
      show (v.tick + 1 + v.delay, .pwrenAssert) ∈ (w.sched (v.tick + (1 + v.delay)) .pwrenAssert).agenda
      rw [Nat.add_assoc]
      exact w.mem_sched _ _ (Nat.le_add_right _ _)
    · have ht : u.beginStep n on = w.tookDelay := (if_pos hdelay).trans (congrArg State.tookDelay (if_neg hup))
      rw [ht]
      exact ⟨⟨rfl, rfl, htick, .inl ⟨_, rfl, hbound.1, hbound.2, fun h => absurd (hpwren.trans h) hup⟩⟩, rfl, rfl, rfl, rfl, rfl⟩
  · let w := v.updPower fun p => { p with bandAt := none }
    have ht : u.beginStep n on = (w.schedIn (v.ticksOf 10000000 + 1)
        (.railBandTimeout ((stepRails n).getD (v.delay % (stepRails n).length) 6))).tookDelay := if_neg hdelay
    have hpick : v.delay % (stepRails n).length < (stepRails n).length := Nat.mod_lt _ (List.length_pos_iff.mpr hrails)
    rw [ht]
    refine ⟨⟨rfl, rfl, htick, .inr ⟨rfl, (stepRails n).getD (v.delay % (stepRails n).length) 6,
      v.tick + (v.ticksOf 10000000 + 1), ?_, ?_, ?_⟩⟩, rfl, rfl, rfl, rfl, rfl⟩
    · rw [List.getD_eq_getElem?_getD, List.getElem?_eq_getElem hpick, Option.getD_some]
      exact List.getElem_mem hpick
    · have hvtick : v.tick = s.tick := htick
      rw [hvtick]
      exact Nat.add_lt_add_left (Nat.lt_succ_self (v.ticksOf 10000000)) s.tick
    · exact w.mem_sched _ _ (Nat.le_add_right _ _)

theorem powerStep_early {s : State} (h : ¬ inBand s) : s.powerStep = s := by
  refine if_pos ?_
  simp only [inBand] at h
  cases hband : s.dv.power.bandAt with
  | none => rfl
  | some b =>
    have hlate : ¬ b ≤ s.tick := fun hb => h ⟨b, hband, hb⟩
    simpa using hlate

section

variable {s : State} (hband : inBand s)
include hband

/-- Once its rails are in band, what follows a step is by its number. -/
theorem powerStep_inBand : s.powerStep = match s.dv.power.stage with
    | 1 => if s.dv.power.pwren && s.dv.power.booted then s.beginStep 2 [6, 5, 4] else s
    | 2 => if s.ilkMet then (s.updPower fun p => { p with ilk := true }).beginStep 3 [6, 5, 4, 3, 2] else s
    | 3 => State.beginStep { s.updPower (fun p => { p with thermtrip := false }) with pnow := 7 } 4 [6, 5, 4, 3, 2, 1, 0]
    | 4 => (s.updPower fun p => { p with stage := 5, pgood := true }).kick
    | _ => s := by
  obtain ⟨b, hb, hle⟩ := hband
  refine (if_neg ?_).trans rfl
  simp [hb, hle]

theorem powerStep_one (h : s.dv.power.stage = 1) :
    s.powerStep = if s.dv.power.pwren && s.dv.power.booted then s.beginStep 2 [6, 5, 4] else s := by
  rw [powerStep_inBand hband]
  simp only [h]

theorem powerStep_two (h : s.dv.power.stage = 2) :
    s.powerStep = if s.ilkMet then (s.updPower fun p => { p with ilk := true }).beginStep 3 [6, 5, 4, 3, 2] else s := by
  rw [powerStep_inBand hband]
  simp only [h]

theorem powerStep_three (h : s.dv.power.stage = 3) : s.powerStep =
    State.beginStep { s.updPower (fun p => { p with thermtrip := false }) with pnow := 7 } 4 [6, 5, 4, 3, 2, 1, 0] := by
  rw [powerStep_inBand hband]
  simp only [h]

theorem powerStep_four (h : s.dv.power.stage = 4) :
    s.powerStep = (s.updPower fun p => { p with stage := 5, pgood := true }).kick := by
  rw [powerStep_inBand hband]
  simp only [h]

theorem powerStep_over (h : s.dv.power.stage = 0 ∨ s.dv.power.stage = 5) : s.powerStep = s := by
  rw [powerStep_inBand hband]
  rcases h with h | h <;> simp only [h]

end

theorem vinApplied_noStep {s : State} {mv : Nat} (h : (mv < 40000 ∨ 60000 < mv) ∨ s.dv.power.stage ≠ 0) :
    exec (.vinApplied mv) s = .next (s.updPower fun p => { p with vinMv := mv }) := by
  refine if_neg ?_
  rcases h with (h | h) | h
  · simp [Nat.not_le.mpr h]
  · simp [Nat.not_le.mpr h]
  · have h' : ¬ (s.updPower fun p => { p with vinMv := mv }).dv.power.stage = 0 := h
    simp [h']

theorem vinApplied_boots {s : State} {mv : Nat} (hlow : 40000 ≤ mv) (hhigh : mv ≤ 60000) (hstage : s.dv.power.stage = 0) :
    ∃ t : State, exec (.vinApplied mv) s = .next t ∧
      t.dv.power.booted = s.dv.boots ∧ t.dv.power.recovery = (!s.dv.boots) ∧ begun s t 1 [6] := by
  have hstage' : (s.updPower fun p => { p with vinMv := mv }).dv.power.stage = 0 := hstage
  obtain ⟨hbegun, -, -, -, hbooted, hrecovery⟩ :=
    beginStep_begun s (s.updPower fun p => { p with vinMv := mv }).boot [6] rfl rfl (n := 1) (by decide)
  exact ⟨_, if_pos (by simp [hlow, hhigh, hstage']), hbooted, hrecovery, hbegun⟩

theorem pwrenAssert_off {s : State} (h : s.dv.power.bandAt = none) :
    exec .pwrenAssert s = .next (s.updPower fun p => { p with pwren := true }) := by
  have h' : (s.updPower fun p => { p with pwren := true }).dv.power.bandAt = none := h
  show execPwrenAssert s = _
  unfold execPwrenAssert
  simp only [h']
  rfl

theorem pwrenAssert_at {s : State} {b : Nat} (h : s.dv.power.bandAt = some b) : exec .pwrenAssert s =
    if s.tick < b then ok ((s.updPower fun p => { p with pwren := true }).sched b .pwrenAssert)
    else ok (s.updPower fun p => { p with pwren := true }).powerStep := by
  have h' : (s.updPower fun p => { p with pwren := true }).dv.power.bandAt = some b := h
  show execPwrenAssert s = _
  unfold execPwrenAssert
  simp only [h']
  rfl

theorem pwrenAssert_inBand {s : State} (h : inBand s) :
    exec .pwrenAssert s = .next (s.updPower fun p => { p with pwren := true }).powerStep := by
  obtain ⟨b, hb, hle⟩ := h
  rw [pwrenAssert_at hb]
  exact if_neg (Nat.not_lt.mpr hle)

theorem pwrenAssert_steps {s : State} (h : inBand s) :
    let u := s.updPower fun p => { p with pwren := true }
    (s.dv.power.stage = 1 → s.dv.power.booted = true → ∃ t : State, exec .pwrenAssert s = .next t ∧ begun u t 2 [6, 5, 4]) ∧
    (s.dv.power.stage = 1 → s.dv.power.booted = false → exec .pwrenAssert s = .next u) ∧
    (s.dv.power.stage = 2 → s.ilkMet = true → ∃ t : State, exec .pwrenAssert s = .next t ∧ begun u t 3 [6, 5, 4, 3, 2] ∧
      t.dv.power.ilk = true) ∧
    (s.dv.power.stage = 2 → s.ilkMet = false → exec .pwrenAssert s = .next u) ∧
    (s.dv.power.stage = 3 → ∃ t : State, exec .pwrenAssert s = .next t ∧ begun u t 4 [6, 5, 4, 3, 2, 1, 0] ∧ t.pnow = 7 ∧
      t.dv.power.thermtrip = false ∧ t.dv.power.coresOn = true) ∧
    (s.dv.power.stage = 4 → ∃ t : State, exec .pwrenAssert s = .next t ∧ t.dv.power.stage = 5 ∧ t.dv.power.pgood = true) ∧
    (s.dv.power.stage = 0 ∨ s.dv.power.stage = 5 → exec .pwrenAssert s = .next u) := by
  intro u
  have hu : inBand u := h
  have hilk : u.ilkMet = s.ilkMet := rfl
  have hbooted : u.dv.power.booted = s.dv.power.booted := rfl
  have hpwren : u.dv.power.pwren = true := rfl
  rw [pwrenAssert_inBand h]
  refine ⟨fun h1 hb => ?_, fun h1 hb => ?_, fun h2 hi => ?_, fun h2 hi => ?_, fun h3 => ?_, fun h4 => ?_, fun h5 => ?_⟩
  · refine ⟨_, rfl, ?_⟩
    rw [powerStep_one hu h1, if_pos (by rw [hpwren, hbooted, hb]; rfl)]
    exact (beginStep_begun u u [6, 5, 4] rfl rfl (n := 2) (by decide)).1
  · rw [powerStep_one hu h1, if_neg (by rw [hbooted, hb, Bool.and_false]; nofun)]
  · refine ⟨_, rfl, ?_⟩
    rw [powerStep_two hu h2, if_pos (hilk.trans hi)]
    obtain ⟨hbegun, -, hilk', -⟩ :=
      beginStep_begun u (u.updPower fun p => { p with ilk := true }) [6, 5, 4, 3, 2] rfl rfl (n := 3) (by decide)
    exact ⟨hbegun, hilk'⟩
  · rw [powerStep_two hu h2, if_neg (ne_true_of_eq_false (hilk.trans hi))]
  · refine ⟨_, rfl, ?_⟩
    rw [powerStep_three hu h3]
    obtain ⟨hbegun, hpnow, -, htrip, -⟩ := beginStep_begun u { u.updPower (fun p => { p with thermtrip := false }) with pnow := 7 }
      [6, 5, 4, 3, 2, 1, 0] rfl rfl (n := 4) (by decide)
    obtain ⟨-, hon, -⟩ := id hbegun
    refine ⟨hbegun, hpnow, htrip, ?_⟩
    rw [Power.coresOn, hon]
    rfl
  · refine ⟨_, rfl, ?_⟩
    rw [powerStep_four hu h4]
    obtain ⟨ag, hkick⟩ := kick_eq (u.updPower fun p => { p with stage := 5, pgood := true })
    rw [hkick]
    exact ⟨rfl, rfl⟩
  · rw [powerStep_over hu h5]

theorem railBandTimeout_due (s : State) (n : Nat) :
    let p := s.dv.power
    let due := p.stage = railStep n ∧ n < 7 ∧ ¬ inBand s ∧ s.ticksOf 10000000 ≤ s.tick - p.stepAt
    (¬ due → exec (.railBandTimeout n) s = .next s) ∧
    (due → ∃ t : State, exec (.railBandTimeout n) s = .next t ∧ t.dv.power.on = [6] ∧ t.dv.power.recovery = true ∧
      t.dv.power.booted = false ∧ t.dv.power.badRail = some n ∧ t.dv.power.pgood = false ∧ t.dv.power.alert = true ∧
      ∀ e ∈ t.agenda, e.2 ≠ .pwrenAssert) := by
  intro p due
  have hband : (p.bandAt.any fun t => t ≤ s.tick) = true ↔ inBand s := by
    rw [Option.any_eq_true]
    exact exists_congr fun b => and_congr_right fun _ => decide_eq_true_iff
  have hdue : (p.stage == railStep n && n < 7 && !(p.bandAt.any fun t => t ≤ s.tick) && s.ticksOf 10000000 ≤ s.tick - p.stepAt) = true ↔
      due := by
    simp only [Bool.and_eq_true, beq_iff_eq, decide_eq_true_eq, Bool.not_eq_true', ← Bool.not_eq_true, hband, due, and_assoc]
  refine ⟨fun h => if_neg (mt hdue.mp h), fun h => ⟨_, if_pos (hdue.mpr h), rfl, rfl, rfl, rfl, rfl, rfl, fun e he => ?_⟩⟩
  have hkept := (List.mem_filter.mp he).2
  intro hev
  simp [hev] at hkept

theorem mem_stepRails {n : Nat} (h : n < 7) : n ∈ stepRails (railStep n) := by
  revert n
  decide

/-! #### Power-down, resets and coolant (R78, R511 to R513) -/

theorem setPollingAll_keeps (s : State) : s.setPollingAll.parts = s.parts ∧ s.setPollingAll.cores = s.cores ∧
    s.setPollingAll.mem = s.mem ∧ s.setPollingAll.dv.doe = s.dv.doe ∧ s.setPollingAll.dv.power = s.dv.power := by
  have hstep (u : State) (q : Nat) : (u.setPolling q).parts = u.parts ∧ (u.setPolling q).cores = u.cores ∧
      (u.setPolling q).mem = u.mem ∧ (u.setPolling q).dv.doe = u.dv.doe ∧ (u.setPolling q).dv.power = u.dv.power := by
    unfold State.setPolling
    dsimp only
    split
    · exact ⟨rfl, rfl, rfl, rfl, rfl⟩
    · split <;> exact ⟨rfl, rfl, rfl, rfl, rfl⟩
  have hfold (qs : List Nat) (u : State) : (qs.foldl State.setPolling u).parts = u.parts ∧
      (qs.foldl State.setPolling u).cores = u.cores ∧ (qs.foldl State.setPolling u).mem = u.mem ∧
      (qs.foldl State.setPolling u).dv.doe = u.dv.doe ∧ (qs.foldl State.setPolling u).dv.power = u.dv.power := by
    induction qs generalizing u with
    | nil => exact ⟨rfl, rfl, rfl, rfl, rfl⟩
    | cons q qs ih =>
      obtain ⟨hparts, hcores, hmem, hdoe, hpower⟩ := ih (u.setPolling q)
      obtain ⟨hparts', hcores', hmem', hdoe', hpower'⟩ := hstep u q
      exact ⟨hparts.trans hparts', hcores.trans hcores', hmem.trans hmem', hdoe.trans hdoe', hpower.trans hpower'⟩
  exact hfold (List.range 4) s

theorem perstN_resets (s : State) : ∃ t : State, exec .perstN s = .next t ∧ t.dv.qps = [] ∧ t.dv.ide = [] ∧ t.dv.ideKeys = [] ∧
    t.seqs = [] ∧ (s.parts = [] → t.dv.power = s.dv.power ∧ t.mem = s.mem) := by
  let ended (ps : List Nat) : State := ps.foldl (fun s p => s.endPart p (s.part p).code false) s
  have hrun : ∃ f : Ev → Bool, exec .perstN s = .next
      { (ended (s.parts.map (·.1))).unsched f with
        seqs := [], atc := []
        dv := { (ended (s.parts.map (·.1))).dv with qps := [], ide := [], ideCover := [], ideKeys := [] } } := ⟨_, rfl⟩
  obtain ⟨f, hrun⟩ := hrun
  refine ⟨_, hrun, rfl, rfl, rfl, rfl, fun hparts => ?_⟩
  rw [hparts]
  exact ⟨rfl, rfl⟩

theorem mcRstN_restarts (s : State) : ∃ t : State, exec .mcRstN s = .next t ∧ t.parts = s.parts ∧ t.cores = s.cores ∧
    t.mem = s.mem ∧ t.dv.doe = [] ∧ t.dv.power.booted = s.dv.boots ∧ t.dv.power.recovery = !s.dv.boots := by
  obtain ⟨hparts, hcores, hmem, hdoe, hpower⟩ := setPollingAll_keeps { s.boot with dv := { s.boot.dv with doe := [] } }
  exact ⟨_, rfl, hparts, hcores, hmem, hdoe, congrArg Power.booted hpower, congrArg Power.recovery hpower⟩

/-- What a reading of the coolant records. -/
def coolRead (s : State) (tin tout : Int) (flow dp : Nat) : State :=
  s.updPower fun p => { p with
    tin := tin, tout := tout, flow := flow, dp := dp, coolHot := decide (200 < tin), coolLow := decide (flow < 250), coolV := true
    flowFrom := if flow < 250 then none else some (p.flowFrom.getD s.tick) }

theorem coolReading_eq (s : State) (tin tout : Int) (flow dp : Nat) : exec (.coolReading tin tout flow dp) s =
    .next (if s.dv.power.stage = 2 then (coolRead s tin tout flow dp).powerStep else coolRead s tin tout flow dp) := by
  show execCoolReading tin tout flow dp s = _
  unfold execCoolReading coolRead
  simp only [decide_eq_true_eq, beq_iff_eq]
  rfl

theorem coolReading_other {s : State} {tin tout : Int} {flow dp : Nat} (h : s.dv.power.stage ≠ 2) :
    exec (.coolReading tin tout flow dp) s = .next (coolRead s tin tout flow dp) := by
  rw [coolReading_eq, if_neg h]

theorem coolReading_goesOn {s : State} {tin tout : Int} {flow dp t0 : Nat} (hstage : s.dv.power.stage = 2) (hband : inBand s)
    (htin : tin ≤ 200) (hflow : 250 ≤ flow) (hfrom : s.dv.power.flowFrom = some t0) (hlong : s.ticksOf 1000000000 ≤ s.tick - t0) :
    ∃ t : State, exec (.coolReading tin tout flow dp) s = .next t ∧ begun s t 3 [6, 5, 4, 3, 2] ∧ t.dv.power.ilk = true := by
  let u := coolRead s tin tout flow dp
  have hu : inBand u := hband
  have hmet : u.ilkMet = true := by
    have huf : u.dv.power.flowFrom = some t0 := by
      show (if flow < 250 then none else some (s.dv.power.flowFrom.getD s.tick)) = some t0
      rw [if_neg (Nat.not_lt.mpr hflow), hfrom]
      rfl
    have hulong : u.ticksOf 1000000000 ≤ u.tick - t0 := hlong
    have hut : u.dv.power.tin ≤ 200 := htin
    have huv : u.dv.power.coolV = true := rfl
    unfold State.ilkMet
    simp [huf, hulong, hut, huv]
  refine ⟨u.powerStep, ?_, ?_⟩
  · rw [coolReading_eq, if_pos hstage]
  · rw [powerStep_two hu hstage, if_pos hmet]
    obtain ⟨hbegun, -, hilk, -⟩ :=
      beginStep_begun s (u.updPower fun p => { p with ilk := true }) [6, 5, 4, 3, 2] rfl rfl (n := 3) (by decide)
    exact ⟨hbegun, hilk⟩

theorem coolReading_waits {s : State} {tin tout : Int} {flow dp : Nat} (hstage : s.dv.power.stage = 2)
    (h : 200 < tin ∨ flow < 250) : ∃ t : State, exec (.coolReading tin tout flow dp) s = .next t ∧ t.dv.power.stage = 2 ∧
      t.dv.power.on = s.dv.power.on := by
  let u := coolRead s tin tout flow dp
  have hnot : u.ilkMet = false := by
    unfold State.ilkMet
    rcases h with h | h
    · have hut : ¬ u.dv.power.tin ≤ 200 := Int.not_le.mpr h
      simp [hut]
    · have huf : u.dv.power.flowFrom = none := if_pos h
      simp [huf]
  have hstep : u.powerStep = u := by
    by_cases hband : inBand u
    · rw [powerStep_two hband hstage, if_neg (ne_true_of_eq_false hnot)]
    · exact powerStep_early hband
  refine ⟨u, ?_, hstage, rfl⟩
  rw [coolReading_eq, if_pos hstage]
  exact congrArg ok hstep

/-- Settles O58: quads, the steps of power-up, resets and coolant readings, case by case. -/
theorem quadAndPowerEvents : Obligations.QuadAndPowerEvents := by
  unfold Obligations.QuadAndPowerEvents
  refine ⟨fun s q => ?_, fun s => ?_⟩
  · exact ⟨quadIdleExpiry_none, fun t0 hidle hst hen hbusy => quadIdleExpiry_idle hidle hst hen hbusy,
      fun st => quadSink_begins s q st, wakeStage_sinks, quadWake_active,
      fun hst hwaking hq => ⟨fun hfirst hstage => quadWake_first_up hst hwaking hq hfirst hstage,
        fun hfirst hstage hroom => quadWake_first_begins hst hwaking hq hfirst hstage hroom,
        fun hstage hstages hfull => quadWake_full hst hwaking hq hstage hstages hfull⟩,
      fun hwaking hsink hstage => wakeStage_next hwaking hsink hstage,
      fun hwaking hsink hstage => wakeStage_last hwaking hsink hstage, wakeStage_idle⟩
  · exact ⟨fun mv h => vinApplied_noStep (.inl h), fun mv _ _ h => vinApplied_noStep (.inr h),
      fun mv hlow hhigh hstage => vinApplied_boots hlow hhigh hstage, pwrenAssert_off,
      fun b hb hlt => (pwrenAssert_at hb).trans (if_pos hlt), pwrenAssert_steps, railBandTimeout_due s,
      fun n hn => mem_stepRails hn,
      ⟨_, rfl, rfl, rfl, rfl, rfl, rfl, rfl, rfl, rfl, rfl, rfl, rfl⟩,
      ⟨_, rfl, rfl, rfl, rfl, rfl, rfl, rfl, rfl, rfl, rfl⟩,
      perstN_resets s, mcRstN_restarts s, fun tin tout flow dp h => coolReading_other h,
      fun tin tout flow dp t0 hstage hband htin hflow hfrom hlong => coolReading_goesOn hstage hband htin hflow hfrom hlong,
      fun tin tout flow dp hstage h => coolReading_waits hstage h⟩

end Sys2Proof.Machine
